-- ==== Sys2Proof/Word.lean ====
section
/-! DEFINITION. The word types of the Hokulia model and their plainest arithmetic (spec/02 R31, spec/01 R7). -/
namespace Sys2Proof

/-- One byte. -/
abbrev Byte := BitVec 8
/-- A half word, 16 bits. -/
abbrev Half := BitVec 16
/-- A 32-bit word: an instruction word or a binary32 pattern. -/
abbrev Word := BitVec 32
/-- A scalar register value, 64 bits (R31). -/
abbrev DWord := BitVec 64
/-- A wide value: 24 lanes of binary32, lane l first at index l (R31). -/
abbrev Wide := Vector Word 24
/-- A mask, bit e for element or lane e (R31). -/
abbrev Mask := BitVec 24

end Sys2Proof
end

