-- ==== Sys2Proof/Machine/Bits.lean ====
section
/-! DEFINITION. Bit fields, sign extension and little-endian bytes, shared by the decoder and the machine
(spec/00 R4, spec/03 R53). -/
namespace Sys2Proof

/-- Bits [hi:lo] of a number (R4). -/
def fld (w hi lo : Nat) : Nat := w / 2 ^ lo % 2 ^ (hi - lo + 1)

/-- Whether bit `i` of a number is 1. -/
def bitOf (w i : Nat) : Bool := w / 2 ^ i % 2 == 1

/-- 1 for true, 0 for false. -/
def b2n (b : Bool) : Nat := if b then 1 else 0

/-- The signed value of the low `n` bits of `v`. -/
def sextInt (n v : Nat) : Int :=
  let u := v % 2 ^ n
  if u < 2 ^ (n - 1) then (u : Int) else (u : Int) - (2 ^ n : Nat)

/-- A 64-bit value from a signed number, modulo 2^64 (R27). -/
def dw (v : Int) : DWord := BitVec.ofInt 64 v

/-- A 64-bit value from a natural number, modulo 2^64. -/
def dwn (v : Nat) : DWord := BitVec.ofNat 64 v

/-- The number little-endian bytes stand for (R4). -/
def leNat : List Byte → Nat
  | [] => 0
  | b :: bs => b.toNat + 256 * leNat bs

/-- The `n` little-endian bytes of a number (R4). -/
def leBytes : Nat → Nat → List Byte
  | 0, _ => []
  | n + 1, v => BitVec.ofNat 8 v :: leBytes n (v / 256)

/-- floor(log2 n) for n > 0; 0 for 0. -/
def log2n (n : Nat) : Nat := Nat.log2 n

/-- A value clamped to a range. -/
def clampN (v lo hi : Nat) : Nat := if v < lo then lo else if hi < v then hi else v

/-- A signed value clamped to a range. -/
def clampI (v lo hi : Int) : Int := if v < lo then lo else if hi < v then hi else v

/-- v rounded up to a multiple of n. -/
def roundUp (v n : Nat) : Nat := (v + n - 1) / n * n

/-- Quotient rounded up. -/
def ceilDiv (v n : Nat) : Nat := (v + n - 1) / n

end Sys2Proof
end

