-- ==== Sys2Proof/Syntax.lean ====
section
/-! DEFINITION. The instructions and whole steps of the Hokulia module: one constructor per row of
spec/opcode_table.json. Operand fields are typed by register class (spec/03 R33, R52 to R72), so a register
number outside its class cannot be written. An event's operands say where in the machine it happens. -/
namespace Sys2Proof

/-- A register field of a class with `n` registers: a register, or a port q0 to q7 (R33). -/
inductive Opnd (n : Nat) where
  | reg (i : Fin n)
  | port (q : Fin 8)
deriving DecidableEq, Repr

abbrev XOp := Opnd 24
abbrev AOp := Opnd 24
abbrev WOp := Opnd 24
abbrev POp := Opnd 8
abbrev MOp := Opnd 8
abbrev TOp := Opnd 4
/-- The pg field: the governing predicate, p0 always true (R54). -/
abbrev Pg := Fin 8

/-- An agent that executes instructions (R30): a stage context of a physical cell (position p of R166), or
the conductor of a cluster k = 12·die + cluster. -/
inductive AgentId where
  | ctx (cell : Nat) (c : Fin 4)
  | cond (k : Nat)
deriving DecidableEq, Repr

/-- The scopes of `fence` (R245). -/
inductive Scope where
  | ctx | cell | region | module | system
deriving DecidableEq, Repr

/-- A byte of physical memory: where a translated address lands (R239). -/
inductive Place where
  | store (cell off : Nat)
  | bulk (a : Nat)
  | seam (a : Nat)
  | host (a : Nat)
  | lode (chip a : Nat)
  | peer (port idx off : Nat)
deriving DecidableEq, Repr

/-- The wait clause of a long command: semaphore and threshold (R61). -/
structure Wait where
  sem : BitVec 8
  thr : BitVec 16
deriving DecidableEq, Repr

/-- The signal clause of a long command: semaphore and increment (R61). -/
structure Signal where
  sem : BitVec 8
  inc : BitVec 8
deriving DecidableEq, Repr

/-- The optional clauses of a long command (R61). -/
structure WaitSig where
  wait : Option Wait
  signal : Option Signal
deriving DecidableEq, Repr

/-- The writable queue registers with behaviour of their own, but TAIL (R335). -/
inductive QReg where
  | qbase | qcfg | period | budget | tokens
deriving DecidableEq, Repr

/-- A Finub packet as its header fields and its payload (R380); CRCs and padding are implied. -/
structure Packet where
  seq : BitVec 12
  ack : BitVec 12
  nak : Bool
  addr : DWord
  key : Word
  tag : BitVec 24
  arg : DWord
  data : List Byte
deriving DecidableEq, Repr

/-- One admission of a region's owner at a partition border, with its rate (R231). -/
structure Border where
  fromPart : Nat
  toPart : Nat
  owner : Nat
  rate : Nat
deriving DecidableEq, Repr

/-- The rows of spec/opcode_table.json. -/
inductive Instr where
  -- rows with a 32-bit word
  /-- ADD (R82): Writes (a + b) mod 2^64 to rd. -/
  | add (rd ra rb : XOp) (pg : Pg)
  /-- SUB (R82): Writes (a − b) mod 2^64 to rd. -/
  | sub (rd ra rb : XOp) (pg : Pg)
  /-- AND (R82): Writes the bitwise AND of a and b. -/
  | and (rd ra rb : XOp) (pg : Pg)
  /-- OR (R82): Writes the bitwise OR of a and b. -/
  | or (rd ra rb : XOp) (pg : Pg)
  /-- XOR (R82): Writes the bitwise XOR of a and b. -/
  | xor (rd ra rb : XOp) (pg : Pg)
  /-- ANDN (R82): Writes a AND NOT b. -/
  | andn (rd ra rb : XOp) (pg : Pg)
  /-- SHL (R82): Shifts a left by b[5:0]. -/
  | shl (rd ra rb : XOp) (pg : Pg)
  /-- SHR (R82): Shifts a right by b[5:0], zero-filled. -/
  | shr (rd ra rb : XOp) (pg : Pg)
  /-- SRA (R82): Shifts a right by b[5:0], sign-filled. -/
  | sra (rd ra rb : XOp) (pg : Pg)
  /-- ROT (R82): Rotates a right by b[5:0]. -/
  | rot (rd ra rb : XOp) (pg : Pg)
  /-- ADDW (R82): 32-bit add, sign-extended. -/
  | addw (rd ra rb : XOp) (pg : Pg)
  /-- SUBW (R82): 32-bit subtract, sign-extended. -/
  | subw (rd ra rb : XOp) (pg : Pg)
  /-- SHLW (R82): 32-bit left shift, sign-extended. -/
  | shlw (rd ra rb : XOp) (pg : Pg)
  /-- SHRW (R82): 32-bit logical right shift, sign-extended. -/
  | shrw (rd ra rb : XOp) (pg : Pg)
  /-- SRAW (R82): 32-bit arithmetic right shift, sign-extended. -/
  | sraw (rd ra rb : XOp) (pg : Pg)
  /-- MUL (R82): Writes (a × b) mod 2^64. -/
  | mul (rd ra rb : XOp) (pg : Pg)
  /-- MULH (R82): Writes the high half of the signed product. -/
  | mulh (rd ra rb : XOp) (pg : Pg)
  /-- MULHU (R82): Writes the high half of the unsigned product. -/
  | mulhu (rd ra rb : XOp) (pg : Pg)
  /-- MULW (R82): 32-bit multiply, sign-extended. -/
  | mulw (rd ra rb : XOp) (pg : Pg)
  /-- DIV (R28): Signed division truncating toward zero. -/
  | div (rd ra rb : XOp) (pg : Pg)
  /-- DIVU (R28): Unsigned division. -/
  | divu (rd ra rb : XOp) (pg : Pg)
  /-- REM (R28): Signed remainder. -/
  | rem (rd ra rb : XOp) (pg : Pg)
  /-- REMU (R28): Unsigned remainder. -/
  | remu (rd ra rb : XOp) (pg : Pg)
  /-- MIN (R82): Signed minimum. -/
  | min (rd ra rb : XOp) (pg : Pg)
  /-- MAX (R82): Signed maximum. -/
  | max (rd ra rb : XOp) (pg : Pg)
  /-- MINU (R82): Unsigned minimum. -/
  | minu (rd ra rb : XOp) (pg : Pg)
  /-- MAXU (R82): Unsigned maximum. -/
  | maxu (rd ra rb : XOp) (pg : Pg)
  /-- SLT (R82): 1 if a < b signed. -/
  | slt (rd ra rb : XOp) (pg : Pg)
  /-- SLTU (R82): 1 if a < b unsigned. -/
  | sltu (rd ra rb : XOp) (pg : Pg)
  /-- SEQ (R82): 1 if a == b. -/
  | seq (rd ra rb : XOp) (pg : Pg)
  /-- CLZ (R82): Counts leading zero bits of a. -/
  | clz (rd ra : XOp) (pg : Pg)
  /-- POPC (R82): Counts one bits of a. -/
  | popc (rd ra : XOp) (pg : Pg)
  /-- BREV (R82): Reverses the bits of a. -/
  | brev (rd ra : XOp) (pg : Pg)
  /-- ADDI (R83): Adds a sign-extended 13-bit immediate. -/
  | addi (rd ra : XOp) (imm : BitVec 13) (pg : Pg)
  /-- ANDI (R83): ANDs with the immediate. -/
  | andi (rd ra : XOp) (imm : BitVec 13) (pg : Pg)
  /-- ORI (R83): ORs with the immediate. -/
  | ori (rd ra : XOp) (imm : BitVec 13) (pg : Pg)
  /-- XORI (R83): XORs with the immediate. -/
  | xori (rd ra : XOp) (imm : BitVec 13) (pg : Pg)
  /-- SHLI (R83): Shifts left by an immediate amount. -/
  | shli (rd ra : XOp) (sh : BitVec 6) (pg : Pg)
  /-- SHRI (R83): Logical right shift by an immediate amount. -/
  | shri (rd ra : XOp) (sh : BitVec 6) (pg : Pg)
  /-- SRAI (R83): Arithmetic right shift by an immediate amount. -/
  | srai (rd ra : XOp) (sh : BitVec 6) (pg : Pg)
  /-- SLTI (R83): 1 if a < immediate, signed. -/
  | slti (rd ra : XOp) (imm : BitVec 13) (pg : Pg)
  /-- SLTIU (R83): 1 if a < immediate, unsigned. -/
  | sltiu (rd ra : XOp) (imm : BitVec 13) (pg : Pg)
  /-- LUI (R84): Writes sext(imm21 × 2^11). -/
  | lui (rd : XOp) (imm : BitVec 21)
  /-- LIH (R84): Writes rd[63:32] from sext(imm21), keeping rd[31:0]. -/
  | lih (rd : XOp) (imm : BitVec 21)
  /-- AUIPC (R84): Writes the instruction address plus sext(imm21 × 2^11). -/
  | auipc (rd : XOp) (imm : BitVec 21)
  /-- PEQ (R85): Sets pd if a == b. -/
  | peq (rd : POp) (ra rb : XOp) (pg : Pg)
  /-- PNE (R85): Sets pd if a ≠ b. -/
  | pne (rd : POp) (ra rb : XOp) (pg : Pg)
  /-- PLT (R85): Sets pd if a < b signed. -/
  | plt (rd : POp) (ra rb : XOp) (pg : Pg)
  /-- PGE (R85): Sets pd if a ≥ b signed. -/
  | pge (rd : POp) (ra rb : XOp) (pg : Pg)
  /-- PLTU (R85): Sets pd if a < b unsigned. -/
  | pltu (rd : POp) (ra rb : XOp) (pg : Pg)
  /-- PGEU (R85): Sets pd if a ≥ b unsigned. -/
  | pgeu (rd : POp) (ra rb : XOp) (pg : Pg)
  /-- PAND (R85): pd := pa AND pb. -/
  | pand (rd ra rb : POp) (pg : Pg)
  /-- POR (R85): pd := pa OR pb. -/
  | por (rd ra rb : POp) (pg : Pg)
  /-- PXOR (R85): pd := pa XOR pb. -/
  | pxor (rd ra rb : POp) (pg : Pg)
  /-- PNOT (R85): pd := NOT pa. -/
  | pnot (rd ra : POp) (pg : Pg)
  /-- PMANY (R85): pd := 1 if mask ma is nonzero. -/
  | pmany (rd : POp) (ra : MOp) (pg : Pg)
  /-- MSET (R85): md := xa[23:0]. -/
  | mset (rd : MOp) (ra : XOp) (pg : Pg)
  /-- MGET (R85): xd := ma zero-extended. -/
  | mget (rd : XOp) (ra : MOp) (pg : Pg)
  /-- MNOT (R85): md := NOT ma. -/
  | mnot (rd ra : MOp) (pg : Pg)
  /-- CSRRW (R86): Reads a CSR into rd and writes xa to it. -/
  | csrrw (rd ra : XOp) (csr : BitVec 12) (pg : Pg)
  /-- CSRRS (R86): Reads a CSR and sets the bits of xa when ra is nonzero. -/
  | csrrs (rd ra : XOp) (csr : BitVec 12) (pg : Pg)
  /-- CSRRC (R86): Reads a CSR and clears the bits of xa when ra is nonzero. -/
  | csrrc (rd ra : XOp) (csr : BitVec 12) (pg : Pg)
  /-- BEQ (R88): Branches if a == b. -/
  | beq (ra rb : XOp) (off : BitVec 16)
  /-- BNE (R88): Branches if a ≠ b. -/
  | bne (ra rb : XOp) (off : BitVec 16)
  /-- BLT (R88): Branches if a < b signed. -/
  | blt (ra rb : XOp) (off : BitVec 16)
  /-- BGE (R88): Branches if a ≥ b signed. -/
  | bge (ra rb : XOp) (off : BitVec 16)
  /-- BLTU (R88): Branches if a < b unsigned. -/
  | bltu (ra rb : XOp) (off : BitVec 16)
  /-- BGEU (R88): Branches if a ≥ b unsigned. -/
  | bgeu (ra rb : XOp) (off : BitVec 16)
  /-- JAL (R89): Jumps and links into x23. -/
  | jal (off : BitVec 26)
  /-- JALR (R89): Jumps to xa + imm and writes the return address to rd. -/
  | jalr (rd ra : XOp) (imm : BitVec 13) (pg : Pg)
  /-- REP (R91): Starts a repeat unit of the next word with stepped register fields. -/
  | rep (cnt : BitVec 6) (sd sa sb sc : BitVec 2)
  /-- REPEAT (R91): One repeat of a rep unit executes as one instruction and counts down REPC. -/
  | rept
  /-- NOP (R94): Advances the PC only. -/
  | nop (pg : Pg)
  /-- TRAP (R95): Raises SWTRAP with TINFO0 := xa. -/
  | trap (ra : XOp) (pg : Pg)
  /-- RETT (R48): Checks the frame, replays its entries and resumes at TPC. -/
  | rett (pg : Pg)
  /-- ENDS (R97): Ends the stage for the current iteration. -/
  | ends (pg : Pg)
  /-- FENCE (R98): Orders the agent's memory accesses at the named scope. -/
  | fence (scope : Scope) (pg : Pg)
  /-- BAR (R99): Waits at a barrier of all participants of the clause or sentence. -/
  | bar (pg : Pg)
  /-- WFA (R100): Waits for and consumes an arrival token on the stage's trigger line. -/
  | wfa (pg : Pg)
  /-- YIELD (R101): Advances the context's pass beyond the other contexts'. -/
  | yield (pg : Pg)
  /-- HALT (R102): Waits for the conductor's commands and clause, then stops it for good. -/
  | halt (pg : Pg)
  /-- LD_B (R160): Loads a sign-extended byte. -/
  | ldB (rd ra : XOp) (off : BitVec 10) (pg : Pg)
  /-- LD_BU (R160): Loads a zero-extended byte. -/
  | ldBu (rd ra : XOp) (off : BitVec 10) (pg : Pg)
  /-- LD_H (R160): Loads a sign-extended halfword. -/
  | ldH (rd ra : XOp) (off : BitVec 10) (pg : Pg)
  /-- LD_HU (R160): Loads a zero-extended halfword. -/
  | ldHu (rd ra : XOp) (off : BitVec 10) (pg : Pg)
  /-- LD_W (R160): Loads a sign-extended word. -/
  | ldW (rd ra : XOp) (off : BitVec 10) (pg : Pg)
  /-- LD_WU (R160): Loads a zero-extended word. -/
  | ldWu (rd ra : XOp) (off : BitVec 10) (pg : Pg)
  /-- LD_D (R160): Loads a doubleword. -/
  | ldD (rd ra : XOp) (off : BitVec 10) (pg : Pg)
  /-- ST_B (R160): Stores a byte. -/
  | stB (rd ra : XOp) (off : BitVec 10) (pg : Pg)
  /-- ST_H (R160): Stores a halfword. -/
  | stH (rd ra : XOp) (off : BitVec 10) (pg : Pg)
  /-- ST_W (R160): Stores a word. -/
  | stW (rd ra : XOp) (off : BitVec 10) (pg : Pg)
  /-- ST_D (R160): Stores a doubleword. -/
  | stD (rd ra : XOp) (off : BitVec 10) (pg : Pg)
  /-- LDA_A4 (R160): Loads an A4 block into an atom register. -/
  | ldaA4 (rd : AOp) (ra : XOp) (off : BitVec 10) (pg : Pg)
  /-- LDA_A32 (R160): Loads an A32 block into an atom register. -/
  | ldaA32 (rd : AOp) (ra : XOp) (off : BitVec 10) (pg : Pg)
  /-- STA_A4 (R160): Stores bits [79:0] of an atom register. -/
  | staA4 (rd : AOp) (ra : XOp) (off : BitVec 10) (pg : Pg)
  /-- STA_A32 (R160): Stores bits [159:0] of an atom register. -/
  | staA32 (rd : AOp) (ra : XOp) (off : BitVec 10) (pg : Pg)
  /-- LDW_FP32 (R160): Loads 24 binary32 lanes. -/
  | ldwFp32 (rd : WOp) (ra : XOp) (off : BitVec 10) (pg : Pg)
  /-- LDW_BF16 (R160): Loads 24 BF16 values widened to binary32. -/
  | ldwBf16 (rd : WOp) (ra : XOp) (off : BitVec 10) (pg : Pg)
  /-- STW_FP32 (R160): Stores 24 binary32 lanes. -/
  | stwFp32 (rd : WOp) (ra : XOp) (off : BitVec 10) (pg : Pg)
  /-- STW_BF16 (R160): Stores 24 lanes converted to BF16. -/
  | stwBf16 (rd : WOp) (ra : XOp) (off : BitVec 10) (pg : Pg)
  /-- LDF_W (R162): Waits for a full word and loads 4 bytes. -/
  | ldfW (rd ra : XOp) (off : BitVec 10) (pg : Pg)
  /-- LDF_D (R162): Waits for a full word and loads 8 bytes. -/
  | ldfD (rd ra : XOp) (off : BitVec 10) (pg : Pg)
  /-- LDF_DC (R162): Waits for a full word, loads it and marks it empty. -/
  | ldfDc (rd ra : XOp) (off : BitVec 10) (pg : Pg)
  /-- STF_W (R162): Stores 4 bytes and marks the word full. -/
  | stfW (rd ra : XOp) (off : BitVec 10) (pg : Pg)
  /-- STF_D (R162): Stores 8 bytes and marks the word full. -/
  | stfD (rd ra : XOp) (off : BitVec 10) (pg : Pg)
  /-- AMO_ADD (R164): Atomic add returning the old value. -/
  | amoAdd (rd ra rb : XOp) (pg : Pg)
  /-- AMO_MIN (R164): Atomic signed minimum returning the old value. -/
  | amoMin (rd ra rb : XOp) (pg : Pg)
  /-- AMO_MAX (R164): Atomic signed maximum returning the old value. -/
  | amoMax (rd ra rb : XOp) (pg : Pg)
  /-- AMO_MINU (R164): Atomic unsigned minimum returning the old value. -/
  | amoMinu (rd ra rb : XOp) (pg : Pg)
  /-- AMO_MAXU (R164): Atomic unsigned maximum returning the old value. -/
  | amoMaxu (rd ra rb : XOp) (pg : Pg)
  /-- AMO_AND (R164): Atomic AND returning the old value. -/
  | amoAnd (rd ra rb : XOp) (pg : Pg)
  /-- AMO_OR (R164): Atomic OR returning the old value. -/
  | amoOr (rd ra rb : XOp) (pg : Pg)
  /-- AMO_XOR (R164): Atomic XOR returning the old value. -/
  | amoXor (rd ra rb : XOp) (pg : Pg)
  /-- AMO_SWAP (R164): Atomic swap returning the old value. -/
  | amoSwap (rd ra rb : XOp) (pg : Pg)
  /-- AMON_ADD (R164): Atomic add with no result. -/
  | amonAdd (ra rb : XOp) (pg : Pg)
  /-- AMON_MIN (R164): Atomic signed minimum with no result. -/
  | amonMin (ra rb : XOp) (pg : Pg)
  /-- AMON_MAX (R164): Atomic signed maximum with no result. -/
  | amonMax (ra rb : XOp) (pg : Pg)
  /-- AMON_MINU (R164): Atomic unsigned minimum with no result. -/
  | amonMinu (ra rb : XOp) (pg : Pg)
  /-- AMON_MAXU (R164): Atomic unsigned maximum with no result. -/
  | amonMaxu (ra rb : XOp) (pg : Pg)
  /-- AMON_AND (R164): Atomic AND with no result. -/
  | amonAnd (ra rb : XOp) (pg : Pg)
  /-- AMON_OR (R164): Atomic OR with no result. -/
  | amonOr (ra rb : XOp) (pg : Pg)
  /-- AMON_XOR (R164): Atomic XOR with no result. -/
  | amonXor (ra rb : XOp) (pg : Pg)
  /-- CAS (R164): Compare-and-swap returning the old value. -/
  | cas (rd ra rb rc : XOp) (pg : Pg)
  /-- SEMW (R168): Waits until a semaphore reaches c and subtracts c. -/
  | semw (sem : BitVec 8) (ra : XOp) (pg : Pg)
  /-- SEMS (R168): Adds c to a semaphore, saturating, as a release. -/
  | sems (sem : BitVec 8) (ra : XOp) (pg : Pg)
  /-- SEMR (R168): Reads a semaphore count. -/
  | semr (rd : XOp) (sem : BitVec 8) (pg : Pg)
  /-- FSET (R163): Marks a word full and releases a waiting ldf. -/
  | fset (ra : XOp) (off : BitVec 10) (pg : Pg)
  /-- FCLR (R163): Marks a word empty. -/
  | fclr (ra : XOp) (off : BitVec 10) (pg : Pg)
  /-- FTST (R163): Reads a word's full/empty bit. -/
  | ftst (rd ra : XOp) (off : BitVec 10) (pg : Pg)
  /-- MKPOP (R172): Pops a marker at the head of a port and returns its code. -/
  | mkpop (rd : XOp) (qa : Fin 8) (pg : Pg)
  /-- SPOS (R171): Reads the port's next sequence number. -/
  | spos (rd : XOp) (qa : Fin 8) (pg : Pg)
  /-- SSKIP (R173): Discards data tokens, counting down xb until a marker. -/
  | sskip (qa : Fin 8) (rb : Fin 24) (pg : Pg)
  /-- SRST (R174): Resets a pattern port, abandoning its current pattern. -/
  | srst (qa : Fin 8) (pg : Pg)
  /-- SOCC (R171): Reads the port's occupancy. -/
  | socc (rd : XOp) (qa : Fin 8) (pg : Pg)
  /-- SISECT (R175): Counts equal pairs of two ascending streams. -/
  | sisect (rd : Fin 24) (qa qb : Fin 8) (pg : Pg)
  /-- SACC (R175): Sums wide tokens of a stream lane by lane. -/
  | sacc (rd : Fin 24) (qa : Fin 8) (pg : Pg)
  /-- SACCX (R175): Sums scalar tokens of a stream modulo 2^64. -/
  | saccx (rd : Fin 24) (qa : Fin 8) (pg : Pg)
  /-- BMK (R176): Pops a matching marker and branches. -/
  | bmk (qa : Fin 8) (kind : Fin 3) (off : BitVec 16)
  /-- DEC (R106): Decodes a block into 24 binary32 lanes. -/
  | dec (rd : WOp) (ra : AOp) (pg : Pg)
  /-- ENC_A4 (R107): Encodes 24 lanes into an A4 block by the search. -/
  | encA4 (rd : AOp) (ra : WOp) (pg : Pg)
  /-- ENC_A32 (R107): Encodes 24 lanes into an A32 block by the search. -/
  | encA32 (rd : AOp) (ra : WOp) (pg : Pg)
  /-- ENCT_A4 (R17): Encodes into A4 with error feedback through tailings. -/
  | enctA4 (rd : AOp) (ra : WOp) (rb : TOp) (pg : Pg)
  /-- ENCT_A32 (R17): Encodes into A32 with error feedback through tailings. -/
  | enctA32 (rd : AOp) (ra : WOp) (rb : TOp) (pg : Pg)
  /-- AADD_A4 (R108): Adds two blocks exactly and searches into A4. -/
  | aaddA4 (rd ra rb : AOp) (pg : Pg)
  /-- AADD_A32 (R108): Adds two blocks exactly and searches into A32. -/
  | aaddA32 (rd ra rb : AOp) (pg : Pg)
  /-- ASUB_A4 (R108): Subtracts two blocks exactly and searches into A4. -/
  | asubA4 (rd ra rb : AOp) (pg : Pg)
  /-- ASUB_A32 (R108): Subtracts two blocks exactly and searches into A32. -/
  | asubA32 (rd ra rb : AOp) (pg : Pg)
  /-- ARELU (R108): Rectifies a block and searches again. -/
  | arelu (rd ra : AOp) (pg : Pg)
  /-- AMSK (R108): Masks a block's elements and searches again. -/
  | amsk (rd ra : AOp) (rb : MOp) (pg : Pg)
  /-- ANEG (R109): Negates a block without searching. -/
  | aneg (rd ra : AOp) (pg : Pg)
  /-- ASCL (R109): Scales a block by 2^s through its E. -/
  | ascl (rd ra : AOp) (rb : XOp) (pg : Pg)
  /-- ADOT (R110): Exact dot product of two blocks, rounded once. -/
  | adot (rd : XOp) (ra rb : AOp) (pg : Pg)
  /-- AMOV (R111): Copies a block and its tag without decoding. -/
  | amov (rd ra : AOp) (pg : Pg)
  /-- AGET (R112): Reads one raw field of a block. -/
  | aget (rd : XOp) (ra : AOp) (rb : XOp) (pg : Pg)
  /-- ASET (R112): Writes one raw field of a block. -/
  | aset (rd : AOp) (ra rb : XOp) (pg : Pg)
  /-- ACVT_A4 (R108): Converts a block to A4. -/
  | acvtA4 (rd ra : AOp) (pg : Pg)
  /-- ACVT_A32 (R108): Converts a block to A32. -/
  | acvtA32 (rd ra : AOp) (pg : Pg)
  /-- WADD (R114): Lane-wise binary32 addition. -/
  | wadd (rd ra rb : WOp) (pg : Pg)
  /-- WSUB (R114): Lane-wise binary32 subtraction. -/
  | wsub (rd ra rb : WOp) (pg : Pg)
  /-- WMUL (R114): Lane-wise binary32 multiplication. -/
  | wmul (rd ra rb : WOp) (pg : Pg)
  /-- WMIN (R114): Lane-wise minimum. -/
  | wmin (rd ra rb : WOp) (pg : Pg)
  /-- WMAX (R114): Lane-wise maximum. -/
  | wmax (rd ra rb : WOp) (pg : Pg)
  /-- WABS (R115): Clears each lane's sign bit. -/
  | wabs (rd ra : WOp) (pg : Pg)
  /-- WNEG (R115): Inverts each lane's sign bit. -/
  | wneg (rd ra : WOp) (pg : Pg)
  /-- WRCP (R116): Lane-wise reciprocal. -/
  | wrcp (rd ra : WOp) (pg : Pg)
  /-- WRSQ (R116): Lane-wise reciprocal square root. -/
  | wrsq (rd ra : WOp) (pg : Pg)
  /-- WSQRT (R116): Lane-wise square root. -/
  | wsqrt (rd ra : WOp) (pg : Pg)
  /-- WEXP2 (R116): Lane-wise base-2 exponential. -/
  | wexp2 (rd ra : WOp) (pg : Pg)
  /-- WLOG2 (R116): Lane-wise base-2 logarithm. -/
  | wlog2 (rd ra : WOp) (pg : Pg)
  /-- WCMPEQ (R117): Lane-wise equality compare into a mask. -/
  | wcmpeq (rd : MOp) (ra rb : WOp) (pg : Pg)
  /-- WCMPLT (R117): Lane-wise less-than compare into a mask. -/
  | wcmplt (rd : MOp) (ra rb : WOp) (pg : Pg)
  /-- WCMPLE (R117): Lane-wise less-or-equal compare into a mask. -/
  | wcmple (rd : MOp) (ra rb : WOp) (pg : Pg)
  /-- WREDSUM (R118): Ordered sequential sum of 24 lanes. -/
  | wredsum (rd ra : WOp) (pg : Pg)
  /-- WREDMAX (R118): Ordered maximum of 24 lanes. -/
  | wredmax (rd ra : WOp) (pg : Pg)
  /-- WREDMIN (R118): Ordered minimum of 24 lanes. -/
  | wredmin (rd ra : WOp) (pg : Pg)
  /-- WBCST (R119): Broadcasts xa[31:0] to every lane. -/
  | wbcst (rd : WOp) (ra : XOp) (pg : Pg)
  /-- WINS (R119): Inserts xa[31:0] into lane n. -/
  | wins (rd : WOp) (ra rb : XOp) (pg : Pg)
  /-- WEXT (R119): Extracts lane n into a scalar. -/
  | wext (rd : XOp) (ra : WOp) (rb : XOp) (pg : Pg)
  /-- WSHUF (R119): Permutes lanes by index lanes. -/
  | wshuf (rd ra rb : WOp) (pg : Pg)
  /-- WCVTFI (R121): Converts lanes to signed 32-bit integers. -/
  | wcvtfi (rd ra : WOp) (pg : Pg)
  /-- WCVTIF (R121): Converts signed 32-bit integers to binary32. -/
  | wcvtif (rd ra : WOp) (pg : Pg)
  /-- WCVTBF (R121): Widens BF16 lane values to binary32. -/
  | wcvtbf (rd ra : WOp) (pg : Pg)
  /-- WCVTFB (R121): Narrows binary32 lanes to BF16. -/
  | wcvtfb (rd ra : WOp) (pg : Pg)
  /-- WMOV (R119): Copies a wide value. -/
  | wmov (rd ra : WOp) (pg : Pg)
  /-- WFMA (R122): Fused a × b + c per lane. -/
  | wfma (rd ra rb rc : WOp) (pg : Pg)
  /-- WFMS (R122): Fused a × b − c per lane. -/
  | wfms (rd ra rb rc : WOp) (pg : Pg)
  /-- WFNMA (R122): Fused c − a × b per lane. -/
  | wfnma (rd ra rb rc : WOp) (pg : Pg)
  /-- WSEL (R123): Selects lanes from wa or wb by a mask. -/
  | wsel (rd ra rb : WOp) (rc : MOp) (pg : Pg)
  /-- MMA_A4A4 (R130): Queues a dense A4 × A4 accumulation into a tile. -/
  | mmaA4a4 (tile cls : Fin 4) (ra rb rc : XOp) (pg : Pg)
  /-- MMA_A4A32 (R130): Queues a dense A4 × A32 accumulation into a tile. -/
  | mmaA4a32 (tile cls : Fin 4) (ra rb rc : XOp) (pg : Pg)
  /-- MMA_A32A32 (R130): Queues a dense A32 × A32 accumulation into a tile. -/
  | mmaA32a32 (tile cls : Fin 4) (ra rb rc : XOp) (pg : Pg)
  /-- MMACSR_A4 (R142): Queues an accumulation against a sparse A4 B panel. -/
  | mmacsrA4 (tile cls : Fin 4) (ra rb rc : XOp) (pg : Pg)
  /-- MMACSR_A32 (R142): Queues an accumulation against a sparse A32 B panel. -/
  | mmacsrA32 (tile cls : Fin 4) (ra rb rc : XOp) (pg : Pg)
  /-- MMAG_A4 (R144): Queues a ragged-group A4 accumulation. -/
  | mmagA4 (tile cls : Fin 4) (ra rb rc : XOp) (pg : Pg)
  /-- MMAG_A32 (R144): Queues a ragged-group A32 accumulation. -/
  | mmagA32 (tile cls : Fin 4) (ra rb rc : XOp) (pg : Pg)
  /-- MZERO (R146): Queues an operation that clears a tile. -/
  | mzero (tile cls : Fin 4) (pg : Pg)
  /-- MRD (R147): Reads a tile row into a wide register. -/
  | mrd (rd : WOp) (tile cls : Fin 4) (rb : XOp) (pg : Pg)
  /-- MWR (R147): Writes a wide register into a tile row. -/
  | mwr (tile cls : Fin 4) (ra : WOp) (rb : XOp) (pg : Pg)
  /-- MST_F32 (R148): Stores tile rows to the cell store as binary32. -/
  | mstF32 (tile cls : Fin 4) (ra rb : XOp) (pg : Pg)
  /-- MST_A4 (R148): Stores tile rows to the cell store as A4 blocks. -/
  | mstA4 (tile cls : Fin 4) (ra rb : XOp) (pg : Pg)
  /-- MST_A32 (R148): Stores tile rows to the cell store as A32 blocks. -/
  | mstA32 (tile cls : Fin 4) (ra rb : XOp) (pg : Pg)
  /-- MWAIT (R139): Waits for earlier operations and mst stores of a class. -/
  | mwait (cls : Fin 4) (pg : Pg)
  /-- MBUDGET (R156): Sets the cell's budget cap BCAP. -/
  | mbudget (ra : XOp) (pg : Pg)
  /-- MSTAT (R156): Reads MSTAT into a scalar register. -/
  | mstat (rd : XOp) (pg : Pg)
  -- long commands (four words)
  /-- NOPL (R193): Long no-op that only waits and signals. -/
  | nopl (ws : WaitSig) (pg : Pg)
  /-- SPAT (R182): Programs a port with a two-dimensional pattern. -/
  | spat (ra rb rc : XOp) (immA : BitVec 15) (immB : Word) (ws : WaitSig) (pg : Pg)
  /-- SPATR (R182): Programs a port with a four-dimensional pattern record. -/
  | spatr (ra rb : XOp) (ws : WaitSig) (pg : Pg)
  /-- COPY (R184): Copies a memory range on a copy engine. -/
  | copy (ra rb rc : XOp) (opts : BitVec 6) (ws : WaitSig) (pg : Pg)
  /-- FILL (R184): Fills a range with one repeated 8-byte word. -/
  | fill (ra rb rc : XOp) (opts : BitVec 6) (ws : WaitSig) (pg : Pg)
  /-- FPRINT (R185): Fingerprints page payloads. -/
  | fprint (ra rb rc : XOp) (fe : Bool) (ws : WaitSig) (pg : Pg)
  /-- CMPR (R186): Compares two ranges and writes the first difference. -/
  | cmpr (ra rb rc : XOp) (fe : Bool) (immB : Word) (ws : WaitSig) (pg : Pg)
  /-- GATHER (R184): Gathers indexed elements. -/
  | gather (ra rb rc : XOp) (opts : BitVec 6) (esz : BitVec 3) (immB : Word) (ws : WaitSig) (pg : Pg)
  /-- SCATTER (R184): Scatters elements to indexed places. -/
  | scatter (ra rb rc : XOp) (fe : Bool) (esz : BitVec 3) (immB : Word) (ws : WaitSig) (pg : Pg)
  /-- RCOPY (R187): Pushes or pulls bytes through a peer's import window. -/
  | rcopy (ra rb rc : XOp) (port : Fin 8) (pull : Bool) (key : Word) (ws : WaitSig) (pg : Pg)
  /-- REDUCE (R184): Combines source elements into destination elements. -/
  | reduce (ra rb rc : XOp) (opts : BitVec 6) (op : Fin 3) (ws : WaitSig) (pg : Pg)
  /-- SEAMW (R188): Writes bytes into the seam. -/
  | seamw (ra rb rc : XOp) (ws : WaitSig) (pg : Pg)
  /-- XMAP (R189): Installs a lazy-extent page from the grant pool. -/
  | xmap (ra : XOp) (zero : Bool) (ws : WaitSig) (pg : Pg)
  /-- CLAUSE (R190): Collectively loads a clause image. -/
  | clause (ra rb : XOp) (ws : WaitSig) (pg : Pg)
  /-- CWAIT (R191): Holds the conductor until a numbered clause has completed. -/
  | cwait (ra : XOp) (ws : WaitSig) (pg : Pg)
  /-- ROLEMAP (R192): Installs a role map for later clauses. -/
  | rolemap (ra : XOp) (ws : WaitSig) (pg : Pg)
  /-- ATTN (R309): Runs attention over a lode range on the home chiplet. -/
  | attn (ra : XOp) (ws : WaitSig) (pg : Pg)
  /-- LFORK (R300): Creates a sequence, new or forked from another. -/
  | lfork (ra : XOp) (ws : WaitSig) (pg : Pg)
  /-- LAPP (R301): Appends slots to a sequence, allocating pages. -/
  | lapp (ra rb rc : XOp) (ws : WaitSig) (pg : Pg)
  /-- LPUT (R301): Writes slots of resident pages. -/
  | lput (ra rb rc : XOp) (ws : WaitSig) (pg : Pg)
  /-- LGET (R301): Reads slots into memory. -/
  | lget (ra rb rc : XOp) (opts : BitVec 6) (ws : WaitSig) (pg : Pg)
  /-- LSHARE (R302): Maps a leaf page onto a given frame. -/
  | lshare (ra rb rc : XOp) (ext : Bool) (ws : WaitSig) (pg : Pg)
  /-- LREL (R303): Releases a sequence and frees unreferenced nodes and frames. -/
  | lrel (ra : XOp) (ws : WaitSig) (pg : Pg)
  /-- LINV (R304): Invalidates fills in flight for a sequence or the context. -/
  | linv (ra : XOp) (all : Bool) (ws : WaitSig) (pg : Pg)
  -- events of the machine (rows without a word)
  /-- CONTEXT_READY (R50): A context that was not ready becomes ready and its pass is raised. -/
  | contextReady (cell : Nat) (ctx : Fin 4)
  /-- STOP_REQUEST (R353): Each agent of a region stops at an instruction boundary. -/
  | stopRequest (queue : Nat)
  /-- FAULT_RECORD_DELIVERY (R269): The head record is written to the slot and the conductor traps to FVEC. -/
  | faultRecordDelivery (cond : Nat)
  /-- OPERATION_START (R152): The free array starts a class-queue head operation. -/
  | operationStart (cell : Nat)
  /-- K_BLOCK_START (R150): A k-block starts when the budget level covers its charge. -/
  | kBlockStart (cell : Nat)
  /-- OPERATION_COMPLETE (R130): The tile is written and flags ORed into FPS. -/
  | operationComplete (cell : Nat)
  /-- MST_STORES_PERFORMED (R148): The last row store of an mst is performed and its flags ORed. -/
  | mstStoresPerformed (cell : Nat) (slot rows : Nat)
  /-- APE_FETCH (R224): A pattern input port fetches its next token or places a marker. -/
  | apeFetch (cell : Nat) (ctx : Fin 4) (port : Fin 8)
  /-- PATTERN_WRITE (R224): A pattern output port writes a pushed token to memory. -/
  | patternWrite (cell : Nat) (ctx : Fin 4) (port : Fin 8)
  /-- COMPLETION_EVENT (R223): A pattern completes and the queued pattern becomes current. -/
  | completionEvent (cell : Nat) (ctx : Fin 4) (port : Fin 8)
  /-- TOKEN_HOP (R226): A channel token moves to the next hop that has a slot. -/
  | tokenHop (queue clause chan hop : Nat)
  /-- SLOT_RETURN (R226): A freed slot returns to the hop's sender. -/
  | slotReturn (queue clause chan hop : Nat)
  /-- SEND_WINDOW_GRANT (R230): A receiver grants slots after four have freed. -/
  | sendWindowGrant (queue clause chan hop : Nat)
  /-- GRANT_TIMER (R230): A receiver grants slots 64 cycles after the first freed slot. -/
  | grantTimer (queue clause chan hop : Nat)
  /-- GRANT_ARRIVAL (R230): A grant reaches the sender and widens its window. -/
  | grantArrival (queue clause chan hop : Nat)
  /-- DRAIN_TOKEN (R212): A cell sends a channel's drain token when its producers finish. -/
  | drainToken (queue clause chan : Nat)
  /-- EDGE_DRAIN (R305): An edge node sends a result channel's drain token. -/
  | edgeDrain (queue clause chan : Nat)
  /-- OCCUPANCY_SAMPLE (R232): At CYCLE mod 256 = 0 the consumer samples occupancy and sends it. -/
  | occupancySample (queue clause chan : Nat)
  /-- SAMPLE_MESSAGE (R232): A sample message reaches the producer cell. -/
  | sampleMessage (queue clause chan : Nat)
  /-- RATE_UPDATE (R233): At CYCLE mod 256 = 128 integrals and weights are updated. -/
  | rateUpdate (cell : Nat)
  /-- SEMAPHORE_WAITER_SATISFIED (R168): A waiting semw takes its count when it reaches c. -/
  | semaphoreWaiterSatisfied (queue : Nat) (sem : BitVec 8)
  /-- BARRIER_COMPLETE (R99): All participants have arrived and the barrier releases. -/
  | barrierComplete (queue : Nat) (clause : Option Nat)
  /-- LDF_RELEASE (R162): A fill releases the earliest waiting ldf. -/
  | ldfRelease (word : Place)
  /-- ARRIVAL (R100): An arrival token increments a trigger line's count. -/
  | arrival (cell : Nat) (line : Fin 16)
  /-- CLAUSE_LOAD (R207): A clause load begins once every conductor has dispatched. -/
  | clauseLoad (queue : Nat)
  /-- ROLE_LOAD (R209): A role loads onto its cell when the cell is free. -/
  | roleLoad (queue clause role : Nat)
  /-- ITERATION_START (R210): A stage begins its next iteration. -/
  | iterationStart (cell : Nat) (ctx : Fin 4)
  /-- CELL_RELEASE (R214): A cell is released when its teardown conditions hold. -/
  | cellRelease (cell : Nat)
  /-- COMMAND_DISPATCH (R178): An outstanding long command dispatches when its wait holds. -/
  | commandDispatch (cond : Nat)
  /-- COMMAND_COMPLETE (R179): A command completes, applies its signal and sends its arrival. -/
  | commandComplete (cond : Nat) (slot : Nat)
  /-- COMMAND_FAIL (R180): A running command fails and sends a failure record. -/
  | commandFail (cond : Nat) (slot : Nat)
  /-- FRAME_FREE (R295): A frame with REF 0 joins the free ring once no fill pins it. -/
  | frameFree (chip : Fin 4) (frame : Nat)
  /-- CORRECTION_REWRITE (R389): Memory rewrites a corrected word or line. -/
  | correctionRewrite (domain : Fin 7) (word : Place)
  /-- PATROL_SCRUB (R389): The patrol scrubber reads and corrects memory. -/
  | patrolScrub (domain : Fin 7) (word : Place) (uncorr : Bool)
  /-- REFRESH_WINDOW_START (R243): A refresh window starts on one bank group. -/
  | refreshWindowStart
  /-- REFRESH_WINDOW_END (R243): A refresh window ends and waiting accesses proceed. -/
  | refreshWindowEnd
  /-- QUIESCENCE_REPORT (R260): The detector reports the region idle. -/
  | quiescenceReport (queue : Nat)
  /-- SHOOT_DOWN_GVA_RANGE (R329): Enqueues a shoot-down of a GVA range. -/
  | shootDownGvaRange (cmd : DWord)
  /-- SHOOT_DOWN_CONTEXT (R329): Enqueues a shoot-down of a whole context. -/
  | shootDownContext (cmd : DWord)
  /-- SHOOT_DOWN_IMPORT_ENTRY (R329): Enqueues a shoot-down of an import entry. -/
  | shootDownImportEntry (cmd : DWord)
  /-- SHOOT_DOWN_ACCEPTANCE (R330): The head request drops its translations and cached runs. -/
  | shootDownAcceptance
  /-- SHOOT_DOWN_COMPLETION (R330): Accesses that used dropped translations drain and DONE rises. -/
  | shootDownCompletion
  /-- TAIL_WRITE (R335): The host advances a launch queue's tail. -/
  | tailWrite (queue : Nat) (value : DWord)
  /-- QUEUE_REGISTER_WRITE (R335): A write to QBASE, QCFG, PERIOD, BUDGET or TOKENS, unless ignored. -/
  | queueRegisterWrite (queue : Nat) (reg : QReg) (value : DWord)
  /-- PERIOD_START (R342): A queue's budget, balance and deadline are renewed. -/
  | periodStart (queue : Nat)
  /-- BUDGET_EXHAUSTED (R342): A queue's budget reaches zero and its deadline becomes infinite. -/
  | budgetExhausted (queue : Nat)
  /-- DISTRIBUTOR_CHOICE (R343): The distributor chooses what runs among eligible queues. -/
  | distributorChoice
  /-- DRAIN_STOP (R349): The drained region's clauses are done, so it is stopped and saved. -/
  | drainStop (queue : Nat)
  /-- DRAINMAX_EXPIRY (R349): A drain passes DRAINMAX and another action is taken. -/
  | drainmaxExpiry (queue : Nat)
  /-- PRE_COPY_END (R351): Dirty bytes fall to 80 MiB and the stop request is sent. -/
  | preCopyEnd (queue : Nat)
  /-- PCMAX_EXPIRY (R351): After PCMAX cycles writes to copied lines hold. -/
  | pcmaxExpiry (queue : Nat)
  /-- SAVE_COMPLETE (R351): The save engine finishes the image and STATE 3 is written. -/
  | saveComplete (queue : Nat)
  /-- SENTENCE_RETIREMENT (R341): A finished sentence is retired and CPL written STATE 2. -/
  | sentenceRetirement (queue : Nat)
  /-- OVERRUN (R344): A launch passes its cluster-cycle cap and is stopped. -/
  | overrun (queue : Nat)
  /-- COREQ_WRITE (R366): The host queues a code-object resolve request. -/
  | coreqWrite (value : DWord)
  /-- RESOLVER_SERVE (R365): The resolver selects or translates an image and writes RESULT. -/
  | resolverServe
  /-- PACKET_SEND (R381): A sender sends a new sequenced packet when its window allows. -/
  | packetSend (port : Fin 8)
  /-- IDLE (R382): An IDLE header is received and its ACK taken. -/
  | idleHdr (port : Fin 8) (hdr : Packet)
  /-- WRITE (R399): A WRITE packet is received and checked against the import table. -/
  | writePkt (port : Fin 8) (pkt : Packet)
  /-- READREQ (R399): A READREQ packet is received and answered. -/
  | readReq (port : Fin 8) (pkt : Packet)
  /-- READRSP (R399): A READRSP packet is received and its data written locally. -/
  | readRsp (port : Fin 8) (pkt : Packet)
  /-- TOKEN (R376): A TOKEN packet of a remote channel is received. -/
  | tokenPkt (port : Fin 8) (pkt : Packet)
  /-- GRANT (R230): A GRANT packet returns slots of a remote channel. -/
  | grantPkt (port : Fin 8) (pkt : Packet)
  /-- DONE (R399): A DONE header or answer of a push is received. -/
  | doneHdr (port : Fin 8) (pkt : Packet)
  /-- REFUSE (R399): A REFUSE answer is received and the command fails. -/
  | refusePkt (port : Fin 8) (pkt : Packet)
  /-- REPLAY_TIMEOUT (R381): TXOLD has not advanced for 2,048 cycles. -/
  | replayTimeout (port : Fin 8)
  /-- LANE_LOSS (R384): A lane without lock for 16 cycles is lost and retraining begins. -/
  | laneLoss (port : Fin 8) (lane : Fin 16)
  /-- CRC_RETRAIN (R384): 32 CRC discards within 4,096 cycles start a retraining. -/
  | crcRetrain (port : Fin 8)
  /-- TRAINING_PATTERN_RECEIVED (R400): An up end receiving the pattern joins the retraining. -/
  | trainingPatternReceived (port : Fin 8)
  /-- TRAINING_PATTERN_END (R384): After 1,024 cycles of pattern the receiver marks good lanes. -/
  | trainingPatternEnd (port : Fin 8) (good : BitVec 16)
  /-- GOOD_LANE_MASK (R384): The other end's good-lane mask arrives and widths are set. -/
  | goodLaneMask (port : Fin 8) (good : BitVec 16)
  /-- RETRAIN_TIMEOUT (R384): No step-4 IDLE within 512 cycles starts a new retraining. -/
  | retrainTimeout (port : Fin 8)
  /-- FULL_RETRAINING (R387): LNKCTL requests a full retraining of a port. -/
  | fullRetraining (port : Fin 8)
  /-- PORT_DISABLE (R387): LNKCTL disables a port. -/
  | portDisable (port : Fin 8)
  /-- HSNAP_WRITE (R393): The host sets the health snapshot page. -/
  | hsnapWrite (value : DWord)
  /-- SNAPSHOT_REWRITE (R392): The management core rewrites the health page under GEN. -/
  | snapshotRewrite
  /-- CELL_RETIREMENT (R395): A pending cell retirement takes effect when its cluster is free. -/
  | cellRetirement (cluster : Nat)
  /-- MODULE_RESET (R406): Power-on or link reset runs mask ROM and bring-up. -/
  | moduleReset (tests : List Nat)
  /-- STAGE (R407): Appends a firmware image to the staging area and verifies it. -/
  | stage
  /-- ACTIVATE (R408): Runs the staged firmware image without reset. -/
  | activate
  /-- REPORT (R413): Writes a signed attestation report. -/
  | report
  /-- EXTEND (R407): Extends MEAS2 with 32 host bytes. -/
  | extend
  /-- IDE_KM (R403): The host programs IDE keys through the DOE mailbox. -/
  | ideKm (mem : Bool)
  /-- CXL_MEM_READ (R404): A host CXL.mem read of bulk or lode META memory. -/
  | cxlMemRead (lode : Bool) (addr len : Nat)
  /-- CXL_MEM_WRITE (R404): A host CXL.mem write of bulk or lode META memory. -/
  | cxlMemWrite (lode : Bool) (addr : Nat) (bytes : List Byte)
  /-- LATTOL_WRITE (R416): The host sets the latency tolerance. -/
  | lattolWrite (value : DWord)
  /-- MODULE_IDLE (R416): The module becomes idle and a deeper power state is targeted. -/
  | moduleIdle
  /-- POWER_TRANSITION_COMPLETE (R414): A power-state transition finishes. -/
  | powerTransitionComplete
  /-- POWER_SAMPLE (R417): Every 1,024 cycles the firmware samples PWR and adjusts MCEIL. -/
  | powerSample (watts amps : BitVec 16)
  /-- THERMAL_ACTION (R418): The firmware acts on a die temperature threshold. -/
  | thermalAction (temp : BitVec 16)
  /-- REGISTER_WRITE (R405): A host write to a register with no behaviour of its own. -/
  | registerWrite (off : Nat) (value : DWord)
  /-- CRCERR (R382): A received packet whose HCRC or DCRC fails is discarded, counted in CRCERR and may draw a NAK. -/
  | crcErr (port : Fin 8)
  /-- RESERVED_TYPE_PACKET (R382): A packet with good CRCs but a reserved TYPE or a set res0 field is discarded and the port goes down. -/
  | reservedTypePacket (port : Fin 8)
  /-- ACCESS_PERFORMED (R245): An extent load, store or atomic in flight is performed at a scope, or its reply returns, releasing fences, barriers, releases, command dispatch and cell release that wait on it. -/
  | accessPerformed (agent : AgentId) (slot : Nat) (scope : Scope)
  /-- BUDGET_REFILL (R150): In every cycle the bucket level rises by the refill, and a ready k-block that cannot start stalls and counts in STALLS. -/
  | budgetRefill (cell : Nat)
  /-- PARTITION_CHANGE (R231): The firmware divides the module into partitions and sets the admitted regions and gateway rates of each border. -/
  | partitionChange (parts : List Nat) (admitted : List Border)
deriving DecidableEq, Repr

end Sys2Proof
end

