-- ==== Sys2Proof/Decode.lean ====
section
/-! DEFINITION. The decoder, total on any words, and the encoder, both from the encoding tables of
spec/03 R51 to R75. -/
namespace Sys2Proof

/-- Who issues a word: a stage context (`cell`) or a conductor (R30). -/
inductive Kind where
  | cell | cond
deriving DecidableEq, Repr

/-- Why a word is no instruction, in the order of R73. All raise UNDEF but `cellLong`, which raises PRIV. -/
inductive DecodeErr where
  /-- check 1: the major opcode is reserved -/
  | reservedOpcode
  /-- check 2: not available to this agent -/
  | wrongAgent
  /-- check 3: a long word off a multiple of 16 -/
  | misplacedLong
  /-- check 4: reserved function, mode, command, scope or kind -/
  | reservedFunction
  /-- check 5: a register field value reserved for its class, or a port in a conductor -/
  | reservedRegister
  /-- check 6: a nonzero res0 field, or R62's first sentence -/
  | nonzeroRes0
  /-- check 8: a long command, or a clause of one, that R62 forbids to a cell -/
  | cellLong
deriving DecidableEq, Repr

abbrev Dec (α : Type) := Except DecodeErr α

/-- The pg field of a word (R54). -/
def pgOf (w : Nat) : Pg := Fin.ofNat 8 (w % 8)

/-- A register field read for a class of `n` registers (R33). -/
def opnd (n : Nat) (k : Kind) (f : Nat) : Dec (Opnd n) :=
  if h : f < n then .ok (.reg ⟨f, h⟩)
  else if f < 24 then .error .reservedRegister
  else if k = .cond then .error .reservedRegister
  else .ok (.port (Fin.ofNat 8 (f - 24)))

/-- A field marked q: it must name a port (R69). -/
def qfield (f : Nat) : Dec (Fin 8) :=
  if 24 ≤ f then .ok (Fin.ofNat 8 (f - 24)) else .error .reservedRegister

/-- A field that must name one of `n` registers (R173, R175). -/
def rfield (n f : Nat) : Dec (Fin n) :=
  if h : f < n then .ok ⟨f, h⟩ else .error .reservedRegister

/-- A res0 field (R6, R73 check 6). -/
def res0 (f : Nat) : Dec Unit := if f = 0 then .ok () else .error .nonzeroRes0

/-- A cell-only opcode or function (R30, R63). -/
def cellOnly (k : Kind) : Dec Unit := if k = .cell then .ok () else .error .wrongAgent

/-- A conductor-only function (R65). -/
def condOnly (k : Kind) : Dec Unit := if k = .cond then .ok () else .error .wrongAgent

section forms
variable (k : Kind) (w : Nat)

def fD : Nat := fld w 25 21
def fA : Nat := fld w 20 16
def fB : Nat := fld w 15 11
def fC : Nat := fld w 10 6

/-- Format R with three operands. -/
def r3 {n m l : Nat} (c : Opnd n → Opnd m → Opnd l → Pg → Instr) : Dec Instr := do
  let d ← opnd n k (fD w); let a ← opnd m k (fA w); let b ← opnd l k (fB w)
  pure (c d a b (pgOf w))

/-- Format R with two operands, rb res0. -/
def r2 {n m : Nat} (c : Opnd n → Opnd m → Pg → Instr) : Dec Instr := do
  let d ← opnd n k (fD w); let a ← opnd m k (fA w); res0 (fB w)
  pure (c d a (pgOf w))

/-- Format I with a whole imm13. -/
def i13 (c : XOp → XOp → BitVec 13 → Pg → Instr) : Dec Instr := do
  let d ← opnd 24 k (fD w); let a ← opnd 24 k (fA w)
  pure (c d a (BitVec.ofNat 13 (fld w 15 3)) (pgOf w))

/-- Format I shifts: imm13[12:6] res0 (R64). -/
def ish (c : XOp → XOp → BitVec 6 → Pg → Instr) : Dec Instr := do
  let d ← opnd 24 k (fD w); let a ← opnd 24 k (fA w); res0 (fld w 15 9)
  pure (c d a (BitVec.ofNat 6 (fld w 8 3)) (pgOf w))

/-- Format U. -/
def u21 (c : XOp → BitVec 21 → Instr) : Dec Instr := do
  let d ← opnd 24 k (fD w)
  pure (c d (BitVec.ofNat 21 (fld w 20 0)))

/-- CSR access: imm13[12] res0 (R64). -/
def icsr (c : XOp → XOp → BitVec 12 → Pg → Instr) : Dec Instr := do
  let d ← opnd 24 k (fD w); let a ← opnd 24 k (fA w); res0 (fld w 15 15)
  pure (c d a (BitVec.ofNat 12 (fld w 14 3)) (pgOf w))

/-- Format B. -/
def br (c : XOp → XOp → BitVec 16 → Instr) : Dec Instr := do
  let a ← opnd 24 k (fD w); let b ← opnd 24 k (fA w)
  pure (c a b (BitVec.ofNat 16 (fld w 15 0)))

/-- Memory opcodes: off10 in imm13[12:3] (R66). -/
def mem {n : Nat} (c : Opnd n → XOp → BitVec 10 → Pg → Instr) : Dec Instr := do
  let d ← opnd n k (fD w); let a ← opnd 24 k (fA w)
  pure (c d a (BitVec.ofNat 10 (fld w 15 6)) (pgOf w))

/-- Format M with four operands. -/
def m4 {n m l o : Nat} (c : Opnd n → Opnd m → Opnd l → Opnd o → Pg → Instr) : Dec Instr := do
  let d ← opnd n k (fD w); let a ← opnd m k (fA w); let b ← opnd l k (fB w); let e ← opnd o k (fC w)
  pure (c d a b e (pgOf w))

/-- amon: rd res0 (R67). -/
def rAmon (c : XOp → XOp → Pg → Instr) : Dec Instr := do
  res0 (fD w); let a ← opnd 24 k (fA w); let b ← opnd 24 k (fB w)
  pure (c a b (pgOf w))

/-- sys functions without operands. -/
def sys0 (c : Pg → Instr) : Dec Instr := do
  res0 (fD w); res0 (fA w); res0 (fB w); pure (c (pgOf w))

/-- A tile field: tile + 4·class, bit 4 res0 (R71). -/
def tileF (f : Nat) : Dec (Fin 4 × Fin 4) := do
  res0 (f / 16); pure (Fin.ofNat 4 f, Fin.ofNat 4 (f / 4))

/-- mma forms (R71). -/
def mma (c : Fin 4 → Fin 4 → XOp → XOp → XOp → Pg → Instr) : Dec Instr := do
  let (t, cl) ← tileF (fD w); let a ← opnd 24 k (fA w); let b ← opnd 24 k (fB w); let e ← opnd 24 k (fC w)
  pure (c t cl a b e (pgOf w))

/-- mst forms (R71). -/
def mst (c : Fin 4 → Fin 4 → XOp → XOp → Pg → Instr) : Dec Instr := do
  let (t, cl) ← tileF (fD w); let a ← opnd 24 k (fA w); let b ← opnd 24 k (fB w)
  pure (c t cl a b (pgOf w))

/-- alu functions (R65). -/
def decAlu : Dec Instr :=
  match fld w 10 3 with
  | 0 => r3 k w .add | 1 => r3 k w .sub | 2 => r3 k w .and | 3 => r3 k w .or | 4 => r3 k w .xor | 5 => r3 k w .andn
  | 6 => r3 k w .shl | 7 => r3 k w .shr | 8 => r3 k w .sra | 9 => r3 k w .rot
  | 10 => r3 k w .addw | 11 => r3 k w .subw | 12 => r3 k w .shlw | 13 => r3 k w .shrw | 14 => r3 k w .sraw
  | 15 => r3 k w .mul | 16 => r3 k w .mulh | 17 => r3 k w .mulhu | 18 => r3 k w .mulw
  | 19 => r3 k w .div | 20 => r3 k w .divu | 21 => r3 k w .rem | 22 => r3 k w .remu
  | 23 => r3 k w .min | 24 => r3 k w .max | 25 => r3 k w .minu | 26 => r3 k w .maxu
  | 27 => r3 k w .slt | 28 => r3 k w .sltu | 29 => r3 k w .seq
  | 30 => r2 k w .clz | 31 => r2 k w .popc | 32 => r2 k w .brev
  | _ => .error .reservedFunction

/-- pred functions (R65); 10 to 13 for cells only. -/
def decPred : Dec Instr :=
  match fld w 10 3 with
  | 0 => r3 k w .peq | 1 => r3 k w .pne | 2 => r3 k w .plt | 3 => r3 k w .pge | 4 => r3 k w .pltu | 5 => r3 k w .pgeu
  | 6 => r3 k w .pand | 7 => r3 k w .por | 8 => r3 k w .pxor | 9 => r2 k w .pnot
  | 10 => do cellOnly k; r2 k w .pmany
  | 11 => do cellOnly k; r2 k w .mset
  | 12 => do cellOnly k; r2 k w .mget
  | 13 => do cellOnly k; r2 k w .mnot
  | _ => .error .reservedFunction

/-- The scope field of fence (R65). -/
def scopeF : Nat → Dec Scope
  | 0 => .ok .ctx | 1 => .ok .cell | 2 => .ok .region | 3 => .ok .module | 4 => .ok .system
  | _ => .error .reservedFunction

/-- sys functions (R65). -/
def decSys : Dec Instr :=
  match fld w 10 3 with
  | 0 => sys0 w .nop
  | 1 => do res0 (fD w); let a ← opnd 24 k (fA w); res0 (fB w); pure (.trap a (pgOf w))
  | 2 => sys0 w .rett
  | 3 => do cellOnly k; sys0 w .ends
  | 4 => do let sc ← scopeF (fA w); res0 (fD w); res0 (fB w); pure (.fence sc (pgOf w))
  | 5 => sys0 w .bar
  | 6 => do cellOnly k; sys0 w .wfa
  | 7 => sys0 w .yield
  | 8 => do condOnly k; sys0 w .halt
  | _ => .error .reservedFunction

/-- Loads and stores, by major opcode and mode (R66). -/
def decMem : Dec Instr :=
  match fld w 31 26, fld w 5 3 with
  | 0x1C, 0 => mem k w .ldB | 0x1C, 1 => mem k w .ldBu | 0x1C, 2 => mem k w .ldH | 0x1C, 3 => mem k w .ldHu
  | 0x1C, 4 => mem k w .ldW | 0x1C, 5 => mem k w .ldWu | 0x1C, 6 => mem k w .ldD
  | 0x1D, 0 => mem k w .stB | 0x1D, 2 => mem k w .stH | 0x1D, 4 => mem k w .stW | 0x1D, 6 => mem k w .stD
  | 0x1E, 0 => do cellOnly k; mem k w .ldaA4
  | 0x1E, 1 => do cellOnly k; mem k w .ldaA32
  | 0x1F, 0 => do cellOnly k; mem k w .staA4
  | 0x1F, 1 => do cellOnly k; mem k w .staA32
  | 0x20, 0 => do cellOnly k; mem k w .ldwFp32
  | 0x20, 1 => do cellOnly k; mem k w .ldwBf16
  | 0x21, 0 => do cellOnly k; mem k w .stwFp32
  | 0x21, 1 => do cellOnly k; mem k w .stwBf16
  | 0x22, 0 => mem k w .ldfW | 0x22, 1 => mem k w .ldfD | 0x22, 2 => mem k w .ldfDc
  | 0x23, 0 => mem k w .stfW | 0x23, 1 => mem k w .stfD
  | _, _ => .error .reservedFunction

/-- amo functions (R67). -/
def decAmo : Dec Instr :=
  match fld w 10 3 with
  | 0 => r3 k w .amoAdd | 1 => r3 k w .amoMin | 2 => r3 k w .amoMax | 3 => r3 k w .amoMinu | 4 => r3 k w .amoMaxu
  | 5 => r3 k w .amoAnd | 6 => r3 k w .amoOr | 7 => r3 k w .amoXor | 8 => r3 k w .amoSwap
  | _ => .error .reservedFunction

/-- amon functions (R67). -/
def decAmon : Dec Instr :=
  match fld w 10 3 with
  | 0 => rAmon k w .amonAdd | 1 => rAmon k w .amonMin | 2 => rAmon k w .amonMax | 3 => rAmon k w .amonMinu
  | 4 => rAmon k w .amonMaxu | 5 => rAmon k w .amonAnd | 6 => rAmon k w .amonOr | 7 => rAmon k w .amonXor
  | _ => .error .reservedFunction

/-- sem functions (R68). -/
def decSem : Dec Instr :=
  let sem := BitVec.ofNat 8 (fld w 10 3)
  match fld w 15 13 with
  | 0 => do res0 (fD w); let a ← opnd 24 k (fA w); res0 (fld w 12 11); pure (.semw sem a (pgOf w))
  | 1 => do res0 (fD w); let a ← opnd 24 k (fA w); res0 (fld w 12 11); pure (.sems sem a (pgOf w))
  | 2 => do let d ← opnd 24 k (fD w); res0 (fA w); res0 (fld w 12 11); pure (.semr d sem (pgOf w))
  | _ => .error .reservedFunction

/-- fe functions (R68). -/
def decFe : Dec Instr :=
  let off := BitVec.ofNat 10 (fld w 12 3)
  match fld w 15 13 with
  | 0 => do res0 (fD w); let a ← opnd 24 k (fA w); pure (.fset a off (pgOf w))
  | 1 => do res0 (fD w); let a ← opnd 24 k (fA w); pure (.fclr a off (pgOf w))
  | 2 => do let d ← opnd 24 k (fD w); let a ← opnd 24 k (fA w); pure (.ftst d a off (pgOf w))
  | _ => .error .reservedFunction

/-- The port group (R69, R173, R175). -/
def decPort : Dec Instr :=
  match fld w 10 3 with
  | 0 => do let d ← opnd 24 k (fD w); let q ← qfield (fA w); res0 (fB w); pure (.mkpop d q (pgOf w))
  | 1 => do let d ← opnd 24 k (fD w); let q ← qfield (fA w); res0 (fB w); pure (.spos d q (pgOf w))
  | 2 => do res0 (fD w); let q ← qfield (fA w); let b ← rfield 24 (fB w); pure (.sskip q b (pgOf w))
  | 3 => do res0 (fD w); let q ← qfield (fA w); res0 (fB w); pure (.srst q (pgOf w))
  | 4 => do let d ← opnd 24 k (fD w); let q ← qfield (fA w); res0 (fB w); pure (.socc d q (pgOf w))
  | 5 => do
    let d ← rfield 24 (fD w); let q ← qfield (fA w); let r ← qfield (fB w)
    if q = r then .error .reservedRegister else pure (.sisect d q r (pgOf w))
  | 6 => do let d ← rfield 24 (fD w); let q ← qfield (fA w); res0 (fB w); pure (.sacc d q (pgOf w))
  | 7 => do let d ← rfield 24 (fD w); let q ← qfield (fA w); res0 (fB w); pure (.saccx d q (pgOf w))
  | _ => .error .reservedFunction

/-- bmk (R69). -/
def decBmk : Dec Instr := do
  let kind ← if h : fA w < 3 then pure (⟨fA w, h⟩ : Fin 3) else .error .reservedFunction
  let q ← qfield (fD w)
  pure (.bmk q kind (BitVec.ofNat 16 (fld w 15 0)))

/-- atom functions (R70). -/
def decAtom : Dec Instr :=
  match fld w 10 3 with
  | 0 => r2 k w .dec | 1 => r2 k w .encA4 | 2 => r2 k w .encA32 | 3 => r3 k w .enctA4 | 4 => r3 k w .enctA32
  | 5 => r3 k w .aaddA4 | 6 => r3 k w .aaddA32 | 7 => r3 k w .asubA4 | 8 => r3 k w .asubA32
  | 9 => r2 k w .arelu | 10 => r3 k w .amsk | 11 => r2 k w .aneg | 12 => r3 k w .ascl | 13 => r3 k w .adot
  | 14 => r2 k w .amov | 15 => r3 k w .aget | 16 => r3 k w .aset
  | 17 => do
    let d ← opnd 24 k (fD w); let a ← opnd 24 k (fA w)
    match fB w with
    | 0 => pure (.acvtA4 d a (pgOf w))
    | 1 => pure (.acvtA32 d a (pgOf w))
    | _ => .error .reservedFunction
  | _ => .error .reservedFunction

/-- wide functions (R70). -/
def decWide : Dec Instr :=
  match fld w 10 3 with
  | 0 => r3 k w .wadd | 1 => r3 k w .wsub | 2 => r3 k w .wmul | 3 => r3 k w .wmin | 4 => r3 k w .wmax
  | 5 => r2 k w .wabs | 6 => r2 k w .wneg | 7 => r2 k w .wrcp | 8 => r2 k w .wrsq | 9 => r2 k w .wsqrt
  | 10 => r2 k w .wexp2 | 11 => r2 k w .wlog2 | 12 => r3 k w .wcmpeq | 13 => r3 k w .wcmplt | 14 => r3 k w .wcmple
  | 15 => r2 k w .wredsum | 16 => r2 k w .wredmax | 17 => r2 k w .wredmin | 18 => r2 k w .wbcst
  | 19 => r3 k w .wins | 20 => r3 k w .wext | 21 => r3 k w .wshuf
  | 22 => r2 k w .wcvtfi | 23 => r2 k w .wcvtif | 24 => r2 k w .wcvtbf | 25 => r2 k w .wcvtfb | 26 => r2 k w .wmov
  | _ => .error .reservedFunction

/-- wfma functions (R70). -/
def decFma : Dec Instr :=
  match fld w 5 3 with
  | 0 => m4 k w .wfma | 1 => m4 k w .wfms | 2 => m4 k w .wfnma | 3 => m4 k w .wsel
  | _ => .error .reservedFunction

/-- mma functions (R71). -/
def decMma : Dec Instr :=
  match fld w 5 3 with
  | 0 => mma k w .mmaA4a4 | 1 => mma k w .mmaA4a32 | 2 => mma k w .mmaA32a32
  | 3 => mma k w .mmacsrA4 | 4 => mma k w .mmacsrA32 | 5 => mma k w .mmagA4 | 6 => mma k w .mmagA32
  | _ => .error .reservedFunction

/-- mat functions (R71). -/
def decMat : Dec Instr :=
  match fld w 10 3 with
  | 0 => do let (t, c) ← tileF (fD w); res0 (fA w); res0 (fB w); pure (.mzero t c (pgOf w))
  | 1 => do
    let d ← opnd 24 k (fD w); let (t, c) ← tileF (fA w); let b ← opnd 24 k (fB w); pure (.mrd d t c b (pgOf w))
  | 2 => do
    let (t, c) ← tileF (fD w); let a ← opnd 24 k (fA w); let b ← opnd 24 k (fB w); pure (.mwr t c a b (pgOf w))
  | 3 => mst k w .mstF32 | 4 => mst k w .mstA4 | 5 => mst k w .mstA32
  | 6 => do
    let (t, c) ← tileF (fD w); res0 t.val; res0 (fA w); res0 (fB w); pure (.mwait c (pgOf w))
  | 7 => do res0 (fD w); let a ← opnd 24 k (fA w); res0 (fB w); pure (.mbudget a (pgOf w))
  | 8 => do let d ← opnd 24 k (fD w); res0 (fA w); res0 (fB w); pure (.mstat d (pgOf w))
  | _ => .error .reservedFunction

/-- A 32-bit word, whose major opcode is not 0x3F (R63). -/
def decode32 : Dec Instr :=
  match fld w 31 26 with
  | 0x01 => decAlu k w
  | 0x02 => i13 k w .addi | 0x03 => i13 k w .andi | 0x04 => i13 k w .ori | 0x05 => i13 k w .xori
  | 0x06 => ish k w .shli | 0x07 => ish k w .shri | 0x08 => ish k w .srai
  | 0x09 => i13 k w .slti | 0x0A => i13 k w .sltiu
  | 0x0B => u21 k w .lui | 0x0C => u21 k w .lih | 0x0D => u21 k w .auipc
  | 0x0E => decPred k w
  | 0x0F => icsr k w .csrrw | 0x10 => icsr k w .csrrs | 0x11 => icsr k w .csrrc
  | 0x12 => br k w .beq | 0x13 => br k w .bne | 0x14 => br k w .blt | 0x15 => br k w .bge
  | 0x16 => br k w .bltu | 0x17 => br k w .bgeu
  | 0x18 => pure (.jal (BitVec.ofNat 26 (fld w 25 0)))
  | 0x19 => i13 k w .jalr
  | 0x1A => do
    res0 (fld w 11 0)
    pure (.rep (BitVec.ofNat 6 (fld w 25 20)) (BitVec.ofNat 2 (fld w 19 18)) (BitVec.ofNat 2 (fld w 17 16))
      (BitVec.ofNat 2 (fld w 15 14)) (BitVec.ofNat 2 (fld w 13 12)))
  | 0x1B => decSys k w
  | 0x1C | 0x1D | 0x1E | 0x1F | 0x20 | 0x21 | 0x22 | 0x23 => decMem k w
  | 0x24 => decAmo k w
  | 0x25 => decAmon k w
  | 0x26 => if fld w 5 3 = 0 then m4 k w .cas else .error .reservedFunction
  | 0x27 => decSem k w
  | 0x28 => decFe k w
  | 0x29 => do cellOnly k; decPort k w
  | 0x2A => do cellOnly k; decBmk w
  | 0x2B => do cellOnly k; decAtom k w
  | 0x2C => do cellOnly k; decWide k w
  | 0x2D => do cellOnly k; decFma k w
  | 0x2E => do cellOnly k; decMma k w
  | 0x2F => do cellOnly k; decMat k w
  | _ => .error .reservedOpcode

end forms

section long
variable (k : Kind) (w0 w1 w2 w3 : Nat)

/-- The wait and signal clauses of W1 and W2 (R61, R62). -/
def clauses : Dec WaitSig := do
  res0 (fld w1 6 0)
  let wait ← if fld w1 31 31 = 1 then
      pure (some ⟨BitVec.ofNat 8 (fld w1 30 23), BitVec.ofNat 16 (fld w1 22 7)⟩)
    else do res0 (fld w1 30 7); pure none
  let signal ← if fld w2 31 31 = 1 then
      if fld w2 22 15 = 0 then .error .nonzeroRes0
      else pure (some ⟨BitVec.ofNat 8 (fld w2 30 23), BitVec.ofNat 8 (fld w2 22 15)⟩)
    else do res0 (fld w2 30 15); pure none
  pure ⟨wait, signal⟩

def lA : Nat := fld w0 17 13
def lB : Nat := fld w0 12 8
def lC : Nat := fld w0 7 3
def immA : Nat := fld w2 14 0

/-- Commands with three registers; `c` builds the rest from immA and immB, both already checked. -/
def l3 (c : XOp → XOp → XOp → WaitSig → Pg → Instr) : Dec Instr := do
  let a ← opnd 24 k (lA w0); let b ← opnd 24 k (lB w0); let e ← opnd 24 k (lC w0)
  let ws ← clauses w1 w2
  pure (c a b e ws (pgOf w0))

/-- Commands with one register. -/
def l1 (c : XOp → WaitSig → Pg → Instr) : Dec Instr := do
  let a ← opnd 24 k (lA w0); res0 (lB w0); res0 (lC w0)
  let ws ← clauses w1 w2
  pure (c a ws (pgOf w0))

/-- immB must be zero. -/
def noB : Dec Unit := res0 w3

/-- The commands that only conductors issue (R72). -/
def decCond : Dec Instr :=
  let ia := immA w2
  match fld w0 25 18 with
  | 0x10 => do res0 (ia / 64); noB w3; l3 k w0 w1 w2 (fun a b c => .copy a b c (BitVec.ofNat 6 ia))
  | 0x11 => do res0 (ia / 64); noB w3; l3 k w0 w1 w2 (fun a b c => .fill a b c (BitVec.ofNat 6 ia))
  | 0x12 => do res0 (ia % 32); res0 (ia / 64); noB w3; l3 k w0 w1 w2 (fun a b c => .fprint a b c (bitOf ia 5))
  | 0x13 => do
    res0 (ia % 32); res0 (ia / 64)
    l3 k w0 w1 w2 (fun a b c => .cmpr a b c (bitOf ia 5) (BitVec.ofNat 32 w3))
  | 0x14 => do
    res0 (ia / 512)
    l3 k w0 w1 w2 (fun a b c => .gather a b c (BitVec.ofNat 6 ia) (BitVec.ofNat 3 (ia / 64)) (BitVec.ofNat 32 w3))
  | 0x15 => do
    res0 (ia % 32); res0 (ia / 512)
    l3 k w0 w1 w2 (fun a b c => .scatter a b c (bitOf ia 5) (BitVec.ofNat 3 (ia / 64)) (BitVec.ofNat 32 w3))
  | 0x16 => do
    res0 (ia / 16)
    l3 k w0 w1 w2 (fun a b c => .rcopy a b c (Fin.ofNat 8 ia) (bitOf ia 3) (BitVec.ofNat 32 w3))
  | 0x17 => do
    let op ← if h : fld ia 7 6 < 3 then pure (⟨fld ia 7 6, h⟩ : Fin 3) else .error .reservedFunction
    res0 (ia / 256); noB w3
    l3 k w0 w1 w2 (fun a b c => .reduce a b c (BitVec.ofNat 6 ia) op)
  | 0x18 => do res0 ia; noB w3; l3 k w0 w1 w2 .seamw
  | 0x19 => do res0 (ia / 2); noB w3; l1 k w0 w1 w2 (fun a => .xmap a (bitOf ia 0))
  | 0x20 => do
    res0 ia; noB w3
    let a ← opnd 24 k (lA w0); let b ← opnd 24 k (lB w0); res0 (lC w0)
    let ws ← clauses w1 w2
    pure (.clause a b ws (pgOf w0))
  | 0x21 => do res0 ia; noB w3; l1 k w0 w1 w2 .cwait
  | 0x22 => do res0 ia; noB w3; l1 k w0 w1 w2 .rolemap
  | 0x30 => do res0 ia; noB w3; l1 k w0 w1 w2 .attn
  | 0x31 => do res0 ia; noB w3; l1 k w0 w1 w2 .lfork
  | 0x32 => do res0 ia; noB w3; l3 k w0 w1 w2 .lapp
  | 0x33 => do res0 ia; noB w3; l3 k w0 w1 w2 .lput
  | 0x34 => do res0 (ia / 64); noB w3; l3 k w0 w1 w2 (fun a b c => .lget a b c (BitVec.ofNat 6 ia))
  | 0x35 => do res0 (ia / 2); noB w3; l3 k w0 w1 w2 (fun a b c => .lshare a b c (bitOf ia 0))
  | 0x36 => do res0 ia; noB w3; l1 k w0 w1 w2 .lrel
  | 0x37 => do res0 (ia / 2); noB w3; l1 k w0 w1 w2 (fun a => .linv a (bitOf ia 0))
  | _ => .error .reservedFunction

/-- ra of `spat` and `spatr`: a cell names its own port, a conductor a register (R72). -/
def targetF : Dec XOp :=
  if k = .cell then do let q ← qfield (lA w0); pure (.port q) else opnd 24 k (lA w0)

/-- A cell's long command has neither clause (R62). -/
def noClauses (ws : WaitSig) : Dec Unit :=
  if k = .cell ∧ ws ≠ ⟨none, none⟩ then .error .cellLong else .ok ()

/-- A long word (R72). The order of R73: UNDEF checks first, PRIV last. -/
def decodeLong : Dec Instr :=
  match fld w0 25 18 with
  | 0x00 => do
    res0 (lA w0); res0 (lB w0); res0 (lC w0); res0 (immA w2); noB w3
    let ws ← clauses w1 w2
    noClauses k ws
    pure (.nopl ws (pgOf w0))
  | 0x01 => do
    let t ← targetF k w0; let b ← opnd 24 k (lB w0); let c ← opnd 24 k (lC w0)
    let ws ← clauses w1 w2
    noClauses k ws
    pure (.spat t b c (BitVec.ofNat 15 (immA w2)) (BitVec.ofNat 32 w3) ws (pgOf w0))
  | 0x02 => do
    let t ← targetF k w0; let b ← opnd 24 k (lB w0); res0 (lC w0); res0 (immA w2); noB w3
    let ws ← clauses w1 w2
    noClauses k ws
    pure (.spatr t b ws (pgOf w0))
  | _ => do
    let i ← decCond k w0 w1 w2 w3
    if k = .cell then .error .cellLong else pure i

end long

/-- An instruction's words as an agent of kind `k` reads them; `at16` says that W0 stands at a multiple of 16
(R51, R73). -/
def decode (k : Kind) (at16 : Bool) (w0 w1 w2 w3 : Nat) : Dec Instr :=
  if fld w0 31 26 = 0x3F then
    if at16 then decodeLong k w0 w1 w2 w3 else .error .misplacedLong
  else decode32 k w0

/-- Word `i` of a byte string, absent bytes read as zero. -/
def wordAt (bs : List Byte) (i : Nat) : Nat := leNat ((bs.drop (4 * i)).take 4)

/-- The instruction at the head of a byte string, and the bytes after it. -/
def decodeBytes (k : Kind) (at16 : Bool) (bs : List Byte) : Dec (Instr × List Byte) := do
  let i ← decode k at16 (wordAt bs 0) (wordAt bs 1) (wordAt bs 2) (wordAt bs 3)
  pure (i, bs.drop (if fld (wordAt bs 0) 31 26 = 0x3F then 16 else 4))

/-- The instruction my decoder reads from a row's bits, for a stage context or else for a conductor. -/
def decodeTableWord (nbits w : Nat) : Option Instr :=
  let bs := leBytes 16 (w % 2 ^ nbits)
  match decodeBytes .cell true bs with
  | .ok (i, _) => some i
  | .error _ =>
    match decodeBytes .cond true bs with
    | .ok (i, _) => some i
    | .error _ => none

/-- The field value of an operand (R33, R57). -/
def Opnd.field {n : Nat} : Opnd n → Nat
  | .reg i => i.val
  | .port q => 24 + q.val

/-- The ra field of a fence scope (R65). -/
def Scope.code : Scope → Nat
  | .ctx => 0 | .cell => 1 | .region => 2 | .module => 3 | .system => 4

/-- A word from its fixed bits and the register fields rd, ra, rb, rc and the low bits (R52). -/
def wR (base d a b c lowBits : Nat) : List Nat := [base + d * 2 ^ 21 + a * 2 ^ 16 + b * 2 ^ 11 + c * 2 ^ 6 + lowBits]

/-- A word of format I, its value from bit 3 (R52). -/
def wI (base d a imm pg : Nat) : List Nat := [base + d * 2 ^ 21 + a * 2 ^ 16 + imm * 2 ^ 3 + pg]

/-- A memory word, off10 from bit 6 (R66). -/
def wO (base d a off pg : Nat) : List Nat := [base + d * 2 ^ 21 + a * 2 ^ 16 + off * 2 ^ 6 + pg]

/-- The tile field (R71). -/
def tileNum (tile cls : Fin 4) : Nat := tile.val + 4 * cls.val

/-- The four words of a long command (R52, R61). -/
def encLong (cmd ra rb rc ia ib : Nat) (ws : WaitSig) (pg : Pg) : List Nat :=
  let w1 := match ws.wait with
    | some w => 2 ^ 31 + w.sem.toNat * 2 ^ 23 + w.thr.toNat * 2 ^ 7
    | none => 0
  let w2 := match ws.signal with
    | some g => 2 ^ 31 + g.sem.toNat * 2 ^ 23 + g.inc.toNat * 2 ^ 15
    | none => 0
  [0xFC000000 + cmd * 2 ^ 18 + ra * 2 ^ 13 + rb * 2 ^ 8 + rc * 2 ^ 3 + pg.val, w1, w2 + ia, ib]

/-- The words of an instruction, W0 first; an event has none. -/
def encode : Instr → List Nat
  | .add rd ra rb pg => wR 0x04000000 rd.field ra.field rb.field 0 pg.val
  | .sub rd ra rb pg => wR 0x04000008 rd.field ra.field rb.field 0 pg.val
  | .and rd ra rb pg => wR 0x04000010 rd.field ra.field rb.field 0 pg.val
  | .or rd ra rb pg => wR 0x04000018 rd.field ra.field rb.field 0 pg.val
  | .xor rd ra rb pg => wR 0x04000020 rd.field ra.field rb.field 0 pg.val
  | .andn rd ra rb pg => wR 0x04000028 rd.field ra.field rb.field 0 pg.val
  | .shl rd ra rb pg => wR 0x04000030 rd.field ra.field rb.field 0 pg.val
  | .shr rd ra rb pg => wR 0x04000038 rd.field ra.field rb.field 0 pg.val
  | .sra rd ra rb pg => wR 0x04000040 rd.field ra.field rb.field 0 pg.val
  | .rot rd ra rb pg => wR 0x04000048 rd.field ra.field rb.field 0 pg.val
  | .addw rd ra rb pg => wR 0x04000050 rd.field ra.field rb.field 0 pg.val
  | .subw rd ra rb pg => wR 0x04000058 rd.field ra.field rb.field 0 pg.val
  | .shlw rd ra rb pg => wR 0x04000060 rd.field ra.field rb.field 0 pg.val
  | .shrw rd ra rb pg => wR 0x04000068 rd.field ra.field rb.field 0 pg.val
  | .sraw rd ra rb pg => wR 0x04000070 rd.field ra.field rb.field 0 pg.val
  | .mul rd ra rb pg => wR 0x04000078 rd.field ra.field rb.field 0 pg.val
  | .mulh rd ra rb pg => wR 0x04000080 rd.field ra.field rb.field 0 pg.val
  | .mulhu rd ra rb pg => wR 0x04000088 rd.field ra.field rb.field 0 pg.val
  | .mulw rd ra rb pg => wR 0x04000090 rd.field ra.field rb.field 0 pg.val
  | .div rd ra rb pg => wR 0x04000098 rd.field ra.field rb.field 0 pg.val
  | .divu rd ra rb pg => wR 0x040000A0 rd.field ra.field rb.field 0 pg.val
  | .rem rd ra rb pg => wR 0x040000A8 rd.field ra.field rb.field 0 pg.val
  | .remu rd ra rb pg => wR 0x040000B0 rd.field ra.field rb.field 0 pg.val
  | .min rd ra rb pg => wR 0x040000B8 rd.field ra.field rb.field 0 pg.val
  | .max rd ra rb pg => wR 0x040000C0 rd.field ra.field rb.field 0 pg.val
  | .minu rd ra rb pg => wR 0x040000C8 rd.field ra.field rb.field 0 pg.val
  | .maxu rd ra rb pg => wR 0x040000D0 rd.field ra.field rb.field 0 pg.val
  | .slt rd ra rb pg => wR 0x040000D8 rd.field ra.field rb.field 0 pg.val
  | .sltu rd ra rb pg => wR 0x040000E0 rd.field ra.field rb.field 0 pg.val
  | .seq rd ra rb pg => wR 0x040000E8 rd.field ra.field rb.field 0 pg.val
  | .clz rd ra pg => wR 0x040000F0 rd.field ra.field 0 0 pg.val
  | .popc rd ra pg => wR 0x040000F8 rd.field ra.field 0 0 pg.val
  | .brev rd ra pg => wR 0x04000100 rd.field ra.field 0 0 pg.val
  | .addi rd ra imm pg => wI 0x08000000 rd.field ra.field imm.toNat pg.val
  | .andi rd ra imm pg => wI 0x0C000000 rd.field ra.field imm.toNat pg.val
  | .ori rd ra imm pg => wI 0x10000000 rd.field ra.field imm.toNat pg.val
  | .xori rd ra imm pg => wI 0x14000000 rd.field ra.field imm.toNat pg.val
  | .shli rd ra sh pg => wI 0x18000000 rd.field ra.field sh.toNat pg.val
  | .shri rd ra sh pg => wI 0x1C000000 rd.field ra.field sh.toNat pg.val
  | .srai rd ra sh pg => wI 0x20000000 rd.field ra.field sh.toNat pg.val
  | .slti rd ra imm pg => wI 0x24000000 rd.field ra.field imm.toNat pg.val
  | .sltiu rd ra imm pg => wI 0x28000000 rd.field ra.field imm.toNat pg.val
  | .lui rd imm => wR 0x2C000000 rd.field 0 0 0 imm.toNat
  | .lih rd imm => wR 0x30000000 rd.field 0 0 0 imm.toNat
  | .auipc rd imm => wR 0x34000000 rd.field 0 0 0 imm.toNat
  | .peq rd ra rb pg => wR 0x38000000 rd.field ra.field rb.field 0 pg.val
  | .pne rd ra rb pg => wR 0x38000008 rd.field ra.field rb.field 0 pg.val
  | .plt rd ra rb pg => wR 0x38000010 rd.field ra.field rb.field 0 pg.val
  | .pge rd ra rb pg => wR 0x38000018 rd.field ra.field rb.field 0 pg.val
  | .pltu rd ra rb pg => wR 0x38000020 rd.field ra.field rb.field 0 pg.val
  | .pgeu rd ra rb pg => wR 0x38000028 rd.field ra.field rb.field 0 pg.val
  | .pand rd ra rb pg => wR 0x38000030 rd.field ra.field rb.field 0 pg.val
  | .por rd ra rb pg => wR 0x38000038 rd.field ra.field rb.field 0 pg.val
  | .pxor rd ra rb pg => wR 0x38000040 rd.field ra.field rb.field 0 pg.val
  | .pnot rd ra pg => wR 0x38000048 rd.field ra.field 0 0 pg.val
  | .pmany rd ra pg => wR 0x38000050 rd.field ra.field 0 0 pg.val
  | .mset rd ra pg => wR 0x38000058 rd.field ra.field 0 0 pg.val
  | .mget rd ra pg => wR 0x38000060 rd.field ra.field 0 0 pg.val
  | .mnot rd ra pg => wR 0x38000068 rd.field ra.field 0 0 pg.val
  | .csrrw rd ra csr pg => wI 0x3C000000 rd.field ra.field csr.toNat pg.val
  | .csrrs rd ra csr pg => wI 0x40000000 rd.field ra.field csr.toNat pg.val
  | .csrrc rd ra csr pg => wI 0x44000000 rd.field ra.field csr.toNat pg.val
  | .beq ra rb off => wR 0x48000000 ra.field rb.field 0 0 off.toNat
  | .bne ra rb off => wR 0x4C000000 ra.field rb.field 0 0 off.toNat
  | .blt ra rb off => wR 0x50000000 ra.field rb.field 0 0 off.toNat
  | .bge ra rb off => wR 0x54000000 ra.field rb.field 0 0 off.toNat
  | .bltu ra rb off => wR 0x58000000 ra.field rb.field 0 0 off.toNat
  | .bgeu ra rb off => wR 0x5C000000 ra.field rb.field 0 0 off.toNat
  | .jal off => wR 0x60000000 0 0 0 0 off.toNat
  | .jalr rd ra imm pg => wI 0x64000000 rd.field ra.field imm.toNat pg.val
  | .rep cnt sd sa sb sc => wR 0x68000000 0 0 0 0 (cnt.toNat * 2 ^ 20 + sd.toNat * 2 ^ 18 + sa.toNat * 2 ^ 16 + sb.toNat * 2 ^ 14 + sc.toNat * 2 ^ 12)
  | .rept => []
  | .nop pg => wR 0x6C000000 0 0 0 0 pg.val
  | .trap ra pg => wR 0x6C000008 0 ra.field 0 0 pg.val
  | .rett pg => wR 0x6C000010 0 0 0 0 pg.val
  | .ends pg => wR 0x6C000018 0 0 0 0 pg.val
  | .fence scope pg => wR 0x6C000020 0 scope.code 0 0 pg.val
  | .bar pg => wR 0x6C000028 0 0 0 0 pg.val
  | .wfa pg => wR 0x6C000030 0 0 0 0 pg.val
  | .yield pg => wR 0x6C000038 0 0 0 0 pg.val
  | .halt pg => wR 0x6C000040 0 0 0 0 pg.val
  | .ldB rd ra off pg => wO 0x70000000 rd.field ra.field off.toNat pg.val
  | .ldBu rd ra off pg => wO 0x70000008 rd.field ra.field off.toNat pg.val
  | .ldH rd ra off pg => wO 0x70000010 rd.field ra.field off.toNat pg.val
  | .ldHu rd ra off pg => wO 0x70000018 rd.field ra.field off.toNat pg.val
  | .ldW rd ra off pg => wO 0x70000020 rd.field ra.field off.toNat pg.val
  | .ldWu rd ra off pg => wO 0x70000028 rd.field ra.field off.toNat pg.val
  | .ldD rd ra off pg => wO 0x70000030 rd.field ra.field off.toNat pg.val
  | .stB rd ra off pg => wO 0x74000000 rd.field ra.field off.toNat pg.val
  | .stH rd ra off pg => wO 0x74000010 rd.field ra.field off.toNat pg.val
  | .stW rd ra off pg => wO 0x74000020 rd.field ra.field off.toNat pg.val
  | .stD rd ra off pg => wO 0x74000030 rd.field ra.field off.toNat pg.val
  | .ldaA4 rd ra off pg => wO 0x78000000 rd.field ra.field off.toNat pg.val
  | .ldaA32 rd ra off pg => wO 0x78000008 rd.field ra.field off.toNat pg.val
  | .staA4 rd ra off pg => wO 0x7C000000 rd.field ra.field off.toNat pg.val
  | .staA32 rd ra off pg => wO 0x7C000008 rd.field ra.field off.toNat pg.val
  | .ldwFp32 rd ra off pg => wO 0x80000000 rd.field ra.field off.toNat pg.val
  | .ldwBf16 rd ra off pg => wO 0x80000008 rd.field ra.field off.toNat pg.val
  | .stwFp32 rd ra off pg => wO 0x84000000 rd.field ra.field off.toNat pg.val
  | .stwBf16 rd ra off pg => wO 0x84000008 rd.field ra.field off.toNat pg.val
  | .ldfW rd ra off pg => wO 0x88000000 rd.field ra.field off.toNat pg.val
  | .ldfD rd ra off pg => wO 0x88000008 rd.field ra.field off.toNat pg.val
  | .ldfDc rd ra off pg => wO 0x88000010 rd.field ra.field off.toNat pg.val
  | .stfW rd ra off pg => wO 0x8C000000 rd.field ra.field off.toNat pg.val
  | .stfD rd ra off pg => wO 0x8C000008 rd.field ra.field off.toNat pg.val
  | .amoAdd rd ra rb pg => wR 0x90000000 rd.field ra.field rb.field 0 pg.val
  | .amoMin rd ra rb pg => wR 0x90000008 rd.field ra.field rb.field 0 pg.val
  | .amoMax rd ra rb pg => wR 0x90000010 rd.field ra.field rb.field 0 pg.val
  | .amoMinu rd ra rb pg => wR 0x90000018 rd.field ra.field rb.field 0 pg.val
  | .amoMaxu rd ra rb pg => wR 0x90000020 rd.field ra.field rb.field 0 pg.val
  | .amoAnd rd ra rb pg => wR 0x90000028 rd.field ra.field rb.field 0 pg.val
  | .amoOr rd ra rb pg => wR 0x90000030 rd.field ra.field rb.field 0 pg.val
  | .amoXor rd ra rb pg => wR 0x90000038 rd.field ra.field rb.field 0 pg.val
  | .amoSwap rd ra rb pg => wR 0x90000040 rd.field ra.field rb.field 0 pg.val
  | .amonAdd ra rb pg => wR 0x94000000 0 ra.field rb.field 0 pg.val
  | .amonMin ra rb pg => wR 0x94000008 0 ra.field rb.field 0 pg.val
  | .amonMax ra rb pg => wR 0x94000010 0 ra.field rb.field 0 pg.val
  | .amonMinu ra rb pg => wR 0x94000018 0 ra.field rb.field 0 pg.val
  | .amonMaxu ra rb pg => wR 0x94000020 0 ra.field rb.field 0 pg.val
  | .amonAnd ra rb pg => wR 0x94000028 0 ra.field rb.field 0 pg.val
  | .amonOr ra rb pg => wR 0x94000030 0 ra.field rb.field 0 pg.val
  | .amonXor ra rb pg => wR 0x94000038 0 ra.field rb.field 0 pg.val
  | .cas rd ra rb rc pg => wR 0x98000000 rd.field ra.field rb.field rc.field pg.val
  | .semw sem ra pg => wI 0x9C000000 0 ra.field sem.toNat pg.val
  | .sems sem ra pg => wI 0x9C002000 0 ra.field sem.toNat pg.val
  | .semr rd sem pg => wI 0x9C004000 rd.field 0 sem.toNat pg.val
  | .fset ra off pg => wI 0xA0000000 0 ra.field off.toNat pg.val
  | .fclr ra off pg => wI 0xA0002000 0 ra.field off.toNat pg.val
  | .ftst rd ra off pg => wI 0xA0004000 rd.field ra.field off.toNat pg.val
  | .mkpop rd qa pg => wR 0xA4000000 rd.field (24 + qa.val) 0 0 pg.val
  | .spos rd qa pg => wR 0xA4000008 rd.field (24 + qa.val) 0 0 pg.val
  | .sskip qa rb pg => wR 0xA4000010 0 (24 + qa.val) rb.val 0 pg.val
  | .srst qa pg => wR 0xA4000018 0 (24 + qa.val) 0 0 pg.val
  | .socc rd qa pg => wR 0xA4000020 rd.field (24 + qa.val) 0 0 pg.val
  | .sisect rd qa qb pg => wR 0xA4000028 rd.val (24 + qa.val) (24 + qb.val) 0 pg.val
  | .sacc rd qa pg => wR 0xA4000030 rd.val (24 + qa.val) 0 0 pg.val
  | .saccx rd qa pg => wR 0xA4000038 rd.val (24 + qa.val) 0 0 pg.val
  | .bmk qa kind off => wR 0xA8000000 (24 + qa.val) kind.val 0 0 off.toNat
  | .dec rd ra pg => wR 0xAC000000 rd.field ra.field 0 0 pg.val
  | .encA4 rd ra pg => wR 0xAC000008 rd.field ra.field 0 0 pg.val
  | .encA32 rd ra pg => wR 0xAC000010 rd.field ra.field 0 0 pg.val
  | .enctA4 rd ra rb pg => wR 0xAC000018 rd.field ra.field rb.field 0 pg.val
  | .enctA32 rd ra rb pg => wR 0xAC000020 rd.field ra.field rb.field 0 pg.val
  | .aaddA4 rd ra rb pg => wR 0xAC000028 rd.field ra.field rb.field 0 pg.val
  | .aaddA32 rd ra rb pg => wR 0xAC000030 rd.field ra.field rb.field 0 pg.val
  | .asubA4 rd ra rb pg => wR 0xAC000038 rd.field ra.field rb.field 0 pg.val
  | .asubA32 rd ra rb pg => wR 0xAC000040 rd.field ra.field rb.field 0 pg.val
  | .arelu rd ra pg => wR 0xAC000048 rd.field ra.field 0 0 pg.val
  | .amsk rd ra rb pg => wR 0xAC000050 rd.field ra.field rb.field 0 pg.val
  | .aneg rd ra pg => wR 0xAC000058 rd.field ra.field 0 0 pg.val
  | .ascl rd ra rb pg => wR 0xAC000060 rd.field ra.field rb.field 0 pg.val
  | .adot rd ra rb pg => wR 0xAC000068 rd.field ra.field rb.field 0 pg.val
  | .amov rd ra pg => wR 0xAC000070 rd.field ra.field 0 0 pg.val
  | .aget rd ra rb pg => wR 0xAC000078 rd.field ra.field rb.field 0 pg.val
  | .aset rd ra rb pg => wR 0xAC000080 rd.field ra.field rb.field 0 pg.val
  | .acvtA4 rd ra pg => wR 0xAC000088 rd.field ra.field 0 0 pg.val
  | .acvtA32 rd ra pg => wR 0xAC000888 rd.field ra.field 0 0 pg.val
  | .wadd rd ra rb pg => wR 0xB0000000 rd.field ra.field rb.field 0 pg.val
  | .wsub rd ra rb pg => wR 0xB0000008 rd.field ra.field rb.field 0 pg.val
  | .wmul rd ra rb pg => wR 0xB0000010 rd.field ra.field rb.field 0 pg.val
  | .wmin rd ra rb pg => wR 0xB0000018 rd.field ra.field rb.field 0 pg.val
  | .wmax rd ra rb pg => wR 0xB0000020 rd.field ra.field rb.field 0 pg.val
  | .wabs rd ra pg => wR 0xB0000028 rd.field ra.field 0 0 pg.val
  | .wneg rd ra pg => wR 0xB0000030 rd.field ra.field 0 0 pg.val
  | .wrcp rd ra pg => wR 0xB0000038 rd.field ra.field 0 0 pg.val
  | .wrsq rd ra pg => wR 0xB0000040 rd.field ra.field 0 0 pg.val
  | .wsqrt rd ra pg => wR 0xB0000048 rd.field ra.field 0 0 pg.val
  | .wexp2 rd ra pg => wR 0xB0000050 rd.field ra.field 0 0 pg.val
  | .wlog2 rd ra pg => wR 0xB0000058 rd.field ra.field 0 0 pg.val
  | .wcmpeq rd ra rb pg => wR 0xB0000060 rd.field ra.field rb.field 0 pg.val
  | .wcmplt rd ra rb pg => wR 0xB0000068 rd.field ra.field rb.field 0 pg.val
  | .wcmple rd ra rb pg => wR 0xB0000070 rd.field ra.field rb.field 0 pg.val
  | .wredsum rd ra pg => wR 0xB0000078 rd.field ra.field 0 0 pg.val
  | .wredmax rd ra pg => wR 0xB0000080 rd.field ra.field 0 0 pg.val
  | .wredmin rd ra pg => wR 0xB0000088 rd.field ra.field 0 0 pg.val
  | .wbcst rd ra pg => wR 0xB0000090 rd.field ra.field 0 0 pg.val
  | .wins rd ra rb pg => wR 0xB0000098 rd.field ra.field rb.field 0 pg.val
  | .wext rd ra rb pg => wR 0xB00000A0 rd.field ra.field rb.field 0 pg.val
  | .wshuf rd ra rb pg => wR 0xB00000A8 rd.field ra.field rb.field 0 pg.val
  | .wcvtfi rd ra pg => wR 0xB00000B0 rd.field ra.field 0 0 pg.val
  | .wcvtif rd ra pg => wR 0xB00000B8 rd.field ra.field 0 0 pg.val
  | .wcvtbf rd ra pg => wR 0xB00000C0 rd.field ra.field 0 0 pg.val
  | .wcvtfb rd ra pg => wR 0xB00000C8 rd.field ra.field 0 0 pg.val
  | .wmov rd ra pg => wR 0xB00000D0 rd.field ra.field 0 0 pg.val
  | .wfma rd ra rb rc pg => wR 0xB4000000 rd.field ra.field rb.field rc.field pg.val
  | .wfms rd ra rb rc pg => wR 0xB4000008 rd.field ra.field rb.field rc.field pg.val
  | .wfnma rd ra rb rc pg => wR 0xB4000010 rd.field ra.field rb.field rc.field pg.val
  | .wsel rd ra rb rc pg => wR 0xB4000018 rd.field ra.field rb.field rc.field pg.val
  | .mmaA4a4 tile cls ra rb rc pg => wR 0xB8000000 (tileNum tile cls) ra.field rb.field rc.field pg.val
  | .mmaA4a32 tile cls ra rb rc pg => wR 0xB8000008 (tileNum tile cls) ra.field rb.field rc.field pg.val
  | .mmaA32a32 tile cls ra rb rc pg => wR 0xB8000010 (tileNum tile cls) ra.field rb.field rc.field pg.val
  | .mmacsrA4 tile cls ra rb rc pg => wR 0xB8000018 (tileNum tile cls) ra.field rb.field rc.field pg.val
  | .mmacsrA32 tile cls ra rb rc pg => wR 0xB8000020 (tileNum tile cls) ra.field rb.field rc.field pg.val
  | .mmagA4 tile cls ra rb rc pg => wR 0xB8000028 (tileNum tile cls) ra.field rb.field rc.field pg.val
  | .mmagA32 tile cls ra rb rc pg => wR 0xB8000030 (tileNum tile cls) ra.field rb.field rc.field pg.val
  | .mzero tile cls pg => wR 0xBC000000 (tileNum tile cls) 0 0 0 pg.val
  | .mrd rd tile cls rb pg => wR 0xBC000008 rd.field (tileNum tile cls) rb.field 0 pg.val
  | .mwr tile cls ra rb pg => wR 0xBC000010 (tileNum tile cls) ra.field rb.field 0 pg.val
  | .mstF32 tile cls ra rb pg => wR 0xBC000018 (tileNum tile cls) ra.field rb.field 0 pg.val
  | .mstA4 tile cls ra rb pg => wR 0xBC000020 (tileNum tile cls) ra.field rb.field 0 pg.val
  | .mstA32 tile cls ra rb pg => wR 0xBC000028 (tileNum tile cls) ra.field rb.field 0 pg.val
  | .mwait cls pg => wR 0xBC000030 (4 * cls.val) 0 0 0 pg.val
  | .mbudget ra pg => wR 0xBC000038 0 ra.field 0 0 pg.val
  | .mstat rd pg => wR 0xBC000040 rd.field 0 0 0 pg.val
  | .nopl ws pg => encLong 0x00 0 0 0 (0) 0 ws pg
  | .spat ra rb rc immA immB ws pg => encLong 0x01 ra.field rb.field rc.field (immA.toNat) immB.toNat ws pg
  | .spatr ra rb ws pg => encLong 0x02 ra.field rb.field 0 (0) 0 ws pg
  | .copy ra rb rc opts ws pg => encLong 0x10 ra.field rb.field rc.field (opts.toNat) 0 ws pg
  | .fill ra rb rc opts ws pg => encLong 0x11 ra.field rb.field rc.field (opts.toNat) 0 ws pg
  | .fprint ra rb rc fe ws pg => encLong 0x12 ra.field rb.field rc.field (32 * b2n fe) 0 ws pg
  | .cmpr ra rb rc fe immB ws pg => encLong 0x13 ra.field rb.field rc.field (32 * b2n fe) immB.toNat ws pg
  | .gather ra rb rc opts esz immB ws pg => encLong 0x14 ra.field rb.field rc.field (opts.toNat + 64 * esz.toNat) immB.toNat ws pg
  | .scatter ra rb rc fe esz immB ws pg => encLong 0x15 ra.field rb.field rc.field (32 * b2n fe + 64 * esz.toNat) immB.toNat ws pg
  | .rcopy ra rb rc port pull key ws pg => encLong 0x16 ra.field rb.field rc.field (port.val + 8 * b2n pull) key.toNat ws pg
  | .reduce ra rb rc opts op ws pg => encLong 0x17 ra.field rb.field rc.field (opts.toNat + 64 * op.val) 0 ws pg
  | .seamw ra rb rc ws pg => encLong 0x18 ra.field rb.field rc.field (0) 0 ws pg
  | .xmap ra zero ws pg => encLong 0x19 ra.field 0 0 (b2n zero) 0 ws pg
  | .clause ra rb ws pg => encLong 0x20 ra.field rb.field 0 (0) 0 ws pg
  | .cwait ra ws pg => encLong 0x21 ra.field 0 0 (0) 0 ws pg
  | .rolemap ra ws pg => encLong 0x22 ra.field 0 0 (0) 0 ws pg
  | .attn ra ws pg => encLong 0x30 ra.field 0 0 (0) 0 ws pg
  | .lfork ra ws pg => encLong 0x31 ra.field 0 0 (0) 0 ws pg
  | .lapp ra rb rc ws pg => encLong 0x32 ra.field rb.field rc.field (0) 0 ws pg
  | .lput ra rb rc ws pg => encLong 0x33 ra.field rb.field rc.field (0) 0 ws pg
  | .lget ra rb rc opts ws pg => encLong 0x34 ra.field rb.field rc.field (opts.toNat) 0 ws pg
  | .lshare ra rb rc ext ws pg => encLong 0x35 ra.field rb.field rc.field (b2n ext) 0 ws pg
  | .lrel ra ws pg => encLong 0x36 ra.field 0 0 (0) 0 ws pg
  | .linv ra all ws pg => encLong 0x37 ra.field 0 0 (b2n all) 0 ws pg
  | .contextReady _ _ => []
  | .stopRequest _ => []
  | .faultRecordDelivery _ => []
  | .operationStart _ => []
  | .kBlockStart _ => []
  | .operationComplete _ => []
  | .mstStoresPerformed _ _ _ => []
  | .apeFetch _ _ _ => []
  | .patternWrite _ _ _ => []
  | .completionEvent _ _ _ => []
  | .tokenHop _ _ _ _ => []
  | .slotReturn _ _ _ _ => []
  | .sendWindowGrant _ _ _ _ => []
  | .grantTimer _ _ _ _ => []
  | .grantArrival _ _ _ _ => []
  | .drainToken _ _ _ => []
  | .edgeDrain _ _ _ => []
  | .occupancySample _ _ _ => []
  | .sampleMessage _ _ _ => []
  | .rateUpdate _ => []
  | .semaphoreWaiterSatisfied _ _ => []
  | .barrierComplete _ _ => []
  | .ldfRelease _ => []
  | .arrival _ _ => []
  | .clauseLoad _ => []
  | .roleLoad _ _ _ => []
  | .iterationStart _ _ => []
  | .cellRelease _ => []
  | .commandDispatch _ => []
  | .commandComplete _ _ => []
  | .commandFail _ _ => []
  | .frameFree _ _ => []
  | .correctionRewrite _ _ => []
  | .patrolScrub _ _ _ => []
  | .refreshWindowStart => []
  | .refreshWindowEnd => []
  | .quiescenceReport _ => []
  | .shootDownGvaRange _ => []
  | .shootDownContext _ => []
  | .shootDownImportEntry _ => []
  | .shootDownAcceptance => []
  | .shootDownCompletion => []
  | .tailWrite _ _ => []
  | .queueRegisterWrite _ _ _ => []
  | .periodStart _ => []
  | .budgetExhausted _ => []
  | .distributorChoice => []
  | .drainStop _ => []
  | .drainmaxExpiry _ => []
  | .preCopyEnd _ => []
  | .pcmaxExpiry _ => []
  | .saveComplete _ => []
  | .sentenceRetirement _ => []
  | .overrun _ => []
  | .coreqWrite _ => []
  | .resolverServe => []
  | .packetSend _ => []
  | .idleHdr _ _ => []
  | .writePkt _ _ => []
  | .readReq _ _ => []
  | .readRsp _ _ => []
  | .tokenPkt _ _ => []
  | .grantPkt _ _ => []
  | .doneHdr _ _ => []
  | .refusePkt _ _ => []
  | .replayTimeout _ => []
  | .laneLoss _ _ => []
  | .crcRetrain _ => []
  | .trainingPatternReceived _ => []
  | .trainingPatternEnd _ _ => []
  | .goodLaneMask _ _ => []
  | .retrainTimeout _ => []
  | .fullRetraining _ => []
  | .portDisable _ => []
  | .hsnapWrite _ => []
  | .snapshotRewrite => []
  | .cellRetirement _ => []
  | .moduleReset _ => []
  | .stage => []
  | .activate => []
  | .report => []
  | .extend => []
  | .ideKm _ => []
  | .cxlMemRead _ _ _ => []
  | .cxlMemWrite _ _ _ => []
  | .lattolWrite _ => []
  | .moduleIdle => []
  | .powerTransitionComplete => []
  | .powerSample _ _ => []
  | .thermalAction _ => []
  | .registerWrite _ _ => []
  | .crcErr _ => []
  | .reservedTypePacket _ => []
  | .accessPerformed _ _ _ => []
  | .budgetRefill _ => []
  | .partitionChange _ _ => []

end Sys2Proof
end

