-- ==== Sys2Proof/Config.lean ====
section
/-! DEFINITION. What is fixed for a KXS-768H module, and the values its manual leaves free. An opaque constant has
no body: nothing can evaluate it, so a claim that mentions it holds for every value. -/
namespace Sys2Proof.Config

/-- Physical cells (R166) and clusters (R30). -/
def cells : Nat := 816
def clusters : Nat := 48
/-- Bytes of a cell store (R239). -/
def storeBytes : Nat := 0x80000
/-- Bytes of bulk memory, 1,152 GiB (R239). -/
def bulkBytes : Nat := 1152 * 2 ^ 30
/-- Bytes of one lode chiplet (R284). -/
def lodeBytes : Nat := 64 * 2 ^ 30
/-- Seam bytes of a die that can be declared (R240). -/
def seamDie : Nat := 47 * 2 ^ 30
/-- Firmware thresholds of the KXS-768H images (R348). -/
def drainMax : Nat := 1250000
def killMax : Nat := 125000
def pcMax : Nat := 500000
/-- FEAT of every KXS-768H (R363). -/
def feat : Nat := 0xFF
/-- Dirty bytes per die at which the pre-copy ends (R351). -/
def preCopyBytes : Nat := 80 * 2 ^ 20

/-- A value the manual leaves open, fresh for each counter value. -/
opaque freeValue : Nat → DWord
/-- The module's serial number (R413), fused and not given. -/
opaque serial : DWord
/-- Kolxon's HSS public key, 60 bytes, fused into the mask ROM (R410). -/
opaque vendorKey : List Byte
/-- What the fused seed of the identity key gives (R409, R410), by RFC 8554's names: the identifier I of an LMS tree, and the
secret of a chain of a leaf of a tree, and the randomizer C of a leaf. Tree 0 is the upper one, tree i + 1 stands under its
leaf i. -/
opaque hssIdent : Nat → BitVec 128
opaque hssSecret : Nat → Nat → Nat → BitVec 256
opaque hssRandom : Nat → Nat → BitVec 256
/-- The words of the dispatch loop that the translator writes for a replica, by its number, from a Plynrun image, a
region size and the masked features (R370, R371): the manual fixes what the loop does, not its words. -/
opaque plynLoop : List Byte → Nat → Nat → Nat → List Byte
/-- The firmware image in the store at the first power-on (R406). -/
opaque storedImage : List Byte
/-- The lowest and the highest RCLASS that a firmware image accepts, and its ERRATA (R411): the manual names these
fields of its 64-byte header and does not place them. -/
opaque fwLow : List Byte → Nat
opaque fwHigh : List Byte → Nat
opaque fwErrata : List Byte → Nat

end Sys2Proof.Config
end

