-- ==== Sys2Proof/Machine/State.lean ====
section
/-! DEFINITION. The state of the module as plain data: every agent, memory, table, queue and register that
spec/02 to spec/23 name, and the state right after reset. -/
namespace Sys2Proof.Machine

/-- A table from numbers to values: a list of pairs with rising keys; an absent key has the default its reader names. -/
abbrev Table (α : Type) := List (Nat × α)

/-- One memory: bytes by address, rising, none of them zero; an unlisted byte reads as zero (R406). -/
abbrev Memory := List Host.Cell

/-- The causes of traps and fault records (R419). -/
inductive Cause where
  | undef | priv | align | bounds | porttype | marker | malatom | race | accbusy | determ | ragged | seambusy
  | badrett | uncorr | nested | lodefault | xfault | overrun | swtrap | cmdfail
deriving DecidableEq, Repr

/-- A block and its format tag: A32 when `a32` (R31). -/
structure Block where
  bits : BitVec 160
  a32 : Bool
deriving DecidableEq, Repr

/-- A data token (R220). -/
inductive Token where
  | scalar (v : DWord)
  | block (b : Block)
  | wide (v : Wide)
deriving DecidableEq, Repr

/-- An index tuple i0 to i3 (R222). -/
structure Idx where
  i0 : Nat
  i1 : Nat
  i2 : Nat
  i3 : Nat
deriving DecidableEq, Repr

/-- What stands in a port's queue: a token, a marker code, a drain token, or a pattern token that could not be
fetched (R183, R212, R276). -/
inductive Item where
  | data (t : Token)
  | marker (code : Byte)
  | drain
  | failed (c : Cause) (addr : DWord)
  /-- a token whose read traps with these trap registers: a peer has refused it (R334, R376), or it raises RACE (R249, R251) -/
  | trapped (c : Cause) (i0 i1 : DWord)
deriving DecidableEq, Repr

/-- A queued item with its sequence number and index tuple (R222). -/
structure Entry where
  item : Item
  seq : Nat
  idx : Idx
  /-- the address a pattern token was read from, 0 for a channel token (R276) -/
  addr : DWord
deriving DecidableEq, Repr

/-- A port pattern (R182) and how far it has run. -/
structure Pattern where
  base : DWord
  c0 : Nat
  c1 : Nat
  c2 : Nat
  c3 : Nat
  s0 : Int
  s1 : Int
  s2 : Int
  s3 : Int
  ttype : Nat
  /-- bit d marks dimension d, bit 4 the stop -/
  marks : BitVec 5
  /-- address of W0 of the command that made it, 0 for a preset (R279) -/
  pc : DWord
  /-- the conductor command it completes (R223) -/
  cmd : Option (Nat × Nat)
  /-- entries fetched or tokens pushed so far -/
  pos : Nat
  /-- tokens written so far, output ports -/
  done : Nat
deriving DecidableEq, Repr

/-- A token pushed to an output pattern port and not yet written, with its address and its issue order. -/
structure OutToken where
  addr : DWord
  tok : Token
  ord : Nat
  /-- offsets of its bytes that are written already (R247) -/
  put : List Nat
deriving DecidableEq, Repr

/-- A port q0 to q7 of a stage context (R202, R221). -/
structure Port where
  used : Bool
  input : Bool
  chan : Bool
  ttype : Nat
  queue : List Entry
  out : List OutToken
  cur : Option Pattern
  nxt : Option Pattern
  /-- the next sequence number: of a channel port, or of a pattern port that has no pattern and no entry -/
  seq : Nat
  /-- the fetch of a pattern input port is held on a missing page (R262) -/
  held : Bool
  /-- bytes of the next token of a pattern input port that are read already, by offset (R247) -/
  seen : List (Nat × Byte)
deriving DecidableEq, Repr

/-- Why the instruction at pc is held; a held instruction executes afresh when it is issued again (R161, R277). -/
inductive Hold where
  /-- an empty input port, or an output port without a free slot -/
  | empty (q : Fin 8) | full (q : Fin 8)
  | page | sem | cwait | ldf | halt | waitField | issueQueue
  | refresh | bar | wfa | fence | protect | logFull | clauseOrder | pattern | array | srst | rett
  /-- an instruction in flight that this one must not overtake, or an atomic engine that serves another agent first -/
  | hazard
  /-- a mwait that waits for what its cell had queued at this order number (R139) -/
  | mwait (ord : Nat)
deriving DecidableEq, Repr

/-- What a stage context or conductor is doing (R210, R274, R275, R102). -/
inductive Run where
  | absent | waiting | running | finished | stopped | halted
deriving DecidableEq, Repr

/-- The functions of amo and amon (R164). -/
inductive AmoFn where
  | add | min | max | minu | maxu | and | or | xor | swap
deriving DecidableEq, Repr

/-- What an access in flight will do when it is performed: write bytes and full/empty bits, or an amon (R164). -/
inductive PendWhat where
  | store (bytes : List (Place × Byte)) (fe : List (Place × Bool))
  | amon (fn : AmoFn) (at8 : List Place) (v : DWord)
deriving DecidableEq, Repr

/-- An extent store or amon that has retired and is not yet performed at every scope (R245, R246). `level` is the
widest scope reached so far: 0 none, 1 cell, 2 region, 3 module, 4 system. -/
structure Pend where
  what : PendWhat
  level : Nat
  /-- its number among the accesses of its agent -/
  seq : Nat
deriving DecidableEq, Repr

/-- A captured source operand: 96 bytes (R47). -/
abbrev Slot := List Byte

/-- An instruction that has issued and is not finished (R46, R47): its address and words, its captured operands, which
of them came from ports, and for a load its address and size, what its bytes were at its issue, and those read since. -/
structure Flight where
  pc : DWord
  words : List Nat
  nops : Nat
  popped : Nat
  slots : List Slot
  /-- address and size of what it loads -/
  load : Option (DWord × Nat)
  base : List Byte
  seen : List (Nat × Byte)
deriving DecidableEq, Repr

/-- What stands for the operands of an instruction that is finished after its issue: the captured slots, the bytes that
its load has read already, and whether it stands in a trap frame (R48, R272). -/
structure Capt where
  slots : List Slot
  seen : List (Nat × Byte)
  frame : Bool
deriving DecidableEq, Repr

/-- An agent that executes instructions: a stage context or a conductor (R30, R31, R37). -/
structure Hart where
  pc : DWord
  x : Vector DWord 24
  p : Vector Bool 8
  a : Vector Block 24
  w : Vector Wide 24
  m : Vector Mask 8
  tl : Vector Wide 4
  /-- STATUS.TL, REP, RDH, ARM (R39) -/
  level : Bool
  rep : Bool
  rdh : Bool
  armed : Bool
  repc : BitVec 7
  fps : BitVec 5
  roleIdx : BitVec 16
  roleNum : BitVec 16
  /-- iterations begun since the load (R210) -/
  begun : Nat
  iter : Word
  clause : Word
  dmode : BitVec 2
  tvec : DWord
  evec : DWord
  fvec : DWord
  tcause : DWord
  tinfo0 : DWord
  tinfo1 : DWord
  tpc : DWord
  tstat : DWord
  tframe : DWord
  wgt : BitVec 16
  wmin : BitVec 16
  wmax : BitVec 16
  pass : DWord
  /-- consecutive ready cycles passed over (R49) -/
  passed : Nat
  /-- one more than the first and the last cycle of the latest run of cycles in which it was ready (R50) -/
  readyFrom : Nat
  readyAt : Nat
  run : Run
  entry : DWord
  woff : Nat
  wlen : Nat
  line : Nat
  barCount : Nat
  /-- waiting at its bar of this count (R99) -/
  arrived : Option Nat
  hold : Option Hold
  pend : List Pend
  /-- accesses accepted, ever -/
  pendSeq : Nat
  ports : Vector Port 8
  /-- registers with an uncorrectable error, as class × 256 + number (R276) -/
  badRegs : List Nat
  /-- captured operands while an instruction is finished after its issue (R48) -/
  capt : Option Capt
  /-- instructions issued and not finished, oldest first (R46) -/
  flight : List Flight
  /-- one more than the entries of its frame that a held rett has executed already, 0 when no rett is under way (R48, R272) -/
  replayed : Nat
  /-- bytes that a later load has read already, while an ldf waited (R246, R254) -/
  early : List (Place × Byte)
deriving DecidableEq, Repr

/-- A B panel of an operation: rows first to first + count − 1 of the tile against the dense panel at base
(R129, R144). -/
structure Panel where
  first : Nat
  count : Nat
  base : Nat
deriving DecidableEq, Repr

/-- The operand forms of a pulse-array operation (R126). -/
inductive PForm where
  | zero
  | dense (a32 b32 : Bool)
  /-- sparse: per k-block, the stored blocks as (column, address) -/
  | csr (a32 : Bool) (rows : List (List (Nat × Nat)))
  /-- ragged groups -/
  | groups (a32 : Bool)
deriving DecidableEq, Repr

/-- A tile as its elements that are not +0, by 24·row + column (R36). -/
abbrev Tile := Table Word

/-- A queued pulse-array operation (R130, R134, R137, R152). -/
structure PulseOp where
  form : PForm
  tile : Fin 4
  cls : Fin 4
  a0 : Nat
  panels : List Panel
  kb : Nat
  tag : BitVec 16
  ctx : Fin 4
  est : Nat
  ord : Nat
  passed : Nat
  running : Bool
  /-- index of the panel in progress and its next k-block -/
  group : Nat
  nextK : Nat
  /-- the cycle from which its next k-block is ready to start (R129) -/
  readyAt : Nat
  /-- k-blocks of the panel in progress that the array has read: k, A blocks, B blocks -/
  read : List (Nat × List Block × List Block)
  /-- cell-store ranges it protects, released together (R140) -/
  ranges : List (Nat × Nat)
  /-- the tile and flags it will leave, from the panels that are done since it last started -/
  result : Option (Tile × BitVec 5)
deriving DecidableEq, Repr

/-- An mst whose stores are not all performed (R148, R149). -/
structure MstOp where
  tile : Fin 4
  cls : Fin 4
  ctx : Fin 4
  ord : Nat
  /-- the rows still to be stored, each an address and its bytes -/
  rows : List (Nat × List Byte)
  flags : BitVec 5
deriving DecidableEq, Repr

/-- The kinds of page that may be missing: of a non-lazy bulk extent, of a lazy bulk extent, of a lazy host extent; they
share no translation (R324). -/
inductive PageSort where
  | bulk | lazy | host
deriving DecidableEq, Repr

/-- A side-log entry: the bytes of one line of a missing page, by space address (R263). -/
structure LogEntry where
  sort : PageSort
  line : Nat
  bytes : List (Nat × Byte)
  fe : List (Nat × Bool)
  ctx : Fin 4
  /-- the output pattern port whose token it is (R223) -/
  port : Option (Fin 8)
  /-- it holds an uncorrectable error (R388) -/
  bad : Bool
deriving DecidableEq, Repr

/-- A physical cell (R30, R206). -/
structure Cell where
  store : Memory
  fe : List Nat
  ctx : Vector Hart 4
  acc : Vector Tile 4
  ops : List PulseOp
  msts : List MstOp
  /-- abandoned operations whose UNCORR is not yet delivered: class, tile, address, tag (R276) -/
  lost : List (Fin 4 × Fin 4 × Nat × BitVec 16)
  ord : Nat
  nextTag : BitVec 16
  budget : Nat
  bcap : Nat
  mbud : BitVec 16
  /-- one more than the cycle of the last refill, and of the last start or stall of a k-block (R150) -/
  lastRefill : Nat
  lastStart : Nat
  stalls : Nat
  /-- one more than the cycle of the last rate update (R233) -/
  lastRate : Nat
  /-- classes whose head waits for an earlier cell-store store to be performed (R141) -/
  late : List (Fin 4)
  arrivals : Vector (BitVec 16) 16
  /-- trigger lines of arrival tokens on their way (R179) -/
  arriving : List (Fin 16)
  log : List LogEntry
  /-- region, clause number and role it serves -/
  bound : Option (Nat × Nat × Nat)
  loaded : Bool
  /-- region and clause it served before, for KEEP (R209) -/
  last : Option (Nat × Nat)
  /-- NESTED records whose handlers have not returned (R274) -/
  nestHold : Nat
  lastIssue : Nat
  /-- one more than the cycle in which a move has named the contexts that no timing holds (R49) -/
  considered : Nat
  /-- words found uncorrectable during the clause (R395) -/
  badWords : List Nat
  /-- tiles with an uncorrectable error (R276) -/
  badTiles : List (Fin 4)
deriving DecidableEq, Repr

/-- A 64-byte fault record (R267). -/
structure Record where
  cause : Cause
  src : Nat
  code : Nat
  stage : Bool
  ctx : Nat
  role : Nat
  port : Option Nat
  addr : DWord
  xaddr : DWord
  pc : DWord
  seq : Nat
  idx : Idx
  clause : Word
  /-- the cell whose NESTED context it reports (R274) -/
  nestCell : Option Nat
deriving DecidableEq, Repr

/-- How a command failed: what its record reports (R180, R267, R292). -/
structure CmdFault where
  cause : Cause
  code : Nat
  addr : DWord
  /-- XADDR where the record does not translate ADDR: a lode position (R292) -/
  xaddr : Option DWord
deriving DecidableEq, Repr

/-- A long command with its register operands as read at issue (R177, R184 to R193, R299 to R306). -/
inductive CmdOp where
  | nopl
  /-- with the failure of a record that could not be read (R181, R182) -/
  | spat (target : DWord) (pat : Pattern) (bad : Option CmdFault)
  | copy (dst src len : DWord) (opts : BitVec 6)
  | fill (dst word len : DWord) (opts : BitVec 6)
  | fprint (src dst n : DWord) (fe : Bool)
  | cmpr (a b dst : DWord) (fe : Bool) (len : Nat)
  | gather (dst src idx : DWord) (opts : BitVec 6) (esz n : Nat)
  | scatter (dst src idx : DWord) (fe : Bool) (esz n : Nat)
  | rcopy (loc rem len : DWord) (port : Fin 8) (pull : Bool) (key : Word)
  | reduce (dst src n : DWord) (opts : BitVec 6) (op : Fin 3)
  | seamw (dst src len : DWord)
  | xmap (addr : DWord) (zero : Bool)
  | clause (img iters : DWord)
  | cwait (num : DWord)
  | rolemap (addr : DWord)
  | attn (blk : DWord)
  | lfork (blk : DWord)
  | lapp (key mem rng : DWord)
  | lput (key mem rng : DWord)
  | lget (key mem rng : DWord) (opts : BitVec 6)
  | lshare (key frame pos : DWord) (ext : Bool)
  | lrel (key : DWord)
  | linv (key : DWord) (all : Bool)
deriving DecidableEq, Repr

/-- The kinds of engine that run commands: the 24 copy engines, and the chiplets of the lode (R2, R30, R299). -/
inductive EngineKind where
  | copy
  | lode (g : Fin 4)
deriving DecidableEq, Repr

/-- An outstanding long command of a conductor (R177, R178). -/
structure Command where
  id : Nat
  op : CmdOp
  wait : Option Wait
  signal : Option Signal
  pc : DWord
  /-- CLAUSE − 1 just after its issue (R267) -/
  clause : Word
  /-- the conductor's accesses before this number precede it (R256) -/
  upto : Nat
  dispatched : Bool
  /-- the clause whose cell stores it addresses, fixed at its dispatch (R181) -/
  run : Option Nat
  /-- bytes, elements, pages or slots already done (R299) -/
  prog : Nat
  /-- a lode command's own values, kept from its first step (R299, R309) -/
  memo : List Nat
  /-- the failure it has not yet reported (R180) -/
  failed : Option CmdFault
  /-- an answer or completion from another unit has arrived (R183, R190, R399) -/
  ready : Bool
  /-- the copy engine, or the place of a lode chiplet, that it holds (R2, R299) -/
  onEngine : Option EngineKind
deriving DecidableEq, Repr

/-- A conductor (R30, R358). -/
structure Cond where
  hart : Hart
  cmds : List Command
  nextId : Nat
  records : List Record
  /-- the record being handled reports this NESTED cell (R274) -/
  serving : Option Nat
  region : Option Nat
  lastIssue : Nat
deriving DecidableEq, Repr

/-- The spaces an extent lies in (R203). -/
inductive Space where
  | bulk | seam | host | peer
deriving DecidableEq, Repr

/-- An extent entry (R203). -/
structure Extent where
  idx : Nat
  space : Space
  rw : Bool
  lazy : Bool
  fe : Bool
  base : Nat
  len : Nat
  window : DWord
deriving DecidableEq, Repr

/-- A stage descriptor (R202). -/
structure StageDesc where
  present : Bool
  armed : Bool
  entry : Nat
  tvec : Nat
  woff : Nat
  wlen : Nat
  w : BitVec 16
  wmin : BitVec 16
  wmax : BitVec 16
  line : Nat
  ports : List Byte
  tfa : Nat
deriving DecidableEq, Repr

/-- A role entry of a clause image (R202). -/
structure RoleDesc where
  imgOff : Nat
  imgLen : Nat
  keep : Bool
  stages : List StageDesc
deriving DecidableEq, Repr

/-- One end of a channel: a port of a role, an edge slot of a chiplet, or a remote window (R203, R305, R376). -/
inductive End where
  | port (role : Nat) (ctx : Fin 4) (q : Fin 8)
  | edge (chip : Fin 4) (slot : Fin 8)
  | remote (ext : Nat)
deriving DecidableEq, Repr

/-- A hop of a channel (R226, R229, R230). `buf` is what stands at its receiver when that is no port. -/
structure Hop where
  free : Nat
  cross : Bool
  buf : List Entry
  cap : Nat
  /-- slots freed at the receiver and not yet returned or granted -/
  freed : Nat
  firstFreed : Option Nat
  grants : List Nat
deriving DecidableEq, Repr

/-- A channel of a clause (R226). -/
structure Chan where
  src : End
  dst : End
  ttype : Nat
  depth : Nat
  lag : Nat
  hops : List Hop
  /-- tokens pushed and tokens arrived, ever -/
  pushed : Nat
  arrived : Nat
  drainSent : Bool
  /-- hops that the drain token has made -/
  drainHops : Nat
  /-- the exporter has reported an outbound remote channel's tokens written (R377) -/
  drainAcked : Bool
  /-- cells that hold its pass-through segments, in hop order -/
  segs : List Nat
  /-- edge slot contents at a lode chiplet, query side -/
  edge : List Entry
deriving DecidableEq, Repr

/-- A coupling entry and its state (R203, R233, R234). -/
structure Couple where
  chan : Nat
  setpt : Nat
  kp : Nat
  ki : Nat
  /-- the producer's and the consumer's copies of the integral -/
  intP : Int
  intC : Int
  sampleC : Option Int
  sampleP : Option Int
  inFlight : Option Int
  /-- one more than the epoch of the last sample, and whether the clause has resumed since (R232, R235) -/
  sampled : Nat
  resumed : Bool
  /-- one more than the cycle of the last update, and the u that it gave to the producer and to the consumer (R233) -/
  moved : Nat × Int × Int
  fulls : Nat
  emptys : Nat
deriving DecidableEq, Repr

/-- A channel of a translated clause: the messages that one replica sends to another over an edge (R370). -/
structure PChan where
  /-- the numbers of the sending and the receiving replica, and the edge's SLOT -/
  src : Nat
  dst : Nat
  slot : Nat
  depth : Nat
  tokens : List Token
deriving DecidableEq, Repr

/-- A replica of a handler, on a stage context of a translated clause (R368, R370). -/
structure Replica where
  start : Bool
  ttype : Nat
  index : Nat
  /-- cell-store addresses of the dispatch loop, the handler's code and the state area -/
  loopAt : Nat
  code : Nat
  area : Nat
  /-- the start handler has had its run -/
  ran : Bool
  /-- messages sent, by SLOT -/
  sent : Table Nat
  /-- the incoming channel from which the rotation goes on -/
  turn : Nat
deriving DecidableEq, Repr

/-- What a translated clause keeps beside its contexts: replica i stands on context i mod 4 of role i / 4 (R370). -/
structure Plyn where
  reps : List Replica
  chans : List PChan
deriving DecidableEq, Repr

/-- A clause in flight (R190, R207). -/
structure Clause where
  num : Nat
  img : DWord
  iters : Nat
  est : Nat
  seam : Bool
  roles : List RoleDesc
  chans : List Chan
  couples : List Couple
  presets : List (Nat × Fin 4 × Fin 8 × Pattern)
  extents : List Extent
  /-- cell of each role -/
  cells : List Nat
  loaded : List Nat
  released : List Nat
  /-- the cycle of its load; after a resumption it may lie before cycle 0 (R361) -/
  began : Int
  /-- its load waits for the seamw commands to its dies (R207) -/
  waits : Bool
  nested : Bool
  /-- writable extents bound to a role in deterministic mode (R251) -/
  binds : List (Nat × Nat)
  /-- the handlers of a clause that the translator wrote (R370) -/
  plyn : Option Plyn
deriving DecidableEq, Repr

/-- A waiting semw: the agent and its count (R168). -/
structure SemWaiter where
  agent : AgentId
  sem : BitVec 8
  count : Nat
  ra : XOp
deriving DecidableEq, Repr

/-- A waiting ldf: the agent, the bytes it loads, whether it empties the word, the register it writes, and the value
once a fill has released it (R162). -/
structure LdfWaiter where
  agent : AgentId
  addr : DWord
  bytes : List Place
  clear : Bool
  rd : XOp
  ra : XOp
  /-- the cycle in which it began waiting -/
  began : Nat
  got : Option DWord
  /-- its word was uncorrectable at the fill that released it: it raises UNCORR (R159, R276) -/
  bad : Bool
deriving DecidableEq, Repr

/-- The pre-emption phases of a region (R349 to R351). -/
inductive Phase where
  | running
  | drain (began : Nat)
  | preCopy (began : Nat) (heldWrites : Bool)
  | saving
  | killed
deriving DecidableEq, Repr, Inhabited

/-- A region: the run of one launch (R200, R336, R338). -/
structure Region where
  ctx : Nat
  clusters : List Nat
  recAddr : Nat
  img : Nat
  ptroot : Nat
  gpool : Nat
  spool : Nat
  gpooln : Nat
  spooln : Nat
  cap : Nat
  flags : BitVec 8
  lext : Nat
  imgLen : Nat
  tfoff : Nat
  frbase : Nat
  est : Nat
  dmode : BitVec 2
  lodectx : List Nat
  extents : List Extent
  sems : Table Nat
  semWait : List SemWaiter
  roleMap : List Nat
  clauses : List Clause
  /-- clause loads begun or rejected, ever -/
  loads : Nat
  /-- clause numbers that count as completed for cwait (R191) -/
  completed : List Nat
  consumed : Nat
  started : Nat
  phase : Phase
  quiet : Bool
  /-- XFAULT records that wait for a place in a conductor's queue (R268) -/
  xfaults : List (Nat × Record)
  /-- the TCAUSE code for which the management core ends the region (R275, R231, R334) -/
  doom : Option Nat
  /-- bulk and host (`true`) ranges whose full/empty bits this sentence has made empty: start and length (spec/07 before R162) -/
  feDone : List (Bool × Nat × Nat)
  /-- cell-store lines that the pre-copy has copied: cell, line, and the bytes it copied (R351) -/
  copied : List (Nat × Nat × List Byte)
deriving DecidableEq, Repr, Inhabited

/-- An installed page of a non-lazy bulk extent (R323, R325). `owner` is 0 for the launch block's extents and n + 1 for
those of clause n: each holds its own translation (R324). -/
structure Page where
  owner : Nat
  page : Nat
  frame : Nat
  leaf : Nat
  value : Nat
  writable : Bool
  dirty : Bool
  dropped : Bool
deriving DecidableEq, Repr

/-- An installed page of a lazy extent (R327). -/
structure LazyPage where
  host : Bool
  page : Nat
  frame : Nat
  writable : Bool
deriving DecidableEq, Repr

/-- The translator's tables for one context (R323 to R331). -/
structure Xlat where
  root : Nat
  pages : List Page
  lazies : List LazyPage
  pending : List (PageSort × Nat)
  /-- non-lazy pages whose re-walk failed (R331) -/
  broken : List Nat
deriving DecidableEq, Repr, Inhabited

/-- The kinds of shoot-down (R329). -/
inductive Shoot where
  | range (ctx first count : Nat)
  | context (ctx : Nat)
  | imp (idx : Nat)
  | bad
deriving DecidableEq, Repr

/-- A launch queue's registers and scheduling state (R335, R342). -/
structure Queue where
  qbase : DWord
  qcfg : DWord
  tail : Nat
  head : Nat
  period : DWord
  budget : DWord
  tokens : DWord
  left : Nat
  periodEnd : Nat
  enabledAt : Nat
  deadline : Option Nat
  /-- STATE of the record at the head: 0 queued, 1 running, 3 saved -/
  state : Nat
  consumed : Nat
deriving DecidableEq, Repr

/-- A context image (R357): what a save keeps of a region, its conductors by rank and its cells by rank and position.
No part of it names a physical cell or cluster: a cluster stands as its rank, and a cell as 17 times that and its position
(R3). -/
structure Image where
  rclass : Nat
  region : Region
  conds : List Cond
  cells : List (Nat × Nat × Cell)
  /-- the die whose save area holds the sections of each rank, and the parts there: die, offset, bytes (R357) -/
  dies : List Nat
  parts : List (Nat × Nat × Nat)
deriving DecidableEq, Repr, Inhabited

/-- A direction-pair of a Finub port in training (R384, R400). -/
structure Training where
  began : Nat
  /-- its own receive mask once the pattern has ended, and the other end's -/
  good : Option (BitVec 16)
  peer : Option (BitVec 16)
  idleSent : Option Nat
  idleTaken : Bool
deriving DecidableEq, Repr

/-- States of a Finub port (R387). -/
inductive LinkState where
  | down | training | up | disabled
deriving DecidableEq, Repr

/-- Packet types (R380). -/
inductive PType where
  | idle | write | readReq | readRsp | token | grant | done | refuse
deriving DecidableEq, Repr

/-- Transfers of this module's commands over a port, by tag (R399). -/
structure Transfer where
  tag : BitVec 24
  cond : Nat
  cmd : Nat
  /-- payloads received and not yet written locally -/
  inbox : List (List Byte)
deriving DecidableEq, Repr

/-- A peer's inbound channel that this module serves: its window, and what has been sent and granted (R376). -/
structure Serve where
  tag : BitVec 24
  addr : DWord
  key : Word
  /-- bytes of a token, and tokens in all -/
  size : Nat
  count : Nat
  next : Nat
  credit : Nat
deriving DecidableEq, Repr

/-- An accepted WRITE that is not yet performed (R399): its number among those of its port, its tag, the import entry, the
owning context and the GVA that it goes through, its bulk addresses and its bytes. -/
structure Admitted where
  no : Nat
  tag : BitVec 24
  idx : Nat
  ctx : Nat
  gva : Nat
  addrs : List Nat
  bytes : List Byte
deriving DecidableEq, Repr

/-- Where the accesses that a shoot-down waits for end: the next access number of each agent, and of each port (R330). -/
structure ShootMark where
  agents : List (AgentId × Nat)
  links : List Nat
deriving DecidableEq, Repr

/-- A Finub port (R379 to R387). -/
structure Link where
  state : LinkState
  txNext : BitVec 12
  txOld : BitVec 12
  rxExp : BitVec 12
  replay : List (PType × Packet)
  /-- packets to be sent again, oldest first -/
  resend : List (PType × Packet)
  outbox : List (PType × Packet)
  nakOpen : Bool
  nakDue : Bool
  ackDue : Bool
  txLanes : BitVec 16
  rxLanes : BitVec 16
  lost : BitVec 16
  training : Option Training
  lastAdvance : Nat
  crcTimes : List Nat
  crcErr : Nat
  dup : Nat
  ooo : Nat
  replays : Nat
  retrains : Nat
  lostCount : Nat
  transfers : List Transfer
  /-- pushes and remote channels of the peer that failed a check of R333, by tag -/
  refused : List (BitVec 24)
  /-- slots of a peer's remote channel freed since its last grant, and the cycle of the first, by tag (R230) -/
  freed : List (BitVec 24 × Nat × Nat)
  /-- accepted WRITEs not yet performed (R399), and how many there have been, ever -/
  writes : List Admitted
  admitted : Nat
  /-- inbound channels of the peer -/
  serves : List Serve
  /-- it has been up since module reset: training before that is no retraining (R387, R397) -/
  wasUp : Bool
  /-- the flits of the packet sent last, as the bytes that each of the 16 lanes carries (R379, R380) -/
  wire : List (List Byte)
deriving DecidableEq, Repr

/-- The translated-image cache (R372). -/
structure CacheEntry where
  digest : List Byte
  ncl : Nat
  rclass : Nat
  used : Nat
  em : Nat
  image : List Byte
deriving DecidableEq, Repr

/-- Power states (R414). -/
inductive PState where
  | ps0 | ps1 | ps2 | ps3
deriving DecidableEq, Repr

/-- Firmware mailbox, measurements and store (R407 to R413). -/
structure Firm where
  fwarg : DWord
  code : Nat
  busy : Bool
  ready : Bool
  seq : Nat
  staging : List Byte
  staged : List Byte
  verified : Bool
  image : List Byte
  meas0 : List Byte
  meas1 : List Byte
  meas2 : List Byte
  leaf : Nat
  ideIo : Bool
  ideMem : Bool
deriving DecidableEq, Repr

/-- Power block (R415, R416). -/
structure Power where
  lattol : Nat
  temp : Nat
  trans : Bool
  tgt : PState
  cur : PState
  mceil : Nat
  /-- MCEIL before the last cycle that changed it, and one more than that cycle (R417) -/
  mceilOld : Nat
  mceilAt : Nat
  watts : Nat
  amps : Nat
  /-- one more than the cycle of the last CXL.mem request, 0 before the first (R416) -/
  lastMem : Nat
  hot : Bool
deriving DecidableEq, Repr

/-- Error counts of a domain (R390, R392). -/
structure ErrCount where
  corr : Nat
  uncorr : Nat
deriving DecidableEq, Repr

/-- A CXL.mem request that is held until the module has left its power state (R416): a read of some bytes of a decoder, or
a write. -/
inductive HdmReq where
  | read (lode : Bool) (addr len : Nat)
  | write (lode : Bool) (addr : Nat) (bytes : List Byte)
deriving DecidableEq, Repr

/-- What moves next: a fabric cycle passes, an agent issues, or a whole step of the table happens. The last four say
what the world outside the table does (log entry 1). -/
inductive Move where
  | tick
  | issue (a : AgentId)
  /-- a cell issues; the contexts that no timing hazard holds are given (R49) -/
  | cell (p : Nat) (ready : List (Fin 4))
  /-- an agent issues, and its instruction stays unfinished if it may (R46) -/
  | launch (a : AgentId)
  /-- an unfinished instruction of an agent finishes -/
  | land (a : AgentId) (i : Nat)
  /-- one 8-byte word of an access wider than that is performed before the rest: of an unfinished load of an agent, or of
  the next token of one of its pattern ports (R247) -/
  | pieceLoad (a : AgentId) (i word : Nat)
  | piecePort (p : Nat) (c : Fin 4) (q : Fin 8) (word : Nat)
  /-- a load that comes after a waiting ldf reads its bytes before the ldf completes (R246, R254) -/
  | begin (a : AgentId) (v : DWord) (size : Nat)
  /-- heads of a cell's class queues that wait for an earlier store of the cell (R141) -/
  | late (p : Nat) (cls : List (Fin 4))
  | event (i : Instr)
  /-- a CXL.mem request that arrives under IDE (R403) -/
  | ide (i : Instr)
  /-- a command moves up to n of its units, each a word, an element, a page or a slot (R180, R184) -/
  | beat (k slot n : Nat)
  /-- the host or a peer changes a byte of its own memory -/
  | outside (p : Place) (b : Byte)
  /-- a word becomes uncorrectable, a peer's window refuses, or either is mended (R276, R334, R390) -/
  | decay (p : Place) (bad : Bool)
  /-- a register or a tile becomes uncorrectable, as class × 256 + number (R276) -/
  | upset (a : AgentId) (n : Nat)
  /-- flits arrive at a port, as the bytes of each of its 16 lanes (R379, R380, R382) -/
  | wire (port : Fin 8) (lanes : List (List Byte))
  /-- an accepted WRITE of a peer is performed (R399) -/
  | settleWrite (port : Fin 8) (i : Nat)
  /-- the next token of a peer's inbound channel is read and sent (R376) -/
  | serveToken (port : Fin 8) (i : Nat)
  /-- the pre-copy copies a line of a cell's store (R351) -/
  | copyLine (queue p line : Nat)
  /-- a packet in a port's replay buffer becomes uncorrectable (R390) -/
  | spoil (port : Fin 8)
  /-- an entry of a cell's side log, or a token in the buffer of a channel's hop, becomes uncorrectable (R276, R388) -/
  | spoilLog (p i : Nat)
  | spoilHop (queue clause chan hop i : Nat)
  /-- a word of the run caches or of the translator's tables is found uncorrectable (R388) -/
  | spoilTable
  /-- the firmware marks a lode frame META, as the host has asked (R286) -/
  | markMeta (chip : Fin 4) (frame : Nat)
deriving DecidableEq, Repr

/-- The module. -/
structure State where
  cycle : Nat
  /-- the model's own: what moves next, first first (log entry 1) -/
  agenda : List Move
  /-- the model's own: the agent whose instruction `exec` means (log entry 1) -/
  cur : AgentId
  /-- the model's own: whether the CXL.mem request that `exec` means arrives under IDE (R403, log entry 52) -/
  ide : Bool
  /-- the model's own: how many free values have been drawn (log entry 9) -/
  fresh : Nat
  cells : Table Cell
  conds : Table Cond
  regions : Table Region
  bulk : Memory
  seam : Memory
  host : Memory
  peer : Memory
  lode : Vector Memory 4
  feBulk : List Nat
  feHost : List Nat
  /-- the metadata bits of the save areas' words that are set (R359) -/
  feSave : List Nat
  ldfWait : List LdfWaiter
  /-- lines that atomic engines have served in this cycle, each with the index of the agent (R165) -/
  served : List (Place × Nat)
  /-- units of memory marked uncorrectable, each by its first byte: lines and words (R388, R390) -/
  bad : List Place
  /-- frames pinned by lode commands: chiplet, frame (R295) -/
  pins : List (Nat × Nat)
  /-- frames with REF 0 that wait to join the free ring: chiplet, frame, descriptor -/
  freeing : List (Nat × Nat × Nat)
  xlats : Table Xlat
  xsdAddr : DWord
  xsdLen : DWord
  shoots : List Shoot
  shootBusy : Bool
  shootOvfl : Bool
  shootErr : Bool
  shootDone : Word
  /-- frames, `true` for host memory, whose translations the request in progress has dropped (R330) -/
  shootFrames : List (Bool × Nat)
  shootMark : ShootMark
  impBase : DWord
  queues : Table Queue
  drainMax : Nat
  killMax : Nat
  pcMax : Nat
  rclass : Nat
  errata : Nat
  coreq : List Nat
  cache : List CacheEntry
  saves : Table Image
  /-- the model's own: the images whose bytes this module has written, by which their bytes are read again (R361, log entry 40) -/
  written : List Image
  msix : List Nat
  enmap : Table (BitVec 18)
  retire : Table (List Nat)
  /-- cells that have failed a self-test or been retired (R394, R395) -/
  dead : List Nat
  per : Nat
  /-- the refresh period from the next window start on -/
  perNext : Nat
  /-- bank group and start of the refresh windows in progress, oldest first -/
  windows : List (Nat × Nat)
  errs : Vector ErrCount 7
  lastUe : Nat
  /-- units whose uncorrectable error has been counted (R390) -/
  ueSeen : List Place
  hsnap : DWord
  gen : Nat
  /-- the health page as last written; none when it must be written whatever has changed (R392, R393) -/
  snapped : Option (List Byte)
  /-- a rewrite of the health page under way: the fields it writes, and how many 8-byte words of them stand (R392) -/
  snapAt : Option (List Byte × Nat)
  links : Vector Link 8
  firm : Firm
  power : Power
  partitions : List Nat
  borders : List Border
  /-- CXL.mem requests held, oldest first (R416) -/
  hdmHeld : List HdmReq
  /-- the answers of host reads (R404), latest first -/
  reads : List (List Byte)
deriving DecidableEq, Repr

/-- The machine stops with a fault: never; every fault of the manual is a trap or a record, which are next states. -/
inductive Fault where
  /-- raised by nothing: safe -/
  | none
deriving DecidableEq, Repr

/-- Why a step has no meaning. -/
inductive Refusal where
  /-- raised by an arm of `exec` whose instruction has no meaning yet: safe -/
  | notModelled (mnemonic : String)
deriving DecidableEq, Repr

/-- A block all of whose bits are zero, tag A4: the canonical zero block (R11, R31). -/
def Block.zero : Block := ⟨0, false⟩

def Wide.zero : Wide := Vector.replicate 24 0

def Idx.zero : Idx := ⟨0, 0, 0, 0⟩

/-- A port with USED = 0: type 15 (R209, R220). -/
def Port.unused : Port := ⟨false, false, false, 15, [], [], none, none, 0, false, []⟩

/-- An agent before its first load: the register values of R31; log entry 3 names the rest. -/
def Hart.init : Hart where
  pc := 0
  x := Vector.replicate 24 0
  p := (Vector.replicate 8 false).set 0 true
  a := Vector.replicate 24 Block.zero
  w := Vector.replicate 24 Wide.zero
  m := Vector.replicate 8 0
  tl := Vector.replicate 4 Wide.zero
  level := false
  rep := false
  rdh := false
  armed := false
  repc := 0
  fps := 0
  roleIdx := 0
  roleNum := 0
  begun := 0
  iter := 0
  clause := 0
  dmode := 0
  tvec := 0
  evec := 0
  fvec := 0
  tcause := 0
  tinfo0 := 0
  tinfo1 := 0
  tpc := 0
  tstat := 0
  tframe := 0
  wgt := 0x100
  wmin := 0x100
  wmax := 0xFF00
  pass := 0
  passed := 0
  readyFrom := 0
  readyAt := 0
  run := .absent
  entry := 0
  woff := 0
  wlen := 0
  line := 0
  barCount := 0
  arrived := none
  hold := none
  pend := []
  pendSeq := 0
  ports := Vector.replicate 8 Port.unused
  badRegs := []
  capt := none
  flight := []
  replayed := 0
  early := []

/-- A cell at its clause-load values (R36, R150, R155), serving no clause. -/
def Cell.init : Cell where
  store := []
  fe := []
  ctx := Vector.replicate 4 Hart.init
  acc := Vector.replicate 4 []
  ops := []
  msts := []
  lost := []
  ord := 0
  nextTag := 0
  budget := 0
  bcap := 65535
  mbud := 432
  lastRefill := 0
  lastStart := 0
  stalls := 0
  lastRate := 0
  late := []
  arrivals := Vector.replicate 16 0
  arriving := []
  log := []
  bound := none
  loaded := false
  last := none
  nestHold := 0
  lastIssue := 0
  considered := 0
  badWords := []
  badTiles := []

/-- A conductor that runs no sentence. -/
def Cond.init : Cond := ⟨Hart.init, [], 0, [], none, none, 0⟩

/-- A queue after reset (R335). -/
def Queue.init : Queue := ⟨0, 0, 0, 0, 0, 0, 0, 0, 0, 0, none, 0, 0⟩

/-- A Finub port after reset: down, every count zero (R387). -/
def Link.init : Link :=
  ⟨.down, 0, 0, 0, [], [], [], false, false, false, 0, 0, 0, none, 0, [], 0, 0, 0, 0, 0, 0, [], [], [], [], 0, [], false, []⟩

/-- A region at its dispatch: no semaphore has counted, no clause is in flight (R168, R340). -/
def Region.init (ctx : Nat) (clusters : List Nat) (lext : Nat) (extents : List Extent) : Region where
  ctx := ctx
  clusters := clusters
  recAddr := 0
  img := 0
  ptroot := 0
  gpool := 0
  spool := 0
  gpooln := 0
  spooln := 0
  cap := 0
  flags := 0
  lext := lext
  imgLen := 0
  tfoff := 0
  frbase := 0
  est := 0
  dmode := 0
  lodectx := []
  extents := extents
  sems := []
  semWait := []
  roleMap := []
  clauses := []
  loads := 0
  completed := []
  consumed := 0
  started := 0
  phase := .running
  quiet := false
  xfaults := []
  doom := none
  feDone := []
  copied := []

/-- A context's empty translations. -/
def Xlat.init (root : Nat) : Xlat := ⟨root, [], [], [], []⟩

/-- The module right after reset, before bring-up (R406): every register at the Reset column of its map, every
memory zero, no region; log entries 1, 3, 8, 9 and 20 name the values the manual does not give. -/
def State.reset : State where
  cycle := 0
  agenda := []
  cur := .cond 0
  ide := false
  fresh := 0
  cells := []
  conds := []
  regions := []
  bulk := []
  seam := []
  host := []
  peer := []
  lode := Vector.replicate 4 []
  feBulk := []
  feHost := []
  feSave := []
  ldfWait := []
  served := []
  bad := []
  pins := []
  freeing := []
  xlats := []
  xsdAddr := 0
  xsdLen := 0
  shoots := []
  shootBusy := false
  shootOvfl := false
  shootErr := false
  shootDone := 0
  shootFrames := []
  shootMark := ⟨[], []⟩
  impBase := 0
  queues := []
  drainMax := 0
  killMax := 0
  pcMax := 0
  rclass := 1
  errata := 0
  coreq := []
  cache := []
  saves := []
  written := []
  msix := []
  enmap := []
  retire := []
  dead := []
  per := 256
  perNext := 256
  windows := []
  errs := Vector.replicate 7 ⟨0, 0⟩
  lastUe := 0
  ueSeen := []
  hsnap := 0
  gen := 0
  snapped := none
  snapAt := none
  links := Vector.replicate 8 Link.init
  firm := ⟨0, 0, false, false, 0, [], [], false, [], List.replicate 32 0, List.replicate 32 0, List.replicate 32 0, 0,
    false, false⟩
  power := ⟨0, 0, false, .ps0, .ps0, 432, 432, 0, 0, 0, 0, false⟩
  partitions := [0, 0, 0, 0]
  borders := []
  hdmHeld := []
  reads := []

end Sys2Proof.Machine
end

