-- ==== Sys2Proof/Machine/Tables.lean ====
section
/-! DEFINITION. Finite tables, byte memories in canonical form, and sorted sets of word addresses. -/
namespace Sys2Proof.Machine

/-- The value under a key. -/
def tfind {α : Type} : Table α → Nat → Option α
  | [], _ => none
  | (k', v) :: t, k => if k = k' then some v else tfind t k

/-- The value under a key, or a default. -/
def tget {α : Type} (t : Table α) (k : Nat) (d : α) : α := (tfind t k).getD d

/-- A key's value replaced or added, keys rising. -/
def tset {α : Type} : Table α → Nat → α → Table α
  | [], k, v => [(k, v)]
  | (k', v') :: t, k, v =>
    if k < k' then (k, v) :: (k', v') :: t else if k = k' then (k, v) :: t else (k', v') :: tset t k v

/-- A key removed. -/
def tdel {α : Type} (t : Table α) (k : Nat) : Table α := t.filter (fun e => e.1 != k)

/-- Element `i` of a list replaced by a function of it. -/
def modAt {α : Type} : List α → Nat → (α → α) → List α
  | [], _, _ => []
  | x :: xs, 0, f => f x :: xs
  | x :: xs, i + 1, f => x :: modAt xs i f

/-- Element `i` of a list removed. -/
def delAt {α : Type} : List α → Nat → List α
  | [], _ => []
  | _ :: xs, 0 => xs
  | x :: xs, i + 1 => x :: delAt xs i

/-- A byte of memory; an unlisted byte is zero (R406). -/
def Memory.get : Memory → Nat → Byte
  | [], _ => 0
  | (a', v) :: m, a => if a = a' then v else Memory.get m a

/-- A byte written: the list stays rising and holds no zero byte. -/
def Memory.set : Memory → Nat → Byte → Memory
  | [], a, v => if v = 0 then [] else [(a, v)]
  | (a', v') :: m, a, v =>
    if a < a' then (if v = 0 then (a', v') :: m else (a, v) :: (a', v') :: m)
    else if a = a' then (if v = 0 then m else (a, v) :: m)
    else (a', v') :: Memory.set m a v

/-- Every address of a memory is above a bound. -/
def Memory.above (lo : Nat) : Memory → Bool
  | [] => true
  | (a, _) :: _ => lo < a

/-- The canonical form: addresses strictly rising, no byte equal to what an unlisted address reads as. -/
def Memory.wf : Memory → Bool
  | [] => true
  | (a, v) :: m => v != 0 && Memory.above a m && Memory.wf m

/-- Bytes read from an address on. -/
def Memory.read (m : Memory) (a : Nat) : Nat → List Byte
  | 0 => []
  | n + 1 => m.get a :: Memory.read m (a + 1) n

/-- Bytes written from an address on. -/
def Memory.write (m : Memory) (a : Nat) : List Byte → Memory
  | [] => m
  | b :: bs => Memory.write (m.set a b) (a + 1) bs

/-- The little-endian number of `n` bytes at an address. -/
def Memory.num (m : Memory) (a n : Nat) : Nat := leNat (m.read a n)

/-- The bytes of a memory outside a range. -/
def Memory.cut (m : Memory) (lo n : Nat) : Memory := m.filter (fun c => c.1 < lo || lo + n ≤ c.1)

/-- The canonical form of a list of bytes, a later one replacing an earlier one. -/
def Memory.canon (m : Memory) : Memory := m.foldl (fun n c => n.set c.1 c.2) []

/-- A word address put into or taken out of a rising set. -/
def setAdd : List Nat → Nat → List Nat
  | [], k => [k]
  | k' :: t, k => if k < k' then k :: k' :: t else if k = k' then k' :: t else k' :: setAdd t k

def setDel (t : List Nat) (k : Nat) : List Nat := t.filter (· != k)

/-- A set of word addresses with one of them present or absent. -/
def setPut (t : List Nat) (k : Nat) (on : Bool) : List Nat := if on then setAdd t k else setDel t k

end Sys2Proof.Machine
end

