-- ==== Sys2Proof/Machine/Ops.lean ====
section
/-! DEFINITION. The named operations over the state: agents, places of memory, translation, accesses in flight,
fault records, taking a trap, retiring an instruction. -/
namespace Sys2Proof

/-- Whether an agent is a conductor. -/
def AgentId.isCond : AgentId → Bool
  | .ctx _ _ => false
  | .cond _ => true

/-- The conductor that hears of an agent's faults: that of the cluster, 17 positions each (R166, R268). -/
def AgentId.conductor : AgentId → Nat
  | .ctx p _ => p / 17
  | .cond k => k

/-- The agent index that breaks ties (R166). -/
def AgentId.index : AgentId → Nat
  | .ctx p c => 4 * p + c.val
  | .cond k => 3264 + k

/-- The die of an agent (R166). -/
def AgentId.die : AgentId → Nat
  | .ctx p _ => p / 204
  | .cond k => k / 12

/-- The context number of a stage, 0 for a conductor (R39). -/
def AgentId.ctxNum : AgentId → Nat
  | .ctx _ c => c.val
  | .cond _ => 0

/-- The 8-byte word that holds a byte. -/
def Place.word : Place → Place
  | .store c o => .store c (o / 8 * 8)
  | .bulk a => .bulk (a / 8 * 8)
  | .seam a => .seam (a / 8 * 8)
  | .host a => .host (a / 8 * 8)
  | .lode g a => .lode g (a / 8 * 8)
  | .peer p i o => .peer p i (o / 8 * 8)

/-- The 64-byte line that holds a byte. -/
def Place.line : Place → Place
  | .store c o => .store c (o / 64 * 64)
  | .bulk a => .bulk (a / 64 * 64)
  | .seam a => .seam (a / 64 * 64)
  | .host a => .host (a / 64 * 64)
  | .lode g a => .lode g (a / 64 * 64)
  | .peer p i o => .peer p i (o / 64 * 64)

/-- The unit that one error code protects: a 64-byte line of bulk memory, the seam and the lode, and an 8-byte word of a
cell store (R388); host and peer memory, outside the module, go by words too. -/
def Place.code (p : Place) : Place :=
  match p with
  | .bulk _ | .seam _ | .lode _ _ => p.line
  | .store _ _ | .host _ | .peer _ _ _ => p.word

/-- The protection domain of a word (R388); host and peer memory lie outside the module. -/
def Place.domain : Place → Option (Fin 7)
  | .store _ _ => some 0
  | .bulk _ => some 2
  | .seam a => some (if Config.seamDie ≤ a % 2 ^ 36 then 5 else 3)
  | .lode _ _ => some 4
  | .host _ | .peer _ _ _ => none

/-- LASTUE of a unit (R392): its address and its domain. -/
def Place.lastUe (d : Fin 7) (p : Place) : Nat :=
  d.val * 2 ^ 48 + (match p.code with
    | .store c o => c * 2 ^ 19 + o
    | .bulk a | .seam a | .host a => a
    | .lode g a => g * 2 ^ 36 + a
    | .peer _ _ o => o) % 2 ^ 48

end Sys2Proof

namespace Sys2Proof.Machine

abbrev Out := Host.Outcome State Fault Refusal

/-! ### Agents -/

def State.cell (s : State) (p : Nat) : Cell := tget s.cells p Cell.init
def State.setCell (s : State) (p : Nat) (c : Cell) : State := { s with cells := tset s.cells p c }
def State.modCell (s : State) (p : Nat) (f : Cell → Cell) : State := s.setCell p (f (s.cell p))
def State.cond (s : State) (k : Nat) : Cond := tget s.conds k Cond.init
def State.setCond (s : State) (k : Nat) (c : Cond) : State := { s with conds := tset s.conds k c }
def State.modCond (s : State) (k : Nat) (f : Cond → Cond) : State := s.setCond k (f (s.cond k))

/-- The registers of an agent. -/
def State.hart (s : State) : AgentId → Hart
  | .ctx p c => (s.cell p).ctx[c]
  | .cond k => (s.cond k).hart

def State.setHart (s : State) (a : AgentId) (h : Hart) : State :=
  match a with
  | .ctx p c => s.setCell p { s.cell p with ctx := (s.cell p).ctx.set c h }
  | .cond k => s.setCond k { s.cond k with hart := h }

def State.modHart (s : State) (a : AgentId) (f : Hart → Hart) : State := s.setHart a (f (s.hart a))

def State.region (s : State) (q : Nat) : Option Region := tfind s.regions q
def State.setRegion (s : State) (q : Nat) (r : Region) : State := { s with regions := tset s.regions q r }
def State.modRegion (s : State) (q : Nat) (f : Region → Region) : State :=
  match s.region q with
  | some r => s.setRegion q (f r)
  | none => s

/-- The launch queue whose region an agent belongs to (R200, R204). -/
def State.regionOf (s : State) : AgentId → Option Nat
  | .ctx p _ => (s.cell p).bound.map (·.1)
  | .cond k => (s.cond k).region

def State.clauseAt (s : State) (q n : Nat) : Option Clause :=
  (s.region q).bind (fun r => r.clauses.find? (fun c => c.num == n))

def State.modClause (s : State) (q n : Nat) (f : Clause → Clause) : State :=
  s.modRegion q (fun r => { r with clauses := r.clauses.map (fun c => if c.num == n then f c else c) })

/-- Deterministic mode, and trapping of malformed reads under it (R42). -/
def Hart.det (h : Hart) : Bool := h.dmode.getLsbD 0
def Hart.mtrap (h : Hart) : Bool := h.dmode.getLsbD 0 && h.dmode.getLsbD 1

/-- A value the manual leaves open, and the state that has drawn it (log entry 9). -/
def State.draw (s : State) : DWord × State := (Config.freeValue s.fresh, { s with fresh := s.fresh + 1 })

/-- What a cell issues from now on falls in the next cycle: its writes of this cycle came before (R44, R87). -/
def State.closeIssue (s : State) (p : Nat) : State := s.modCell p (fun x => { x with lastIssue := s.cycle + 1 })

/-- Whether an end's cell has loaded and not been released; an edge or remote end always stands. -/
def Clause.endLive (cl : Clause) : End → Bool
  | .port r _ _ => cl.loaded.contains r && !cl.released.contains r
  | .edge _ _ | .remote _ => true

/-- Flags ORed into an agent's FPS (R24). -/
def State.orFlags (s : State) (a : AgentId) (f : BitVec 5) : State :=
  s.modHart a (fun h => { h with fps := h.fps ||| f })

/-! ### Bytes, full/empty bits and uncorrectable words by place -/

/-- The address of a peer's byte in the memory that stands for all import windows. -/
def peerKey (port idx off : Nat) : Nat := (port * 256 + idx) * 2 ^ 40 + off

def State.getByte (s : State) : Place → Byte
  | .store c o => (s.cell c).store.get o
  | .bulk a => s.bulk.get a
  | .seam a => s.seam.get a
  | .host a => s.host.get a
  | .lode g a => (s.lode[g % 4]'(Nat.mod_lt _ (by decide))).get a
  | .peer p i o => s.peer.get (peerKey p i o)

def State.putByte (s : State) (b : Byte) : Place → State
  | .store c o => s.modCell c (fun x => { x with store := x.store.set o b })
  | .bulk a => { s with bulk := s.bulk.set a b }
  | .seam a => { s with seam := s.seam.set a b }
  | .host a => { s with host := s.host.set a b }
  | .lode g a =>
    have h : g % 4 < 4 := Nat.mod_lt _ (by decide)
    { s with lode := s.lode.set (g % 4) (s.lode[g % 4].set a b) h }
  | .peer p i o => { s with peer := s.peer.set (peerKey p i o) b }

/-- Whether the word of a byte is full (R162). -/
def State.isFull (s : State) : Place → Bool
  | .store c o => (s.cell c).fe.contains (o / 8)
  | .bulk a => s.feBulk.contains (a / 8)
  | .host a => s.feHost.contains (a / 8)
  | _ => false

def State.setFull (s : State) (on : Bool) : Place → State
  | .store c o => s.modCell c (fun x => { x with fe := setPut x.fe (o / 8) on })
  | .bulk a => { s with feBulk := setPut s.feBulk (a / 8) on }
  | .host a => { s with feHost := setPut s.feHost (a / 8) on }
  | _ => s

/-- Whether a word is uncorrectable, or a peer's place is refused: its window refuses it, or its port is down (R334,
R386, R390). -/
def State.isBad (s : State) (p : Place) : Bool :=
  s.bad.contains p.code ||
    (match p with
      | .peer n _ _ =>
        let l := (s.links[n % 8]'(Nat.mod_lt _ (by decide))).state
        l == .down || l == .disabled
      | _ => false)

/-- A count of 32 bits that saturates (R387, R392). -/
def sat32 (n : Nat) : Nat := min n 0xFFFFFFFF

/-- Idleness ends (R416); an overheated module stays held in PS3 (R418). -/
def State.wake (s : State) : State :=
  if s.power.hot then s else { s with power := { s.power with tgt := .ps0, trans := s.power.cur != .ps0 } }

/-- Whether a place stands in a seam bank group under refresh (R241, R243). -/
def State.refreshing (s : State) (p : Place) : Bool :=
  match p with
  | .seam a => s.windows.any (fun w => w.1 == fld a 9 6)
  | _ => false

/-- A domain's counts changed. -/
def State.modErr (s : State) (d : Fin 7) (f : ErrCount → ErrCount) : State := { s with errs := s.errs.set d (f s.errs[d]) }

/-- An uncorrectable word met: it counts once, LASTUE names it (R390), and the store of a cell that serves a clause has
reported it: the second distinct word within the clause makes the cell's retirement pending (R395). -/
def State.noteUe (s : State) (p : Place) : State :=
  match p.domain with
  | none => s
  | some d =>
    let s1 := match p.code with
      | .store c o =>
        let l := (s.cell c).badWords
        let l1 := if l.contains o || (s.cell c).bound.isNone then l else o :: l
        let s0 := s.modCell c (fun x => { x with badWords := l1 })
        if 2 ≤ l1.length then { s0 with retire := tset s0.retire (c / 17) (setAdd (tget s0.retire (c / 17) []) (c % 17)) }
        else s0
      | _ => s
    if s1.ueSeen.contains p.code then s1
    else
      { s1.modErr d (fun e => { e with uncorr := sat32 (e.uncorr + 1) }) with
        ueSeen := p.code :: s1.ueSeen, lastUe := p.lastUe d }

def State.getBytes (s : State) (ps : List Place) : List Byte := ps.map s.getByte

def State.putBytes (s : State) : List (Place × Byte) → State
  | [] => s
  | (p, b) :: r => State.putBytes (s.putByte b p) r

/-- Waiting ldf of a word that a fill releases: those before and including the first that empties it (R162). One that meets
an uncorrectable word empties nothing (R159). -/
def grantList (value : List Place → DWord) (bad : List Place → Bool) (word : Place) : List LdfWaiter → List LdfWaiter × Bool
  | [] => ([], false)
  | w :: ws =>
    if (w.bytes.head?.map Place.word) = some word ∧ w.got = none then
      let w' := { w with got := some (value w.bytes), bad := bad w.bytes }
      if w.clear && !w'.bad then (w' :: ws, true)
      else
        let r := grantList value bad word ws
        (w' :: r.1, r.2)
    else
      let r := grantList value bad word ws
      (w :: r.1, r.2)

/-- A word becomes full: its waiting ldf are released, and the one that empties it empties it (R162). -/
def State.fill (s : State) (p : Place) : State :=
  let r := grantList (fun ps => dwn (leNat (s.getBytes ps))) (fun ps => ps.any s.isBad) p.word s.ldfWait
  { s.setFull (!r.2) p with ldfWait := r.1 }

/-- Full/empty actions of a store. -/
def State.putFe (s : State) : List (Place × Bool) → State
  | [] => s
  | (p, on) :: r => State.putFe (if on then s.fill p else s.setFull false p) r

/-! ### Translation (spec/18) -/

def State.xlat (s : State) (ctx : Nat) : Xlat := tget s.xlats ctx (Xlat.init 0)
def State.modXlat (s : State) (ctx : Nat) (f : Xlat → Xlat) : State :=
  { s with xlats := tset s.xlats ctx (f (s.xlat ctx)) }

/-- The extents an agent sees (R158). -/
def State.extents (s : State) : AgentId → List Extent
  | .ctx p _ =>
    match (s.cell p).bound with
    | some (q, n, _) => ((s.clauseAt q n).map (·.extents)).getD []
    | none => []
  | .cond k => (((s.cond k).region.bind s.region).map (·.extents)).getD []

/-- The context whose pages an agent's accesses use. -/
def State.ctxOf (s : State) (a : AgentId) : Nat :=
  (((s.regionOf a).bind s.region).map (·.ctx)).getD 0

/-- Levels of the walk of R322, the level counted down: the leaf's address, its value and its level; or the entry that is
uncorrectable, which fails the walk too (R390). -/
def walkFrom (bad : List Place) (m : Memory) (g : Nat) : Nat → Nat → Except (Option Place) (Nat × Nat × Nat)
  | lvl, t =>
    let i := match lvl with
      | 3 => fld g 51 39
      | 2 => fld g 38 30
      | 1 => fld g 29 21
      | _ => fld g 20 16
    let at8 := t + 8 * i
    let e := m.num at8 8
    if bad.contains (Place.bulk at8).code then .error (some (.bulk at8))
    else if bitOf e 0 = false ∨ fld e 63 52 ≠ 0 ∨ fld e 11 5 ≠ 0 then .error none
    else if bitOf e 1 then
      let size := match lvl with
        | 2 => 2 ^ 30
        | 1 => 2 ^ 21
        | _ => 2 ^ 16
      let f := fld e 51 12 * 2 ^ 12
      if lvl = 3 ∨ f % size ≠ 0 ∨ Config.bulkBytes < f + size then .error none else .ok (at8, e, lvl)
    else
      match lvl with
      | 0 => .error none
      | l + 1 => walkFrom bad m g l (fld e 51 12 * 2 ^ 12)

/-- The bulk address of the 64 KiB page of `g` under a leaf. -/
def leafFrame (g e lvl : Nat) : Nat :=
  let size := match lvl with
    | 2 => 2 ^ 30
    | 1 => 2 ^ 21
    | _ => 2 ^ 16
  fld e 51 12 * 2 ^ 12 + g % size / 2 ^ 16 * 2 ^ 16

/-- A number with some bits set. -/
def orBits (v m : Nat) : Nat := v ||| m

/-- A walk (R322): the leaf's A bit is set, and the page it gives, as yet without an owner. -/
def State.walk (s : State) (root g : Nat) : State × Option Page :=
  match walkFrom s.bad s.bulk g 3 root with
  | .error (some p) => (s.noteUe p, none)
  | .error none => (s, none)
  | .ok (leaf, e, lvl) =>
    let e' := orBits e 8
    ({ s with bulk := s.bulk.write leaf (leBytes 8 e') },
     some ⟨0, g / 2 ^ 16, leafFrame g e lvl, leaf, e', bitOf e 2, bitOf e 4, false⟩)

def Xlat.setPage (x : Xlat) (p : Page) : Xlat :=
  { x with pages := p :: x.pages.filter (fun o => o.page != p.page || o.owner != p.owner) }

def Xlat.page? (x : Xlat) (owner n : Nat) : Option Page := x.pages.find? (fun p => p.page == n && p.owner == owner)
def Xlat.lazy? (x : Xlat) (host : Bool) (n : Nat) : Option LazyPage :=
  x.lazies.find? (fun p => p.host == host && p.page == n)

/-- Every translation of a page changed. -/
def Xlat.mapPage (x : Xlat) (n : Nat) (f : Page → Page) : Xlat :=
  { x with pages := x.pages.map (fun p => if p.page == n then f p else p) }

/-- A page's leaf takes its A and D bits, and the page is dirty in the context, in every extent that has this frame for it
(R325). -/
def State.markDirty (s : State) (ctx : Nat) (p : Page) (v : Nat) : State :=
  ({ s with bulk := s.bulk.write p.leaf (leBytes 8 (orBits v 0x18)) } : State).modXlat ctx (fun x =>
    x.mapPage p.page (fun o => if o.frame = p.frame then { o with value := orBits v 0x18, dirty := true } else o))

/-- The walk of a page has failed (R325, R331): no translation of it stays in use, until a request that covers it
completes. -/
def State.breakNow (s : State) (ctx n : Nat) : State :=
  s.modXlat ctx (fun x => { x.mapPage n (fun p => { p with dropped := true }) with broken := setAdd x.broken n })

/-- The first write to a clean page (R325): the leaf's D bit is set against the value walked. If the leaf has changed, the
page is walked afresh: with the same frame and W the bit is set against the new value; else the page's translations are
dropped, in every extent of the context, and replaced, or the page is missing. -/
def State.dirty (s : State) (ctx : Nat) (p : Page) : State × Option Page :=
  let done (p : Page) (v : Nat) : Page := { p with value := orBits v 0x18, dirty := true, dropped := false }
  if s.bulk.num p.leaf 8 = p.value then (s.markDirty ctx p p.value, some (done p p.value))
  else
    match s.walk (s.xlat ctx).root (p.page * 2 ^ 16) with
    | (s', some p2) =>
      let same := p2.frame == p.frame && p2.writable
      let s1 := if same then s' else s'.modXlat ctx (fun x => x.mapPage p.page (fun o => { p2 with owner := o.owner }))
      (s1.markDirty ctx p2 p2.value, some (done { p2 with owner := p.owner } p2.value))
    | (s', none) => (s'.breakNow ctx p.page, none)

/-- The tables an agent's accesses use: its context, and the owner of its extents' translations (R324). -/
structure Holder where
  ctx : Nat
  owner : Nat
deriving DecidableEq, Repr

def State.holder (s : State) (a : AgentId) : Holder :=
  ⟨s.ctxOf a, match a with | .ctx p _ => ((s.cell p).bound.map (fun b => b.2.1 + 1)).getD 0 | .cond _ => 0⟩

/-- A page of a non-lazy bulk extent: a dropped one is walked again at its first access, for every extent that holds it
(R331). -/
def State.bulkPage (s : State) (o : Holder) (n : Nat) (write : Bool) : State × Option Page :=
  let ctx := o.ctx
  let x := s.xlat ctx
  let fresh : State × Option Page :=
    if x.broken.contains n then (s, none)
    else
      match s.walk x.root (n * 2 ^ 16) with
      | (s', some p) =>
        (s'.modXlat ctx (fun x =>
          (x.mapPage n (fun q => if q.dropped then { p with owner := q.owner } else q)).setPage { p with owner := o.owner }),
          some { p with owner := o.owner })
      | (s', none) => (s'.breakNow ctx n, none)
  let r := match x.page? o.owner n with
    | some p => if p.dropped then fresh else (s, some p)
    | none => fresh
  match r with
  | (s', some p) => if write && !p.dirty then s'.dirty ctx p else (s', some p)
  | (s', none) => (s', none)

/-- Where byte `off` of an extent lies; none when its page is missing (R261, R323). -/
def State.translate (s : State) (o : Holder) (e : Extent) (off : Nat) (write : Bool) : State × Option Place :=
  let g := e.base + off
  match e.space, e.lazy with
  | .bulk, false =>
    match s.bulkPage o (g / 2 ^ 16) write with
    | (s', some p) => (s', some (.bulk (p.frame + g % 2 ^ 16)))
    | (s', none) => (s', none)
  | .bulk, true => (s, ((s.xlat o.ctx).lazy? false (g / 2 ^ 16)).map (fun p => .bulk (p.frame + g % 2 ^ 16)))
  | .host, false => (s, some (.host g))
  | .host, true => (s, ((s.xlat o.ctx).lazy? true (g / 2 ^ 16)).map (fun p => .host (p.frame + g % 2 ^ 16)))
  | .seam, _ => (s, some (.seam g))
  | .peer, _ => (s, some (.peer (e.window.toNat % 8) (fld e.window.toNat 10 3) g))

/-- The bytes of a range of an extent, each with its space address. -/
def State.translateN (s : State) (o : Holder) (e : Extent) (off : Nat) (write : Bool) :
    Nat → State × List (Nat × Option Place)
  | 0 => (s, [])
  | n + 1 =>
    let r := s.translate o e off write
    let t := State.translateN r.1 o e (off + 1) write n
    (t.1, (e.base + off, r.2) :: t.2)

/-! ### Accesses accepted and not yet performed (R245 to R247) -/

/-- What an agent's accepted stores give for a byte: the latest one. -/
def pendByte : List Pend → Place → Option Byte
  | [], _ => none
  | x :: r, p =>
    match pendByte r p with
    | some b => some b
    | none =>
      match x.what with
      | .store bs _ => if x.level = 0 then (bs.find? (fun e => e.1 = p)).map (·.2) else none
      | .amon _ _ _ => none

/-- A byte as its own agent reads it (R161). -/
def State.viewByte (s : State) (a : AgentId) (p : Place) : Byte :=
  match pendByte (s.hart a).pend p with
  | some b => b
  | none => s.getByte p

/-- The full/empty bit as its own agent sees it. -/
def pendFe : List Pend → Place → Option Bool
  | [], _ => none
  | x :: r, p =>
    match pendFe r p with
    | some b => some b
    | none =>
      match x.what with
      | .store _ fe => if x.level = 0 then (fe.find? (fun e => e.1.word = p.word)).map (·.2) else none
      | .amon _ _ _ => none

/-- The new value of an atomic (R164). -/
def AmoFn.apply : AmoFn → DWord → DWord → DWord
  | .add, o, b => o + b
  | .min, o, b => if o.toInt < b.toInt then o else b
  | .max, o, b => if b.toInt < o.toInt then o else b
  | .minu, o, b => if o.toNat < b.toNat then o else b
  | .maxu, o, b => if b.toNat < o.toNat then o else b
  | .and, o, b => o &&& b
  | .or, o, b => o ||| b
  | .xor, o, b => o ^^^ b
  | .swap, _, b => b

/-- The effect of an access on memory. An amon whose word has become uncorrectable since its issue changes nothing
(log entry 60). -/
def State.applyPend (s : State) : PendWhat → State
  | .store bs fe => (s.putBytes bs).putFe fe
  | .amon fn ps v =>
    match ps.find? s.isBad with
    | some p => s.noteUe p
    | none =>
      let old := dwn (leNat (s.getBytes ps))
      s.putBytes (ps.zip (leBytes 8 (fn.apply old v).toNat))

/-- The bytes an access touches. -/
def PendWhat.places : PendWhat → List Place
  | .store bs fe => bs.map (·.1) ++ fe.map (·.1.word)
  | .amon _ ps _ => ps

/-- Whether an access touches one of some places. -/
def PendWhat.touches (w : PendWhat) (ps : List Place) : Bool := w.places.any (fun p => ps.contains p)

/-- An access accepted by an agent (R246). -/
def Hart.accept (h : Hart) (w : PendWhat) : Hart :=
  { h with
    pend := h.pend ++ [⟨w, 0, h.pendSeq⟩], pendSeq := h.pendSeq + 1
    early := h.early.filter (fun b => !w.places.contains b.1) }

/-- Access `i` of an agent performed at a level: its bytes are written when first performed beyond its agent; an
access performed at system scope is forgotten. -/
def State.perform (s : State) (a : AgentId) (i lvl : Nat) : State :=
  match (s.hart a).pend[i]? with
  | none => s
  | some x =>
    let s1 := if x.level = 0 then s.applyPend x.what else s
    s1.modHart a (fun h =>
      { h with pend := if 4 ≤ lvl then delAt h.pend i else modAt h.pend i (fun y => { y with level := max y.level lvl }) })

/-- Accesses of one agent to the same bytes take effect in order (R246): access `i` may be performed when no earlier
one that touches its bytes stands unperformed. -/
def Hart.mayPerform (h : Hart) (i : Nat) : Bool :=
  match h.pend[i]? with
  | none => false
  | some x => (h.pend.take i).all (fun y => y.level != 0 || !y.what.touches x.what.places)

/-- Whether a peer refuses a store to some places (R334). -/
def State.refusedAt (s : State) (ps : List Place) : Bool :=
  ps.any (fun p => match p with | .peer _ _ _ => s.isBad p | _ => false)

/-- The management core will end a region (R231, R275, R334). -/
def State.doomRegion (s : State) (q code : Nat) : State := s.modRegion q (fun r => { r with doom := some code })

/-- A store to a peer that refuses it: the management core will stop the agent's region (R334). -/
def State.doomAgent (s : State) (a : AgentId) : State :=
  match s.regionOf a with
  | some q => s.doomRegion q 0x0E
  | none => s

/-- An access refused by a peer: the store is discarded (R334). -/
def State.refuse (s : State) (a : AgentId) (i : Nat) : State :=
  (s.modHart a (fun h => { h with pend := delAt h.pend i })).doomAgent a

/-- An access of an agent performed at a level, unless a peer refuses it. -/
def State.performOr (s : State) (a : AgentId) (i lvl : Nat) : State :=
  match (s.hart a).pend[i]? with
  | none => s
  | some x => if x.level = 0 && s.refusedAt x.what.places then s.refuse a i else s.perform a i lvl

/-- Every access of the agent that touches some places is performed, oldest first, at region scope. -/
def State.settleFrom (s : State) (a : AgentId) (ps : List Place) : Nat → Nat → State
  | _, 0 => s
  | i, n + 1 =>
    match (s.hart a).pend[i]? with
    | some x =>
      if x.level = 0 && x.what.touches ps then
        State.settleFrom (s.performOr a i 2) a ps (if s.refusedAt x.what.places then i else i + 1) n
      else State.settleFrom s a ps (i + 1) n
    | none => s

def State.settle (s : State) (a : AgentId) (ps : List Place) : State :=
  s.settleFrom a ps 0 (s.hart a).pend.length

/-- Whether some atomic that has not been performed touches some places. -/
def Hart.amonOn (h : Hart) (ps : List Place) : Bool :=
  h.pend.any (fun x => x.level == 0 && (match x.what with | .amon _ _ _ => true | .store _ _ => false)
    && x.what.touches ps)

/-- The agent's stores and atomics are all performed at a level or wider (R98, R169). -/
def Hart.performedAt (h : Hart) (lvl : Nat) : Bool := h.pend.all (fun x => lvl ≤ x.level)

/-! ### Fault records (spec/13) -/

def Cause.code : Cause → Nat
  | .undef => 0x01 | .priv => 0x02 | .align => 0x03 | .bounds => 0x04 | .porttype => 0x05 | .marker => 0x06
  | .malatom => 0x07 | .race => 0x08 | .accbusy => 0x09 | .determ => 0x0A | .ragged => 0x0B | .seambusy => 0x0C
  | .badrett => 0x0D | .uncorr => 0x0E | .nested => 0x0F | .lodefault => 0x10 | .xfault => 0x11 | .overrun => 0x12
  | .swtrap => 0x13 | .cmdfail => 0x14

/-- A record sent to a conductor: queued, or waiting for a place when 16 stand in the queue (R268). -/
def State.sendRecord (s : State) (k : Nat) (r : Record) : State :=
  if (s.cond k).records.length < 16 then s.modCond k (fun c => { c with records := c.records ++ [r] })
  else
    match (s.cond k).region with
    | some q => s.modRegion q (fun g => { g with xfaults := g.xfaults ++ [(k, r)] })
    | none => s

/-- Role and clause of an agent as a record names them (R267). -/
def State.roleOf (s : State) : AgentId → Nat
  | .ctx p _ => ((s.cell p).bound.map (·.2.2)).getD 0
  | .cond _ => 0

def State.recClause (s : State) : AgentId → Word
  | .ctx p _ => BitVec.ofNat 32 (((s.cell p).bound.map (·.2.1)).getD 0)
  | .cond k => (s.cond k).hart.clause - 1

/-- The conductor's own address of a byte of a space: a lazy extent before a non-lazy one, then the lowest index; 0
when none covers it (R267). -/
def xaddrOf (es : List Extent) (space : Space) (sa : Nat) : DWord :=
  let cov := es.filter (fun e => e.space == space && e.base ≤ sa && sa < e.base + e.len)
  let best (l : List Extent) : Option Extent :=
    l.foldl (fun acc e => match acc with | some b => if e.idx < b.idx then some e else acc | none => some e) none
  let pick := match best (cov.filter (·.lazy)) with
    | some e => some e
    | none => best cov
  match pick with
  | some e => dwn (e.idx * 2 ^ 40 + (sa - e.base))
  | none => 0

/-- A missing page as an access met it. -/
structure PageMiss where
  sort : PageSort
  /-- the address as the agent formed it, and the byte's space address -/
  addr : DWord
  sa : Nat
  src : Nat
  pc : DWord
  port : Option (Nat × Nat × Idx)
deriving DecidableEq, Repr

/-- The re-walk of a page of a non-lazy extent fails where it has not failed yet (R331). What the walk met counts (R390). -/
def State.breakPage (s : State) (ctx n : Nat) : State :=
  let x := s.xlat ctx
  if x.broken.contains n then s else (s.walk x.root (n * 2 ^ 16)).1.breakNow ctx n

/-- A page without a translation is reached (R261): unless it is pending already it becomes pending and one XFAULT
record is sent. `clause` is the clause the record names. -/
def State.missPageFor (s : State) (a : AgentId) (m : PageMiss) (clause : Word) : State :=
  let ctx := s.ctxOf a
  let n := m.sa / 2 ^ 16
  let key := (m.sort, n)
  let s := if m.sort = .bulk then s.breakPage ctx n else s
  if (s.xlat ctx).pending.contains key then s
  else
    let s1 := s.modXlat ctx (fun x => { x with pending := x.pending ++ [key] })
    let k := a.conductor
    let es := ((s.regionOf a).bind s.region).map (·.extents) |>.getD []
    s1.sendRecord k
      { cause := .xfault, src := m.src, code := 0, stage := !a.isCond, ctx := a.ctxNum, role := s.roleOf a,
        port := m.port.map (·.1), addr := m.addr, xaddr := xaddrOf es (if m.sort = .host then .host else .bulk) m.sa,
        pc := m.pc, seq := (m.port.map (·.2.1)).getD 0, idx := (m.port.map (·.2.2)).getD Idx.zero,
        clause := clause, nestCell := none }

def State.missPage (s : State) (a : AgentId) (m : PageMiss) : State := s.missPageFor a m (s.recClause a)

/-! ### Passes and readiness (R49, R50) -/

/-- The advance of a pass, 65,536 over the weight (R49). -/
def passStep (w : BitVec 16) : DWord := dwn (2 ^ 24 / w.toNat)

/-- p is below p' by their signed 64-bit difference (R49). -/
def passBelow (p p' : DWord) : Bool := (p - p').toInt < 0
def passMax (p p' : DWord) : DWord := if passBelow p p' then p' else p

/-- Whether a context was ready in the cycle before (R50). -/
def Hart.readyBefore (h : Hart) (cycle : Nat) : Bool := decide (0 < cycle) && decide (h.readyFrom ≤ cycle) && decide (cycle ≤ h.readyAt)

/-- A context is ready in a cycle: its run of ready cycles goes on, or begins. -/
def Hart.markReady (h : Hart) (cycle : Nat) : Hart :=
  { h with readyAt := cycle + 1, readyFrom := if cycle ≤ h.readyAt then h.readyFrom else cycle + 1 }

/-- The smallest pass among the contexts of a cell that were ready in the cycle before. -/
def Cell.lowestReady (x : Cell) (cycle : Nat) : Option DWord :=
  (List.finRange 4).foldl (fun acc d =>
    if x.ctx[d].readyBefore cycle then
      match acc with
      | none => some x.ctx[d].pass
      | some p => some (if passBelow x.ctx[d].pass p then x.ctx[d].pass else p)
    else acc) none

/-- A context becomes ready (R50): unless it was ready in the cycle before, its pass is raised to the smallest pass of
those that were. A context that was marked in this cycle already stays as it is. -/
def Cell.becomeReady (x : Cell) (cycle : Nat) (c : Fin 4) : Cell :=
  let h := x.ctx[c]
  if h.readyAt = cycle + 1 then x
  else
    let h1 := match x.lowestReady cycle with
      | some p => if h.readyBefore cycle then h else { h with pass := passMax h.pass p }
      | none => h
    { x with ctx := x.ctx.set c (h1.markReady cycle) }

/-- A context that issues is ready in this cycle (R50). -/
def State.nowReady (s : State) : AgentId → State
  | .ctx p c => s.modCell p (fun x => x.becomeReady s.cycle c)
  | .cond _ => s

/-! ### Traps (R46, R47) -/

/-- What a trap reports. -/
structure TrapInfo where
  cause : Cause
  i0 : DWord
  i1 : DWord
  seq : DWord
  idx : Idx
deriving DecidableEq, Repr

/-- A trap without a stream position. -/
def trapOf (c : Cause) (i0 i1 : DWord) : TrapInfo := ⟨c, i0, i1, 0, Idx.zero⟩

/-- STATUS (R39). -/
def statusWord (a : AgentId) (h : Hart) : DWord :=
  dwn (b2n h.level + 2 * b2n h.rep + 4 * b2n h.rdh + 8 * b2n h.armed + 256 * a.ctxNum + 1024 * b2n a.isCond)

/-- The header of a frame with `nent` entries, without NEST where that is zero (R47). -/
def frameHeader (nent repc : Nat) (seq : DWord) (idx : Idx) (nest : List DWord) : List Byte :=
  leBytes 1 nent ++ leBytes 1 repc ++ leBytes 6 0 ++ leBytes 8 seq.toNat ++
    leBytes 4 idx.i0 ++ leBytes 4 idx.i1 ++ leBytes 4 idx.i2 ++ leBytes 4 idx.i3 ++
    (nest.map (fun v => leBytes 8 v.toNat)).flatten

/-- Bytes with zeros behind them up to a size. -/
def padTo (n : Nat) (bs : List Byte) : List Byte := bs ++ List.replicate (n - bs.length) 0

/-- Bytes cut or filled with zeros to a size. -/
def fit (n : Nat) (bs : List Byte) : List Byte := padTo n (bs.take n)

/-- The entry of an unfinished instruction, 320 bytes (R47). -/
def Flight.bytes (f : Flight) : List Byte :=
  leBytes 8 f.pc.toNat ++ fit 16 (f.words.flatMap (leBytes 4)) ++ [BitVec.ofNat 8 f.nops, BitVec.ofNat 8 f.popped] ++
    List.replicate 6 0 ++ fit 288 (f.slots.flatMap (fit 96))

/-- The frame of an agent: its header, and an entry for each instruction that it has issued and not finished, oldest
first; the rest of the 2,048 bytes is zero (R46, R47). -/
def Hart.frame (h : Hart) (seq : DWord) (idx : Idx) (nest : List DWord) : List Byte :=
  let fs := h.flight.take 6
  fit 64 (frameHeader fs.length h.repc.toNat seq idx nest) ++ fs.flatMap Flight.bytes

/-- The extent that an agent's extent address names. -/
def State.extentNo (s : State) (a : AgentId) (n : Nat) : Option Extent :=
  (s.extents a).find? (fun e => e.idx == n)

/-- A frame written at the frame area plus an offset: in the cell store for a stage context, in the launch extent
for a conductor (R45, R46). A frame area without a translation takes no bytes (log entry 13). -/
def State.writeFrame (s : State) (a : AgentId) (off : Nat) (hdr : List Byte) : State :=
  let v := (s.hart a).tframe.toNat
  match a with
  | .ctx p _ =>
    let lo := fld v 18 11 * 2048 + off
    s.modCell p (fun c => { c with store := (c.store.cut lo 2048).write lo hdr })
  | .cond _ =>
    match s.extentNo a (fld v 47 40) with
    | none => s
    | some e =>
      match s.translate (s.holder a) e (fld v 39 12 * 4096 + off) true with
      | (s', some (.bulk lo)) =>
        let s1 := s'.settle a ((List.range 2048).map (fun i => Place.bulk (lo + i)))
        { s1 with bulk := (s1.bulk.cut lo 2048).write lo hdr }
      | (s', _) => s'

/-- The address at which a trap resumes: the instruction, or for SWTRAP the next one (R46). -/
def Hart.trapPc (h : Hart) (t : TrapInfo) : DWord := if t.cause = .swtrap then h.pc + 4 else h.pc

/-- The role form of an address in a role's cell store (R181). -/
def roleForm (role off : Nat) : DWord := dwn (role * 2 ^ 20 + off)

/-- A trap at trap level 1 (R46, R274, R275): the second frame is written and the agent stops; a stage's conductor
gets a NESTED record. -/
def State.nestedTrap (s : State) (a : AgentId) (t : TrapInfo) : State :=
  let h := s.hart a
  let pc := h.trapPc t
  let s1 := s.writeFrame a 2048
    (h.frame t.seq t.idx [pc, dwn t.cause.code, t.i0, t.i1])
  let s2 := s1.modHart a (fun h =>
    { h with
      run := .stopped, hold := none, arrived := none, capt := none, flight := [], early := []
      pass := if a.isCond then h.pass else h.pass + passStep h.wgt })
  match a with
  | .cond _ => s2
  | .ctx p c =>
    let s3 := s2.modCell p (fun x => { x with nestHold := x.nestHold + 1 })
    let s4 := match (s.cell p).bound with
      | some (q, n, _) => s3.modClause q n (fun cl => { cl with nested := true })
      | none => s3
    s4.sendRecord a.conductor
      { cause := .nested, src := 7, code := 0, stage := true, ctx := c.val, role := s.roleOf a, port := none,
        addr := roleForm (s.roleOf a) (fld h.tframe.toNat 18 11 * 2048), xaddr := 0, pc := pc, seq := 0,
        idx := Idx.zero, clause := s.recClause a, nestCell := some p }

/-- Taking a trap (R46), as one action; the instructions in flight go into the frame. The trapping instruction has issued, so
the pass of its context advances (R49, log entry 16). -/
def State.takeTrap (s : State) (a : AgentId) (t : TrapInfo) : State :=
  let h := s.hart a
  if h.level then s.nestedTrap a t
  else
    (s.writeFrame a 0 (h.frame t.seq t.idx [])).modHart a (fun h =>
      { h with
        tpc := h.trapPc t, tstat := statusWord a h, tcause := dwn t.cause.code, tinfo0 := t.i0, tinfo1 := t.i1
        level := true, rep := false, rdh := false, hold := none, flight := [], replayed := 0, early := []
        pass := if a.isCond then h.pass else h.pass + passStep h.wgt
        pc := if t.cause = .undef ∧ h.evec ≠ 0 then h.evec else h.tvec })

/-! ### Ends of an instruction -/

/-- Why an instruction does not complete now. -/
inductive Stop where
  | hold (h : Hold)
  | page (m : PageMiss)
  | trap (t : TrapInfo)
  /-- a trap for an uncorrectable word -/
  | bad (p : Place) (t : TrapInfo)
deriving DecidableEq, Repr

abbrev Res (α : Type) := Except Stop α

/-- An instruction of `len` bytes retires: the pc moves on, or the repeat unit counts down (R91); the pass advances
(R49). -/
def Hart.retired (a : AgentId) (h : Hart) (len : Nat) : Hart :=
  let h1 := { h with hold := none, pass := if a.isCond then h.pass else h.pass + passStep h.wgt }
  if h.rep then
    if h.repc.toNat ≤ 1 then { h1 with rep := false, repc := 0, pc := h.pc + 8 }
    else { h1 with repc := h.repc - 1 }
  else { h1 with pc := h.pc + dwn len }

def State.retireBy (s : State) (a : AgentId) (len : Nat) : State := s.modHart a (fun h => h.retired a len)

/-- A 32-bit instruction of the current agent retires. -/
def State.done4 (s : State) : State := s.retireBy s.cur 4

/-- The instruction holds: nothing changes but the note why (R211, R277). -/
def State.holdBy (s : State) (a : AgentId) (h : Hold) : State := s.modHart a (fun x => { x with hold := some h })

/-- What a stopped instruction leaves: a hold, a page miss or a trap. -/
def State.stopBy (s : State) (a : AgentId) : Stop → State
  | .hold h => s.holdBy a h
  | .page m => (s.missPage a m).holdBy a .page
  | .trap t => s.takeTrap a t
  | .bad p t => (s.noteUe p).takeTrap a t

/-- The end of an instruction: its effect with the pc moved on, or what stopped it. -/
def finish (s : State) (r : Res State) : Out :=
  match r with
  | .ok s' => .next s'
  | .error e => .next (s.stopBy s.cur e)

/-- Whether the governing predicate holds: p0 always does (R54); a replayed instruction has issued already (R48). -/
def Hart.pred (h : Hart) (pg : Pg) : Bool := pg = 0 || h.p[pg] || h.capt.isSome

/-- The trap of a register, or of a tile as class 6, that is read with an uncorrectable error (R276). -/
def regTrap (cls n : Nat) : TrapInfo := trapOf .uncorr (dwn (2 ^ 63 + cls * 256 + n)) 2

/-- Whether the governing predicate is a register with an uncorrectable error (R276). -/
def Hart.badPred (h : Hart) (pg : Pg) : Bool := pg != 0 && h.capt.isNone && h.badRegs.contains (3 * 256 + pg.val)

/-- An instruction with a predicate: skipped when it is false, else the effect and then `len` bytes on. -/
def governed (pg : Pg) (len : Nat) (body : State → Res State) (s : State) : Out :=
  if (s.hart s.cur).badPred pg then .next (s.takeTrap s.cur (regTrap 3 pg.val))
  else if (s.hart s.cur).pred pg then finish s ((body s).map (fun s' => s'.retireBy s.cur len))
  else .next (s.retireBy s.cur len)

/-- A predicated instruction that places the pc itself. -/
def governedJump (pg : Pg) (len : Nat) (body : State → Res State) (s : State) : Out :=
  if (s.hart s.cur).badPred pg then .next (s.takeTrap s.cur (regTrap 3 pg.val))
  else if (s.hart s.cur).pred pg then finish s (body s) else .next (s.retireBy s.cur len)

/-- The pc of the current agent after a taken or untaken branch; the issue advances the pass. -/
def State.jumpTo (s : State) (pc : DWord) : State :=
  s.modHart s.cur (fun h =>
    { h with pc := pc, hold := none, pass := if s.cur.isCond then h.pass else h.pass + passStep h.wgt })

end Sys2Proof.Machine
end

