-- ==== Sys2Proof/Machine/Flags.lean ====
section
/-! DEFINITION. The sticky flags and binary32 arithmetic: one exact value, one rounding (R23 to R27, R41). A finite
binary32 value is an integer in units of 2^-149. -/
namespace Sys2Proof.Machine

/-- Flags as FPS holds them (R41). -/
abbrev Flags := BitVec 5

def fInv : Flags := 1
def fDz : Flags := 2
def fOvf : Flags := 4
def fUnf : Flags := 8
def fMal : Flags := 16

/-- A binary32 result with the flags it raises. -/
abbrev FR := Word × Flags

/-- A flag when a condition holds. -/
def flagIf (b : Bool) (f : Flags) : Flags := if b then f else 0

/-- The canonical NaN (R26). -/
def canonNan : Word := 0x7FC00000
def plusInf : Word := 0x7F800000

def signOf (w : Word) : Bool := w.getLsbD 31
def expOf (w : Word) : Nat := fld w.toNat 30 23
def fracOf (w : Word) : Nat := fld w.toNat 22 0
def isNan (w : Word) : Bool := expOf w == 255 && fracOf w != 0
/-- A signalling NaN: fraction bit 22 is 0. -/
def isSnan (w : Word) : Bool := isNan w && !w.getLsbD 22
def isInf (w : Word) : Bool := expOf w == 255 && fracOf w == 0
/-- Zero, or a subnormal, which reads as zero of its sign (R23). -/
def isZero (w : Word) : Bool := expOf w == 0
def quiet (w : Word) : Word := w ||| 0x00400000
def zeroOf (neg : Bool) : Word := if neg then 0x80000000 else 0
def infOf (neg : Bool) : Word := if neg then 0xFF800000 else plusInf
/-- A subnormal as zero of its sign. -/
def flush (w : Word) : Word := if isZero w then zeroOf (signOf w) else w
def negW (w : Word) : Word := w ^^^ 0x80000000

/-- The exact value of a finite word, in units of 2^-149. -/
def val (w : Word) : Int :=
  if isZero w then 0
  else
    let m : Nat := (2 ^ 23 + fracOf w) * 2 ^ (expOf w - 1)
    if signOf w then -(m : Int) else m

/-- A nonzero exact value n × 2^e rounded to nearest even with an unbounded exponent, then flushed or overflowed
(R23); zero gives +0. -/
def rnd (n e : Int) : FR :=
  if n = 0 then (0, 0)
  else
    let neg := decide (n < 0)
    let m := n.natAbs
    let k := log2n m
    let sh := k - 23
    let q0 := if k ≤ 23 then m * 2 ^ (23 - k) else m / 2 ^ sh
    let r := if k ≤ 23 then 0 else m % 2 ^ sh
    let half := if k ≤ 23 then 1 else 2 ^ (sh - 1)
    let up := half < r || (r == half && q0 % 2 == 1)
    let q1 := if up && 23 < k then q0 + 1 else q0
    let ovf := q1 == 2 ^ 24
    let frac := if ovf then 0 else q1 - 2 ^ 23
    let ex : Int := (k : Int) + e + (if ovf then 1 else 0)
    if ex < -126 then (zeroOf neg, fUnf)
    else if 127 < ex then (infOf neg, fOvf)
    else (BitVec.ofNat 32 ((if neg then 2 ^ 31 else 0) + (ex + 127).toNat * 2 ^ 23 + frac), 0)

/-- INV for a signalling NaN among operands. -/
def snanFlag (ws : List Word) : Flags := flagIf (ws.any isSnan) fInv

/-- The first NaN of the operands in field order, quieted (R26). -/
def firstNan (ws : List Word) : Word := quiet ((ws.find? isNan).getD canonNan)

/-- a + b (R23, R26). -/
def fadd (a b : Word) : FR :=
  if isNan a || isNan b then (firstNan [a, b], snanFlag [a, b])
  else if isInf a then (if isInf b && signOf a != signOf b then (canonNan, fInv) else (a, 0))
  else if isInf b then (b, 0)
  else
    let n := val a + val b
    if n = 0 then (zeroOf (signOf a && signOf b), 0) else rnd n (-149)

/-- a − b. -/
def fsub (a b : Word) : FR :=
  if isNan a || isNan b then (firstNan [a, b], snanFlag [a, b]) else fadd a (negW b)

/-- a × b. -/
def fmul (a b : Word) : FR :=
  let neg := signOf a != signOf b
  if isNan a || isNan b then (firstNan [a, b], snanFlag [a, b])
  else if (isInf a && isZero b) || (isZero a && isInf b) then (canonNan, fInv)
  else if isInf a || isInf b then (infOf neg, 0)
  else
    let n := val a * val b
    if n = 0 then (zeroOf neg, 0) else rnd n (-298)

/-- ±(a × b) ± c with one rounding (R122). -/
def ffma (negP negC : Bool) (a b c : Word) : FR :=
  let zi := (isInf a && isZero b) || (isZero a && isInf b)
  let sp := (signOf a != signOf b) != negP
  let sc := signOf c != negC
  if isNan a || isNan b then (firstNan [a, b], snanFlag [a, b, c])
  else if zi then (if isNan c then quiet c else canonNan, fInv)
  else if isNan c then (quiet c, snanFlag [c])
  else if isInf a || isInf b then
    (if isInf c && sp != sc then (canonNan, fInv) else (infOf sp, 0))
  else if isInf c then (infOf sc, 0)
  else
    let p := val a * val b
    let d := val c * (2 ^ 149 : Nat)
    let n := (if negP then -p else p) + (if negC then -d else d)
    if n = 0 then (zeroOf (sp && sc), 0) else rnd n (-298)

/-- A key that orders finite and infinite words by value; both zeros are 0. -/
def orderKey (w : Word) : Int :=
  let m : Nat := if isZero w then 0 else fld w.toNat 30 0
  if signOf w then -(m : Int) else m

/-- a < b with −0 below +0 (R114, R118). -/
def below (a b : Word) : Bool := orderKey a < orderKey b || (orderKey a == orderKey b && signOf a && !signOf b)

def fmin (a b : Word) : FR :=
  if isNan a || isNan b then (firstNan [a, b], snanFlag [a, b])
  else (if below b a then flush b else flush a, 0)

def fmax (a b : Word) : FR :=
  if isNan a || isNan b then (firstNan [a, b], snanFlag [a, b])
  else (if below a b then flush b else flush a, 0)

/-- Floor of a square root, by bits. -/
def isqrtGo (n : Nat) : Nat → Nat → Nat
  | 0, r => r
  | k + 1, r => isqrtGo n k (if (r + 2 ^ k) * (r + 2 ^ k) ≤ n then r + 2 ^ k else r)

def isqrt (n : Nat) : Nat := isqrtGo n 96 0

/-- Significand of a normal word, 24 bits; the value is m × 2^(exp − 150). -/
def sigOf (w : Word) : Nat := 2 ^ 23 + fracOf w
def sexpOf (w : Word) : Int := (expOf w : Int) - 150

/-- RCP (R25). -/
def frcp (a : Word) : FR :=
  if isNan a then (quiet a, snanFlag [a])
  else if isZero a then (infOf (signOf a), fDz)
  else if isInf a then (zeroOf (signOf a), 0)
  else
    let m := sigOf a
    let n : Nat := 2 ^ 80 / m * 2 + b2n (2 ^ 80 % m != 0)
    rnd (if signOf a then -(n : Int) else n) (-81 - sexpOf a)

/-- A normal positive word as m × 2^(2h). -/
def evenSig (a : Word) : Nat × Int :=
  if sexpOf a % 2 = 0 then (sigOf a, sexpOf a / 2) else (sigOf a * 2, (sexpOf a - 1) / 2)

/-- SQRT (R25). -/
def fsqrt (a : Word) : FR :=
  if isNan a then (quiet a, snanFlag [a])
  else if isZero a then (flush a, 0)
  else if signOf a then (canonNan, fInv)
  else if isInf a then (a, 0)
  else
    let (m, h) := evenSig a
    let r := isqrt (m * 2 ^ 60)
    rnd ((r * 2 + b2n (r * r != m * 2 ^ 60) : Nat) : Int) (h - 31)

/-- RSQ (R25). -/
def frsq (a : Word) : FR :=
  if isNan a then (quiet a, snanFlag [a])
  else if isZero a then (infOf (signOf a), fDz)
  else if signOf a then (canonNan, fInv)
  else if isInf a then (0, 0)
  else
    let (m, h) := evenSig a
    let r := isqrt (2 ^ 120 / m)
    rnd ((r * 2 + b2n (r * r * m != 2 ^ 120) : Nat) : Int) (-61 - h)

/-- floor(ln 2 × 2^192). -/
def ln2Fix : Nat := 4350955369971217654477563090224794165364344896676135745069

/-- Σ t^k / k! in units of 2^-192. -/
def expSeries (t : Nat) : Nat → Nat → Nat → Nat → Nat
  | 0, _, _, acc => acc
  | n + 1, k, term, acc =>
    let term' := term * t / 2 ^ 192 / k
    expSeries t n (k + 1) term' (acc + term')

/-- EXP2 (R25): the integer part of x is exact, the fraction through the exponential series far below half a unit. -/
def fexp2 (a : Word) : FR :=
  if isNan a then (quiet a, snanFlag [a])
  else if isZero a then (0x3F800000, 0)
  else if isInf a then (if signOf a then (0, 0) else (plusInf, 0))
  else
    let x := val a
    if (128 * 2 ^ 149 : Int) ≤ x then (plusInf, fOvf)
    else if x < -(200 * 2 ^ 149 : Int) then (0, fUnf)
    else
      let i := x / (2 ^ 149 : Int)
      let f := (x % (2 ^ 149 : Int)).toNat
      if f = 0 then rnd 1 i
      else
        let t := f * ln2Fix / 2 ^ 149
        let v := expSeries t 44 1 (2 ^ 192) (2 ^ 192)
        rnd ((v * 2 + 1 : Nat) : Int) (i - 193)

/-- Bits of log2 of y × 2^-300 for y in [1, 2), by repeated squaring. -/
def logBits : Nat → Nat → Nat → Nat
  | 0, _, acc => acc
  | n + 1, y, acc =>
    let y2 := y * y / 2 ^ 300
    if 2 ^ 301 ≤ y2 then logBits n (y2 / 2) (acc * 2 + 1) else logBits n y2 (acc * 2)

/-- LOG2 (R25). -/
def flog2 (a : Word) : FR :=
  if isNan a then (quiet a, snanFlag [a])
  else if isZero a then (infOf true, fDz)
  else if signOf a then (canonNan, fInv)
  else if isInf a then (a, 0)
  else
    let i : Int := (expOf a : Int) - 127
    if fracOf a = 0 then rnd i 0
    else
      let b := logBits 128 (sigOf a * 2 ^ 277) 0
      rnd ((i * (2 ^ 128 : Nat) + b) * 2 + 1) (-129)

/-- A BF16 pattern widened exactly (R26). -/
def bfWiden (h : Nat) : Word :=
  if fld h 14 7 = 0 then zeroOf (bitOf h 15) else BitVec.ofNat 32 (h % 2 ^ 16 * 2 ^ 16)

/-- A word rounded to a BF16 pattern (R26): to nearest even with an unbounded exponent, then a result below 2^-126 that is
not zero becomes zero and sets UNF. A subnormal word is read at its value here: only such words can set UNF
(log entry 58). -/
def bfNarrow (w : Word) : Nat × Flags :=
  let s := if signOf w then 2 ^ 15 else 0
  if isNan w then (s + 0x7F80 + (fld w.toNat 22 16 ||| 0x40), snanFlag [w])
  else if isZero w then
    if fracOf w = 0 then (s, 0)
    else if fracOf w < 2 ^ 23 - 2 ^ 14 then (s, fUnf)
    else (s + 0x80, 0)
  else
    let m := fld w.toNat 30 0
    let q := m / 2 ^ 16
    let r := m % 2 ^ 16
    let q' := if 2 ^ 15 < r || (r == 2 ^ 15 && q % 2 == 1) then q + 1 else q
    if 0x7F80 ≤ q' then (s + 0x7F80, if isInf w then 0 else fOvf) else (s + q', 0)

/-- Nearest integer to n / d, ties to even. -/
def rneDiv (n d : Nat) : Nat :=
  let q := n / d
  let r := n % d
  if d < 2 * r || (2 * r == d && q % 2 == 1) then q + 1 else q

/-- To a signed 32-bit integer (R121). -/
def fToInt (w : Word) : FR :=
  if isNan w then (0, fInv)
  else if isInf w then (if signOf w then 0x80000000 else 0x7FFFFFFF, fInv)
  else
    let q := rneDiv (val w).natAbs (2 ^ 149)
    if signOf w then (if 2 ^ 31 < q then (0x80000000, fInv) else (BitVec.ofInt 32 (-(q : Int)), 0))
    else (if 2 ^ 31 ≤ q then (0x7FFFFFFF, fInv) else (BitVec.ofNat 32 q, 0))

/-- From a signed 32-bit integer (R121). -/
def fOfInt (w : Word) : FR := rnd w.toInt 0

/-- Lane results put together, their flags ORed. -/
def lanesOf (f : Fin 24 → FR) : Wide × Flags :=
  let r : Vector FR 24 := Vector.ofFn f
  (Vector.ofFn (fun l => r[l].1), r.toList.foldl (fun acc x => acc ||| x.2) 0)

def lanes1 (f : Word → FR) (a : Wide) : Wide × Flags := lanesOf (fun l => f a[l])
def lanes2 (f : Word → Word → FR) (a b : Wide) : Wide × Flags := lanesOf (fun l => f a[l] b[l])
def lanes3 (f : Word → Word → Word → FR) (a b d : Wide) : Wide × Flags := lanesOf (fun l => f a[l] b[l] d[l])

/-- A bit per lane. -/
def maskOf (f : Fin 24 → Bool) : Mask :=
  BitVec.ofNat 24 ((List.finRange 24).foldl (fun acc l => acc + b2n (f l) * 2 ^ l.val) 0)

/-- The steps of R118: the partial result of an ordered reduction takes one more value; a NaN stays. -/
def reduceStep (op : Word → Word → FR) (s v : Word) : FR :=
  if isNan s then (s, 0) else if isNan v then (quiet v, 0) else op s v

/-- An ordered reduction of the lanes after the first (R118). -/
def reduceList (op : Word → Word → FR) : FR → List Word → FR
  | s, [] => s
  | s, v :: vs =>
    let r := reduceStep op s.1 (flush v)
    reduceList op (r.1, s.2 ||| r.2) vs

/-- An ordered reduction of 24 lanes, the same value in every lane (R118). -/
def reduceWide (op : Word → Word → FR) (a : Wide) : Wide × Flags :=
  let s0 := if isNan a[0] then quiet a[0] else flush a[0]
  let r := reduceList op (s0, 0) (a.toList.drop 1)
  (Vector.replicate 24 r.1, r.2 ||| snanFlag a.toList)

end Sys2Proof.Machine
end

