-- ==== Sys2Proof/Machine/Blocks.lean ====
section
/-! DEFINITION. The two block formats: exact decode, pattern ranks and the search (R7 to R22). An exact element is an
integer in units of 2^-149. -/
namespace Sys2Proof.Machine

/-- Pulse sum and largest gain of a format (R7). -/
def pulseSum (a32 : Bool) : Nat := if a32 then 32 else 4
def gainMax (a32 : Bool) : Nat := if a32 then 127 else 15

/-- Bytes of a block in memory (R8, R9). -/
def blockSize (a32 : Bool) : Nat := if a32 then 20 else 10

/-- V(n, k) of R13 for n up to 4, in closed form; `vCount_rec` shows the recurrence. -/
def vCount (n k : Nat) : Nat :=
  if k = 0 then 1
  else
    match n with
    | 0 => 0
    | 1 => 2
    | 2 => 4 * k
    | 3 => 4 * k * k + 2
    | _ => (8 * k * k * k + 16 * k) / 3

/-- Σ of 2·V(n, k − c) for c from 1 to m. -/
def vSum (n k : Nat) : Nat → Nat
  | 0 => 0
  | m + 1 => vSum n k m + 2 * vCount n (k - (m + 1))

/-- Rank (R14); the length of the pattern is n. -/
def rankOf : List Int → Nat → Nat → Nat
  | [], _, _ => 0
  | p :: ps, n, k =>
    let b := p.natAbs
    let base :=
      if b = 0 then 0
      else vCount (n - 1) k + vSum (n - 1) k (b - 1) + (if p < 0 then vCount (n - 1) (k - b) else 0)
    base + rankOf ps (n - 1) (k - b)

/-- The magnitude, sign and remaining rank of the first pulse (R14), trying magnitudes b, b + 1, …. -/
def unrankHead (n k : Nat) : Nat → Nat → Nat → Int × Nat
  | 0, _, r => (0, r)
  | fuel + 1, b, r =>
    let s := vCount n (k - b)
    if r < s then ((b : Int), r)
    else if r < 2 * s then (-(b : Int), r - s)
    else unrankHead n k fuel (b + 1) (r - 2 * s)

/-- Unrank (R14). -/
def unrank : Nat → Nat → Nat → List Int
  | _, 0, _ => []
  | r, n + 1, k =>
    if r < vCount n k then 0 :: unrank r n k
    else
      let h := unrankHead n k k 1 (r - vCount n k)
      h.1 :: unrank h.2 n (k - h.1.natAbs)

/-- Scale E of a block (R8, R9). -/
def Block.e (b : Block) : Nat := fld b.bits.toNat 7 0
/-- The raw field of atom j: 12 or 24 bits. -/
def Block.atom (b : Block) (j : Nat) : Nat :=
  if b.a32 then fld b.bits.toNat (16 + 24 * j + 23) (16 + 24 * j) else fld b.bits.toNat (8 + 12 * j + 11) (8 + 12 * j)
/-- Pattern index and gain of an atom field. -/
def atomIdx (a32 : Bool) (f : Nat) : Nat := if a32 then f % 2 ^ 17 else f % 2 ^ 8
def atomGain (a32 : Bool) (f : Nat) : Nat := if a32 then f / 2 ^ 17 else f / 2 ^ 8

/-- E = 0xFF (R11). -/
def Block.isNan (b : Block) : Bool := b.e == 255
/-- A nonzero reserved byte of an A32 block that is no NaN block (R11). -/
def Block.badRes (b : Block) : Bool := !b.isNan && b.a32 && fld b.bits.toNat 15 8 != 0
/-- A gain with an index out of range (R11). -/
def badAtom (a32 : Bool) (f : Nat) : Bool := atomGain a32 f != 0 && vCount 4 (pulseSum a32) ≤ atomIdx a32 f

/-- What a decode finds malformed: the atom (6 for the reserved byte) and its raw bits (R12). -/
def Block.malformed (b : Block) : Option (Nat × Nat) :=
  if b.isNan then none
  else if b.badRes then some (6, fld b.bits.toNat 15 8)
  else ((List.range 6).find? (fun j => badAtom b.a32 (b.atom j))).map (fun j => (j, b.atom j))

/-- The pulses of an atom field times its gain: four integers; zero and malformed atoms give zeros. -/
def atomInts (a32 : Bool) (f : Nat) : List Int :=
  if atomGain a32 f = 0 || badAtom a32 f then [0, 0, 0, 0]
  else (unrank (atomIdx a32 f) 4 (pulseSum a32)).map (fun p => p * (atomGain a32 f : Int))

/-- The 24 integers g × p of a block that is no NaN block (R10, R29). -/
def Block.ints (b : Block) : List Int :=
  if b.badRes then List.replicate 24 0 else ((List.range 6).map (fun j => atomInts b.a32 (b.atom j))).flatten

/-- Dec of a block that is no NaN block: 24 exact reals in units of 2^-149 (R10). -/
def Block.dec (b : Block) : List Int := b.ints.map (fun x => x * (2 ^ (b.e + 22) : Nat))

/-- The canonical zero block and NaN block of a format (R11). -/
def zeroBlock (a32 : Bool) : Block := ⟨0, a32⟩
def nanBlock (a32 : Bool) : Block := ⟨0xFF, a32⟩

/-- A block from its scale and its atoms, each an index and a gain. -/
def blockOf (a32 : Bool) (e : Nat) (atoms : List (Nat × Nat)) : Block :=
  let fields := (List.range 6).map (fun j =>
    let a := atoms.getD j (0, 0)
    if a32 then (a.2 * 2 ^ 17 + a.1) * 2 ^ (16 + 24 * j) else (a.2 * 2 ^ 8 + a.1) * 2 ^ (8 + 12 * j))
  ⟨BitVec.ofNat 160 (e + fields.foldl (· + ·) 0), a32⟩

/-- Sum of magnitudes. -/
def absSum (xs : List Int) : Nat := xs.foldl (fun acc x => acc + x.natAbs) 0

/-- The pulses of four elements with magnitude sum l (R15): floors of the shares, and one more for the largest
remainders, equal ones to the lower position (R16). -/
def pulses (k l : Nat) (xs : List Int) : List Int :=
  let f := xs.map (fun x => k * x.natAbs / l)
  let r := xs.map (fun x => k * x.natAbs % l)
  let left := k - f.foldl (· + ·) 0
  (List.range 4).map (fun i =>
    let ri := r.getD i 0
    let before := ((List.range 4).filter (fun j => ri < r.getD j 0 || (r.getD j 0 == ri && j < i))).length
    let n := f.getD i 0 + (if before < left then 1 else 0)
    if xs.getD i 0 < 0 then -(n : Int) else n)

/-- Search (R15) over 24 exact reals in units of 2^-149. -/
def searchExact (xs : List Int) (a32 : Bool) : Block × Flags :=
  let k := pulseSum a32
  let g := gainMax a32
  let groups := (List.range 6).map (fun j => (xs.drop (4 * j)).take 4)
  let l := groups.foldl (fun acc q => max acc (absSum q)) 0
  if l = 0 then (zeroBlock a32, 0)
  else
    match (List.range 255).find? (fun e => l < (2 * g + 1) * k * 2 ^ (e + 21)) with
    | none => (nanBlock a32, fOvf)
    | some e =>
      let atoms := groups.map (fun q =>
        let lj := absSum q
        let gain := rneDiv lj (k * 2 ^ (e + 22))
        if gain = 0 then (0, 0) else (rankOf (pulses k lj q) 4 k, gain))
      if atoms.all (fun a => a.2 == 0) then (zeroBlock a32, 0) else (blockOf a32 e atoms, 0)

/-- Search over binary32 operands: a NaN or infinity gives the NaN block, a subnormal enters as zero (R15). -/
def searchWide (ws : List Word) (a32 : Bool) : Block × Flags :=
  if ws.any (fun w => isNan w || isInf w) then (nanBlock a32, fInv) else searchExact (ws.map val) a32

/-- Dec rounded to lanes (R106): NaN in every lane of a NaN block. -/
def Block.lanes (b : Block) : List FR :=
  if b.isNan then List.replicate 24 (canonNan, 0) else b.dec.map (fun x => rnd x (-149))

/-- Lanes from a list. -/
def wideOf (l : List Word) : Wide := Vector.ofFn (fun i => l.getD i.val 0)

/-- Lane results in a list put together. -/
def packLanes (l : List FR) : Wide × Flags := (wideOf (l.map (·.1)), l.foldl (fun acc x => acc ||| x.2) 0)

/-- RNE32(x − d) of a lane and a decoded element (R17, R23): an element below 2^-126 enters as zero of its sign, and a zero
difference is −0 only when both addends are. -/
def tailing (x : Word) (d : Int) : FR :=
  let d' := if d.natAbs < 2 ^ 23 then 0 else d
  let n := val x - d'
  if n = 0 then (zeroOf (isZero x && signOf x && decide (0 ≤ d)), 0) else rnd n (-149)

/-- The encode with error feedback (R17): the block, the new tailings, the flags. -/
def enct (x t : Wide) (a32 : Bool) : Block × Wide × Flags :=
  let xp := lanes2 fadd x t
  let r := searchWide xp.1.toList a32
  if r.1.isNan then (r.1, Vector.replicate 24 0, xp.2 ||| r.2)
  else
    let d := r.1.dec
    let tl := lanesOf (fun l => tailing xp.1[l] (d.getD l.val 0))
    (r.1, tl.1, xp.2 ||| r.2 ||| tl.2)

/-- Negation (R20). -/
def Block.neg (b : Block) : Block :=
  if b.isNan then nanBlock b.a32
  else if b.badRes then zeroBlock b.a32
  else
    let k := pulseSum b.a32
    let atoms := (List.range 6).map (fun j =>
      let f := b.atom j
      if atomGain b.a32 f = 0 || badAtom b.a32 f then (0, 0)
      else (rankOf ((unrank (atomIdx b.a32 f) 4 k).map (fun p => -p)) 4 k, atomGain b.a32 f))
    if atoms.all (fun a => a.2 == 0) then zeroBlock b.a32 else blockOf b.a32 b.e atoms

/-- Scaling by 2^s (R21, R109). -/
def Block.scale (b : Block) (s : Int) : Block × Flags :=
  if b.isNan then (nanBlock b.a32, 0)
  else if b.badRes then (zeroBlock b.a32, 0)
  else
    let atoms := (List.range 6).map (fun j =>
      let f := b.atom j
      if atomGain b.a32 f = 0 || badAtom b.a32 f then (0, 0) else (atomIdx b.a32 f, atomGain b.a32 f))
    if atoms.all (fun a => a.2 == 0) then (zeroBlock b.a32, 0)
    else
      let e : Int := (b.e : Int) + s
      if 254 < e then (nanBlock b.a32, fOvf)
      else if e < 0 then (nanBlock b.a32, fUnf)
      else (blockOf b.a32 e.toNat atoms, 0)

/-- The exact dot product of two blocks' integers (R29). -/
def dotInts (a b : List Int) : Int := (List.zipWith (· * ·) a b).foldl (· + ·) 0

/-- adot (R110). -/
def Block.dot (a b : Block) : FR :=
  if a.isNan || b.isNan then (canonNan, fInv)
  else rnd (dotInts a.ints b.ints) ((a.e : Int) + b.e - 254)

/-- A raw field of a block (R112). -/
def Block.getField (b : Block) (sel : Nat) : Nat :=
  if sel ≤ 5 then b.atom sel
  else if sel = 6 then fld b.bits.toNat (if b.a32 then 15 else 7) 0
  else b2n b.a32

/-- Bits [lo + n − 1 : lo] of a number replaced. -/
def putBits (w lo n v : Nat) : Nat := w - fld w (lo + n - 1) lo * 2 ^ lo + v % 2 ^ n * 2 ^ lo

/-- A raw field of a block written (R112). -/
def Block.setField (b : Block) (sel : Nat) (d : Nat) : Block :=
  if sel ≤ 5 then
    let v := if b.a32 then putBits b.bits.toNat (16 + 24 * sel) 24 d else putBits b.bits.toNat (8 + 12 * sel) 12 d
    { b with bits := BitVec.ofNat 160 v }
  else if sel = 6 then { b with bits := BitVec.ofNat 160 (putBits b.bits.toNat 0 (if b.a32 then 16 else 8) d) }
  else if bitOf d 0 then { b with a32 := true }
  else ⟨BitVec.ofNat 160 (b.bits.toNat % 2 ^ 80), false⟩

/-- Bytes of a block in memory (R7). -/
def Block.bytes (b : Block) (a32 : Bool) : List Byte := leBytes (if a32 then 20 else 10) b.bits.toNat

/-- A block from bytes. -/
def blockFrom (a32 : Bool) (bs : List Byte) : Block := ⟨BitVec.ofNat 160 (leNat (bs.take (if a32 then 20 else 10))), a32⟩

end Sys2Proof.Machine
end

