-- ==== Sys2Proof/Machine/Patterns.lean ====
section
/-! DEFINITION. Token types and port patterns: sizes, the order of tokens and markers, and index tuples
(R182, R183, R220, R222). -/
namespace Sys2Proof.Machine

/-- Bytes of a token in memory, by TTYPE (R220). -/
def tokenSize (t : Nat) : Nat :=
  match t with
  | 0 => 1 | 1 => 2 | 2 => 4 | 3 => 8 | 4 => 10 | 5 => 20 | 6 => 96 | 7 => 48 | _ => 1

/-- Address alignment of a token (R220). -/
def tokenAlign (t : Nat) : Nat :=
  match t with
  | 0 => 1 | 1 => 2 | 2 => 4 | 3 => 8 | 4 => 2 | 5 => 2 | _ => 4

/-- Entries of an instance of dimension 0, of dimension 1, of dimension 2, and of the whole without the stop. -/
def Pattern.l0 (p : Pattern) : Nat := p.c0 + b2n (p.marks.getLsbD 0)
def Pattern.l1 (p : Pattern) : Nat := p.c1 * p.l0 + b2n (p.marks.getLsbD 1)
def Pattern.l2 (p : Pattern) : Nat := p.c2 * p.l1 + b2n (p.marks.getLsbD 2)
def Pattern.l3 (p : Pattern) : Nat := p.c3 * p.l2 + b2n (p.marks.getLsbD 3)

/-- Tokens and markers of a pattern (R183). -/
def Pattern.total (p : Pattern) : Nat := p.l3 + b2n (p.marks.getLsbD 4)

/-- What stands at a position of a pattern: a marker code, or the token of an index tuple (R183, R222). -/
inductive Slotted where
  | token (idx : Idx)
  | mark (code : Byte) (idx : Idx)
deriving DecidableEq, Repr

def Pattern.entry (p : Pattern) (n : Nat) : Slotted :=
  if n = p.l3 then .mark 0xC0 ⟨p.c0, p.c1, p.c2, p.c3⟩
  else if p.marks.getLsbD 3 && n + 1 == p.l3 then .mark 0x83 ⟨p.c0, p.c1, p.c2, p.c3⟩
  else
    let i3 := n / p.l2
    let r2 := n % p.l2
    if p.marks.getLsbD 2 && r2 + 1 == p.l2 then .mark 0x82 ⟨p.c0, p.c1, p.c2, i3⟩
    else
      let i2 := r2 / p.l1
      let r1 := r2 % p.l1
      if p.marks.getLsbD 1 && r1 + 1 == p.l1 then .mark 0x81 ⟨p.c0, p.c1, i2, i3⟩
      else
        let i1 := r1 / p.l0
        let r0 := r1 % p.l0
        if p.marks.getLsbD 0 && r0 == p.c0 then .mark 0x80 ⟨p.c0, i1, i2, i3⟩ else .token ⟨r0, i1, i2, i3⟩

def Slotted.idx : Slotted → Idx
  | .token i => i
  | .mark _ i => i

/-- The address of a token (R183), modulo 2^64. -/
def Pattern.addr (p : Pattern) (i : Idx) : DWord :=
  p.base + dw ((i.i0 : Int) * p.s0 + (i.i1 : Int) * p.s1 + (i.i2 : Int) * p.s2 + (i.i3 : Int) * p.s3)

/-- The index tuple of a channel token (R222). -/
def chanIdx (seq : Nat) : Idx := ⟨seq % 2 ^ 32, seq / 2 ^ 32 % 2 ^ 32, 0, 0⟩

/-- The bytes of a token in memory (R220). A BF16 token holds lanes already rounded to BF16. -/
def Token.bytes (t : Nat) : Token → List Byte
  | .scalar v => leBytes (tokenSize t) v.toNat
  | .block b => b.bytes (t == 5)
  | .wide v =>
    if t = 7 then (v.toList.map (fun w => leBytes 2 (w.toNat / 2 ^ 16))).flatten
    else (v.toList.map (fun w => leBytes 4 w.toNat)).flatten

/-- A token read from bytes (R220). -/
def tokenFrom (t : Nat) (bs : List Byte) : Token :=
  if t ≤ 3 then .scalar (dwn (leNat (bs.take (tokenSize t))))
  else if t = 4 then .block (blockFrom false bs)
  else if t = 5 then .block (blockFrom true bs)
  else if t = 7 then .wide (Vector.ofFn (fun l => bfWiden (leNat ((bs.drop (2 * l.val)).take 2))))
  else .wide (Vector.ofFn (fun l => BitVec.ofNat 32 (leNat ((bs.drop (4 * l.val)).take 4))))

end Sys2Proof.Machine
end

