-- ==== Sys2Proof/Machine/Operands.lean ====
section
/-! DEFINITION. Operand forms: registers by class, ports as sources and destinations (R33 to R35, R220 to R226), and
effective addresses (R158). -/
namespace Sys2Proof

/-- Whether an operand names a port. -/
def Opnd.isPort {n : Nat} : Opnd n → Bool
  | .reg _ => false
  | .port _ => true

def Opnd.port? {n : Nat} : Opnd n → Option (Fin 8)
  | .reg _ => none
  | .port q => some q

end Sys2Proof

namespace Sys2Proof.Machine

/-- The state while an instruction reads and writes operands, and the tokens it has popped (R34 rule 2). -/
structure Work where
  s : State
  popped : List (Fin 8 × Token)
deriving DecidableEq, Repr

def work (s : State) : Work := ⟨s, []⟩

def Work.hart (w : Work) : Hart := w.s.hart w.s.cur
def Work.modHart (w : Work) (f : Hart → Hart) : Work := { w with s := w.s.modHart w.s.cur f }
def Work.flags (w : Work) (f : Flags) : Work := { w with s := w.s.orFlags w.s.cur f }

/-- Register classes, in the numbering of R35. -/
inductive Cls where
  | x | a | w | p | m | tl
deriving DecidableEq, Repr

def Cls.num : Cls → Nat
  | .x => 0 | .a => 1 | .w => 2 | .p => 3 | .m => 4 | .tl => 5

/-- The token types a class accepts (R34). -/
def Cls.accepts (c : Cls) (t : Nat) : Bool :=
  match c with
  | .x | .p => t ≤ 3
  | .m => t == 2 || t == 3
  | .a => t == 4 || t == 5
  | .w | .tl => t == 6 || t == 7

/-- TTYPE as R35 shows it: 0xF for an unused port. -/
def Port.typeCode (o : Port) : Nat := if o.used then o.ttype else 15

/-- The port word of R35. -/
def portWord (o : Port) (cls fld q : Nat) : DWord :=
  dwn (o.typeCode * 2 ^ 12 + cls * 2 ^ 9 + fld * 2 ^ 4 + b2n o.input * 8 + q)

/-- The next sequence number of a port and its index tuple (R37, R171, R222). -/
def Port.next (o : Port) : Nat × Idx :=
  if o.chan then (o.seq, chanIdx o.seq)
  else
    match o.input, o.queue with
    | true, e :: _ => (e.seq, e.idx)
    | _, _ =>
      match o.cur with
      | some p => (p.pos, if p.pos < p.total then (p.entry p.pos).idx else Idx.zero)
      | none => (o.seq, Idx.zero)

/-- A trap about a port: TINFO0 the next sequence number, TINFO1 the port word (R35). -/
def portTrap (c : Cause) (o : Port) (cls fld q : Nat) : TrapInfo :=
  let n := o.next
  ⟨c, dwn n.1, portWord o cls fld q, dwn n.1, n.2⟩

/-- The entries that stand at a port, a failed token apart (R183, R221). -/
def Port.occ (o : Port) : Nat :=
  if o.input then (o.queue.filter (fun e => match e.item with | .failed _ _ | .trapped _ _ _ | .drain => false | _ => true)).length
  else if o.chan then o.queue.length else o.out.length

def Port.markerAtHead (o : Port) : Bool :=
  match o.queue with
  | e :: _ => (match e.item with | .marker _ => true | .drain => true | _ => false) && o.input
  | [] => false

/-- QOCC (R37). -/
def Port.qocc (o : Port) : DWord := dwn (o.occ % 2 ^ 16 + b2n o.markerAtHead * 2 ^ 16 + b2n o.input * 2 ^ 17)

/-- The channel that one of a stage context's ports is an end of: region, clause, channel number. -/
def State.chanAt (s : State) (p : Nat) (c : Fin 4) (q : Fin 8) (out : Bool) : Option (Nat × Nat × Nat) :=
  match (s.cell p).bound with
  | none => none
  | some (g, n, r) =>
    match s.clauseAt g n with
    | none => none
    | some cl =>
      (cl.chans.findIdx? (fun ch => (if out then ch.src else ch.dst) == End.port r c q)).map (fun i => (g, n, i))

/-- The replica of a handler that a stage context runs: region, clause, its number, itself (R370). -/
def State.replicaOf (s : State) (p : Nat) (c : Fin 4) : Option (Nat × Nat × Nat × Replica) :=
  match (s.cell p).bound with
  | none => none
  | some (g, n, r) =>
    (((s.clauseAt g n).bind (·.plyn)).bind (fun y => y.reps[4 * r + c.val]?)).map (fun x => (g, n, 4 * r + c.val, x))

/-- The handlers of a clause changed. -/
def State.modPlyn (s : State) (g n : Nat) (f : Plyn → Plyn) : State :=
  s.modClause g n (fun cl => { cl with plyn := cl.plyn.map f })

/-- The channel that a replica's next message on an edge takes: the message's number modulo the receiver's replicas
(R370). -/
def Plyn.route (y : Plyn) (i q : Nat) : Option (PChan × Nat) :=
  let chs := y.chans.zipIdx.filter (fun ch => ch.1.src == i && ch.1.slot == q)
  chs[((y.reps[i]?.map (fun r => tget r.sent q 0)).getD 0) % chs.length]?

/-- Whether a channel has no place for a message: its DEPTH is used, or its receiver has not loaded (R209, R226, R370). -/
def Clause.routeFull (cl : Clause) (i q : Nat) : Bool :=
  match cl.plyn.bind (fun y => y.route i q) with
  | some (ch, _) => decide (ch.depth ≤ ch.tokens.length) || !cl.loaded.contains (ch.dst / 4)
  | none => true

/-- A message sent (R370). -/
def Plyn.send (y : Plyn) (i q : Nat) (t : Token) : Plyn :=
  match y.route i q with
  | none => y
  | some (_, j) =>
    { reps := modAt y.reps i (fun r => { r with sent := tset r.sent q (tget r.sent q 0 + 1) })
      chans := modAt y.chans j (fun ch => { ch with tokens := ch.tokens ++ [t] }) }

def State.modChan (s : State) (g n i : Nat) (f : Chan → Chan) : State :=
  s.modClause g n (fun cl => { cl with chans := modAt cl.chans i f })

def State.getChan (s : State) (g n i : Nat) : Option Chan := (s.clauseAt g n).bind (fun cl => cl.chans[i]?)

/-- A slot of a hop frees at its receiver (R226, R230). -/
def Hop.free1 (h : Hop) (cycle : Nat) : Hop :=
  { h with freed := h.freed + 1, firstFreed := match h.firstFreed with | some c => some c | none => some cycle }

/-- The sequence number that follows the head of an input port (R222). -/
def Port.popped (o : Port) : Nat :=
  if o.chan then o.seq + 1
  else
    match o.queue with
    | e :: _ => e.seq + 1
    | [] => o.seq

/-- The head of an input port is taken; a channel's slot frees (R34, R226). -/
def State.popHead (s : State) (a : AgentId) (q : Fin 8) : State :=
  let o := (s.hart a).ports[q]
  let s1 := s.modHart a (fun h =>
    { h with ports := h.ports.set q { o with queue := o.queue.drop 1, seq := o.popped } })
  match a, o.chan with
  | .ctx p c, true =>
    match s.chanAt p c q false with
    | some (g, n, i) =>
      s1.modChan g n i (fun ch => { ch with hops := modAt ch.hops (ch.hops.length - 1) (fun h => h.free1 s.cycle) })
    | none => s1
  | _, _ => s1

/-- The trap of an entry that an instruction cannot take as data (R34, R183, R212, R276). -/
def Port.entryTrap (o : Port) (e : Entry) (cls fld q : Nat) : TrapInfo :=
  match e.item with
  | .failed c addr =>
    let pw := portWord o cls fld q
    if c = .uncorr then ⟨c, addr, dwn (e.seq % 2 ^ 48 * 2 ^ 16 + pw.toNat % 2 ^ 16), 0, Idx.zero⟩
    else ⟨c, dwn e.seq, pw, 0, Idx.zero⟩
  | .trapped c i0 i1 => trapOf c i0 i1
  | _ => portTrap .marker o cls fld q

/-- What stands at the head of a port for an ordinary read by a class (R34). -/
def Port.head (o : Port) (cls : Cls) (fld : Nat) (q : Fin 8) : Res Token :=
  if !o.used || !o.input || !cls.accepts o.ttype then .error (.trap (portTrap .porttype o cls.num fld q.val))
  else
    match o.queue with
    | [] => .error (.hold (.empty q))
    | e :: _ =>
      match e.item with
      | .data t => .ok t
      | _ => .error (.trap (o.entryTrap e cls.num fld q.val))

/-- A register field of an instruction as row 1 of R194 sees it: its class, the port it names, whether it is a destination,
and the format of the block that it takes or gives, where the instruction fixes one. -/
structure Field where
  cls : Cls
  port : Option (Fin 8)
  dst : Bool
  a32 : Option Bool
deriving DecidableEq, Repr

def Cls.src {n : Nat} (c : Cls) (f : Opnd n) : Field := ⟨c, f.port?, false, none⟩
def Cls.dst {n : Nat} (c : Cls) (f : Opnd n) : Field := ⟨c, f.port?, true, none⟩
/-- A field that gives a block of one format. -/
def Field.of (f : Field) (a32 : Bool) : Field := { f with a32 := some a32 }

/-- Row 1 of R194 at one field, whose instruction has the ports of `src` as its other sources: a port of the wrong type or
direction raises PORTTYPE, a marker MARKER (R34), and an empty source port holds. A token that could not be fetched comes
later (row 4). -/
def Field.check (h : Hart) (src : List (Fin 8)) (f : Field) : Res Unit :=
  match f.port with
  | none => .ok ()
  | some q =>
    let o := h.ports[q]
    let way := if f.dst then !o.input || src.contains q else o.input
    if !o.used || !way || !f.cls.accepts o.ttype || f.a32.any (fun t => t != (o.ttype == 5)) then
      .error (.trap (portTrap .porttype o f.cls.num (24 + q.val) q.val))
    else if f.dst then .ok ()
    else
      match o.queue with
      | [] => .error (.hold (.empty q))
      | e :: _ =>
        match e.item with
        | .marker _ | .drain => .error (.trap (o.entryTrap e f.cls.num (24 + q.val) q.val))
        | _ => .ok ()

def checkAll (h : Hart) (src : List (Fin 8)) : List Field → Res Unit
  | [] => .ok ()
  | f :: r => do
    f.check h src
    checkAll h src r

/-- The ports that an instruction names are looked at before any of them is popped (R34, R194); the operands of one that
is finished after its issue have been (R47). -/
def fields (s : State) (l : List Field) : Res Work :=
  let h := s.hart s.cur
  if h.capt.isSome then .ok (work s)
  else (checkAll h (l.filterMap (fun f => if f.dst then none else f.port)) l).map (fun _ => work s)

/-- A token popped from a port for a register field; a port named twice gives the same token (R34). -/
def readPort (w : Work) (cls : Cls) (fld : Nat) (q : Fin 8) : Res (Token × Work) :=
  match w.popped.find? (fun e => e.1 == q) with
  | some (_, t) =>
    let o := (w.s.hart w.s.cur).ports[q]
    if cls.accepts o.ttype then .ok (t, w) else .error (.trap (portTrap .porttype o cls.num fld q.val))
  | none => do
    let t ← ((w.s.hart w.s.cur).ports[q]).head cls fld q
    pure (t, ⟨w.s.popHead w.s.cur q, (q, t) :: w.popped⟩)

def Token.scalarVal : Token → DWord
  | .scalar v => v
  | _ => 0
def Token.blockVal : Token → Block
  | .block b => b
  | _ => Block.zero
def Token.wideVal : Token → Wide
  | .wide v => v
  | _ => Wide.zero

/-- A register with an uncorrectable error raises UNCORR at its reader (R276). -/
def badReg (h : Hart) (cls n : Nat) : Res Unit :=
  if h.badRegs.contains (cls * 256 + n) then .error (.trap (regTrap cls n)) else .ok ()

/-- The captured operand in slot `i` while a frame entry is replayed (R47, R48). -/
def Hart.slot (h : Hart) (i : Nat) : Option (List Byte) := h.capt.map (fun c => c.slots.getD i [])

/-- A register that a replayed frame entry reads is looked at too (R272). -/
def Hart.frameReg {n : Nat} (h : Hart) (cls : Nat) (f : Opnd n) : Res Unit :=
  match h.capt, f with
  | some c, .reg r => if c.frame then badReg h cls r.val else .ok ()
  | _, _ => .ok ()

/-- x registers read 64 bits; x0 reads as 0 (R31). `i` is the operand's slot in a replayed entry. -/
def readX (w : Work) (i : Nat) (f : XOp) : Res (DWord × Work) :=
  match w.hart.slot i with
  | some bs => (w.hart.frameReg 0 f).map (fun _ => (dwn (leNat (bs.take 8)), w))
  | none =>
    match f with
    | .reg r => do
      badReg w.hart 0 r.val
      pure (if r = 0 then 0 else w.hart.x[r], w)
    | .port q => do
      let (t, w) ← readPort w .x (24 + q.val) q
      pure (t.scalarVal, w)

def readA (w : Work) (i : Nat) (f : AOp) : Res (Block × Work) :=
  match w.hart.slot i with
  | some bs => (w.hart.frameReg 1 f).map (fun _ => (⟨BitVec.ofNat 160 (leNat (bs.take 20)), bs.getD 95 0 != 0⟩, w))
  | none =>
    match f with
    | .reg r => do
      badReg w.hart 1 r.val
      pure (w.hart.a[r], w)
    | .port q => do
      let (t, w) ← readPort w .a (24 + q.val) q
      pure (t.blockVal, w)

/-- A wide value from 96 bytes of a slot. -/
def wideFrom (bs : List Byte) : Wide := Vector.ofFn (fun l => BitVec.ofNat 32 (leNat ((bs.drop (4 * l.val)).take 4)))

def readW (w : Work) (i : Nat) (f : WOp) : Res (Wide × Work) :=
  match w.hart.slot i with
  | some bs => (w.hart.frameReg 2 f).map (fun _ => (wideFrom bs, w))
  | none =>
    match f with
    | .reg r => do
      badReg w.hart 2 r.val
      pure (w.hart.w[r], w)
    | .port q => do
      let (t, w) ← readPort w .w (24 + q.val) q
      pure (t.wideVal, w)

def readP (w : Work) (i : Nat) (f : POp) : Res (Bool × Work) :=
  match w.hart.slot i with
  | some bs => (w.hart.frameReg 3 f).map (fun _ => (bitOf (leNat (bs.take 8)) 0, w))
  | none =>
    match f with
    | .reg r => do
      badReg w.hart 3 r.val
      pure (r = 0 || w.hart.p[r], w)
    | .port q => do
      let (t, w) ← readPort w .p (24 + q.val) q
      pure (t.scalarVal.getLsbD 0, w)

def readM (w : Work) (i : Nat) (f : MOp) : Res (Mask × Work) :=
  match w.hart.slot i with
  | some bs => (w.hart.frameReg 4 f).map (fun _ => (BitVec.ofNat 24 (leNat (bs.take 8)), w))
  | none =>
    match f with
    | .reg r => do
      badReg w.hart 4 r.val
      pure (w.hart.m[r], w)
    | .port q => do
      let (t, w) ← readPort w .m (24 + q.val) q
      pure (BitVec.ofNat 24 t.scalarVal.toNat, w)

def readTl (w : Work) (i : Nat) (f : TOp) : Res (Wide × Work) :=
  match w.hart.slot i with
  | some bs => (w.hart.frameReg 5 f).map (fun _ => (wideFrom bs, w))
  | none =>
    match f with
    | .reg r => do
      badReg w.hart 5 r.val
      pure (w.hart.tl[r], w)
    | .port q => do
      let (t, w) ← readPort w .tl (24 + q.val) q
      pure (t.wideVal, w)

/-! ### Addresses -/

/-- Where an effective address lies: a cell store, or an extent and an offset. -/
inductive Site where
  | store (p off : Nat)
  | ext (e : Extent) (off : Nat)
deriving DecidableEq, Repr

/-- The address checks of R158, in their order. -/
def checkAddr (s : State) (a : AgentId) (v : DWord) (size align : Nat) (write fe : Bool) : Res Site :=
  let n := v.toNat
  let o := fld n 39 0
  if 2 ^ 48 ≤ n then .error (.trap (trapOf .bounds v 0))
  else if n % align ≠ 0 then .error (.trap (trapOf .align v (dwn align)))
  else if fld n 47 40 = 0 then
    match a with
    | .cond _ => .error (.trap (trapOf .bounds v 0))
    | .ctx p _ =>
      if 0x80000 < o + size then .error (.trap (trapOf .bounds v 0x80000)) else .ok (.store p o)
  else
    match s.extentNo a (fld n 47 40) with
    | none => .error (.trap (trapOf .bounds v 0))
    | some e =>
      if e.len < o + size then .error (.trap (trapOf .bounds v (dwn e.len)))
      else if write && !e.rw then .error (.trap (trapOf .bounds v (dwn (2 ^ 63 + e.len))))
      else if fe && !e.fe then .error (.trap (trapOf .bounds v (dwn (2 ^ 62 + e.len))))
      else .ok (.ext e o)

/-! ### The checks of deterministic mode (R249, R251) -/

/-- Whether two ranges of addresses meet. -/
def overlap (a n b m : Nat) : Bool := a < b + m && b < a + n

/-- Cell-store bytes that another context has issued and not written: that context (R249). -/
def Cell.unwrittenBy (x : Cell) (c : Fin 4) (off n : Nat) : Option (Fin 4) :=
  let byMst := (x.msts.find? (fun m => m.ctx != c && m.rows.any (fun r => overlap r.1 r.2.length off n))).map (·.ctx)
  match byMst with
  | some d => some d
  | none =>
    (List.finRange 4).find? (fun d =>
      d != c && x.ctx[d].ports.toList.any (fun o => !o.input && !o.chan &&
        o.out.any (fun t => t.addr.toNat < 2 ^ 40 && (List.range (tokenSize o.ttype)).any (fun i =>
          !t.put.contains i && decide (off ≤ t.addr.toNat + i) && decide (t.addr.toNat + i < off + n)))))

/-- RACE in deterministic mode (R249, R251). -/
def raceCheck (s : State) (a : AgentId) (site : Site) (v : DWord) (n : Nat) : Res Unit :=
  if (s.hart a).det = false then .ok ()
  else
    match a, site with
    | .ctx p c, .store _ off =>
      match (s.cell p).unwrittenBy c off n with
      | some d => .error (.trap (trapOf .race v (dwn d.val)))
      | none => .ok ()
    | .ctx p _, .ext e _ =>
      match (s.cell p).bound with
      | some (q, cn, r) =>
        match ((s.clauseAt q cn).bind (fun cl => cl.binds.find? (fun b => b.1 == e.idx))) with
        | some (_, r') => if r' = r then .ok () else .error (.trap (trapOf .race v (dwn (2 ^ 32 + r'))))
        | none => .ok ()
      | none => .ok ()
    | .cond _, _ => .ok ()

/-- The first access of a clause to a writable extent binds it to the role (R251). -/
def bindExtent (s : State) (a : AgentId) (site : Site) : State :=
  match a, site with
  | .ctx p c, .ext e _ =>
    if (s.cell p).ctx[c].det && e.rw then
      match (s.cell p).bound with
      | some (q, n, r) =>
        s.modClause q n (fun cl =>
          if cl.binds.any (fun b => b.1 == e.idx) then cl else { cl with binds := cl.binds ++ [(e.idx, r)] })
      | none => s
    else s
  | _, _ => s

/-- The write window of deterministic mode (R249): the first of the given bytes outside it. -/
def windowCheck (s : State) (a : AgentId) (site : Site) (n : Nat) : Res Unit :=
  let h := s.hart a
  match site with
  | .store _ off =>
    if h.det = false ∨ h.wlen = 0 then .ok ()
    else if off < h.woff then .error (.trap (trapOf .bounds (dwn off) (dwn (2 ^ 61 + h.wlen))))
    else if h.woff + h.wlen < off + n then
      .error (.trap (trapOf .bounds (dwn (max off (h.woff + h.wlen))) (dwn (2 ^ 61 + h.wlen))))
    else .ok ()
  | .ext _ _ => .ok ()

/-! ### Destinations -/

/-- A token as a port of type `t` holds it: low bits of a scalar; lanes rounded to BF16 (R34). A signalling NaN lane sets INV
there as in a conversion of R26; R104 names UNF and OVF alone (DEDUCED, log entry 58). -/
def tokenFor (t : Nat) : Token → Token × Flags
  | .scalar v => (.scalar (dwn (v.toNat % 2 ^ (8 * tokenSize t))), 0)
  | .block b => (.block b, 0)
  | .wide v =>
    if t = 7 then
      let r := lanesOf (fun l => let n := bfNarrow v[l]; (BitVec.ofNat 32 (n.1 * 2 ^ 16), n.2))
      (.wide r.1, r.2)
    else (.wide v, 0)

/-- Whether a port may take a push of a class: an output port, or an input port that the same instruction has popped
(R34 rule 3). A port of the wrong direction raises PORTTYPE, which the manual says only for other instructions
(log entry 59). -/
def Work.mayPush (w : Work) (cls : Cls) (q : Fin 8) : Bool :=
  let o := w.hart.ports[q]
  o.used && (!o.input || w.hart.capt.isSome || w.popped.any (fun e => e.1 == q)) && cls.accepts o.ttype

/-- A slot of a hop that a pop has freed is taken again. -/
def Hop.take1 (h : Hop) : Hop := { h with freed := h.freed - 1, firstFreed := if h.freed ≤ 1 then none else h.firstFreed }

/-- The entry that a push adds behind the queue of an input port (R34 rule 3, log entry 59). -/
def Port.pushedBack (o : Port) (t : Token) : Port :=
  let n := match o.queue.getLast? with | some e => e.seq + 1 | none => o.seq
  { o with queue := o.queue ++ [⟨.data t, n, if o.chan then chanIdx n else Idx.zero, 0⟩] }

/-- A result pushed to the input port that the instruction popped: it joins that port's own queue, in the slot that the
pop freed (R34 rule 3). -/
def pushBack (w : Work) (q : Fin 8) (t : Token) : Work :=
  let o := w.hart.ports[q]
  let s1 := w.s.modHart w.s.cur (fun h => { h with ports := h.ports.set q (o.pushedBack t) })
  match w.s.cur, o.chan with
  | .ctx p c, true =>
    match w.s.chanAt p c q false with
    | some (g, n, i) =>
      { w with s := s1.modChan g n i (fun ch => { ch with hops := modAt ch.hops (ch.hops.length - 1) Hop.take1 }) }
    | none => { w with s := s1 }
  | _, _ => { w with s := s1 }

/-- The address that the next token of an output pattern port goes to, checked (R183); none where it goes to no address. -/
def Port.pushSite (o : Port) (s : State) (a : AgentId) (cls f q : Nat) : Res (Option (DWord × Site)) :=
  match o.cur with
  | none => .ok none
  | some pat =>
    if o.chan || o.input || decide (pat.total ≤ pat.pos) then .ok none
    else
      let v := pat.addr (pat.entry pat.pos).idx
      match checkAddr s a v (tokenSize o.ttype) (tokenAlign o.ttype) true false with
      | .error (.trap t) | .error (.bad _ t) => .error (.trap ⟨t.cause, dwn pat.pos, portWord o cls f q, 0, Idx.zero⟩)
      | .error e => .error e
      | .ok site => .ok (some (v, site))

/-- Whether a clause before the one that a cell serves is not released (R216). -/
def State.clauseBefore (s : State) (p : Nat) : Bool :=
  match (s.cell p).bound with
  | some (q, n, _) => ((s.region q).map (fun r => r.clauses.any (fun c => decide (c.num < n)))).getD false
  | none => false

/-- The accesses of a clause to extents hold until the clause before it is released (R216); its stores too, which come after
every store of that clause (R250, log entry 75). -/
def orderHeld (s : State) (a : AgentId) : Site → Bool
  | .store _ _ => false
  | .ext _ _ =>
    match a with
    | .ctx p _ => s.clauseBefore p
    | .cond _ => false

/-- The checks of the next token of an output pattern port: its address (R183), and in deterministic mode those of the
store that it is (R224, R249, R251; log entry 23); it holds while a clause before is not released (R216, R250). -/
def Port.pushCheck (o : Port) (s : State) (a : AgentId) (cls f q : Nat) : Res Unit := do
  match ← o.pushSite s a cls f q with
  | none => pure ()
  | some (v, site) => do
    windowCheck s a site (tokenSize o.ttype)
    raceCheck s a site v (tokenSize o.ttype)
    if orderHeld s a site then throw (.hold .clauseOrder)

/-- The extent that a pushed token goes to is bound (R251). -/
def Port.pushBind (o : Port) (s : State) (a : AgentId) : State :=
  match o.pushSite s a 0 0 0 with
  | .ok (some (_, site)) => bindExtent s a site
  | _ => s

/-- The replica whose handler executes (R370). -/
def Work.replica (w : Work) : Option (Nat × Nat × Nat × Replica) :=
  match w.s.cur with
  | .ctx p c => w.s.replicaOf p c
  | .cond _ => none

/-- Whether an output port has no place for one more token (R225, R226); a handler's port names an edge (R370). -/
def Work.full (w : Work) (q : Fin 8) : Bool :=
  let o := w.hart.ports[q]
  if o.input then false
  else if let some (g, n, i, _) := w.replica then ((w.s.clauseAt g n).map (fun cl => cl.routeFull i q.val)).getD true
  else if o.chan then
    match w.s.cur with
    | .cond _ => false
    | .ctx p c =>
      match w.s.chanAt p c q true with
      | none => true
      | some (g, n, i) => (((w.s.getChan g n i).bind (fun ch => ch.hops.head?.map (·.free))).getD 0) == 0
  else
    match o.cur with
    | none => true
    | some pat => decide (pat.total ≤ pat.pos)

/-- A token joins an output port: its channel's first hop takes it, or it goes to the pattern's next address, or it is a
handler's message. -/
def pushOut (w : Work) (p : Nat) (c : Fin 4) (q : Fin 8) (r : Token × Flags) : Res Work :=
  let o := w.hart.ports[q]
  if let some (g, n, i, _) := w.replica then
    let s1 := w.s.modHart w.s.cur (fun h => { h with ports := h.ports.set q { o with seq := o.seq + 1 } })
    .ok ({ w with s := s1.modPlyn g n (fun y => y.send i q.val r.1) }.flags r.2)
  else if o.chan then
    match w.s.chanAt p c q true with
    | none => .error (.hold (.full q))
    | some (g, n, i) =>
      let o' := { o with queue := o.queue ++ [⟨.data r.1, o.seq, chanIdx o.seq, 0⟩], seq := o.seq + 1 }
      let s1 := w.s.modHart w.s.cur (fun h => { h with ports := h.ports.set q o' })
      let s2 := s1.modChan g n i (fun ch =>
        { ch with pushed := ch.pushed + 1, hops := modAt ch.hops 0 (fun h => { h with free := h.free - 1 }) })
      .ok ({ w with s := s2 }.flags r.2)
  else
    match o.cur with
    | none => .error (.hold (.full q))
    | some pat =>
      let pat' := { pat with pos := pat.pos + 1 }
      let o' := { o with
        out := o.out ++ [⟨pat.addr (pat.entry pat.pos).idx, r.1, (w.s.cell p).ord, []⟩], cur := some pat', seq := pat'.pos }
      let s1 := w.s.modHart w.s.cur (fun h => { h with ports := h.ports.set q o' })
      let s2 := s1.modCell p (fun x => { x with ord := x.ord + 1 })
      .ok ({ w with s := s2 }.flags r.2)

/-- A token pushed to a port (R34, R35, R183, R225, R226). -/
def pushPort (w : Work) (cls : Cls) (f : Nat) (q : Fin 8) (t : Token) : Res Work :=
  let o := w.hart.ports[q]
  let tagBad := match t with | .block b => b.a32 != (o.ttype == 5) | _ => false
  if !w.mayPush cls q || tagBad then .error (.trap (portTrap .porttype o cls.num f q.val))
  else
    let r := tokenFor o.ttype t
    match w.s.cur with
    | .cond _ => .error (.trap (portTrap .porttype o cls.num f q.val))
    | .ctx p c =>
      if o.input then .ok ((pushBack w q r.1).flags r.2)
      else if w.full q then .error (.hold (.full q))
      else do
        o.pushCheck w.s w.s.cur cls.num f q.val
        pushOut { w with s := o.pushBind w.s w.s.cur } p c q r

/-- A register written is no longer uncorrectable. -/
def Hart.cured (h : Hart) (cls n : Nat) : Hart := { h with badRegs := h.badRegs.filter (· != cls * 256 + n) }

/-- x registers written; a write to x0 is discarded (R31). -/
def writeX (w : Work) (f : XOp) (v : DWord) : Res Work :=
  match f with
  | .reg r => .ok (if r = 0 then w else w.modHart (fun h => { h.cured 0 r.val with x := h.x.set r v }))
  | .port q => pushPort w .x (24 + q.val) q (.scalar v)

def writeA (w : Work) (f : AOp) (v : Block) : Res Work :=
  match f with
  | .reg r => .ok (w.modHart (fun h => { h.cured 1 r.val with a := h.a.set r v }))
  | .port q => pushPort w .a (24 + q.val) q (.block v)

def writeW (w : Work) (f : WOp) (v : Wide) : Res Work :=
  match f with
  | .reg r => .ok (w.modHart (fun h => { h.cured 2 r.val with w := h.w.set r v }))
  | .port q => pushPort w .w (24 + q.val) q (.wide v)

/-- p registers written; a write to p0 is discarded (R31). -/
def writeP (w : Work) (f : POp) (v : Bool) : Res Work :=
  match f with
  | .reg r => .ok (if r = 0 then w else w.modHart (fun h => { h.cured 3 r.val with p := h.p.set r v }))
  | .port q => pushPort w .p (24 + q.val) q (.scalar (dwn (b2n v)))

def writeM (w : Work) (f : MOp) (v : Mask) : Res Work :=
  match f with
  | .reg r => .ok (w.modHart (fun h => { h.cured 4 r.val with m := h.m.set r v }))
  | .port q => pushPort w .m (24 + q.val) q (.scalar (dwn v.toNat))

def writeTl (w : Work) (f : TOp) (v : Wide) : Res Work :=
  match f with
  | .reg r => .ok (w.modHart (fun h => { h.cured 5 r.val with tl := h.tl.set r v }))
  | .port q => pushPort w .tl (24 + q.val) q (.wide v)

/-- The end of an operand sequence. -/
def Work.out (r : Res Work) : Res State := r.map (·.s)

/-- A destination port is looked at before the access is tried: one that cannot take the class raises PORTTYPE (R194), one
without a place holds (R49). -/
def dstOk {n : Nat} (w : Work) (cls : Cls) (f : Opnd n) : Res Unit :=
  match f with
  | .reg _ => .ok ()
  | .port q =>
    if !w.mayPush cls q then .error (.trap (portTrap .porttype w.hart.ports[q] cls.num (24 + q.val) q.val))
    else if w.full q then .error (.hold (.full q))
    else .ok ()

/-- The address of the token that a destination port would write, checked after the address of the access (R194). -/
def dstAddr {n : Nat} (w : Work) (cls : Cls) (f : Opnd n) : Res Unit :=
  match f with
  | .reg _ => .ok ()
  | .port q => w.hart.ports[q].pushCheck w.s w.s.cur cls.num (24 + q.val) q.val

/-- Rows 1 to 4 of R194 for an access with a destination: its port, the address of the access, the address of the token
that the port would write. -/
def dstThen {n : Nat} (w : Work) (cls : Cls) (f : Opnd n) (v : DWord) (size align : Nat) (write fe : Bool) : Res Unit := do
  dstOk w cls f
  if f.isPort then
    let _ ← checkAddr w.s w.s.cur v size align write fe
    dstAddr w cls f
  else pure ()

/-- Whether the next token of a source port could not be fetched: that trap comes after the checks of the access's own
address (R183, R194). -/
def Work.lateSource {n : Nat} (w : Work) (cls : Cls) (f : Opnd n) : Bool :=
  match f with
  | .reg _ => false
  | .port q =>
    let o := w.hart.ports[q]
    o.used && o.input && cls.accepts o.ttype && !w.popped.any (fun e => e.1 == q) &&
      (match o.queue with | e :: _ => (match e.item with | .failed _ _ | .trapped _ _ _ => true | _ => false) | [] => false)

/-- The checks of an access's address come before a source whose token could not be fetched (R194). -/
def addrFirst {n : Nat} (w : Work) (cls : Cls) (f : Opnd n) (v : DWord) (size align : Nat) (fe : Bool) : Res Unit :=
  if w.lateSource cls f then (checkAddr w.s w.s.cur v size align true fe).map (fun _ => ()) else .ok ()

end Sys2Proof.Machine
end

