-- ==== Sys2Proof/Machine/Atom.lean ====
section
/-! DEFINITION. The atom instructions (spec/05 R104 to R113). -/
namespace Sys2Proof.Machine

/-- OperandBlock (R105): a malformed operand traps under MTRAP, else it sets MAL. -/
def operandBlock (w : Work) (i : Nat) (f : AOp) : Res (Block × Work) := do
  let (b, w) ← readA w i f
  match b.malformed with
  | none => pure (b, w)
  | some (j, raw) =>
    if w.hart.mtrap then throw (.trap (trapOf .malatom (dwn (j + f.field * 8)) (dwn raw)))
    else pure (b, w.flags fMal)

/-- dec (R106). -/
def execDec (rd : WOp) (ra : AOp) (pg : Pg) (s : State) : Out :=
  governed pg 4 (fun s => Work.out do
    let w ← fields s [Cls.a.src ra, Cls.w.dst rd]
    let (b, w) ← operandBlock w 0 ra
    let r := packLanes b.lanes
    writeW (w.flags r.2) rd r.1) s

/-- Encoding by the search (R107). -/
def enc (rd : AOp) (ra : WOp) (a32 : Bool) (pg : Pg) (s : State) : Out :=
  governed pg 4 (fun s => Work.out do
    let w ← fields s [Cls.w.src ra, (Cls.a.dst rd).of a32]
    let (x, w) ← readW w 0 ra
    let r := searchWide x.toList a32
    writeA (w.flags r.2) rd r.1) s

/-- enc.a4 (R107). -/
def execEncA4 (rd : AOp) (ra : WOp) (pg : Pg) (s : State) : Out := enc rd ra false pg s
/-- enc.a32 (R107). -/
def execEncA32 (rd : AOp) (ra : WOp) (pg : Pg) (s : State) : Out := enc rd ra true pg s

/-- Encoding with error feedback (R17, R107): block and tailings are written together. -/
def enctInstr (rd : AOp) (ra : WOp) (rb : TOp) (a32 : Bool) (pg : Pg) (s : State) : Out :=
  governed pg 4 (fun s => Work.out do
    let w ← fields s [Cls.w.src ra, Cls.tl.src rb, (Cls.a.dst rd).of a32, Cls.tl.dst rb]
    let (x, w) ← readW w 0 ra
    let (t, w) ← readTl w 1 rb
    let r := enct x t a32
    let w ← writeA (w.flags r.2.2) rd r.1
    writeTl w rb r.2.1) s

/-- enct.a4 (R17). -/
def execEnctA4 (rd : AOp) (ra : WOp) (rb : TOp) (pg : Pg) (s : State) : Out := enctInstr rd ra rb false pg s
/-- enct.a32 (R17). -/
def execEnctA32 (rd : AOp) (ra : WOp) (rb : TOp) (pg : Pg) (s : State) : Out := enctInstr rd ra rb true pg s

/-- Exact sum or difference of two blocks, searched once (R18, R108). -/
def addBlocks (rd ra rb : AOp) (neg a32 : Bool) (pg : Pg) (s : State) : Out :=
  governed pg 4 (fun s => Work.out do
    let w ← fields s [Cls.a.src ra, Cls.a.src rb, (Cls.a.dst rd).of a32]
    let (a, w) ← operandBlock w 0 ra
    let (b, w) ← operandBlock w 1 rb
    let r := if a.isNan || b.isNan then (nanBlock a32, fInv)
      else searchExact (List.zipWith (fun x y => if neg then x - y else x + y) a.dec b.dec) a32
    writeA (w.flags r.2) rd r.1) s

/-- aadd.a4 (R108). -/
def execAaddA4 (rd ra rb : AOp) (pg : Pg) (s : State) : Out := addBlocks rd ra rb false false pg s
/-- aadd.a32 (R108). -/
def execAaddA32 (rd ra rb : AOp) (pg : Pg) (s : State) : Out := addBlocks rd ra rb false true pg s
/-- asub.a4 (R108). -/
def execAsubA4 (rd ra rb : AOp) (pg : Pg) (s : State) : Out := addBlocks rd ra rb true false pg s
/-- asub.a32 (R108). -/
def execAsubA32 (rd ra rb : AOp) (pg : Pg) (s : State) : Out := addBlocks rd ra rb true true pg s

/-- arelu (R19, R108). -/
def execArelu (rd ra : AOp) (pg : Pg) (s : State) : Out :=
  governed pg 4 (fun s => Work.out do
    let w ← fields s [Cls.a.src ra, Cls.a.dst rd]
    let (a, w) ← operandBlock w 0 ra
    let r := if a.isNan then (nanBlock a.a32, fInv) else searchExact (a.dec.map (fun x => if 0 < x then x else 0)) a.a32
    writeA (w.flags r.2) rd r.1) s

/-- amsk (R19, R108). -/
def execAmsk (rd ra : AOp) (rb : MOp) (pg : Pg) (s : State) : Out :=
  governed pg 4 (fun s => Work.out do
    let w ← fields s [Cls.a.src ra, Cls.m.src rb, Cls.a.dst rd]
    let (a, w) ← operandBlock w 0 ra
    let (m, w) ← readM w 1 rb
    let r := if a.isNan then (nanBlock a.a32, fInv)
      else searchExact (a.dec.zipIdx.map (fun x => if m.getLsbD x.2 then x.1 else 0)) a.a32
    writeA (w.flags r.2) rd r.1) s

/-- aneg (R20, R109). -/
def execAneg (rd ra : AOp) (pg : Pg) (s : State) : Out :=
  governed pg 4 (fun s => Work.out do
    let w ← fields s [Cls.a.src ra, Cls.a.dst rd]
    let (a, w) ← operandBlock w 0 ra
    writeA w rd a.neg) s

/-- ascl (R21, R109). -/
def execAscl (rd ra : AOp) (rb : XOp) (pg : Pg) (s : State) : Out :=
  governed pg 4 (fun s => Work.out do
    let w ← fields s [Cls.a.src ra, Cls.x.src rb, Cls.a.dst rd]
    let (a, w) ← operandBlock w 0 ra
    let (x, w) ← readX w 1 rb
    let r := a.scale x.toInt
    writeA (w.flags r.2) rd r.1) s

/-- adot (R110). -/
def execAdot (rd : XOp) (ra rb : AOp) (pg : Pg) (s : State) : Out :=
  governed pg 4 (fun s => Work.out do
    let w ← fields s [Cls.a.src ra, Cls.a.src rb, Cls.x.dst rd]
    let (a, w) ← operandBlock w 0 ra
    let (b, w) ← operandBlock w 1 rb
    let r := a.dot b
    writeX (w.flags r.2) rd (dwn r.1.toNat)) s

/-- amov (R111). -/
def execAmov (rd ra : AOp) (pg : Pg) (s : State) : Out :=
  governed pg 4 (fun s => Work.out do
    let w ← fields s [Cls.a.src ra, Cls.a.dst rd]
    let (a, w) ← readA w 0 ra
    writeA w rd a) s

/-- aget (R112). -/
def execAget (rd : XOp) (ra : AOp) (rb : XOp) (pg : Pg) (s : State) : Out :=
  governed pg 4 (fun s => Work.out do
    let w ← fields s [Cls.a.src ra, Cls.x.src rb, Cls.x.dst rd]
    let (a, w) ← readA w 0 ra
    let (x, w) ← readX w 1 rb
    writeX w rd (dwn (a.getField (x.toNat % 8)))) s

/-- aset (R112): rd is read as well as written. -/
def execAset (rd : AOp) (ra rb : XOp) (pg : Pg) (s : State) : Out :=
  governed pg 4 (fun s => Work.out do
    let w ← fields s [Cls.x.src ra, Cls.x.src rb, Cls.a.src rd, Cls.a.dst rd]
    let (d, w) ← readX w 0 ra
    let (x, w) ← readX w 1 rb
    let (v, w) ← readA w 2 rd
    writeA w rd (v.setField (x.toNat % 8) d.toNat)) s

/-- Conversion between formats (R22, R108). -/
def acvt (rd ra : AOp) (a32 : Bool) (pg : Pg) (s : State) : Out :=
  governed pg 4 (fun s => Work.out do
    let w ← fields s [Cls.a.src ra, (Cls.a.dst rd).of a32]
    let (a, w) ← operandBlock w 0 ra
    let r := if a.isNan then (nanBlock a32, if a.a32 = a32 then 0 else fInv)
      else if a.a32 = a32 ∧ a.malformed = none then (a, 0)
      else searchExact a.dec a32
    writeA (w.flags r.2) rd r.1) s

/-- acvt.a4 (R108). -/
def execAcvtA4 (rd ra : AOp) (pg : Pg) (s : State) : Out := acvt rd ra false pg s
/-- acvt.a32 (R108). -/
def execAcvtA32 (rd ra : AOp) (pg : Pg) (s : State) : Out := acvt rd ra true pg s

end Sys2Proof.Machine
end

