-- ==== Sys2Proof/Machine/Csr.lean ====
section
/-! DEFINITION. The CSR map and its access rules (R37 to R45, R86, R87, R155, R244). -/
namespace Sys2Proof.Machine

/-- W0 of an instruction, as trap registers report it. -/
def w0Of (i : Instr) : DWord := dwn ((encode i).headD 0)

/-- Access classes (R38). -/
inductive CsrAccess where
  | ro | t | rw
deriving DecidableEq, Repr

/-- The class of a CSR number for a kind of agent; none when the map does not list it (R37). -/
def csrAccess (cond : Bool) (n : Nat) : Option CsrAccess :=
  if n = 0x000 ∨ (0x002 ≤ n ∧ n ≤ 0x007) ∨ n = 0x080 then some .ro
  else if n = 0x010 ∨ n = 0x011 ∨ n = 0x017 then some .rw
  else if 0x012 ≤ n ∧ n ≤ 0x016 then some .t
  else if n = 0x018 then (if cond then some .rw else none)
  else if cond then none
  else if n = 0x001 ∨ n = 0x020 ∨ n = 0x060 then some .rw
  else if n = 0x021 ∨ (0x040 ≤ n ∧ n ≤ 0x04F) ∨ n = 0x061 then some .ro
  else none

/-- MSTAT (R155). -/
def mstatWord (c : Cell) : DWord :=
  let busy (t : Nat) : Nat := b2n (c.ops.any (fun o => o.tile.val == t))
  let cnt (k : Nat) : Nat := (c.ops.filter (fun o => o.cls.val == k)).length
  dwn (min c.stalls 65535 + cnt 0 * 2 ^ 16 + cnt 1 * 2 ^ 19 + cnt 2 * 2 ^ 22 + cnt 3 * 2 ^ 25
    + busy 0 * 2 ^ 28 + busy 1 * 2 ^ 29 + busy 2 * 2 ^ 30 + busy 3 * 2 ^ 31
    + c.nextTag.toNat * 2 ^ 32 + c.budget * 2 ^ 48)

/-- SEAMCAL (R244): the next refresh window, that of this cycle unless it has started. -/
def seamcalWord (s : State) (a : AgentId) : DWord :=
  let k := s.cycle / s.per
  let n := if s.cycle % s.per = 0 ∧ s.windows.all (fun w => w.2 != s.cycle) then k else k + 1
  dwn (s.per + 200 * 2 ^ 16 + n % 16 * 2 ^ 24 + a.die * 2 ^ 30 + n * s.per % 2 ^ 32 * 2 ^ 32)

/-- A CSR's value as of issue. -/
def csrRead (s : State) (a : AgentId) (n : Nat) : DWord :=
  let h := s.hart a
  let port (i : Nat) : Port := h.ports[i % 8]'(Nat.mod_lt _ (by decide))
  match n with
  | 0x000 => statusWord a h
  | 0x001 => dwn h.fps.toNat
  | 0x002 => dwn h.repc.toNat
  | 0x003 => dwn (h.roleIdx.toNat + h.roleNum.toNat * 2 ^ 16)
  | 0x004 => if a.isCond then 0 else dwn h.iter.toNat
  | 0x005 => dwn h.clause.toNat
  | 0x006 => dwn s.cycle
  | 0x007 => dwn h.dmode.toNat
  | 0x010 => h.tvec
  | 0x011 => h.evec
  | 0x012 => h.tcause
  | 0x013 => h.tinfo0
  | 0x014 => h.tinfo1
  | 0x015 => h.tpc
  | 0x016 => h.tstat
  | 0x017 => h.tframe
  | 0x018 => h.fvec
  | 0x020 => dwn h.wgt.toNat
  | 0x021 => h.pass
  | 0x060 => (match a with | .ctx p _ => dwn (s.cell p).mbud.toNat | .cond _ => 0)
  | 0x061 => (match a with | .ctx p _ => mstatWord (s.cell p) | .cond _ => 0)
  | 0x080 => seamcalWord s a
  | n => if n < 0x048 then (port n).qocc else dwn (port n).next.1

/-- Whether a value keeps the res0 bits of a writable CSR zero and its field rules (R37 to R45). -/
def csrLegal (s : State) (a : AgentId) (n : Nat) (v : DWord) : Bool :=
  let w := v.toNat
  match n with
  | 0x001 => w < 2 ^ 5
  | 0x010 | 0x011 | 0x018 => w < 2 ^ 48 && w % 4 == 0
  | 0x012 => w < 2 ^ 8
  | 0x016 => w < 2 ^ 11 && fld w 7 4 == 0
  | 0x017 =>
    if a.isCond then
      w < 2 ^ 48 && w % 2 ^ 12 == 0 &&
        (match (s.regionOf a).bind s.region with
          | some r =>
            fld w 47 40 == r.lext &&
              (match s.extentNo a r.lext with
                | some e => fld w 39 0 + 4096 ≤ e.len
                | none => false)
          | none => false)
    else w < 2 ^ 19 && w % 2 ^ 12 == 0
  | 0x020 | 0x060 => w < 2 ^ 16
  | _ => true

/-- A weight within its clamp (R44). -/
def Hart.clampW (h : Hart) (v : Int) : BitVec 16 := BitVec.ofInt 16 (clampI v h.wmin.toNat h.wmax.toNat)

/-- A CSR written. -/
def csrWrite (s : State) (a : AgentId) (n : Nat) (v : DWord) : State :=
  match n with
  | 0x001 => s.modHart a (fun h => { h with fps := BitVec.ofNat 5 v.toNat })
  | 0x010 => s.modHart a (fun h => { h with tvec := v })
  | 0x011 => s.modHart a (fun h => { h with evec := v })
  | 0x012 => s.modHart a (fun h => { h with tcause := v })
  | 0x013 => s.modHart a (fun h => { h with tinfo0 := v })
  | 0x014 => s.modHart a (fun h => { h with tinfo1 := v })
  | 0x015 => s.modHart a (fun h => { h with tpc := v })
  | 0x016 => s.modHart a (fun h => { h with tstat := v })
  | 0x017 => s.modHart a (fun h => { h with tframe := v })
  | 0x018 => s.modHart a (fun h => { h with fvec := v })
  | 0x020 => s.modHart a (fun h => { h with wgt := h.clampW v.toNat })
  | 0x060 =>
    match a with
    | .ctx p _ => s.modCell p (fun c => { c with mbud := BitVec.ofNat 16 v.toNat })
    | .cond _ => s
  | _ => s

/-- The value a CSR instruction writes: none for csrrs and csrrc with ra 0 (R38, R86). -/
inductive CsrOp where
  | rw | set | clr
deriving DecidableEq, Repr

def CsrOp.value (op : CsrOp) (ra : XOp) (old v : DWord) : Option DWord :=
  match op with
  | .rw => some v
  | .set => if ra = .reg 0 then none else some (old ||| v)
  | .clr => if ra = .reg 0 then none else some (old &&& ~~~v)

/-- A CSR instruction (R86); `w0` is its word. -/
def csrInstr (op : CsrOp) (rd ra : XOp) (csr : BitVec 12) (pg : Pg) (w0 : DWord) (s : State) : Out :=
  governed pg 4 (fun s => Work.out do
    let a := s.cur
    let n := csr.toNat
    let bad : Stop := .trap (trapOf .undef w0 (dwn n))
    match csrAccess a.isCond n with
    | none => throw bad
    | some acc =>
      let old := csrRead s a n
      let (v, w) ← readX (work s) 0 ra
      match op.value ra old v with
      | none => writeX w rd old
      | some new =>
        if acc = .ro then throw bad
        else if acc = .t ∧ (s.hart a).level = false then throw (.trap (trapOf .priv w0 (dwn n)))
        else if csrLegal s a n new = false then throw bad
        else writeX { w with s := csrWrite w.s a n new } rd old) s

/-- csrrw (R86). -/
def execCsrrw (rd ra : XOp) (csr : BitVec 12) (pg : Pg) (s : State) : Out :=
  csrInstr .rw rd ra csr pg (w0Of (.csrrw rd ra csr pg)) s

/-- csrrs (R86). -/
def execCsrrs (rd ra : XOp) (csr : BitVec 12) (pg : Pg) (s : State) : Out :=
  csrInstr .set rd ra csr pg (w0Of (.csrrs rd ra csr pg)) s

/-- csrrc (R86). -/
def execCsrrc (rd ra : XOp) (csr : BitVec 12) (pg : Pg) (s : State) : Out :=
  csrInstr .clr rd ra csr pg (w0Of (.csrrc rd ra csr pg)) s

end Sys2Proof.Machine
end

