-- ==== Sys2Proof/Machine/Access.lean ====
section
/-! DEFINITION. Loads, stores and atomics of an agent as shared operations: the checks in the order of R194, the
side log, and what each access leaves (R158 to R164, R216, R246 to R251, R261 to R266). -/
namespace Sys2Proof.Machine

/-- Whether a write lies within the context's window (R167). -/
def inWindow (s : State) (a : AgentId) (site : Site) (n : Nat) : Bool :=
  let h := s.hart a
  match a, site with
  | .ctx _ _, .store _ off => h.wlen == 0 || (h.woff ≤ off && off + n ≤ h.woff + h.wlen)
  | _, _ => false

/-- Whether a conductor has issued a long command with a wait that has not completed: no later access of its own begins
before (R169). A wait completes when its command dispatches. -/
def waitHeld (s : State) : AgentId → Bool
  | .ctx _ _ => false
  | .cond k => (s.cond k).cmds.any (fun c => !c.dispatched && c.wait.isSome)

/-- Whether a queued operation protects some of a range of its cell's store (R140). -/
def Cell.protects (x : Cell) (off n : Nat) : Bool :=
  x.ops.any (fun o => o.ranges.any (fun r => overlap r.1 r.2 off n))

/-- Whether an operation queued before a store, by its issue order, protects bytes of the store (R140). -/
def Cell.protectsFrom (x : Cell) (ord off n : Nat) : Bool :=
  x.ops.any (fun o => decide (o.ord < ord) && o.ranges.any (fun r => overlap r.1 r.2 off n))

/-- Whether a range of a cell's store lies on a line that a pre-copy has copied, once its writes are held (R351). -/
def State.copyHeld (s : State) (p off n : Nat) : Bool :=
  match (s.cell p).bound.bind (fun b => s.region b.1) with
  | none => false
  | some r =>
    (match r.phase with | .preCopy _ held => held | _ => false) &&
      r.copied.any (fun l => l.1 == p && overlap (64 * l.2.1) 64 off n)

/-- Whether a store to a site must wait: an operation protects its bytes (R140), or a pre-copy holds them (R351). -/
def siteProtected (s : State) (site : Site) (n : Nat) : Bool :=
  match site with
  | .store p off => (s.cell p).protects off n || s.copyHeld p off n
  | .ext _ _ => false

/-- The latest of an agent's own side-log entries that holds a byte of a space address (R264). -/
def logSource (log : List LogEntry) (c : Fin 4) (sort : PageSort) (sa : Nat) : Option LogEntry :=
  log.foldl (fun acc e => if e.ctx == c && e.sort == sort && e.bytes.any (fun b => b.1 == sa) then some e else acc) none

/-- The latest byte an agent's own side-log entries hold for a space address (R264). -/
def logByte (log : List LogEntry) (c : Fin 4) (sort : PageSort) (sa : Nat) : Option Byte :=
  (logSource log c sort sa).bind (fun e => (e.bytes.find? (fun b => b.1 == sa)).map (·.2))

/-- A load from log entries one of which has become uncorrectable (R276, R388). -/
def logGood (log : List LogEntry) (c : Fin 4) (sort : PageSort) (v : DWord) (sas : List Nat) : Res Unit :=
  if sas.any (fun sa => ((logSource log c sort sa).map (·.bad)).getD false) then .error (.trap (trapOf .uncorr v 0)) else .ok ()

/-- The latest logged full/empty action on the word of a space address (R264). -/
def logFe (log : List LogEntry) (c : Fin 4) (sort : PageSort) (sa : Nat) : Option Bool :=
  log.foldl (fun acc e =>
    if e.ctx = c ∧ e.sort = sort then
      match e.fe.find? (fun b => b.1 / 8 == sa / 8) with
      | some b => some b.2
      | none => acc
    else acc) none

def AgentId.log (s : State) : AgentId → List LogEntry
  | .ctx p _ => (s.cell p).log
  | .cond _ => []

def AgentId.ctx4 : AgentId → Fin 4
  | .ctx _ c => c
  | .cond _ => 0

def Extent.isHost (e : Extent) : Bool := e.space == .host

/-- The kind of an extent's pages (R324). -/
def Extent.sort (e : Extent) : PageSort := if e.isHost then .host else if e.lazy then .lazy else .bulk

/-- A page miss of an access whose bytes start at v: the first missing byte. -/
def missOf (e : Extent) (v pc : DWord) (src off : Nat) (ps : List (Nat × Option Place)) : PageMiss :=
  let i := (ps.findIdx? (fun x => x.2 == none)).getD 0
  ⟨e.sort, v + dwn i, e.base + off + i, src, pc, none⟩

/-- The places of a list none of which is missing. -/
def placesOf (ps : List (Nat × Option Place)) : List Place := ps.filterMap (·.2)

/-- Uncorrectable data read at a place: 3 in TINFO1 for a refusal of a peer (R334), else 0 (R159). -/
def uncorrAt (s : State) (v : DWord) (ps : List Place) : Res Unit :=
  match ps.find? s.isBad with
  | some (.peer _ _ _) => .error (.trap (trapOf .uncorr v 3))
  | some p => .error (.bad p (trapOf .uncorr v 0))
  | none => .ok ()

/-- Lines of 64 bytes among space addresses, in order, each once. -/
def linesOf : List Nat → List Nat
  | [] => []
  | x :: xs =>
    let r := linesOf xs
    if r.contains (x / 64) then r else x / 64 :: r

/-- Bytes and full/empty actions that retire into a cell's side log, one entry a line (R263). `port` is the
output pattern port whose token they are. -/
def logStore (s : State) (p : Nat) (c : Fin 4) (sort : PageSort) (bs : List (Nat × Byte)) (fe : List (Nat × Bool))
    (port : Option (Fin 8)) : State :=
  let lines := linesOf (bs.map (·.1) ++ fe.map (·.1))
  s.modCell p (fun x =>
    { x with log := x.log ++ lines.map (fun l =>
        ⟨sort, l, bs.filter (fun b => b.1 / 64 == l), fe.filter (fun b => b.1 / 64 == l), c, port, false⟩) })

/-- XFAULT records of the missing pages of a store that retires into the side log (R261). -/
def missPages (s : State) (a : AgentId) (e : Extent) (v pc : DWord) (src off : Nat) (port : Option (Nat × Nat × Idx)) :
    List (Nat × Option Place) → State
  | [] => s
  | (sa, none) :: r =>
    missPages (s.missPage a ⟨e.sort, v + dwn (sa - e.base - off), sa, src, pc, port⟩) a e v pc src off port r
  | (_, some _) :: r => missPages s a e v pc src off port r

/-- Bytes read early are of no use any more. -/
def State.dropEarly (s : State) (a : AgentId) (site : Site) (size : Nat) : State :=
  let l := (s.hart a).early
  match l, site with
  | _ :: _, .ext e off =>
    let ps := placesOf (s.translateN (s.holder a) e off false size).2
    s.modHart a (fun h => { h with early := l.filter (fun b => !ps.contains b.1) })
  | _, _ => s

/-! ### Writes of pattern output ports (R224) -/

/-- The pattern and the tokens not yet written of a context's output pattern port, after its first is written. -/
def State.wrote (s : State) (a : AgentId) (q : Fin 8) : State :=
  s.modHart a (fun h =>
    let o := h.ports[q]
    let o' := { o with out := o.out.drop 1, cur := o.cur.map (fun p => { p with done := p.done + 1 }) }
    { h with ports := h.ports.set q o' })

/-- Where a byte of a site lies, comparable within one agent. -/
def siteKey : Site → Nat × Nat
  | .store _ off => (0, off)
  | .ext e off =>
    match e.space with
    | .bulk => (1, e.base + off)
    | .seam => (2, e.base + off)
    | .host => (3, e.base + off)
    | .peer => (4 + e.window.toNat, e.base + off)

/-- Whether an unfinished load of an agent reads bytes of a range (R246). -/
def flightMeets (s : State) (a : AgentId) (site : Site) (n : Nat) : Bool :=
  (s.hart a).flight.any (fun f =>
    match f.load with
    | none => false
    | some (v, size) =>
      match checkAddr s a v size 1 false false with
      | .ok w => (siteKey w).1 == (siteKey site).1 && overlap (siteKey w).2 size (siteKey site).2 n
      | .error _ => false)

/-- The bytes of a token that are not written yet, by offset. -/
def OutToken.left (t : OutToken) (ttype : Nat) : List (Nat × Byte) :=
  (t.tok.bytes ttype).zipIdx.filterMap (fun b => if t.put.contains b.2 then none else some (b.2, b.1))

/-- Whether the write of a token must wait: an operation queued before the token was pushed protects its bytes (R140),
an older load of the context reads them (R246), or a pre-copy holds them (R351). -/
def tokenHeld (s : State) (a : AgentId) (t : OutToken) (site : Site) (n : Nat) : Bool :=
  flightMeets s a site n ||
    (match site with
      | .store p off => (s.cell p).protectsFrom t.ord off n || s.copyHeld p off n
      | .ext _ _ => false)

/-- The first unwritten token of an output pattern port is written as an ordinary store of the cell; none when the
write cannot be made now (R140, R224, R261, R263, R334). -/
def patWrite (s : State) (a : AgentId) (q : Fin 8) : Option State :=
  let o := (s.hart a).ports[q]
  match a, o.out with
  | .ctx p c, t :: _ =>
    let n := tokenSize o.ttype
    let bs := t.left o.ttype
    match checkAddr s a t.addr n (tokenAlign o.ttype) true false with
    | .error _ => some (s.wrote a q)
    | .ok site =>
      if tokenHeld s a t site n then none
      else
        match site with
        | .store _ off =>
          some ((s.modCell p (fun x => { x with store := bs.foldl (fun m b => m.set (off + b.1) b.2) x.store })).wrote a q)
        | .ext e off =>
          let (s1, ps) := s.translateN (s.holder a) e off true n
          let at8 (b : Nat × Byte) : Nat × Option Place := ps.getD b.1 (0, none)
          let res := bs.filterMap (fun b => (at8 b).2.map (fun pl => (pl, b.2)))
          let gone := bs.filterMap (fun b => if (at8 b).2 = none then some ((at8 b).1, b.2) else none)
          let put (s : State) : State :=
            if s.refusedAt (res.map (·.1)) then (s.wrote a q).doomAgent a
            else (((s.dropEarly a site n).settle a (res.map (·.1))).putBytes res).wrote a q
          if gone.isEmpty then some (put s1)
          else
            let k := (linesOf (gone.map (·.1))).length
            if 64 < (s1.cell p).log.length + k then none
            else
              let s2 := logStore s1 p c e.sort gone [] (some q)
              let port := o.cur.map (fun pat => (8 + q.val, pat.done, (pat.entry pat.done).idx))
              some (put (missPages s2 a e t.addr ((o.cur.map (·.pc)).getD 0) 5 off port ps))
  | _, _ => none

/-- The bytes of the first unwritten token of an output pattern port that lie in one 8-byte word are written before
the others (R247). -/
def patPiece (s : State) (a : AgentId) (q : Fin 8) (word : Nat) : State :=
  let o := (s.hart a).ports[q]
  match a, o.out with
  | .ctx p _, t :: rest =>
    let n := tokenSize o.ttype
    let bs := (t.left o.ttype).filter (fun b => (t.addr.toNat + b.1) / 8 - t.addr.toNat / 8 == word)
    match checkAddr s a t.addr n (tokenAlign o.ttype) true false with
    | .error _ => s
    | .ok site =>
      if tokenHeld s a t site n then s
      else
        let mark (s : State) : State := s.modHart a (fun h =>
          { h with ports := h.ports.set q { h.ports[q] with out := { t with put := t.put ++ bs.map (·.1) } :: rest } })
        match site with
        | .store _ off =>
          mark (s.modCell p (fun x => { x with store := bs.foldl (fun m b => m.set (off + b.1) b.2) x.store }))
        | .ext e off =>
          let (s1, ps) := s.translateN (s.holder a) e off true n
          let pl := placesOf ps
          if ps.any (fun x => x.2 == none) || s1.refusedAt pl then s
          else mark (((s1.dropEarly a site n).settle a pl).putBytes (bs.filterMap (fun b => pl[b.1]?.map (fun x => (x, b.2)))))
  | _, _ => s

/-- Whether a port holds an unwritten token that meets a range. -/
def outMeets (s : State) (a : AgentId) (q : Fin 8) (site : Site) (n : Nat) : Bool :=
  let o := (s.hart a).ports[q]
  o.out.any (fun t =>
    match checkAddr s a t.addr (tokenSize o.ttype) 1 true false with
    | .ok w => (siteKey w).1 == (siteKey site).1 && overlap (siteKey w).2 (tokenSize o.ttype) (siteKey site).2 n
    | .error _ => false)

/-- Tokens of one port written, oldest first, until none meets a range. -/
def settlePort (s : State) (a : AgentId) (q : Fin 8) (site : Site) (n : Nat) : Nat → Res State
  | 0 => .ok s
  | k + 1 =>
    if outMeets s a q site n then
      match patWrite s a q with
      | none => .error (.hold .pattern)
      | some s' => settlePort s' a q site n k
    else .ok s

/-! ### Row stores of mst (R140, R148) -/

/-- Whether an operation queued before an mst protects one of its rows. -/
def Cell.rowHeld (x : Cell) (m : MstOp) (r : Nat × List Byte) : Bool :=
  x.ops.any (fun o => decide (o.ord < m.ord) && o.ranges.any (fun g => overlap g.1 g.2 r.1 r.2.length))

/-- The next row of an mst is stored; with its last one the flags reach FPS. None when the row must wait (R140, R351). -/
def mstRow (s : State) (p i : Nat) : Option State :=
  let x := s.cell p
  match x.msts[i]? with
  | none => none
  | some m =>
    match m.rows with
    | [] => none
    | r :: rs =>
      if x.rowHeld m r || s.copyHeld p r.1 r.2.length then none
      else
        let x1 := { x with store := x.store.write r.1 r.2 }
        if rs.isEmpty then
          some ((s.setCell p { x1 with msts := delAt x.msts i }).orFlags (.ctx p m.ctx) m.flags)
        else some (s.setCell p { x1 with msts := modAt x.msts i (fun m => { m with rows := rs }) })

/-- The first mst of a context that has not stored a byte of a range. -/
def Cell.mstMeets (x : Cell) (c : Fin 4) (off n : Nat) : Option Nat :=
  x.msts.findIdx? (fun m => m.ctx == c && m.rows.any (fun r => overlap r.1 r.2.length off n))

/-- Rows of a context's mst stored, oldest first, until none meets a range. -/
def settleMst (s : State) (p : Nat) (c : Fin 4) (off n : Nat) : Nat → Res State
  | 0 => .ok s
  | k + 1 =>
    match (s.cell p).mstMeets c off n with
    | none => .ok s
    | some i =>
      match mstRow s p i with
      | none => .error (.hold .protect)
      | some s' => settleMst s' p c off n k

/-- An agent's own unfinished loads, pushed tokens and mst rows come before its later access to the same bytes (R161,
R224, R246). -/
def settleOut (s : State) (a : AgentId) (site : Site) (n : Nat) : Res State := do
  if (s.hart a).capt.isNone && flightMeets s a site n then throw (.hold .hazard)
  let s1 ← (List.finRange 8).foldlM (fun s q => settlePort s a q site n ((s.hart a).ports[q]).out.length) s
  match a, site with
  | .ctx p c, .store _ off => settleMst s1 p c off n (48 * (s1.cell p).msts.length)
  | _, _ => pure s1

/-- The byte read already at an offset, else another. -/
def seenOr (seen : List (Nat × Byte)) (i : Nat) (b : Byte) : Byte :=
  match seen.find? (fun x => x.1 == i) with
  | some x => x.2
  | none => b

/-- Bytes with those read already in their places. -/
def withSeen (seen : List (Nat × Byte)) (bs : List Byte) : List Byte := bs.zipIdx.map (fun b => seenOr seen b.2 b.1)

/-- The places of those bytes of an access that are not read already. -/
def notSeen (seen : List (Nat × Byte)) (ps : List Place) : List Place :=
  ps.zipIdx.filterMap (fun x => if seen.any (fun y => y.1 == x.2) then none else some x.1)

/-- The bytes that stand at a site, as the agent reads them; those of `seen` are read already (R159, R161, R247, R261,
R264). A load of a page that is missing is served when the context's own log entries cover all of it. `miss` is the
page miss to report. -/
def loadAt (s : State) (a : AgentId) (site : Site) (v : DWord) (size : Nat) (seen : List (Nat × Byte))
    (miss : PageMiss → PageMiss) : Res (List Byte × State) :=
  match site with
  | .store p off => do
    let ps := (List.range size).map (fun i => Place.store p (off + i))
    uncorrAt s v (notSeen seen ps)
    pure (withSeen seen (s.getBytes ps), s)
  | .ext e off => do
    let (s1, ps) := s.translateN (s.holder a) e off false size
    if ps.all (fun x => x.2 != none) then
      let pl := placesOf ps
      if pl.any s1.refreshing then throw (.hold .refresh)
      let s2 := if (s1.hart a).amonOn pl then s1.settle a pl else s1
      uncorrAt s2 v ((notSeen seen pl).filter (fun p => pendByte (s2.hart a).pend p == none))
      pure (withSeen seen (pl.map (s2.viewByte a)), s2)
    else
      let log := AgentId.log s1 a
      let bs := ps.map (fun x => logByte log (AgentId.ctx4 a) e.sort x.1)
      if bs.all (· != none) then do
        logGood log (AgentId.ctx4 a) e.sort v (ps.map (·.1))
        pure (withSeen seen (bs.filterMap id), s1)
      else throw (.page (miss (missOf e v (s.hart a).pc 0 off ps)))

/-- Bytes of the load that an agent finishes after its issue, read already. -/
def Hart.seen (h : Hart) : List (Nat × Byte) := (h.capt.map (·.seen)).getD []

/-- Bytes of a load that were read while an ldf before it waited, by offset (R246, R254). -/
def earlySeen (s : State) (a : AgentId) (site : Site) (size : Nat) : List (Nat × Byte) :=
  let l := (s.hart a).early
  match l, site with
  | _ :: _, .ext e off =>
    (s.translateN (s.holder a) e off false size).2.zipIdx.filterMap (fun x =>
      x.1.2.bind (fun p => (l.find? (fun b => b.1 == p)).map (fun b => (x.2, b.2))))
  | _, _ => []

/-- The bytes of a load (R158, R159, R161, R169, R216, R261, R264). One that is finished after its issue has had the checks
of deterministic mode at its issue (R251). -/
def loadBytes (s : State) (a : AgentId) (v : DWord) (size align : Nat) : Res (List Byte × State) := do
  let seen := (s.hart a).seen
  if 0 < seen.length ∧ (List.range size).all (fun i => seen.any (fun x => x.1 == i)) then
    pure ((List.range size).map (fun i => seenOr seen i 0), s)
  else
    let site ← checkAddr s a v size align false false
    if (s.hart a).capt.isNone then raceCheck s a site v size
    if waitHeld s a then throw (.hold .waitField)
    else if orderHeld s a site then throw (.hold .clauseOrder)
    else
      let s0 ← settleOut s a site size
      let (bs, s1) ← loadAt s0 a site v size (seen ++ earlySeen s0 a site size) id
      pure (bs, (bindExtent s1 a site).dropEarly a site size)

/-- The pieces of some bytes within each 8-byte word (R247). -/
def piecesOf : List (Place × Byte) → List (List (Place × Byte))
  | [] => []
  | x :: r =>
    match piecesOf r with
    | [] => [[x]]
    | g :: gs => if (g.head?.map (fun y => y.1.word)) = some x.1.word then (x :: g) :: gs else [x] :: g :: gs

/-- A store accepted by an agent, piece by piece: the pieces keep no order among themselves (R247). -/
def Hart.acceptStore (h : Hart) (bs : List (Place × Byte)) (fe : List (Place × Bool)) : Hart :=
  match piecesOf bs with
  | [] => h.accept (.store [] fe)
  | g :: gs => gs.foldl (fun h p => h.accept (.store p [])) (h.accept (.store g fe))

/-- A store of some bytes, or a full/empty action on the words they lie in (`fe`), or both (R158 to R163, R248,
R261 to R266). With `data` false only the action happens. -/
def storeBytes (s : State) (a : AgentId) (v : DWord) (bs : List Byte) (align : Nat) (fe : Option Bool) (data : Bool) :
    Res State := do
  let size := bs.length
  let site ← checkAddr s a v size align true fe.isSome
  windowCheck s a site size
  raceCheck s a site v size
  if waitHeld s a then throw (.hold .waitField)
  else if orderHeld s a site then throw (.hold .clauseOrder)
  else if siteProtected s site size then throw (.hold .protect)
  else
    let s ← settleOut s a site size
    match site with
    | .store p off =>
      let s1 := if data then s.modCell p (fun x => { x with store := x.store.write off bs }) else s
      match fe with
      | some on => pure (s1.putFe [(.store p off, on)])
      | none => pure s1
    | .ext e off =>
      let (s1, ps) := s.translateN (s.holder a) e off true size
      let res := (ps.zip bs).filterMap (fun x => x.1.2.map (fun p => (p, x.2)))
      let gone := (ps.zip bs).filterMap (fun x => if x.1.2 = none then some (x.1.1, x.2) else none)
      let feRes := match fe, ps.head? with
        | some on, some (_, some p) => [(p, on)]
        | _, _ => []
      let feGone := match fe, ps.head? with
        | some on, some (sa, none) => [(sa / 8 * 8, on)]
        | _, _ => []
      let keep (s : State) : State :=
        if res.isEmpty && feRes.isEmpty then s
        else s.modHart a (fun h => h.acceptStore (if data then res else []) feRes)
      match a with
      | .cond _ =>
        if gone.isEmpty then pure (keep (bindExtent s1 a site))
        else throw (.page (missOf e v (s.hart a).pc 4 off ps))
      | .ctx p c =>
        if gone.isEmpty then pure (keep (bindExtent s1 a site))
        else
          let n := (linesOf (gone.map (·.1))).length
          if 64 < (s1.cell p).log.length + n then throw (.hold .logFull)
          else
            let s2 := logStore s1 p c e.sort (if data then gone else []) feGone none
            pure (missPages (keep (bindExtent s2 a site)) a e v (s.hart a).pc 4 off none ps)

/-- Whether the engine of a line has served an agent of a higher index in this cycle: then a request of this agent did
not arrive in it, for the lower index is served first (R165, R166). -/
def lineTaken (s : State) (a : AgentId) (ps : List Place) : Bool :=
  ps.any (fun p => s.served.any (fun x => x.1 == p.line && a.index < x.2))

/-- The engine of a line serves an agent in this cycle. -/
def State.serve (s : State) (a : AgentId) (ps : List Place) : State :=
  match ps with
  | [] => s
  | p :: _ => { s with served := (p.line, a.index) :: s.served }

/-- What an atomic does once checked: the old value, and the state with the new one (R164, R165). `post` accepts an
extent amon for later performing. -/
def atomic (s : State) (a : AgentId) (v : DWord) (determ : Site → Bool) (w0 : DWord) (new : DWord → DWord)
    (post : Option (AmoFn × DWord)) : Res (DWord × State) := do
  let site ← checkAddr s a v 8 8 true false
  if (s.hart a).det && determ site then throw (.trap (trapOf .determ v w0))
  else
    windowCheck s a site 8
    raceCheck s a site v 8
    if waitHeld s a then throw (.hold .waitField)
    else if orderHeld s a site then throw (.hold .clauseOrder)
    else if siteProtected s site 8 then throw (.hold .protect)
    else
      let s ← settleOut s a site 8
      match site with
      | .store p off =>
        let ps := (List.range 8).map (fun i => Place.store p (off + i))
        uncorrAt s v ps
        let old := dwn (leNat (s.getBytes ps))
        pure (old, s.modCell p (fun x => { x with store := x.store.write off (leBytes 8 (new old).toNat) }))
      | .ext e off =>
        let (s1, ps) := s.translateN (s.holder a) e off true 8
        if ps.any (fun x => x.2 == none) then throw (.page (missOf e v (s.hart a).pc 1 off ps))
        else
          let pl := placesOf ps
          let s2 := bindExtent s1 a site
          match post with
          | some (fn, b) =>
            uncorrAt s2 v (pl.filter (fun p => pendByte (s2.hart a).pend p == none))
            pure (0, s2.modHart a (fun h => h.accept (.amon fn pl b)))
          | none =>
            if lineTaken s2 a pl then throw (.hold .hazard)
            else
              let s3 := s2.settle a pl
              uncorrAt s3 v pl
              let old := dwn (leNat (s3.getBytes pl))
              pure (old, ((s3.dropEarly a site 8).putBytes (pl.zip (leBytes 8 (new old).toNat))).serve a pl)

/-- An effective address: X(ra) + sext(off)·scale (R158, R66). -/
def effAddr (b : DWord) (off : BitVec 10) (scale : Nat) : DWord := b + dw (off.toInt * scale)

end Sys2Proof.Machine
end

