-- ==== Sys2Proof/Machine/Fetch.lean ====
section
/-! DEFINITION. Fetching an instruction's words and the legality of a repeat unit (R51, R59, R60, R73 to R75, R90). -/
namespace Sys2Proof.Machine

/-- Byte `off` past an address of an agent's code space: the cell store, or the launch extent (R90). -/
def State.codeByte (s : State) (a : AgentId) (v : Nat) : State × Option Place :=
  match a with
  | .ctx p _ => (s, if v < 0x80000 then some (.store p v) else none)
  | .cond _ =>
    match (s.regionOf a).bind s.region with
    | none => (s, none)
    | some r =>
      match s.extentNo a r.lext with
      | none => (s, none)
      | some e => s.translate (s.holder a) e (fld v 39 0) false

/-- Whether bytes v to v + n − 1 lie in the agent's code space. -/
def State.inCode (s : State) (a : AgentId) (v n : Nat) : Bool :=
  match a with
  | .ctx _ _ => v + n ≤ 0x80000
  | .cond _ =>
    match (s.regionOf a).bind s.region with
    | none => false
    | some r =>
      match s.extentNo a r.lext with
      | none => false
      | some e => v < 2 ^ 48 && fld v 47 40 == r.lext && fld v 39 0 + n ≤ e.len

/-- Bytes of code, with the state that has translated them; none where a page is missing or a word is bad. -/
def State.codeBytes (s : State) (a : AgentId) (v : Nat) : Nat → State × Option (List Byte)
  | 0 => (s, some [])
  | n + 1 =>
    match s.codeByte a v with
    | (s1, none) => (s1, none)
    | (s1, some p) =>
      if s1.isBad p then (s1, none)
      else
        match State.codeBytes s1 a (v + 1) n with
        | (s2, some bs) => (s2, some (s1.getByte p :: bs))
        | (s2, none) => (s2, none)

/-- The first uncorrectable byte of code in a range (R276). -/
def State.codeBad (s : State) (a : AgentId) (v n : Nat) : Option Place :=
  (List.range n).findSome? (fun i => (s.codeByte a (v + i)).2.bind (fun p => if s.isBad p then some p else none))

/-- The words at an address, as a number each; 4 bytes, or 16 of a long instruction. -/
def State.fetchBytes (s : State) (a : AgentId) (v : DWord) (n : Nat) : Res (State × List Byte) :=
  let w := v.toNat
  if w % 4 ≠ 0 then .error (.trap (trapOf .align v 0))
  else if s.inCode a w n = false then .error (.trap (trapOf .bounds v 0))
  else
    match s.codeBad a w n, s.codeBytes a w n with
    | some p, _ => .error (.bad p (trapOf .uncorr v 1))
    | none, (s', some bs) => .ok (s', bs)
    | none, (_, none) =>
      let sa := match s.extentNo a (fld w 47 40) with
        | some e => e.base + fld w 39 0
        | none => 0
      .error (.page ⟨.bulk, v, sa, 0, v, none⟩)

/-- The word at an address. -/
def State.fetchWord (s : State) (a : AgentId) (v : DWord) : Res (State × Nat) :=
  (s.fetchBytes a v 4).map (fun r => (r.1, leNat r.2))

def kindOf (a : AgentId) : Kind := if a.isCond then .cond else .cell

/-- Sizes of the classes of the register fields rd, ra, rb, rc of a repeatable word; 0 for a field that is none
(R60, R64 to R70). -/
def repFields (w : Nat) : List Nat :=
  let fn := fld w 10 3
  match fld w 31 26 with
  | 0x01 => if fn ≤ 29 then [24, 24, 24, 0] else [24, 24, 0, 0]
  | 0x0E =>
    if fn ≤ 5 then [8, 24, 24, 0] else if fn ≤ 8 then [8, 8, 8, 0]
    else if fn = 11 then [8, 24, 0, 0] else if fn = 12 then [24, 8, 0, 0] else [8, 8, 0, 0]
  | 0x2B =>
    if fn = 3 ∨ fn = 4 then [24, 24, 4, 0] else if fn = 10 then [24, 24, 8, 0]
    else if (5 ≤ fn ∧ fn ≤ 8) ∨ fn = 12 ∨ fn = 13 ∨ fn = 15 ∨ fn = 16 then [24, 24, 24, 0] else [24, 24, 0, 0]
  | 0x2C =>
    if fn ≤ 4 ∨ (19 ≤ fn ∧ fn ≤ 21) then [24, 24, 24, 0]
    else if 12 ≤ fn ∧ fn ≤ 14 then [8, 24, 24, 0] else [24, 24, 0, 0]
  | 0x2D => if fld w 5 3 = 3 then [24, 24, 24, 8] else [24, 24, 24, 24]
  | _ => [24, 24, 0, 0]

/-- Major opcodes that may be repeated (R60). -/
def repMajor (m : Nat) : Bool :=
  (1 ≤ m && m ≤ 0x0A) || m == 0x0E || (0x1C ≤ m && m ≤ 0x23) || (0x2B ≤ m && m ≤ 0x2D)

/-- The low bit of register field i: rd, ra, rb, rc. -/
def repBit (i : Nat) : Nat := match i with | 0 => 21 | 1 => 16 | 2 => 11 | _ => 6

/-- The step of field i of a rep word (R59). -/
def repStep (w0 i : Nat) : Int :=
  match fld w0 (19 - 2 * i) (18 - 2 * i) with | 0 => 0 | 1 => 1 | 2 => 2 | _ => -1

def repCount (w0 : Nat) : Nat := fld w0 25 20 + 1

/-- Whether field i of the repeated word stays in its class on every repeat (R60). -/
def repFieldOk (w0 w1 i : Nat) : Bool :=
  let st := repStep w0 i
  if st = 0 then true
  else
    let size := (repFields w1).getD i 0
    let f := fld w1 (repBit i + 4) (repBit i)
    let last : Int := (f : Int) + ((repCount w0 : Int) - 1) * st
    f < size && 0 ≤ last && last < size

/-- The rules of R60 for the rep word w0 and the word after it. -/
def repLegal (k : Kind) (w0 w1 : Nat) : Bool :=
  fld w0 11 0 == 0 && repMajor (fld w1 31 26) &&
    (match decode k true w1 0 0 0 with | .ok _ => true | .error _ => false) &&
    (List.range 4).all (fun i => repFieldOk w0 w1 i)

/-- The stepped word of repeat n (R60, R91). -/
def repWord (w0 w1 n : Nat) : Nat :=
  (List.range 4).foldl (fun w i =>
    let f := fld w1 (repBit i + 4) (repBit i)
    let f' := ((f : Int) + (n : Int) * repStep w0 i).toNat
    putBits w (repBit i) 5 f') w1

/-- The trap of an illegal unit: TINFO0 the rep word, TINFO1 the word after it (R60). -/
def repTrap (w0 w1 : Nat) : TrapInfo := trapOf .undef (dwn w0) (dwn w1)

/-- The traps of R74 for a word that does not decode. -/
def decodeTrap (e : DecodeErr) (w0 w1 w2 : Nat) : TrapInfo :=
  let c := match e with | .cellLong => Cause.priv | _ => Cause.undef
  let long := fld w0 31 26 = 0x3F ∧ e ≠ .misplacedLong
  trapOf c (dwn w0) (if long then dwn (w2 * 2 ^ 32 + w1) else 0)

end Sys2Proof.Machine
end

