-- ==== Sys2Proof/Machine/Scalar.lean ====
section
/-! DEFINITION. Integer arithmetic and logic, predicates and masks (spec/04 R81 to R85). -/
namespace Sys2Proof.Machine

/-- 1 or 0. -/
def boolW (b : Bool) : DWord := if b then 1 else 0
/-- Bit 31 of a value sign-extended to 64 bits (R82). -/
def sext32 (v : Nat) : DWord := dw (sextInt 32 v)
def shl64 (a : DWord) (n : Nat) : DWord := dwn (a.toNat * 2 ^ n)
def shr64 (a : DWord) (n : Nat) : DWord := dwn (a.toNat / 2 ^ n)
def sra64 (a : DWord) (n : Nat) : DWord := dw (a.toInt / (2 ^ n : Nat))
/-- Rotation right: bit i of the result is bit (i + n) mod 64 of a (R82). -/
def rot64 (a : DWord) (n : Nat) : DWord := dwn (a.toNat / 2 ^ n + a.toNat % 2 ^ n * 2 ^ (64 - n))
/-- Signed division toward zero and its corners (R28). -/
def div64 (a b : DWord) : DWord := if b = 0 then dw (-1) else dw (Int.tdiv a.toInt b.toInt)
def divu64 (a b : DWord) : DWord := if b = 0 then dw (-1) else dwn (a.toNat / b.toNat)
def rem64 (a b : DWord) : DWord := if b = 0 then a else dw (Int.tmod a.toInt b.toInt)
def remu64 (a b : DWord) : DWord := if b = 0 then a else dwn (a.toNat % b.toNat)
/-- Leading zeros of the low n bits. -/
def clzGo (a : Nat) : Nat → Nat
  | 0 => 0
  | n + 1 => if bitOf a n then 0 else clzGo a n + 1
def clz64 (a : DWord) : Nat := clzGo a.toNat 64
/-- One bits among the low n. -/
def popGo (a : Nat) : Nat → Nat
  | 0 => 0
  | n + 1 => popGo a n + b2n (bitOf a n)
def popc64 (a : DWord) : Nat := popGo a.toNat 64
/-- The low n bits in reverse order, bit 0 to bit 63. -/
def brevGo (a : Nat) : Nat → Nat
  | 0 => 0
  | n + 1 => brevGo a n + b2n (bitOf a n) * 2 ^ (63 - n)
def brev64 (a : DWord) : DWord := dwn (brevGo a.toNat 64)

/-- Two scalar sources to a scalar destination. -/
def alu2 (rd ra rb : XOp) (pg : Pg) (f : DWord → DWord → DWord) (s : State) : Out :=
  governed pg 4 (fun s => Work.out do
    let w ← fields s [Cls.x.src ra, Cls.x.src rb, Cls.x.dst rd]
    let (a, w) ← readX w 0 ra
    let (b, w) ← readX w 1 rb
    writeX w rd (f a b)) s

/-- One scalar source to a scalar destination. -/
def alu1 (rd ra : XOp) (pg : Pg) (f : DWord → DWord) (s : State) : Out :=
  governed pg 4 (fun s => Work.out do
    let w ← fields s [Cls.x.src ra, Cls.x.dst rd]
    let (a, w) ← readX w 0 ra
    writeX w rd (f a)) s

/-- add (R82). -/
def execAdd (rd ra rb : XOp) (pg : Pg) (s : State) : Out :=
  alu2 rd ra rb pg (fun a b => a + b) s

/-- sub (R82). -/
def execSub (rd ra rb : XOp) (pg : Pg) (s : State) : Out :=
  alu2 rd ra rb pg (fun a b => a - b) s

/-- and (R82). -/
def execAnd (rd ra rb : XOp) (pg : Pg) (s : State) : Out :=
  alu2 rd ra rb pg (fun a b => a &&& b) s

/-- or (R82). -/
def execOr (rd ra rb : XOp) (pg : Pg) (s : State) : Out :=
  alu2 rd ra rb pg (fun a b => a ||| b) s

/-- xor (R82). -/
def execXor (rd ra rb : XOp) (pg : Pg) (s : State) : Out :=
  alu2 rd ra rb pg (fun a b => a ^^^ b) s

/-- andn (R82). -/
def execAndn (rd ra rb : XOp) (pg : Pg) (s : State) : Out :=
  alu2 rd ra rb pg (fun a b => a &&& ~~~b) s

/-- shl (R82). -/
def execShl (rd ra rb : XOp) (pg : Pg) (s : State) : Out :=
  alu2 rd ra rb pg (fun a b => shl64 a (fld b.toNat 5 0)) s

/-- shr (R82). -/
def execShr (rd ra rb : XOp) (pg : Pg) (s : State) : Out :=
  alu2 rd ra rb pg (fun a b => shr64 a (fld b.toNat 5 0)) s

/-- sra (R82). -/
def execSra (rd ra rb : XOp) (pg : Pg) (s : State) : Out :=
  alu2 rd ra rb pg (fun a b => sra64 a (fld b.toNat 5 0)) s

/-- rot (R82). -/
def execRot (rd ra rb : XOp) (pg : Pg) (s : State) : Out :=
  alu2 rd ra rb pg (fun a b => rot64 a (fld b.toNat 5 0)) s

/-- addw (R82). -/
def execAddw (rd ra rb : XOp) (pg : Pg) (s : State) : Out :=
  alu2 rd ra rb pg (fun a b => sext32 (a.toNat + b.toNat)) s

/-- subw (R82). -/
def execSubw (rd ra rb : XOp) (pg : Pg) (s : State) : Out :=
  alu2 rd ra rb pg (fun a b => sext32 (a - b).toNat) s

/-- shlw (R82). -/
def execShlw (rd ra rb : XOp) (pg : Pg) (s : State) : Out :=
  alu2 rd ra rb pg (fun a b => sext32 (fld a.toNat 31 0 * 2 ^ fld b.toNat 4 0)) s

/-- shrw (R82). -/
def execShrw (rd ra rb : XOp) (pg : Pg) (s : State) : Out :=
  alu2 rd ra rb pg (fun a b => sext32 (fld a.toNat 31 0 / 2 ^ fld b.toNat 4 0)) s

/-- sraw (R82). -/
def execSraw (rd ra rb : XOp) (pg : Pg) (s : State) : Out :=
  alu2 rd ra rb pg (fun a b => dw (sextInt 32 a.toNat / (2 ^ fld b.toNat 4 0 : Nat))) s

/-- mul (R82). -/
def execMul (rd ra rb : XOp) (pg : Pg) (s : State) : Out :=
  alu2 rd ra rb pg (fun a b => a * b) s

/-- mulh (R82). -/
def execMulh (rd ra rb : XOp) (pg : Pg) (s : State) : Out :=
  alu2 rd ra rb pg (fun a b => dw (a.toInt * b.toInt / (2 ^ 64 : Nat))) s

/-- mulhu (R82). -/
def execMulhu (rd ra rb : XOp) (pg : Pg) (s : State) : Out :=
  alu2 rd ra rb pg (fun a b => dwn (a.toNat * b.toNat / 2 ^ 64)) s

/-- mulw (R82). -/
def execMulw (rd ra rb : XOp) (pg : Pg) (s : State) : Out :=
  alu2 rd ra rb pg (fun a b => sext32 (fld a.toNat 31 0 * fld b.toNat 31 0)) s

/-- div (R82, R28). -/
def execDiv (rd ra rb : XOp) (pg : Pg) (s : State) : Out :=
  alu2 rd ra rb pg (fun a b => div64 a b) s

/-- divu (R82, R28). -/
def execDivu (rd ra rb : XOp) (pg : Pg) (s : State) : Out :=
  alu2 rd ra rb pg (fun a b => divu64 a b) s

/-- rem (R82, R28). -/
def execRem (rd ra rb : XOp) (pg : Pg) (s : State) : Out :=
  alu2 rd ra rb pg (fun a b => rem64 a b) s

/-- remu (R82, R28). -/
def execRemu (rd ra rb : XOp) (pg : Pg) (s : State) : Out :=
  alu2 rd ra rb pg (fun a b => remu64 a b) s

/-- min (R82). -/
def execMin (rd ra rb : XOp) (pg : Pg) (s : State) : Out :=
  alu2 rd ra rb pg (fun a b => if a.toInt < b.toInt then a else b) s

/-- max (R82). -/
def execMax (rd ra rb : XOp) (pg : Pg) (s : State) : Out :=
  alu2 rd ra rb pg (fun a b => if b.toInt < a.toInt then a else b) s

/-- minu (R82). -/
def execMinu (rd ra rb : XOp) (pg : Pg) (s : State) : Out :=
  alu2 rd ra rb pg (fun a b => if a.toNat < b.toNat then a else b) s

/-- maxu (R82). -/
def execMaxu (rd ra rb : XOp) (pg : Pg) (s : State) : Out :=
  alu2 rd ra rb pg (fun a b => if b.toNat < a.toNat then a else b) s

/-- slt (R82). -/
def execSlt (rd ra rb : XOp) (pg : Pg) (s : State) : Out :=
  alu2 rd ra rb pg (fun a b => boolW (a.toInt < b.toInt)) s

/-- sltu (R82). -/
def execSltu (rd ra rb : XOp) (pg : Pg) (s : State) : Out :=
  alu2 rd ra rb pg (fun a b => boolW (a.toNat < b.toNat)) s

/-- seq (R82). -/
def execSeq (rd ra rb : XOp) (pg : Pg) (s : State) : Out :=
  alu2 rd ra rb pg (fun a b => boolW (a = b)) s

/-- clz (R82). -/
def execClz (rd ra : XOp) (pg : Pg) (s : State) : Out := alu1 rd ra pg (fun a => dwn (clz64 a)) s

/-- popc (R82). -/
def execPopc (rd ra : XOp) (pg : Pg) (s : State) : Out := alu1 rd ra pg (fun a => dwn (popc64 a)) s

/-- brev (R82). -/
def execBrev (rd ra : XOp) (pg : Pg) (s : State) : Out := alu1 rd ra pg (fun a => brev64 a) s

/-- addi (R83): c is the sign-extended immediate. -/
def execAddi (rd ra : XOp) (imm : BitVec 13) (pg : Pg) (s : State) : Out :=
  let c := dw imm.toInt
  alu1 rd ra pg (fun a => a + c) s

/-- andi (R83): c is the sign-extended immediate. -/
def execAndi (rd ra : XOp) (imm : BitVec 13) (pg : Pg) (s : State) : Out :=
  let c := dw imm.toInt
  alu1 rd ra pg (fun a => a &&& c) s

/-- ori (R83): c is the sign-extended immediate. -/
def execOri (rd ra : XOp) (imm : BitVec 13) (pg : Pg) (s : State) : Out :=
  let c := dw imm.toInt
  alu1 rd ra pg (fun a => a ||| c) s

/-- xori (R83): c is the sign-extended immediate. -/
def execXori (rd ra : XOp) (imm : BitVec 13) (pg : Pg) (s : State) : Out :=
  let c := dw imm.toInt
  alu1 rd ra pg (fun a => a ^^^ c) s

/-- slti (R83): c is the sign-extended immediate. -/
def execSlti (rd ra : XOp) (imm : BitVec 13) (pg : Pg) (s : State) : Out :=
  let c := dw imm.toInt
  alu1 rd ra pg (fun a => boolW (a.toInt < c.toInt)) s

/-- sltiu (R83): c is the sign-extended immediate. -/
def execSltiu (rd ra : XOp) (imm : BitVec 13) (pg : Pg) (s : State) : Out :=
  let c := dw imm.toInt
  alu1 rd ra pg (fun a => boolW (a.toNat < c.toNat)) s

/-- shli (R83). -/
def execShli (rd ra : XOp) (sh : BitVec 6) (pg : Pg) (s : State) : Out :=
  alu1 rd ra pg (fun a => shl64 a sh.toNat) s

/-- shri (R83). -/
def execShri (rd ra : XOp) (sh : BitVec 6) (pg : Pg) (s : State) : Out :=
  alu1 rd ra pg (fun a => shr64 a sh.toNat) s

/-- srai (R83). -/
def execSrai (rd ra : XOp) (sh : BitVec 6) (pg : Pg) (s : State) : Out :=
  alu1 rd ra pg (fun a => sra64 a sh.toNat) s

/-- lui (R84). -/
def execLui (rd : XOp) (imm : BitVec 21) (s : State) : Out :=
  governed 0 4 (fun s => Work.out (writeX (work s) rd (sext32 (imm.toNat * 2 ^ 11)))) s

/-- lih (R84): the old value is read first, from a port too. -/
def execLih (rd : XOp) (imm : BitVec 21) (s : State) : Out :=
  governed 0 4 (fun s => Work.out do
    let w ← fields s [Cls.x.src rd, Cls.x.dst rd]
    let (o, w) ← readX w 0 rd
    writeX w rd (dwn (fld (dw imm.toInt).toNat 31 0 * 2 ^ 32 + o.toNat % 2 ^ 32))) s

/-- auipc (R84). -/
def execAuipc (rd : XOp) (imm : BitVec 21) (s : State) : Out :=
  governed 0 4 (fun s => Work.out (writeX (work s) rd ((s.hart s.cur).pc + sext32 (imm.toNat * 2 ^ 11)))) s

/-- A comparison of two scalars into a predicate (R85). -/
def cmpP (rd : POp) (ra rb : XOp) (pg : Pg) (f : DWord → DWord → Bool) (s : State) : Out :=
  governed pg 4 (fun s => Work.out do
    let w ← fields s [Cls.x.src ra, Cls.x.src rb, Cls.p.dst rd]
    let (a, w) ← readX w 0 ra
    let (b, w) ← readX w 1 rb
    writeP w rd (f a b)) s

/-- A function of two predicates (R85). -/
def logP (rd ra rb : POp) (pg : Pg) (f : Bool → Bool → Bool) (s : State) : Out :=
  governed pg 4 (fun s => Work.out do
    let w ← fields s [Cls.p.src ra, Cls.p.src rb, Cls.p.dst rd]
    let (a, w) ← readP w 0 ra
    let (b, w) ← readP w 1 rb
    writeP w rd (f a b)) s

/-- peq (R85). -/
def execPeq (rd : POp) (ra rb : XOp) (pg : Pg) (s : State) : Out :=
  cmpP rd ra rb pg (fun a b => decide (a = b)) s

/-- pne (R85). -/
def execPne (rd : POp) (ra rb : XOp) (pg : Pg) (s : State) : Out :=
  cmpP rd ra rb pg (fun a b => decide (a ≠ b)) s

/-- plt (R85). -/
def execPlt (rd : POp) (ra rb : XOp) (pg : Pg) (s : State) : Out :=
  cmpP rd ra rb pg (fun a b => decide (a.toInt < b.toInt)) s

/-- pge (R85). -/
def execPge (rd : POp) (ra rb : XOp) (pg : Pg) (s : State) : Out :=
  cmpP rd ra rb pg (fun a b => decide (b.toInt ≤ a.toInt)) s

/-- pltu (R85). -/
def execPltu (rd : POp) (ra rb : XOp) (pg : Pg) (s : State) : Out :=
  cmpP rd ra rb pg (fun a b => decide (a.toNat < b.toNat)) s

/-- pgeu (R85). -/
def execPgeu (rd : POp) (ra rb : XOp) (pg : Pg) (s : State) : Out :=
  cmpP rd ra rb pg (fun a b => decide (b.toNat ≤ a.toNat)) s

/-- pand (R85). -/
def execPand (rd ra rb : POp) (pg : Pg) (s : State) : Out := logP rd ra rb pg (fun a b => a && b) s

/-- por (R85). -/
def execPor (rd ra rb : POp) (pg : Pg) (s : State) : Out := logP rd ra rb pg (fun a b => a || b) s

/-- pxor (R85). -/
def execPxor (rd ra rb : POp) (pg : Pg) (s : State) : Out := logP rd ra rb pg (fun a b => a != b) s

/-- pnot (R85). -/
def execPnot (rd ra : POp) (pg : Pg) (s : State) : Out :=
  governed pg 4 (fun s => Work.out do
    let w ← fields s [Cls.p.src ra, Cls.p.dst rd]
    let (a, w) ← readP w 0 ra
    writeP w rd (!a)) s

/-- pmany (R85). -/
def execPmany (rd : POp) (ra : MOp) (pg : Pg) (s : State) : Out :=
  governed pg 4 (fun s => Work.out do
    let w ← fields s [Cls.m.src ra, Cls.p.dst rd]
    let (a, w) ← readM w 0 ra
    writeP w rd (a != 0)) s

/-- mset (R85). -/
def execMset (rd : MOp) (ra : XOp) (pg : Pg) (s : State) : Out :=
  governed pg 4 (fun s => Work.out do
    let w ← fields s [Cls.x.src ra, Cls.m.dst rd]
    let (a, w) ← readX w 0 ra
    writeM w rd (BitVec.ofNat 24 a.toNat)) s

/-- mget (R85). -/
def execMget (rd : XOp) (ra : MOp) (pg : Pg) (s : State) : Out :=
  governed pg 4 (fun s => Work.out do
    let w ← fields s [Cls.m.src ra, Cls.x.dst rd]
    let (a, w) ← readM w 0 ra
    writeX w rd (dwn a.toNat)) s

/-- mnot (R85). -/
def execMnot (rd ra : MOp) (pg : Pg) (s : State) : Out :=
  governed pg 4 (fun s => Work.out do
    let w ← fields s [Cls.m.src ra, Cls.m.dst rd]
    let (a, w) ← readM w 0 ra
    writeM w rd (~~~a)) s

end Sys2Proof.Machine
end

