-- ==== Sys2Proof/Machine/Control.lean ====
section
/-! DEFINITION. Branches, jumps, the rep word and the sys group (spec/04 R88 to R103). -/
namespace Sys2Proof.Machine

/-- The target of a branch or jump: A + 4·sext(off) (R88, R89). -/
def wordsOn (pc : DWord) (off : Int) : DWord := pc + dw (4 * off)

/-- A compare-branch (R88): it has no predicate and pops the ports it names. -/
def branch (ra rb : XOp) (off : BitVec 16) (taken : DWord → DWord → Bool) (s : State) : Out :=
  finish s (do
    let w ← fields s [Cls.x.src ra, Cls.x.src rb]
    let (a, w) ← readX w 0 ra
    let (b, w) ← readX w 1 rb
    let pc := (s.hart s.cur).pc
    pure (w.s.jumpTo (if taken a b then wordsOn pc off.toInt else pc + 4)))

/-- beq (R88). -/
def execBeq (ra rb : XOp) (off : BitVec 16) (s : State) : Out := branch ra rb off (fun a b => decide (a = b)) s
/-- bne (R88). -/
def execBne (ra rb : XOp) (off : BitVec 16) (s : State) : Out := branch ra rb off (fun a b => decide (a ≠ b)) s
/-- blt (R88). -/
def execBlt (ra rb : XOp) (off : BitVec 16) (s : State) : Out := branch ra rb off (fun a b => decide (a.toInt < b.toInt)) s
/-- bge (R88). -/
def execBge (ra rb : XOp) (off : BitVec 16) (s : State) : Out := branch ra rb off (fun a b => decide (b.toInt ≤ a.toInt)) s
/-- bltu (R88). -/
def execBltu (ra rb : XOp) (off : BitVec 16) (s : State) : Out := branch ra rb off (fun a b => decide (a.toNat < b.toNat)) s
/-- bgeu (R88). -/
def execBgeu (ra rb : XOp) (off : BitVec 16) (s : State) : Out := branch ra rb off (fun a b => decide (b.toNat ≤ a.toNat)) s

/-- jal (R89): x23 is always the link register. -/
def execJal (off : BitVec 26) (s : State) : Out :=
  let pc := (s.hart s.cur).pc
  finish s (do
    let w ← writeX (work s) (.reg 23) (pc + 4)
    pure (w.s.jumpTo (wordsOn pc off.toInt)))

/-- jalr (R89): the target is read before the link is written. -/
def execJalr (rd ra : XOp) (imm : BitVec 13) (pg : Pg) (s : State) : Out :=
  governedJump pg 4 (fun s => do
    let pc := (s.hart s.cur).pc
    let w ← fields s [Cls.x.src ra, Cls.x.dst rd]
    let (a, w) ← readX w 0 ra
    let w ← writeX w rd (pc + 4)
    pure (w.s.jumpTo (a + dw imm.toInt))) s

/-- rep (R59, R60, R91): the unit is checked, and REPC and STATUS.REP are set; its repeats follow at the same pc. Where the
word at A + 4 cannot be fetched, the unit's BOUNDS or UNCORR has TPC = A and TINFO0 = A + 4, a case that R60 and R90 do not
state (log entry 24). -/
def execRep (cnt : BitVec 6) (sd sa sb sc : BitVec 2) (s : State) : Out :=
  let a := s.cur
  let h := s.hart a
  let w0 := ((encode (.rep cnt sd sa sb sc)).headD 0)
  finish s (do
    let (s1, w1) ← s.fetchWord a (h.pc + 4)
    if repLegal (kindOf a) w0 w1 then
      pure (s1.modHart a (fun h => { h with rep := true, repc := BitVec.ofNat 7 (cnt.toNat + 1), hold := none }))
    else throw (.trap (repTrap w0 w1)))

/-- nop (R94). -/
def execNop (pg : Pg) (s : State) : Out := governed pg 4 (fun s => .ok s) s

/-- trap (R95): the pop commits, and SWTRAP is taken. -/
def execTrap (ra : XOp) (pg : Pg) (s : State) : Out :=
  governedJump pg 4 (fun s => do
    let (v, w) ← readX (work s) 0 ra
    pure (w.s.takeTrap s.cur (trapOf .swtrap v 0))) s

/-- Bytes of the first frame area of an agent, as it reads them (R48, R246). -/
def State.frameBytes (s : State) (a : AgentId) (n : Nat) : List Byte :=
  let v := (s.hart a).tframe.toNat
  match a with
  | .ctx p _ => (s.cell p).store.read (fld v 18 11 * 2048) n
  | .cond _ =>
    match s.extentNo a (fld v 47 40) with
    | none => List.replicate n 0
    | some e =>
      match (s.translate (s.holder a) e (fld v 39 12 * 4096) false).2 with
      | some (.bulk lo) => (List.range n).map (fun i => s.viewByte a (.bulk (lo + i)))
      | _ => List.replicate n 0

/-- The status bits a return may restore (R40). -/
def tstatLegal (t : DWord) : Bool := t.toNat < 2 ^ 11 && fld t.toNat 7 4 == 0 && !bitOf t.toNat 0

/-- The checks of step 1 of R48 on the frame header. -/
def frameLegal (s : State) (a : AgentId) (hdr : List Byte) : Bool :=
  let h := s.hart a
  let nent := (hdr.getD 0 0).toNat
  let repc := (hdr.getD 1 0).toNat
  let rep := bitOf h.tstat.toNat 1
  let repOk := match s.fetchWord a h.tpc with
    | .ok (_, w) =>
      if rep && fld w 31 26 == 0x1A then 1 ≤ repc && repc ≤ repCount w else true
    | .error _ => true
  tstatLegal h.tstat && nent ≤ 6 && ((hdr.drop 2).take 6).all (· == 0) && ((hdr.drop 32).take 32).all (· == 0) && repOk

/-- ends (R97, R210): the context ends the iteration; it waits to begin the next, or has finished. -/
def execEnds (pg : Pg) (s : State) : Out :=
  governedJump pg 4 (fun s => do
    let a := s.cur
    if (s.hart a).level then throw (.trap (trapOf .priv (w0Of (.ends pg)) 0))
    else
      let iters := match a with
        | .ctx p _ =>
          match (s.cell p).bound with
          | some (q, n, _) => ((s.clauseAt q n).map (·.iters)).getD 0
          | none => 0
        | .cond _ => 0
      pure (s.modHart a (fun h =>
        { h.retired a 4 with run := if h.begun < iters then .waiting else .finished, arrived := none }))) s

/-- Whether every access of an agent is performed at a level, with the writes of its pattern ports and its mst stores,
and from region scope on its side-log entries (R98, R169, R224, R246). -/
def State.released (s : State) (a : AgentId) (lvl : Nat) : Bool :=
  (s.hart a).performedAt lvl &&
    (match a with
      | .cond _ => true
      | .ctx p c =>
        (lvl = 0 || (s.cell p).ctx[c].ports.toList.all (fun o => o.chan || o.out.isEmpty)) &&
        (s.cell p).msts.all (fun m => m.ctx != c) && (lvl < 2 || (s.cell p).log.all (fun e => e.ctx != c)))

def Scope.level : Scope → Nat
  | .ctx => 0 | .cell => 1 | .region => 2 | .module => 3 | .system => 4

/-- The level a fence waits for; for a conductor cell scope is ctx scope (R245). -/
def fenceLevel (a : AgentId) (sc : Scope) : Nat := if a.isCond && Scope.level sc = 1 then 0 else Scope.level sc

/-- fence (R98). -/
def execFence (scope : Scope) (pg : Pg) (s : State) : Out :=
  governed pg 4 (fun s => if s.released s.cur (fenceLevel s.cur scope) then .ok s else .error (.hold .fence)) s

/-- The participants of an agent's barriers that may still be waited for: the present stages of its clause, or the conductors
of its region (R99). A stage whose role has not loaded is none yet; the stages of a released role have finished. -/
def State.barPeers (s : State) (a : AgentId) : List (Option AgentId) :=
  match a with
  | .ctx p _ =>
    match (s.cell p).bound with
    | none => []
    | some (q, n, _) =>
      match s.clauseAt q n with
      | none => []
      | some cl =>
        (cl.roles.zipIdx.filter (fun rd => !cl.released.contains rd.2)).flatMap (fun rd =>
          (rd.1.stages.zipIdx.filter (fun st => st.1.present)).map (fun st =>
            if cl.loaded.contains rd.2 then some (AgentId.ctx (cl.cells.getD rd.2 0) (Fin.ofNat 4 st.2)) else none))
  | .cond k =>
    match (s.cond k).region.bind s.region with
    | none => []
    | some r => r.clusters.map (fun c => some (AgentId.cond c))

/-- Whether a participant has done its part of barrier n of iteration i (R99). `begun` counts iterations begun, i + 1
for iteration i. -/
def Hart.arrivedAt (h : Hart) (cond : Bool) (begun n : Nat) : Bool :=
  if cond then h.run == .halted || n < h.barCount || h.arrived == some n
  else
    h.run == .stopped || h.run == .finished || begun < h.begun ||
      (h.begun == begun && (h.run == .waiting || n < h.barCount || h.arrived == some n))

/-- Whether every other participant of the agent's barrier n has arrived. -/
def State.barDone (s : State) (a : AgentId) (n : Nat) : Bool :=
  (s.barPeers a).all (fun b =>
    match b with
    | none => false
    | some b => b == a || (s.hart b).arrivedAt a.isCond (s.hart a).begun n)

/-- A participant passes its barrier. -/
def State.passBar (s : State) (a : AgentId) : State :=
  s.modHart a (fun h => { h.retired a 4 with barCount := h.barCount + 1, arrived := none })

/-- bar (R99): the agent's stores are performed at region scope, then it has arrived, and it passes once every
participant has. -/
def execBar (pg : Pg) (s : State) : Out :=
  governedJump pg 4 (fun s =>
    let a := s.cur
    let n := (s.hart a).barCount
    if s.released a 2 = false then .error (.hold .bar)
    else
      let s1 := s.modHart a (fun h => { h with arrived := some n })
      if s1.barDone a n then .ok (s1.passBar a) else .ok (s1.holdBy a .bar)) s

/-- wfa (R100). -/
def execWfa (pg : Pg) (s : State) : Out :=
  governed pg 4 (fun s =>
    match s.cur with
    | .cond _ => .error (.trap (trapOf .undef (w0Of (.wfa pg)) 0))
    | .ctx p c =>
      let h := (s.cell p).ctx[c]
      if h.armed = false then .error (.trap (trapOf .undef (w0Of (.wfa pg)) 0))
      else
        let l : Fin 16 := Fin.ofNat 16 h.line
        if (s.cell p).arrivals[l] = 0 then .error (.hold .wfa)
        else .ok (s.modCell p (fun x => { x with arrivals := x.arrivals.set l (x.arrivals[l] - 1) }))) s

/-- The largest pass among the other running contexts of a cell (R101). A context that waits for an iteration, has finished
or is stopped does not count (DEDUCED from the rule's last case, log entry 16). -/
def Cell.largestOther (x : Cell) (c : Fin 4) : Option DWord :=
  (List.finRange 4).foldl (fun acc d =>
    if d = c ∨ x.ctx[d].run ≠ .running then acc
    else match acc with | none => some x.ctx[d].pass | some p => some (passMax p x.ctx[d].pass)) none

/-- yield (R101): after the pass has advanced it is raised above the other contexts'. -/
def execYield (pg : Pg) (s : State) : Out :=
  governedJump pg 4 (fun s =>
    let s1 := s.retireBy s.cur 4
    match s.cur with
    | .cond _ => .ok s1
    | .ctx p c =>
      match (s1.cell p).largestOther c with
      | none => .ok s1
      | some m => .ok (s1.modHart s.cur (fun h => { h with pass := passMax h.pass (m + 1) }))) s

/-- halt (R102): when the conductor's commands have completed and the clause it last launched has been torn down, it
stops for good. -/
def execHalt (pg : Pg) (s : State) : Out :=
  governedJump pg 4 (fun s =>
    match s.cur with
    | .ctx _ _ => .error (.trap (trapOf .undef (w0Of (.halt pg)) 0))
    | .cond k =>
      let n := (s.cond k).hart.clause.toNat
      let down := match (s.cond k).region.bind s.region with
        | some r => n == 0 || r.completed.contains (n - 1)
        | none => true
      if (s.cond k).cmds.isEmpty && down then .ok (s.modHart s.cur (fun h => { h with run := .halted, hold := none }))
      else .error (.hold .halt)) s

end Sys2Proof.Machine
end

