-- ==== Sys2Proof/Machine/Mem.lean ====
section
/-! DEFINITION. Loads and stores, full/empty words, atomics and semaphores (spec/07 R158 to R169). -/
namespace Sys2Proof.Machine

/-- A load of `size` bytes into a scalar register (R160). -/
def loadX (rd ra : XOp) (off : BitVec 10) (pg : Pg) (size : Nat) (conv : Nat → DWord) (s : State) : Out :=
  governed pg 4 (fun s => Work.out do
    let w ← fields s [Cls.x.src ra, Cls.x.dst rd]
    let (b, w) ← readX w 0 ra
    dstThen w .x rd (effAddr b off size) size size false false
    let (bs, s') ← loadBytes w.s w.s.cur (effAddr b off size) size size
    writeX { w with s := s' } rd (conv (leNat bs))) s

/-- A store of the low bytes of a scalar (R160). -/
def storeX (rd ra : XOp) (off : BitVec 10) (pg : Pg) (size : Nat) (s : State) : Out :=
  governed pg 4 (fun s => do
    let w ← fields s [Cls.x.src ra, Cls.x.src rd]
    let (b, w) ← readX w 0 ra
    addrFirst w .x rd (effAddr b off size) size size false
    let (v, w) ← readX w 1 rd
    storeBytes w.s w.s.cur (effAddr b off size) (leBytes size v.toNat) size none true) s

/-- ld.b (R160). -/
def execLdB (rd ra : XOp) (off : BitVec 10) (pg : Pg) (s : State) : Out := loadX rd ra off pg 1 (fun n => dw (sextInt 8 n)) s
/-- ld.bu (R160). -/
def execLdBu (rd ra : XOp) (off : BitVec 10) (pg : Pg) (s : State) : Out := loadX rd ra off pg 1 dwn s
/-- ld.h (R160). -/
def execLdH (rd ra : XOp) (off : BitVec 10) (pg : Pg) (s : State) : Out := loadX rd ra off pg 2 (fun n => dw (sextInt 16 n)) s
/-- ld.hu (R160). -/
def execLdHu (rd ra : XOp) (off : BitVec 10) (pg : Pg) (s : State) : Out := loadX rd ra off pg 2 dwn s
/-- ld.w (R160). -/
def execLdW (rd ra : XOp) (off : BitVec 10) (pg : Pg) (s : State) : Out := loadX rd ra off pg 4 (fun n => dw (sextInt 32 n)) s
/-- ld.wu (R160). -/
def execLdWu (rd ra : XOp) (off : BitVec 10) (pg : Pg) (s : State) : Out := loadX rd ra off pg 4 dwn s
/-- ld.d (R160). -/
def execLdD (rd ra : XOp) (off : BitVec 10) (pg : Pg) (s : State) : Out := loadX rd ra off pg 8 dwn s
/-- st.b (R160). -/
def execStB (rd ra : XOp) (off : BitVec 10) (pg : Pg) (s : State) : Out := storeX rd ra off pg 1 s
/-- st.h (R160). -/
def execStH (rd ra : XOp) (off : BitVec 10) (pg : Pg) (s : State) : Out := storeX rd ra off pg 2 s
/-- st.w (R160). -/
def execStW (rd ra : XOp) (off : BitVec 10) (pg : Pg) (s : State) : Out := storeX rd ra off pg 4 s
/-- st.d (R160). -/
def execStD (rd ra : XOp) (off : BitVec 10) (pg : Pg) (s : State) : Out := storeX rd ra off pg 8 s

/-- A block loaded bit for bit (R160). -/
def loadA (rd : AOp) (ra : XOp) (off : BitVec 10) (pg : Pg) (a32 : Bool) (s : State) : Out :=
  governed pg 4 (fun s => Work.out do
    let w ← fields s [Cls.x.src ra, (Cls.a.dst rd).of a32]
    let (b, w) ← readX w 0 ra
    dstThen w .a rd (effAddr b off 2) (if a32 then 20 else 10) 2 false false
    let (bs, s') ← loadBytes w.s w.s.cur (effAddr b off 2) (if a32 then 20 else 10) 2
    writeA { w with s := s' } rd (blockFrom a32 bs)) s

/-- A block stored bit for bit, whatever its tag (R160). -/
def storeA (rd : AOp) (ra : XOp) (off : BitVec 10) (pg : Pg) (a32 : Bool) (s : State) : Out :=
  governed pg 4 (fun s => do
    let w ← fields s [Cls.x.src ra, Cls.a.src rd]
    let (b, w) ← readX w 0 ra
    addrFirst w .a rd (effAddr b off 2) (if a32 then 20 else 10) 2 false
    let (v, w) ← readA w 1 rd
    storeBytes w.s w.s.cur (effAddr b off 2) (v.bytes a32) 2 none true) s

/-- lda.a4 (R160). -/
def execLdaA4 (rd : AOp) (ra : XOp) (off : BitVec 10) (pg : Pg) (s : State) : Out := loadA rd ra off pg false s
/-- lda.a32 (R160). -/
def execLdaA32 (rd : AOp) (ra : XOp) (off : BitVec 10) (pg : Pg) (s : State) : Out := loadA rd ra off pg true s
/-- sta.a4 (R160). -/
def execStaA4 (rd : AOp) (ra : XOp) (off : BitVec 10) (pg : Pg) (s : State) : Out := storeA rd ra off pg false s
/-- sta.a32 (R160). -/
def execStaA32 (rd : AOp) (ra : XOp) (off : BitVec 10) (pg : Pg) (s : State) : Out := storeA rd ra off pg true s

/-- A wide value loaded in the memory form of token type `t` (R160). -/
def loadW (rd : WOp) (ra : XOp) (off : BitVec 10) (pg : Pg) (t : Nat) (s : State) : Out :=
  governed pg 4 (fun s => Work.out do
    let w ← fields s [Cls.x.src ra, Cls.w.dst rd]
    let (b, w) ← readX w 0 ra
    dstThen w .w rd (effAddr b off 4) (tokenSize t) 4 false false
    let (bs, s') ← loadBytes w.s w.s.cur (effAddr b off 4) (tokenSize t) 4
    writeW { w with s := s' } rd (tokenFrom t bs).wideVal) s

/-- ldw.fp32 (R160). -/
def execLdwFp32 (rd : WOp) (ra : XOp) (off : BitVec 10) (pg : Pg) (s : State) : Out := loadW rd ra off pg 6 s
/-- ldw.bf16 (R160). -/
def execLdwBf16 (rd : WOp) (ra : XOp) (off : BitVec 10) (pg : Pg) (s : State) : Out := loadW rd ra off pg 7 s

/-- stw.fp32 (R160): lanes bit for bit. -/
def execStwFp32 (rd : WOp) (ra : XOp) (off : BitVec 10) (pg : Pg) (s : State) : Out :=
  governed pg 4 (fun s => do
    let w ← fields s [Cls.x.src ra, Cls.w.src rd]
    let (b, w) ← readX w 0 ra
    addrFirst w .w rd (effAddr b off 4) 96 4 false
    let (v, w) ← readW w 1 rd
    storeBytes w.s w.s.cur (effAddr b off 4) ((Token.wide v).bytes 6) 4 none true) s

/-- stw.bf16 (R26, R160): lanes converted, the flags of the conversion set. -/
def execStwBf16 (rd : WOp) (ra : XOp) (off : BitVec 10) (pg : Pg) (s : State) : Out :=
  governed pg 4 (fun s => do
    let w ← fields s [Cls.x.src ra, Cls.w.src rd]
    let (b, w) ← readX w 0 ra
    addrFirst w .w rd (effAddr b off 4) 48 4 false
    let (v, w) ← readW w 1 rd
    let r := tokenFor 7 (.wide v)
    let s' ← storeBytes w.s w.s.cur (effAddr b off 4) (r.1.bytes 7) 4 none true
    pure (s'.orFlags w.s.cur r.2)) s

/-! ### Full/empty words -/

/-- The ldf that an agent waits in. -/
def State.waiter (s : State) (a : AgentId) : Option LdfWaiter := s.ldfWait.find? (fun w => w.agent == a)
def State.dropWaiter (s : State) (a : AgentId) : State := { s with ldfWait := s.ldfWait.filter (fun w => w.agent != a) }

/-- A waiting ldf takes its place: behind those that began in earlier cycles, and among those of its own cycle by agent
index (R162, R166). -/
def joinWaiters (w : LdfWaiter) : List LdfWaiter → List LdfWaiter
  | [] => [w]
  | x :: r => if x.began = w.began ∧ w.agent.index < x.agent.index then w :: x :: r else x :: joinWaiters w r

def State.joinWait (s : State) (w : LdfWaiter) : State := { s with ldfWait := joinWaiters w s.ldfWait }

/-- The value of an ldf, when its word is full and no earlier waiter of it empties it; else where it waits (R162). -/
def ldfTry (s : State) (a : AgentId) (v : DWord) (size : Nat) (clear : Bool) : Res (Sum (DWord × State) (List Place × State)) := do
  let site ← checkAddr s a v size size clear true
  if clear then windowCheck s a site size else .ok ()
  if (s.hart a).capt.isNone then raceCheck s a site v size
  if waitHeld s a then throw (.hold .waitField)
  else if orderHeld s a site then throw (.hold .clauseOrder)
  else if clear && siteProtected s site size then throw (.hold .protect)
  else
    let s ← settleOut s a site size
    let take (s : State) (pl : List Place) : Res (Sum (DWord × State) (List Place × State)) := do
      uncorrAt s v pl
      let word := (pl.headD (.seam 0)).word
      let ahead := s.ldfWait.any (fun w => w.clear && w.agent != a && w.got == none && (w.bytes.head?.map Place.word) == some word)
      if s.isFull word && !(clear && ahead) then
        let s1 := s.modHart a (fun h => { h with early := h.early.filter (fun b => !pl.contains b.1) })
        pure (.inl (dwn (leNat (s.getBytes pl)), if clear then s1.setFull false word else s1))
      else pure (.inr (pl, s))
    match site with
    | .store p off => take s ((List.range size).map (fun i => Place.store p (off + i)))
    | .ext e off =>
      let (s1, ps) := s.translateN (s.holder a) e off clear size
      if ps.all (fun x => x.2 != none) then
        let pl := placesOf ps
        take (bindExtent (s1.settle a (pl.map Place.word ++ pl)) a site) pl
      else
        let log := AgentId.log s1 a
        let bs := ps.map (fun x => logByte log (AgentId.ctx4 a) e.sort x.1)
        let full := (logFe log (AgentId.ctx4 a) e.sort (e.base + off)) == some true
        if full && bs.all (· != none) then do
          logGood log (AgentId.ctx4 a) e.sort v (ps.map (·.1))
          let got := dwn (leNat (bs.filterMap id))
          match clear, a with
          | true, .ctx p c =>
            if 64 < log.length + 1 then throw (.hold .logFull)
            else pure (.inl (got, logStore s1 p c e.sort [] [((e.base + off) / 8 * 8, false)] none))
          | _, _ => pure (.inl (got, s1))
        else throw (.page (missOf e v (s.hart a).pc 2 off ps))

/-- An ldf that a fill has released completes: its port is popped and its register written (R162); or its word was
uncorrectable (R276). -/
def ldfTake (s : State) (w : LdfWaiter) (v : DWord) : Res State := do
  let (_, k) ← readX (work s) 0 w.ra
  if w.bad then throw (.bad ((w.bytes.find? s.isBad).getD (w.bytes.headD (.seam 0))) (trapOf .uncorr w.addr 0))
  let k ← writeX k w.rd v
  let s1 := k.s.modHart w.agent (fun h => { h with early := h.early.filter (fun b => !w.bytes.contains b.1) })
  pure ((s1.dropWaiter w.agent).retireBy w.agent 4)

/-- A waiting ldf that a fill has released is done with its word: it completes (R162). When it cannot, the word keeps
what the fill gave it. -/
def State.finishLdf (s : State) (a : AgentId) : State :=
  match (s.waiter a).bind (fun w => w.got.map (fun v => (w, v))) with
  | none => s.dropWaiter a
  | some (w, v) =>
    match ldfTake { s with cur := a } w v with
    | .ok s' => { s' with cur := s.cur }
    | .error _ => ((w.bytes.head?.map (fun p => if w.clear then s.setFull true p else s)).getD s).dropWaiter a

/-- A waiting ldf that a fill has released ends: it completes, or takes its trap. -/
def ldfEnd (a : AgentId) (w : LdfWaiter) (v : DWord) (s : State) : Out :=
  match ldfTake s w v with
  | .ok s' => .next s'
  | .error (.hold h) => .next (s.holdBy a h)
  | .error e => .next ((s.dropWaiter a).stopBy a e)

/-- ldf (R162): a waiter joins the end of the waiting list and takes its value when a fill releases it. Its own earlier
accesses to the word have been performed before it waits (R161). -/
def ldfInstr (rd ra : XOp) (off : BitVec 10) (pg : Pg) (size : Nat) (clear : Bool) (s : State) : Out :=
  let a := s.cur
  if (s.hart a).badPred pg then .next (s.takeTrap a (regTrap 3 pg.val))
  else if (s.hart a).pred pg = false then .next (s.retireBy a 4)
  else
    match (s.waiter a).bind (fun w => w.got.map (fun v => (w, v))) with
    | some (w, v) => ldfEnd a w v s
    | none =>
      let r : Res (Sum State State) := do
        let w ← fields s [Cls.x.src ra, Cls.x.dst rd]
        let (b, w) ← readX w 0 ra
        dstThen w .x rd (effAddr b off size) size size clear true
        match ← ldfTry w.s a (effAddr b off size) size clear with
        | .inl (v, s') =>
          let k ← writeX { w with s := s' } rd v
          pure (.inl ((k.s.dropWaiter a).retireBy a 4))
        | .inr _ =>
          match ← ldfTry s a (effAddr b off size) size clear with
          | .inl _ => throw (.hold .ldf)
          | .inr (pl, s0) =>
            let s1 := if (s0.waiter a).isSome then s0
              else s0.joinWait ⟨a, effAddr b off size, pl, clear, rd, ra, s.cycle, none, false⟩
            pure (.inr (s1.holdBy a .ldf))
      match r with
      | .ok (.inl s') => .next s'
      | .ok (.inr s') => .next s'
      | .error e => .next (s.stopBy a e)

/-- ldf.w (R162). -/
def execLdfW (rd ra : XOp) (off : BitVec 10) (pg : Pg) (s : State) : Out := ldfInstr rd ra off pg 4 false s
/-- ldf.d (R162). -/
def execLdfD (rd ra : XOp) (off : BitVec 10) (pg : Pg) (s : State) : Out := ldfInstr rd ra off pg 8 false s
/-- ldf.dc (R162): the word is emptied. -/
def execLdfDc (rd ra : XOp) (off : BitVec 10) (pg : Pg) (s : State) : Out := ldfInstr rd ra off pg 8 true s

/-- LDF_RELEASE (R162): the earliest waiting ldf that a fill of the word has released ends. Its context is ready with it
(R50). One in a frame goes on with its rett (R48). -/
def execLdfRelease (word : Place) (s : State) : Out :=
  match s.ldfWait.find? (fun w => w.got.isSome && (w.bytes.head?.map Place.word) == some word.word) with
  | none => .next s
  | some w =>
    if (s.hart w.agent).replayed ≠ 0 then .next s
    else
      match ldfEnd w.agent w (w.got.getD 0) (({ s with cur := w.agent } : State).nowReady w.agent) with
      | .next s' => .next { s' with cur := s.cur }
      | _ => .next s

/-- A store that marks its word full (R162). -/
def stfInstr (rd ra : XOp) (off : BitVec 10) (pg : Pg) (size : Nat) (s : State) : Out :=
  governed pg 4 (fun s => do
    let w ← fields s [Cls.x.src ra, Cls.x.src rd]
    let (b, w) ← readX w 0 ra
    addrFirst w .x rd (effAddr b off size) size size true
    let (v, w) ← readX w 1 rd
    storeBytes w.s w.s.cur (effAddr b off size) (leBytes size v.toNat) size (some true) true) s

/-- stf.w (R162). -/
def execStfW (rd ra : XOp) (off : BitVec 10) (pg : Pg) (s : State) : Out := stfInstr rd ra off pg 4 s
/-- stf.d (R162). -/
def execStfD (rd ra : XOp) (off : BitVec 10) (pg : Pg) (s : State) : Out := stfInstr rd ra off pg 8 s

/-- The bit of a word set alone (R163). -/
def feInstr (ra : XOp) (off : BitVec 10) (pg : Pg) (on : Bool) (s : State) : Out :=
  governed pg 4 (fun s => do
    let (b, w) ← readX (work s) 0 ra
    storeBytes w.s w.s.cur (effAddr b off 8) (List.replicate 8 0) 8 (some on) false) s

/-- fset (R163). -/
def execFset (ra : XOp) (off : BitVec 10) (pg : Pg) (s : State) : Out := feInstr ra off pg true s
/-- fclr (R163). -/
def execFclr (ra : XOp) (off : BitVec 10) (pg : Pg) (s : State) : Out := feInstr ra off pg false s

/-- The bit of a word as an agent reads it (R163, R264). -/
def feRead (s : State) (a : AgentId) (v : DWord) : Res (Bool × State) := do
  let site ← checkAddr s a v 8 8 false true
  if (s.hart a).capt.isNone then raceCheck s a site v 8
  if waitHeld s a then throw (.hold .waitField)
  else if orderHeld s a site then throw (.hold .clauseOrder)
  else
    match site with
    | .store p off => pure (s.isFull (.store p off), s)
    | .ext e off =>
      match s.translate (s.holder a) e off false with
      | (s1, some p) => pure ((pendFe (s1.hart a).pend p).getD (s1.isFull p), bindExtent s1 a site)
      | (s1, none) =>
        match logFe (AgentId.log s1 a) (AgentId.ctx4 a) e.sort (e.base + off) with
        | some b => pure (b, s1)
        | none => throw (.page ⟨e.sort, v, e.base + off, 0, (s.hart a).pc, none⟩)

/-- ftst (R163). -/
def execFtst (rd ra : XOp) (off : BitVec 10) (pg : Pg) (s : State) : Out :=
  governed pg 4 (fun s => Work.out do
    let w ← fields s [Cls.x.src ra, Cls.x.dst rd]
    let (b, w) ← readX w 0 ra
    dstThen w .x rd (effAddr b off 8) 8 8 false true
    let (f, s') ← feRead w.s w.s.cur (effAddr b off 8)
    writeX { w with s := s' } rd (dwn (b2n f))) s

/-! ### Atomics -/

/-- amo (R164): the old value is returned; DETERM in deterministic mode (R167). -/
def amoInstr (fn : AmoFn) (rd ra rb : XOp) (pg : Pg) (w0 : DWord) (s : State) : Out :=
  governed pg 4 (fun s => Work.out do
    let w ← fields s [Cls.x.src ra, Cls.x.src rb, Cls.x.dst rd]
    let (v, w) ← readX w 0 ra
    addrFirst w .x rb v 8 8 false
    let (b, w) ← readX w 1 rb
    dstThen w .x rd v 8 8 true false
    let (old, s') ← atomic w.s w.s.cur v (fun _ => true) w0 (fun o => fn.apply o b) none
    writeX { w with s := s' } rd old) s

/-- amon (R164): no result; on an extent it is accepted and performed later (R165). -/
def amonInstr (fn : AmoFn) (ra rb : XOp) (pg : Pg) (s : State) : Out :=
  governed pg 4 (fun s => do
    let w ← fields s [Cls.x.src ra, Cls.x.src rb]
    let (v, w) ← readX w 0 ra
    addrFirst w .x rb v 8 8 false
    let (b, w) ← readX w 1 rb
    let (_, s') ← atomic w.s w.s.cur v (fun _ => false) 0 (fun o => fn.apply o b) (some (fn, b))
    pure s') s

/-- amo.add (R164). -/
def execAmoAdd (rd ra rb : XOp) (pg : Pg) (s : State) : Out :=
  amoInstr .add rd ra rb pg (w0Of (.amoAdd rd ra rb pg)) s
/-- amo.min (R164). -/
def execAmoMin (rd ra rb : XOp) (pg : Pg) (s : State) : Out :=
  amoInstr .min rd ra rb pg (w0Of (.amoMin rd ra rb pg)) s
/-- amo.max (R164). -/
def execAmoMax (rd ra rb : XOp) (pg : Pg) (s : State) : Out :=
  amoInstr .max rd ra rb pg (w0Of (.amoMax rd ra rb pg)) s
/-- amo.minu (R164). -/
def execAmoMinu (rd ra rb : XOp) (pg : Pg) (s : State) : Out :=
  amoInstr .minu rd ra rb pg (w0Of (.amoMinu rd ra rb pg)) s
/-- amo.maxu (R164). -/
def execAmoMaxu (rd ra rb : XOp) (pg : Pg) (s : State) : Out :=
  amoInstr .maxu rd ra rb pg (w0Of (.amoMaxu rd ra rb pg)) s
/-- amo.and (R164). -/
def execAmoAnd (rd ra rb : XOp) (pg : Pg) (s : State) : Out :=
  amoInstr .and rd ra rb pg (w0Of (.amoAnd rd ra rb pg)) s
/-- amo.or (R164). -/
def execAmoOr (rd ra rb : XOp) (pg : Pg) (s : State) : Out :=
  amoInstr .or rd ra rb pg (w0Of (.amoOr rd ra rb pg)) s
/-- amo.xor (R164). -/
def execAmoXor (rd ra rb : XOp) (pg : Pg) (s : State) : Out :=
  amoInstr .xor rd ra rb pg (w0Of (.amoXor rd ra rb pg)) s
/-- amo.swap (R164). -/
def execAmoSwap (rd ra rb : XOp) (pg : Pg) (s : State) : Out :=
  amoInstr .swap rd ra rb pg (w0Of (.amoSwap rd ra rb pg)) s
/-- amon.add (R164). -/
def execAmonAdd (ra rb : XOp) (pg : Pg) (s : State) : Out := amonInstr .add ra rb pg s
/-- amon.min (R164). -/
def execAmonMin (ra rb : XOp) (pg : Pg) (s : State) : Out := amonInstr .min ra rb pg s
/-- amon.max (R164). -/
def execAmonMax (ra rb : XOp) (pg : Pg) (s : State) : Out := amonInstr .max ra rb pg s
/-- amon.minu (R164). -/
def execAmonMinu (ra rb : XOp) (pg : Pg) (s : State) : Out := amonInstr .minu ra rb pg s
/-- amon.maxu (R164). -/
def execAmonMaxu (ra rb : XOp) (pg : Pg) (s : State) : Out := amonInstr .maxu ra rb pg s
/-- amon.and (R164). -/
def execAmonAnd (ra rb : XOp) (pg : Pg) (s : State) : Out := amonInstr .and ra rb pg s
/-- amon.or (R164). -/
def execAmonOr (ra rb : XOp) (pg : Pg) (s : State) : Out := amonInstr .or ra rb pg s
/-- amon.xor (R164). -/
def execAmonXor (ra rb : XOp) (pg : Pg) (s : State) : Out := amonInstr .xor ra rb pg s

/-- cas (R164, R167). -/
def execCas (rd ra rb rc : XOp) (pg : Pg) (s : State) : Out :=
  governed pg 4 (fun s => Work.out do
    let w ← fields s [Cls.x.src ra, Cls.x.src rb, Cls.x.src rc, Cls.x.dst rd]
    let (v, w) ← readX w 0 ra
    addrFirst w .x rb v 8 8 false
    let (b, w) ← readX w 1 rb
    addrFirst w .x rc v 8 8 false
    let (c, w) ← readX w 2 rc
    dstThen w .x rd v 8 8 true false
    let (old, s') ← atomic w.s w.s.cur v (fun site => !inWindow w.s w.s.cur site 8) (w0Of (.cas rd ra rb rc pg))
      (fun o => if o = b then c else o) none
    writeX { w with s := s' } rd old) s

/-! ### Semaphores -/

/-- A count of the agent's region (R168). -/
def State.semCount (s : State) (q : Nat) (sem : BitVec 8) : Nat :=
  ((s.region q).map (fun r => tget r.sems sem.toNat 0)).getD 0

def State.setSem (s : State) (q : Nat) (sem : BitVec 8) (n : Nat) : State :=
  s.modRegion q (fun r => { r with sems := tset r.sems sem.toNat n })

/-- A count raised, saturating (R168). -/
def State.addSem (s : State) (q : Nat) (sem : BitVec 8) (c : Nat) : State :=
  s.setSem q sem (min (s.semCount q sem + c) 0xFFFFFFFF)

/-- The waiters of a semaphore, first first. -/
def State.semWaiters (s : State) (q : Nat) (sem : BitVec 8) : List SemWaiter :=
  ((s.region q).map (fun r => r.semWait.filter (fun w => w.sem == sem))).getD []

def State.dropSemWait (s : State) (q : Nat) (a : AgentId) : State :=
  s.modRegion q (fun r => { r with semWait := r.semWait.filter (fun w => w.agent != a) })

/-- A semw whose turn it is takes its count (R168). -/
def semTake (s : State) (a : AgentId) (q : Nat) (sem : BitVec 8) (ra : XOp) (c : Nat) : Res State := do
  let (_, w) ← readX (work s) 0 ra
  pure (((w.s.setSem q sem (w.s.semCount q sem - c)).dropSemWait q a).retireBy a 4)

/-- semw (R168): satisfied in the order in which the waiters began. -/
def execSemw (sem : BitVec 8) (ra : XOp) (pg : Pg) (s : State) : Out :=
  governedJump pg 4 (fun s => do
    let a := s.cur
    let q := (s.regionOf a).getD 64
    let (v, _) ← readX (work s) 0 ra
    let c := v.toNat % 2 ^ 32
    let ws := s.semWaiters q sem
    let first := match ws with | [] => true | w :: _ => w.agent == a
    if c = 0 then semTake s a q sem ra 0
    else if first && c ≤ s.semCount q sem then semTake s a q sem ra c
    else
      let s1 := if ws.any (fun w => w.agent == a) then s
        else s.modRegion q (fun r => { r with semWait := r.semWait ++ [⟨a, sem, c, ra⟩] })
      pure (s1.holdBy a .sem)) s

/-- sems (R168, R169): a release, so the agent's stores are performed at region scope first. -/
def execSems (sem : BitVec 8) (ra : XOp) (pg : Pg) (s : State) : Out :=
  governed pg 4 (fun s => do
    let (v, w) ← readX (work s) 0 ra
    if w.s.released w.s.cur 2 then pure (w.s.addSem ((w.s.regionOf w.s.cur).getD 64) sem (v.toNat % 2 ^ 32))
    else throw (.hold .fence)) s

/-- semr (R168). -/
def execSemr (rd : XOp) (sem : BitVec 8) (pg : Pg) (s : State) : Out :=
  governed pg 4 (fun s => Work.out
    (writeX (work s) rd (dwn (s.semCount ((s.regionOf s.cur).getD 64) sem)))) s

/-- SEMAPHORE_WAITER_SATISFIED (R168): the first waiter of a semaphore takes its count when the count reaches it. -/
def execSemaphoreWaiterSatisfied (queue : Nat) (sem : BitVec 8) (s : State) : Out :=
  match s.semWaiters queue sem with
  | [] => .next s
  | w :: _ =>
    if s.semCount queue sem < w.count ∨ (s.hart w.agent).replayed ≠ 0 then .next s
    else
      match semTake (({ s with cur := w.agent } : State).nowReady w.agent) w.agent queue sem w.ra w.count with
      | .ok s' => .next { s' with cur := s.cur }
      | .error _ => .next s

end Sys2Proof.Machine
end

