-- ==== Sys2Proof/Machine/Streams.lean ====
section
/-! DEFINITION. The port group and `bmk`, a cell's patterns, and the access-pattern engine's steps (spec/07 R170 to
R176, R182, R183; spec/11 R221 to R225). -/
namespace Sys2Proof.Machine

/-- A port that a port-group instruction may act on (R35, R170, R209). -/
def portCheck (o : Port) (needIn : Bool) (accepts : Nat → Bool) (cls : Nat) (q : Fin 8) : Res Unit :=
  if !o.used || (needIn && !o.input) || !accepts o.ttype then .error (.trap (portTrap .porttype o cls (24 + q.val) q.val))
  else .ok ()

def State.port (s : State) (q : Fin 8) : Port := (s.hart s.cur).ports[q]

/-- A port-group instruction that writes what it reads of a port (R171). -/
def portRead (rd : XOp) (qa : Fin 8) (pg : Pg) (f : Port → DWord) (s : State) : Out :=
  governed pg 4 (fun s => Work.out do
    let w ← fields s [Cls.x.dst rd]
    portCheck (s.port qa) false (fun _ => true) 0 qa
    writeX w rd (f (s.port qa))) s

/-- spos (R171). -/
def execSpos (rd : XOp) (qa : Fin 8) (pg : Pg) (s : State) : Out := portRead rd qa pg (fun o => dwn o.next.1) s
/-- socc (R171). -/
def execSocc (rd : XOp) (qa : Fin 8) (pg : Pg) (s : State) : Out := portRead rd qa pg Port.qocc s

/-- mkpop (R172, R212). A failed token at the head is no marker: it stays, 0 is written, and nothing traps, which R172 does
not state (log entry 71). -/
def execMkpop (rd : XOp) (qa : Fin 8) (pg : Pg) (s : State) : Out :=
  governed pg 4 (fun s => Work.out do
    let _ ← fields s [Cls.x.dst rd]
    portCheck (s.port qa) true (fun _ => true) 0 qa
    match (s.port qa).queue with
    | [] => throw (.hold (.empty qa))
    | e :: _ =>
      match e.item with
      | .marker c => writeX (work (s.popHead s.cur qa)) rd (dwn c.toNat)
      | .drain => writeX (work s) rd 0xFF
      | .data _ | .failed _ _ | .trapped _ _ _ => writeX (work s) rd 0) s

/-- How a loop over tokens ends: done, or stopped with what it has done in place. -/
abbrev Part := State × Option Stop

/-- An instruction whose pops commit one by one (R173, R175): it retires, or stops with its partial effect. -/
def partial4 (pg : Pg) (body : State → Part) (s : State) : Out :=
  if (s.hart s.cur).badPred pg then .next (s.takeTrap s.cur (regTrap 3 pg.val))
  else if (s.hart s.cur).pred pg then
    match body s with
    | (s', none) => .next (s'.retireBy s.cur 4)
    | (s', some e) => .next (s'.stopBy s.cur e)
  else .next (s.retireBy s.cur 4)

/-- The loop of sskip (R173). -/
def skipLoop (qa : Fin 8) (rb : Fin 24) : Nat → State → Part
  | 0, s => (s, none)
  | k + 1, s =>
    let n := if rb = 0 then 0 else (s.hart s.cur).x[rb].toNat
    if n = 0 then (s, none)
    else
      match (s.port qa).queue with
      | [] => (s, some (.hold (.empty qa)))
      | e :: _ =>
        match e.item with
        | .marker _ | .drain => (s, none)
        | .failed _ _ | .trapped _ _ _ => (s, some (.trap ((s.port qa).entryTrap e 0 (24 + qa.val) qa.val)))
        | .data _ =>
          skipLoop qa rb k ((s.popHead s.cur qa).modHart s.cur (fun h => { h with x := h.x.set rb (dwn (n - 1)) }))

/-- sskip (R173). -/
def execSskip (qa : Fin 8) (rb : Fin 24) (pg : Pg) (s : State) : Out :=
  partial4 pg (fun s =>
    match (do
      portCheck (s.port qa) true (fun _ => true) 0 qa
      badReg (s.hart s.cur) 0 rb.val : Res Unit) with
    | .error e => (s, some e)
    | .ok () => skipLoop qa rb ((s.port qa).queue.length + 1) s) s

/-- The entries that the current pattern has queued at an input port: the run of consecutive numbers that ends with
the last one fetched. -/
def ownCount (pos : Nat) : List Entry → Nat
  | [] => 0
  | e :: r => if e.seq + 1 = pos then 1 + ownCount e.seq r else 0

/-- A port whose current pattern is abandoned (R174). -/
def Port.abandon (o : Port) : Port :=
  let own := match o.cur with
    | some p => ownCount p.pos o.queue.reverse
    | none => 0
  { o with queue := o.queue.take (o.queue.length - own), out := [], cur := o.nxt, nxt := none, held := false
           seen := [] }

/-- Whether the writes of the tokens pushed to a port are all performed: none stands at the port or in the side log
(R174, R223, R265). -/
def State.portWritten (s : State) (a : AgentId) (q : Fin 8) : Bool :=
  ((s.hart a).ports[q]).out.isEmpty &&
    (match a with
      | .ctx p c => (s.cell p).log.all (fun e => e.ctx != c || e.port != some q)
      | .cond _ => true)

/-- srst (R174). -/
def execSrst (qa : Fin 8) (pg : Pg) (s : State) : Out :=
  governed pg 4 (fun s => do
    let o := s.port qa
    portCheck o false (fun _ => true) 0 qa
    if o.chan then throw (.trap (portTrap .porttype o 0 (24 + qa.val) qa.val))
    else if !s.portWritten s.cur qa then throw (.hold .srst)
    else pure (s.modHart s.cur (fun h => { h with ports := h.ports.set qa o.abandon }))) s

/-- A partial value kept in rd with STATUS.RDH set, or the final one with it clear (R175). -/
def keepX (rd : Fin 24) (v : DWord) (held : Bool) (s : State) : State :=
  s.modHart s.cur (fun h => { (if rd = 0 then h else { h.cured 0 rd.val with x := h.x.set rd v }) with rdh := held })

def keepW (rd : Fin 24) (v : Wide) (held : Bool) (s : State) : State :=
  s.modHart s.cur (fun h => { h.cured 2 rd.val with w := h.w.set rd v, rdh := held })

/-- The loop of sisect (R175). -/
def sectLoop (rd : Fin 24) (qa qb : Fin 8) : Nat → DWord → State → Part
  | 0, c, s => (keepX rd c false s, none)
  | k + 1, c, s =>
    let stop (q : Fin 8) (e : Entry) : Part :=
      (keepX rd c true s, some (.trap ((s.port q).entryTrap e 0 (24 + q.val) q.val)))
    match (s.port qa).queue, (s.port qb).queue with
    | [], _ => (keepX rd c true s, some (.hold (.empty qa)))
    | _, [] => (keepX rd c true s, some (.hold (.empty qb)))
    | ea :: _, eb :: _ =>
      match ea.item, eb.item with
      | .marker _, .marker _ => (keepX rd c false ((s.popHead s.cur qa).popHead s.cur qb), none)
      | .marker _, .data _ => sectLoop rd qa qb k c (s.popHead s.cur qb)
      | .data _, .marker _ => sectLoop rd qa qb k c (s.popHead s.cur qa)
      | .data a, .data b =>
        if a.scalarVal.toNat < b.scalarVal.toNat then sectLoop rd qa qb k c (s.popHead s.cur qa)
        else if b.scalarVal.toNat < a.scalarVal.toNat then sectLoop rd qa qb k c (s.popHead s.cur qb)
        else sectLoop rd qa qb k (c + 1) ((s.popHead s.cur qa).popHead s.cur qb)
      | .drain, _ | .failed _ _, _ | .trapped _ _ _, _ => stop qa ea
      | _, .drain | _, .failed _ _ | _, .trapped _ _ _ => stop qb eb

def scalarType (t : Nat) : Bool := t ≤ 3
def wideType (t : Nat) : Bool := t == 6 || t == 7

/-- Where a reduction starts: its initial value, or the partial one in rd (R175). -/
def startX (s : State) (rd : Fin 24) : Res DWord :=
  if (s.hart s.cur).rdh then do
    badReg (s.hart s.cur) 0 rd.val
    pure (if rd = 0 then 0 else (s.hart s.cur).x[rd])
  else .ok 0

def startW (s : State) (rd : Fin 24) : Res Wide :=
  if (s.hart s.cur).rdh then do
    badReg (s.hart s.cur) 2 rd.val
    pure (s.hart s.cur).w[rd]
  else .ok Wide.zero

/-- sisect (R175). -/
def execSisect (rd : Fin 24) (qa qb : Fin 8) (pg : Pg) (s : State) : Out :=
  partial4 pg (fun s =>
    match (do
      portCheck (s.port qa) true scalarType 0 qa
      portCheck (s.port qb) true scalarType 0 qb
      startX s rd : Res DWord) with
    | .error e => (s, some e)
    | .ok c => sectLoop rd qa qb ((s.port qa).queue.length + (s.port qb).queue.length + 1) c s) s

/-- The loop of saccx (R175). -/
def sumLoop (rd : Fin 24) (qa : Fin 8) : Nat → DWord → State → Part
  | 0, c, s => (keepX rd c true s, some (.hold (.empty qa)))
  | k + 1, c, s =>
    match (s.port qa).queue with
    | [] => (keepX rd c true s, some (.hold (.empty qa)))
    | e :: _ =>
      match e.item with
      | .marker _ => (keepX rd c false (s.popHead s.cur qa), none)
      | .data v => sumLoop rd qa k (c + v.scalarVal) (s.popHead s.cur qa)
      | .drain | .failed _ _ | .trapped _ _ _ => (keepX rd c true s, some (.trap ((s.port qa).entryTrap e 0 (24 + qa.val) qa.val)))

/-- saccx (R175). -/
def execSaccx (rd : Fin 24) (qa : Fin 8) (pg : Pg) (s : State) : Out :=
  partial4 pg (fun s =>
    match (do
      portCheck (s.port qa) true scalarType 0 qa
      startX s rd : Res DWord) with
    | .error e => (s, some e)
    | .ok c => sumLoop rd qa ((s.port qa).queue.length + 1) c s) s

/-- One token added lane by lane as the loop of R118 does (R175). -/
def accLanes (u v : Wide) : Wide × Flags := lanesOf (fun l =>
  let r := reduceStep fadd u[l] (flush v[l])
  (r.1, r.2 ||| snanFlag [v[l]]))

/-- The loop of sacc (R175). -/
def accLoop (rd : Fin 24) (qa : Fin 8) : Nat → Wide → State → Part
  | 0, c, s => (keepW rd c true s, some (.hold (.empty qa)))
  | k + 1, c, s =>
    match (s.port qa).queue with
    | [] => (keepW rd c true s, some (.hold (.empty qa)))
    | e :: _ =>
      match e.item with
      | .marker _ => (keepW rd c false (s.popHead s.cur qa), none)
      | .data v =>
        let r := accLanes c v.wideVal
        accLoop rd qa k r.1 ((s.popHead s.cur qa).orFlags s.cur r.2)
      | .drain | .failed _ _ | .trapped _ _ _ => (keepW rd c true s, some (.trap ((s.port qa).entryTrap e 2 (24 + qa.val) qa.val)))

/-- sacc (R175). -/
def execSacc (rd : Fin 24) (qa : Fin 8) (pg : Pg) (s : State) : Out :=
  partial4 pg (fun s =>
    match (do
      portCheck (s.port qa) true wideType 2 qa
      startW s rd : Res Wide) with
    | .error e => (s, some e)
    | .ok c => accLoop rd qa ((s.port qa).queue.length + 1) c s) s

/-- Whether a marker matches a kind of bmk (R176). -/
def markMatches (kind : Fin 3) (code : Byte) : Bool :=
  match kind with
  | 0 => code == 0x80
  | 1 => code == 0xC0
  | 2 => true

/-- bmk (R176): it has no predicate. -/
def execBmk (qa : Fin 8) (kind : Fin 3) (off : BitVec 16) (s : State) : Out :=
  finish s (do
    let pc := (s.hart s.cur).pc
    portCheck (s.port qa) true (fun _ => true) 0 qa
    match (s.port qa).queue with
    | [] => throw (.hold (.empty qa))
    | e :: _ =>
      match e.item with
      | .marker c =>
        if markMatches kind c then pure ((s.popHead s.cur qa).jumpTo (wordsOn pc off.toInt)) else pure (s.jumpTo (pc + 4))
      | .data _ | .drain | .failed _ _ | .trapped _ _ _ => pure (s.jumpTo (pc + 4)))

/-! ### Patterns -/

/-- The pattern of a `spat` (R182): none for a reserved TTYPE. -/
def spatPattern (base counts : DWord) (immA : BitVec 15) (immB : Word) (pc : DWord) : Option Pattern :=
  let n := immA.toNat
  let t := fld n 3 0
  if 7 < t then none
  else some
    { base := base, c0 := fld counts.toNat 31 0, c1 := fld counts.toNat 63 32, c2 := 1, c3 := 1
      s0 := sextInt 8 (fld n 14 7) * tokenSize t, s1 := immB.toInt, s2 := 0, s3 := 0, ttype := t
      marks := BitVec.ofNat 5 (fld n 5 4 + 16 * fld n 6 6), pc := pc, cmd := none, pos := 0, done := 0 }

/-- The pattern of a 64-byte record (R182): none for a reserved TTYPE or a nonzero res0. -/
def recordPattern (bs : List Byte) (pc : DWord) : Option Pattern :=
  let n (o k : Nat) : Nat := leNat ((bs.drop o).take k)
  let t := n 0x28 1
  if 7 < t ∨ 32 ≤ n 0x29 1 ∨ n 0x2A 22 ≠ 0 then none
  else some
    { base := dwn (n 0 8), c0 := n 8 4, c1 := n 16 4, c2 := n 24 4, c3 := n 32 4
      s0 := sextInt 32 (n 12 4), s1 := sextInt 32 (n 20 4), s2 := sextInt 32 (n 28 4), s3 := sextInt 32 (n 36 4)
      ttype := t, marks := BitVec.ofNat 5 (n 0x29 1), pc := pc, cmd := none, pos := 0, done := 0 }

/-- Whether a port takes a pattern (R182, R225). -/
def Port.takes (o : Port) (p : Pattern) : Bool :=
  o.used && !o.chan && p.ttype == o.ttype && (o.input || p.marks == 0)

/-- A pattern becomes current, or is queued behind the current one; none when both places are taken (R183). -/
def Port.addPattern (o : Port) (p : Pattern) : Option Port :=
  match o.cur, o.nxt with
  | none, _ => some { o with cur := some p }
  | some _, none => some { o with nxt := some p }
  | some _, some _ => none

/-- A cell programs its own port (R182, R183). `was` is the port before the instruction popped any, which a trap leaves (R34)
and reports (R35). -/
def cellPattern (s : State) (qa : Fin 8) (was : Port) (pat : Option Pattern) (undef : TrapInfo) : Res State :=
  match pat with
  | none => .error (.trap undef)
  | some p =>
    let o := s.port qa
    if o.takes p then
      match o.addPattern p with
      | none => .error (.hold .pattern)
      | some o' => .ok (s.modHart s.cur (fun h => { h with ports := h.ports.set qa o' }))
    else .error (.trap (portTrap .porttype was 0 (24 + qa.val) qa.val))

/-! ### Steps of the access-pattern engine -/

/-- Whether the last entry of an input port is a token that could not be fetched (R183). -/
def Port.dead (o : Port) : Bool :=
  match o.queue.getLast? with
  | some e => (match e.item with | .failed _ _ | .trapped _ _ _ => true | _ => false)
  | none => false

/-- An entry fetched and placed in the queue of a pattern input port. -/
def State.placed (s : State) (a : AgentId) (q : Fin 8) (item : Item) (idx : Idx) (addr : DWord) : State :=
  s.modHart a (fun h =>
    let o := h.ports[q]
    let n := (o.cur.map (·.pos)).getD 0
    let o' := { o with
      queue := o.queue ++ [⟨item, n, idx, addr⟩], cur := o.cur.map (fun p => { p with pos := p.pos + 1 }), held := false
      seen := [] }
    { h with ports := h.ports.set q o' })

/-- A token read from memory for a pattern input port (R183, R216, R224, R262, R276); in deterministic mode it has the checks
of the load that it is (R249, R251; log entry 23). -/
def fetchToken (s : State) (a : AgentId) (q : Fin 8) (p : Pattern) (idx : Idx) : State :=
  let t := (s.hart a).ports[q].ttype
  let v := p.addr idx
  match checkAddr s a v (tokenSize t) (tokenAlign t) false false with
  | .error (.trap i) | .error (.bad _ i) => s.placed a q (.failed i.cause v) idx v
  | .error _ => s
  | .ok site =>
    if orderHeld s a site then s
    else if let .error (.trap i) := raceCheck s a site v (tokenSize t) then s.placed a q (.trapped i.cause i.i0 i.i1) idx v
    else
      let miss (m : PageMiss) : PageMiss := { m with src := 3, pc := p.pc, port := some (8 + q.val, p.pos, idx) }
      match (settleOut s a site (tokenSize t)).bind (fun s => loadAt s a site v (tokenSize t) (s.hart a).ports[q].seen miss) with
      | .ok (bs, s1) => (bindExtent s1 a site).placed a q (.data (tokenFrom t bs)) idx v
      | .error (.trap _) => s.placed a q (.failed .uncorr v) idx v
      | .error (.bad p _) => (s.noteUe p).placed a q (.failed .uncorr v) idx v
      | .error (.page m) =>
        (s.missPage a m).modHart a (fun h => { h with ports := h.ports.set q { h.ports[q] with held := true } })
      | .error (.hold _) => s

/-- APE_FETCH (R183, R221, R224). -/
def execApeFetch (cell : Nat) (ctx : Fin 4) (port : Fin 8) (s : State) : Out :=
  let a := AgentId.ctx cell ctx
  let o := (s.hart a).ports[port]
  match o.cur with
  | none => .next s
  | some p =>
    if o.used && o.input && !o.chan && !o.dead && decide (o.queue.length < 16) && decide (p.pos < p.total) then
      match p.entry p.pos with
      | .mark code idx => .next (s.placed a port (.marker code) idx 0)
      | .token idx => .next (fetchToken s a port p idx)
    else .next s

/-- The bytes of the next token of a pattern input port that lie in one 8-byte word are read before the others (R247). -/
def fetchPiece (s : State) (a : AgentId) (q : Fin 8) (word : Nat) : State :=
  let o := (s.hart a).ports[q]
  match o.cur with
  | none => s
  | some p =>
    match p.entry p.pos with
    | .mark _ _ => s
    | .token idx =>
      let n := tokenSize o.ttype
      let v := p.addr idx
      if !o.used || !o.input || o.chan || o.dead || decide (p.total ≤ p.pos) then s
      else
        match checkAddr s a v n (tokenAlign o.ttype) false false with
        | .error _ => s
        | .ok site =>
          if orderHeld s a site || (raceCheck s a site v n).toOption.isNone then s
          else
            match (settleOut s a site n).bind (fun s => loadAt s a site v n o.seen id) with
            | .ok (bs, s1) =>
              let got := (bs.zipIdx.map (fun b => (b.2, b.1))).filter (fun b =>
                (v.toNat + b.1) / 8 - v.toNat / 8 == word && !o.seen.any (fun x => x.1 == b.1))
              s1.modHart a (fun h => { h with ports := h.ports.set q { h.ports[q] with seen := o.seen ++ got } })
            | .error _ => s

/-- PATTERN_WRITE (R224). -/
def execPatternWrite (cell : Nat) (ctx : Fin 4) (port : Fin 8) (s : State) : Out :=
  match patWrite s (.ctx cell ctx) port with
  | some s' => .next s'
  | none => .next s

/-- An outstanding command of a conductor changed. -/
def State.modCmd (s : State) (k id : Nat) (f : Command → Command) : State :=
  s.modCond k (fun c => { c with cmds := c.cmds.map (fun x => if x.id == id then f x else x) })

/-- COMPLETION_EVENT (R223): the current pattern completes, and the queued one becomes current. -/
def execCompletionEvent (cell : Nat) (ctx : Fin 4) (port : Fin 8) (s : State) : Out :=
  let a := AgentId.ctx cell ctx
  let o := (s.hart a).ports[port]
  match o.cur with
  | none => .next s
  | some p =>
    if p.pos = p.total && !o.dead && (o.input || s.portWritten a port) then
      let s1 := s.modHart a (fun h => { h with ports := h.ports.set port { o with cur := o.nxt, nxt := none } })
      match p.cmd with
      | some (k, id) => .next (s1.modCmd k id (fun c => { c with ready := true }))
      | none => .next s1
    else .next s

end Sys2Proof.Machine
end

