-- ==== Sys2Proof/Machine/Translator.lean ====
section
/-! DEFINITION. The extent translator: translating extents at load, the limits on runs, installing lazy pages from the
grant pool, and shoot-downs (spec/18 R323 to R331). -/
namespace Sys2Proof.Machine

/-- Pages of a range walked one after the other and installed for their owner (R323). -/
def installPages (o : Holder) (rw : Bool) : Nat → Nat → State → State × Bool
  | _, 0, s => (s, true)
  | g, n + 1, s =>
    match s.walk (s.xlat o.ctx).root (g * 2 ^ 16) with
    | (s', none) => (s', false)
    | (s', some p) =>
      if rw && !p.writable then (s', false)
      else installPages o rw (g + 1) n (s'.modXlat o.ctx (fun x => x.setPage { p with owner := o.owner }))

/-- Whether a bulk, seam, host or peer extent lies within its space (R240). -/
def Extent.inSpace (e : Extent) : Bool :=
  match e.space with
  | .bulk => e.base + e.len ≤ 2 ^ 52
  | .host => if e.lazy then e.base + e.len ≤ 2 ^ 52 else e.base + e.len ≤ 2 ^ 64
  | .seam => !e.rw && !e.lazy && !e.fe && decide (e.base / 2 ^ 36 < 4) && decide (e.base % 2 ^ 36 + e.len ≤ Config.seamDie)
  | .peer => !e.lazy && !e.fe && fld e.window.toNat 31 11 == 0

/-- The translator takes the extents of a load (R240, R323). A peer's answer is a free value (log entry 9). -/
def State.prepare (s : State) (o : Holder) : List Extent → State × Bool
  | [] => (s, true)
  | e :: r =>
    if e.inSpace = false then (s, false)
    else
      match e.space, e.lazy with
      | .bulk, false =>
        match installPages o e.rw (e.base / 2 ^ 16) (e.len / 2 ^ 16) s with
        | (s', true) => State.prepare s' o r
        | (s', false) => (s', false)
      | .peer, _ =>
        let d := s.draw
        if s.isBad (.peer (e.window.toNat % 8) (fld e.window.toNat 10 3) 0) then (s, false)
        else if d.1.getLsbD 0 then State.prepare d.2 o r else (d.2, false)
      | _, _ => State.prepare s o r

/-- Runs of consecutive pages that map to consecutive frames (R323); pages rise. -/
def countRuns : List (Nat × Nat) → Nat
  | [] => 0
  | [_] => 1
  | a :: b :: r => (if b.1 = a.1 + 1 ∧ b.2 = a.2 + 2 ^ 16 then 0 else 1) + countRuns (b :: r)

/-- The runs that an extent counts (R323). -/
def Xlat.runs (x : Xlat) (owner : Nat) (e : Extent) : Nat :=
  match e.space, e.lazy with
  | .bulk, false =>
    countRuns ((List.range (e.len / 2 ^ 16)).filterMap (fun i =>
      (x.page? owner (e.base / 2 ^ 16 + i)).bind (fun p => if p.dropped then none else some (p.page, p.frame))))
  | .bulk, true | .host, true =>
    countRuns ((x.lazies.filter (fun p => p.host == e.isHost && decide (e.base / 2 ^ 16 ≤ p.page)
      && decide (p.page < (e.base + e.len) / 2 ^ 16))).map (fun p => (p.page, p.frame)))
  | _, _ => 1

/-- All extents a region holds, each with the owner of its translations (R323). -/
def Region.owned (r : Region) : List (Nat × Extent) :=
  r.extents.map (fun e => (0, e)) ++ r.clauses.flatMap (fun c => c.extents.map (fun e => (c.num + 1, e)))

/-- All extents a region holds. -/
def Region.held (r : Region) : List Extent := r.owned.map (·.2)

def Xlat.runsOf (x : Xlat) (es : List (Nat × Extent)) : Nat := es.foldl (fun n e => n + x.runs e.1 e.2) 0

/-- The translations of an owner are held no more (R323). -/
def State.dropOwner (s : State) (o : Holder) : State :=
  s.modXlat o.ctx (fun x => { x with pages := x.pages.filter (fun p => p.owner != o.owner) })

/-- The runs of the other regions. -/
def State.otherRuns (s : State) (q : Nat) : Nat :=
  s.regions.foldl (fun n r => if r.1 = q then n else n + (s.xlat r.2.ctx).runsOf r.2.owned) 0

/-- Whether a region may hold these extents beside what it holds (R323). -/
def State.runsFit (s : State) (q ctx : Nat) (es : List (Nat × Extent)) : Bool :=
  let n := (s.xlat ctx).runsOf es
  decide (n ≤ 65536) && decide (n + s.otherRuns q ≤ 262144)

/-- Extents handed over at a load for their owner: translated, and within the limits; refused, they hold nothing. -/
def State.takeExtents (s : State) (q : Nat) (o : Holder) (held : List (Nat × Extent)) (new : List Extent) : State × Bool :=
  match s.prepare o new with
  | (s', false) => (s'.dropOwner o, false)
  | (s', true) =>
    if s'.runsFit q o.ctx (held ++ new.map (fun e => (o.owner, e))) then (s', true) else (s'.dropOwner o, false)

/-- The ranges of words that an fe extent covers through the pages it has: bulk frames, or host addresses. -/
def Extent.feRanges (x : Xlat) (owner : Nat) (e : Extent) : List (Bool × Nat × Nat) :=
  let within (page : Nat) : Bool := decide (e.base / 2 ^ 16 ≤ page) && decide (page < (e.base + e.len) / 2 ^ 16)
  if e.fe = false then []
  else
    match e.space, e.lazy with
    | .bulk, false => (x.pages.filter (fun p => p.owner == owner && within p.page)).map (fun p => (false, p.frame, 2 ^ 16))
    | .host, false => [(true, e.base, e.len)]
    | .bulk, true | .host, true =>
      (x.lazies.filter (fun p => p.host == e.isHost && within p.page)).map (fun p => (p.host, p.frame, 2 ^ 16))
    | _, _ => []

/-- Whether a word of bulk or host memory lies in one of some ranges. -/
def inRanges (rs : List (Bool × Nat × Nat)) (host : Bool) (w : Nat) : Bool :=
  rs.any (fun r => r.1 == host && decide (r.2.1 ≤ 8 * w) && decide (8 * w < r.2.1 + r.2.2))

/-- The full/empty bits of ranges made empty at their first use in a sentence: all are empty at its start (spec/07
before R162). -/
def State.emptyFe (s : State) (q : Nat) (rs : List (Bool × Nat × Nat)) : State :=
  let done := ((s.region q).map (·.feDone)).getD []
  let first (host : Bool) (w : Nat) : Bool := inRanges rs host w && !inRanges done host w
  ({ s with
    feBulk := s.feBulk.filter (fun w => !first false w)
    feHost := s.feHost.filter (fun w => !first true w) }).modRegion q (fun r =>
      { r with feDone := done ++ rs.filter (fun x => !done.contains x) })

/-- The same for the words of extents just handed over. -/
def State.emptyExtents (s : State) (q : Nat) (o : Holder) (es : List Extent) : State :=
  s.emptyFe q (es.map (Extent.feRanges (s.xlat o.ctx) o.owner)).flatten

/-! ### Lazy pages -/

/-- A lazy page put in place, pages rising and host pages last. -/
def insertLazy (p : LazyPage) : List LazyPage → List LazyPage
  | [] => [p]
  | q :: r =>
    if (!p.host && q.host) || (p.host == q.host && decide (p.page < q.page)) then p :: q :: r
    else if p.host == q.host && p.page == q.page then p :: r
    else q :: insertLazy p r

/-- The place of a space address of a page just installed. -/
def pagePlace (host : Bool) (frame sa : Nat) : Place :=
  if host then .host (frame + sa % 2 ^ 16) else .bulk (frame + sa % 2 ^ 16)

/-- One side-log entry performed. -/
def State.drainEntry (s : State) (frame : Nat) (e : LogEntry) : State :=
  (s.putBytes (e.bytes.map (fun b => (pagePlace (e.sort == .host) frame b.1, b.2)))).putFe
    (e.fe.map (fun b => (pagePlace (e.sort == .host) frame b.1, b.2)))

def drainEntries (frame : Nat) : List LogEntry → State → State
  | [], s => s
  | e :: r, s => drainEntries frame r (s.drainEntry frame e)

/-- Whether a log entry lies in a page. -/
def LogEntry.inPage (e : LogEntry) (sort : PageSort) (page : Nat) : Bool := e.sort == sort && e.line / 1024 == page

/-- The side log of one cell performed for a page, in retirement order (R265). -/
def State.drainCell (s : State) (p : Nat) (sort : PageSort) (page frame : Nat) : State :=
  let l := (s.cell p).log
  drainEntries frame (l.filter (fun e => e.inPage sort page))
    (s.modCell p (fun x => { x with log := l.filter (fun e => !e.inPage sort page) }))

/-- The cells that serve a context. -/
def State.cellsOf (s : State) (ctx : Nat) : List Nat :=
  (s.cells.filter (fun c => match c.2.bound with
    | some (q, _, _) => ((s.region q).map (·.ctx)) == some ctx
    | none => false)).map (·.1)

/-- A page becomes usable (R261, R265): the logged stores are performed and it is pending no more. -/
def State.pageReady (s : State) (ctx : Nat) (sort : PageSort) (page frame : Nat) : State :=
  ((s.cellsOf ctx).foldl (fun s p => s.drainCell p sort page frame) s).modXlat ctx
    (fun x => { x with pending := x.pending.filter (· != (sort, page)) })

/-- A grant or spare that R327 chooses: its address, its frame and whether it may be written. -/
inductive Chosen where
  | grant (at8 : Nat) (frame : Nat) (w : Bool)
  | spare (at8 : Nat) (frame : Nat)
deriving DecidableEq, Repr

/-- The lowest-indexed valid grant whose KEY matches (R327 step 2). -/
def findGrant (m : Memory) (key : Nat) : Nat → Nat → Option Nat
  | _, 0 => none
  | a, n + 1 =>
    if bitOf (m.num (a + 8) 8) 0 && fld (m.num a 8) 52 16 == key then some a else findGrant m key (a + 16) n

/-- The lowest-indexed unused spare (R327 step 3). -/
def findSpare (m : Memory) : Nat → Nat → Option Nat
  | _, 0 => none
  | a, n + 1 => if bitOf (m.num a 8) 0 then findSpare m (a + 16) n else some a

/-- The choice of R327, none when the command fails. -/
def chooseFrame (m : Memory) (r : Region) (key : Nat) (host zero : Bool) : Option Chosen :=
  if zero && host then none
  else
    match findGrant m key r.gpool r.gpooln with
    | some a =>
      let k := m.num a 8
      let f := m.num (a + 8) 8
      if fld k 63 53 ≠ 0 ∨ fld k 15 0 ≠ 0 ∨ fld f 63 52 ≠ 0 ∨ fld f 15 3 ≠ 0 then none
      else some (.grant a (fld f 51 16 * 2 ^ 16) (bitOf f 2))
    | none =>
      if zero = false then none
      else
        match findSpare m r.spool r.spooln with
        | none => none
        | some a =>
          let f := m.num a 8
          let k := m.num (a + 8) 8
          if fld k 63 53 ≠ 0 ∨ fld k 15 0 ≠ 0 ∨ fld f 63 52 ≠ 0 ∨ fld f 15 1 ≠ 0 then none
          else some (.spare a (fld f 51 16 * 2 ^ 16))

/-- xmap of an extent's page (R189, R327); none when it fails. -/
def State.xmapPage (s : State) (q : Nat) (r : Region) (e : Extent) (off : Nat) (zero : Bool) : Option State :=
  let x := s.xlat r.ctx
  let page := (e.base + off) / 2 ^ 16
  let host := e.isHost
  if e.lazy = false ∨ (x.lazy? host page).isSome then none
  else
    let key := page % 2 ^ 36 + b2n host * 2 ^ 36
    let covering := r.held.filter (fun f => f.lazy && f.isHost == host && decide (f.base / 2 ^ 16 ≤ page)
      && decide (page < (f.base + f.len) / 2 ^ 16))
    let install (frame : Nat) (w : Bool) (s : State) : Option State :=
      let s1 := s.modXlat r.ctx (fun x => { x with lazies := insertLazy ⟨host, page, frame, w⟩ x.lazies })
      let s2 := if covering.any (·.fe) then s1.emptyFe q [(host, frame, 2 ^ 16)] else s1
      if s1.runsFit q r.ctx r.owned then some (s2.pageReady r.ctx e.sort page frame) else none
    match chooseFrame s.bulk r key host zero with
    | none => none
    | some (.grant a frame w) =>
      if w = false ∧ covering.any (·.rw) then none
      else
        let f := s.bulk.num (a + 8) 8
        install frame w { s with bulk := s.bulk.write (a + 8) (leBytes 8 (orBits f 2)) }
    | some (.spare a frame) =>
      let f := s.bulk.num a 8
      let m := (s.bulk.cut frame (2 ^ 16)).write a (leBytes 8 (orBits f 1))
      install frame true { s with bulk := m.write (a + 8) (leBytes 8 (key * 2 ^ 16)) }

/-- Pages whose grant or spare is marked USED, installed again at a resumption (R328); the logged stores of such a page
are performed (R265, R277). -/
def reinstall (ctx : Nat) (es : List Extent) (grant : Bool) : Nat → Nat → State → State
  | _, 0, s => s
  | a, n + 1, s =>
    let k := s.bulk.num (if grant then a else a + 8) 8
    let f := s.bulk.num (if grant then a + 8 else a) 8
    let used := if grant then bitOf f 1 && bitOf f 0 else bitOf f 0
    let host := bitOf k 52
    let page := fld k 51 16
    let covered := es.any (fun e => e.lazy && e.isHost == host && decide (e.base / 2 ^ 16 ≤ page)
      && decide (page < (e.base + e.len) / 2 ^ 16))
    let s1 := if used && covered then
        (s.modXlat ctx (fun x => { x with
          lazies := insertLazy ⟨host, page, fld f 51 16 * 2 ^ 16, if grant then bitOf f 2 else true⟩ x.lazies })).pageReady
          ctx (if host then .host else .lazy) page (fld f 51 16 * 2 ^ 16)
      else s
    reinstall ctx es grant (a + 16) n s1

/-! ### Shoot-downs (R329 to R331) -/

/-- Whether a number is a context identifier (R336): the host assigns 1 to 65,535; 0 is the unknown context of R329
(log entry 66). -/
def ctxKnown (ctx : Nat) : Bool := ctx != 0

/-- Whether a context runs: it holds translations. -/
def State.ctxRuns (s : State) (ctx : Nat) : Bool := s.regions.any (fun r => r.2.ctx == ctx)

/-- The request that a write of XSDCMD captures (R329). A set res0 bit of any of the three registers makes it malformed;
the count and the range are looked at for KIND 0, and CTX for KIND 0 and 1 (log entry 66). -/
def captureShoot (s : State) (cmd : DWord) : Shoot :=
  let c := cmd.toNat
  let ctx := fld c 15 0
  let a := s.xsdAddr.toNat
  let n := s.xsdLen.toNat
  if fld c 63 32 ≠ 0 ∨ fld c 23 18 ≠ 0 ∨ fld a 63 52 ≠ 0 ∨ fld a 15 0 ≠ 0 ∨ fld n 63 36 ≠ 0 then .bad
  else
    match fld c 17 16 with
    | 0 => if ctxKnown ctx = false ∨ n = 0 ∨ 2 ^ 52 < a + n * 2 ^ 16 then .bad else .range ctx (a / 2 ^ 16) n
    | 1 => if ctxKnown ctx then .context ctx else .bad
    | 2 => .imp (fld c 31 24)
    | _ => .bad

/-- A write of XSDCMD: a full queue drops it (R329); it ends idleness (R416). -/
def writeXsdcmd (s0 : State) (cmd : DWord) : State :=
  let s := s0.wake
  if s.firm.ready = false then s0
  else if 16 ≤ s.shoots.length then { s with shootOvfl := true } else { s with shoots := s.shoots ++ [captureShoot s cmd] }

/-- SHOOT_DOWN_GVA_RANGE (R329): a write of XSDCMD with KIND 0. -/
def execShootDownGvaRange (cmd : DWord) (s : State) : Out := .next (writeXsdcmd s cmd)
/-- SHOOT_DOWN_CONTEXT (R329): a write of XSDCMD with KIND 1. -/
def execShootDownContext (cmd : DWord) (s : State) : Out := .next (writeXsdcmd s cmd)
/-- SHOOT_DOWN_IMPORT_ENTRY (R329): a write of XSDCMD with KIND 2. -/
def execShootDownImportEntry (cmd : DWord) (s : State) : Out := .next (writeXsdcmd s cmd)

/-- The pages a request covers, of a context. -/
def Shoot.covers (h : Shoot) (ctx page : Nat) (host : Bool) : Bool :=
  match h with
  | .range c a n => c == ctx && !host && decide (a ≤ page) && decide (page < a + n)
  | .context c => c == ctx
  | _ => false

/-- A request accepted: its translations are dropped (R330). -/
def Xlat.dropped (x : Xlat) (h : Shoot) (ctx : Nat) : Xlat :=
  { x with
    pages := x.pages.map (fun p => if h.covers ctx p.page false then { p with dropped := true } else p)
    lazies := x.lazies.filter (fun p => !h.covers ctx p.page p.host) }

/-- The context of a request. -/
def Shoot.ctx : Shoot → Option Nat
  | .range c _ _ => some c
  | .context c => some c
  | .imp _ | .bad => none

/-- The frames of the translations that a request drops, and of those that a failed walk has dropped before it. -/
def Xlat.framesUnder (x : Xlat) (h : Shoot) (ctx : Nat) : List (Bool × Nat) :=
  (x.pages.filter (fun p => h.covers ctx p.page false)).map (fun p => (false, p.frame)) ++
    (x.lazies.filter (fun p => h.covers ctx p.page p.host)).map (fun p => (p.host, p.frame))

/-- Whether a place lies in one of some frames. -/
def placeIn (p : Place) (l : List (Bool × Nat)) : Bool :=
  match p with
  | .bulk a => l.contains (false, a / 2 ^ 16 * 2 ^ 16)
  | .host a => l.contains (true, a / 2 ^ 16 * 2 ^ 16)
  | _ => false

/-- Whether an agent's accesses go through a context. -/
def State.uses (s : State) (ctx : Nat) (a : AgentId) : Bool := ((s.regionOf a).bind s.region).map (·.ctx) == some ctx

/-- The agents of a context. -/
def State.agentsOf (s : State) (ctx : Nat) : List AgentId :=
  (s.cells.flatMap (fun c => (List.finRange 4).map (AgentId.ctx c.1)) ++ s.conds.map (fun c => AgentId.cond c.1)).filter
    (s.uses ctx)

/-- The accesses that a request must drain came before its acceptance: how many each agent of the context, and each port,
has accepted until now (R330, R334). -/
def State.markOf (s : State) (h : Shoot) : ShootMark where
  agents := match h.ctx with | some c => (s.agentsOf c).map (fun a => (a, (s.hart a).pendSeq)) | none => []
  links := s.links.toList.map (·.admitted)

/-- SHOOT_DOWN_ACCEPTANCE (R329, R330): a malformed request, or one for a context that does not run, completes at once. A
waiting ldf that used a dropped translation waits afresh (log entry 66). -/
def execShootDownAcceptance (s : State) : Out :=
  if s.shootBusy then .next s
  else
    match s.shoots with
    | [] => .next s
    | .bad :: r => .next { s with shoots := r, shootErr := true, shootDone := s.shootDone + 1 }
    | h :: r =>
      if (h.ctx.map s.ctxRuns).getD true then
        let frames := ((h.ctx.map s.xlat).map (fun x => x.framesUnder h (h.ctx.getD 0))).getD []
        .next { s with
          shootBusy := true, shootFrames := frames, shootMark := s.markOf h, xlats := s.xlats.map (fun x => (x.1, x.2.dropped h x.1))
          ldfWait := s.ldfWait.filter (fun w => w.got.isSome || (h.ctx != some (s.ctxOf w.agent)) ||
            w.bytes.all (fun p => !placeIn p frames)) }
      else .next { s with shoots := r, shootDone := s.shootDone + 1 }

/-- Whether every access of an agent that used a dropped translation is performed at module scope (R330). -/
def Hart.drainedTo (h : Hart) (upto : Nat) (frames : List (Bool × Nat)) : Bool :=
  h.pend.all (fun x => decide (3 ≤ x.level) || decide (upto ≤ x.seq) || x.what.places.all (fun p => !placeIn p frames))

/-- Whether a request covers a byte of an admitted WRITE, by the page of its owning context or by its import entry (R333,
R334). -/
def Shoot.meets (h : Shoot) (w : Admitted) : Bool :=
  match h with
  | .imp i => w.idx == i
  | _ => (List.range w.bytes.length).any (fun i => h.covers w.ctx ((w.gva + i) / 2 ^ 16) false)

/-- Whether every access that a request has met is performed: those of its context that used a dropped translation, and the
WRITEs of peers that were admitted through its pages or its entry (R330, R333, R334). -/
def State.drained (s : State) (h : Shoot) : Bool :=
  s.shootMark.agents.all (fun a => (s.hart a.1).drainedTo a.2 s.shootFrames) &&
    (List.finRange 8).all (fun p => s.links[p].writes.all (fun w =>
      decide (s.shootMark.links.getD p.val 0 ≤ w.no) || !h.meets w))

/-- Whether some cell of a context holds a logged store to a page of a non-lazy extent. -/
def State.logged (s : State) (ctx n : Nat) : Bool :=
  (s.cellsOf ctx).any (fun p => (s.cell p).log.any (fun e => e.inPage .bulk n))

/-- A page of a non-lazy extent whose translation has come: the logged stores are performed, the first of them setting D
(R265, R325). -/
def State.bulkReady (s : State) (ctx : Nat) (p : Page) : State :=
  (if s.logged ctx p.page && !p.dirty then s.markDirty ctx p p.value else s).pageReady ctx .bulk p.page p.frame

/-- Pages whose re-walk had failed, walked again when a request that covers them completes (R331). -/
def rewalk (ctx : Nat) (h : Shoot) : List Nat → State → State
  | [], s => s
  | n :: r, s =>
    if h.covers ctx n false then
      match s.walk (s.xlat ctx).root (n * 2 ^ 16) with
      | (s', some p) =>
        rewalk ctx h r ((s'.modXlat ctx (fun x => { x with
          pages := x.pages.map (fun o => if o.page == n then { p with owner := o.owner } else o)
          broken := setDel x.broken n })).bulkReady ctx p)
      | (s', none) => rewalk ctx h r s'
    else rewalk ctx h r s

/-- The pages of non-lazy extents to which a resumed context holds logged stores: their translations stand again, and the
stores are performed (R265, R277, R328). -/
def drainBulk (ctx : Nat) : List Nat → State → State
  | [], s => s
  | n :: r, s =>
    drainBulk ctx r (match (s.xlat ctx).pages.find? (fun p => p.page == n && !p.dropped) with
      | some p => s.bulkReady ctx p
      | none => s)

/-- The pages that some cells' logged stores to non-lazy extents name. -/
def State.loggedPages (s : State) (ctx : Nat) : List Nat :=
  (s.cellsOf ctx).flatMap (fun p => ((s.cell p).log.filter (fun e => e.sort == .bulk)).map (fun e => e.line / 1024))

/-- SHOOT_DOWN_COMPLETION (R330, R331, R334). -/
def execShootDownCompletion (s : State) : Out :=
  match s.shootBusy, s.shoots with
  | true, h :: r =>
    if s.drained h then
      let s1 := match h.ctx with
        | some c => rewalk c h (s.xlat c).broken s
        | none => s
      .next { s1 with shoots := r, shootBusy := false, shootFrames := [], shootDone := s1.shootDone + 1 }
    else .next s
  | _, _ => .next s

/-- XSDSTAT (R329). -/
def xsdstat (s : State) : DWord :=
  dwn (s.shootDone.toNat + b2n s.shootErr * 2 ^ 32 + b2n s.shootOvfl * 2 ^ 33 + b2n s.shootBusy * 2 ^ 34
    + (16 - s.shoots.length) * 2 ^ 35)

end Sys2Proof.Machine
end

