-- ==== Sys2Proof/Machine/Commands.lean ====
section
/-! DEFINITION. Issuing the long commands: the operands read and the checks made at issue, the outstanding commands
of a conductor, and the memory that running commands reach (spec/07 R177 to R194, spec/15 R299, R311). -/
namespace Sys2Proof.Machine

/-! ### Addresses of a command -/

/-- Role and offset of a role-form address (R181). -/
def roleOfAddr (v : DWord) : Nat := fld v.toNat 35 20
def offOfAddr (v : DWord) : Nat := fld v.toNat 18 0
def isRoleForm (v : DWord) : Bool := fld v.toNat 47 40 == 0

/-- R158 for a range of a command, the role form of R181 included. A nonzero res0 bit of a role form raises BOUNDS with
TINFO1 0 at issue; R181 names no report (DESIGN CHOICE, log entry 78). -/
def engCheck (s : State) (a : AgentId) (v : DWord) (n align : Nat) (write fe : Bool) : Res Unit :=
  if 2 ^ 48 ≤ v.toNat then .error (.trap (trapOf .bounds v 0))
  else if v.toNat % align ≠ 0 then .error (.trap (trapOf .align v (dwn align)))
  else if isRoleForm v then
    if fld v.toNat 39 36 ≠ 0 ∨ bitOf v.toNat 19 then .error (.trap (trapOf .bounds v 0))
    else if 0x80000 < offOfAddr v + n then .error (.trap (trapOf .bounds v 0x80000))
    else .ok ()
  else (checkAddr s a v n align write fe).map (fun _ => ())

/-- A length that must be a multiple of 8 (R181). -/
def mult8 (n : Nat) : Res Unit := if n % 8 = 0 then .ok () else .error (.trap (trapOf .align (dwn n) 8))

/-- ARR with a destination outside a cell store (R179). -/
def arrCheck (opts : BitVec 6) (dst : DWord) : Res Unit :=
  if opts.getLsbD 4 && !isRoleForm dst then .error (.trap (trapOf .bounds dst 0)) else .ok ()

/-- A key word, whose bits [63:35] are res0 (R281, R299). -/
def keyCheck (key : DWord) : Res Unit :=
  if fld key.toNat 63 35 = 0 then .ok () else .error (.trap (trapOf .bounds key 0))

/-- A register whose high bits are res0 (R311). -/
def highZero (v : DWord) (lo : Nat) : Res Unit :=
  if v.toNat < 2 ^ lo then .ok () else .error (.trap (trapOf .bounds v 0))

/-- Whether a range lies in the launch extent (R190, R192). -/
def launchCheck (s : State) (a : AgentId) (v : DWord) (n align : Nat) : Res Unit := do
  engCheck s a v n align false false
  let l := (((s.regionOf a).bind s.region).map (·.lext)).getD 0
  if fld v.toNat 47 40 = l then pure () else throw (.trap (trapOf .bounds v 0))

/-! ### What a running command reaches -/

/-- Why a unit of a command is not performed: it waits, fails, or meets a missing page (R180). -/
inductive EngStop where
  | wait
  | fail (f : CmdFault)
  | page (m : PageMiss)
  /-- it meets an uncorrectable word, and fails (R276) -/
  | bad (p : Place) (f : CmdFault)
  /-- it fails, at an uncorrectable word or not, after writes that stay in place (R180, R292) -/
  | after (s : State) (p : Option Place) (f : CmdFault)
deriving DecidableEq, Repr

abbrev Eng (α : Type) := Except EngStop α

/-- A failure that reports an address of the command (R267). -/
def engFail {α : Type} (c : Cause) (code : Nat) (addr : DWord) : Eng α := .error (.fail ⟨c, code, addr, none⟩)

/-- The newest running clause of a conductor's region (R181, R207). -/
def State.runningClause (s : State) (k : Nat) : Option Nat :=
  ((s.cond k).region.bind s.region).bind (fun r => (r.clauses.filter (fun cl => !cl.waits)).getLast?.map (·.num))

/-- The cell that a role-form address names, once it has loaded (R181, R207). -/
def roleCell (s : State) (k : Nat) (run : Option Nat) (v : DWord) : Eng Nat :=
  let bad : Eng Nat := engFail .cmdfail 0x22 v
  match (s.cond k).region, run.orElse (fun _ => s.runningClause k) with
  | some q, some n =>
    match s.clauseAt q n with
    | none => bad
    | some cl =>
      let r := roleOfAddr v
      if cl.roles.length ≤ r ∨ cl.released.contains r then bad
      else if cl.loaded.contains r then .ok (cl.cells.getD r 0)
      else .error .wait
  | _, _ => bad

/-- The first byte of a range that an engine cannot read for an uncorrectable word (R276), or that a peer refuses
(R334). -/
def engBad (s : State) (v : DWord) (ps : List Place) : Eng Unit :=
  match ps.findIdx? s.isBad with
  | none => .ok ()
  | some i =>
    match ps[i]? with
    | some (.peer _ _ _) => engFail .cmdfail 0x20 (v + dwn i)
    | some p => .error (.bad p ⟨.uncorr, 0, v + dwn i, none⟩)
    | none => .ok ()

/-- Bytes read by a command (R158, R180, R181). -/
def engRead (s : State) (k : Nat) (c : Command) (v : DWord) (n : Nat) : Eng (List Byte × State) :=
  if n = 0 then .ok ([], s)
  else if isRoleForm v then do
    let p ← roleCell s k c.run v
    let ps := (List.range n).map (fun i => Place.store p (offOfAddr v + i))
    engBad s v ps
    pure (s.getBytes ps, s)
  else
    match s.extentNo (.cond k) (fld v.toNat 47 40) with
    | none => engFail .cmdfail 0x22 v
    | some e =>
      let off := fld v.toNat 39 0
      let (s1, ps) := s.translateN (s.holder (.cond k)) e off false n
      if ps.all (fun x => x.2 != none) then do
        let pl := placesOf ps
        if pl.any s1.refreshing then throw .wait
        engBad s1 v pl
        pure (s1.getBytes pl, s1)
      else .error (.page (missOf e v c.pc 6 off ps))

/-- Bytes written by a command, each 8-byte word marked full when `fe` (R140, R180, R181, R257, R351). -/
def engWrite (s : State) (k : Nat) (c : Command) (v : DWord) (bs : List Byte) (fe : Bool) : Eng State :=
  let n := bs.length
  if n = 0 then .ok s
  else if isRoleForm v then do
    let p ← roleCell s k c.run v
    let o := offOfAddr v
    if (s.cell p).protects o n || s.copyHeld p o n then throw .wait
    else
      let s1 := s.modCell p (fun x => { x with store := x.store.write o bs })
      pure (if fe then s1.putFe ((List.range (n / 8)).map (fun i => (.store p (o + 8 * i), true))) else s1)
  else
    match s.extentNo (.cond k) (fld v.toNat 47 40) with
    | none => engFail .cmdfail 0x22 v
    | some e =>
      let off := fld v.toNat 39 0
      let (s1, ps) := s.translateN (s.holder (.cond k)) e off true n
      if ps.all (fun x => x.2 != none) then
        let pl := placesOf ps
        if s1.refusedAt pl then engFail .cmdfail 0x20 v
        else if pl.any s1.refreshing then .error .wait
        else
          let s2 := s1.putBytes (pl.zip bs)
          .ok (if fe then s2.putFe ((pl.filter (fun p => p == p.word)).map (fun p => (p, true))) else s2)
      else .error (.page (missOf e v c.pc 6 off ps))

/-! ### Issue -/

/-- The trap of a long command that a cell may not issue (R62, R74). -/
def privLong (i : Instr) : TrapInfo :=
  let ws := encode i
  trapOf .priv (dwn (ws.getD 0 0)) (dwn (ws.getD 2 0 * 2 ^ 32 + ws.getD 1 0))

/-- A command as it is queued (R177, R256, R267). -/
def newCommand (id : Nat) (op : CmdOp) (ws : WaitSig) (h : Hart) : Command where
  id := id
  op := op
  wait := ws.wait
  signal := ws.signal
  pc := h.pc
  clause := h.clause - 1
  upto := h.pendSeq
  dispatched := false
  run := none
  prog := 0
  memo := []
  failed := none
  ready := false
  onEngine := none

/-- A command joins the outstanding commands of a conductor. -/
def State.queueCmd (s : State) (k : Nat) (op : CmdOp) (ws : WaitSig) : State :=
  s.modCond k (fun c => { c with cmds := c.cmds ++ [newCommand c.nextId op ws c.hart], nextId := c.nextId + 1 })

/-- A long command of a conductor (R177): its operands and checks, then a place among the 16. -/
def longCmd (i : Instr) (ws : WaitSig) (pg : Pg) (body : AgentId → Work → Res (CmdOp × Work)) (s : State) : Out :=
  governed pg 16 (fun s =>
    match s.cur with
    | .ctx _ _ => .error (.trap (privLong i))
    | .cond k => do
      if 16 ≤ (s.cond k).cmds.length then throw (.hold .issueQueue)
      else
        let (op, w) ← body s.cur (work s)
        pure (w.s.queueCmd k op ws)) s

def read1 (w : Work) (ra : XOp) : Res (DWord × Work) := readX w 0 ra

def read3 (w : Work) (ra rb rc : XOp) : Res (DWord × DWord × DWord × Work) := do
  let (a, w) ← readX w 0 ra
  let (b, w) ← readX w 1 rb
  let (c, w) ← readX w 2 rc
  pure (a, b, c, w)

/-- nopl (R193): a cell's is a nop of 16 bytes. -/
def execNopl (ws : WaitSig) (pg : Pg) (s : State) : Out :=
  match s.cur with
  | .ctx _ _ => governed pg 16 (fun s => if ws = ⟨none, none⟩ then .ok s else .error (.trap (privLong (.nopl ws pg)))) s
  | .cond _ => longCmd (.nopl ws pg) ws pg (fun _ w => .ok (.nopl, w)) s

/-- The target of a conductor's pattern (R182): role, context, port; none for a nonzero res0. -/
def spatTarget (t : DWord) : Option (Nat × Fin 4 × Fin 8) :=
  if t.toNat < 2 ^ 21 then some (fld t.toNat 15 0, Fin.ofNat 4 (fld t.toNat 17 16), Fin.ofNat 8 (fld t.toNat 20 18))
  else none

/-- The port that a conductor's pattern would reach now. -/
def State.targetPort (s : State) (k : Nat) (t : DWord) : Option (AgentId × Fin 8) :=
  match spatTarget t with
  | none => none
  | some (r, c, q) =>
    match roleCell s k none (roleForm r 0) with
    | .ok p => some (.ctx p c, q)
    | .error _ => none

/-- Whether a conductor's pattern finds both places of its port taken (R183). -/
def State.targetFull (s : State) (k : Nat) (t : DWord) : Bool :=
  match s.targetPort k t with
  | some (a, q) =>
    let o := (s.hart a).ports[q]
    o.cur.isSome && o.nxt.isSome
  | none => false

/-- A pattern that stands for a record a conductor's command cannot use: no port takes its type (R182). -/
def badPattern (pc : DWord) : Pattern := ⟨0, 0, 0, 0, 0, 0, 0, 0, 0, 15, 0, pc, none, 0, 0⟩

/-- A conductor's pattern command (R182, R183). -/
def condPattern (target : DWord) (pat : Option Pattern) (bad : Option CmdFault) (k : Nat) (w : Work) : Res (CmdOp × Work) :=
  if w.s.targetFull k target then .error (.hold .pattern)
  else .ok (.spat target (pat.getD (badPattern (w.s.hart (.cond k)).pc)) bad, w)

/-- A cell's pattern instruction (R182): no wait, no signal. -/
def cellLong (i : Instr) (ws : WaitSig) (pg : Pg) (body : State → Res State) (s : State) : Out :=
  governed pg 16 (fun s => if ws = ⟨none, none⟩ then body s else .error (.trap (privLong i))) s

/-- UNDEF of a bad pattern (R74, R182). -/
def undefLong (i : Instr) : TrapInfo := { privLong i with cause := .undef }

/-- The port that a cell's pattern instruction names in ra (R182): a register raises UNDEF, as R73 check 5 does. -/
def ownPort (i : Instr) (ra : XOp) : Res (Fin 8) :=
  match ra with
  | .port q => .ok q
  | .reg _ => .error (.trap (undefLong i))

/-- spat (R182, R183). -/
def execSpat (ra rb rc : XOp) (immA : BitVec 15) (immB : Word) (ws : WaitSig) (pg : Pg) (s : State) : Out :=
  let i := Instr.spat ra rb rc immA immB ws pg
  let pc := (s.hart s.cur).pc
  match s.cur with
  | .ctx _ _ => cellLong i ws pg (fun s => do
      let q ← ownPort i ra
      let w ← fields s [Cls.x.src rb, Cls.x.src rc]
      let (b, w) ← readX w 1 rb
      let (c, w) ← readX w 2 rc
      cellPattern w.s q (s.port q) (spatPattern b c immA immB pc) (undefLong i)) s
  | .cond k => longCmd i ws pg (fun _ w => do
      let (t, b, c, w) ← read3 w ra rb rc
      condPattern t (spatPattern b c immA immB pc) none k w) s

/-- A conductor's own accepted stores to a range of an extent are performed (R161, R246). -/
def ownFirst (s : State) (k : Nat) (v : DWord) (n : Nat) : State :=
  match checkAddr s (.cond k) v n 1 false false with
  | .ok (.ext e off) =>
    let (s1, ps) := s.translateN (s.holder (.cond k)) e off false n
    s1.settle (.cond k) (placesOf ps)
  | _ => s

/-- A conductor's record read at issue, as a load of the conductor (R161, R169, R182, R246): from an extent, or from the cell
store of a running clause. A record that the command cannot read fails it (R181); one with an uncorrectable word traps as a
load does (log entry 33). -/
def recordRead (s : State) (k : Nat) (v : DWord) : Res (Except CmdFault (List Byte) × State) := do
  engCheck s (.cond k) v 64 8 false false
  if waitHeld s (.cond k) then throw (.hold .waitField)
  let s := ownFirst s k v 64
  match engRead s k { newCommand 0 .nopl ⟨none, none⟩ (s.hart (.cond k)) with run := none } v 64 with
  | .ok r => pure (.ok r.1, r.2)
  | .error .wait => throw (.hold .pattern)
  | .error (.page m) => throw (.page { m with src := 0 })
  | .error (.fail f) | .error (.after _ _ f) => pure (.error f, s)
  | .error (.bad p f) => throw (.bad p (trapOf .uncorr f.addr 0))

/-- spatr (R182, R183): the record is read at issue. -/
def execSpatr (ra rb : XOp) (ws : WaitSig) (pg : Pg) (s : State) : Out :=
  let i := Instr.spatr ra rb ws pg
  let pc := (s.hart s.cur).pc
  match s.cur with
  | .ctx _ _ => cellLong i ws pg (fun s => do
      let q ← ownPort i ra
      let (b, w) ← readX (work s) 1 rb
      let (bs, s1) ← loadBytes w.s w.s.cur b 64 8
      cellPattern s1 q (s.port q) (recordPattern bs pc) (undefLong i)) s
  | .cond k => longCmd i ws pg (fun _ w => do
      let (t, w) ← readX w 0 ra
      let (b, w) ← readX w 1 rb
      let (r, s1) ← recordRead w.s k b
      match r with
      | .ok bs => condPattern t (recordPattern bs pc) none k { w with s := s1 }
      | .error f => condPattern t none (some f) k { w with s := s1 }) s

/-- FE of the option field (R181). -/
def optFe (opts : BitVec 6) : Bool := opts.getLsbD 5

/-- copy (R184). -/
def execCopy (ra rb rc : XOp) (opts : BitVec 6) (ws : WaitSig) (pg : Pg) (s : State) : Out :=
  longCmd (.copy ra rb rc opts ws pg) ws pg (fun a w => do
    let (d, b, l, w) ← read3 w ra rb rc
    let n := l.toNat
    if 2 ^ 40 ≤ n then throw (.trap (trapOf .bounds l (dwn (2 ^ 40))))
    else
      engCheck w.s a d n (if optFe opts then 8 else 1) true (optFe opts)
      if optFe opts then mult8 n else pure ()
      engCheck w.s a b n 1 false false
      if fld d.toNat 47 40 = fld b.toNat 47 40 ∧ overlap d.toNat n b.toNat n then throw (.trap (trapOf .bounds d b))
      else
        arrCheck opts d
        pure (.copy d b l opts, w)) s

/-- fill (R184). -/
def execFill (ra rb rc : XOp) (opts : BitVec 6) (ws : WaitSig) (pg : Pg) (s : State) : Out :=
  longCmd (.fill ra rb rc opts ws pg) ws pg (fun a w => do
    let (d, v, l, w) ← read3 w ra rb rc
    engCheck w.s a d l.toNat 8 true (optFe opts)
    mult8 l.toNat
    arrCheck opts d
    pure (.fill d v l opts, w)) s

/-- fprint (R185). -/
def execFprint (ra rb rc : XOp) (fe : Bool) (ws : WaitSig) (pg : Pg) (s : State) : Out :=
  longCmd (.fprint ra rb rc fe ws pg) ws pg (fun a w => do
    let (b, d, n, w) ← read3 w ra rb rc
    if 65536 < n.toNat then throw (.trap (trapOf .bounds n 65536))
    else
      engCheck w.s a b (4096 * n.toNat) 4096 false false
      engCheck w.s a d (8 * n.toNat) 8 true fe
      pure (.fprint b d n fe, w)) s

/-- cmpr (R186). -/
def execCmpr (ra rb rc : XOp) (fe : Bool) (immB : Word) (ws : WaitSig) (pg : Pg) (s : State) : Out :=
  longCmd (.cmpr ra rb rc fe immB ws pg) ws pg (fun a w => do
    let (x, y, d, w) ← read3 w ra rb rc
    engCheck w.s a x immB.toNat 1 false false
    engCheck w.s a y immB.toNat 1 false false
    engCheck w.s a d 8 8 true fe
    pure (.cmpr x y d fe immB.toNat, w)) s

/-- Bytes of an element (R181). -/
def elemSize (esz : BitVec 3) : Nat := 8 * 2 ^ esz.toNat

/-- gather (R184): the indexed elements are checked when they are reached. -/
def execGather (ra rb rc : XOp) (opts : BitVec 6) (esz : BitVec 3) (immB : Word) (ws : WaitSig) (pg : Pg) (s : State) :
    Out :=
  longCmd (.gather ra rb rc opts esz immB ws pg) ws pg (fun a w => do
    let (d, b, x, w) ← read3 w ra rb rc
    engCheck w.s a d (immB.toNat * elemSize esz) (if optFe opts then 8 else 1) true (optFe opts)
    engCheck w.s a x (4 * immB.toNat) 4 false false
    arrCheck opts d
    pure (.gather d b x opts (elemSize esz) immB.toNat, w)) s

/-- scatter (R184). -/
def execScatter (ra rb rc : XOp) (fe : Bool) (esz : BitVec 3) (immB : Word) (ws : WaitSig) (pg : Pg) (s : State) : Out :=
  longCmd (.scatter ra rb rc fe esz immB ws pg) ws pg (fun a w => do
    let (d, b, x, w) ← read3 w ra rb rc
    if fe && d.toNat % 8 != 0 then throw (.trap (trapOf .align d 8))
    else
      engCheck w.s a b (immB.toNat * elemSize esz) 1 false false
      engCheck w.s a x (4 * immB.toNat) 4 false false
      pure (.scatter d b x fe (elemSize esz) immB.toNat, w)) s

/-- A length of 2^40 or more (R187). -/
def len40 (l : DWord) : Res Unit :=
  if 2 ^ 40 ≤ l.toNat then .error (.trap (trapOf .bounds l (dwn (2 ^ 40)))) else .ok ()

/-- rcopy (R187, R332). -/
def execRcopy (ra rb rc : XOp) (port : Fin 8) (pull : Bool) (key : Word) (ws : WaitSig) (pg : Pg) (s : State) : Out :=
  longCmd (.rcopy ra rb rc port pull key ws pg) ws pg (fun a w => do
    let (x, y, l, w) ← read3 w ra rb rc
    len40 l
    engCheck w.s a x l.toNat 1 pull false
    highZero y 48
    pure (.rcopy x y l port pull key, w)) s

/-- Bytes of an element of reduce (R181). -/
def redSize (op : Fin 3) : Nat := if op = 2 then 8 else 4

/-- reduce (R184): in deterministic mode the FP32 forms raise DETERM. -/
def execReduce (ra rb rc : XOp) (opts : BitVec 6) (op : Fin 3) (ws : WaitSig) (pg : Pg) (s : State) : Out :=
  let i := Instr.reduce ra rb rc opts op ws pg
  longCmd i ws pg (fun a w => do
    let (d, b, n, w) ← read3 w ra rb rc
    let len := n.toNat * redSize op
    engCheck w.s a d len (if optFe opts then 8 else 1) true (optFe opts)
    if optFe opts then mult8 len else pure ()
    engCheck w.s a b len 1 false false
    arrCheck opts d
    if w.hart.det && op != 2 then throw (.trap (trapOf .determ d (w0Of i)))
    else pure (.reduce d b n opts op, w)) s

/-- Whether a clause in seam mode read runs on a die (R242, R375). -/
def Clause.readsSeam (cl : Clause) (die : Nat) : Bool :=
  cl.seam && !cl.waits && (cl.cells.any (fun p => p / 204 == die) ||
    cl.extents.any (fun e => e.space == .seam && e.base / 2 ^ 36 == die))

def State.seamBusy (s : State) (die : Nat) : Bool :=
  s.regions.any (fun r => r.2.clauses.any (fun cl => cl.readsSeam die))

/-- The seam address of a seam extent address of a conductor. -/
def State.seamAddr (s : State) (a : AgentId) (v : DWord) : Option Nat :=
  (s.extentNo a (fld v.toNat 47 40)).bind (fun e => if e.space = .seam then some (e.base + fld v.toNat 39 0) else none)

/-- seamw (R188): it writes where loads and stores find the seam read only. -/
def execSeamw (ra rb rc : XOp) (ws : WaitSig) (pg : Pg) (s : State) : Out :=
  longCmd (.seamw ra rb rc ws pg) ws pg (fun a w => do
    let (d, b, l, w) ← read3 w ra rb rc
    engCheck w.s a d l.toNat 64 false false
    engCheck w.s a b l.toNat 64 false false
    if l.toNat % 64 ≠ 0 then throw (.trap (trapOf .align l 64))
    else
      match w.s.seamAddr a d with
      | none => throw (.trap (trapOf .bounds d 0))
      | some sa =>
        if w.s.seamBusy (sa / 2 ^ 36) then throw (.trap (trapOf .seambusy d (dwn (sa / 2 ^ 36))))
        else pure (.seamw d b l, w)) s

/-- xmap (R189). -/
def execXmap (ra : XOp) (zero : Bool) (ws : WaitSig) (pg : Pg) (s : State) : Out :=
  longCmd (.xmap ra zero ws pg) ws pg (fun a w => do
    let (v, w) ← read1 w ra
    engCheck w.s a v 1 1 false false
    pure (.xmap v zero, w)) s

/-- clause (R190, R210): CLAUSE counts it at its issue. -/
def execClause (ra rb : XOp) (ws : WaitSig) (pg : Pg) (s : State) : Out :=
  longCmd (.clause ra rb ws pg) ws pg (fun a w => do
    let (v, w) ← readX w 0 ra
    let (n, w) ← readX w 1 rb
    launchCheck w.s a v 64 64
    if 2 ^ 32 ≤ n.toNat then throw (.trap (trapOf .bounds n (dwn (2 ^ 32))))
    else pure (.clause v n, w.modHart (fun h => { h with clause := h.clause + 1 }))) s

/-- cwait (R191): queued once, and then it holds the conductor until it completes. -/
def execCwait (ra : XOp) (ws : WaitSig) (pg : Pg) (s : State) : Out :=
  match s.cur with
  | .ctx _ _ => governed pg 16 (fun _ => .error (.trap (privLong (.cwait ra ws pg)))) s
  | .cond k =>
    if (s.hart s.cur).hold = some .cwait then .next s
    else governedJump pg 16 (fun s => do
      if 16 ≤ (s.cond k).cmds.length then throw (.hold .issueQueue)
      else
        let (n, w) ← read1 (work s) ra
        if w.hart.clause.toNat ≤ n.toNat then throw (.trap (trapOf .bounds n (dwn w.hart.clause.toNat)))
        else pure ((w.s.queueCmd k (.cwait n) ws).holdBy s.cur .cwait)) s

/-- rolemap (R192). -/
def execRolemap (ra : XOp) (ws : WaitSig) (pg : Pg) (s : State) : Out :=
  longCmd (.rolemap ra ws pg) ws pg (fun a w => do
    let (v, w) ← read1 w ra
    launchCheck w.s a v 8 8
    pure (.rolemap v, w)) s

/-! ### Lode commands at issue (R299, R311) -/

/-- attn (R306). -/
def execAttn (ra : XOp) (ws : WaitSig) (pg : Pg) (s : State) : Out :=
  longCmd (.attn ra ws pg) ws pg (fun a w => do
    let (v, w) ← read1 w ra
    let _ ← checkAddr w.s a v 64 64 false false
    pure (.attn v, w)) s

/-- lfork (R300). -/
def execLfork (ra : XOp) (ws : WaitSig) (pg : Pg) (s : State) : Out :=
  longCmd (.lfork ra ws pg) ws pg (fun a w => do
    let (v, w) ← read1 w ra
    let _ ← checkAddr w.s a v 64 8 false false
    pure (.lfork v, w)) s

/-- Slots that lapp, lput and lget move: the count of X(rc) (R301). -/
def slotCount (rng : DWord) : Nat := fld rng.toNat 47 32

/-- The operands and checks of lapp, lput and lget. -/
def slotsIssue (ra rb rc : XOp) (write : Bool) (opts : BitVec 6) (a : AgentId) (w : Work) :
    Res (DWord × DWord × DWord × Work) := do
  let (key, mem, rng, w) ← read3 w ra rb rc
  engCheck w.s a mem (240 * slotCount rng) (if optFe opts then 8 else 1) write (optFe opts)
  keyCheck key
  highZero rng 48
  arrCheck opts mem
  pure (key, mem, rng, w)

/-- lapp (R301). -/
def execLapp (ra rb rc : XOp) (ws : WaitSig) (pg : Pg) (s : State) : Out :=
  longCmd (.lapp ra rb rc ws pg) ws pg (fun a w => do
    let (key, mem, rng, w) ← slotsIssue ra rb rc false 0 a w
    pure (.lapp key mem rng, w)) s

/-- lput (R301). -/
def execLput (ra rb rc : XOp) (ws : WaitSig) (pg : Pg) (s : State) : Out :=
  longCmd (.lput ra rb rc ws pg) ws pg (fun a w => do
    let (key, mem, rng, w) ← slotsIssue ra rb rc false 0 a w
    pure (.lput key mem rng, w)) s

/-- lget (R301). -/
def execLget (ra rb rc : XOp) (opts : BitVec 6) (ws : WaitSig) (pg : Pg) (s : State) : Out :=
  longCmd (.lget ra rb rc opts ws pg) ws pg (fun a w => do
    let (key, mem, rng, w) ← slotsIssue ra rb rc true opts a w
    pure (.lget key mem rng opts, w)) s

/-- lshare (R302). -/
def execLshare (ra rb rc : XOp) (ext : Bool) (ws : WaitSig) (pg : Pg) (s : State) : Out :=
  longCmd (.lshare ra rb rc ext ws pg) ws pg (fun _ w => do
    let (key, f, pos, w) ← read3 w ra rb rc
    keyCheck key
    highZero f 28
    highZero pos 32
    pure (.lshare key f pos ext, w)) s

/-- lrel (R303). -/
def execLrel (ra : XOp) (ws : WaitSig) (pg : Pg) (s : State) : Out :=
  longCmd (.lrel ra ws pg) ws pg (fun _ w => do
    let (key, w) ← read1 w ra
    keyCheck key
    pure (.lrel key, w)) s

/-- linv (R304). -/
def execLinv (ra : XOp) (all : Bool) (ws : WaitSig) (pg : Pg) (s : State) : Out :=
  longCmd (.linv ra all ws pg) ws pg (fun _ w => do
    let (key, w) ← read1 w ra
    keyCheck key
    pure (.linv key all, w)) s

end Sys2Proof.Machine
end

