-- ==== Sys2Proof/Machine/Pulse.lean ====
section
/-! DEFINITION. The pulse array: operations at issue, direct tile accesses, control instructions, and the array's own
steps (spec/06 R126 to R157, spec/01 R27, R29). -/
namespace Sys2Proof.Machine

/-! ### Tiles -/

/-- Element (i, j) of a tile is at 24·i + j; an unlisted element is +0 (R36). -/
def tileGet (t : Tile) (n : Nat) : Word := tget t n 0

/-- A tile from its elements, without those that are +0. -/
def tileOf (f : Nat → Word) : Tile := (List.range 1152).filterMap (fun n => if f n = 0 then none else some (n, f n))

/-- Row r of a tile (R147). -/
def tileRow (t : Tile) (r : Nat) : Wide := Vector.ofFn (fun j => tileGet t (24 * r + j.val))

/-- Row r of a tile replaced. -/
def tileSetRow (t : Tile) (r : Nat) (v : Wide) : Tile :=
  tileOf (fun n => if n / 24 = r then v[n % 24]'(Nat.mod_lt _ (by decide)) else tileGet t n)

/-! ### Arithmetic (R29) -/

/-- A block as the array takes it: its scale, and its 24 integers; none for a NaN block. -/
def arrayBlock (b : Block) : Option (Nat × List Int) := if b.isNan then none else some (b.e, b.ints)

/-- The term of two blocks in units of 2^-254; none when one is a NaN block. -/
def blockTerm (a b : Option (Nat × List Int)) : Option Int :=
  match a, b with
  | some (ea, ia), some (eb, ib) => some (dotInts ia ib * (2 ^ (ea + eb) : Nat))
  | _, _ => none

/-- floor(log2 |v|) of a nonzero integer. -/
def magLog (v : Int) : Nat := log2n v.natAbs

/-- One group of R29: `terms` pairs each k with its term in units of 2^-254. -/
def groupSum (c0 : Word) (terms : List (Nat × Option Int)) : FR :=
  let c := flush c0
  match terms.find? (fun t => t.2 == none) with
  | some (k, _) => (if isNan c then c else BitVec.ofNat 32 (0x7FC00000 + k % 2 ^ 22), fInv)
  | none =>
    if isNan c || isInf c then (c, 0)
    else
      let ops := (val c * (2 ^ 105 : Nat)) :: terms.filterMap (·.2)
      let nz := ops.filter (· != 0)
      if nz.isEmpty then (c, 0)
      else
        let emax := nz.foldl (fun m v => max m (magLog v)) 0
        -- windows of 39 bits below emax; in units of 2^-254 the unit is 2^(emax − 38), which may be below one
        let sum := ops.foldl (fun acc v =>
          acc + (if 38 ≤ emax then v / ((2 ^ (emax - 38) : Nat) : Int) else v * ((2 ^ (38 - emax) : Nat) : Int))) 0
        if sum = 0 then (0, 0) else rnd sum ((emax : Int) - 38 - 254)

/-- The groups {4g .. 4g + 3} of a list of terms in ascending k (R29). -/
def groupSums (c : FR) : List (Nat × Option Int) → FR
  | t0 :: t1 :: t2 :: t3 :: r =>
    let x := groupSum c.1 [t0, t1, t2, t3]
    groupSums (x.1, c.2 ||| x.2) r
  | [] => c
  | r =>
    let x := groupSum c.1 r
    (x.1, c.2 ||| x.2)

/-! ### Issue -/

/-- R128 for one range; an empty range is not checked. -/
def pulseRange (v : DWord) (n align : Nat) : Res Unit :=
  if n = 0 then .ok ()
  else if v.toNat % align ≠ 0 then .error (.trap (trapOf .align v (dwn align)))
  else if 0x80000 < v.toNat + n then .error (.trap (trapOf .bounds v 0x80000))
  else .ok ()

/-- Operations of a class, in order, and those that own a tile. -/
def Cell.classOps (x : Cell) (c : Fin 4) : List PulseOp := x.ops.filter (fun o => o.cls == c)
def Cell.tileOps (x : Cell) (t : Fin 4) : List PulseOp := x.ops.filter (fun o => o.tile == t)

/-- An operation enters the queue of its class (R130, R135 to R137, R140). -/
def enqueue (s : State) (o : PulseOp) : Res State :=
  match s.cur with
  | .cond _ => .error (.hold .array)
  | .ctx p c =>
    let x := s.cell p
    if 4 ≤ (x.classOps o.cls).length then .error (.hold .array)
    else
      match (x.tileOps o.tile).find? (fun q => q.cls != o.cls) with
      | some q =>
        if x.ctx[c].det then .error (.trap (trapOf .race (dwn (o.tile.val + 4 * o.cls.val)) (dwn q.tag.toNat)))
        else push p c x
      | none => push p c x
where
  push (p : Nat) (c : Fin 4) (x : Cell) : Res State :=
    .ok (s.setCell p { x with
      ops := x.ops ++ [{ o with tag := x.nextTag, ctx := c, ord := x.ord }], nextTag := x.nextTag + 1, ord := x.ord + 1 })

/-- An operation before it is queued. -/
def newOp (form : PForm) (tile cls : Fin 4) (a0 : Nat) (panels : List Panel) (kb est : Nat) (ranges : List (Nat × Nat)) :
    PulseOp where
  form := form
  tile := tile
  cls := cls
  a0 := a0
  panels := panels
  kb := kb
  tag := 0
  ctx := 0
  est := est
  ord := 0
  passed := 0
  running := false
  group := 0
  nextK := 0
  readyAt := 0
  read := []
  ranges := ranges
  result := none

/-- The block that stands at an address of a cell store. -/
def blockAt (m : Memory) (a32 : Bool) (addr : Nat) : Block := blockFrom a32 (m.read addr (blockSize a32))

/-- The first malformed block of a scan (R133): each entry is a k, an i or j, a format, an address and the field
number it is reported with. -/
def scanBlocks (m : Memory) : List (Nat × Nat × Bool × Nat × Nat) → Res Unit
  | [] => .ok ()
  | (k, i, a32, addr, f) :: r =>
    match (blockAt m a32 addr).malformed with
    | some (j, raw) => .error (.trap (trapOf .malatom (dwn (j + 8 * f + 2 ^ 8 * k + 2 ^ 24 * i)) (dwn raw)))
    | none => scanBlocks m r

/-- Every block of a panel of `n` blocks a k-block, in order. -/
def panelBlocks (base kb n : Nat) (a32 : Bool) (f : Nat) : List (Nat × Nat × Bool × Nat × Nat) :=
  ((List.range kb).map (fun k =>
    (List.range n).map (fun i => (k, i, a32, base + (k * n + i) * blockSize a32, f)))).flatten

/-- The cell store of the current agent; a conductor has none. -/
def State.curStore (s : State) : Memory :=
  match s.cur with
  | .ctx p _ => (s.cell p).store
  | .cond _ => []

/-- The cell of the current agent. -/
def State.curCell (s : State) : Option Nat :=
  match s.cur with
  | .ctx p _ => some p
  | .cond _ => none

/-- The scan at issue, in deterministic mode with trapping of malformed reads (R133), of the cell store as it stands: what
pattern ports and mst have not written yet is not in it (log entry 61). -/
def scanCheck (s : State) (l : List (Nat × Nat × Bool × Nat × Nat)) : Res Unit :=
  if (s.hart s.cur).mtrap then scanBlocks s.curStore l else .ok ()

/-- The operands of mma, mmacsr and mmag, and the check of Kb (R129, R157). -/
def mmaOperands (ra rb rc : XOp) (s : State) : Res (DWord × DWord × Nat × Work) := do
  let w ← fields s [Cls.x.src ra, Cls.x.src rb, Cls.x.src rc]
  let (a, w) ← readX w 0 ra
  let (b, w) ← readX w 1 rb
  let (k, w) ← readX w 2 rc
  if 256 < k.toNat then throw (.trap (trapOf .bounds k 256)) else pure (a, b, k.toNat, w)

/-- A dense form (R129 to R131). -/
def mmaDense (tile cls : Fin 4) (ra rb rc : XOp) (pg : Pg) (a32 b32 : Bool) (s : State) : Out :=
  governed pg 4 (fun s => do
    let (a, b, kb, w) ← mmaOperands ra rb rc s
    let na := kb * 48 * blockSize a32
    let nb := kb * 24 * blockSize b32
    pulseRange a na 2
    pulseRange b nb 2
    scanCheck w.s (panelBlocks a.toNat kb 48 a32 ra.field ++ panelBlocks b.toNat kb 24 b32 rb.field)
    let ranges := if kb = 0 then [] else [(a.toNat, na), (b.toNat, nb)]
    enqueue w.s (newOp (.dense a32 b32) tile cls a.toNat [⟨0, 48, b.toNat⟩] kb (432 * kb) ranges)) s

/-- mma.a4a4 (R129). -/
def execMmaA4a4 (tile cls : Fin 4) (ra rb rc : XOp) (pg : Pg) (s : State) : Out :=
  mmaDense tile cls ra rb rc pg false false s
/-- mma.a4a32 (R129). -/
def execMmaA4a32 (tile cls : Fin 4) (ra rb rc : XOp) (pg : Pg) (s : State) : Out :=
  mmaDense tile cls ra rb rc pg false true s
/-- mma.a32a32 (R129). -/
def execMmaA32a32 (tile cls : Fin 4) (ra rb rc : XOp) (pg : Pg) (s : State) : Out :=
  mmaDense tile cls ra rb rc pg true true s

/-- BOUNDS of a descriptor violation at an address of the cell store (R143). A violation met beyond the store, whose
bytes read as 0, is left to the check of its range (log entry 62). -/
def csrBad (addr v : Nat) : Res Unit :=
  if addr < 0x80000 then .error (.trap (trapOf .bounds (dwn addr) (dwn v))) else .ok ()

/-- The first nonzero byte of a list, reported at its address. -/
def zeroBytes (addr : Nat) : List Byte → Res Unit
  | [] => .ok ()
  | b :: r => if b = 0 then zeroBytes (addr + 1) r else csrBad addr b.toNat

/-- Row pointers may not fall (R143); `prev` is the one before. -/
def risingRows (addr prev : Nat) : List Nat → Res Unit
  | [] => .ok ()
  | v :: r => do
    if v < prev then csrBad addr v else .ok ()
    risingRows (addr + 4) v r

/-- Column indices of one row: below 24 and strictly rising (R143). -/
def risingCols (addr : Nat) (prev : Option Nat) : List Nat → Res Unit
  | [] => .ok ()
  | v :: r => do
    if decide (23 < v) || (match prev with | some p => decide (v ≤ p) | none => false) then csrBad addr v else .ok ()
    risingCols (addr + 1) (some v) r

/-- The checks of each row's column indices. -/
def rowCols (m : Memory) (ci : Nat) : List (Nat × Nat) → Res Unit
  | [] => .ok ()
  | (lo, hi) :: r => do
    risingCols (ci + lo) none ((List.range (hi - lo)).map (fun e => (m.get (ci + lo + e)).toNat))
    rowCols m ci r

/-- An uncorrectable word among the bytes that the cell reads at issue: UNCORR there, as at a load (R276, log entry 63). -/
def descGood (s : State) (v n : Nat) : Res Unit :=
  match s.curCell with
  | none => .ok ()
  | some p =>
    match (List.range n).find? (fun i => decide (v + i < 0x80000) && s.isBad (.store p (v + i))) with
    | some i => .error (.bad (.store p (v + i)) (trapOf .uncorr (dwn (v + i)) 0))
    | none => .ok ()

/-- A sparse form (R142, R143). The descriptor, the row pointers and the column indices are read from the cell store as
it stands (log entry 61). -/
def mmaSparse (tile cls : Fin 4) (ra rb rc : XOp) (pg : Pg) (a32 : Bool) (s : State) : Out :=
  governed pg 4 (fun s => do
    let (a, b, kb, w) ← mmaOperands ra rb rc s
    pulseRange b 32 8
    let m := w.s.curStore
    let d := b.toNat
    let rp := m.num d 4
    let ci := m.num (d + 4) 4
    let bv := m.num (d + 8) 4
    descGood w.s d 32
    zeroBytes (d + 12) (m.read (d + 12) 20)
    descGood w.s rp (4 * (kb + 1))
    let ptr := (List.range (kb + 1)).map (fun k => m.num (rp + 4 * k) 4)
    if ptr.headD 0 ≠ 0 then csrBad rp (ptr.headD 0) else .ok ()
    risingRows (rp + 4) (ptr.headD 0) (ptr.drop 1)
    let n := ptr.getLastD 0
    if 24 * kb < n then csrBad (rp + 4 * kb) n else .ok ()
    let rows := ptr.zip (ptr.drop 1)
    descGood w.s ci n
    rowCols m ci rows
    if kb = 0 then enqueue w.s (newOp (.csr a32 []) tile cls a.toNat [⟨0, 48, 0⟩] 0 0 [])
    else
      let na := kb * 48 * blockSize a32
      pulseRange a na 2
      pulseRange (dwn rp) (4 * (kb + 1)) 4
      pulseRange (dwn ci) n 1
      pulseRange (dwn bv) (n * blockSize a32) 2
      let cols := rows.map (fun r =>
        (List.range (r.2 - r.1)).map (fun e => ((m.get (ci + r.1 + e)).toNat, bv + (r.1 + e) * blockSize a32)))
      scanCheck w.s (panelBlocks a.toNat kb 48 a32 ra.field ++
        (cols.zipIdx.map (fun c => c.1.map (fun e => (c.2, e.1, a32, e.2, rb.field)))).flatten)
      let full := (rows.filter (fun r => r.1 < r.2)).length
      enqueue w.s (newOp (.csr a32 cols) tile cls a.toNat [⟨0, 48, 0⟩] kb (288 * full + 6 * n)
        [(a.toNat, na), (rp, 4 * (kb + 1)), (ci, n), (bv, n * blockSize a32)])) s

/-- mmacsr.a4 (R142). -/
def execMmacsrA4 (tile cls : Fin 4) (ra rb rc : XOp) (pg : Pg) (s : State) : Out :=
  mmaSparse tile cls ra rb rc pg false s
/-- mmacsr.a32 (R142). -/
def execMmacsrA32 (tile cls : Fin 4) (ra rb rc : XOp) (pg : Pg) (s : State) : Out :=
  mmaSparse tile cls ra rb rc pg true s

/-- The groups that have rows, each with its first row (R144). -/
def groupPanels : Nat → List (Nat × Nat) → List Panel
  | _, [] => []
  | r, (c, base) :: rest => if c = 0 then groupPanels r rest else ⟨r, c, base⟩ :: groupPanels (r + c) rest

/-- R128 for each group's panel. -/
def groupRanges (n : Nat) : List Panel → Res Unit
  | [] => .ok ()
  | p :: r => do
    pulseRange (dwn p.base) n 2
    groupRanges n r

/-- A ragged form (R144, R145). -/
def mmaGroups (tile cls : Fin 4) (ra rb rc : XOp) (pg : Pg) (a32 : Bool) (s : State) : Out :=
  governed pg 4 (fun s => do
    let (a, b, kb, w) ← mmaOperands ra rb rc s
    pulseRange b 64 8
    let m := w.s.curStore
    let d := b.toNat
    descGood w.s d 64
    let g := m.num d 1
    let cnt := (m.read (d + 8) 8).map (·.toNat)
    let bases := (List.range 8).map (fun i => m.num (d + 16 + 4 * i) 4)
    let sum := cnt.foldl (· + ·) 0
    let zeros := (m.read (d + 1) 7).all (· == 0) && (m.read (d + 48) 16).all (· == 0) &&
      (cnt.drop g).all (· == 0) && (bases.drop g).all (· == 0)
    if g = 0 ∨ 8 < g ∨ 48 < sum ∨ zeros = false then throw (.trap (trapOf .ragged (dwn sum) (dwn g)))
    else
      let panels := groupPanels 0 (cnt.zip bases)
      let na := kb * 48 * blockSize a32
      let nb := kb * 24 * blockSize a32
      pulseRange a na 2
      groupRanges nb panels
      scanCheck w.s (panelBlocks a.toNat kb 48 a32 ra.field ++
        (panels.map (fun p => panelBlocks p.base kb 24 a32 rb.field)).flatten)
      let est := kb * (panels.foldl (fun acc p => acc + (6 * p.count + 144)) 0)
      let ranges := if kb = 0 then [] else (a.toNat, na) :: panels.map (fun p => (p.base, nb))
      enqueue w.s (newOp (.groups a32) tile cls a.toNat panels kb est ranges)) s

/-- mmag.a4 (R144). -/
def execMmagA4 (tile cls : Fin 4) (ra rb rc : XOp) (pg : Pg) (s : State) : Out :=
  mmaGroups tile cls ra rb rc pg false s
/-- mmag.a32 (R144). -/
def execMmagA32 (tile cls : Fin 4) (ra rb rc : XOp) (pg : Pg) (s : State) : Out :=
  mmaGroups tile cls ra rb rc pg true s

/-- mzero (R146). -/
def execMzero (tile cls : Fin 4) (pg : Pg) (s : State) : Out :=
  governed pg 4 (fun s => enqueue s (newOp .zero tile cls 0 [] 0 0 [])) s

/-! ### Direct tile accesses and control -/

/-- UNCORR of an abandoned operation, delivered once (R276). -/
def lostTrap (s : State) (p : Nat) (hit : Fin 4 × Fin 4 × Nat × BitVec 16 → Bool) : Option (State × TrapInfo) :=
  let x := s.cell p
  match x.lost.find? hit with
  | none => none
  | some l =>
    some (s.setCell p { x with lost := x.lost.filter (fun m => m != l) },
      trapOf .uncorr (dwn l.2.2.1) (dwn (2 ^ 62 + l.2.2.2.toNat)))

/-- ACCBUSY (R138). -/
def tileFree (s : State) (p : Nat) (t : Fin 4) : Res Unit :=
  match (s.cell p).tileOps t with
  | o :: _ => .error (.trap (trapOf .accbusy (dwn t.val) (dwn o.tag.toNat)))
  | [] => .ok ()

/-- A tile read with an uncorrectable error (R276). -/
def tileGood (s : State) (p : Nat) (t : Fin 4) : Res Unit :=
  if (s.cell p).badTiles.contains t then .error (.trap (regTrap 6 t.val)) else .ok ()

/-- An instruction of the array's cell that an abandoned operation may trap (R276). -/
def withLost (pg : Pg) (hit : Fin 4 × Fin 4 × Nat × BitVec 16 → Bool) (body : Nat → State → Res State) (s : State) : Out :=
  match s.curCell with
  | none => .next (s.retireBy s.cur 4)
  | some p =>
    if (s.hart s.cur).badPred pg then .next (s.takeTrap s.cur (regTrap 3 pg.val))
    else if (s.hart s.cur).pred pg = false then .next (s.retireBy s.cur 4)
    else
      match body p s with
      | .error e => .next (s.stopBy s.cur e)
      | .ok s' =>
        match lostTrap s p hit with
        | some (s1, t) => .next (s1.takeTrap s1.cur t)
        | none => .next (s'.retireBy s.cur 4)

/-- Whether an abandoned operation was on a tile, or of a class. -/
def lostTile (t : Fin 4) (l : Fin 4 × Fin 4 × Nat × BitVec 16) : Bool := l.2.1 == t
def lostClass (c : Fin 4) (l : Fin 4 × Fin 4 × Nat × BitVec 16) : Bool := l.1 == c

/-- The row of mrd and mwr (R147). -/
def rowCheck (r : DWord) : Res Unit :=
  if 48 ≤ r.toNat then .error (.trap (trapOf .bounds r 48)) else .ok ()

/-- mrd (R147): it sets no flag, into a BF16 port neither. -/
def execMrd (rd : WOp) (tile _cls : Fin 4) (rb : XOp) (pg : Pg) (s : State) : Out :=
  withLost pg (lostTile tile) (fun p s => Work.out do
    let w ← fields s [Cls.x.src rb, Cls.w.dst rd]
    let (r, w) ← readX w 0 rb
    dstOk w .w rd
    rowCheck r
    tileFree s p tile
    tileGood s p tile
    let fps := w.hart.fps
    let w ← writeW w rd (tileRow ((s.cell p).acc[tile]) r.toNat)
    pure (w.modHart (fun h => { h with fps := fps }))) s

/-- mwr (R147). -/
def execMwr (tile _cls : Fin 4) (ra : WOp) (rb : XOp) (pg : Pg) (s : State) : Out :=
  withLost pg (lostTile tile) (fun p s => do
    let w ← fields s [Cls.w.src ra, Cls.x.src rb]
    let (v, w) ← readW w 0 ra
    let (r, w) ← readX w 1 rb
    rowCheck r
    tileFree s p tile
    pure (w.s.modCell p (fun x => { x with acc := x.acc.set tile (tileSetRow x.acc[tile] r.toNat v) }))) s

/-- The forms of a stored row (R148). -/
inductive RowForm where
  | f32 | a4 | a32
deriving DecidableEq, Repr

def RowForm.size : RowForm → Nat
  | .f32 => 96 | .a4 => 10 | .a32 => 20
def RowForm.align : RowForm → Nat
  | .f32 => 4 | .a4 => 2 | .a32 => 2

/-- The bytes of a row and the flags of its encoding (R148). -/
def RowForm.encode (f : RowForm) (v : Wide) : List Byte × Flags :=
  match f with
  | .f32 => ((Token.wide v).bytes 6, 0)
  | .a4 => let r := searchWide v.toList false; (r.1.bytes false, r.2)
  | .a32 => let r := searchWide v.toList true; (r.1.bytes true, r.2)

/-- The deterministic-mode checks of each row that an mst writes (R148, R249). -/
def mstRowChecks (s : State) (p : Nat) (size : Nat) : List Nat → Res Unit
  | [] => .ok ()
  | a :: r => do
    windowCheck s s.cur (.store p a) size
    mstRowChecks s p size r

def mstRaces (s : State) (p : Nat) (size : Nat) : List Nat → Res Unit
  | [] => .ok ()
  | a :: r => do
    raceCheck s s.cur (.store p a) (dwn a) size
    mstRaces s p size r

/-- mst (R148): the tile is read now, its rows are stored later. A stride that is not aligned raises ALIGN with the
stride, after xa's alignment and before the range; the write window and RACE come after ACCBUSY (log entry 64). -/
def mstInstr (f : RowForm) (tile cls : Fin 4) (ra rb : XOp) (pg : Pg) (s : State) : Out :=
  withLost pg (lostTile tile) (fun p s => do
    let w ← fields s [Cls.x.src ra, Cls.x.src rb]
    let (a, w) ← readX w 0 ra
    let (st, w) ← readX w 1 rb
    if a.toNat % f.align ≠ 0 then throw (.trap (trapOf .align a (dwn f.align)))
    else if st.toNat % f.align ≠ 0 then throw (.trap (trapOf .align st (dwn f.align)))
    else if 0x80000 < a.toNat + 47 * st.toNat + f.size then throw (.trap (trapOf .bounds a 0x80000))
    else if st.toNat < f.size then throw (.trap (trapOf .bounds st (dwn f.size)))
    else
      tileFree s p tile
      tileGood s p tile
      let addrs := (List.range 48).map (fun r => a.toNat + r * st.toNat)
      mstRowChecks s p f.size addrs
      mstRaces s p f.size addrs
      let t := (s.cell p).acc[tile]
      let enc := (List.range 48).map (fun r => f.encode (tileRow t r))
      pure (w.s.modCell p (fun x =>
        { x with
          msts := x.msts ++ [⟨tile, cls, AgentId.ctx4 s.cur, x.ord, addrs.zip (enc.map (·.1)),
            enc.foldl (fun acc e => acc ||| e.2) 0⟩]
          ord := x.ord + 1 }))) s

/-- mst.f32 (R148). -/
def execMstF32 (tile cls : Fin 4) (ra rb : XOp) (pg : Pg) (s : State) : Out := mstInstr .f32 tile cls ra rb pg s
/-- mst.a4 (R148). -/
def execMstA4 (tile cls : Fin 4) (ra rb : XOp) (pg : Pg) (s : State) : Out := mstInstr .a4 tile cls ra rb pg s
/-- mst.a32 (R148). -/
def execMstA32 (tile cls : Fin 4) (ra rb : XOp) (pg : Pg) (s : State) : Out := mstInstr .a32 tile cls ra rb pg s

/-- mwait (R139): what the cell had queued when it first issued has completed. -/
def execMwait (cls : Fin 4) (pg : Pg) (s : State) : Out :=
  withLost pg (lostClass cls) (fun p s =>
    let x := s.cell p
    let n := match (s.hart s.cur).hold with
      | some (.mwait n) => n
      | _ => x.ord
    if x.ops.any (fun o => o.cls == cls && decide (o.ord < n)) || x.msts.any (fun m => m.cls == cls && decide (m.ord < n))
    then .error (.hold (.mwait n)) else .ok s) s

/-- mbudget (R156). -/
def execMbudget (ra : XOp) (pg : Pg) (s : State) : Out :=
  governed pg 4 (fun s => do
    let (v, w) ← readX (work s) 0 ra
    match s.curCell with
    | none => pure w.s
    | some p =>
      let b := clampN v.toNat 432 65535
      pure (w.s.modCell p (fun x => { x with bcap := b, budget := min x.budget b }))) s

/-- mstat (R156). -/
def execMstat (rd : XOp) (pg : Pg) (s : State) : Out :=
  governed pg 4 (fun s => Work.out do
    match s.curCell with
    | none => writeX (work s) rd 0
    | some p => writeX (work s) rd (mstatWord (s.cell p))) s

/-! ### The array's own steps -/

/-- Formats of an operation's A and B blocks. -/
def PForm.formats : PForm → Bool × Bool
  | .zero => (false, false)
  | .dense a b => (a, b)
  | .csr a _ => (a, a)
  | .groups a => (a, a)

/-- Array cycles per k-block (R129, R142, R144). -/
def PForm.cycles (f : PForm) : Nat :=
  match f.formats with
  | (false, false) => 1
  | (true, true) => 4
  | _ => 2

/-- Addresses of the A and B blocks of a k-block of an operation; none is an absent block of a sparse row. -/
def PulseOp.blocks (o : PulseOp) (p : Panel) (k : Nat) : List Nat × List (Option Nat) :=
  let f := o.form.formats
  ((List.range p.count).map (fun i => o.a0 + (k * 48 + p.first + i) * blockSize f.1),
   match o.form with
   | .csr _ rows => (List.range 24).map (fun j => ((rows.getD k []).find? (fun e => e.1 == j)).map (·.2))
   | _ => (List.range 24).map (fun j => some (p.base + (k * 24 + j) * blockSize f.2)))

/-- Whether a k-block costs no array cycle: a sparse row without an entry (R142). -/
def PulseOp.emptyK (o : PulseOp) (k : Nat) : Bool :=
  match o.form with
  | .csr _ rows => (rows.getD k []).isEmpty
  | _ => false

/-- The charge of a block (R151); an A32 block whose reserved byte is not zero charges nothing (log entry 65). -/
def Block.charge (b : Block) : Nat :=
  if b.isNan then 6
  else if b.badRes then 0
  else ((List.range 6).filter (fun j => atomGain b.a32 (b.atom j) != 0 && !badAtom b.a32 (b.atom j))).length

/-- The terms of rows and columns of a panel: k-blocks without an entry give zero (R142). -/
def panelTerms (kb : Nat) (read : List (Nat × List Block × List Block)) (i j : Nat) : List (Nat × Option Int) :=
  (List.range kb).map (fun k =>
    match read.find? (fun r => r.1 == k) with
    | none => (k, some 0)
    | some r => (k, blockTerm ((r.2.1[i]?).bind arrayBlock) ((r.2.2[j]?).bind arrayBlock)))

/-- Whether any block read is malformed (R132). -/
def panelMal (read : List (Nat × List Block × List Block)) : Bool :=
  read.any (fun r => (r.2.1 ++ r.2.2).any (fun b => b.malformed != none))

/-- The tile and flags after one panel has been accumulated (R130, R144). -/
def panelDone (t : Tile) (o : PulseOp) (p : Panel) : Tile × Flags :=
  let elem (n : Nat) : FR :=
    if p.first ≤ n / 24 ∧ n / 24 < p.first + p.count then
      groupSums (tileGet t n, 0) (panelTerms o.kb o.read (n / 24 - p.first) (n % 24))
    else (tileGet t n, 0)
  let all := (List.range 1152).map elem
  (tileOf (fun n => (all.getD n (0, 0)).1), all.foldl (fun acc e => acc ||| e.2) (flagIf (panelMal o.read) fMal))

/-- An operation moved past k-blocks without work and panels that are complete (R130, R142 to R144). -/
def PulseOp.settle (t : Tile) : Nat → PulseOp → PulseOp
  | 0, o => o
  | n + 1, o =>
    match o.panels[o.group]? with
    | none => { o with ranges := [] }
    | some p =>
      if o.kb ≤ o.nextK then
        let cur := o.result.getD (t, 0)
        let r := panelDone cur.1 o p
        PulseOp.settle t n { o with result := some (r.1, cur.2 ||| r.2), group := o.group + 1, nextK := 0, read := [] }
      else if o.emptyK o.nextK then PulseOp.settle t n { o with nextK := o.nextK + 1 }
      else o

/-- An operation as it stands when it starts (R131, R146, R152); an mmag that a stop has parted goes on from the tile as
it stands (R134, R154). -/
def PulseOp.start (t : Tile) (now : Nat) (o : PulseOp) : PulseOp :=
  let o1 := { o with running := true, readyAt := now, result := o.result.map (fun r => (t, r.2)) }
  match o.form with
  | .zero => { o1 with result := some ([], 0), panels := [] }
  | _ => if o.kb = 0 then { o1 with panels := [] } else PulseOp.settle t 300 o1

/-- Whether a head may start (R141, R149). -/
def Cell.mayStart (x : Cell) (o : PulseOp) : Bool :=
  x.msts.all (fun m => m.cls != o.cls || decide (o.ord < m.ord)) &&
    (List.finRange 4).all (fun c => x.ctx[c].ports.toList.all (fun q =>
      q.out.all (fun t => decide (2 ^ 40 ≤ t.addr.toNat) || decide (o.ord < t.ord))))

/-- The heads of the class queues that may start. -/
def Cell.heads (x : Cell) : List PulseOp :=
  (List.finRange 4).filterMap (fun c => ((x.classOps c).head?).filter (fun o => x.mayStart o && !x.late.contains c))

/-- The choice of R152. -/
def chooseHead (l : List PulseOp) : Option PulseOp :=
  match l.find? (fun o => 16 ≤ o.passed) with
  | some o => some o
  | none => l.foldl (fun acc o => match acc with
    | none => some o
    | some b => if o.est < b.est then some o else some b) none

def Cell.running (x : Cell) : Option PulseOp := x.ops.find? (fun o => o.running)

def Cell.modOp (x : Cell) (ord : Nat) (f : PulseOp → PulseOp) : Cell :=
  { x with ops := x.ops.map (fun o => if o.ord == ord then f o else o) }

/-- OPERATION_START (R152). -/
def execOperationStart (cell : Nat) (s : State) : Out :=
  let x := s.cell cell
  if (Cell.running x).isSome then .next s
  else
    match chooseHead x.heads with
    | none => .next s
    | some o =>
      let others := (x.heads.filter (fun q => q.ord != o.ord)).map (·.ord)
      let pass (q : PulseOp) : PulseOp := if others.contains q.ord then { q with passed := q.passed + 1 } else q
      let x1 : Cell := { x with ops := x.ops.map pass, late := [] }
      .next (s.setCell cell (x1.modOp o.ord (PulseOp.start x.acc[o.tile] s.cycle)))

/-- The blocks of the running operation's next k-block; none when none is ready (R129, R150). -/
def Cell.nextBlock (x : Cell) (now : Nat) : Option (PulseOp × List Nat × List (Option Nat)) :=
  match Cell.running x with
  | none => none
  | some o =>
    match o.panels[o.group]? with
    | none => none
    | some p => if o.readyAt ≤ now then some (o, o.blocks p o.nextK) else none

/-- The blocks at those addresses; an absent block is the canonical zero block (R142). -/
def readBlocks (m : Memory) (f : Bool × Bool) (l : List Nat × List (Option Nat)) : List Block × List Block :=
  (l.1.map (blockAt m f.1), l.2.map (fun a => match a with | some a => blockAt m f.2 a | none => zeroBlock f.2))

/-- The charge of a k-block (R151). -/
def blocksCharge (r : List Block × List Block) : Nat :=
  (r.1.map Block.charge).foldl (· + ·) 0 + (r.2.map Block.charge).foldl (· + ·) 0

/-- An uncorrectable word among the blocks read (R276). -/
def badBlock (s : State) (p : Nat) (f : Bool × Bool) (l : List Nat × List (Option Nat)) : Option Nat :=
  let hit (a n : Nat) : Bool := (List.range n).any (fun i => s.isBad (.store p (a + i)))
  match l.1.find? (fun a => hit a (blockSize f.1)) with
  | some a => some a
  | none => (l.2.filterMap id).find? (fun a => hit a (blockSize f.2))

/-- A k-block read by the array, unless a word of it is uncorrectable: then the operation is abandoned (R276). -/
def blockStep (s : State) (cell : Nat) (o : PulseOp) (l : List Nat × List (Option Nat)) : State :=
  let x := s.cell cell
  let f := o.form.formats
  match badBlock s cell f l with
  | some a =>
    (s.setCell cell { x with
      ops := x.ops.filter (fun q => q.ord != o.ord), lost := x.lost ++ [(o.cls, o.tile, a, o.tag)] }).noteUe (.store cell a)
  | none =>
    let r := readBlocks x.store f l
    let x1 := { x with budget := x.budget - blocksCharge r }
    s.setCell cell (x1.modOp o.ord (fun o =>
      PulseOp.settle x.acc[o.tile] 300 { o with
        nextK := o.nextK + 1, readyAt := s.cycle + o.form.cycles, read := o.read ++ [(o.nextK, r)] }))

/-- The charge of a k-block that the array reads (R151); a block with an uncorrectable word ends the operation instead. -/
def State.chargeOf (s : State) (cell : Nat) (o : PulseOp) (l : List Nat × List (Option Nat)) : Nat :=
  if (badBlock s cell o.form.formats l).isNone then blocksCharge (readBlocks (s.cell cell).store o.form.formats l) else 0

/-- The refill (R150). -/
def Cell.refill (x : Cell) (mceil : Nat) : Nat := max 108 (min x.mbud.toNat mceil)

/-- The ceiling that a refill of this cycle takes: a change of MCEIL acts from the next cycle on (R417). -/
def State.ceiling (s : State) : Nat := if s.power.mceilAt = s.cycle + 1 then s.power.mceilOld else s.power.mceil

/-- Step 1 of a cycle (R150): the level rises by the refill, once. -/
def State.refillCell (s : State) (cell : Nat) : State :=
  let x := s.cell cell
  if x.lastRefill = s.cycle + 1 then s
  else s.setCell cell { x with budget := min x.bcap (x.budget + x.refill s.ceiling), lastRefill := s.cycle + 1 }

/-- BUDGET_REFILL (R150). -/
def execBudgetRefill (cell : Nat) (s : State) : Out := .next (s.refillCell cell)

/-- Step 2 of a cycle (R150), after step 1: a ready k-block that the level covers starts; one that it does not cover
counts a stall when `last`. It happens once in a cycle. -/
def State.startBlock (s0 : State) (cell : Nat) (last : Bool) : State :=
  let s := s0.refillCell cell
  let x := s.cell cell
  match x.nextBlock s.cycle with
  | none => s
  | some (o, l) =>
    if x.lastStart = s.cycle + 1 then s
    else if x.budget < s.chargeOf cell o l then
      if last then s.setCell cell { x with stalls := min (x.stalls + 1) 65535, lastStart := s.cycle + 1 } else s
    else (blockStep s cell o l).modCell cell (fun x => { x with lastStart := s.cycle + 1 })

/-- K_BLOCK_START (R150, R151). -/
def execKBlockStart (cell : Nat) (s : State) : Out := .next (s.startBlock cell false)

/-- A finished operation leaves its tile and its flags (R130). -/
def completeOp (s : State) (cell : Nat) (o : PulseOp) : State :=
  let x := s.cell cell
  let x1 := { x with ops := x.ops.filter (fun q => q.ord != o.ord) }
  match o.result with
  | none => s.setCell cell x1
  | some (t, f) =>
    let bad := if o.form = .zero then x1.badTiles.filter (· != o.tile) else x1.badTiles
    ((s.setCell cell { x1 with acc := x1.acc.set o.tile t, badTiles := bad }).orFlags (.ctx cell o.ctx) f).closeIssue cell

/-- OPERATION_COMPLETE (R130): the tile is written and the flags reach FPS. -/
def execOperationComplete (cell : Nat) (s : State) : Out :=
  match Cell.running (s.cell cell) with
  | none => .next s
  | some o => if o.group < o.panels.length then .next s else .next (completeOp s cell o)

/-- The level after the cycles that a k-block of some charge waits for, up to `n`, each of which refills it; those that do not
cover the charge count as stalls (R150). -/
def Cell.filledTo (x : Cell) (refill charge : Nat) : Nat → Cell
  | 0 => x
  | n + 1 =>
    if charge ≤ x.budget then x
    else
      let b := min x.bcap (x.budget + refill)
      Cell.filledTo { x with budget := b, stalls := if charge ≤ b then x.stalls else min (x.stalls + 1) 65535 } refill charge n

/-- The unit that the array is in completed at a stop, in the cycles that this takes: an operation, or the group of an mmag that has begun (R154). -/
def finishUnit (cell group : Nat) : Nat → State → State
  | 0, s => s
  | n + 1, s =>
    match Cell.running (s.cell cell) with
    | none => s
    | some o =>
      match o.panels[o.group]? with
      | none => completeOp s cell o
      | some p =>
        let grouped := match o.form with
          | .groups _ => true
          | _ => false
        if grouped && (o.group != group || o.read.isEmpty) then s
        else
          let l := o.blocks p o.nextK
          let s1 := s.modCell cell (fun x => x.filledTo (x.refill s.power.mceil) (s.chargeOf cell o l) 5)
          finishUnit cell group n (blockStep s1 cell o l)

/-- What a stop leaves of the array's work: the finished groups of an mmag stand in its tile, and nothing runs (R154). -/
def Cell.arrayStopped (x : Cell) : Cell :=
  { x with
    acc := x.ops.foldl (fun acc o => match o.result with | some (t, _) => if o.running then acc.set o.tile t else acc | none => acc) x.acc
    ops := x.ops.map (fun o => { o with running := false }), late := [] }

/-- Rows of an mst stored one after the other. -/
def mstRowsStored (p i : Nat) : Nat → State → State
  | 0, s => s
  | n + 1, s =>
    let last := ((s.cell p).msts[i]?.map (fun m => decide (m.rows.length ≤ 1))).getD true
    match mstRow s p i with
    | none => s
    | some s' => if last then s' else mstRowsStored p i n s'

/-- MST_STORES_PERFORMED (R148): the next rows of an mst are stored, and with the last one its flags reach FPS. -/
def execMstStoresPerformed (cell : Nat) (slot rows : Nat) (s : State) : Out :=
  let s1 := mstRowsStored cell slot rows s
  .next (if (s1.cell cell).msts.length < (s.cell cell).msts.length then s1.closeIssue cell else s1)

end Sys2Proof.Machine
end

