-- ==== Sys2Proof/Machine/WideUnit.lean ====
section
/-! DEFINITION. The wide instructions (spec/05 R114 to R124). -/
namespace Sys2Proof.Machine

/-- One wide source, lane by lane. -/
def wide1 (rd ra : WOp) (pg : Pg) (f : Word → FR) (s : State) : Out :=
  governed pg 4 (fun s => Work.out do
    let w ← fields s [Cls.w.src ra, Cls.w.dst rd]
    let (a, w) ← readW w 0 ra
    let r := lanes1 f a
    writeW (w.flags r.2) rd r.1) s

/-- Two wide sources, lane by lane. -/
def wide2 (rd ra rb : WOp) (pg : Pg) (f : Word → Word → FR) (s : State) : Out :=
  governed pg 4 (fun s => Work.out do
    let w ← fields s [Cls.w.src ra, Cls.w.src rb, Cls.w.dst rd]
    let (a, w) ← readW w 0 ra
    let (b, w) ← readW w 1 rb
    let r := lanes2 f a b
    writeW (w.flags r.2) rd r.1) s

/-- Three wide sources, lane by lane (R122). -/
def wide3 (rd ra rb rc : WOp) (pg : Pg) (f : Word → Word → Word → FR) (s : State) : Out :=
  governed pg 4 (fun s => Work.out do
    let w ← fields s [Cls.w.src ra, Cls.w.src rb, Cls.w.src rc, Cls.w.dst rd]
    let (a, w) ← readW w 0 ra
    let (b, w) ← readW w 1 rb
    let (c, w) ← readW w 2 rc
    let r := lanes3 f a b c
    writeW (w.flags r.2) rd r.1) s

/-- A comparison into a mask; `nanInv` says that any NaN sets INV (R117). -/
def wideCmp (rd : MOp) (ra rb : WOp) (pg : Pg) (nanInv : Bool) (f : Int → Int → Bool) (s : State) : Out :=
  governed pg 4 (fun s => Work.out do
    let w ← fields s [Cls.w.src ra, Cls.w.src rb, Cls.m.dst rd]
    let (a, w) ← readW w 0 ra
    let (b, w) ← readW w 1 rb
    let m := maskOf (fun l => !isNan a[l] && !isNan b[l] && f (orderKey a[l]) (orderKey b[l]))
    let all := a.toList ++ b.toList
    writeM (w.flags (flagIf (if nanInv then all.any isNan else all.any isSnan) fInv)) rd m) s

/-- An ordered reduction (R118). -/
def wideReduce (rd ra : WOp) (pg : Pg) (f : Word → Word → FR) (s : State) : Out :=
  governed pg 4 (fun s => Work.out do
    let w ← fields s [Cls.w.src ra, Cls.w.dst rd]
    let (a, w) ← readW w 0 ra
    let r := reduceWide f a
    writeW (w.flags r.2) rd r.1) s

/-- wadd (R114). -/
def execWadd (rd ra rb : WOp) (pg : Pg) (s : State) : Out := wide2 rd ra rb pg fadd s
/-- wsub (R114). -/
def execWsub (rd ra rb : WOp) (pg : Pg) (s : State) : Out := wide2 rd ra rb pg fsub s
/-- wmul (R114). -/
def execWmul (rd ra rb : WOp) (pg : Pg) (s : State) : Out := wide2 rd ra rb pg fmul s
/-- wmin (R114). -/
def execWmin (rd ra rb : WOp) (pg : Pg) (s : State) : Out := wide2 rd ra rb pg fmin s
/-- wmax (R114). -/
def execWmax (rd ra rb : WOp) (pg : Pg) (s : State) : Out := wide2 rd ra rb pg fmax s
/-- wabs (R115): a subnormal becomes zero; a NaN keeps its payload. -/
def execWabs (rd ra : WOp) (pg : Pg) (s : State) : Out := wide1 rd ra pg (fun a => (flush a &&& 0x7FFFFFFF, 0)) s
/-- wneg (R115). -/
def execWneg (rd ra : WOp) (pg : Pg) (s : State) : Out := wide1 rd ra pg (fun a => (negW (flush a), 0)) s
/-- wrcp (R25, R116). -/
def execWrcp (rd ra : WOp) (pg : Pg) (s : State) : Out := wide1 rd ra pg frcp s
/-- wrsq (R25, R116). -/
def execWrsq (rd ra : WOp) (pg : Pg) (s : State) : Out := wide1 rd ra pg frsq s
/-- wsqrt (R25, R116). -/
def execWsqrt (rd ra : WOp) (pg : Pg) (s : State) : Out := wide1 rd ra pg fsqrt s
/-- wexp2 (R25, R116). -/
def execWexp2 (rd ra : WOp) (pg : Pg) (s : State) : Out := wide1 rd ra pg fexp2 s
/-- wlog2 (R25, R116). -/
def execWlog2 (rd ra : WOp) (pg : Pg) (s : State) : Out := wide1 rd ra pg flog2 s
/-- wcmpeq (R117). -/
def execWcmpeq (rd : MOp) (ra rb : WOp) (pg : Pg) (s : State) : Out :=
  wideCmp rd ra rb pg false (fun a b => decide (a = b)) s
/-- wcmplt (R117). -/
def execWcmplt (rd : MOp) (ra rb : WOp) (pg : Pg) (s : State) : Out :=
  wideCmp rd ra rb pg true (fun a b => decide (a < b)) s
/-- wcmple (R117). -/
def execWcmple (rd : MOp) (ra rb : WOp) (pg : Pg) (s : State) : Out :=
  wideCmp rd ra rb pg true (fun a b => decide (a ≤ b)) s
/-- wredsum (R27, R118). -/
def execWredsum (rd ra : WOp) (pg : Pg) (s : State) : Out := wideReduce rd ra pg fadd s
/-- wredmax (R27, R118). -/
def execWredmax (rd ra : WOp) (pg : Pg) (s : State) : Out := wideReduce rd ra pg fmax s
/-- wredmin (R27, R118). -/
def execWredmin (rd ra : WOp) (pg : Pg) (s : State) : Out := wideReduce rd ra pg fmin s
/-- wbcst (R119). -/
def execWbcst (rd : WOp) (ra : XOp) (pg : Pg) (s : State) : Out :=
  governed pg 4 (fun s => Work.out do
    let w ← fields s [Cls.x.src ra, Cls.w.dst rd]
    let (a, w) ← readX w 0 ra
    writeW w rd (Vector.replicate 24 (BitVec.ofNat 32 a.toNat))) s

/-- wins (R119): wd is read before it is written. -/
def execWins (rd : WOp) (ra rb : XOp) (pg : Pg) (s : State) : Out :=
  governed pg 4 (fun s => Work.out do
    let w ← fields s [Cls.x.src ra, Cls.x.src rb, Cls.w.src rd, Cls.w.dst rd]
    let (a, w) ← readX w 0 ra
    let (n, w) ← readX w 1 rb
    let (o, w) ← readW w 2 rd
    if h : n.toNat < 24 then writeW w rd (o.set n.toNat (BitVec.ofNat 32 a.toNat) h)
    else throw (.trap (trapOf .bounds n 24))) s

/-- wext (R119). -/
def execWext (rd : XOp) (ra : WOp) (rb : XOp) (pg : Pg) (s : State) : Out :=
  governed pg 4 (fun s => Work.out do
    let w ← fields s [Cls.w.src ra, Cls.x.src rb, Cls.x.dst rd]
    let (a, w) ← readW w 0 ra
    let (n, w) ← readX w 1 rb
    if h : n.toNat < 24 then writeX w rd (dwn a[n.toNat].toNat) else throw (.trap (trapOf .bounds n 24))) s

/-- wshuf (R119): every lane from the value wa had before. -/
def execWshuf (rd ra rb : WOp) (pg : Pg) (s : State) : Out :=
  governed pg 4 (fun s => Work.out do
    let w ← fields s [Cls.w.src ra, Cls.w.src rb, Cls.w.dst rd]
    let (a, w) ← readW w 0 ra
    let (b, w) ← readW w 1 rb
    writeW w rd (Vector.ofFn (fun l => if h : b[l].toNat < 24 then a[b[l].toNat] else 0))) s

/-- wmov (R119). -/
def execWmov (rd ra : WOp) (pg : Pg) (s : State) : Out := wide1 rd ra pg (fun a => (a, 0)) s
/-- wcvtfi (R121). -/
def execWcvtfi (rd ra : WOp) (pg : Pg) (s : State) : Out := wide1 rd ra pg fToInt s
/-- wcvtif (R121). -/
def execWcvtif (rd ra : WOp) (pg : Pg) (s : State) : Out := wide1 rd ra pg fOfInt s
/-- wcvtbf (R121). -/
def execWcvtbf (rd ra : WOp) (pg : Pg) (s : State) : Out :=
  wide1 rd ra pg (fun a => (bfWiden (a.toNat % 2 ^ 16), 0)) s
/-- wcvtfb (R121). -/
def execWcvtfb (rd ra : WOp) (pg : Pg) (s : State) : Out :=
  wide1 rd ra pg (fun a => let n := bfNarrow a; (BitVec.ofNat 32 n.1, n.2)) s
/-- wfma (R122). -/
def execWfma (rd ra rb rc : WOp) (pg : Pg) (s : State) : Out := wide3 rd ra rb rc pg (ffma false false) s
/-- wfms (R122). -/
def execWfms (rd ra rb rc : WOp) (pg : Pg) (s : State) : Out := wide3 rd ra rb rc pg (ffma false true) s
/-- wfnma (R122). -/
def execWfnma (rd ra rb rc : WOp) (pg : Pg) (s : State) : Out := wide3 rd ra rb rc pg (ffma true false) s

/-- wsel (R123). -/
def execWsel (rd ra rb : WOp) (rc : MOp) (pg : Pg) (s : State) : Out :=
  governed pg 4 (fun s => Work.out do
    let w ← fields s [Cls.w.src ra, Cls.w.src rb, Cls.m.src rc, Cls.w.dst rd]
    let (a, w) ← readW w 0 ra
    let (b, w) ← readW w 1 rb
    let (m, w) ← readM w 2 rc
    writeW w rd (Vector.ofFn (fun l => if m.getLsbD l.val then a[l] else b[l]))) s

end Sys2Proof.Machine
end

