-- ==== Sys2Proof/Machine/Repeat.lean ====
section
/-! DEFINITION. Repeats of a unit, and the return from a trap with the replay of its frame (R48, R91 to R93, R96,
R272). -/
namespace Sys2Proof.Machine

/-- The meaning of an instruction that a unit may repeat, that may finish after its issue, or that a frame may hold: all but
rett, rep and cwait, which have no effect there (log entry 14). -/
def runInner (i : Instr) (s : State) : Out :=
  match i with
  | .add rd ra rb pg => execAdd rd ra rb pg s
  | .sub rd ra rb pg => execSub rd ra rb pg s
  | .and rd ra rb pg => execAnd rd ra rb pg s
  | .or rd ra rb pg => execOr rd ra rb pg s
  | .xor rd ra rb pg => execXor rd ra rb pg s
  | .andn rd ra rb pg => execAndn rd ra rb pg s
  | .shl rd ra rb pg => execShl rd ra rb pg s
  | .shr rd ra rb pg => execShr rd ra rb pg s
  | .sra rd ra rb pg => execSra rd ra rb pg s
  | .rot rd ra rb pg => execRot rd ra rb pg s
  | .addw rd ra rb pg => execAddw rd ra rb pg s
  | .subw rd ra rb pg => execSubw rd ra rb pg s
  | .shlw rd ra rb pg => execShlw rd ra rb pg s
  | .shrw rd ra rb pg => execShrw rd ra rb pg s
  | .sraw rd ra rb pg => execSraw rd ra rb pg s
  | .mul rd ra rb pg => execMul rd ra rb pg s
  | .mulh rd ra rb pg => execMulh rd ra rb pg s
  | .mulhu rd ra rb pg => execMulhu rd ra rb pg s
  | .mulw rd ra rb pg => execMulw rd ra rb pg s
  | .div rd ra rb pg => execDiv rd ra rb pg s
  | .divu rd ra rb pg => execDivu rd ra rb pg s
  | .rem rd ra rb pg => execRem rd ra rb pg s
  | .remu rd ra rb pg => execRemu rd ra rb pg s
  | .min rd ra rb pg => execMin rd ra rb pg s
  | .max rd ra rb pg => execMax rd ra rb pg s
  | .minu rd ra rb pg => execMinu rd ra rb pg s
  | .maxu rd ra rb pg => execMaxu rd ra rb pg s
  | .slt rd ra rb pg => execSlt rd ra rb pg s
  | .sltu rd ra rb pg => execSltu rd ra rb pg s
  | .seq rd ra rb pg => execSeq rd ra rb pg s
  | .clz rd ra pg => execClz rd ra pg s
  | .popc rd ra pg => execPopc rd ra pg s
  | .brev rd ra pg => execBrev rd ra pg s
  | .addi rd ra imm pg => execAddi rd ra imm pg s
  | .andi rd ra imm pg => execAndi rd ra imm pg s
  | .ori rd ra imm pg => execOri rd ra imm pg s
  | .xori rd ra imm pg => execXori rd ra imm pg s
  | .shli rd ra sh pg => execShli rd ra sh pg s
  | .shri rd ra sh pg => execShri rd ra sh pg s
  | .srai rd ra sh pg => execSrai rd ra sh pg s
  | .slti rd ra imm pg => execSlti rd ra imm pg s
  | .sltiu rd ra imm pg => execSltiu rd ra imm pg s
  | .lui rd imm => execLui rd imm s
  | .lih rd imm => execLih rd imm s
  | .auipc rd imm => execAuipc rd imm s
  | .peq rd ra rb pg => execPeq rd ra rb pg s
  | .pne rd ra rb pg => execPne rd ra rb pg s
  | .plt rd ra rb pg => execPlt rd ra rb pg s
  | .pge rd ra rb pg => execPge rd ra rb pg s
  | .pltu rd ra rb pg => execPltu rd ra rb pg s
  | .pgeu rd ra rb pg => execPgeu rd ra rb pg s
  | .pand rd ra rb pg => execPand rd ra rb pg s
  | .por rd ra rb pg => execPor rd ra rb pg s
  | .pxor rd ra rb pg => execPxor rd ra rb pg s
  | .pnot rd ra pg => execPnot rd ra pg s
  | .pmany rd ra pg => execPmany rd ra pg s
  | .mset rd ra pg => execMset rd ra pg s
  | .mget rd ra pg => execMget rd ra pg s
  | .mnot rd ra pg => execMnot rd ra pg s
  | .ldB rd ra off pg => execLdB rd ra off pg s
  | .ldBu rd ra off pg => execLdBu rd ra off pg s
  | .ldH rd ra off pg => execLdH rd ra off pg s
  | .ldHu rd ra off pg => execLdHu rd ra off pg s
  | .ldW rd ra off pg => execLdW rd ra off pg s
  | .ldWu rd ra off pg => execLdWu rd ra off pg s
  | .ldD rd ra off pg => execLdD rd ra off pg s
  | .stB rd ra off pg => execStB rd ra off pg s
  | .stH rd ra off pg => execStH rd ra off pg s
  | .stW rd ra off pg => execStW rd ra off pg s
  | .stD rd ra off pg => execStD rd ra off pg s
  | .ldaA4 rd ra off pg => execLdaA4 rd ra off pg s
  | .ldaA32 rd ra off pg => execLdaA32 rd ra off pg s
  | .staA4 rd ra off pg => execStaA4 rd ra off pg s
  | .staA32 rd ra off pg => execStaA32 rd ra off pg s
  | .ldwFp32 rd ra off pg => execLdwFp32 rd ra off pg s
  | .ldwBf16 rd ra off pg => execLdwBf16 rd ra off pg s
  | .stwFp32 rd ra off pg => execStwFp32 rd ra off pg s
  | .stwBf16 rd ra off pg => execStwBf16 rd ra off pg s
  | .ldfW rd ra off pg => execLdfW rd ra off pg s
  | .ldfD rd ra off pg => execLdfD rd ra off pg s
  | .ldfDc rd ra off pg => execLdfDc rd ra off pg s
  | .stfW rd ra off pg => execStfW rd ra off pg s
  | .stfD rd ra off pg => execStfD rd ra off pg s
  | .amoAdd rd ra rb pg => execAmoAdd rd ra rb pg s
  | .amoMin rd ra rb pg => execAmoMin rd ra rb pg s
  | .amoMax rd ra rb pg => execAmoMax rd ra rb pg s
  | .amoMinu rd ra rb pg => execAmoMinu rd ra rb pg s
  | .amoMaxu rd ra rb pg => execAmoMaxu rd ra rb pg s
  | .amoAnd rd ra rb pg => execAmoAnd rd ra rb pg s
  | .amoOr rd ra rb pg => execAmoOr rd ra rb pg s
  | .amoXor rd ra rb pg => execAmoXor rd ra rb pg s
  | .amoSwap rd ra rb pg => execAmoSwap rd ra rb pg s
  | .amonAdd ra rb pg => execAmonAdd ra rb pg s
  | .amonMin ra rb pg => execAmonMin ra rb pg s
  | .amonMax ra rb pg => execAmonMax ra rb pg s
  | .amonMinu ra rb pg => execAmonMinu ra rb pg s
  | .amonMaxu ra rb pg => execAmonMaxu ra rb pg s
  | .amonAnd ra rb pg => execAmonAnd ra rb pg s
  | .amonOr ra rb pg => execAmonOr ra rb pg s
  | .amonXor ra rb pg => execAmonXor ra rb pg s
  | .cas rd ra rb rc pg => execCas rd ra rb rc pg s
  | .fset ra off pg => execFset ra off pg s
  | .fclr ra off pg => execFclr ra off pg s
  | .ftst rd ra off pg => execFtst rd ra off pg s
  | .dec rd ra pg => execDec rd ra pg s
  | .encA4 rd ra pg => execEncA4 rd ra pg s
  | .encA32 rd ra pg => execEncA32 rd ra pg s
  | .enctA4 rd ra rb pg => execEnctA4 rd ra rb pg s
  | .enctA32 rd ra rb pg => execEnctA32 rd ra rb pg s
  | .aaddA4 rd ra rb pg => execAaddA4 rd ra rb pg s
  | .aaddA32 rd ra rb pg => execAaddA32 rd ra rb pg s
  | .asubA4 rd ra rb pg => execAsubA4 rd ra rb pg s
  | .asubA32 rd ra rb pg => execAsubA32 rd ra rb pg s
  | .arelu rd ra pg => execArelu rd ra pg s
  | .amsk rd ra rb pg => execAmsk rd ra rb pg s
  | .aneg rd ra pg => execAneg rd ra pg s
  | .ascl rd ra rb pg => execAscl rd ra rb pg s
  | .adot rd ra rb pg => execAdot rd ra rb pg s
  | .amov rd ra pg => execAmov rd ra pg s
  | .aget rd ra rb pg => execAget rd ra rb pg s
  | .aset rd ra rb pg => execAset rd ra rb pg s
  | .acvtA4 rd ra pg => execAcvtA4 rd ra pg s
  | .acvtA32 rd ra pg => execAcvtA32 rd ra pg s
  | .wadd rd ra rb pg => execWadd rd ra rb pg s
  | .wsub rd ra rb pg => execWsub rd ra rb pg s
  | .wmul rd ra rb pg => execWmul rd ra rb pg s
  | .wmin rd ra rb pg => execWmin rd ra rb pg s
  | .wmax rd ra rb pg => execWmax rd ra rb pg s
  | .wabs rd ra pg => execWabs rd ra pg s
  | .wneg rd ra pg => execWneg rd ra pg s
  | .wrcp rd ra pg => execWrcp rd ra pg s
  | .wrsq rd ra pg => execWrsq rd ra pg s
  | .wsqrt rd ra pg => execWsqrt rd ra pg s
  | .wexp2 rd ra pg => execWexp2 rd ra pg s
  | .wlog2 rd ra pg => execWlog2 rd ra pg s
  | .wcmpeq rd ra rb pg => execWcmpeq rd ra rb pg s
  | .wcmplt rd ra rb pg => execWcmplt rd ra rb pg s
  | .wcmple rd ra rb pg => execWcmple rd ra rb pg s
  | .wredsum rd ra pg => execWredsum rd ra pg s
  | .wredmax rd ra pg => execWredmax rd ra pg s
  | .wredmin rd ra pg => execWredmin rd ra pg s
  | .wbcst rd ra pg => execWbcst rd ra pg s
  | .wins rd ra rb pg => execWins rd ra rb pg s
  | .wext rd ra rb pg => execWext rd ra rb pg s
  | .wshuf rd ra rb pg => execWshuf rd ra rb pg s
  | .wcvtfi rd ra pg => execWcvtfi rd ra pg s
  | .wcvtif rd ra pg => execWcvtif rd ra pg s
  | .wcvtbf rd ra pg => execWcvtbf rd ra pg s
  | .wcvtfb rd ra pg => execWcvtfb rd ra pg s
  | .wmov rd ra pg => execWmov rd ra pg s
  | .wfma rd ra rb rc pg => execWfma rd ra rb rc pg s
  | .wfms rd ra rb rc pg => execWfms rd ra rb rc pg s
  | .wfnma rd ra rb rc pg => execWfnma rd ra rb rc pg s
  | .wsel rd ra rb rc pg => execWsel rd ra rb rc pg s
  | .nop pg => execNop pg s
  | .csrrw rd ra csr pg => execCsrrw rd ra csr pg s
  | .csrrs rd ra csr pg => execCsrrs rd ra csr pg s
  | .csrrc rd ra csr pg => execCsrrc rd ra csr pg s
  | .fence scope pg => execFence scope pg s
  | .sems sem ra pg => execSems sem ra pg s
  | .semr rd sem pg => execSemr rd sem pg s
  | .bmk qa kind off => execBmk qa kind off s
  | .mkpop rd qa pg => execMkpop rd qa pg s
  | .spos rd qa pg => execSpos rd qa pg s
  | .sskip qa rb pg => execSskip qa rb pg s
  | .srst qa pg => execSrst qa pg s
  | .socc rd qa pg => execSocc rd qa pg s
  | .sisect rd qa qb pg => execSisect rd qa qb pg s
  | .sacc rd qa pg => execSacc rd qa pg s
  | .saccx rd qa pg => execSaccx rd qa pg s
  | .mmaA4a4 tile cls ra rb rc pg => execMmaA4a4 tile cls ra rb rc pg s
  | .mmaA4a32 tile cls ra rb rc pg => execMmaA4a32 tile cls ra rb rc pg s
  | .mmaA32a32 tile cls ra rb rc pg => execMmaA32a32 tile cls ra rb rc pg s
  | .mmacsrA4 tile cls ra rb rc pg => execMmacsrA4 tile cls ra rb rc pg s
  | .mmacsrA32 tile cls ra rb rc pg => execMmacsrA32 tile cls ra rb rc pg s
  | .mmagA4 tile cls ra rb rc pg => execMmagA4 tile cls ra rb rc pg s
  | .mmagA32 tile cls ra rb rc pg => execMmagA32 tile cls ra rb rc pg s
  | .mzero tile cls pg => execMzero tile cls pg s
  | .mrd rd tile cls rb pg => execMrd rd tile cls rb pg s
  | .mwr tile cls ra rb pg => execMwr tile cls ra rb pg s
  | .mstF32 tile cls ra rb pg => execMstF32 tile cls ra rb pg s
  | .mstA4 tile cls ra rb pg => execMstA4 tile cls ra rb pg s
  | .mstA32 tile cls ra rb pg => execMstA32 tile cls ra rb pg s
  | .mwait cls pg => execMwait cls pg s
  | .mbudget ra pg => execMbudget ra pg s
  | .mstat rd pg => execMstat rd pg s
  | .semw sem ra pg => execSemw sem ra pg s
  | .spat ra rb rc immA immB ws pg => execSpat ra rb rc immA immB ws pg s
  | .spatr ra rb ws pg => execSpatr ra rb ws pg s
  | .beq ra rb off => execBeq ra rb off s
  | .bne ra rb off => execBne ra rb off s
  | .blt ra rb off => execBlt ra rb off s
  | .bge ra rb off => execBge ra rb off s
  | .bltu ra rb off => execBltu ra rb off s
  | .bgeu ra rb off => execBgeu ra rb off s
  | .jal off => execJal off s
  | .jalr rd ra imm pg => execJalr rd ra imm pg s
  | .trap ra pg => execTrap ra pg s
  | .ends pg => execEnds pg s
  | .bar pg => execBar pg s
  | .wfa pg => execWfa pg s
  | .yield pg => execYield pg s
  | .halt pg => execHalt pg s
  | .nopl ws pg => execNopl ws pg s
  | .copy ra rb rc opts ws pg => execCopy ra rb rc opts ws pg s
  | .fill ra rb rc opts ws pg => execFill ra rb rc opts ws pg s
  | .fprint ra rb rc fe ws pg => execFprint ra rb rc fe ws pg s
  | .cmpr ra rb rc fe immB ws pg => execCmpr ra rb rc fe immB ws pg s
  | .gather ra rb rc opts esz immB ws pg => execGather ra rb rc opts esz immB ws pg s
  | .scatter ra rb rc fe esz immB ws pg => execScatter ra rb rc fe esz immB ws pg s
  | .rcopy ra rb rc port pull key ws pg => execRcopy ra rb rc port pull key ws pg s
  | .reduce ra rb rc opts op ws pg => execReduce ra rb rc opts op ws pg s
  | .seamw ra rb rc ws pg => execSeamw ra rb rc ws pg s
  | .xmap ra zero ws pg => execXmap ra zero ws pg s
  | .clause ra rb ws pg => execClause ra rb ws pg s
  | .rolemap ra ws pg => execRolemap ra ws pg s
  | .attn ra ws pg => execAttn ra ws pg s
  | .lfork ra ws pg => execLfork ra ws pg s
  | .lapp ra rb rc ws pg => execLapp ra rb rc ws pg s
  | .lput ra rb rc ws pg => execLput ra rb rc ws pg s
  | .lget ra rb rc opts ws pg => execLget ra rb rc opts ws pg s
  | .lshare ra rb rc ext ws pg => execLshare ra rb rc ext ws pg s
  | .lrel ra ws pg => execLrel ra ws pg s
  | .linv ra all ws pg => execLinv ra all ws pg s
  | _ => .next s

/-- One repeat of the unit whose rep word stands at the pc (R91): the stepped word executes as one instruction. -/
def execRept (s : State) : Out :=
  let a := s.cur
  let h := s.hart a
  let r : Res (State × Nat × Nat) := do
    let (s1, w0) ← s.fetchWord a h.pc
    let (s2, w1) ← s1.fetchWord a (h.pc + 4)
    if repLegal (kindOf a) w0 w1 then pure (s2, w0, w1) else throw (.trap (repTrap w0 w1))
  match r with
  | .error e => .next (s.stopBy a e)
  | .ok (s2, w0, w1) =>
    match decode (kindOf a) true (repWord w0 w1 (repCount w0 - h.repc.toNat)) 0 0 0 with
    | .ok i => runInner i s2
    | .error _ => .next (s.stopBy a (.trap (repTrap w0 w1)))

/-- The part of a byte string at an offset. -/
def piece (bs : List Byte) (off n : Nat) : List Byte := (bs.drop off).take n

/-- The instruction and the slots of a frame entry (R47). -/
def replayEntry (k : Kind) (bs : List Byte) : Option (Instr × List Slot) :=
  match decode k true (leNat (piece bs 8 4)) (leNat (piece bs 12 4)) (leNat (piece bs 16 4)) (leNat (piece bs 20 4)) with
  | .ok i => some (i, [piece bs 0x20 96, piece bs 0x80 96, piece bs 0xE0 96])
  | .error _ => none

/-- Frame entries executed in order with their captured operands, each at its own address (R48, R272). An entry that is
held holds the rett, which goes on from that entry; one that takes a trap stops the agent (R46). Words that do not decode
have no effect, an entry that is a wfa waits and takes its arrival as the instruction does, and where an entry places the
pc the rett resumes at TPC all the same (log entry 14). -/
def replay (a : AgentId) (bs : List Byte) : Nat → Nat → State → State
  | 0, _, s => s
  | n + 1, j, s =>
    let e := piece bs (0x40 + 320 * j) 320
    match replayEntry (kindOf a) e with
    | none => replay a bs n (j + 1) s
    | some (i, slots) =>
      let h := s.hart a
      match runInner i (s.modHart a (fun h => { h with capt := some ⟨slots, [], true⟩, pc := dwn (leNat (piece e 0 8)) })) with
      | .next s' =>
        let h' := s'.hart a
        if h'.run ≠ .running then s'
        else
          let s1 := s'.modHart a (fun x => { x with capt := none, pc := h.pc, pass := h.pass, rep := h.rep, repc := h.repc })
          if h'.hold = none then replay a bs n (j + 1) s1 else s1.modHart a (fun x => { x with replayed := j + 1 })
      | _ => s

/-- The record a conductor handles is done with; the cell of a NESTED stage may be released (R269, R274). -/
def State.doneWith (s : State) (a : AgentId) : State :=
  match a with
  | .ctx _ _ => s
  | .cond k =>
    match (s.cond k).serving with
    | none => s
    | some p => (s.modCell p (fun c => { c with nestHold := c.nestHold - 1 })).modCond k (fun c => { c with serving := none })

/-- rett (R48, R96). -/
def execRett (pg : Pg) (s : State) : Out :=
  governedJump pg 4 (fun s =>
    let a := s.cur
    let h := s.hart a
    let bad : Stop := .trap (trapOf .badrett (w0Of (.rett pg)) 0)
    let hdr := s.frameBytes a 64
    if h.level = false ∨ frameLegal s a hdr = false then .error bad
    else
      let nent := (hdr.getD 0 0).toNat
      let bs := if nent = 0 then [] else s.frameBytes a 2048
      let j := h.replayed - 1
      let s1 := replay a bs (nent - j) j (s.modHart a (fun h => { h with hold := none }))
      let h1 := s1.hart a
      if h1.run ≠ .running ∨ h1.hold ≠ none then .ok s1
      else
        .ok ((s1.modHart a (fun h =>
          { h.retired a 4 with
            level := false, rep := bitOf h.tstat.toNat 1, rdh := bitOf h.tstat.toNat 2, replayed := 0
            repc := BitVec.ofNat 7 (hdr.getD 1 0).toNat, pc := h.tpc })).doneWith a)) s

end Sys2Proof.Machine
end

