-- ==== Sys2Proof/Machine/Flight.lean ====
section
/-! DEFINITION. Instructions that have issued and are not finished: which may stay so, what may not overtake them, and how
they finish (spec/02 R46 to R49, spec/04 R92, spec/12 R246, R247). -/
namespace Sys2Proof.Machine

/-! ### What an instruction reads and writes -/

/-- A register field by its class, its number and whether it is a port (R33, R35). -/
structure Named where
  cls : Cls
  field : Nat
  port : Bool
deriving DecidableEq, Repr

def Cls.at {n : Nat} (c : Cls) (f : Opnd n) : Named :=
  match f with
  | .reg r => ⟨c, r.val, false⟩
  | .port q => ⟨c, q.val, true⟩

/-- Whether two names name one register or one port; x0 and p0 hold nothing. -/
def Named.meets (x y : Named) : Bool :=
  x.port == y.port && x.field == y.field &&
    (x.port || (x.cls == y.cls && !(x.field == 0 && (x.cls == .x || x.cls == .p))))

/-- What an instruction reads, slot by slot (R47), and writes; whether it may stay unfinished; and for a load the offset,
its scale and the size. -/
structure Uses where
  src : List Named
  dst : List Named
  pg : Pg
  flies : Bool
  load : Option (BitVec 10 × Nat × Nat)
deriving DecidableEq, Repr

def Uses.of (src dst : List Named) (pg : Pg) : Uses := ⟨src, dst, pg, true, none⟩
def Uses.loads (d : Named) (ra : XOp) (off : BitVec 10) (pg : Pg) (scale size : Nat) : Uses :=
  ⟨[Cls.x.at ra], [d], pg, true, some (off, scale, size)⟩
def Uses.stores (d : Named) (ra : XOp) (pg : Pg) : Uses := ⟨[Cls.x.at ra, d], [], pg, false, none⟩

/-- Scalar and predicate instructions (R82 to R85). -/
def scalarUses (i : Instr) : Option Uses :=
  match i with
  | .add d a b g | .sub d a b g | .and d a b g | .or d a b g | .xor d a b g | .andn d a b g | .shl d a b g
  | .shr d a b g | .sra d a b g | .rot d a b g | .addw d a b g | .subw d a b g | .shlw d a b g | .shrw d a b g
  | .sraw d a b g | .mul d a b g | .mulh d a b g | .mulhu d a b g | .mulw d a b g | .div d a b g | .divu d a b g
  | .rem d a b g | .remu d a b g | .min d a b g | .max d a b g | .minu d a b g | .maxu d a b g | .slt d a b g
  | .sltu d a b g | .seq d a b g => some (.of [Cls.x.at a, Cls.x.at b] [Cls.x.at d] g)
  | .clz d a g | .popc d a g | .brev d a g | .addi d a _ g | .andi d a _ g | .ori d a _ g | .xori d a _ g
  | .shli d a _ g | .shri d a _ g | .srai d a _ g | .slti d a _ g | .sltiu d a _ g =>
    some (.of [Cls.x.at a] [Cls.x.at d] g)
  | .lui d _ | .auipc d _ => some (.of [] [Cls.x.at d] 0)
  | .lih d _ => some (.of [Cls.x.at d] [Cls.x.at d] 0)
  | .peq d a b g | .pne d a b g | .plt d a b g | .pge d a b g | .pltu d a b g | .pgeu d a b g =>
    some (.of [Cls.x.at a, Cls.x.at b] [Cls.p.at d] g)
  | .pand d a b g | .por d a b g | .pxor d a b g => some (.of [Cls.p.at a, Cls.p.at b] [Cls.p.at d] g)
  | .pnot d a g => some (.of [Cls.p.at a] [Cls.p.at d] g)
  | .pmany d a g => some (.of [Cls.m.at a] [Cls.p.at d] g)
  | .mset d a g => some (.of [Cls.x.at a] [Cls.m.at d] g)
  | .mget d a g => some (.of [Cls.m.at a] [Cls.x.at d] g)
  | .mnot d a g => some (.of [Cls.m.at a] [Cls.m.at d] g)
  | _ => none

/-- Loads and plain stores (R160), and trap. -/
def memUses (i : Instr) : Option Uses :=
  match i with
  | .ldB d a o g | .ldBu d a o g => some (.loads (Cls.x.at d) a o g 1 1)
  | .ldH d a o g | .ldHu d a o g => some (.loads (Cls.x.at d) a o g 2 2)
  | .ldW d a o g | .ldWu d a o g => some (.loads (Cls.x.at d) a o g 4 4)
  | .ldD d a o g => some (.loads (Cls.x.at d) a o g 8 8)
  | .ldaA4 d a o g => some (.loads (Cls.a.at d) a o g 2 10)
  | .ldaA32 d a o g => some (.loads (Cls.a.at d) a o g 2 20)
  | .ldwFp32 d a o g => some (.loads (Cls.w.at d) a o g 4 96)
  | .ldwBf16 d a o g => some (.loads (Cls.w.at d) a o g 4 48)
  | .stB d a _ g | .stH d a _ g | .stW d a _ g | .stD d a _ g => some (.stores (Cls.x.at d) a g)
  | .staA4 d a _ g | .staA32 d a _ g => some (.stores (Cls.a.at d) a g)
  | .stwFp32 d a _ g => some (.stores (Cls.w.at d) a g)
  | .trap a g => some ⟨[Cls.x.at a], [], g, false, none⟩
  | _ => none

/-- Atom instructions (R106 to R112). -/
def atomUses (i : Instr) : Option Uses :=
  match i with
  | .dec d a g => some (.of [Cls.a.at a] [Cls.w.at d] g)
  | .encA4 d a g | .encA32 d a g => some (.of [Cls.w.at a] [Cls.a.at d] g)
  | .enctA4 d a b g | .enctA32 d a b g => some (.of [Cls.w.at a, Cls.tl.at b] [Cls.a.at d, Cls.tl.at b] g)
  | .aaddA4 d a b g | .aaddA32 d a b g | .asubA4 d a b g | .asubA32 d a b g =>
    some (.of [Cls.a.at a, Cls.a.at b] [Cls.a.at d] g)
  | .arelu d a g | .aneg d a g | .amov d a g | .acvtA4 d a g | .acvtA32 d a g => some (.of [Cls.a.at a] [Cls.a.at d] g)
  | .amsk d a b g => some (.of [Cls.a.at a, Cls.m.at b] [Cls.a.at d] g)
  | .ascl d a b g => some (.of [Cls.a.at a, Cls.x.at b] [Cls.a.at d] g)
  | .adot d a b g => some (.of [Cls.a.at a, Cls.a.at b] [Cls.x.at d] g)
  | .aget d a b g => some (.of [Cls.a.at a, Cls.x.at b] [Cls.x.at d] g)
  | .aset d a b g => some (.of [Cls.x.at a, Cls.x.at b, Cls.a.at d] [Cls.a.at d] g)
  | _ => none

/-- Wide instructions (R113 to R124). -/
def wideUses (i : Instr) : Option Uses :=
  match i with
  | .wadd d a b g | .wsub d a b g | .wmul d a b g | .wmin d a b g | .wmax d a b g | .wshuf d a b g =>
    some (.of [Cls.w.at a, Cls.w.at b] [Cls.w.at d] g)
  | .wabs d a g | .wneg d a g | .wrcp d a g | .wrsq d a g | .wsqrt d a g | .wexp2 d a g | .wlog2 d a g
  | .wredsum d a g | .wredmax d a g | .wredmin d a g | .wcvtfi d a g | .wcvtif d a g | .wcvtbf d a g | .wcvtfb d a g
  | .wmov d a g => some (.of [Cls.w.at a] [Cls.w.at d] g)
  | .wcmpeq d a b g | .wcmplt d a b g | .wcmple d a b g => some (.of [Cls.w.at a, Cls.w.at b] [Cls.m.at d] g)
  | .wbcst d a g => some (.of [Cls.x.at a] [Cls.w.at d] g)
  | .wins d a b g => some (.of [Cls.x.at a, Cls.x.at b, Cls.w.at d] [Cls.w.at d] g)
  | .wext d a b g => some (.of [Cls.w.at a, Cls.x.at b] [Cls.x.at d] g)
  | .wfma d a b e g | .wfms d a b e g | .wfnma d a b e g => some (.of [Cls.w.at a, Cls.w.at b, Cls.w.at e] [Cls.w.at d] g)
  | .wsel d a b e g => some (.of [Cls.w.at a, Cls.w.at b, Cls.m.at e] [Cls.w.at d] g)
  | _ => none

/-- The uses of an instruction that may issue while older ones are unfinished; every other one waits for them (log entry
7). -/
def usesOf (i : Instr) : Option Uses :=
  (scalarUses i).orElse (fun _ => (memUses i).orElse (fun _ => (atomUses i).orElse (fun _ => wideUses i)))

/-- Whether a port is both popped and pushed (R34 rule 3); then the instruction is finished at its issue. -/
def Uses.turnsPort (u : Uses) : Bool := u.src.any (fun x => x.port && u.dst.any x.meets)

/-- Whether an instruction must not issue before an older one is finished: it reads or writes what that one writes. -/
def Uses.waitsFor (u f : Uses) : Bool :=
  (u.src ++ u.dst).any (fun x => f.dst.any x.meets) || f.dst.any (Cls.p.at (.reg u.pg)).meets

/-- The instruction of an entry. -/
def Flight.instr (k : Kind) (f : Flight) : Option Instr :=
  match decode k true (f.words.getD 0 0) (f.words.getD 1 0) (f.words.getD 2 0) (f.words.getD 3 0) with
  | .ok i => some i
  | .error _ => none

/-- The hazard of R49 and R245: an instruction that must not overtake one in flight. -/
def hazard (s : State) (a : AgentId) (i : Instr) : Bool :=
  (s.hart a).flight.any (fun f =>
    match usesOf i, (f.instr (kindOf a)).bind usesOf with
    | some u, some v => u.waitsFor v
    | _, _ => true)

/-! ### Finishing -/

/-- An unfinished instruction finishes with some bytes of its load read already: its effect as if it had completed in
place. None where it cannot now. -/
def landWith (a : AgentId) (f : Flight) (i : Instr) (seen : List (Nat × Byte)) (s : State) : Option State :=
  let h := s.hart a
  match runInner i (({ s with cur := a } : State).modHart a (fun h =>
      { h with capt := some ⟨f.slots, seen, false⟩, pc := f.pc, hold := none })) with
  | .next t =>
    let h1 := t.hart a
    if h1.hold = none ∧ h1.level = h.level ∧ h1.run = h.run then
      some (({ t with cur := s.cur } : State).modHart a (fun x =>
        { x with capt := h.capt, pc := h.pc, pass := h.pass, rep := h.rep, repc := h.repc, hold := h.hold }))
    else none
  | _ => none

/-- Unfinished instruction `i` of an agent finishes. A load that cannot be made any more has been performed at its issue
(log entry 7). -/
def land (a : AgentId) (i : Nat) (s : State) : State :=
  match (s.hart a).flight[i]? with
  | none => s
  | some f =>
    let s1 := s.modHart a (fun h => { h with flight := delAt h.flight i })
    match f.instr (kindOf a) with
    | none => s1
    | some ins =>
      match landWith a f ins f.seen s1 with
      | some t => t
      | none => (landWith a f ins (f.base.zipIdx.map (fun b => (b.2, seenOr f.seen b.2 b.1))) s1).getD s1

/-- All of an agent's unfinished instructions finish, oldest first. -/
def landAll (a : AgentId) : Nat → State → State
  | 0, s => s
  | n + 1, s => landAll a n (land a 0 s)

def State.landed (s : State) (a : AgentId) : State := landAll a (s.hart a).flight.length s

/-- The bytes of an unfinished load that lie in one 8-byte word are read before the others (R247). -/
def pieceLoad (a : AgentId) (i word : Nat) (s : State) : State :=
  match (s.hart a).flight[i]? with
  | none => s
  | some f =>
    match f.load with
    | none => s
    | some (v, size) =>
      let r : Res (List Byte × State) := do
        let site ← checkAddr s a v size 1 false false
        loadAt s a site v size f.seen id
      match r with
      | .error _ => s
      | .ok (bs, s1) =>
        let got := (bs.zipIdx.filter (fun b =>
          (v.toNat + b.2) / 8 - v.toNat / 8 == word && !f.seen.any (fun x => x.1 == b.2))).map (fun b => (b.2, b.1))
        s1.modHart a (fun h => { h with flight := modAt h.flight i (fun f => { f with seen := f.seen ++ got }) })

/-- A load that comes after a waiting ldf in program order begins before the ldf completes (R246, R254): bytes of an extent
are read now, for the load of them that follows. -/
def beginLoad (a : AgentId) (v : DWord) (size : Nat) (s : State) : State :=
  let h := s.hart a
  if h.hold ≠ some .ldf ∨ h.run ≠ .running ∨ waitHeld s a then s
  else
    match checkAddr s a v size 1 false false with
    | .ok (.ext e off) =>
      let (s1, ps) := s.translateN (s.holder a) e off false size
      let pl := placesOf ps
      if orderHeld s a (.ext e off) || ps.any (fun x => x.2 == none) || pl.any s1.refreshing || pl.any s1.isBad ||
          flightMeets s a (.ext e off) size || (List.finRange 8).any (fun q => outMeets s a q (.ext e off) size) then s
      else
        s1.modHart a (fun h => { h with early := h.early ++
          (pl.filter (fun p => !h.early.any (fun b => b.1 == p))).map (fun p => (p, s1.viewByte a p)) })
    | _ => s

/-- Whether what a load has read early stays of use past an instruction: past an ldf, and past loads, stores and
arithmetic that use no port. An access after a fence, a pop or an acquire begins after it (R98, R169, R228). -/
def keepsEarly (i : Instr) : Bool :=
  match i with
  | .ldfW _ _ _ _ | .ldfD _ _ _ _ | .ldfDc _ _ _ _ => true
  | _ => (usesOf i).any (fun u => (u.src ++ u.dst).all (fun x => !x.port))

/-! ### Issue without completion -/

/-- The instruction at an agent's pc, with its word and its address: the stepped word of a repeat (R91, R92). -/
def nextInstr (a : AgentId) (s : State) : Option (State × Instr × Nat × DWord) :=
  let h := s.hart a
  let k := kindOf a
  let dec (s : State) (w : Nat) (pc : DWord) : Option (State × Instr × Nat × DWord) :=
    match decode k true w 0 0 0 with
    | .ok i => some (s, i, w, pc)
    | .error _ => none
  match s.fetchWord a h.pc with
  | .error _ => none
  | .ok (s1, w0) =>
    if fld w0 31 26 = 0x1A ∧ h.rep then
      match s1.fetchWord a (h.pc + 4) with
      | .ok (s2, w1) =>
        if repLegal k w0 w1 then dec s2 (repWord w0 w1 (repCount w0 - h.repc.toNat)) (h.pc + 4) else none
      | .error _ => none
    else if h.rep then none
    else dec s1 w0 h.pc

/-- The value of one source as a slot of an entry (R47). R47 gives the form of x, block and wide slots only: a p source
stands as its bit in the first byte and an m source in the first 4 bytes, and a replay reads bit 0 and bits [23:0] (DESIGN
CHOICE, log entry 77). -/
def captureOne (w : Work) (i : Nat) (x : Named) : Res (Slot × Work) :=
  let f (n : Nat) [NeZero n] : Opnd n := if x.port then .port (Fin.ofNat 8 x.field) else .reg (Fin.ofNat n x.field)
  match x.cls with
  | .x => (readX w i (f 24)).map (fun r => (leBytes 8 r.1.toNat, r.2))
  | .a => (readA w i (f 24)).map (fun r => (padTo 95 (leBytes 20 r.1.bits.toNat) ++ [if r.1.a32 then 1 else 0], r.2))
  | .w => (readW w i (f 24)).map (fun r => ((r.1.toList.map (fun v => leBytes 4 v.toNat)).flatten, r.2))
  | .p => (readP w i (f 8)).map (fun r => (leBytes 1 (b2n r.1), r.2))
  | .m => (readM w i (f 8)).map (fun r => (leBytes 4 r.1.toNat, r.2))
  | .tl => (readTl w i (f 4)).map (fun r => ((r.1.toList.map (fun v => leBytes 4 v.toNat)).flatten, r.2))

def capture (w : Work) (i : Nat) : List Named → Res (List Slot × Work)
  | [] => .ok ([], w)
  | x :: r => do
    let (b, w) ← captureOne w i x
    let (bs, w) ← capture w (i + 1) r
    pure (b :: bs, w)

/-- Which slots came from ports (R47). -/
def poppedBits (src : List Named) : Nat := (src.zipIdx.map (fun x => if x.1.port then 2 ^ x.2 else 0)).foldl (· + ·) 0

/-- A load is issued: its bytes as they are, and those that are read with it. One of the cell store is performed in this
cycle, in the cell's issue order (R248); one of an extent binds it now (R251), and its bytes may be read later. -/
def loadStart (a : AgentId) (v : DWord) (size : Nat) (s : State) : Res (List Byte × List (Nat × Byte) × State) := do
  let site ← checkAddr s a v size 1 false false
  let early := earlySeen s a site size
  let (bs, s1) ← loadBytes s a v size 1
  pure (bs, (match site with | .store _ _ => bs.zipIdx.map (fun b => (b.2, b.1)) | .ext _ _ => early), s1)

/-- The instruction at the pc issues and stays unfinished: it has passed every check, its operands are captured and its
ports popped (R46, R47, R272). None where it may not: another kind of instruction, six unfinished ones, a hazard, a hold
or a trap. -/
def launched (a : AgentId) (s0 : State) : Option State :=
  let s := { s0 with cur := a }
  let h := s.hart a
  match nextInstr a s with
  | none => none
  | some (s1, i, word, pc) =>
    match usesOf i, runInner i s1 with
    | some u, .next t =>
      let h1 := t.hart a
      if u.flies && !u.turnsPort && decide (h.flight.length < 6) && !hazard s a i && h.pred u.pg && !h.badPred u.pg &&
          h1.hold == none && h1.level == h.level && h1.run == h.run && h1.pc == (h.retired a 4).pc then
        let r : Res State := do
          let (slots, w) ← capture (work s1) 0 u.src
          let at8 : Option (DWord × Nat) := u.load.map (fun l =>
            (effAddr (dwn (leNat (slots.headD []))) l.1 l.2.1, l.2.2))
          let (base, seen, s2) ← match at8 with
            | some (v, size) => loadStart a v size w.s
            | none => pure ([], [], w.s)
          pure (s2.modHart a (fun h =>
            { h.retired a 4 with
              early := if keepsEarly i then h.early else []
              flight := h.flight ++ [⟨pc, [word], u.src.length, poppedBits u.src, slots, at8, base, seen⟩] }))
        match r with
        | .ok s' => some s'
        | .error _ => none
      else none
    | _, _ => none

end Sys2Proof.Machine
end

