-- ==== Sys2Proof/Machine/Handlers.lean ====
section
/-! DEFINITION. The ports that an instruction's register fields name, as the translator of Plynrun images checks them
(spec/20 R369). -/
namespace Sys2Proof.Machine

/-- A port that a field names: whether as a destination, the field's class, the port. -/
structure PortUse where
  dst : Bool
  cls : Cls
  q : Fin 8
deriving DecidableEq, Repr

def takes {n : Nat} (c : Cls) : Opnd n → List PortUse
  | .reg _ => []
  | .port q => [⟨false, c, q⟩]

def gives {n : Nat} (c : Cls) : Opnd n → List PortUse
  | .reg _ => []
  | .port q => [⟨true, c, q⟩]

/-- The ports of an instruction's fields; empty for the majors that a handler may not hold, and for events. -/
def portUses : Instr → List PortUse
  | .add rd ra rb _ | .sub rd ra rb _ | .and rd ra rb _ | .or rd ra rb _ | .xor rd ra rb _ | .andn rd ra rb _
  | .shl rd ra rb _ | .shr rd ra rb _ | .sra rd ra rb _ | .rot rd ra rb _ | .addw rd ra rb _ | .subw rd ra rb _
  | .shlw rd ra rb _ | .shrw rd ra rb _ | .sraw rd ra rb _ | .mul rd ra rb _ | .mulh rd ra rb _ | .mulhu rd ra rb _
  | .mulw rd ra rb _ | .div rd ra rb _ | .divu rd ra rb _ | .rem rd ra rb _ | .remu rd ra rb _ | .min rd ra rb _
  | .max rd ra rb _ | .minu rd ra rb _ | .maxu rd ra rb _ | .slt rd ra rb _ | .sltu rd ra rb _ | .seq rd ra rb _
  | .amoAdd rd ra rb _ | .amoMin rd ra rb _ | .amoMax rd ra rb _ | .amoMinu rd ra rb _ | .amoMaxu rd ra rb _
  | .amoAnd rd ra rb _ | .amoOr rd ra rb _ | .amoXor rd ra rb _ | .amoSwap rd ra rb _ =>
    gives .x rd ++ takes .x ra ++ takes .x rb
  | .clz rd ra _ | .popc rd ra _ | .brev rd ra _ | .addi rd ra _ _ | .andi rd ra _ _ | .ori rd ra _ _
  | .xori rd ra _ _ | .shli rd ra _ _ | .shri rd ra _ _ | .srai rd ra _ _ | .slti rd ra _ _ | .sltiu rd ra _ _
  | .csrrw rd ra _ _ | .csrrs rd ra _ _ | .csrrc rd ra _ _ | .jalr rd ra _ _ | .ldB rd ra _ _ | .ldBu rd ra _ _
  | .ldH rd ra _ _ | .ldHu rd ra _ _ | .ldW rd ra _ _ | .ldWu rd ra _ _ | .ldD rd ra _ _ | .ldfW rd ra _ _
  | .ldfD rd ra _ _ | .ldfDc rd ra _ _ | .ftst rd ra _ _ => gives .x rd ++ takes .x ra
  | .lui rd _ | .auipc rd _ | .semr rd _ _ => gives .x rd
  | .lih rd _ => takes .x rd ++ gives .x rd
  | .peq rd ra rb _ | .pne rd ra rb _ | .plt rd ra rb _ | .pge rd ra rb _ | .pltu rd ra rb _ | .pgeu rd ra rb _ =>
    gives .p rd ++ takes .x ra ++ takes .x rb
  | .pand rd ra rb _ | .por rd ra rb _ | .pxor rd ra rb _ => gives .p rd ++ takes .p ra ++ takes .p rb
  | .pnot rd ra _ => gives .p rd ++ takes .p ra
  | .pmany rd ra _ => gives .p rd ++ takes .m ra
  | .mset rd ra _ => gives .m rd ++ takes .x ra
  | .mget rd ra _ => gives .x rd ++ takes .m ra
  | .mnot rd ra _ => gives .m rd ++ takes .m ra
  | .beq ra rb _ | .bne ra rb _ | .blt ra rb _ | .bge ra rb _ | .bltu ra rb _ | .bgeu ra rb _ | .amonAdd ra rb _
  | .amonMin ra rb _ | .amonMax ra rb _ | .amonMinu ra rb _ | .amonMaxu ra rb _ | .amonAnd ra rb _
  | .amonOr ra rb _ | .amonXor ra rb _ => takes .x ra ++ takes .x rb
  | .trap ra _ | .semw _ ra _ | .sems _ ra _ | .fset ra _ _ | .fclr ra _ _ => takes .x ra
  | .stB rd ra _ _ | .stH rd ra _ _ | .stW rd ra _ _ | .stD rd ra _ _ | .stfW rd ra _ _ | .stfD rd ra _ _ =>
    takes .x rd ++ takes .x ra
  | .ldaA4 rd ra _ _ | .ldaA32 rd ra _ _ => gives .a rd ++ takes .x ra
  | .staA4 rd ra _ _ | .staA32 rd ra _ _ => takes .a rd ++ takes .x ra
  | .ldwFp32 rd ra _ _ | .ldwBf16 rd ra _ _ | .wbcst rd ra _ => gives .w rd ++ takes .x ra
  | .stwFp32 rd ra _ _ | .stwBf16 rd ra _ _ => takes .w rd ++ takes .x ra
  | .cas rd ra rb rc _ => gives .x rd ++ takes .x ra ++ takes .x rb ++ takes .x rc
  | .dec rd ra _ => gives .w rd ++ takes .a ra
  | .encA4 rd ra _ | .encA32 rd ra _ => gives .a rd ++ takes .w ra
  | .enctA4 rd ra rb _ | .enctA32 rd ra rb _ => gives .a rd ++ takes .w ra ++ takes .tl rb ++ gives .tl rb
  | .aaddA4 rd ra rb _ | .aaddA32 rd ra rb _ | .asubA4 rd ra rb _ | .asubA32 rd ra rb _ =>
    gives .a rd ++ takes .a ra ++ takes .a rb
  | .arelu rd ra _ | .aneg rd ra _ | .amov rd ra _ | .acvtA4 rd ra _ | .acvtA32 rd ra _ => gives .a rd ++ takes .a ra
  | .amsk rd ra rb _ => gives .a rd ++ takes .a ra ++ takes .m rb
  | .ascl rd ra rb _ => gives .a rd ++ takes .a ra ++ takes .x rb
  | .adot rd ra rb _ => gives .x rd ++ takes .a ra ++ takes .a rb
  | .aget rd ra rb _ => gives .x rd ++ takes .a ra ++ takes .x rb
  | .aset rd ra rb _ => takes .a rd ++ gives .a rd ++ takes .x ra ++ takes .x rb
  | .wadd rd ra rb _ | .wsub rd ra rb _ | .wmul rd ra rb _ | .wmin rd ra rb _ | .wmax rd ra rb _ | .wshuf rd ra rb _ =>
    gives .w rd ++ takes .w ra ++ takes .w rb
  | .wabs rd ra _ | .wneg rd ra _ | .wrcp rd ra _ | .wrsq rd ra _ | .wsqrt rd ra _ | .wexp2 rd ra _
  | .wlog2 rd ra _ | .wredsum rd ra _ | .wredmax rd ra _ | .wredmin rd ra _ | .wcvtfi rd ra _ | .wcvtif rd ra _
  | .wcvtbf rd ra _ | .wcvtfb rd ra _ | .wmov rd ra _ => gives .w rd ++ takes .w ra
  | .wcmpeq rd ra rb _ | .wcmplt rd ra rb _ | .wcmple rd ra rb _ => gives .m rd ++ takes .w ra ++ takes .w rb
  | .wins rd ra rb _ => takes .w rd ++ gives .w rd ++ takes .x ra ++ takes .x rb
  | .wext rd ra rb _ => gives .x rd ++ takes .w ra ++ takes .x rb
  | .wfma rd ra rb rc _ | .wfms rd ra rb rc _ | .wfnma rd ra rb rc _ =>
    gives .w rd ++ takes .w ra ++ takes .w rb ++ takes .w rc
  | .wsel rd ra rb rc _ => gives .w rd ++ takes .w ra ++ takes .w rb ++ takes .m rc
  | .jal _ | .rep _ _ _ _ _ | .rept | .nop _ | .rett _ | .ends _ | .fence _ _ | .bar _ | .wfa _ | .yield _
  | .halt _ | .mkpop _ _ _ | .spos _ _ _ | .sskip _ _ _ | .srst _ _ | .socc _ _ _ | .sisect _ _ _ _ | .sacc _ _ _
  | .saccx _ _ _ | .bmk _ _ _ | .mmaA4a4 _ _ _ _ _ _ | .mmaA4a32 _ _ _ _ _ _ | .mmaA32a32 _ _ _ _ _ _
  | .mmacsrA4 _ _ _ _ _ _ | .mmacsrA32 _ _ _ _ _ _ | .mmagA4 _ _ _ _ _ _ | .mmagA32 _ _ _ _ _ _ | .mzero _ _ _
  | .mrd _ _ _ _ _ | .mwr _ _ _ _ _ | .mstF32 _ _ _ _ _ | .mstA4 _ _ _ _ _ | .mstA32 _ _ _ _ _ | .mwait _ _
  | .mbudget _ _ | .mstat _ _ | .nopl _ _ | .spat _ _ _ _ _ _ _ | .spatr _ _ _ _ | .copy _ _ _ _ _ _
  | .fill _ _ _ _ _ _ | .fprint _ _ _ _ _ _ | .cmpr _ _ _ _ _ _ _ | .gather _ _ _ _ _ _ _ _
  | .scatter _ _ _ _ _ _ _ _ | .rcopy _ _ _ _ _ _ _ _ | .reduce _ _ _ _ _ _ _ | .seamw _ _ _ _ _ | .xmap _ _ _ _
  | .clause _ _ _ _ | .cwait _ _ _ | .rolemap _ _ _ | .attn _ _ _ | .lfork _ _ _ | .lapp _ _ _ _ _
  | .lput _ _ _ _ _ | .lget _ _ _ _ _ _ | .lshare _ _ _ _ _ _ | .lrel _ _ _ | .linv _ _ _ _ | .contextReady _ _
  | .stopRequest _ | .faultRecordDelivery _ | .operationStart _ | .kBlockStart _ | .operationComplete _
  | .mstStoresPerformed _ _ _ | .apeFetch _ _ _ | .patternWrite _ _ _ | .completionEvent _ _ _ | .tokenHop _ _ _ _
  | .slotReturn _ _ _ _ | .sendWindowGrant _ _ _ _ | .grantTimer _ _ _ _ | .grantArrival _ _ _ _
  | .drainToken _ _ _ | .edgeDrain _ _ _ | .occupancySample _ _ _ | .sampleMessage _ _ _ | .rateUpdate _
  | .semaphoreWaiterSatisfied _ _ | .barrierComplete _ _ | .ldfRelease _ | .arrival _ _ | .clauseLoad _
  | .roleLoad _ _ _ | .iterationStart _ _ | .cellRelease _ | .commandDispatch _ | .commandComplete _ _
  | .commandFail _ _ | .frameFree _ _ | .correctionRewrite _ _ | .patrolScrub _ _ _ | .refreshWindowStart
  | .refreshWindowEnd | .quiescenceReport _ | .shootDownGvaRange _ | .shootDownContext _ | .shootDownImportEntry _
  | .shootDownAcceptance | .shootDownCompletion | .tailWrite _ _ | .queueRegisterWrite _ _ _ | .periodStart _
  | .budgetExhausted _ | .distributorChoice | .drainStop _ | .drainmaxExpiry _ | .preCopyEnd _ | .pcmaxExpiry _
  | .saveComplete _ | .sentenceRetirement _ | .overrun _ | .coreqWrite _ | .resolverServe | .packetSend _
  | .idleHdr _ _ | .writePkt _ _ | .readReq _ _ | .readRsp _ _ | .tokenPkt _ _ | .grantPkt _ _ | .doneHdr _ _
  | .refusePkt _ _ | .replayTimeout _ | .laneLoss _ _ | .crcRetrain _ | .trainingPatternReceived _
  | .trainingPatternEnd _ _ | .goodLaneMask _ _ | .retrainTimeout _ | .fullRetraining _ | .portDisable _
  | .hsnapWrite _ | .snapshotRewrite | .cellRetirement _ | .moduleReset _ | .stage | .activate | .report | .extend
  | .ideKm _ | .cxlMemRead _ _ _ | .cxlMemWrite _ _ _ | .lattolWrite _ | .moduleIdle | .powerTransitionComplete
  | .powerSample _ _ | .thermalAction _ | .registerWrite _ _ | .crcErr _ | .reservedTypePacket _
  | .accessPerformed _ _ _ | .budgetRefill _ | .partitionChange _ _ => []

end Sys2Proof.Machine
end

