-- ==== Sys2Proof/Machine/Engines.lean ====
section
/-! DEFINITION. The copy engines' commands, unit by unit: patterns, copies, fingerprints, comparisons, indexed moves,
reductions, seam writes, remote copies, mappings and role maps (spec/07 R182 to R192, R299; spec/22 R399). A unit is
performed whole or not at all. -/
namespace Sys2Proof.Machine

/-- What a unit leaves: the state, and the command's progress and memory. -/
structure Unit1 where
  s : State
  prog : Nat
  memo : List Nat
deriving DecidableEq, Repr

/-- A unit that only adds to the progress. -/
def Command.next (c : Command) (s : State) (n : Nat) : Unit1 := ⟨s, c.prog + n, c.memo⟩

/-- Bytes of the next unit of a byte range: up to the next 8-byte boundary of the destination. -/
def wordPart (dst : DWord) (prog len : Nat) : Nat := min (8 - (dst.toNat + prog) % 8) (len - prog)

/-- copy (R184), and seamw once its die lets it write (R188): the next word. -/
def copyUnit (s : State) (k : Nat) (c : Command) (dst src : DWord) (len : Nat) (fe : Bool) : Eng Unit1 := do
  let n := wordPart dst c.prog len
  let (bs, s1) ← engRead s k c (src + dwn c.prog) n
  let s2 ← engWrite s1 k c (dst + dwn c.prog) bs fe
  pure (c.next s2 n)

/-- seamw (R188): the next word; it waits while the die's seam is read only, which a resumption may bring about (R242). -/
def seamUnit (s : State) (k : Nat) (c : Command) (dst src : DWord) (len : Nat) : Eng Unit1 :=
  match s.seamAddr (.cond k) (dst + dwn c.prog) with
  | some sa => if s.seamBusy (sa / 2 ^ 36) then .error .wait else copyUnit s k c dst src len false
  | none => copyUnit s k c dst src len false

/-- fill (R184): the next word. -/
def fillUnit (s : State) (k : Nat) (c : Command) (dst v : DWord) (fe : Bool) : Eng Unit1 := do
  let s1 ← engWrite s k c (dst + dwn c.prog) (leBytes 8 v.toNat) fe
  pure (c.next s1 8)

/-- The fingerprint of 480 payload words (R185). -/
def fingerprint (bs : List Byte) : Nat :=
  ((List.range 480).foldl (fun acc i => acc + leNat ((bs.drop (8 * i)).take 8) * (2 * i + 1)) 0) % 2 ^ 64

/-- fprint (R185): the next page. -/
def fprintUnit (s : State) (k : Nat) (c : Command) (src dst : DWord) (fe : Bool) : Eng Unit1 := do
  let (bs, s1) ← engRead s k c (src + dwn (4096 * c.prog + 256)) 3840
  let s2 ← engWrite s1 k c (dst + dwn (8 * c.prog)) (leBytes 8 (fingerprint bs)) fe
  pure (c.next s2 1)

/-- cmpr (R186): the next byte, and after the last, or the first that differs, the result. -/
def cmprUnit (s : State) (k : Nat) (c : Command) (a b dst : DWord) (fe : Bool) (len : Nat) : Eng Unit1 :=
  if c.prog < len then do
    let (x, s1) ← engRead s k c (a + dwn c.prog) 1
    let (y, s2) ← engRead s1 k c (b + dwn c.prog) 1
    pure (if x = y then c.next s2 1 else ⟨s2, len, [c.prog + 1]⟩)
  else do
    let s1 ← engWrite s k c dst (leBytes 8 (c.memo.headD 0)) fe
    pure ⟨s1, len + 1, c.memo⟩

/-- Whether an indexed element passes R158 (R184). -/
def elemCheck (s : State) (k : Nat) (v : DWord) (n : Nat) (write fe : Bool) : Eng Unit :=
  match engCheck s (.cond k) v n (if fe then 8 else 1) write fe with
  | .ok () => .ok ()
  | .error _ => engFail .cmdfail 0x23 v

/-- The index of an element (R184). -/
def indexAt (s : State) (k : Nat) (c : Command) (idx : DWord) : Eng (Nat × State) := do
  let (bs, s1) ← engRead s k c (idx + dwn (4 * c.prog)) 4
  pure (leNat bs, s1)

/-- gather (R184): the next element. -/
def gatherUnit (s : State) (k : Nat) (c : Command) (dst src idx : DWord) (fe : Bool) (esz : Nat) : Eng Unit1 := do
  let (i, s1) ← indexAt s k c idx
  let v := src + dwn (i * esz)
  elemCheck s1 k v esz false false
  let (bs, s2) ← engRead s1 k c v esz
  let s3 ← engWrite s2 k c (dst + dwn (c.prog * esz)) bs fe
  pure (c.next s3 1)

/-- scatter (R184): the next element, ascending. -/
def scatterUnit (s : State) (k : Nat) (c : Command) (dst src idx : DWord) (fe : Bool) (esz : Nat) : Eng Unit1 := do
  let (i, s1) ← indexAt s k c idx
  let v := dst + dwn (i * esz)
  elemCheck s1 k v esz true fe
  let (bs, s2) ← engRead s1 k c (src + dwn (c.prog * esz)) esz
  let s3 ← engWrite s2 k c v bs fe
  pure (c.next s3 1)

/-- dst OP src on one element (R184): no flag is set. -/
def redOp (op : Fin 3) (d e : Nat) : Nat :=
  match op with
  | 0 => (fadd (BitVec.ofNat 32 d) (BitVec.ofNat 32 e)).1.toNat
  | 1 => (fmax (BitVec.ofNat 32 d) (BitVec.ofNat 32 e)).1.toNat
  | 2 => (d + e) % 2 ^ 64

/-- reduce (R184): the next element; with FE the next 8-byte word, so that every word is marked as it is written. -/
def reduceUnit (s : State) (k : Nat) (c : Command) (dst src : DWord) (fe : Bool) (op : Fin 3) : Eng Unit1 := do
  let z := redSize op
  let n := if fe then 8 / z else 1
  let off := dwn (c.prog * z)
  let (d, s1) ← engRead s k c (dst + off) (n * z)
  let (e, s2) ← engRead s1 k c (src + off) (n * z)
  let r := (List.range n).map (fun i =>
    leBytes z (redOp op (leNat ((d.drop (i * z)).take z)) (leNat ((e.drop (i * z)).take z))))
  let s3 ← engWrite s2 k c (dst + off) r.flatten fe
  pure (c.next s3 n)

/-- xmap (R189, R327). -/
def xmapUnit (s : State) (k : Nat) (c : Command) (v : DWord) (zero : Bool) : Eng Unit1 :=
  let bad : Eng Unit1 := engFail .cmdfail 0x24 v
  match (s.cond k).region with
  | none => bad
  | some q =>
    match s.region q, s.extentNo (.cond k) (fld v.toNat 47 40) with
    | some r, some e =>
      match s.xmapPage q r e (fld v.toNat 39 0) zero with
      | some s1 => .ok (c.next s1 1)
      | none => bad
    | _, _ => bad

/-! ### Role maps -/

/-- ENMAP of a cluster (R394). -/
def State.enmapOf (s : State) (k : Nat) : BitVec 18 := tget s.enmap k 0x2FFFF

/-- Enabled positions of a cluster, rising. -/
def State.enabled (s : State) (k : Nat) : List Nat := (List.range 17).filter (fun c => (s.enmapOf k).getLsbD c)

/-- The default role map (R205). -/
def State.defaultMap (s : State) (r : Region) : List Nat :=
  (r.clusters.map (fun k => ((s.enabled k).take 16).map (fun c => 17 * k + c))).flatten

/-- The role map in force (R192, R205). -/
def State.roleMapOf (s : State) (r : Region) : List Nat := if r.roleMap.isEmpty then s.defaultMap r else r.roleMap

/-- The cell that an entry of a role map names, none when the entry fails (R192). -/
def mapEntry (s : State) (r : Region) (x : Nat) : Option Nat :=
  let die := fld x 9 8
  let pos := fld x 7 0
  let k := 12 * die + pos / 17
  if fld x 15 10 ≠ 0 ∨ 204 ≤ pos ∨ r.clusters.contains k = false ∨ (s.enmapOf k).getLsbD (pos % 17) = false then none
  else some (204 * die + pos)

/-- Entries of a role map, no cell twice. -/
def mapEntries (s : State) (r : Region) : List Nat → List Nat → Option (List Nat)
  | acc, [] => some acc
  | acc, x :: xs =>
    match mapEntry s r x with
    | none => none
    | some p => if acc.contains p then none else mapEntries s r (acc ++ [p]) xs

/-- rolemap (R192). -/
def rolemapUnit (s : State) (k : Nat) (c : Command) (v : DWord) : Eng Unit1 := do
  let (hd, s1) ← engRead s k c v 8
  let n := leNat (hd.take 2)
  let bad : Eng Unit1 := engFail .cmdfail 0x21 v
  if (hd.drop 2).any (· != 0) || n == 0 || decide (816 < n) then bad
  else
    match engCheck s1 (.cond k) v (8 + 2 * n) 8 false false with
    | .error _ => bad
    | .ok () => do
      let (bs, s2) ← engRead s1 k c (v + 8) (2 * n)
      match (s2.cond k).region with
      | none => bad
      | some q =>
        match s2.region q with
        | none => bad
        | some r =>
          match mapEntries s2 r [] ((List.range n).map (fun i => leNat ((bs.drop (2 * i)).take 2))) with
          | none => bad
          | some m => pure (c.next (s2.modRegion q (fun r => { r with roleMap := m })) 1)

/-! ### A conductor's patterns -/

/-- spat and spatr of a conductor (R182, R183): the pattern is placed at its port, and completes with it (R223). -/
def spatUnit (s : State) (k : Nat) (c : Command) (target : DWord) (pat : Pattern) (bad : Option CmdFault) : Eng Unit1 :=
  if let some f := bad then .error (.fail f) else
  match spatTarget target with
  | none => engFail .cmdfail 0x26 target
  | some (r, x, q) => do
    let p ← match roleCell s k c.run (roleForm r 0) with
      | .error (.fail f) => .error (.fail { f with addr := target })
      | e => e
    let a := AgentId.ctx p x
    let o := (s.hart a).ports[q]
    if o.takes pat then
      match o.addPattern { pat with cmd := some (k, c.id) } with
      | none => throw .wait
      | some o' => pure (c.next (s.modHart a (fun h => { h with ports := h.ports.set q o' })) 1)
    else engFail .cmdfail 0x26 target

/-! ### Remote copies -/

def State.modLink (s : State) (p : Fin 8) (f : Link → Link) : State := { s with links := s.links.set p (f s.links[p]) }

/-- The tag of a conductor's transfer. -/
def tagOf (k : Nat) (c : Command) : BitVec 24 := BitVec.ofNat 24 (k * 2 ^ 16 + c.id % 2 ^ 16)

/-- A packet before it is sent: its sequence number and acknowledgement come then (R381). -/
def packet (addr : DWord) (key : Word) (tag : BitVec 24) (arg : DWord) (data : List Byte) : Packet :=
  ⟨0, 0, false, addr, key, tag, arg, data⟩

/-- Packets sent and not yet acknowledged. -/
def Link.inFlight (l : Link) : Nat := (l.txNext - l.txOld).toNat

/-- Whether the window has room for a new packet: a command or channel that needs one holds otherwise (R381). -/
def Link.room (l : Link) : Bool := decide (l.outbox.length + l.inFlight < 512)

/-- A packet waits at its port. -/
def Link.post (l : Link) (t : PType) (p : Packet) : Link := { l with outbox := l.outbox ++ [(t, p)] }

/-- Packets of a remote copy: one for each 256 bytes (R399). -/
def rcopyPackets (len : Nat) : Nat := ceilDiv len 256

/-- A transfer known to its port from its first packet on. -/
def Link.open (l : Link) (tag : BitVec 24) (k id : Nat) : Link :=
  if l.transfers.any (fun t => t.tag == tag) then l
  else { l with transfers := l.transfers ++ [⟨tag, k, id, []⟩] }

/-- A pull's next answer written locally; it waits while none has come. -/
def pulledUnit (s : State) (k : Nat) (c : Command) (loc : DWord) (i : Nat) (port : Fin 8) (tag : BitVec 24) : Eng Unit1 :=
  match s.links[port].transfers.find? (fun t => t.tag == tag) with
  | some t =>
    match t.inbox with
    | bs :: r => do
      let s1 ← engWrite s k c (loc + dwn (256 * i)) bs false
      pure (c.next (s1.modLink port (fun l => { l with
        transfers := l.transfers.map (fun x => if x.tag == tag then { x with inbox := r } else x) })) 1)
    | [] => .error .wait
  | none => .error .wait

/-- rcopy (R187, R399): the next packet of a push or of a pull; a pull that a stop has cut short asks again from the first
answer it has not written, kept in `memo` (R277). A port that is down fails it (R386), and a full window holds it (R381). -/
def rcopyUnit (s : State) (k : Nat) (c : Command) (loc rem : DWord) (len : Nat) (port : Fin 8) (pull : Bool) (key : Word) :
    Eng Unit1 :=
  let st := s.links[port].state
  if st = .down ∨ st = .disabled then engFail .cmdfail 0x20 rem
  else
    let tag := tagOf k c
    let i := c.prog
    let n := min 256 (len - 256 * i)
    let send (s : State) (t : PType) (p : Packet) : State := s.modLink port (fun l => (l.open tag k c.id).post t p)
    let addr := rem + dwn (256 * i)
    if rcopyPackets len ≤ i then
      if pull then pulledUnit s k c loc (i - rcopyPackets len + c.memo.headD 0) port tag
      else if s.links[port].room = false then .error .wait
      else .ok (c.next (send s .done (packet 0 0 tag (dwn tag.toNat) [])) 1)
    else if s.links[port].room = false then .error .wait
    else if pull then .ok (c.next (send s .readReq (packet addr key tag (dwn n) [])) 1)
    else do
      let (bs, s1) ← engRead s k c (loc + dwn (256 * i)) n
      pure (c.next (send s1 .write (packet addr key tag 0 bs)) 1)

end Sys2Proof.Machine
end

