-- ==== Sys2Proof/Machine/Lode.lean ====
section
/-! DEFINITION. The lode: its tables, the walk, and the commands that change tables or move slots
(spec/15 R281 to R304). A table change, and a slot, is one step. -/
namespace Sys2Proof.Machine

/-! ### Chiplet memory -/

/-- A lode fault, before the key word and the position are known (R292). -/
def lodeFault {α : Type} (code : Nat) : Eng α := .error (.fail ⟨.lodefault, code, 0, none⟩)

/-- A fault with the key word and the position of its command; an uncorrectable word keeps its address (R292). -/
def atPos {α : Type} (key : DWord) (pos : Nat) (r : Eng α) : Eng α :=
  let named (f : CmdFault) : CmdFault :=
    if f.cause = .lodefault ∧ f.xaddr = none then { f with addr := key, xaddr := some (dwn pos) } else f
  match r with
  | .error (.fail f) => .error (.fail (named f))
  | .error (.after s p f) => .error (.after s p (named f))
  | e => e

/-- A failure of a step after which the writes of a state stay in place (R292). -/
def keeping {α : Type} (s : State) (r : Eng α) : Eng α :=
  match r with
  | .error (.fail f) => .error (.after s none f)
  | .error (.bad p f) => .error (.after s (some p) f)
  | e => e

def State.lodeMem (s : State) (g : Fin 4) : Memory := s.lode[g]
def State.setLode (s : State) (g : Fin 4) (m : Memory) : State := { s with lode := s.lode.set g m }

/-- Bytes of a chiplet (R276, R284). -/
def lodeRead (s : State) (g : Fin 4) (a n : Nat) : Eng (List Byte) :=
  if Config.lodeBytes < a + n then lodeFault 0x07
  else
    match (List.range n).find? (fun i => s.isBad (.lode g (a + i))) with
    | some i => .error (.bad (.lode g (a + i)) ⟨.uncorr, 0, dwn a, some 0⟩)
    | none => .ok ((s.lodeMem g).read a n)

def lodeNum (s : State) (g : Fin 4) (a n : Nat) : Eng Nat := (lodeRead s g a n).map leNat

/-- A number written to a chiplet. -/
def lodePut (s : State) (g : Fin 4) (a n v : Nat) : State := s.setLode g ((s.lodeMem g).write a (leBytes n v))

/-- The whole of a byte string written to a chiplet. -/
def lodeWrite (s : State) (g : Fin 4) (a : Nat) (bs : List Byte) : State :=
  s.setLode g (((s.lodeMem g).cut a bs.length).write a bs)

/-! ### The frame table (R286, R290) -/

def frameTable : Nat := 0xFF8000000
def frameEntry (f : Nat) : Nat := frameTable + 8 * f

def isMeta (s : State) (g : Fin 4) (f : Nat) : Eng Bool := (lodeNum s g (frameEntry f) 8).map (fun e => bitOf e 32)
def frameRef (s : State) (g : Fin 4) (f : Nat) : Eng Nat := (lodeNum s g (frameEntry f) 8).map (fun e => e % 2 ^ 32)
def setRef (s : State) (g : Fin 4) (f r : Nat) : State := lodePut s g (frameEntry f) 4 r
def addRef (s : State) (g : Fin 4) (f : Nat) : Eng State := (frameRef s g f).map (fun r => setRef s g f (r + 1))

/-- Every frame of a list is META. -/
def allMeta (s : State) (g : Fin 4) : List Nat → Eng Unit
  | [] => .ok ()
  | f :: r => do
    if ← isMeta s g f then allMeta s g r else lodeFault 0x07

/-- A table region: aligned, and in META frames (R292 code 0x07). -/
def tableCheck (s : State) (g : Fin 4) (a n align : Nat) : Eng Unit :=
  if a % align ≠ 0 ∨ Config.lodeBytes < a + n then lodeFault 0x07
  else
    let lo := a / 4096
    let hi := (a + max n 1 - 1) / 4096
    allMeta s g ((List.range (hi + 1 - lo)).map (fun i => lo + i))

/-- A frame that a page may use: this chiplet's, and not META (R291). -/
def pageFrame (s : State) (g : Fin 4) (fr : Nat) : Eng Nat := do
  if fld fr 27 26 ≠ 0 ∨ fld fr 25 24 ≠ g.val then lodeFault 0x07
  else if ← isMeta s g (fr % 2 ^ 24) then lodeFault 0x07
  else pure (fr % 2 ^ 24)

/-! ### Descriptor, sequences and nodes (R286 to R288) -/

/-- A lode context descriptor and where it stands. -/
structure LodeDesc where
  g : Fin 4
  addr : Nat
  stbase : Nat
  nseq : Nat
  ffsize : Nat
  ffbase : Nat
  ffhead : Nat
  fftail : Nat
  rcbase : Nat
  rcsize : Nat
  rchead : Nat
  rctail : Nat
deriving DecidableEq, Repr

/-- The chiplet of a handle, and its index (R282). -/
def homeOf (h : Nat) : Fin 4 := Fin.ofNat 4 (fld h 19 18)
def seqIndex (h : Nat) : Nat := fld h 17 0

def descAt (s : State) (g : Fin 4) (a : Nat) : Eng LodeDesc := do
  let bs ← lodeRead s g a 64
  let n (o k : Nat) : Nat := leNat ((bs.drop o).take k)
  pure ⟨g, a, n 0 8, n 8 4, n 0xC 4, n 0x10 8, n 0x18 4, n 0x1C 4, n 0x20 8, n 0x28 4, n 0x2C 4, n 0x30 4⟩

/-- The descriptor of a conductor's region on a chiplet (R338). The manual gives it no alignment: one that is not a multiple
of 8 fails as a misaligned table, 0x07 (DESIGN CHOICE, log entry 79). -/
def lodeDesc (s : State) (k : Nat) (g : Fin 4) : Eng LodeDesc := do
  let a := ((((s.cond k).region.bind s.region).map (·.lodectx)).getD []).getD g.val 0
  if a = 0 then lodeFault 0x07
  else
    tableCheck s g a 64 8
    descAt s g a

/-- A sequence: where its entry stands, its leaf and its END. -/
structure Seq where
  addr : Nat
  leaf : Nat
  fin : Nat
deriving DecidableEq, Repr

/-- A valid sequence (R287, R291). -/
def seqOf (s : State) (d : LodeDesc) (ix : Nat) : Eng Seq := do
  if d.nseq ≤ ix then lodeFault 0x01
  else
    let a := d.stbase + 16 * ix
    tableCheck s d.g a 16 16
    let bs ← lodeRead s d.g a 16
    if (bs.getD 12 0).getLsbD 0 then pure ⟨a, leNat (bs.take 8), leNat ((bs.drop 8).take 4)⟩ else lodeFault 0x01

def putSeq (s : State) (g : Fin 4) (a leaf fin : Nat) : State :=
  lodePut (lodePut (lodePut s g a 8 leaf) g (a + 8) 4 fin) g (a + 12) 4 1

/-- A run node and where it stands. -/
structure Node where
  addr : Nat
  start : Nat
  count : Nat
  parent : Nat
  ref : Nat
  sealed : Bool
  dir : Nat
  dbase : Nat
  pcap : Nat
  nl : Nat
  nhg : Nat
  fmt : Nat
  geom : Nat
deriving DecidableEq, Repr

def nodeAt (s : State) (g : Fin 4) (a : Nat) : Eng Node := do
  tableCheck s g a 64 64
  let bs ← lodeRead s g a 64
  let n (o k : Nat) : Nat := leNat ((bs.drop o).take k)
  pure ⟨a, n 0 4, n 4 4, n 8 8, n 0x10 4, bitOf (n 0x14 4) 0, n 0x18 8, n 0x20 4, n 0x24 4, n 0x28 2, n 0x2A 1,
    n 0x2B 1, n 0x2C 1⟩

/-- A node written whole (R288). -/
def putNode (s : State) (g : Fin 4) (n : Node) : State :=
  lodeWrite s g n.addr (leBytes 4 n.start ++ leBytes 4 n.count ++ leBytes 8 n.parent ++ leBytes 4 n.ref
    ++ leBytes 4 (b2n n.sealed) ++ leBytes 8 n.dir ++ leBytes 4 n.dbase ++ leBytes 4 n.pcap ++ leBytes 2 n.nl
    ++ leBytes 1 n.nhg ++ leBytes 1 n.fmt ++ leBytes 1 n.geom ++ List.replicate 19 0)

/-- Bytes of a directory for each page of capacity (R288). -/
def Node.perPage (n : Node) : Nat := 16 * n.nl * n.nhg

/-- Layer, head group and K or V of a key word (R281). -/
structure Lgk where
  l : Nat
  hg : Nat
  kv : Nat
deriving DecidableEq, Repr

def lgkOf (key : DWord) : Lgk := ⟨fld key.toNat 27 20, fld key.toNat 33 28, fld key.toNat 34 34⟩

/-- Where the directory entry of a page stands; none outside the directory (R288). -/
def Node.entryAt (n : Node) (x : Lgk) (m : Nat) : Option Nat :=
  if m < n.dbase ∨ n.pcap ≤ m - n.dbase then none
  else some (n.dir + 8 * (((x.l * n.nhg + x.hg) * n.pcap + (m - n.dbase)) * 2 + x.kv))

/-- A directory entry, which stands in a table (R288, R292 code 0x07). -/
def dirEntry (s : State) (g : Fin 4) (a : Nat) : Eng Nat := do
  tableCheck s g a 8 8
  lodeNum s g a 8

/-- Whether a key's layer and head group lie within the tree's geometry (R291). -/
def geomCheck (n : Node) (x : Lgk) : Eng Unit := if n.nl ≤ x.l ∨ n.nhg ≤ x.hg then lodeFault 0x06 else .ok ()

/-- The climb from a leaf to the run of a position (R291); there are no more nodes than 64-byte places. -/
def climb (s : State) (g : Fin 4) (t : Nat) : Nat → Nat → Eng Node
  | 0, _ => lodeFault 0x07
  | fuel + 1, a => do
    let n ← nodeAt s g a
    if n.start ≤ t then pure n
    else if n.parent = 0 then lodeFault 0x07
    else climb s g t fuel n.parent

/-- A fill: the node, the entry's place and value, and the frame (R291). -/
structure Fill where
  node : Node
  at8 : Nat
  entry : Nat
  frame : Nat
deriving DecidableEq, Repr

/-- The walk (R291): it sets A. -/
def walkLode (s : State) (k : Nat) (key : DWord) (t : Nat) : Eng (Fill × State) := do
  let g := homeOf key.toNat
  let d ← lodeDesc s k g
  let q ← seqOf s d (seqIndex key.toNat)
  if q.fin ≤ t then lodeFault 0x02
  else
    let n ← climb s g t (2 ^ 30) q.leaf
    let x := lgkOf key
    geomCheck n x
    match n.entryAt x (t / 16) with
    | none => lodeFault 0x08
    | some ea => do
      let e ← dirEntry s g ea
      if bitOf e 31 = false then lodeFault 0x03
      else
        let f ← pageFrame s g e
        let e' := orBits e (2 ^ 29)
        pure (⟨n, ea, e', f⟩, lodePut s g ea 8 e')

/-! ### Frames taken and released (R286, R294, R295) -/

/-- The next frame of the free ring. -/
def takeFrame (s : State) (d : LodeDesc) : Eng (Nat × State) := do
  if d.ffsize = 0 ∨ d.ffhead = d.fftail then lodeFault 0x04
  else
    tableCheck s d.g (d.ffbase + 4 * d.ffhead) 4 4
    let f ← lodeNum s d.g (d.ffbase + 4 * d.ffhead) 4
    if 2 ^ 24 ≤ f then lodeFault 0x07
    else if ← isMeta s d.g f then lodeFault 0x07
    else pure (f, lodePut s d.g (d.addr + 0x18) 4 ((d.ffhead + 1) % d.ffsize))

/-- Whether a fill pins a frame. -/
def State.pinned (s : State) (g : Fin 4) (f : Nat) : Bool := s.pins.contains (g.val, f)

/-- A frame placed on the free ring of a descriptor (R286). -/
def joinRing (s : State) (g : Fin 4) (desc f : Nat) : State :=
  let m := s.lodeMem g
  let size := m.num (desc + 0xC) 4
  let base := m.num (desc + 0x10) 8
  let tail := m.num (desc + 0x1C) 4
  lodePut (lodePut s g (base + 4 * tail) 4 f) g (desc + 0x1C) 4 ((tail + 1) % max size 1)

/-- A frame whose REF has reached 0: it joins the free ring, at once or when no fill pins it any more (R295). -/
def giveFrame (s : State) (d : LodeDesc) (f : Nat) : State :=
  if s.pinned d.g f then { s with freeing := s.freeing ++ [(d.g.val, f, d.addr)] } else joinRing s d.g d.addr f

/-- An entry that mapped a frame is gone (R295). -/
def dropRef (s : State) (d : LodeDesc) (f : Nat) : Eng State := do
  let r ← frameRef s d.g f
  let s1 := setRef s d.g f (r - 1)
  pure (if r ≤ 1 then giveFrame s1 d f else s1)

/-- Room on the free ring, less the places kept for frames that are still pinned (R295). -/
def ringRoom (s : State) (d : LodeDesc) : Nat :=
  if d.ffsize = 0 then 0
  else (d.ffhead + 2 * d.ffsize - d.fftail - 1) % d.ffsize -
    (s.freeing.filter (fun x => x.1 == d.g.val && x.2.2 == d.addr)).length

/-- The places of a ring that the next n entries take are in a table (R286, R292 code 0x07). -/
def ringCheck (s : State) (g : Fin 4) (base tail size width : Nat) : Nat → Eng Unit
  | 0 => .ok ()
  | n + 1 => do
    tableCheck s g (base + width * ((tail + n) % max size 1)) width width
    ringCheck s g base tail size width n

/-- Room on the reclaim ring. -/
def reclaimRoom (d : LodeDesc) : Nat := if d.rcsize = 0 then 0 else (d.rchead + 2 * d.rcsize - d.rctail - 1) % d.rcsize

/-- FRAME_FREE (R295): a released frame joins the free ring once no fill pins it. -/
def execFrameFree (chip : Fin 4) (frame : Nat) (s : State) : Out :=
  match s.freeing.find? (fun x => x.1 == chip.val && x.2.1 == frame) with
  | none => .next s
  | some x =>
    if s.pinned chip frame then .next s
    else .next (joinRing { s with freeing := s.freeing.erase x } chip x.2.2 frame)

/-! ### Slots (R284, R285, R294, R298, R301) -/

def slotAt (f u : Nat) : Nat := 4096 * f + 256 + 240 * u

/-- OWNER, STATE, FMT, KV and TBASE of page m (R285): written when its frame is allocated or copied. -/
def pageHeader (g : Fin 4) (n : Node) (x : Lgk) (m st : Nat) : List Byte :=
  [BitVec.ofNat 8 g.val, BitVec.ofNat 8 st, BitVec.ofNat 8 n.fmt, BitVec.ofNat 8 x.kv] ++ leBytes 4 (16 * m)

/-- A fresh page header and a zero payload (R285, R294). -/
def freshPage (s : State) (g : Fin 4) (n : Node) (x : Lgk) (m f : Nat) : State :=
  lodeWrite s g (4096 * f) (pageHeader g n x m 1 ++ List.replicate 4088 0)

/-- The frame that a write of a page uses: allocated, copied on write, or the page's own (R294). -/
def frameFor (s : State) (d : LodeDesc) (n : Node) (x : Lgk) (m e : Nat) (alloc : Bool) : Eng (Nat × State) := do
  if bitOf e 31 = false then
    if alloc = false then lodeFault 0x03
    else
      let (f, s1) ← takeFrame s d
      pure (f, setRef (freshPage s1 d.g n x m f) d.g f 1)
  else
    let f ← pageFrame s d.g e
    let r ← frameRef s d.g f
    if r ≤ 1 then pure (f, s)
    else
      let img ← lodeRead s d.g (4096 * f) 4096
      let (f', s1) ← takeFrame s d
      let img' := pageHeader d.g n x m 3 ++ img.drop 8
      let s2 := setRef (lodeWrite s1 d.g (4096 * f') img') d.g f' 1
      pure (f', setRef s2 d.g f (r - 1))

/-- The fingerprint of a page after payload words from word i on change (R285). -/
def csumAfter (old new : List Byte) (i c : Nat) : Nat :=
  ((List.range 30).foldl (fun (acc : Int) j =>
    let w (b : List Byte) : Int := (leNat ((b.drop (8 * j)).take 8) : Int)
    acc + (w new - w old) * (2 * (i + j) + 1 : Nat)) (c : Int) % (2 ^ 64 : Int)).toNat

/-- A slot stored in a frame, with CSUM and FILL kept (R285). -/
def putSlot (s : State) (g : Fin 4) (f u : Nat) (bs : List Byte) : Eng State := do
  let old ← lodeRead s g (slotAt f u) 240
  let hd ← lodeRead s g (4096 * f) 256
  let c := csumAfter old bs (30 * u) (leNat ((hd.drop 8).take 8))
  let fill := orBits (leNat ((hd.drop 16).take 2)) (2 ^ u)
  pure (lodeWrite (lodePut (lodePut s g (4096 * f + 8) 8 c) g (4096 * f + 16) 2 fill) g (slotAt f u) bs)

/-- A slot written through a sequence's leaf (R294, R298): D and A are set, and END grows when it may. -/
def writeSlot (s : State) (k : Nat) (key : DWord) (t : Nat) (bs : List Byte) (alloc : Bool) : Eng State := do
  let g := homeOf key.toNat
  let d ← lodeDesc s k g
  let q ← seqOf s d (seqIndex key.toNat)
  let n ← nodeAt s g q.leaf
  let x := lgkOf key
  geomCheck n x
  if t < n.start then lodeFault 0x0B
  else
    match n.entryAt x (t / 16) with
    | none => lodeFault 0x08
    | some ea => do
      let e ← dirEntry s g ea
      let (f, s1) ← frameFor s d n x (t / 16) e alloc
      let s2 := lodePut s1 g ea 8 (7 * 2 ^ 29 + g.val * 2 ^ 24 + f)
      let s3 ← putSlot s2 g f (t % 16) bs
      pure (if alloc && decide (q.fin ≤ t) then
        lodePut (lodePut s3 g (q.addr + 8) 4 (t + 1)) g (n.addr + 4) 4 (t + 1 - n.start) else s3)

/-- First position, and position of a slot, of X(rc) (R301). -/
def firstPos (rng : DWord) : Nat := fld rng.toNat 31 0

/-- The checks of a slot command before its first slot (R301). -/
def slotsStart (s : State) (k : Nat) (key rng : DWord) (app : Bool) : Eng Unit := do
  let d ← lodeDesc s k (homeOf key.toNat)
  let q ← seqOf s d (seqIndex key.toNat)
  let p := firstPos rng
  let n := slotCount rng
  if n = 0 then
    let leaf ← nodeAt s d.g q.leaf
    geomCheck leaf (lgkOf key)
  else if 2 ^ 32 < p + n then lodeFault 0x02
  else if (if app then decide (q.fin < p) else decide (q.fin < p + n)) then lodeFault 0x02
  else pure ()

/-- lapp and lput (R301): the checks, then the next slot. -/
def slotIn (s : State) (k : Nat) (c : Command) (key mem rng : DWord) (app : Bool) : Eng Unit1 :=
  atPos key (firstPos rng + (c.prog - 1)) (do
    if c.prog = 0 then
      slotsStart s k key rng app
      pure (c.next s 1)
    else
      let i := c.prog - 1
      let (bs, s1) ← engRead s k c (mem + dwn (240 * i)) 240
      let s2 ← writeSlot s1 k key (firstPos rng + i) bs app
      pure (c.next s2 1))

/-- A fill given up: its frame is pinned no more (R295, R297). -/
def State.unpin (s : State) (g : Fin 4) (memo : List Nat) : State :=
  match memo with
  | [_, f, _] => { s with pins := s.pins.erase (g.val, f) }
  | _ => s

/-- The frame for a slot of lget: of the fill it holds for that page and run, or of a new walk (R296, R297). -/
def fillFor (s : State) (k : Nat) (c : Command) (key : DWord) (t : Nat) : Eng (Nat × List Nat × State) :=
  let g := homeOf key.toNat
  let fresh : Eng (Nat × List Nat × State) := do
    let (f, s1) ← walkLode (s.unpin g c.memo) k key t
    pure (f.frame, [t / 16, f.frame, f.node.start + f.node.count],
      { s1 with pins := s1.pins ++ [(g.val, f.frame)] })
  match c.memo with
  | [m, f, stop] => if m = t / 16 ∧ t < stop then .ok (f, c.memo, s) else fresh
  | _ => fresh

/-- lget (R301): the checks, then the next slot. -/
def slotOut (s : State) (k : Nat) (c : Command) (key mem rng : DWord) (fe : Bool) : Eng Unit1 :=
  atPos key (firstPos rng + (c.prog - 1)) (do
    if c.prog = 0 then
      slotsStart s k key rng false
      pure (c.next s 1)
    else
      let i := c.prog - 1
      let t := firstPos rng + i
      let g := homeOf key.toNat
      let (f, memo, s1) ← fillFor s k c key t
      let (_, s2) ← keeping (s1.unpin g memo) (do
        let bs ← lodeRead s1 g (slotAt f (t % 16)) 240
        pure ((), ← engWrite s1 k c (mem + dwn (240 * i)) bs fe))
      if i + 1 = slotCount rng then pure ⟨s2.unpin g memo, c.prog + 1, []⟩ else pure ⟨s2, c.prog + 1, memo⟩)

/-! ### Forks (R293, R300) -/

/-- The valid geometries (R283). -/
def geomOk (fmt geom : Nat) : Bool :=
  let h := geom / 16
  let b := geom % 16
  if fmt = 0 then [(4, 6), (3, 8), (6, 4), (2, 12)].contains (h, b)
  else if fmt = 1 then [(2, 6), (3, 4), (1, 12), (1, 8)].contains (h, b)
  else false

/-- Every layer, head group and K or V of a tree. -/
def Node.keys (n : Node) : List Lgk :=
  ((List.range n.nl).map (fun l => ((List.range n.nhg).map (fun h => [⟨l, h, 0⟩, ⟨l, h, 1⟩])).flatten)).flatten

/-- REF of the frame of an entry that maps one, one higher. -/
def refEntry (s : State) (g : Fin 4) (e : Nat) : Eng State :=
  if bitOf e 31 then addRef s g (e % 2 ^ 24) else .ok s

/-- One directory entry of a split: copied to the prefix node, and moved or shared (R293). -/
def splitEntry (g : Fin 4) (n p : Node) (b : Nat) (s : State) (xm : Lgk × Nat) : Eng State := do
  match n.entryAt xm.1 xm.2, p.entryAt xm.1 xm.2 with
  | some a, some a' => do
    let e ← dirEntry s g a
    let s1 := lodePut s g a' 8 e
    if xm.2 < b then pure (lodePut s1 g a 8 0) else refEntry s1 g e
  | _, _ => pure s

/-- One entry of the page that a fork shares (R293). -/
def shareEntry (g : Fin 4) (par nn : Node) (b : Nat) (s : State) (x : Lgk) : Eng State := do
  match par.entryAt x b, nn.entryAt x b with
  | some a, some a' => do
    let e ← dirEntry s g a
    refEntry (lodePut s g a' 8 (e - (if bitOf e 30 then 2 ^ 30 else 0))) g e
  | _, _ => pure s

/-- The fork block (R300). -/
structure ForkBlock where
  src : Nat
  dst : Nat
  pos : Nat
  mode : Nat
  nnode : Nat
  ndir : Nat
  npcap : Nat
  geomw : Nat
  pnode : Nat
  pdir : Nat
  geom : Nat
  zeros : Bool
deriving DecidableEq, Repr

def forkBlock (bs : List Byte) : ForkBlock :=
  let n (o k : Nat) : Nat := leNat ((bs.drop o).take k)
  ⟨n 0 4, n 4 4, n 8 4, n 0xC 1, n 0x10 8, n 0x18 8, n 0x20 4, n 0x24 4, n 0x28 8, n 0x30 8, n 0x38 1,
    n 0xD 3 == 0 && n 0x39 7 == 0 && decide (n 0 4 < 2 ^ 20) && decide (n 4 4 < 2 ^ 20)⟩

/-- The key word of a fork's record, and its position (R292). -/
def ForkBlock.key (b : ForkBlock) : DWord := dwn ((if b.mode = 1 then b.dst else b.src) % 2 ^ 20)
def ForkBlock.at (b : ForkBlock) : Nat := if b.mode = 1 then 0 else b.pos

/-- A directory of zeros. -/
def zeroDir (s : State) (g : Fin 4) (n : Node) : State := lodeWrite s g n.dir (List.replicate (n.perPage * n.pcap) 0)

/-- The free destination of a fork (R300). -/
def forkDst (s : State) (d : LodeDesc) (b : ForkBlock) : Eng Nat := do
  if homeOf b.dst ≠ d.g ∨ d.nseq ≤ seqIndex b.dst then lodeFault 0x09
  else
    let a := d.stbase + 16 * seqIndex b.dst
    tableCheck s d.g a 16 16
    if bitOf (← lodeNum s d.g (a + 12) 4) 0 then lodeFault 0x09 else pure a

/-- A new root (R300). -/
def forkNew (s : State) (d : LodeDesc) (b : ForkBlock) : Eng State := do
  let da ← forkDst s d b
  let n : Node := ⟨b.nnode, 0, 0, 0, 1, false, b.ndir, 0, b.npcap, fld b.geomw 15 0, fld b.geomw 23 16,
    fld b.geomw 24 24, b.geom⟩
  if fld b.geomw 31 25 ≠ 0 ∨ n.nl = 0 ∨ 256 < n.nl ∨ n.nhg = 0 ∨ 64 < n.nhg ∨ geomOk n.fmt b.geom = false ∨ b.npcap = 0
  then lodeFault 0x06
  else
    tableCheck s d.g b.nnode 64 64
    tableCheck s d.g b.ndir (n.perPage * n.pcap) 8
    pure (putSeq (zeroDir (putNode s d.g n) d.g n) d.g da b.nnode 0)

/-- The node of a fork that is split at its position (R293): the prefix node, and the state. -/
def forkSplit (s : State) (g : Fin 4) (b : ForkBlock) (n : Node) : Eng (Node × State) := do
  let p0 := n.start / 16
  let p : Node := { n with
    addr := b.pnode, count := b.pos - n.start, ref := 2, sealed := true, dir := b.pdir, dbase := p0,
    pcap := (b.pos - 1) / 16 - p0 + 1 }
  tableCheck s g b.pnode 64 64
  tableCheck s g b.pdir (n.perPage * p.pcap) 8
  tableCheck s g n.dir (n.perPage * n.pcap) 8
  let pages := (n.keys.map (fun x => (List.range p.pcap).map (fun i => (x, p0 + i)))).flatten
  let s1 ← pages.foldlM (splitEntry g n p (b.pos / 16)) (zeroDir (putNode s g p) g p)
  pure (p, putNode s1 g { n with count := n.start + n.count - b.pos, start := b.pos, parent := b.pnode })

/-- A fork (R293). -/
def forkFrom (s : State) (d : LodeDesc) (b : ForkBlock) : Eng State := do
  let q ← seqOf s d (seqIndex b.src)
  let da ← forkDst s d b
  if b.pos = 0 ∨ q.fin < b.pos then lodeFault 0x09
  else
    let n ← climb s d.g (b.pos - 1) (2 ^ 30) q.leaf
    if b.npcap = 0 then lodeFault 0x06
    else
      tableCheck s d.g b.nnode 64 64
      tableCheck s d.g b.ndir (n.perPage * b.npcap) 8
      let whole := n.sealed && b.pos == n.start + n.count
      let (par, s1) ← if whole then pure (n, s) else forkSplit s d.g b n
      let nn : Node := ⟨b.nnode, b.pos, 0, par.addr, 1, false, b.ndir, b.pos / 16, b.npcap, n.nl, n.nhg, n.fmt, n.geom⟩
      let s2 := zeroDir (putNode s1 d.g nn) d.g nn
      let s3 ← if b.pos % 16 ≠ 0 then n.keys.foldlM (shareEntry d.g par nn (b.pos / 16)) s2 else pure s2
      let s4 := if whole then putNode s3 d.g { n with ref := n.ref + 1 } else s3
      pure (putSeq s4 d.g da b.nnode b.pos)

/-- lfork (R300). -/
def lforkUnit (s : State) (k : Nat) (c : Command) (blk : DWord) : Eng Unit1 := do
  let (bs, s1) ← engRead s k c blk 64
  let b := forkBlock bs
  atPos b.key b.at (do
    if 1 < b.mode ∨ b.zeros = false ∨ (b.mode = 0 ∧ (b.geomw ≠ 0 ∨ b.geom ≠ 0)) then lodeFault 0x06
    else
      let d ← lodeDesc s1 k (homeOf b.key.toNat)
      let s2 ← if b.mode = 1 then forkNew s1 d b else forkFrom s1 d b
      pure (c.next s2 1))

/-! ### Remaps, releases and invalidations (R302 to R304) -/

/-- Whether remapping an entry frees a frame that the ring has no room for (R295, R302). -/
def shareRoom (s : State) (d : LodeDesc) (old f : Nat) : Eng Unit := do
  let g := old % 2 ^ 24
  if bitOf old 31 && g != f then
    if (← frameRef s d.g g) ≠ 1 then pure ()
    else if ringRoom s d = 0 then lodeFault 0x0A
    else ringCheck s d.g d.ffbase d.fftail d.ffsize 4 1
  else pure ()

/-- lshare (R302). -/
def lshareUnit (s : State) (k : Nat) (c : Command) (key fr pos : DWord) (ext : Bool) : Eng Unit1 :=
  atPos key pos.toNat (do
    let g := homeOf key.toNat
    let d ← lodeDesc s k g
    let q ← seqOf s d (seqIndex key.toNat)
    let n ← nodeAt s g q.leaf
    let x := lgkOf key
    geomCheck n x
    let m := pos.toNat / 16
    if 16 * m < n.start then lodeFault 0x0B
    else
      match n.entryAt x m with
      | none => lodeFault 0x08
      | some ea => do
        let f ← pageFrame s g fr.toNat
        if (← frameRef s g f) = 0 then lodeFault 0x07
        else
          let old ← dirEntry s g ea
          shareRoom s d old f
          let s1 ← addRef (lodePut s g ea 8 (2 ^ 31 + g.val * 2 ^ 24 + f)) g f
          let s2 ← if bitOf old 31 then dropRef s1 d (old % 2 ^ 24) else pure s1
          pure (c.next (if ext && decide (q.fin < 16 * m + 16) then
            lodePut (lodePut s2 g (q.addr + 8) 4 (16 * m + 16)) g (n.addr + 4) 4 (16 * m + 16 - n.start) else s2) 1))

/-- The places and values of a node's directory entries. -/
def dirEntries (s : State) (g : Fin 4) (n : Node) : Eng (List (Nat × Nat)) := do
  tableCheck s g n.dir (n.perPage * n.pcap) 8
  let bs ← lodeRead s g n.dir (n.perPage * n.pcap)
  pure ((List.range (2 * n.nl * n.nhg * n.pcap)).map (fun i => (n.dir + 8 * i, leNat ((bs.drop (8 * i)).take 8))))

/-- The nodes that a release frees, with their entries (R303). -/
def freedNodes (s : State) (g : Fin 4) : Nat → Nat → Eng (List (Node × List (Nat × Nat)))
  | 0, _ => .ok []
  | fuel + 1, a => do
    if a = 0 then pure []
    else
      let n ← nodeAt s g a
      if 1 < n.ref then pure []
      else
        let es ← dirEntries s g n
        let r ← freedNodes s g fuel n.parent
        pure ((n, es) :: r)

/-- Frames whose REF a list of entries brings to 0. -/
def freedFrames (s : State) (g : Fin 4) (es : List (Nat × Nat)) : Eng Nat := do
  let fs := (es.filter (fun e => bitOf e.2 31)).map (fun e => e.2 % 2 ^ 24)
  fs.eraseDups.foldlM (fun acc f => do
    let r ← frameRef s g f
    pure (if r ≤ fs.count f then acc + 1 else acc)) 0

/-- The entries of a freed node cleared, their frames released (R303). -/
def clearEntries (d : LodeDesc) : List (Nat × Nat) → State → Eng State
  | [], s => .ok s
  | (a, e) :: r, s =>
    if bitOf e 31 then do
      let s1 ← dropRef (lodePut s d.g a 8 0) d (e % 2 ^ 24)
      clearEntries d r s1
    else clearEntries d r s

/-- An address on the reclaim ring (R286). -/
def reclaim (d : LodeDesc) (v : Nat) (s : State) : State :=
  let t := (s.lodeMem d.g).num (d.addr + 0x30) 4
  lodePut (lodePut s d.g (d.rcbase + 8 * t) 8 v) d.g (d.addr + 0x30) 4 ((t + 1) % max d.rcsize 1)

/-- The loop of R303. -/
def releaseLoop (d : LodeDesc) : Nat → Nat → State → Eng State
  | 0, _, s => .ok s
  | fuel + 1, a, s => do
    if a = 0 then pure s
    else
      let n ← nodeAt s d.g a
      let s1 := lodePut s d.g (a + 0x10) 4 (n.ref - 1)
      if 1 < n.ref then pure s1
      else
        let es ← dirEntries s1 d.g n
        let s2 ← clearEntries d es s1
        releaseLoop d fuel n.parent (reclaim d n.dir (reclaim d a s2))

/-- lrel (R303): the room is checked before any change. -/
def lrelUnit (s : State) (k : Nat) (c : Command) (key : DWord) : Eng Unit1 :=
  atPos key 0 (do
    let g := homeOf key.toNat
    let d ← lodeDesc s k g
    let q ← seqOf s d (seqIndex key.toNat)
    let ns ← freedNodes s g (2 ^ 30) q.leaf
    let n ← freedFrames s g ((ns.map (·.2)).flatten)
    if ringRoom s d < n ∨ reclaimRoom d < 2 * ns.length then lodeFault 0x0A
    else
      ringCheck s g d.ffbase d.fftail d.ffsize 4 n
      ringCheck s g d.rcbase d.rctail d.rcsize 8 (2 * ns.length)
      let s1 := lodePut s g (q.addr + 12) 4 0
      let s2 ← releaseLoop d (2 ^ 30) q.leaf s1
      pure (c.next s2 1))

/-- Whether a command holds a fill that an invalidation makes stale (R297). -/
def Command.staleBy (c : Command) (key : DWord) (all : Bool) : Bool :=
  match c.op with
  | .lget k _ _ _ =>
    c.memo.length == 3 && homeOf k.toNat == homeOf key.toNat && (all || fld k.toNat 19 0 == fld key.toNat 19 0)
  | _ => false

/-- The stale fills of a conductor's commands discarded. -/
def dropFills (key : DWord) (all : Bool) (s : State) (k : Nat) : State :=
  let cs := (s.cond k).cmds.filter (fun c => c.staleBy key all)
  let s1 := cs.foldl (fun s c => s.unpin (homeOf key.toNat) c.memo) s
  s1.modCond k (fun x => { x with cmds := x.cmds.map (fun c => if c.staleBy key all then { c with memo := [] } else c) })

/-- linv (R297, R304): every stale fill of the context is discarded. A chiplet for which the region has no descriptor
fails it (R338). -/
def linvUnit (s : State) (k : Nat) (c : Command) (key : DWord) (all : Bool) : Eng Unit1 :=
  atPos key 0 (do
    let _ ← lodeDesc s k (homeOf key.toNat)
    let ctx := s.ctxOf (.cond k)
    let ks := (s.conds.map (·.1)).filter (fun j => s.ctxOf (.cond j) == ctx && (s.cond j).region.isSome)
    pure (c.next (ks.foldl (dropFills key all) s) 1))

/-- The firmware marks a further frame META, as the host has asked (R286): one that no directory entry maps. -/
def markMeta (g : Fin 4) (f : Nat) (s : State) : State :=
  if f < 2 ^ 24 ∧ (s.lodeMem g).num (frameEntry f) 4 = 0 then lodePut s g (frameEntry f + 4) 4 1 else s

end Sys2Proof.Machine
end

