-- ==== Sys2Proof/Machine/Attn.lean ====
section
/-! DEFINITION. Attention over a lode range: the parameter block and its area, the maps, the exact scores and the
online softmax, and the edge channels (spec/15 R305 to R310). -/
namespace Sys2Proof.Machine

/-! ### Arithmetic (R308) -/

/-- n / d correctly rounded; the operands are finite or infinite, d not zero. -/
def fdiv (a b : Word) : FR :=
  let neg := signOf a != signOf b
  if isNan a || isNan b then (firstNan [a, b], 0)
  else if isInf b then (if isInf a then canonNan else zeroOf neg, 0)
  else if isInf a then (infOf neg, 0)
  else if isZero a then (zeroOf neg, 0)
  else
    let n := (val a).natAbs * 2 ^ 400
    let d := (val b).natAbs
    let q : Nat := n / d * 2 + b2n (n % d != 0)
    rnd (if neg then -(q : Int) else q) (-401)

/-- Row r, head h of a row-head pair: m, ℓ and the lanes of o. -/
structure Pair where
  m : Word
  l : Word
  o : List Word
deriving DecidableEq, Repr

def Pair.init (b : Nat) : Pair := ⟨infOf true, 0, List.replicate (24 * b) 0⟩

/-- The score of a key (R308): one rounding of the exact product; none of the operands may be a NaN. -/
def score (sigma : Word) (q k : List Block) : Word :=
  if (q ++ k).any Block.isNan || isNan sigma then canonNan
  else
    let d := (q.zip k).foldl (fun acc x => acc + dotInts x.1.dec x.2.dec) 0
    if isInf sigma then (if d = 0 then canonNan else infOf (signOf sigma != decide (d < 0)))
    else (rnd (val sigma * d) (-447)).1

/-- w × V + o, V the exact element of a block in units of 2^-149 (R308). -/
def fusedLane (w o : Word) (nan : Bool) (v : Int) : Word :=
  if isNan w || isNan o then firstNan [w, o]
  else if nan then canonNan
  else if isInf o then o
  else
    let n := val w * v + val o * (2 ^ 149 : Nat)
    if n = 0 then zeroOf (decide (v < 0) && isZero o && signOf o) else (rnd n (-298)).1

/-- Lanes of V of a slot, each with whether its block is a NaN block. -/
def slotLanes (bs : List Block) : List (Bool × Int) :=
  (bs.map (fun b => if b.isNan then List.replicate 24 (true, 0) else b.dec.map (fun x => (false, x)))).flatten

/-- One included position added to a pair (R308). -/
def Pair.addOne (m' : Word) (p : Pair) (x : Word × List Block) : Pair :=
  let w := (fexp2 (fsub x.1 m').1).1
  { p with l := (fadd p.l w).1, o := (p.o.zip (slotLanes x.2)).map (fun e => fusedLane w e.1 e.2.1 e.2.2) }

/-- A pair updated by a tile: the scores of the included positions with their V blocks, ascending (R308). -/
def Pair.update (p : Pair) (xs : List (Word × List Block)) : Pair :=
  if xs.isEmpty then p
  else
    let m' := xs.foldl (fun acc x => (reduceStep fmax acc (flush x.1)).1) p.m
    if m' = infOf true then p
    else
      let a := (fexp2 (fsub p.m m').1).1
      let p1 : Pair := ⟨p.m, (fmul p.l a).1, p.o.map (fun x => (fmul x a).1)⟩
      { xs.foldl (Pair.addOne m') p1 with m := m' }

/-- The output lanes of block b of a pair (R308). -/
def Pair.output (p : Pair) (b : Nat) : Wide :=
  if isNan p.m || isNan p.l || p.o.any isNan then Vector.replicate 24 canonNan
  else if isZero p.l then Wide.zero
  else Vector.ofFn (fun i => (fdiv (p.o.getD (24 * b + i.val) 0) p.l).1)

/-! ### The block and its area (R306) -/

/-- What a parameter block says, with its tree's geometry. -/
structure Block64 where
  key : DWord
  p0 : Nat
  p1 : Nat
  cmap : DWord
  bmap : DWord
  sigma : Word
  nq : Nat
  qch : Fin 8
  rch : Fin 8
  state : Nat
  cpos : Nat
  fmt : Nat
  heads : Nat
  blocks : Nat
deriving DecidableEq, Repr

def Block64.from (bs : List Byte) (fmt geom : Nat) : Block64 :=
  let n (o k : Nat) : Nat := leNat ((bs.drop o).take k)
  { key := dwn (n 0 8), p0 := n 8 4, p1 := n 12 4, cmap := dwn (n 16 8), bmap := dwn (n 24 8)
    sigma := BitVec.ofNat 32 (n 32 4), nq := n 0x24 1, qch := Fin.ofNat 8 (n 0x25 1), rch := Fin.ofNat 8 (n 0x26 1)
    state := n 0x27 1, cpos := n 0x28 4, fmt := fmt, heads := geom / 16, blocks := geom % 16 }

namespace Block64

def t0 (b : Block64) : Nat := b.p0 / 16
def t1 (b : Block64) : Nat := (b.p1 - 1) / 16
def bs (b : Block64) : Nat := blockSize (b.fmt == 1)
def queries (b : Block64) : Nat := b.nq * b.heads * b.blocks
def pairs (b : Block64) : Nat := b.nq * b.heads
def pairOff (b : Block64) : Nat := roundUp (0x40 + b.queries * b.bs) 8
def pairSize (b : Block64) : Nat := 8 + 96 * b.blocks
/-- The end marker T1 + 1, also for an empty range at position 0. -/
def stop (b : Block64) : Nat := (b.p1 + 15) / 16
/-- Bytes of the block and the area. -/
def size (b : Block64) : Nat := b.pairOff + b.pairs * b.pairSize
/-- Tiles of the range. -/
def tiles (b : Block64) : Nat := if b.p0 < b.p1 then b.t1 + 1 - b.t0 else 0

end Block64

/-- The key words of K and V of the block's sequence (R281, R306). -/
def kvKey (key : DWord) (v : Bool) : DWord := dwn (fld key.toNat 33 0 + b2n v * 2 ^ 34)

/-- A pair as the area holds it (R306). -/
def Pair.bytes (p : Pair) : List Byte :=
  leBytes 4 p.m.toNat ++ leBytes 4 p.l.toNat ++ (p.o.map (fun w => leBytes 4 w.toNat)).flatten

def wordsOf (bs : List Byte) (n : Nat) : List Word :=
  (List.range n).map (fun i => BitVec.ofNat 32 (leNat ((bs.drop (4 * i)).take 4)))

def pairFrom (bs : List Byte) (blocks : Nat) : Pair :=
  let ws := wordsOf bs (2 + 24 * blocks)
  ⟨ws.getD 0 0, ws.getD 1 0, ws.drop 2⟩

/-- The pairs of an area image. -/
def pairsFrom (b : Block64) (img : List Byte) : List Pair :=
  (List.range b.pairs).map (fun i => pairFrom (img.drop (b.pairOff + i * b.pairSize)) b.blocks)

/-- Blocks of a head in a slot or a query row (R283). -/
def headBlocks (b : Block64) (bs : List Byte) (h : Nat) : List Block :=
  (List.range b.blocks).map (fun j => blockFrom (b.fmt == 1) (bs.drop ((h * b.blocks + j) * b.bs)))

/-- Query blocks of a pair. -/
def queryBlocks (b : Block64) (img : List Byte) (g : Nat) : List Block := headBlocks b (img.drop 0x40) g

/-! ### Maps (R307) -/

/-- The code of the i-th tile of the range. -/
def tileCode (cm : List Byte) (i : Nat) : Nat := (cm.getD (i / 4) 0).toNat / 4 ^ (i % 4) % 4

/-- Partial tiles before the i-th. -/
def partialBefore (cm : List Byte) (i : Nat) : Nat := ((List.range i).filter (fun j => tileCode cm j == 2)).length

/-- The positions of tile t that a row includes. -/
def included (b : Block64) (code : Nat) (bits : List Byte) (t r : Nat) : List Nat :=
  ((List.range 16).map (fun u => 16 * t + u)).filter (fun p =>
    decide (b.p0 ≤ p) && decide (p < b.p1) &&
      (code == 1 || (code == 2 && bitOf (leNat ((bits.drop (2 * r)).take 2)) (p - 16 * t))))

/-! ### Edge channels (R305, R309) -/

/-- The channel of the command's running clause that ends, or begins, at a slot of a chiplet's edge. -/
def edgeChan (s : State) (k : Nat) (c : Command) (g : Fin 4) (slot : Fin 8) (query : Bool) : Option (Nat × Nat × Nat) :=
  match (s.cond k).region, c.run.orElse (fun _ => s.runningClause k) with
  | some q, some n =>
    match s.clauseAt q n with
    | none => none
    | some cl =>
      (cl.chans.findIdx? (fun ch => (if query then ch.dst else ch.src) == End.edge g slot)).map (fun i => (q, n, i))
  | _, _ => none

def chanType (s : State) (x : Nat × Nat × Nat) : Nat := ((s.getChan x.1 x.2.1 x.2.2).map (·.ttype)).getD 15

/-! ### Units -/

/-- A range of the block's memory: in the conductor's extents, by R158 (R309). -/
def attnRange (s : State) (k : Nat) (key v : DWord) (n : Nat) (write : Bool) : Eng Unit :=
  if n = 0 then .ok ()
  else
    match checkAddr s (.cond k) v n 1 write false with
    | .ok _ => .ok ()
    | .error _ => .error (.fail ⟨.lodefault, 0x06, key, some v⟩)

/-- What an attn keeps from its dispatch: the format and the geometry of its tree, and the image of its block and area. -/
def Command.image (c : Command) : List Byte := (c.memo.drop 2).map (fun n => BitVec.ofNat 8 n)
def Block64.memo (b : Block64) (bs : List Byte) : List Nat := b.fmt :: (16 * b.heads + b.blocks) :: bs.map (·.toNat)

/-- Bytes put into an image. -/
def patch (img : List Byte) (off : Nat) (bs : List Byte) : List Byte := img.take off ++ bs ++ img.drop (off + bs.length)

/-- The block's leaf, for its geometry (R288). -/
def blockLeaf (s : State) (k : Nat) (key : DWord) : Eng (Seq × Node) := do
  let d ← lodeDesc s k (homeOf key.toNat)
  let q ← seqOf s d (seqIndex key.toNat)
  let n ← nodeAt s d.g q.leaf
  pure (q, n)

/-- The fields of a block that must hold (R292, R306). NQ outside 1 to 16 gives 0x06, and P0 above P1 gives 0x02 with the
other checks of positions; the manual names no code for either (DESIGN CHOICE, log entry 79). -/
def blockLegal (bs : List Byte) : Eng Unit :=
  let n (o k : Nat) : Nat := leNat ((bs.drop o).take k)
  if 3 < n 0x27 1 then lodeFault 0x0C
  else if fld (n 0 8) 63 35 ≠ 0 ∨ 7 < n 0x25 1 ∨ 7 < n 0x26 1 ∨ n 0x2C 20 ≠ 0 ∨ n 0x24 1 = 0 ∨ 16 < n 0x24 1 then
    lodeFault 0x06
  else .ok ()

/-- STATE and CPOS written to the block, in memory and in the image (R306). -/
def putState (s : State) (k : Nat) (c : Command) (blk : DWord) (img : List Byte) (st cpos : Nat) :
    Eng (State × List Byte) := do
  let bs := leBytes 1 st ++ leBytes 4 cpos
  let s1 ← engWrite s k c (blk + 0x27) bs false
  pure (s1, patch img 0x27 bs)

/-- The checks at a dispatch (R309): the block and the area are read; a fresh block begins to gather. A failure that is of no
tile and of no check of R309 reports 16·floor(P0 / 16) as its position (DESIGN CHOICE, log entry 79). -/
def attnStart (s : State) (k : Nat) (c : Command) (blk : DWord) : Eng Unit1 := do
  let (hd, s1) ← engRead s k c blk 64
  let key := dwn (leNat (hd.take 8))
  let p0 := leNat ((hd.drop 8).take 4)
  atPos key (p0 / 16 * 16) (do
    blockLegal hd
    let (q, n) ← blockLeaf s1 k key
    let b := Block64.from hd n.fmt n.geom
    if b.p1 < b.p0 ∨ q.fin < b.p1 then lodeFault 0x02
    else
      attnRange s1 k key blk b.size true
      attnRange s1 k key b.cmap (ceilDiv b.tiles 4) false
      let (cm, s2) ← engRead s1 k c b.cmap (ceilDiv b.tiles 4)
      attnRange s2 k key b.bmap (2 * b.nq * partialBefore cm b.tiles) false
      let g := homeOf key.toNat
      match edgeChan s2 k c g b.qch true, edgeChan s2 k c g b.rch false with
      | some y, some _ =>
        if chanType s2 y ≠ 4 + b.fmt then .error (.fail ⟨.lodefault, 0x06, key, some (dwn b.p0)⟩)
        else
          let (img, s3) ← engRead s2 k c blk b.size
          if b.state = 0 then
            let (s4, img') ← putState s3 k c blk img 1 0
            pure ⟨s4, 1, b.memo img'⟩
          else pure ⟨s3, 1, b.memo img⟩
      | _, _ => lodeFault 0x0C)

/-- STATE 1: a query token popped into the area, or the tiles begun (R309); an uncorrectable token fails the command as an
engine read does (R276). -/
def attnGather (s : State) (k : Nat) (c : Command) (blk : DWord) (b : Block64) (img : List Byte) : Eng Unit1 := do
  if b.cpos < b.queries then
    match edgeChan s k c (homeOf b.key.toNat) b.qch true with
    | none => lodeFault 0x0C
    | some (q, n, i) =>
      match ((s.getChan q n i).map (·.edge)).getD [] with
      | [] => throw .wait
      | e :: rest =>
        match e.item with
        | .data t =>
          let bs := t.blockVal.bytes (b.fmt == 1)
          let off := 0x40 + b.cpos * b.bs
          let s1 := s.modChan q n i (fun ch =>
            { ch with edge := rest, hops := modAt ch.hops (ch.hops.length - 1) (fun h => h.free1 s.cycle) })
          let s2 ← engWrite s1 k c (blk + dwn off) bs false
          let (s3, img') ← putState s2 k c blk (patch img off bs) 1 (b.cpos + 1)
          pure ⟨s3, 1, b.memo img'⟩
        | .failed x v => throw (.fail ⟨x, 0, v, none⟩)
        | .trapped x v _ => throw (.fail ⟨x, 0, v, none⟩)
        | .drain | .marker _ => lodeFault 0x0C
  else
    let area := (List.replicate b.pairs (Pair.init b.blocks).bytes).flatten
    let s1 ← engWrite s k c (blk + dwn b.pairOff) area false
    let (s2, img') ← putState s1 k c blk (patch img b.pairOff area) 2 (if b.p0 < b.p1 then b.t0 else b.stop)
    pure ⟨s2, 1, b.memo img'⟩

/-- The K or V slots of some positions, resolved one after the other (R291, R309). -/
def tileSlots (s : State) (k : Nat) (key : DWord) : List Nat → Eng (List (Nat × List Byte) × State)
  | [] => .ok ([], s)
  | t :: r => do
    let (f, s1) ← keeping s (walkLode s k key t)
    let bs ← keeping s1 (lodeRead s1 (homeOf key.toNat) (slotAt f.frame (t % 16)) 240)
    let (l, s2) ← tileSlots s1 k key r
    pure ((t, bs) :: l, s2)

/-- A pair updated by a tile whose slots are resolved. -/
def tilePair (b : Block64) (img : List Byte) (us : Nat → List Nat) (ks vs : List (Nat × List Byte)) (p : Pair × Nat) :
    Pair :=
  let r := p.2 / b.heads
  let h := p.2 % b.heads
  let find (l : List (Nat × List Byte)) (t : Nat) : List Byte := ((l.find? (fun e => e.1 == t)).map (·.2)).getD []
  p.1.update ((us r).map (fun t =>
    (score b.sigma (queryBlocks b img p.2) (headBlocks b (find ks t) h), headBlocks b (find vs t) h)))

/-- STATE 2: one tile, or on to the results (R309). -/
def attnTile (s : State) (k : Nat) (c : Command) (blk : DWord) (b : Block64) (img : List Byte) : Eng Unit1 := do
  let t := b.cpos
  if b.p0 < b.p1 ∧ t ≤ b.t1 then
    let i := t - b.t0
    let (cm, s1) ← engRead s k c b.cmap (i / 4 + 1)
    let code := tileCode cm i
    if code = 3 then lodeFault 0x05
    else
      let off := 2 * b.nq * partialBefore cm i
      let (bits, s2) ← if code = 2 then engRead s1 k c (b.bmap + dwn off) (2 * b.nq) else pure ([], s1)
      let us (r : Nat) : List Nat := included b code bits t r
      let all := ((List.range 16).map (fun u => 16 * t + u)).filter (fun p => (List.range b.nq).any (fun r => (us r).contains p))
      let (ks, s3) ← tileSlots s2 k (kvKey b.key false) all
      let (vs, s4) ← tileSlots s3 k (kvKey b.key true) all
      let ps := ((pairsFrom b img).zipIdx).map (tilePair b img us ks vs)
      let area := (ps.map Pair.bytes).flatten
      let (s6, img') ← keeping s4 (do
        let s5 ← engWrite s4 k c (blk + dwn b.pairOff) area false
        putState s5 k c blk (patch img b.pairOff area) 2 (t + 1))
      pure ⟨s6, 1, b.memo img'⟩
  else
    let (s1, img') ← putState s k c blk img 3 0
    pure ⟨s1, 1, b.memo img'⟩

/-- STATE 3: one result pushed, or the end (R309). -/
def attnResult (s : State) (k : Nat) (c : Command) (blk : DWord) (b : Block64) (img : List Byte) : Eng Unit1 := do
  if b.cpos < b.pairs * b.blocks then
    match edgeChan s k c (homeOf b.key.toNat) b.rch false with
    | none => lodeFault 0x0C
    | some (q, n, i) =>
      match s.getChan q n i with
      | none => lodeFault 0x0C
      | some ch =>
        if ((ch.hops.head?).map (·.free)).getD 0 = 0 then throw .wait
        else
          let p := (pairsFrom b img).getD (b.cpos / b.blocks) (Pair.init b.blocks)
          let e : Entry := ⟨.data (.wide (p.output (b.cpos % b.blocks))), ch.pushed, chanIdx ch.pushed, 0⟩
          let s1 := s.modChan q n i (fun ch =>
            { ch with edge := ch.edge ++ [e], pushed := ch.pushed + 1,
                      hops := modAt ch.hops 0 (fun h => { h with free := h.free - 1 }) })
          let (s2, img') ← putState s1 k c blk img 3 (b.cpos + 1)
          pure ⟨s2, 1, b.memo img'⟩
  else
    let (s1, img') ← putState s k c blk img 0 b.cpos
    pure ⟨s1, 2, b.memo img'⟩

/-- attn (R309, R310): the next unit by STATE and CPOS, with the geometry that its dispatch has read. -/
def attnUnit (s : State) (k : Nat) (c : Command) (blk : DWord) : Eng Unit1 :=
  if c.prog = 0 then attnStart s k c blk
  else
    let img := c.image
    let key := dwn (leNat (img.take 8))
    let st := (img.getD 0x27 0).toNat
    let cpos := leNat ((img.drop 0x28).take 4)
    let p0 := leNat ((img.drop 8).take 4)
    atPos key (if st = 2 then 16 * cpos else p0 / 16 * 16) (do
      let b := Block64.from img (c.memo.getD 0 0) (c.memo.getD 1 0)
      match st with
      | 1 => attnGather s k c blk b img
      | 2 => attnTile s k c blk b img
      | _ => attnResult s k c blk b img)

end Sys2Proof.Machine
end

