-- ==== Sys2Proof/Machine/Running.lean ====
section
/-! DEFINITION. Commands as they run: dispatch, progress unit by unit, completion with its signal and arrival, and
failure with its record (spec/07 R178 to R180, R190, R191; spec/12 R256; spec/13 R267, R268; spec/15 R292). -/
namespace Sys2Proof.Machine

/-- Units of a command, in the measure of its progress. -/
def Command.total (c : Command) : Nat :=
  match c.op with
  | .nopl | .clause _ _ | .cwait _ => 0
  | .spat _ _ _ | .xmap _ _ | .rolemap _ | .lfork _ | .lshare _ _ _ _ | .lrel _ | .linv _ _ => 1
  | .attn _ => 2
  | .copy _ _ len _ | .fill _ _ len _ | .seamw _ _ len => len.toNat
  | .fprint _ _ n _ | .reduce _ _ n _ _ => n.toNat
  | .cmpr _ _ _ _ len => len + 1
  | .gather _ _ _ _ _ n | .scatter _ _ _ _ _ n => n
  | .rcopy _ _ len _ pull _ => if pull then 2 * rcopyPackets len.toNat - c.memo.headD 0 else rcopyPackets len.toNat + 1
  | .lapp _ _ rng | .lput _ _ rng | .lget _ _ rng _ => slotCount rng + 1

/-- The next unit of a command. -/
def cmdUnit (s : State) (k : Nat) (c : Command) : Eng Unit1 :=
  match c.op with
  | .nopl | .clause _ _ | .cwait _ => .ok (c.next s 0)
  | .spat t p bad => spatUnit s k c t p bad
  | .copy d b len o => copyUnit s k c d b len.toNat (optFe o)
  | .fill d v _ o => fillUnit s k c d v (optFe o)
  | .fprint b d _ fe => fprintUnit s k c b d fe
  | .cmpr a b d fe len => cmprUnit s k c a b d fe len
  | .gather d b x o esz _ => gatherUnit s k c d b x (optFe o) esz
  | .scatter d b x fe esz _ => scatterUnit s k c d b x fe esz
  | .rcopy l r len port pull key => rcopyUnit s k c l r len.toNat port pull key
  | .reduce d b _ o op => reduceUnit s k c d b (optFe o) op
  | .seamw d b len => seamUnit s k c d b len.toNat
  | .xmap v z => xmapUnit s k c v z
  | .rolemap v => rolemapUnit s k c v
  | .attn b => attnUnit s k c b
  | .lfork b => lforkUnit s k c b
  | .lapp key mem rng => slotIn s k c key mem rng true
  | .lput key mem rng => slotIn s k c key mem rng false
  | .lget key mem rng o => slotOut s k c key mem rng (optFe o)
  | .lshare key f pos ext => lshareUnit s k c key f pos ext
  | .lrel key => lrelUnit s k c key
  | .linv key all => linvUnit s k c key all

/-- A conductor's outstanding command by its number. -/
def State.cmd (s : State) (k id : Nat) : Option Command := (s.cond k).cmds.find? (fun c => c.id == id)

/-- A command that has failed: its fill is given up and its transfer forgotten (R180, R295). -/
def State.failCmd (s : State) (k : Nat) (c : Command) (f : CmdFault) : State :=
  let s1 := match c.op with
    | .lget key _ _ _ => s.unpin (homeOf key.toNat) c.memo
    | .rcopy _ _ _ port _ _ =>
      s.modLink port (fun l => { l with transfers := l.transfers.filter (fun t => t.cond != k || t.cmd != c.id) })
    | _ => s
  s1.modCmd k c.id (fun x =>
    { x with failed := some f, onEngine := none, memo := (match c.op with | .attn _ => x.memo | _ => []) })

/-- Whether a command may move: dispatched, not failed, and units left. -/
def Command.moving (c : Command) : Bool := c.dispatched && c.failed.isNone && decide (c.prog < c.total)

/-- How many commands an engine kind runs at once (R2, R299). -/
def EngineKind.places : EngineKind → Nat
  | .copy => 24
  | .lode _ => 16

/-- The engine that runs a command, if one does; the key word of attn and of lfork stands in its block, without which they
cannot move. -/
def Command.engine (s : State) (k : Nat) (c : Command) : Option EngineKind :=
  let block (v : DWord) : Option (List Byte) := match engRead s k c v 64 with | .ok r => some r.1 | .error _ => none
  match c.op with
  | .copy _ _ _ _ | .fill _ _ _ _ | .fprint _ _ _ _ | .cmpr _ _ _ _ _ | .gather _ _ _ _ _ _ | .scatter _ _ _ _ _ _
  | .reduce _ _ _ _ _ | .rcopy _ _ _ _ _ _ | .seamw _ _ _ => some .copy
  | .lapp key _ _ | .lput key _ _ | .lget key _ _ _ | .lshare key _ _ _ | .lrel key | .linv key _ =>
    some (.lode (homeOf key.toNat))
  | .lfork b => (block b).map (fun bs => .lode (homeOf (forkBlock bs).key.toNat))
  | .attn b =>
    (if c.memo.isEmpty then block b else some c.image).map (fun bs => .lode (homeOf (leNat (bs.take 8))))
  | _ => none

/-- A command before it moves: it holds a place of its engine, or takes one that is free (R2, R299). -/
def State.takeEngine (s : State) (k : Nat) (c : Command) : Option State :=
  match c.onEngine, c.engine s k with
  | none, some e =>
    let busy := s.conds.foldl (fun n x => n + (x.2.cmds.filter (fun y => y.onEngine == some e)).length) 0
    if busy < e.places then some (s.modCmd k c.id (fun x => { x with onEngine := some e })) else none
  | _, _ => some s

/-- Up to `n` units of a command; it stops where it must wait, at a missing page, or where it fails (R180). -/
def runCmd (k id : Nat) : Nat → State → State
  | 0, s => s
  | n + 1, s =>
    match s.cmd k id with
    | none => s
    | some c =>
      if c.moving then
        match s.takeEngine k c with
        | none => s
        | some s =>
          match cmdUnit s k c with
          | .ok u => runCmd k id n (u.s.modCmd k id (fun x => { x with prog := u.prog, memo := u.memo }))
          | .error .wait => s
          | .error (.page m) => s.missPageFor (.cond k) m c.clause
          | .error (.fail f) => s.failCmd k c f
          | .error (.bad p f) => (s.noteUe p).failCmd k c f
          | .error (.after s' p f) =>
            ((p.map s'.noteUe).getD s').failCmd k { c with memo := (match c.op with | .lget _ _ _ _ => [] | _ => c.memo) } f
      else s

/-- Whether a region stands still for its save (R351). -/
def State.still (s : State) (k : Nat) : Bool :=
  match (s.cond k).region.bind s.region with
  | none => true
  | some r => (match r.phase with | .saving => true | _ => false)

/-- A command moves up to n units (log entry 1). -/
def beat (k slot n : Nat) (s : State) : State :=
  match (s.cond k).cmds[slot]? with
  | none => s
  | some c => if s.still k then s else runCmd k c.id n s

/-! ### Dispatch -/

/-- Lode commands, which a pre-copy holds from dispatch (R351). -/
def CmdOp.isLode : CmdOp → Bool
  | .attn _ | .lfork _ | .lapp _ _ _ | .lput _ _ _ | .lget _ _ _ _ | .lshare _ _ _ _ | .lrel _ | .linv _ _ => true
  | _ => false

def CmdOp.isClause : CmdOp → Bool
  | .clause _ _ => true
  | _ => false

/-- Whether fewer than two earlier clauses are unfinished (R190). -/
def Region.mayLoad (r : Region) (n : Nat) : Bool :=
  decide (((List.range n).filter (fun m => !r.completed.contains m)).length < 2)

/-- Whether the phase of the region lets a command dispatch (R219, R349, R351). -/
def Phase.lets (p : Phase) (op : CmdOp) : Bool :=
  match p with
  | .running => true
  | .drain _ => !op.isClause
  | .preCopy _ _ => !op.isLode
  | .saving | .killed => false

def CmdOp.isCwait : CmdOp → Bool
  | .cwait _ => true
  | _ => false

def CmdOp.isRolemap : CmdOp → Bool
  | .rolemap _ => true
  | _ => false

/-- Whether an undispatched command may dispatch (R178, R190, R256); a clause dispatches after the role maps that have
dispatched before it are installed (R192, log entry 67). -/
def State.mayDispatch (s : State) (k : Nat) (c : Command) : Bool :=
  match (s.cond k).region with
  | none => false
  | some q =>
    match s.region q with
    | none => false
    | some r =>
      (match c.wait with | some w => decide (w.thr.toNat ≤ s.semCount q w.sem) | none => true) &&
        (s.cond k).hart.pend.all (fun p => decide (c.upto ≤ p.seq) || decide (2 ≤ p.level)) &&
        r.phase.lets c.op &&
        (!c.op.isClause || (r.mayLoad c.clause.toNat && r.clusters.all (fun j => (s.cond j).cmds.all (fun d =>
          !(d.dispatched && d.failed.isNone && d.op.isRolemap)))))

/-- A completed command leaves, with its signal (R179); the cwait that the conductor waits in retires (R191). -/
def State.finishCmd (s : State) (k : Nat) (c : Command) : State :=
  let s1 := s.modCond k (fun x => { x with cmds := x.cmds.filter (fun y => y.id != c.id) })
  let s2 := match c.signal, (s1.cond k).region with
    | some g, some q => s1.addSem q g.sem g.inc.toNat
    | _, _ => s1
  match c.op with
  | .cwait _ =>
    let h := s2.hart (.cond k)
    if h.hold = some .cwait ∧ h.pc = c.pc then s2.retireBy (.cond k) 16 else s2
  | .rcopy _ _ _ port _ _ =>
    s2.modLink port (fun l => { l with transfers := l.transfers.filter (fun t => t.cond != k || t.cmd != c.id) })
  | _ => s2

/-- A conductor's dispatched `clause` command number n (R190). -/
def State.clauseCmd (s : State) (k n : Nat) : Option Command :=
  (s.cond k).cmds.find? (fun c => c.op.isClause && c.clause.toNat == n && c.dispatched && c.failed.isNone)

/-- The last of the `clause` commands of load n has dispatched: from then on the load may begin, and it takes the role map
in force now (R192, R204, R207, log entry 67). -/
def State.fixMap (s : State) (r : Region) (n : Nat) : State :=
  if r.clusters.all (fun k => (s.clauseCmd k n).isSome) then
    match s.clauseCmd (r.clusters.headD 0) n with
    | some c => s.modCmd (r.clusters.headD 0) c.id (fun x => { x with memo := s.roleMapOf r })
    | none => s
  else s

/-- COMMAND_DISPATCH (R178): the oldest command that has not dispatched; nopl completes at once (R193). -/
def execCommandDispatch (cond : Nat) (s : State) : Out :=
  match (s.cond cond).cmds.find? (fun c => !c.dispatched) with
  | none => .next s
  | some c =>
    if s.mayDispatch cond c then
      match c.op with
      | .nopl => .next (s.finishCmd cond c)
      | .clause _ _ =>
        let s1 := s.modCmd cond c.id (fun x => { x with dispatched := true })
        .next (match (s1.cond cond).region.bind s1.region with | some r => s1.fixMap r c.clause.toNat | none => s1)
      | _ => .next (s.modCmd cond c.id (fun x => { x with dispatched := true, run := s.runningClause cond }))
    else .next s

/-! ### Completion and failure -/

/-- Whether a rejected clause's commands have all failed (R191). -/
def State.rejecting (s : State) (r : Region) (n : Nat) : Bool :=
  r.clusters.any (fun j => (s.cond j).cmds.any (fun c =>
    c.op.isClause && c.clause.toNat == n && (match c.failed with | some f => decide (f.code ≤ 0x0B) | none => false)))

/-- Whether a command whose units are done has what else it waits for; a clause command completes with its clause. -/
def State.cmdReady (s : State) (k : Nat) (c : Command) : Bool :=
  match c.op with
  | .spat _ _ _ => c.ready
  | .clause _ _ => false
  | .rcopy _ _ _ _ pull _ => c.ready || pull
  | .cwait n =>
    match (s.cond k).region.bind s.region with
    | none => false
    | some r => r.completed.contains n.toNat && !s.rejecting r n.toNat
  | _ => true

/-- The option field and the destination of a command that may send an arrival (R179). -/
def CmdOp.arr : CmdOp → Option (BitVec 6 × DWord)
  | .copy d _ _ o | .fill d _ _ o | .gather d _ _ o _ _ | .reduce d _ _ o _ | .lget _ d _ o =>
    if o.getLsbD 4 then some (o, d) else none
  | _ => none

/-- The arrival of a finished command sent to its destination cell (R179); a wait or a failure instead (R181). -/
def sendArrival (s : State) (k : Nat) (c : Command) : Eng State :=
  match c.op.arr with
  | none => .ok s
  | some (o, d) => do
    let p ← roleCell s k c.run d
    pure (s.modCell p (fun x => { x with arriving := x.arriving ++ [Fin.ofNat 16 (o.toNat % 16)] }))

/-- COMMAND_COMPLETE (R179): what is left of the command is done, its arrival sent and its signal applied. -/
def execCommandComplete (cond slot : Nat) (s : State) : Out :=
  match (s.cond cond).cmds[slot]? with
  | none => .next s
  | some c0 =>
    if s.still cond then .next s
    else
      let s1 := runCmd cond c0.id (2 ^ 49) s
      match s1.cmd cond c0.id with
      | none => .next s1
      | some c =>
        if c.dispatched && c.failed.isNone && decide (c.total ≤ c.prog) && s1.cmdReady cond c then
          match sendArrival s1 cond c with
          | .ok s2 => .next (s2.finishCmd cond c)
          | .error (.fail f) => .next (s1.failCmd cond c f)
          | .error _ => .next s1
        else .next s1

/-- XADDR of an address of a command (R267). -/
def State.xaddrFor (s : State) (k : Nat) (v : DWord) : DWord :=
  if 2 ^ 48 ≤ v.toNat then 0
  else
    match s.extentNo (.cond k) (fld v.toNat 47 40) with
    | none => 0
    | some e => xaddrOf (s.extents (.cond k)) e.space (e.base + fld v.toNat 39 0)

/-- The record of a failed command (R267, R292). -/
def State.failRecord (s : State) (k : Nat) (c : Command) (f : CmdFault) : Record where
  cause := f.cause
  src := 6
  code := f.code
  stage := false
  ctx := 0
  role := 0
  port := none
  addr := f.addr
  xaddr := f.xaddr.getD (s.xaddrFor k f.addr)
  pc := c.pc
  seq := 0
  idx := Idx.zero
  clause := c.clause
  nestCell := none

/-- COMMAND_FAIL (R180): a command that fails, or has failed, leaves with a record once the queue has a place
(R268); it applies no signal and sends no arrival. -/
def execCommandFail (cond slot : Nat) (s : State) : Out :=
  match (s.cond cond).cmds[slot]? with
  | none => .next s
  | some c0 =>
    let s1 := if s.still cond then s else runCmd cond c0.id (2 ^ 49) s
    match s1.cmd cond c0.id with
    | none => .next s1
    | some c =>
      match c.failed with
      | none => .next s1
      | some f =>
        if 16 ≤ (s1.cond cond).records.length then .next s1
        else
          .next ((s1.modCond cond (fun x => { x with cmds := x.cmds.filter (fun y => y.id != c.id) })).sendRecord cond
            (s1.failRecord cond c f))

end Sys2Proof.Machine
end

