-- ==== Sys2Proof/Machine/Image.lean ====
section
/-! DEFINITION. Reading and checking a clause image: the header and tables of R201 to R203, and the loader's codes of
R208, R236, R237, R305 and R376. -/
namespace Sys2Proof.Machine

/-- Why the loader rejects an image, a code of R208. -/
abbrev Load (α : Type) := Except Nat α

def reject {α : Type} (code : Nat) : Load α := .error code
def require (code : Nat) (b : Bool) : Load Unit := if b then .ok () else .error code

/-- A little-endian field of an image. -/
def imgNum (b : List Byte) (o n : Nat) : Nat := leNat ((b.drop o).take n)

/-- The header of a clause image (R201). -/
structure Header where
  nrole : Nat
  iters : Nat
  est : Nat
  seam : Nat
  next : Nat
  nchan : Nat
  ncpl : Nat
  npat : Nat
  len : Nat
  roleoff : Nat
  chanoff : Nat
  cploff : Nat
  patoff : Nat
  extoff : Nat
deriving DecidableEq, Repr

def headerOf (b : List Byte) : Header where
  nrole := imgNum b 2 2
  iters := imgNum b 4 4
  est := imgNum b 8 4
  seam := imgNum b 0xC 1
  next := imgNum b 0xD 1
  nchan := imgNum b 0xE 2
  ncpl := imgNum b 0x10 2
  npat := imgNum b 0x12 2
  len := imgNum b 0x14 4
  roleoff := imgNum b 0x18 4
  chanoff := imgNum b 0x1C 4
  cploff := imgNum b 0x20 4
  patoff := imgNum b 0x24 4
  extoff := imgNum b 0x28 4

/-- A table offset (R201). -/
def tableOk (h : Header) (off size n : Nat) : Bool := off % 8 == 0 && (n == 0 || decide (off + size * n ≤ h.len))

/-- Code 0x01; a count of 0 roles or iterations and a LEN beyond the launch extent give it too (DESIGN CHOICE, log entry 76). -/
def headerLegal (b : List Byte) (h : Header) : Bool :=
  imgNum b 0 2 == 1 && decide (h.seam ≤ 1) && imgNum b 0x2C 20 == 0 && decide (1 ≤ h.nrole) && decide (h.nrole ≤ 768)
    && h.iters != 0 && decide (h.nchan ≤ 4096) && decide (h.ncpl ≤ h.nchan) && decide (h.npat ≤ 6144)
    && h.len % 64 == 0 && decide (64 ≤ h.len) && decide (h.len ≤ b.length)
    && tableOk h h.roleoff 0xB0 h.nrole && tableOk h h.chanoff 16 h.nchan && tableOk h h.cploff 8 h.ncpl
    && tableOk h h.patoff 80 h.npat && tableOk h h.extoff 32 h.next

/-! ### Roles (code 0x03) -/

/-- A port byte (R202). -/
def portByteOk (p : Byte) : Bool := !p.getLsbD 7 && (p == 0 || (p.getLsbD 5 && decide (p.toNat % 16 ≤ 7)))
def portUsed (p : Byte) : Bool := p.getLsbD 5
def portChan (p : Byte) : Bool := p.getLsbD 6
def portIn (p : Byte) : Bool := p.getLsbD 4
def portType (p : Byte) : Nat := p.toNat % 16

def StageDesc.none : StageDesc := ⟨false, false, 0, 0, 0, 0, 0, 0, 0, 0, List.replicate 8 0, 0⟩

/-- A stage descriptor (R202). -/
def stageOf (b : List Byte) : Load StageDesc :=
  let n := imgNum b
  let sf := n 0x16 1
  if bitOf sf 0 = false then
    if (b.take 40).all (· == 0) then .ok StageDesc.none else reject 3
  else
    let ports := (b.drop 0x18).take 8
    let ok := n 0 4 % 4 == 0 && decide (n 0 4 < 0x80000) && n 4 4 % 4 == 0 && decide (n 8 4 + n 0xC 4 ≤ 0x80000)
      && decide (0x100 ≤ n 0x12 2) && decide (n 0x12 2 ≤ n 0x10 2) && decide (n 0x10 2 ≤ n 0x14 2)
      && decide (n 0x14 2 ≤ 0xFF00) && decide (sf < 4) && decide (n 0x17 1 < 16) && (bitOf sf 1 || n 0x17 1 == 0)
      && n 0x20 1 % 2 == 0 && n 0x21 7 == 0 && ports.all portByteOk
    if ok then
      .ok ⟨true, bitOf sf 1, n 0 4, n 4 4, n 8 4, n 0xC 4, BitVec.ofNat 16 (n 0x10 2), BitVec.ofNat 16 (n 0x12 2),
        BitVec.ofNat 16 (n 0x14 2), n 0x17 1, ports, n 0x20 1⟩
    else reject 3

/-- A role entry (R202); contents beyond LEN give 0x03 (DESIGN CHOICE, log entry 76). -/
def roleEntry (b : List Byte) (len off : Nat) : Load RoleDesc := do
  let io := imgNum b off 4
  let il := imgNum b (off + 4) 4
  let fl := imgNum b (off + 8) 4
  require 3 (io % 8 == 0 && decide (il ≤ 0x80000) && decide (io + il ≤ len) && decide (fl ≤ 1) && imgNum b (off + 12) 4 == 0)
  let st ← (List.range 4).mapM (fun c => stageOf (b.drop (off + 16 + 40 * c)))
  pure ⟨io, il, fl == 1, st⟩

/-- The stages of a role. -/
def RoleDesc.stage (r : RoleDesc) (c : Nat) : StageDesc := r.stages.getD c StageDesc.none
/-- An idle role has no present stage (R229). -/
def RoleDesc.idle (r : RoleDesc) : Bool := r.stages.all (fun s => !s.present)

/-- The byte of a port of a role, 0 when there is no such stage. -/
def portByte (rs : List RoleDesc) (r : Nat) (c : Fin 4) (q : Fin 8) : Byte :=
  match rs[r]? with
  | none => 0
  | some d => (d.stage c.val).ports.getD q.val 0

/-! ### Extents (code 0x08) -/

/-- An extent entry (R77, R203). -/
def extentEntry (b : List Byte) (off : Nat) : Load Extent :=
  let n (o k : Nat) : Nat := imgNum b (off + o) k
  let fl := n 2 1
  let sp : Option Space := match n 1 1 with
    | 0 => some .bulk
    | 1 => some .seam
    | 2 => some .host
    | 3 => some .peer
    | _ => none
  match sp with
  | none => reject 8
  | some sp =>
    if n 0 1 ≠ 0 ∧ fl < 8 ∧ n 3 5 = 0 ∧ n 8 8 % 2 ^ 16 = 0 ∧ n 0x10 8 % 2 ^ 16 = 0 ∧ 2 ^ 16 ≤ n 0x10 8 ∧
        n 0x10 8 ≤ 2 ^ 40 ∧ (sp = .peer ∨ n 0x18 8 = 0) then
      .ok ⟨n 0 1, sp, bitOf fl 0, bitOf fl 1, bitOf fl 2, n 8 8, n 0x10 8, dwn (n 0x18 8)⟩
    else reject 8

/-- No index stands twice. -/
def distinct : List Nat → Bool
  | [] => true
  | x :: xs => !xs.contains x && distinct xs

/-- An extent table; `used` indices may not be declared. -/
def extentTable (b : List Byte) (off n : Nat) (used : List Nat) : Load (List Extent) := do
  let es ← (List.range n).mapM (fun i => extentEntry b (off + 32 * i))
  require 8 (distinct (used ++ es.map (·.idx)))
  pure es

/-- The extent declared under an index, as its entry stands, checked or not. -/
def rawExtent (b : List Byte) (h : Header) (e : Nat) : Option (Nat × Bool) :=
  ((List.range h.next).find? (fun i => imgNum b (h.extoff + 32 * i) 1 == e)).map (fun i =>
    (imgNum b (h.extoff + 32 * i + 1) 1, bitOf (imgNum b (h.extoff + 32 * i + 2) 1) 0))

/-! ### Channels (code 0x04) -/

/-- Local capacity of a port by its type (R221). -/
def portCap (t : Nat) : Nat := if t = 6 then 8 else 16

/-- One end of a channel entry, with the type of its port; none for an edge or a remote end. -/
def chanEnd (b : List Byte) (h : Header) (rs : List RoleDesc) (off : Nat) (input : Bool) : Load (End × Option Nat) := do
  let role := imgNum b off 2
  let pb := imgNum b (off + 2) 1
  require 4 (decide (pb < 32) && imgNum b (off + 3) 1 == 0)
  let c : Fin 4 := Fin.ofNat 4 (pb % 4)
  let q : Fin 8 := Fin.ofNat 8 (pb / 4)
  if 0xFF00 ≤ role ∧ role ≤ 0xFF03 then pure (.edge (Fin.ofNat 4 (role - 0xFF00)) q, none)
  else if 0xFE01 ≤ role ∧ role ≤ 0xFEFF then
    let e := role - 0xFE00
    match rawExtent b h e with
    | some (3, rw) => do
      require 4 (pb == 0 && (rw || !input))
      pure (.remote e, none)
    | _ => reject 4
  else
    let p := portByte rs role c q
    let st := match rs[role]? with | some d => (d.stage c.val).present | none => false
    require 4 (decide (role < h.nrole) && st && portChan p && portIn p == input)
    pure (.port role c q, some (portType p))

def End.isRemote : End → Bool
  | .remote _ => true
  | _ => false
def End.isEdge : End → Bool
  | .edge _ _ => true
  | _ => false
def End.isPort : End → Bool
  | .port _ _ _ => true
  | _ => false

/-- A channel entry as read. -/
structure ChanEntry where
  src : End
  dst : End
  ttype : Nat
  depth : Nat
  lag : Nat
  cap : Nat
deriving DecidableEq, Repr

/-- Tokens the consumer's end holds (R229, R313, R376). -/
def ChanEntry.local (c : ChanEntry) : Nat := min c.depth c.cap
/-- Pass-through segments (R229). -/
def ChanEntry.segs (c : ChanEntry) : Nat := ceilDiv (c.depth - c.local) 64

/-- A channel entry (R203, R305, R376); a nonzero res0 field gives 0x04 (DESIGN CHOICE, log entry 76). -/
def chanEntry (b : List Byte) (h : Header) (rs : List RoleDesc) (i : Nat) : Load ChanEntry := do
  let off := h.chanoff + 16 * i
  let (s, st) ← chanEnd b h rs off false
  let (d, dt) ← chanEnd b h rs (off + 4) true
  let depth := imgNum b (off + 8) 2
  require 4 (imgNum b (off + 12) 4 == 0 && decide (2 ≤ depth) && (st.isSome || dt.isSome) && !(s.isRemote && d.isRemote))
  let t := (st.orElse (fun _ => dt)).getD 15
  require 4 ((st.isNone || st == some t) && (dt.isNone || dt == some t))
  require 4 ((!d.isEdge || t == 4 || t == 5) && (!s.isEdge || t == 6))
  let cap := match d with
    | .port _ _ _ => portCap t
    | .edge _ _ => 16
    | .remote _ => 64
  pure ⟨s, d, t, depth, imgNum b (off + 10) 2, cap⟩

/-- No port and no edge slot is named twice. -/
def endsDistinct : List End → Bool
  | [] => true
  | e :: r => (e.isRemote || !r.contains e) && endsDistinct r

def chanTable (b : List Byte) (h : Header) (rs : List RoleDesc) : Load (List ChanEntry) := do
  let cs ← (List.range h.nchan).mapM (chanEntry b h rs)
  require 4 (endsDistinct ((cs.map (fun c => [c.src, c.dst])).flatten))
  pure cs

/-! ### Couplings (code 0x05) and the channel graph (code 0x06) -/

/-- The node of an end in the channel graph: a stage context, an edge node, or a remote end (R236, R313). -/
def End.node : End → Nat
  | .port r c _ => 4 * r + c.val
  | .edge g _ => 10000 + g.val
  | .remote e => 20000 + e

/-- A coupling entry (R203). -/
structure CplEntry where
  chan : Nat
  setpt : Nat
  kp : Nat
  ki : Nat
deriving DecidableEq, Repr

/-- A coupling entry and its own checks (R236); a nonzero res0 field gives 0x05 (DESIGN CHOICE, log entry 76). -/
def cplEntry (b : List Byte) (h : Header) (cs : List ChanEntry) (i : Nat) : Load CplEntry := do
  let off := h.cploff + 8 * i
  let e : CplEntry := ⟨imgNum b off 2, imgNum b (off + 2) 2, imgNum b (off + 4) 1, imgNum b (off + 5) 1⟩
  let loc := (cs[e.chan]?.map (·.local)).getD 0
  require 5 (decide (e.chan < cs.length) && imgNum b (off + 6) 2 == 0 && decide (e.kp ≤ 128) && decide (4 * e.ki ≤ e.kp)
    && decide (e.setpt ≤ loc))
  pure e

/-- A weighted edge of a graph. -/
structure GEdge where
  src : Nat
  dst : Nat
  w : Nat
deriving DecidableEq, Repr

/-- Whether every simple cycle through `root` that goes on from `v` has a weight of at most 256 (R236). -/
def gainFrom (es : List GEdge) (root : Nat) : Nat → Nat → Nat → List Nat → Bool
  | 0, _, _, _ => true
  | fuel + 1, v, g, seen =>
    es.all (fun e =>
      if e.src != v then true
      else if e.dst == root then decide (g + e.w ≤ 256)
      else if seen.contains e.dst then true
      else gainFrom es root fuel e.dst (g + e.w) (e.dst :: seen))

def gainOk (es : List GEdge) : Bool := es.all (fun e => gainFrom es e.src es.length e.src 0 [e.src])

/-- Edges left after taking away, `n` times, those whose source nothing enters. -/
def prune : Nat → List GEdge → List GEdge
  | 0, es => es
  | n + 1, es => prune n (es.filter (fun e => es.any (fun f => f.dst == e.src)))

def acyclic (es : List GEdge) : Bool := (prune es.length es).isEmpty

/-- The coupling table (R236). A coupled channel with both ends at one context counts twice toward its fan, once as produced and
once as consumed (DESIGN CHOICE, log entry 76). -/
def cplTable (b : List Byte) (h : Header) (cs : List ChanEntry) : Load (List CplEntry) := do
  let ks ← (List.range h.ncpl).mapM (cplEntry b h cs)
  let coupled := ks.filterMap (fun k => (cs[k.chan]?).map (fun c => (k, c)))
  let es := (coupled.filter (fun x => x.2.src.isPort && x.2.dst.isPort)).map (fun x =>
    (⟨x.2.src.node, x.2.dst.node, x.1.kp⟩ : GEdge))
  let ends := ((coupled.map (fun x => [x.2.src, x.2.dst])).flatten.filter End.isPort).map End.node
  require 5 (distinct (ks.map (·.chan)) && ends.all (fun v => decide (ends.count v ≤ 8)) && gainOk es)
  pure ks

/-- Code 0x06 (R229, R237). -/
def lagCheck (cs : List ChanEntry) (idle : Nat) : Load Unit :=
  require 6 (cs.all (fun c => decide (c.lag + 1 ≤ c.depth)) &&
    acyclic ((cs.filter (fun c => c.lag == 0)).map (fun c => ⟨c.src.node, c.dst.node, 0⟩)) &&
    decide ((cs.map ChanEntry.segs).foldl (· + ·) 0 ≤ idle))

/-! ### Presets (code 0x07) -/

/-- A preset pattern entry (R203): role, context, port and pattern; a nonzero res0 field gives 0x07 (DESIGN CHOICE, log entry 76). -/
def presetEntry (b : List Byte) (h : Header) (rs : List RoleDesc) (i : Nat) : Load (Nat × Fin 4 × Fin 8 × Pattern) :=
  let off := h.patoff + 80 * i
  let role := imgNum b off 2
  let tg := imgNum b (off + 2) 1
  let c : Fin 4 := Fin.ofNat 4 (tg % 4)
  let q : Fin 8 := Fin.ofNat 8 (tg / 4)
  let p := portByte rs role c q
  match recordPattern ((b.drop (off + 8)).take 64) 0 with
  | none => reject 7
  | some pat => do
    require 7 (decide (tg < 32) && imgNum b (off + 3) 5 == 0 && imgNum b (off + 0x48) 8 == 0 && portUsed p && !portChan p
      && pat.ttype == portType p && (portIn p || pat.marks == 0))
    pure (role, c, q, pat)

def presetTable (b : List Byte) (h : Header) (rs : List RoleDesc) : Load (List (Nat × Fin 4 × Fin 8 × Pattern)) := do
  let ps ← (List.range h.npat).mapM (presetEntry b h rs)
  let places := ps.map (fun x => (x.1, x.2.1, x.2.2.1))
  require 7 (places.all (fun x => decide (places.count x ≤ 2)))
  pure ps

/-! ### Determinism, seam and unnamed ports (codes 0x09 to 0x0B) -/

/-- The write window of a stage (R249). -/
def StageDesc.window (s : StageDesc) : Nat × Nat := if s.wlen = 0 then (0, 0x80000) else (s.woff, s.wlen)

/-- Whether no two of a list of ranges overlap. -/
def apart : List (Nat × Nat) → Bool
  | [] => true
  | x :: r => r.all (fun y => !overlap x.1 x.2 y.1 y.2) && apart r

def Extent.range (e : Extent) : Nat × Nat :=
  (match e.space with
    | .bulk => e.base
    | .seam => 2 ^ 70 + e.base
    | .host => 2 ^ 72 + e.base
    | .peer => 2 ^ 74 + peerKey (e.window.toNat % 8) (fld e.window.toNat 10 3) 0 + e.base, e.len)

def detCheck (rs : List RoleDesc) (es : List Extent) : Load Unit :=
  require 9 (rs.all (fun r => apart ((r.stages.filter (·.present)).map StageDesc.window)) &&
    apart ((es.filter (·.rw)).map Extent.range))

def seamCheck (h : Header) (es : List Extent) : Load Unit :=
  require 10 ((h.seam == 1) == es.any (fun e => e.space == .seam))

def namedCheck (rs : List RoleDesc) (cs : List ChanEntry) : Load Unit :=
  let ends := (cs.map (fun c => [c.src, c.dst])).flatten
  require 11 (rs.zipIdx.all (fun r => (List.finRange 4).all (fun c => (List.finRange 8).all (fun q =>
    !portChan ((r.1.stage c.val).ports.getD q.val 0) || ends.contains (.port r.2 c q)))))

/-! ### The whole image -/

/-- An image that passes R208. -/
structure Image1 where
  hdr : Header
  roles : List RoleDesc
  chans : List ChanEntry
  cpls : List CplEntry
  presets : List (Nat × Fin 4 × Fin 8 × Pattern)
  extents : List Extent
deriving DecidableEq, Repr

/-- The loader's reading of an image against a role map of `nmap` entries (R207, R208). Of several causes the first in the
order of their codes is reported, with the translator's refusal (0x08) last (DESIGN CHOICE, log entry 76). -/
def parseImage (b : List Byte) (nmap : Nat) (det : Bool) : Load Image1 := do
  let h := headerOf b
  require 1 (headerLegal b h)
  require 2 (decide (h.nrole ≤ nmap))
  let rs ← (List.range h.nrole).mapM (fun r => roleEntry b h.len (h.roleoff + 0xB0 * r))
  let cs ← chanTable b h rs
  let ks ← cplTable b h cs
  lagCheck cs (rs.filter RoleDesc.idle).length
  let ps ← presetTable b h rs
  let es ← extentTable b h.extoff h.next []
  if det then detCheck rs es else pure ()
  seamCheck h es
  namedCheck rs cs
  pure ⟨h, rs, cs, ks, ps, es⟩

end Sys2Proof.Machine
end

