-- ==== Sys2Proof/Machine/Plynrun.lean ====
section
/-! DEFINITION. Plynrun images: their tables, the checks of the translator, and the clause and the sentence that it makes
of them (spec/20 R367 to R371). -/
namespace Sys2Proof.Machine

/-! ### Plynrun images (R367, R369) -/

/-- A handler of a Plynrun image. -/
structure Handler where
  ttype : Nat
  repl : Nat
  stlen : Nat
  codeOff : Nat
  codeLen : Nat
deriving DecidableEq, Repr

/-- An edge of a Plynrun image. -/
structure PEdge where
  src : Nat
  slot : Nat
  dst : Nat
  depth : Nat
deriving DecidableEq, Repr

def handlerEntry (b : List Byte) (off : Nat) : Option Handler :=
  let n (o k : Nat) : Nat := imgNum b (off + o) k
  if decide (n 0 1 ≤ 7) && decide (1 ≤ n 1 1) && decide (n 1 1 ≤ 16) && n 2 2 == 0 && decide (n 4 4 ≤ 0x20000)
      && n 8 4 % 4 == 0 && n 0xC 4 % 4 == 0 && decide (4 ≤ n 0xC 4) && decide (n 0xC 4 ≤ 65536) && n 0x10 16 == 0
      && decide (n 8 4 + n 0xC 4 ≤ b.length) then some ⟨n 0 1, n 1 1, n 4 4, n 8 4, n 0xC 4⟩
  else none

def edgeEntry (b : List Byte) (nhnd off : Nat) : Option PEdge :=
  let n (o k : Nat) : Nat := imgNum b (off + o) k
  if decide (n 0 2 < nhnd) && decide (n 2 1 < 8) && n 3 1 == 0 && decide (n 4 2 < nhnd) && decide (2 ≤ n 6 2) then
    some ⟨n 0 2, n 2 1, n 4 2, n 6 2⟩
  else none

/-- The tables of a Plynrun image; none where a field breaks R367. -/
def plynrunTables (b : List Byte) : Option (List Handler × List PEdge) :=
  let n := imgNum b
  let nh := n 2 2
  let ne := n 4 2
  let ok := decide (64 ≤ b.length) && n 0 2 == 1 && decide (1 ≤ nh) && decide (nh ≤ 3072) && decide (ne ≤ 4096)
    && n 7 1 == 0 && decide (n 0x14 4 < 4) && decide (n 0x18 2 < nh) && imgNum b 0x1A 38 == 0
    && decide (n 8 4 + 32 * nh ≤ b.length) && (ne == 0 || decide (n 0xC 4 + 8 * ne ≤ b.length))
    && (n 6 1 == 0 || decide (n 0x10 4 + 32 * n 6 1 ≤ b.length))
  if ok then
    match extentTable b (n 0x10 4) (n 6 1) [] with
    | .error _ => none
    | .ok _ => do
      let hs ← (List.range nh).mapM (fun i => handlerEntry b (n 8 4 + 32 * i))
      let es ← (List.range ne).mapM (fun i => edgeEntry b nh (n 0xC 4 + 8 * i))
      pure (hs, es)
  else none

/-- Instructions that a handler may not hold. -/
def handlerBans : Instr → Bool
  | .trap _ _ | .rett _ | .bar _ | .wfa _ | .yield _ | .halt _ => true
  | _ => false

/-- The tag of the block that an instruction gives, where its name says it. -/
def blockTag : Instr → Option Bool
  | .ldaA4 .. | .encA4 .. | .enctA4 .. | .aaddA4 .. | .asubA4 .. | .acvtA4 .. => some false
  | .ldaA32 .. | .encA32 .. | .enctA32 .. | .aaddA32 .. | .asubA32 .. | .acvtA32 .. => some true
  | _ => none

/-- Whether a port may stand as an instruction's destination in a handler whose edges, each a SLOT and its receiver's
TTYPE, are given. -/
def sendOk (edges : List (Nat × Nat)) (i : Instr) (u : PortUse) : Bool :=
  u.dst &&
    (match edges.find? (fun e => e.1 == u.q.val) with
      | some e => u.cls.accepts e.2 && (u.cls != .a || (blockTag i).all (fun t => t == (e.2 == 5)))
      | none => false)

/-- Whether a word may stand in a handler, before the word that follows it; a repeat unit as R60 has it. -/
def handlerWord (edges : List (Nat × Nat)) (w : Nat) (next : Option Nat) : Bool :=
  let major := fld w 31 26
  if [0x29, 0x2A, 0x2E, 0x2F, 0x3F].contains major then false
  else
    match decode .cell false w 0 0 0 with
    | .error _ => false
    | .ok i =>
      !handlerBans i && (portUses i).all (sendOk edges i) && (major != 0x1A || next.any (repLegal .cell w))

/-- The words of a handler. -/
def Handler.words (h : Handler) (b : List Byte) : List Nat :=
  (List.range (h.codeLen / 4)).map (fun i => imgNum b (h.codeOff + 4 * i) 4)

/-- The handlers of a clause, one entry for each of its replicas, in the order of R370: a handler and the replica's
index. -/
def replicasOf (hs : List Handler) : List (Nat × Nat) :=
  hs.zipIdx.flatMap (fun h => (List.range h.1.repl).map (fun j => (h.2, j)))

/-! ### The clause that the translator writes (R370)

Its bytes are the translator's own: what the manual fixes is what they do (log entry 70). Each replica has a block of its
cell's store: the dispatch loop, the handler's code, the state area. -/

/-- Bytes of a dispatch loop, with the state that it keeps. -/
def loopBytes : Nat := 1024

def Handler.areaAt (h : Handler) : Nat := loopBytes + roundUp h.codeLen 8
def Handler.block (h : Handler) : Nat := h.areaAt + roundUp h.stlen 16

/-- Where the blocks of replicas begin in their cells, four to a cell; `b` is the end of the one before. -/
def placeBlocks (hs : List Handler) : Nat → Nat → List (Nat × Nat) → List Nat
  | _, _, [] => []
  | i, b, r :: rs =>
    let at0 := if i % 4 = 0 then 0 else b
    at0 :: placeBlocks hs (i + 1) (at0 + ((hs[r.1]?.map Handler.block).getD 0)) rs

/-- The replicas of a clause, with their blocks. -/
def placedReplicas (hs : List Handler) : List (Handler × Nat × Nat × Nat) :=
  let rs := replicasOf hs
  (rs.zip (placeBlocks hs 0 0 rs)).filterMap (fun x => hs[x.1.1]?.map (fun h => (h, x.1.1, x.1.2, x.2)))

/-- Whether the blocks of every cell fit its store. -/
def blocksFit (hs : List Handler) : Bool :=
  (placedReplicas hs).all (fun x => decide (x.2.2.2 + x.1.block ≤ Config.storeBytes))

/-- The checks of R369, for a region of ncl clusters; and the blocks must fit (log entry 70). -/
def plynrunOk (b : List Byte) (ncl : Nat) : Bool :=
  match plynrunTables b with
  | none => false
  | some (hs, es) =>
    let typeOf (h : Nat) : Nat := (hs[h]?.map (·.ttype)).getD 15
    decide (1 ≤ ncl) && decide (ncl ≤ 48) && decide ((replicasOf hs).length ≤ 64 * ncl)
      && distinct (es.map (fun e => 8 * e.src + e.slot)) && acyclic (es.map (fun e => ⟨e.src, e.dst, 0⟩))
      && hs.zipIdx.all (fun h =>
        let mine := (es.filter (fun e => e.src == h.2)).map (fun e => (e.slot, typeOf e.dst))
        let ws := h.1.words b
        ws.zipIdx.all (fun w => handlerWord mine w.1 ws[w.2 + 1]?))
      && blocksFit hs

/-- The numbers of a handler's replicas. -/
def replicasAt (hs : List Handler) (h : Nat) : List Nat :=
  ((replicasOf hs).zipIdx.filter (fun r => r.1.1 == h)).map (·.2)

/-- The handlers of a clause as it loads: contexts and channels as R370 builds them. Every replica of a sending handler
has a channel to each replica of the receiver. -/
def Plyn.init (start : Nat) (hs : List Handler) (es : List PEdge) : Plyn where
  reps := (placedReplicas hs).map (fun x =>
    ⟨x.2.1 == start, x.1.ttype, x.2.2.1, x.2.2.2, x.2.2.2 + loopBytes, x.2.2.2 + x.1.areaAt, false, [], 0⟩)
  chans := es.flatMap (fun e => (replicasAt hs e.src).flatMap (fun s =>
    (replicasAt hs e.dst).map (fun d => ⟨s, d, e.slot, e.depth, []⟩)))

/-- A port byte (R202) of a replica's context: an output port for each edge of its handler. -/
def sendByte (hs : List Handler) (es : List PEdge) (h q : Nat) : Byte :=
  match es.find? (fun e => e.src == h && e.slot == q) with
  | some e => BitVec.ofNat 8 (0x20 + ((hs[e.dst]?.map (·.ttype)).getD 0))
  | none => 0

/-- The stage descriptor (R202) of a replica; in deterministic mode its block is its write window (R251). -/
def stageBytes (hs : List Handler) (es : List PEdge) (det : Bool) (x : Handler × Nat × Nat × Nat) : List Byte :=
  leBytes 4 x.2.2.2 ++ leBytes 4 0 ++ leBytes 4 (if det then x.2.2.2 else 0) ++ leBytes 4 (if det then x.1.block else 0) ++
    leBytes 2 0x100 ++ leBytes 2 0x100 ++ leBytes 2 0xFF00 ++ leBytes 1 1 ++ leBytes 1 0 ++
    (List.range 8).map (sendByte hs es x.2.1) ++ leBytes 8 0

/-- The contents of a replica's block: the loop, the handler's words, an empty state area. -/
def blockBytes (b : List Byte) (ncl em i : Nat) (x : Handler × Nat × Nat × Nat) : List Byte :=
  padTo x.1.block (padTo loopBytes ((Config.plynLoop b ncl em i).take loopBytes) ++ (b.drop x.1.codeOff).take x.1.codeLen)

/-- Some entries, four to a role. -/
def byRole {α : Type} (l : List α) : List (List α) :=
  (List.range (ceilDiv l.length 4)).map (fun r => (l.drop (4 * r)).take 4)

/-- Where pieces begin that stand one after the other. -/
def startsFrom : Nat → List Nat → List Nat
  | _, [] => []
  | n, l :: ls => n :: startsFrom (n + l) ls

/-- Whether a clause reads the seam (R208 code 0x0A). -/
def plynSeam (b : List Byte) : Bool :=
  (List.range (imgNum b 6 1)).any (fun i => imgNum b (imgNum b 0x10 4 + 32 * i + 1) 1 == 1)

/-- The features that a translation relies on (R371): the majors of the pulse array, the engines and the lode may not
stand in a handler, so that seam mode read and MTRAP are left. -/
def plynUsed (b : List Byte) : Nat := b2n (plynSeam b) * 2 ^ 6 + b2n (bitOf (imgNum b 0x14 4) 1) * 2 ^ 7

/-- The clause image (R201 to R203, R370), with the Plynrun image behind its tables for the loops. -/
def plynClause (b : List Byte) (ncl em : Nat) : List Byte :=
  match plynrunTables b with
  | none => []
  | some (hs, es) =>
    let xs := placedReplicas hs
    let det := bitOf (imgNum b 0x14 4) 0
    let stages := byRole (xs.map (stageBytes hs es det))
    let contents := (byRole (xs.zipIdx.map (fun x => blockBytes b ncl em x.2 x.1))).map List.flatten
    let next := imgNum b 6 1
    let extoff := 64 + 176 * stages.length
    let contoff := extoff + 32 * next
    let starts := startsFrom contoff (contents.map (·.length))
    let back := contoff + (contents.map (·.length)).sum
    let len := roundUp (back + b.length + 16) 64
    let role (x : (Nat × List Byte) × List (List Byte)) : List Byte :=
      leBytes 4 x.1.1 ++ leBytes 4 x.1.2.length ++ leBytes 8 0 ++ padTo 160 x.2.flatten
    let body := leBytes 2 1 ++ leBytes 2 stages.length ++ leBytes 4 1 ++ leBytes 4 0 ++ leBytes 1 (b2n (plynSeam b)) ++
      leBytes 1 next ++ leBytes 6 0 ++ leBytes 4 len ++ leBytes 4 64 ++ leBytes 12 0 ++ leBytes 4 extoff ++ leBytes 20 0 ++
      ((starts.zip contents).zip stages).flatMap role ++ (b.drop (imgNum b 0x10 4)).take (32 * next) ++ contents.flatten ++ b
    padTo (len - 16) body ++ leBytes 8 back ++ leBytes 4 b.length ++ leBytes 1 ncl ++ leBytes 1 em ++ leBytes 2 0

/-- The handlers that a clause image runs: those of the Plynrun image whose translation it is. -/
def plynOf (bs : List Byte) : Option Plyn :=
  let t := bs.length - 16
  let b := (bs.drop (imgNum bs t 8)).take (imgNum bs (t + 8) 4)
  let ncl := imgNum bs (t + 12) 1
  match plynrunTables b with
  | none => none
  | some (hs, es) =>
    if plynrunOk b ncl && plynClause b ncl (imgNum bs (t + 13) 1) == bs then some (Plyn.init (imgNum b 0x18 2) hs es) else none

/-- The conductors' words: x9 := the clause image's address in the launch extent, 1, by `addi`, `shli`, `addi`; an `addi` to
x0; `clause x9, x0`; `halt`. -/
def plynConductor : List Byte :=
  [0x09200008, 0x19290140, 0x09290800, 0x08000000, 0xFC812000, 0, 0, 0, 0x6C000040].flatMap (leBytes 4)

/-- The sentence (R338, R370). -/
def plynSentence (b : List Byte) (ncl em : Nat) : List Byte :=
  let cl := plynClause b ncl em
  let tfoff := roundUp (0x100 + cl.length) 4096
  let frbase := tfoff + 4096 * 48
  let len := frbase + 64 * 48
  let block := leBytes 2 1 ++ leBytes 1 0 ++ leBytes 1 1 ++ leBytes 1 (imgNum b 0x14 4) ++ leBytes 3 0 ++ leBytes 8 len ++
    leBytes 4 0x80 ++ leBytes 4 tfoff ++ leBytes 4 frbase
  padTo len (padTo 0x100 (padTo 0x80 block ++ plynConductor) ++ cl)

end Sys2Proof.Machine
end

