-- ==== Sys2Proof/Machine/Clauses.lean ====
section
/-! DEFINITION. The life of a clause: its load, role by role, the iterations of its stages, the release of its cells
and its completion (spec/10 R204 to R219, spec/13 R274). -/
namespace Sys2Proof.Machine

/-- Whether a region's phase lets clauses begin to load (R219, R349). -/
def Phase.loads : Phase → Bool
  | .running | .preCopy _ _ => true
  | .drain _ | .saving | .killed => false

/-- Whether the region's agents, loads and releases move: not once it has been stopped (R351). -/
def Phase.moves : Phase → Bool
  | .running | .preCopy _ _ | .drain _ => true
  | .saving | .killed => false

/-! ### CLAUSE_LOAD -/

/-- Image address and iteration count of a clause command. -/
def CmdOp.clauseArgs : CmdOp → DWord × DWord
  | .clause v n => (v, n)
  | _ => (0, 0)

/-- The dies that a clause in seam mode read takes: those of its region and of its seam extents (R207, R375). -/
def seamDies (r : Region) (es : List Extent) : List Nat :=
  r.clusters.map (· / 12) ++ (es.filter (fun e => e.space == .seam)).map (fun e => e.base / 2 ^ 36)

/-- Whether a seamw to one of some dies is outstanding (R188). -/
def State.seamwTo (s : State) (dies : List Nat) : Bool :=
  s.conds.any (fun e => e.2.cmds.any (fun c =>
    match c.op with
    | .seamw d _ _ => (match s.seamAddr (.cond e.1) d with | some sa => dies.contains (sa / 2 ^ 36) | none => false)
    | _ => false))

/-- Every conductor's command of load n fails (R208, R276). -/
def failLoad (n : Nat) (f : CmdFault) : List Nat → State → State
  | [], s => s
  | k :: ks, s =>
    let s1 := match s.clauseCmd k n with
      | some c => s.modCmd k c.id (fun x => { x with failed := some f })
      | none => s
    failLoad n f ks s1

/-- A load that is rejected: it loads no role and counts as completed for cwait once its commands have failed
(R191, R208, R215). -/
def State.rejectLoad (s : State) (q n : Nat) (r : Region) (f : CmdFault) : State :=
  (failLoad n f r.clusters s).modRegion q (fun r => { r with loads := n + 1, completed := r.completed ++ [n] })

/-- The whole image, as the loader reads it through rank 0's extents (R207), and the handlers that it runs. -/
def readImage (s : State) (k : Nat) (c : Command) (v : DWord) (nmap : Nat) (det : Bool) :
    Eng (Load Image1 × Option Plyn × State) := do
  let (hd, s1) ← engRead s k c v 64
  let len := imgNum hd 0x14 4
  match s1.extentNo (.cond k) (fld v.toNat 47 40) with
  | none => pure (reject 1, none, s1)
  | some e =>
    if len < 64 ∨ e.len < fld v.toNat 39 0 + len then pure (reject 1, none, s1)
    else do
      let (bs, s2) ← engRead s1 k c v len
      pure (parseImage bs nmap det, plynOf bs, s2)

/-- The die of an end of a channel; a remote end counts as its neighbour's. -/
def End.die (cells : List Nat) : End → Option Nat
  | .port r _ _ => some (cells.getD r 0 / 204)
  | .edge g _ => some g.val
  | .remote _ => none

/-- A hop before its receiver has loaded. -/
def Hop.init (cross : Bool) (cap : Nat) : Hop := ⟨0, cross, [], cap, 0, none, []⟩

/-- Whether two neighbours of a channel stand on different dies (R230). -/
def crossDie (a b : Option Nat) : Bool :=
  match a, b with
  | some x, some y => x != y
  | _, _ => false

/-- The hops of a channel through the cells of its segments (R226, R229). An edge slot and an import port receive
from the start (R313, R376). -/
def hopsOf (cells : List Nat) (e : ChanEntry) (segs : List Nat) : List Hop :=
  let nodes := [End.die cells e.src] ++ segs.map (fun p => some (p / 204)) ++ [End.die cells e.dst]
  let n := segs.length + 1
  (List.range n).map (fun i =>
    let cross := crossDie (nodes.getD i none) (nodes.getD (i + 1) none)
    if i + 1 < n then Hop.init cross 64
    else
      let h := Hop.init cross e.local
      if e.dst.isPort then h else { h with free := e.local })

/-- Channels given their pass-through segments, idle roles in ascending order (R229). -/
def placeChans (cells : List Nat) : List Nat → List ChanEntry → List Chan
  | _, [] => []
  | idle, e :: r =>
    let segs := (idle.take e.segs).map (fun i => cells.getD i 0)
    { src := e.src, dst := e.dst, ttype := e.ttype, depth := e.depth, lag := e.lag, hops := hopsOf cells e segs
      pushed := 0, arrived := 0, drainSent := false, drainHops := 0, drainAcked := false, segs := segs, edge := [] } ::
      placeChans cells (idle.drop e.segs) r

/-- The idle roles of an image, ascending. -/
def idleRoles (rs : List RoleDesc) : List Nat := (rs.zipIdx.filter (fun r => r.1.idle)).map (·.2)

/-- A clause as its load begins (R204, R207, R210). -/
def newClause (n : Nat) (img : DWord) (iters : Nat) (i : Image1) (cells : List Nat) (cycle : Nat) (waits : Bool)
    (plyn : Option Plyn) : Clause where
  num := n
  img := img
  iters := iters
  est := i.hdr.est
  seam := i.hdr.seam == 1
  roles := i.roles
  chans := placeChans cells (idleRoles i.roles) i.chans
  couples := i.cpls.map (fun c => ⟨c.chan, c.setpt, c.kp, c.ki, 0, 0, none, none, none, 0, false, (0, 0, 0), 0, 0⟩)
  presets := i.presets
  extents := i.extents
  cells := cells
  loaded := []
  released := []
  began := cycle
  waits := waits
  nested := false
  binds := []
  plyn := plyn

/-- The ranks whose address or count differs from rank 0's fail (R190). -/
def failDiffer (n : Nat) (args : DWord × DWord) : List Nat → State → State
  | [], s => s
  | k :: ks, s =>
    let s1 := match s.clauseCmd k n with
      | some c =>
        if c.op.clauseArgs = args then s
        else s.modCmd k c.id (fun x => { x with failed := some ⟨.cmdfail, 0x25, c.op.clauseArgs.1, none⟩ })
      | none => s
    failDiffer n args ks s1

/-- Whether a load may begin: every conductor of the region has dispatched its command, and fewer than two clauses
are in flight (R190, R207). -/
def State.loadReady (s : State) (r : Region) : Bool :=
  r.phase.loads && decide (r.clauses.length < 2) && r.clusters.all (fun k => (s.clauseCmd k r.loads).isSome)

/-- The role map of a load (R192, R204): the one in force when the last of its commands dispatched (log entry 67). -/
def State.loadMap (s : State) (r : Region) (c : Command) : List Nat := if c.memo.isEmpty then s.roleMapOf r else c.memo

/-- Clauses whose load waits for seamw commands go on once none to their dies is outstanding (R207). -/
def State.waitsOver (s : State) (q : Nat) : State :=
  s.modRegion q (fun r => { r with clauses := r.clauses.map (fun cl =>
    if cl.waits && !s.seamwTo (seamDies r cl.extents) then { cl with waits := false } else cl) })

/-- CLAUSE_LOAD (R207, R208): the image is read and checked and its extents are handed over, and the clause is rejected,
waits for seamw commands, or runs. -/
def execClauseLoad (queue : Nat) (s0 : State) : Out :=
  let s := s0.waitsOver queue
  match s.region queue with
  | none => .next s
  | some r =>
    let n := r.loads
    let k := r.clusters.headD 0
    match s.loadReady r, s.clauseCmd k n with
    | true, some c =>
      let (v, count) := c.op.clauseArgs
      let map := s.loadMap r c
      match readImage s k c v map.length (r.dmode.getLsbD 0) with
      | .error .wait => .next s
      | .error (.page m) => .next (s.missPageFor (.cond k) m c.clause)
      | .error (.fail f) | .error (.after _ _ f) => .next (s.rejectLoad queue n r f)
      | .error (.bad p f) => .next ((s.noteUe p).rejectLoad queue n r f)
      | .ok (.error code, _, s1) => .next (s1.rejectLoad queue n r ⟨.cmdfail, code, v, none⟩)
      | .ok (.ok img, plyn, s1) =>
        let o : Holder := ⟨r.ctx, n + 1⟩
        match s1.takeExtents queue o r.owned img.extents with
        | (s2, false) => .next (s2.rejectLoad queue n r ⟨.cmdfail, 8, v, none⟩)
        | (s2, true) =>
          let iters := if count = 0 then img.hdr.iters else count.toNat
          let waits := img.hdr.seam == 1 && s2.seamwTo (seamDies r img.extents)
          let cl := newClause n v iters img (map.take img.roles.length) s.cycle waits plyn
          .next (((failDiffer n (v, count) r.clusters s2).modRegion queue (fun r =>
            { r with clauses := r.clauses ++ [cl], loads := n + 1, quiet := false })).emptyExtents queue o img.extents)
    | _, _ => .next s

/-! ### ROLE_LOAD -/

/-- A port at its load (R209): its type and direction from its byte, no pattern, an empty queue. -/
def loadPort (b : Byte) : Port :=
  if portUsed b then ⟨true, portIn b, portChan b, portType b, [], [], none, none, 0, false, []⟩ else Port.unused

/-- A stage context at its load (R209): the registers of R31 and the CSRs of its descriptor. -/
def loadHart (d : StageDesc) (role nrole n : Nat) (dmode : BitVec 2) : Hart :=
  { Hart.init with
    roleIdx := BitVec.ofNat 16 role, roleNum := BitVec.ofNat 16 nrole, clause := BitVec.ofNat 32 n, dmode := dmode
    armed := d.armed, tvec := dwn d.tvec, tframe := dwn (2048 * d.tfa)
    wgt := if d.present then d.w else 0x100, wmin := if d.present then d.wmin else 0x100
    wmax := if d.present then d.wmax else 0xFF00
    run := if d.present then .waiting else .absent
    entry := dwn d.entry, woff := d.woff, wlen := d.wlen, line := d.line
    ports := Vector.ofFn (fun q => loadPort (d.ports.getD q.val 0)) }

/-- The preset patterns of a context, in table order (R203, R209). -/
def addPresets (role : Nat) (c : Fin 4) : List (Nat × Fin 4 × Fin 8 × Pattern) → Hart → Hart
  | [], h => h
  | (r, c', q, p) :: l, h =>
    addPresets role c l
      (if r = role ∧ c' = c then
        match h.ports[q].addPattern p with
        | some o => { h with ports := h.ports.set q o }
        | none => h
      else h)

/-- The cell of a role that loads: its store and full/empty bits given, everything else at its load value (R209). -/
def loadCell (s : State) (r : Region) (cl : Clause) (q role : Nat) (d : RoleDesc) (store : Memory) (fe : List Nat)
    (last : Option (Nat × Nat)) : Cell :=
  { Cell.init with
    store := store, fe := fe, mbud := BitVec.ofNat 16 s.power.mceil
    bound := some (q, cl.num, role), loaded := true, last := last
    ctx := Vector.ofFn (fun c =>
      addPresets role c cl.presets (loadHart (d.stage c.val) role cl.roles.length cl.num r.dmode)) }

/-- Free slots returned by a cell that has loaded: the last hop of the channels into its ports, and its pass-through
segments (R209, R226). -/
def Chan.opened (ch : Chan) (role p : Nat) : Chan :=
  let last := ch.hops.length - 1
  let toPort := match ch.dst with
    | .port r _ _ => r == role
    | _ => false
  { ch with hops := ch.hops.zipIdx.map (fun h =>
      if (h.2 = last && toPort) || (h.2 < last && ch.segs.getD h.2 p.succ == p) then
        -- the importer grants an exporter its first window by a packet (R230, R376)
        (match ch.src, h.2 with
          | .remote _, 0 => { h.1 with freed := h.1.cap, firstFreed := some 0 }
          | _, _ => { h.1 with free := h.1.cap })
      else h.1) }

/-- Whether a cell may take a role of a clause: it serves none, and no earlier clause's role still waits for it
(R206). -/
def State.cellFree (s : State) (r : Region) (n p : Nat) : Bool :=
  (s.cell p).bound.isNone &&
    r.clauses.all (fun c => decide (n ≤ c.num) ||
      c.cells.zipIdx.all (fun x => x.1 != p || c.released.contains x.2))

/-- ROLE_LOAD (R206, R209). An uncorrectable word of the contents fails the clause commands (R180, R276). -/
def execRoleLoad (queue clause role : Nat) (s0 : State) : Out :=
  let s := s0.waitsOver queue
  match s.region queue, s.clauseAt queue clause with
  | some r, some cl =>
    match cl.roles[role]? with
    | none => .next s
    | some d =>
      let p := cl.cells.getD role 0
      let k := r.clusters.headD 0
      if cl.waits || cl.loaded.contains role || !r.phase.moves || !s.cellFree r cl.num p then .next s
      else
        let old := s.cell p
        let keep := d.keep && decide (0 < clause) && old.last == some (queue, clause - 1)
        match engRead s k (newCommand 0 .nopl ⟨none, none⟩ (s.hart (.cond k))) (cl.img + dwn d.imgOff) d.imgLen with
        | .error (.bad p f) => .next (failLoad clause f r.clusters (s.noteUe p))
        | .error _ => .next s
        | .ok (bs, s1) =>
          let store := Memory.write (if keep then old.store else []) 0 bs
          let cell := loadCell s1 r cl queue role d store (if keep then old.fe else []) old.last
          .next ((s1.setCell p cell).modClause queue clause (fun cl =>
            { cl with loaded := cl.loaded ++ [role], chans := cl.chans.map (fun ch => ch.opened role p) }))
  | _, _ => .next s

/-! ### ITERATION_START -/

/-- ITERATION_START (R210): an armed stage consumes an arrival of its line. -/
def execIterationStart (cell : Nat) (ctx : Fin 4) (s : State) : Out :=
  let x := s.cell cell
  let h := x.ctx[ctx]
  let line : Fin 16 := Fin.ofNat 16 h.line
  let moves := match x.bound with
    | some (q, _, _) => ((s.region q).map (·.phase.moves)).getD false
    | none => false
  if h.run ≠ .waiting ∨ moves = false then .next s
  else if h.armed && x.arrivals[line] == 0 then .next s
  else
    let s1 := if h.armed then
        s.modCell cell (fun x => { x with arrivals := x.arrivals.set line (x.arrivals[line] - 1) }) else s
    .next (s1.modHart (.ctx cell ctx) (fun h =>
      { h with iter := BitVec.ofNat 32 h.begun, begun := h.begun + 1, pc := h.entry, barCount := 0, arrived := none
               run := .running, hold := none }))

/-- ARRIVAL (R100, R179): one arrival token reaches its cell; the count saturates. -/
def execArrival (cell : Nat) (line : Fin 16) (s : State) : Out :=
  let x := s.cell cell
  if x.arriving.contains line then
    let n := x.arrivals[line]
    .next (s.setCell cell
      { x with arriving := x.arriving.erase line
               arrivals := x.arrivals.set line (if n.toNat = 65535 then n else n + 1) })
  else .next s

/-! ### CELL_RELEASE -/

/-- Whether a stage of a cell has finished, or stopped by NESTED (R210, R274). -/
def Hart.ended (h : Hart) : Bool := h.run == .absent || h.run == .finished || h.run == .stopped

/-- Whether the drain token of a channel has left its producer's cell (R214, R377). -/
def Chan.drainLeft (ch : Chan) : Bool := if ch.dst.isRemote then ch.drainAcked else decide (1 ≤ ch.drainHops)

/-- Whether the drain token has passed through segment j (R229). -/
def Chan.drainPassed (ch : Chan) (j : Nat) : Bool :=
  if ch.dst.isRemote && j + 2 == ch.hops.length then ch.drainAcked else decide (j + 2 ≤ ch.drainHops)

/-- Conditions 2 and 3 of R214 for one channel and a cell. -/
def Chan.doneFor (ch : Chan) (role p : Nat) : Bool :=
  (match ch.dst with | .port r _ _ => r != role || ch.drainHops == ch.hops.length | _ => true) &&
    (match ch.src with | .port r _ _ => r != role || ch.drainLeft | _ => true) &&
    ch.segs.zipIdx.all (fun g => g.1 != p || ch.drainPassed g.2)

/-- The destination of a command in the role form (R181). -/
def CmdOp.dest : CmdOp → Option DWord
  | .copy d _ _ _ | .fill d _ _ _ | .fprint _ d _ _ | .cmpr _ _ d _ _ | .gather d _ _ _ _ _ | .scatter d _ _ _ _ _
  | .reduce d _ _ _ _ | .lget _ d _ _ => some d
  | .rcopy l _ _ _ pull _ => if pull then some l else none
  | _ => none

/-- Whether a dispatched command still has a write or an arrival to make in a role of a clause (R214). -/
def State.aimedAt (s : State) (r : Region) (n role : Nat) : Bool :=
  r.clusters.any (fun k => (s.cond k).cmds.any (fun c =>
    c.dispatched && c.failed.isNone && c.run.orElse (fun _ => s.runningClause k) == some n &&
      (match c.op.dest with | some v => isRoleForm v && roleOfAddr v == role | none => false)))

/-- Whether a cell may be released (R214, R229, R274). -/
def State.mayRelease (s : State) (r : Region) (cl : Clause) (p role : Nat) : Bool :=
  let x := s.cell p
  x.loaded && x.ctx.toList.all Hart.ended && cl.chans.all (fun ch => ch.doneFor role p) && x.log.isEmpty &&
    x.ctx.toList.all (fun h => h.performedAt 2 && h.ports.toList.all (fun o => o.out.isEmpty || o.chan)) &&
    x.msts.isEmpty && x.ops.isEmpty && x.arriving.isEmpty && !s.aimedAt r cl.num role && x.nestHold == 0

/-- The clause commands of a completed clause complete with their signals, or fail after NESTED (R215, R274). -/
def endCommands (n : Nat) (nested : Bool) : List Nat → State → State
  | [], s => s
  | k :: ks, s =>
    let s1 := match s.clauseCmd k n with
      | some c =>
        if nested then s.modCmd k c.id (fun x => { x with failed := some ⟨.cmdfail, 0x27, c.op.clauseArgs.1, none⟩ })
        else s.finishCmd k c
      | none => s
    endCommands n nested ks s1

/-- The cwait commands of some conductors that have nothing more to wait for complete (R191, R215). -/
def endCwaits : List Nat → State → State
  | [], s => s
  | k :: ks, s =>
    endCwaits ks (((s.cond k).cmds.filter (fun c => c.op.isCwait && c.dispatched && s.cmdReady k c)).foldl
      (fun s c => s.finishCmd k c) s)

/-- A clause all of whose roles are released completes: it leaves the clauses in flight, and at that moment its commands
complete and a cwait for it is released (R191, R215). Its translations are held no more (R323). -/
def State.closeClause (s : State) (q n : Nat) : State :=
  match s.region q, s.clauseAt q n with
  | some r, some cl =>
    if (List.range cl.roles.length).all (fun i => cl.released.contains i) then
      let s1 := (s.modRegion q (fun r =>
        { r with clauses := r.clauses.filter (fun c => c.num != n), completed := r.completed ++ [n] })).dropOwner
        ⟨r.ctx, n + 1⟩
      endCwaits r.clusters (endCommands n cl.nested r.clusters s1)
    else s
  | _, _ => s

/-- A context whose cell is released: it executes no more, and what its ports hold is discarded (R213); its registers stay
until the next load (R209). -/
def Hart.released (h : Hart) : Hart :=
  { h with run := .absent, hold := none, arrived := none, pend := [], ports := Vector.replicate 8 Port.unused }

/-- CELL_RELEASE (R214, R215): tokens left at its ports are discarded (R213), its store is kept for KEEP (R209). -/
def execCellRelease (cell : Nat) (s : State) : Out :=
  let x := s.cell cell
  match x.bound with
  | none => .next s
  | some (q, n, role) =>
    match s.region q, s.clauseAt q n with
    | some r, some cl =>
      if r.phase.moves && s.mayRelease r cl cell role then
        let freed := { x with
          bound := none, loaded := false, last := some (q, n), late := [], lost := []
          ctx := Vector.ofFn (fun c => x.ctx[c].released) }
        let s1 := (s.setCell cell freed).modRegion q (fun r => { r with copied := r.copied.filter (fun l => l.1 != cell) })
        .next ((s1.modClause q n (fun cl => { cl with released := cl.released ++ [role] })).closeClause q n)
      else .next s
    | _, _ => .next s

end Sys2Proof.Machine
end

