-- ==== Sys2Proof/Machine/Channels.lean ====
section
/-! DEFINITION. Channels at work: hops, slot returns, send windows, partition borders, drain tokens, remote ends and the
rate controller (spec/11 R226 to R235, spec/10 R212, spec/15 R305, spec/20 R376, R377). -/
namespace Sys2Proof.Machine

/-! ### Where a channel's pieces stand -/

/-- The dies of a channel's producer, segments and consumer; none for a remote end. -/
def Chan.dies (ch : Chan) (cells : List Nat) : List (Option Nat) :=
  [End.die cells ch.src] ++ ch.segs.map (fun p => some (p / 204)) ++ [End.die cells ch.dst]

/-- Whether a region moves tokens now. -/
def State.chanMoves (s : State) (q : Nat) : Bool := ((s.region q).map (·.phase.moves)).getD false

/-- What stands at the sender of a hop, oldest first; a port whose role has not loaded, or is released, sends nothing. -/
def State.hopQueue (s : State) (cl : Clause) (ch : Chan) (hop : Nat) : List Entry :=
  match hop with
  | j + 1 => ((ch.hops[j]?).map (·.buf)).getD []
  | 0 =>
    match ch.src with
    | .port r c p => if cl.endLive ch.src then ((s.hart (.ctx (cl.cells.getD r 0) c)).ports[p]).queue else []
    | .edge _ _ => ch.edge
    | .remote _ => []

/-- The head of a hop's sender taken away; a data token frees its slot at the hop before (R226). -/
def State.takeHop (s : State) (q : Nat) (cl : Clause) (i : Nat) (ch : Chan) (hop : Nat) (data : Bool) : State :=
  match hop with
  | j + 1 =>
    s.modChan q cl.num i (fun ch => { ch with hops := modAt ch.hops j (fun h =>
      let h' := { h with buf := h.buf.drop 1 }
      if data then h'.free1 s.cycle else h') })
  | 0 =>
    match ch.src with
    | .port r c p =>
      s.modHart (.ctx (cl.cells.getD r 0) c) (fun h =>
        { h with ports := h.ports.set p { h.ports[p] with queue := h.ports[p].queue.drop 1 } })
    | .edge _ _ => s.modChan q cl.num i (fun ch => { ch with edge := ch.edge.drop 1 })
    | .remote _ => s

/-- Whether the receiver of a hop has loaded (R209, R226). -/
def Clause.hopLoaded (cl : Clause) (ch : Chan) (hop : Nat) : Bool :=
  if hop + 1 < ch.hops.length then
    let p := ch.segs.getD hop 0
    cl.cells.zipIdx.any (fun x => x.1 == p && cl.loaded.contains x.2)
  else
    match ch.dst with
    | .port r _ _ => cl.loaded.contains r
    | .edge _ _ | .remote _ => true

/-! ### Remote ends (R376, R399) -/

/-- The tag of a remote channel, outbound or inbound (log entry 41). -/
def chanTag (q n i : Nat) (outbound : Bool) : BitVec 24 :=
  BitVec.ofNat 24 (2 ^ 23 + b2n (!outbound) * 2 ^ 22 + q * 2 ^ 13 + n % 2 * 2 ^ 12 + i)

/-- The region, clause and channel of a tag. -/
def State.chanOfTag (s : State) (tag : BitVec 24) : Option (Nat × Nat × Nat) :=
  let t := tag.toNat
  if t < 2 ^ 23 then none
  else
    let q := fld t 18 13
    ((s.region q).bind (fun r => r.clauses.find? (fun c => c.num % 2 == fld t 12 12))).map (fun c => (q, c.num, fld t 11 0))

/-- The extent of a remote end. -/
def Clause.remoteExt (cl : Clause) (e : End) : Option Extent :=
  match e with
  | .remote x => cl.extents.find? (fun y => y.idx == x)
  | _ => none

def Extent.port (e : Extent) : Fin 8 := Fin.ofNat 8 (e.window.toNat % 8)

/-- A packet of a remote channel: an offset in the window of its extent, the key and the tag. -/
def remotePacket (e : Extent) (off : Nat) (tag : BitVec 24) (arg : DWord) (data : List Byte) : Packet :=
  packet (dwn (fld e.window.toNat 10 3 * 2 ^ 40 + (e.base + off) % 2 ^ 40)) (BitVec.ofNat 32 (fld e.window.toNat 63 32))
    tag arg data

/-- An item put where a hop receives: a segment, a port, an edge slot, or the packets of an import port. A remote token
beyond LEN is refused, as a store is (R334, R376); one that is uncorrectable is not sent, and the region is stopped (log
entry 38). -/
def State.deliver (s : State) (q : Nat) (cl : Clause) (i : Nat) (ch : Chan) (hop : Nat) (e : Entry) : State :=
  if hop + 1 < ch.hops.length then
    s.modChan q cl.num i (fun ch => { ch with hops := modAt ch.hops hop (fun h => { h with buf := h.buf ++ [e] }) })
  else
    match ch.dst with
    | .port r c p =>
      s.modHart (.ctx (cl.cells.getD r 0) c) (fun h =>
        { h with ports := h.ports.set p { h.ports[p] with queue := h.ports[p].queue ++ [e] } })
    | .edge _ _ => s.modChan q cl.num i (fun ch => { ch with edge := ch.edge ++ [e] })
    | .remote _ =>
      match cl.remoteExt ch.dst with
      | none => s
      | some x =>
        let tag := chanTag q cl.num i true
        match e.item with
        | .data t =>
          let size := tokenSize ch.ttype
          if x.len < (ch.arrived + 1) * size then s.doomRegion q 0x0E
          else s.modLink x.port (fun l => l.post .token (remotePacket x (ch.arrived * size) tag 0 (t.bytes ch.ttype)))
        | .drain => s.modLink x.port (fun l => l.post .done (packet 0 0 tag (dwn tag.toNat) []))
        | .failed _ _ | .trapped _ _ _ | .marker _ => s.doomRegion q 0x0E

/-- The port through which a hop sends to a peer. -/
def Clause.sendPort (cl : Clause) (ch : Chan) (hop : Nat) : Option (Fin 8) :=
  if hop + 1 < ch.hops.length then none else (cl.remoteExt ch.dst).map Extent.port

/-! ### Hops -/

/-- Whether a partition border lets a region's token pass (R231). -/
def State.borderOk (s : State) (ctx : Nat) (a b : Option Nat) : Bool :=
  match a, b with
  | some x, some y =>
    let px := s.partitions.getD x 0
    let py := s.partitions.getD y 0
    px == py || s.borders.any (fun g => g.fromPart == px && g.toPart == py && g.owner == ctx)
  | _, _ => true

def Item.isData : Item → Bool
  | .drain => false
  | _ => true

/-- TOKEN_HOP (R226): the oldest token at a hop's sender moves; the first hop's slot was taken at the push, and a drain
token takes none (R212). A token that a border's gateway turns away is discarded, and the region will be stopped; so it is
where the port to a peer is down (R386), and a full window of that port holds the token (R381). -/
def execTokenHop (queue clause chan hop : Nat) (s : State) : Out :=
  match s.region queue, s.clauseAt queue clause with
  | some r, some cl =>
    match cl.chans[chan]? with
    | none => .next s
    | some ch =>
      match s.hopQueue cl ch hop, ch.hops[hop]? with
      | e :: _, some h =>
        let data := e.item.isData
        let (full, down) := match cl.sendPort ch hop with
          | some p =>
            let l := s.links[p]
            (!l.room, l.state == LinkState.down || l.state == LinkState.disabled)
          | none => (false, false)
        if !s.chanMoves queue || !cl.hopLoaded ch hop || (data && decide (0 < hop) && h.free == 0) then .next s
        else if down then .next (s.doomRegion queue 0x0E)
        else if full then .next s
        else
          let dies := ch.dies cl.cells
          let s1 := s.takeHop queue cl chan ch hop data
          if !s.borderOk r.ctx (dies.getD hop none) (dies.getD (hop + 1) none) then
            .next (s1.doomRegion queue 0x0E)
          else
            let last := hop + 1 == ch.hops.length
            let s2 := s1.deliver queue cl chan ch hop e
            .next (s2.modChan queue clause chan (fun ch =>
              { ch with
                hops := if data && decide (0 < hop) then modAt ch.hops hop (fun h => { h with free := h.free - 1 })
                        else ch.hops
                arrived := if data && last then ch.arrived + 1 else ch.arrived
                drainHops := if data then ch.drainHops else hop + 1 }))
      | _, _ => .next s
  | _, _ => .next s

/-- One hop of a channel changed. -/
def State.modHop (s : State) (q n i j : Nat) (f : Hop → Hop) : State :=
  s.modChan q n i (fun ch => { ch with hops := modAt ch.hops j f })

def State.getHop (s : State) (q n i j : Nat) : Option Hop := (s.getChan q n i).bind (fun ch => ch.hops[j]?)

/-- SLOT_RETURN (R226): within a die a freed slot returns to the sender. -/
def execSlotReturn (queue clause chan hop : Nat) (s : State) : Out :=
  match s.getChan queue clause chan, s.getHop queue clause chan hop with
  | some ch, some h =>
    if !s.chanMoves queue || h.cross || (ch.src.isRemote && hop == 0) || h.freed == 0 then .next s
    else .next (s.modHop queue clause chan hop (fun h =>
      { h with free := h.free + 1, freed := h.freed - 1, firstFreed := if h.freed = 1 then none else h.firstFreed }))
  | _, _ => .next s

/-- A receiver grants the slots freed since its last grant: to the sender's die, or to a peer by a packet (R230, R376); where
the port to the peer is down, the region is stopped (R386). -/
def sendGrant (s : State) (q n i j : Nat) (h : Hop) : State :=
  let clear (h : Hop) : Hop := { h with freed := 0, firstFreed := none }
  match s.clauseAt q n with
  | none => s
  | some cl =>
    match cl.chans[i]? with
    | none => s
    | some ch =>
      if ch.src.isRemote && j == 0 then
        match cl.remoteExt ch.src with
        | none => s
        | some x =>
          let l := s.links[x.port]
          if l.state = .down ∨ l.state = .disabled then s.doomRegion q 0x0E
          else if l.room = false then s
          else (s.modLink x.port (fun l => l.post .grant (remotePacket x 0 (chanTag q n i false) (dwn h.freed) []))).modHop q n i j clear
      else s.modHop q n i j (fun h => { clear h with grants := h.grants ++ [h.freed] })

/-- Whether a hop's receiver grants a window (R230): across dies, and toward a peer that sends. -/
def State.grants (s : State) (q n i j : Nat) (h : Hop) : Bool :=
  h.cross || (((s.getChan q n i).map (fun ch => ch.src.isRemote)).getD false && j == 0)

/-- SEND_WINDOW_GRANT (R230): after four slots have freed. -/
def execSendWindowGrant (queue clause chan hop : Nat) (s : State) : Out :=
  match s.getHop queue clause chan hop with
  | some h =>
    if s.chanMoves queue && s.grants queue clause chan hop h && decide (4 ≤ h.freed) then
      .next (sendGrant s queue clause chan hop h)
    else .next s
  | none => .next s

/-- GRANT_TIMER (R230): 64 cycles after the first slot freed. -/
def execGrantTimer (queue clause chan hop : Nat) (s : State) : Out :=
  match s.getHop queue clause chan hop with
  | some h =>
    let due := match h.firstFreed with
      | some c => decide (c + 64 ≤ s.cycle)
      | none => false
    if s.chanMoves queue && s.grants queue clause chan hop h && decide (0 < h.freed) && due then
      .next (sendGrant s queue clause chan hop h)
    else .next s
  | none => .next s

/-- GRANT_ARRIVAL (R230): the oldest grant widens the sender's window. -/
def execGrantArrival (queue clause chan hop : Nat) (s : State) : Out :=
  match s.getHop queue clause chan hop with
  | some h =>
    match h.grants with
    | [] => .next s
    | g :: r =>
      if s.chanMoves queue then .next (s.modHop queue clause chan hop (fun h => { h with free := h.free + g, grants := r }))
      else .next s
  | none => .next s

/-! ### Drain tokens -/

/-- The drain token of a channel: its number is one above the last data token's (R212, R222). -/
def drainTok (pushed : Nat) : Entry := ⟨.drain, pushed, chanIdx pushed, 0⟩

/-- DRAIN_TOKEN (R212): the stage that pushes into a channel has finished. -/
def execDrainToken (queue clause chan : Nat) (s : State) : Out :=
  match s.clauseAt queue clause with
  | none => .next s
  | some cl =>
    match cl.chans[chan]? with
    | none => .next s
    | some ch =>
      match ch.src with
      | .port r c p =>
        let a := AgentId.ctx (cl.cells.getD r 0) c
        if s.chanMoves queue && cl.loaded.contains r && !cl.released.contains r && (s.hart a).ended && !ch.drainSent then
          .next ((s.modHart a (fun h =>
            { h with ports := h.ports.set p { h.ports[p] with queue := h.ports[p].queue ++ [drainTok ch.pushed] } })).modChan
            queue clause chan (fun ch => { ch with drainSent := true }))
        else .next s
      | _ => .next s

/-- Whether an outstanding attn of a conductor names a result slot of a chiplet for a clause (R305, R306); one whose block
cannot be read yet may name any. -/
def attnNames (s : State) (k n : Nat) (g : Fin 4) (slot : Fin 8) (c : Command) : Bool :=
  match c.op with
  | .attn blk =>
    let names (bs : List Byte) : Bool := homeOf (leNat (bs.take 8)) == g && Fin.ofNat 8 (bs.getD 0x26 0).toNat == slot
    c.run.orElse (fun _ => s.runningClause k) == some n &&
      (if !c.memo.isEmpty then names c.image
      else
        match engRead s k c blk 64 with
        | .ok r => names r.1
        | .error .wait | .error (.page _) => true
        | .error _ => false)
  | _ => false

/-- EDGE_DRAIN (R305): every stage of the clause has finished and no attn that names the channel is outstanding. -/
def execEdgeDrain (queue clause chan : Nat) (s : State) : Out :=
  match s.region queue, s.clauseAt queue clause with
  | some r, some cl =>
    match cl.chans[chan]? with
    | none => .next s
    | some ch =>
      match ch.src with
      | .edge g slot =>
        let allEnded := (List.range cl.roles.length).all (fun i => cl.released.contains i ||
          (cl.loaded.contains i && (s.cell (cl.cells.getD i 0)).ctx.toList.all Hart.ended))
        let named := r.clusters.any (fun k => (s.cond k).cmds.any (attnNames s k clause g slot))
        if s.chanMoves queue && allEnded && !named && !ch.drainSent then
          .next (s.modChan queue clause chan (fun ch =>
            { ch with edge := ch.edge ++ [drainTok ch.pushed], drainSent := true }))
        else .next s
      | _ => .next s
  | _, _ => .next s

/-! ### Tokens from a peer -/

/-- A token of an inbound remote channel, or its refusal, put at the first hop's receiver; after the last token the drain
token follows (R376, R378). -/
def State.importToken (s : State) (q n i : Nat) (bs : Option (List Byte)) : State :=
  match s.clauseAt q n with
  | none => s
  | some cl =>
    match cl.chans[i]? with
    | none => s
    | some ch =>
      match cl.remoteExt ch.src with
      | none => s
      | some x =>
        let count := x.len / tokenSize ch.ttype
        if count ≤ ch.pushed then s
        else
          let item := match bs with
            | some b => Item.data (tokenFrom ch.ttype b)
            | none => Item.trapped .uncorr (dwn (x.idx * 2 ^ 40 + ch.pushed * tokenSize ch.ttype)) 3
          let s1 := (s.deliver q cl i ch 0 ⟨item, ch.pushed, chanIdx ch.pushed, 0⟩).modChan q n i (fun ch =>
            { ch with pushed := ch.pushed + 1, arrived := if ch.hops.length = 1 then ch.arrived + 1 else ch.arrived })
          if ch.pushed + 1 = count then
            (s1.deliver q cl i ch 0 (drainTok count)).modChan q n i (fun ch =>
              { ch with drainSent := true, drainHops := 1 })
          else s1

/-! ### The rate controller -/

/-- A coupling of a clause changed. -/
def State.modCouple (s : State) (q n chan : Nat) (f : Couple → Couple) : State :=
  s.modClause q n (fun cl => { cl with couples := cl.couples.map (fun x => if x.chan == chan then f x else x) })

/-- Whether a coupling's sample of this epoch falls in this cycle: with CYCLE mod 256 = 0, or, once after a resumption,
in any cycle up to 128 (R232, R235). -/
def Couple.due (x : Couple) (cycle : Nat) : Bool :=
  x.sampled != cycle / 256 + 1 && (cycle % 256 == 0 || (x.resumed && decide (cycle % 256 ≤ 128)))

/-- A coupling whose sample is due, and whose consumer's cell has loaded, sampled: the data tokens queued at the
consumer's port (R232). -/
def coupleSample (s : State) (cl : Clause) (x : Couple) : Couple :=
  match cl.chans[x.chan]? with
  | none => x
  | some ch =>
    match ch.dst with
    | .port r c p =>
      if x.due s.cycle && cl.endLive ch.dst then
        let l := ((s.hart (.ctx (cl.cells.getD r 0) c)).ports[p]).queue
        let o : Int := ((l.filter (fun e => e.item.isData)).length : Nat)
        { x with sampleC := some o, inFlight := some o, sampled := s.cycle / 256 + 1, resumed := false }
      else x
    | _ => x

/-- OCCUPANCY_SAMPLE (R232). -/
def execOccupancySample (queue clause chan : Nat) (s : State) : Out :=
  match s.clauseAt queue clause with
  | none => .next s
  | some cl =>
    if s.chanMoves queue then .next (s.modCouple queue clause chan (coupleSample s cl)) else .next s

/-- SAMPLE_MESSAGE (R232): the sample reaches the producer's cell. -/
def execSampleMessage (queue clause chan : Nat) (s : State) : Out :=
  .next (s.modCouple queue clause chan (fun x =>
    match x.inFlight with
    | some o => { x with sampleP := some o, inFlight := none }
    | none => x))

/-- A coupling after an update with sample o: the new integral and u (R233). -/
def Couple.update (x : Couple) (i o : Int) : Int × Int :=
  let e := o - x.setpt
  let i' := clampI (i + e) (-1023) 1023
  (i', x.kp * e + x.ki * i')

/-- The port of an end that stands on a cell of the clause. -/
def Clause.ctxOn (cl : Clause) (p : Nat) : End → Option (Fin 4)
  | .port r c _ => if cl.cells.getD r p.succ = p && cl.endLive (.port r c 0) then some c else none
  | _ => none

/-- The sample that the producer's cell updates with: a message under way has arrived by then (R232). -/
def Couple.atProducer (x : Couple) : Option Int := x.inFlight.orElse (fun _ => x.sampleP)

/-- A coupling in the cycle of its update, decided once for both ends: a sample that is still due is taken (R235), the samples
are used up, and where both ends have loaded each copy of the integral moves and each end has its u (R232, R233). -/
def Clause.settled (cl : Clause) (s : State) (x : Couple) : Couple :=
  if x.moved.1 = s.cycle + 1 then x
  else
    match cl.chans[x.chan]? with
    | none => x
    | some ch =>
      let x1 := coupleSample s cl x
      let live := cl.endLive ch.src && cl.endLive ch.dst
      let step (i : Int) (o : Option Int) : Int × Int :=
        match o with
        | some o => if live then x1.update i o else (i, 0)
        | none => (i, 0)
      let p := step x1.intP x1.atProducer
      let c := step x1.intC x1.sampleC
      { x1 with intP := p.1, intC := c.1, sampleC := none, sampleP := none, inFlight := none, moved := (s.cycle + 1, p.2, c.2) }

/-- What the couplings of a clause, decided in this cycle, add to one context's weight on a cell: what it consumes, less what
it produces (R233). -/
def Clause.delta (cl : Clause) (p : Nat) (c : Fin 4) : Int :=
  cl.couples.foldl (fun acc x =>
    match cl.chans[x.chan]? with
    | none => acc
    | some ch =>
      acc + (if cl.ctxOn p ch.dst = some c then x.moved.2.2 else 0) - (if cl.ctxOn p ch.src = some c then x.moved.2.1 else 0)) 0

/-- The update of the weights of one cell, once in the cycle with CYCLE mod 256 = 128, after the writes of that cycle (R44,
R233). -/
def State.rateCell (s : State) (cell : Nat) : State :=
  let x := s.cell cell
  match x.bound with
  | none => s
  | some (q, n, _) =>
    match s.clauseAt q n with
    | none => s
    | some cl =>
      if s.cycle % 256 = 128 ∧ s.chanMoves q ∧ x.lastRate ≠ s.cycle + 1 then
        let cl1 := { cl with couples := cl.couples.map (cl.settled s) }
        let x1 := { x with
          lastRate := s.cycle + 1, lastIssue := s.cycle + 1, ctx := Vector.ofFn (fun c =>
          let h := x.ctx[c]
          { h with wgt := BitVec.ofInt 16 (clampI (h.wgt.toNat + cl1.delta cell c) h.wmin.toNat h.wmax.toNat) }) }
        (s.setCell cell x1).modClause q n (fun cl => { cl with couples := cl1.couples })
      else s

/-- RATE_UPDATE (R233). -/
def execRateUpdate (cell : Nat) (s : State) : Out := .next (s.rateCell cell)

end Sys2Proof.Machine
end

