-- ==== Sys2Proof/Machine/Records.lean ====
section
/-! DEFINITION. Delivery of fault records, accesses performed, and barriers completed (spec/13 R267 to R269, spec/12
R245 to R247, spec/04 R99). -/
namespace Sys2Proof.Machine

/-! ### Fault records -/

/-- The bytes of a record (R267). -/
def Record.bytes (r : Record) : List Byte :=
  [r.cause.code, r.src, r.code, b2n r.stage * 128 + r.ctx].map (BitVec.ofNat 8) ++ leBytes 2 r.role ++
    leBytes 1 (match r.port with | some p => p | none => 0) ++ leBytes 1 0 ++
    leBytes 8 r.addr.toNat ++ leBytes 8 r.xaddr.toNat ++ leBytes 8 r.pc.toNat ++ leBytes 8 r.seq ++
    leBytes 4 r.idx.i0 ++ leBytes 4 r.idx.i1 ++ leBytes 4 r.idx.i2 ++ leBytes 4 r.idx.i3 ++
    leBytes 4 r.clause.toNat ++ leBytes 4 0

/-- Whether a conductor may take a record where it stands: at an instruction boundary, or held as R269 lists. -/
def Hart.takesRecord (h : Hart) : Bool :=
  h.run == .running && !h.level &&
    (match h.hold with
      | none => true
      | some .sem | some .cwait | some .ldf | some .halt | some .waitField | some .issueQueue | some .page => true
      | some _ => false)

/-- A held instruction abandoned: its place among the waiters is given up, and a cwait leaves the outstanding commands
(R191, R269). An ldf that a fill has released completes instead (R162). -/
def State.abandon (s : State) (a : AgentId) : State :=
  let h := s.hart a
  let s1 := s.finishLdf a
  let s2 := match s1.regionOf a with
    | some q => s1.modRegion q (fun r => { r with semWait := r.semWait.filter (fun w => w.agent != a) })
    | none => s1
  let s3 := match a with
    | .cond k =>
      if h.hold == some Hold.cwait then
        s2.modCond k (fun c => { c with cmds := c.cmds.filter (fun x =>
          !(x.op.isCwait && x.pc == h.pc)) })
      else s2
    | .ctx _ _ => s2
  s3.modHart a (fun h => { h with hold := none, arrived := none })

/-- Records that waited for a place move into a conductor's queue, oldest first (R268). -/
def admitRecords (k : Nat) : List (Nat × Record) → Nat → List Record → List (Nat × Record) × List Record
  | [], _, acc => ([], acc)
  | x :: r, free, acc =>
    if x.1 = k ∧ 0 < free then admitRecords k r (free - 1) (acc ++ [x.2])
    else
      let t := admitRecords k r free acc
      (x :: t.1, t.2)

/-- FAULT_RECORD_DELIVERY (R269): one action. What the conductor has issued is finished first, so the frame holds no entry.
A slot without a translation takes no bytes. -/
def execFaultRecordDelivery (cond : Nat) (s : State) : Out :=
  let c := s.cond cond
  let a := AgentId.cond cond
  match c.records, c.region.bind s.region, c.region with
  | rec :: rest, some r, some q =>
    if c.hart.takesRecord && r.phase.moves then
      let off := r.frbase + 64 * c.hart.roleIdx.toNat
      let slot := dwn (r.lext * 2 ^ 40 + off)
      let s1 := (s.landed a).abandon a
      let s2 := match s1.extentNo a r.lext with
        | none => s1
        | some e =>
          match s1.translate (s1.holder a) e off true with
          | (s', some (.bulk lo)) => { s' with bulk := s'.bulk.write lo rec.bytes }
          | (s', _) => s'
      let (wait, recs) := admitRecords cond r.xfaults (16 - rest.length) rest
      let s3 := (s2.modRegion q (fun r => { r with xfaults := wait, quiet := false })).modCond cond
        (fun c => { c with records := recs, serving := rec.nestCell })
      let fvec := c.hart.fvec
      .next ((s3.takeTrap a (trapOf rec.cause rec.addr slot)).modHart a (fun h =>
        { h with pc := if fvec = 0 then h.tvec else fvec }))
    else .next s
  | _, _, _ => .next s

/-! ### Accesses performed -/

/-- ACCESS_PERFORMED (R245, R246): an accepted access is performed at a scope; earlier ones to its bytes come first. -/
def execAccessPerformed (agent : AgentId) (slot : Nat) (scope : Scope) (s : State) : Out :=
  if 0 < Scope.level scope ∧ (s.hart agent).mayPerform slot then .next (s.performOr agent slot (Scope.level scope))
  else .next s

/-! ### Barriers -/

/-- Participants of a barrier (R99): the stages of a clause on their cells, or the conductors of a region. -/
def State.barAgents (s : State) (q : Nat) (clause : Option Nat) : List AgentId :=
  match clause with
  | none => ((s.region q).map (fun r => r.clusters.map AgentId.cond)).getD []
  | some n =>
    match s.clauseAt q n with
    | none => []
    | some cl =>
      (cl.loaded.filter (fun r => !cl.released.contains r)).flatMap (fun r =>
        (List.finRange 4).map (fun c => AgentId.ctx (cl.cells.getD r 0) c))

/-- Participants that pass now: they wait at a barrier that all have reached. -/
def State.barReady (s : State) (q : Nat) (clause : Option Nat) : List AgentId :=
  (s.barAgents q clause).filter (fun a =>
    match (s.hart a).arrived with
    | some n => decide ((s.hart a).replayed = 0) && s.barDone a n
    | none => false)

def passAll : List AgentId → State → State
  | [], s => s
  | a :: r, s => passAll r ((s.nowReady a).passBar a)

/-- BARRIER_COMPLETE (R99): every participant that waits at a barrier all have reached passes it. -/
def execBarrierComplete (queue : Nat) (clause : Option Nat) (s : State) : Out :=
  if ((s.region queue).map (·.phase.moves)).getD false then .next (passAll (s.barReady queue clause) s) else .next s

end Sys2Proof.Machine
end

