-- ==== Sys2Proof/Machine/Regions.lean ====
section
/-! DEFINITION. A region as a whole: quiescence, the stop at instruction boundaries, its context image, its resumption and
its end (spec/12 R260, spec/19 R351 to R361, spec/20 R374; spec/13 R277; spec/06 R154). -/
namespace Sys2Proof.Machine

/-! ### The cells and agents of a region -/

/-- Physical cells that serve a region now. -/
def State.cellsServing (s : State) (q : Nat) : List Nat :=
  (s.cells.filter (fun c => match c.2.bound with | some (g, _, _) => g == q | none => false)).map (·.1)

/-- The cells that serve a region, those of an earlier clause first. -/
def State.cellsInOrder (s : State) (q : Nat) (r : Region) : List Nat :=
  let cells := s.cellsServing q
  let isOf (n p : Nat) : Bool := match (s.cell p).bound with | some (_, m, _) => m == n | none => false
  r.clauses.flatMap (fun cl => cells.filter (isOf cl.num)) ++ cells.filter (fun p => r.clauses.all (fun cl => !isOf cl.num p))

/-- Physical cells that serve a region, or have served it, and are still its own. -/
def State.cellsHeld (s : State) (q : Nat) (r : Region) : List Nat :=
  (s.cells.filter (fun c => r.clusters.contains (c.1 / 17) && ((match c.2.bound with | some (g, _, _) => g == q | none => false)
    || (match c.2.last with | some (g, _) => g == q | none => false)))).map (·.1)

def ctxsOf (p : Nat) : List AgentId := (List.finRange 4).map (AgentId.ctx p)

/-- The clause of an outstanding `clause` command that no load has begun for: its number, the roles of its image, and its
cells (R349). The conductor of the lowest rank that has issued it gives the image, which is read without trace; one that cannot be read keeps nothing. -/
def State.comingClause (s : State) (r : Region) : Option (Nat × List RoleDesc × List Nat) :=
  match r.clusters.findSome? (fun k => ((s.cond k).cmds.find? (fun c =>
      c.op.isClause && c.clause.toNat == r.loads && c.failed.isNone)).map (fun c => (k, c))) with
  | none => none
  | some (k, c) =>
    let map := s.loadMap r c
    match readImage s k c c.op.clauseArgs.1 map.length (r.dmode.getLsbD 0) with
    | .ok (.ok img, _) => some (r.loads, img.roles, map)
    | _ => none

/-- The cells whose stores a clause would load with KEEP = 1: they served the clause before it, and no clause since (R209,
R349). -/
def State.keptFor (s : State) (q n : Nat) (roles : List RoleDesc) (cells loaded : List Nat) : List Nat :=
  (roles.zipIdx.filter (fun x => x.1.keep && !loaded.contains x.2 && decide (0 < n))).filterMap (fun x =>
    let p := cells.getD x.2 0
    if (s.cell p).bound.isNone && (s.cell p).last == some (q, n - 1) then some p else none)

/-- The sections of a region's image, one per role, in role order, clause by clause (R357), each with its cell and whether
the cell has anything to save: it serves the role, or it keeps the store that the role has yet to load with KEEP = 1. The
stores that an outstanding `clause` would keep follow (R349). -/
def State.sections (s : State) (q : Nat) (r : Region) : List (Nat × Bool) :=
  r.clauses.flatMap (fun cl =>
    let kept := s.keptFor q cl.num cl.roles cl.cells cl.loaded
    (List.range cl.roles.length).map (fun i =>
      let p := cl.cells.getD i 0
      (p, (cl.loaded.contains i && !cl.released.contains i) || (!cl.loaded.contains i && kept.contains p)))) ++
    (match s.comingClause r with
      | some (n, roles, map) => (s.keptFor q n roles map []).map (fun p => (p, true))
      | none => [])

/-- Cells of a drain's image, as they stand when it is chosen: those that the outstanding clause would load with KEEP = 1
once the clause before it has completed (R346, R349). -/
def State.drainSections (s : State) (r : Region) : List Nat :=
  match s.comingClause r with
  | some (_, roles, map) => (roles.zipIdx.filter (·.1.keep)).map (fun x => map.getD x.2 0)
  | none => []

/-! ### Quiescence (R260) -/

/-- Whether a channel has nothing in flight: no token, drain token, slot return or grant. -/
def State.chanIdle (s : State) (cl : Clause) (ch : Chan) : Bool :=
  (List.range ch.hops.length).all (fun j => (s.hopQueue cl ch j).isEmpty) &&
    ch.hops.all (fun h => h.freed == 0 && h.grants.isEmpty)

def Cell.idle (x : Cell) : Bool :=
  x.log.isEmpty && x.ops.isEmpty && x.msts.isEmpty && x.arriving.isEmpty &&
    x.ctx.toList.all (fun h => h.performedAt 3 && h.flight.isEmpty && h.ports.toList.all (fun o => o.seen.isEmpty && (o.chan || o.out.isEmpty)))

/-- Whether a packet is a region's own: of its conductors' transfers or of its channels; answers to a peer are not. -/
def ownPacket (q : Nat) (r : Region) (x : PType × Packet) : Bool :=
  let t := x.2.tag.toNat
  (match x.1 with | .readRsp | .refuse | .idle => false | _ => true) &&
    (if t < 2 ^ 23 then r.clusters.contains (t / 2 ^ 16) else fld t 18 13 == q)

/-- Whether a remote copy waits for an answer that its peer still owes. -/
def Command.owed (c : Command) (l : Link) (tag : BitVec 24) : Bool :=
  match c.op with
  | .rcopy _ _ len _ pull _ =>
    let n := rcopyPackets len.toNat
    let b := c.memo.headD 0
    let here := ((l.transfers.find? (fun t => t.tag == tag)).map (·.inbox.length)).getD 0
    c.dispatched && c.failed.isNone && !c.ready &&
      (if pull then decide (here + (c.prog - n) < min c.prog n - b) else decide (c.prog = n + 1))
  | _ => false

/-- Whether packets of a region stand at a port, or a peer owes it answers. -/
def State.remoteBusy (s : State) (q : Nat) (r : Region) : Bool :=
  s.links.toList.any (fun l => l.state != .down && l.state != .disabled && (l.outbox ++ l.replay ++ l.resend).any (ownPacket q r)) ||
    r.clusters.any (fun k => (s.cond k).cmds.any (fun c =>
      match c.op with
      | .rcopy _ _ _ port _ _ => c.owed s.links[port] (tagOf k c)
      | _ => false))

/-- Nothing of the region is in flight; a region that has stopped moves no command (R351). -/
def State.quiescent (s : State) (q : Nat) (r : Region) : Bool :=
  (s.cellsServing q).all (fun p => (s.cell p).idle) &&
    r.clauses.all (fun cl => cl.chans.all (s.chanIdle cl)) &&
    r.clusters.all (fun k => (s.cond k).hart.performedAt 3 && (s.cond k).hart.flight.isEmpty &&
      (r.phase == .saving || (s.cond k).cmds.all (fun c => c.op.isClause || c.op.isCwait))) &&
    !s.remoteBusy q r

/-- QUIESCENCE_REPORT (R260). -/
def execQuiescenceReport (queue : Nat) (s : State) : Out :=
  match s.region queue with
  | some r => if s.quiescent queue r then .next (s.modRegion queue (fun r => { r with quiet := true })) else .next s
  | none => .next s

/-! ### The stop (R93, R154, R161, R277, R299, R309, R351) -/

/-- Every access of an agent performed at system scope, oldest first. -/
def performAll (a : AgentId) : Nat → State → State
  | 0, s => s
  | n + 1, s => performAll a n (s.performOr a 0 4)

def State.performAgent (s : State) (a : AgentId) : State := performAll a (s.hart a).pend.length s

/-- Tokens of an output pattern port written while they can be. -/
def writeOut (a : AgentId) (q : Fin 8) : Nat → State → State
  | 0, s => s
  | n + 1, s =>
    match patWrite s a q with
    | some s' => writeOut a q n s'
    | none => s

def writePorts (a : AgentId) (s : State) : State :=
  (List.finRange 8).foldl (fun s q => writeOut a q ((s.hart a).ports[q]).out.length s) s

/-- mst rows of a cell stored while they can be. -/
def storeMsts (p : Nat) : Nat → Nat → State → State
  | _, 0, s => s
  | i, n + 1, s =>
    let before := (s.cell p).msts.length
    let s1 := mstRowsStored p i 48 s
    storeMsts p (if (s1.cell p).msts.length < before then i else i + 1) n s1

/-- Arrival tokens on their way reach their cell. -/
def landArrivals (p : Nat) : Nat → State → State
  | 0, s => s
  | n + 1, s =>
    match (s.cell p).arriving with
    | [] => s
    | l :: _ =>
      match execArrival p l s with
      | .next s' => landArrivals p n s'
      | _ => s

/-- A pattern input port as it is saved: the tokens fetched for its current pattern are fetched again (R224, R359). -/
def Port.rewound (o : Port) : Port :=
  match o.input && !o.chan, o.cur with
  | true, some p =>
    let n := ownCount p.pos o.queue.reverse
    { o with queue := o.queue.take (o.queue.length - n), cur := some { p with pos := p.pos - n }, held := false, seen := [] }
  | _, _ => o

/-- An agent as it is saved: its hold is abandoned. -/
def Hart.saved (h : Hart) : Hart :=
  { h with
    hold := none, arrived := none, capt := none, passed := 0, readyFrom := 0, readyAt := 0, early := []
    ports := Vector.ofFn (fun q => h.ports[q].rewound) }

/-- A rett that stands among the entries of its frame: those it has executed leave the frame (R48, R272). -/
def State.trimFrame (s : State) (a : AgentId) : State :=
  let h := s.hart a
  let done := h.replayed - 1
  if h.replayed = 0 then s
  else
    let bs := s.frameBytes a 2048
    let n := (bs.getD 0 0).toNat
    let left := leBytes 1 (n - done) ++ (bs.take 64).drop 1 ++ bs.drop (64 + 320 * done)
    (s.writeFrame a 0 left).modHart a (fun h => { h with replayed := 0 })

/-- An agent stopped at an instruction boundary: what it has issued finishes, its stores are performed, and its hold is
abandoned (R161, R351). -/
def State.stopAgent (s : State) (a : AgentId) : State :=
  (((writePorts a (s.landed a)).performAgent a).abandon a).trimFrame a

/-- One cell stopped: the array's unit in progress completes, what has been issued is written, holds are abandoned. -/
def stopCell (s : State) (p : Nat) : State :=
  let g := ((Cell.running (s.cell p)).map (·.group)).getD 0
  let s1 := finishUnit p g 2000 s
  let s2 := s1.modCell p Cell.arrayStopped
  let s3 := storeMsts p 0 (s2.cell p).msts.length s2
  let s4 := (ctxsOf p).foldl State.stopAgent (landArrivals p (s3.cell p).arriving.length s3)
  s4.modCell p (fun x => { x with ctx := Vector.ofFn (fun c => x.ctx[c].saved) })

/-- A command as it is saved (R277, R299): fills are given up, attn resumes from its block, a comparison finds its
difference again, a push sends its DONE again, and a pull asks again from the first answer it has not written. It holds no
engine, and a clause takes the role map that is saved. -/
def Command.saved (c0 : Command) : Command :=
  let c := { c0 with onEngine := none }
  match c.op with
  | .lget _ _ _ _ | .clause _ _ => { c with memo := [] }
  | .attn _ => if c.prog < 2 then { c with prog := 0, memo := [] } else c
  | .cmpr _ _ _ _ len =>
    match c.memo with
    | i :: _ => if c.prog = len then { c with prog := i - 1, memo := [] } else c
    | [] => c
  | .rcopy _ _ len _ pull _ =>
    let n := rcopyPackets len.toNat
    if c.ready then c
    else if pull then
      let w := c.memo.headD 0 + (c.prog - n)
      { c with prog := w, memo := [w] }
    else { c with prog := min c.prog n }
  | _ => c

/-- What a stop does to one command first: commands that complete before the save run on (R277, R299), and pins are given
up. -/
def stopCommand (k : Nat) (s : State) (c : Command) : State :=
  match c.op with
  | .xmap _ _ | .lfork _ | .lshare _ _ _ _ | .lrel _ | .linv _ _ =>
    let s1 := runCmd k c.id (2 ^ 40) s
    match s1.cmd k c.id with
    | some c' => if c'.dispatched && c'.failed.isNone && decide (c'.total ≤ c'.prog) then s1.finishCmd k c' else s1
    | none => s1
  | .lget key _ _ _ => s.unpin (homeOf key.toNat) c.memo
  | _ => s

/-- One conductor stopped: undelivered XFAULT records are discarded (R277). -/
def stopCond (s : State) (k : Nat) : State :=
  let s1 := (s.cond k).cmds.foldl (stopCommand k) s
  (s1.stopAgent (.cond k)).modCond k (fun c => { c with
    hart := c.hart.saved, records := c.records.filter (fun r => r.cause != .xfault) })

/-- Records that wait for a place move into the queues of some conductors (R268). -/
def admitAll (q : Nat) : List Nat → State → State
  | [], s => s
  | k :: ks, s =>
    let recs := (s.cond k).records
    let (wait, recs) := admitRecords k (((s.region q).map (·.xfaults)).getD []) (16 - recs.length) recs
    admitAll q ks ((s.modRegion q (fun r => { r with xfaults := wait })).modCond k (fun c => { c with records := recs }))

/-- What an event leaves. -/
def outState (s : State) (o : Out) : State := match o with | .next s' => s' | _ => s

/-- Tokens of one hop moved while they can be, and its freed slots returned. -/
def flushHop (q n i : Nat) (s : State) (j : Nat) : State :=
  let count := match s.clauseAt q n with
    | some cl => ((cl.chans[i]?).map (fun ch => (s.hopQueue cl ch j).length)).getD 0
    | none => 0
  let s1 := (List.range count).foldl (fun s _ => outState s (execTokenHop q n i j s)) s
  s1.modHop q n i j (fun h =>
    if ((s1.getChan q n i).map (fun ch => ch.src.isRemote && j == 0)).getD false then h
    else { h with free := h.free + h.freed + h.grants.foldl (· + ·) 0, freed := 0, firstFreed := none, grants := [] })

/-- Every token of a region's channels moved as far toward its consumer as it goes, and every slot returned (R260,
R360). -/
def flushChans (q : Nat) (s : State) : State :=
  (((s.region q).map (·.clauses)).getD []).foldl (fun s cl =>
    cl.chans.zipIdx.foldl (fun s ch =>
      (List.range ch.1.hops.length).foldl (fun s _ =>
        (List.range ch.1.hops.length).reverse.foldl (flushHop q cl.num ch.2) s) s) s) s

/-- A region stopped at instruction boundaries, every accepted store performed, those of an earlier clause first (R250).
Completed barriers are passed first: none
is withdrawn (R99). -/
def State.stopRegion (s : State) (q : Nat) (r : Region) : State :=
  let s0 := s.modRegion q (fun r => { r with phase := .running })
  let s1 := (none :: r.clauses.map (fun cl => some cl.num)).foldl (fun s c => passAll (s.barReady q c) s) s0
  let s2 := r.clusters.foldl stopCond ((s1.cellsInOrder q r).foldl stopCell s1)
  let s3 := (flushChans q s2).modRegion q (fun g => { g with
      semWait := [], quiet := false, phase := r.phase, xfaults := g.xfaults.filter (fun x => x.2.cause != .xfault) })
  (admitAll q r.clusters s3).modXlat r.ctx (fun x => { x with pending := [] })

/-! ### Clusters (R374, R394) -/

/-- Clusters that no region holds and that are in service, on a die. -/
def State.freeOn (s : State) (die : Nat) : List Nat :=
  ((List.range 12).map (fun i => 12 * die + i)).filter (fun k =>
    (s.enmapOf k).getLsbD 17 && !s.regions.any (fun r => r.2.clusters.contains k))

/-- The free counts by which the dies of a partition give, largest first, ties to the lower die. -/
def insertDie (s : State) (d : Nat) : List Nat → List Nat
  | [] => [d]
  | e :: r => if (s.freeOn e).length < (s.freeOn d).length then d :: e :: r else e :: insertDie s d r

def giveFrom (s : State) : Nat → List Nat → List Nat
  | _, [] => []
  | n, d :: r => let l := (s.freeOn d).take n; l ++ giveFrom s (n - l.length) r

def insertNat (x : Nat) : List Nat → List Nat
  | [] => [x]
  | y :: r => if x ≤ y then x :: y :: r else y :: insertNat x r

def sortNat (l : List Nat) : List Nat := l.foldl (fun acc x => insertNat x acc) []

/-- The clusters of a region of n clusters, ascending, within one partition (R374); none when too few are free. -/
def State.place (s : State) (n : Nat) : Option (List Nat) :=
  match (List.range 4).find? (fun d => decide (n ≤ (s.freeOn d).length)) with
  | some d => some ((s.freeOn d).take n)
  | none =>
    ((List.range 4).findSome? (fun part =>
      let dies := (List.range 4).filter (fun d => s.partitions.getD d 0 == part)
      let got := giveFrom s n (dies.foldl (fun acc d => insertDie s d acc) [])
      if got.length = n then some (sortNat got) else none))

/-! ### End -/

/-- A conductor without a sentence. -/
def Cond.freed (c : Cond) : Cond := { Cond.init with nextId := c.nextId, lastIssue := c.lastIssue }

/-- Fills and transfers of a conductor's commands given up. -/
def dropCommands (s : State) (k : Nat) : State :=
  let s1 := (s.cond k).cmds.foldl (fun s c =>
    match c.op with
    | .lget key _ _ _ => s.unpin (homeOf key.toNat) c.memo
    | .rcopy _ _ _ port _ _ => s.modLink port (fun l => { l with transfers := l.transfers.filter (fun t => t.cond != k) })
    | _ => s) s
  s1.modCond k Cond.freed

/-- A region leaves the module: its clusters, cells and translations are freed. -/
def State.removeRegion (s : State) (q : Nat) (r : Region) : State :=
  let s1 := (s.cellsHeld q r).foldl (fun s p => s.modCell p (fun x =>
    { Cell.init with lastIssue := x.lastIssue })) s
  let s2 := r.clusters.foldl dropCommands s1
  { s2 with regions := tdel s2.regions q, xlats := tdel s2.xlats r.ctx
            ldfWait := s2.ldfWait.filter (fun w => !r.clusters.contains w.agent.conductor) }

/-! ### The context image (R3, R357 to R361) -/

/-- Where clusters and cells go: from a region's own to the ranks of an image, or back. -/
structure Rebind where
  cluster : Nat → Nat
  cell : Nat → Nat

def Rebind.pattern (b : Rebind) (p : Pattern) : Pattern :=
  { p with cmd := p.cmd.map (fun c => (b.cluster c.1, c.2)) }

def Rebind.hart (b : Rebind) (h : Hart) : Hart :=
  { h with ports := Vector.ofFn (fun q =>
      let o := h.ports[q]
      { o with cur := o.cur.map b.pattern, nxt := o.nxt.map b.pattern }) }

def Rebind.record (b : Rebind) (r : Record) : Record := { r with nestCell := r.nestCell.map b.cell }

def Rebind.clause (b : Rebind) (cl : Clause) : Clause :=
  { cl with cells := cl.cells.map b.cell, chans := cl.chans.map (fun ch => { ch with segs := ch.segs.map b.cell }) }

/-- A cell rebound: it serves, or has served, another queue's region. -/
def Rebind.inCell (b : Rebind) (q : Nat) (x : Cell) : Cell :=
  { x with
    ctx := Vector.ofFn (fun c => b.hart x.ctx[c])
    bound := x.bound.map (fun y => (q, y.2)), last := x.last.map (fun y => (q, y.2))
    lastIssue := 0, lastRefill := 0, lastStart := 0, lastRate := 0, considered := 0, badWords := [] }

def Rebind.cond (b : Rebind) (q : Option Nat) (c : Cond) : Cond :=
  { c with
    hart := b.hart c.hart, region := q, lastIssue := 0, serving := c.serving.map b.cell
    records := c.records.map b.record }

def Rebind.region (b : Rebind) (r : Region) : Region :=
  { r with
    clusters := r.clusters.map b.cluster, roleMap := r.roleMap.map b.cell, clauses := r.clauses.map b.clause
    xfaults := r.xfaults.map (fun x => (b.cluster x.1, b.record x.2)) }

/-- From a region's clusters to their ranks. -/
def toRanks (ks : List Nat) : Rebind := ⟨fun k => ks.idxOf k, fun p => 17 * ks.idxOf (p / 17) + p % 17⟩

/-- From the ranks of an image to some clusters (R361): the same position of the cluster of the same rank, or that
cluster's spare where it is disabled. `used` are the cells that the image names. -/
def fromRanks (s : State) (ks used : List Nat) : Rebind where
  cluster := fun k => ks.getD k 0
  cell := fun p =>
    let k := ks.getD (p / 17) 0
    let en := s.enmapOf k
    if en.getLsbD (p % 17) then 17 * k + p % 17
    else
      let free := (List.range 17).filter (fun c => en.getLsbD c && !used.contains (p / 17 * 17 + c))
      17 * k + (free.getLast?).getD (p % 17)

/-- What a save keeps of a cell: of one that serves no clause, its store and full/empty bits alone (R349). -/
def Cell.kept (x : Cell) : Cell :=
  if x.bound.isSome then x else { Cell.init with store := x.store, fe := x.fe, last := x.last }

/-- What a save keeps (R357): the region with the role map in force and each clause's cycles since its load, its
conductors by rank, its cells by rank and position, without any physical number. -/
def State.imageOf (s : State) (q : Nat) (r : Region) : Image :=
  let b := toRanks r.clusters
  { rclass := s.rclass
    region := b.region { r with
      roleMap := s.roleMapOf r, phase := .saving, quiet := false, started := 0, copied := []
      clauses := r.clauses.map (fun cl => { cl with
        began := s.cycle - cl.began
        chans := cl.chans.map (fun ch => { ch with hops := ch.hops.map (fun h => { h with cross := false }) })
        couples := cl.couples.map (fun x => { x with sampleC := none, sampleP := none, inFlight := none, sampled := 0, resumed := false, moved := (0, 0, 0) }) }) }
    conds := r.clusters.map (fun k =>
      let c := b.cond none (s.cond k)
      { c with cmds := c.cmds.map Command.saved })
    cells := (s.sections q r).map (fun x =>
      (r.clusters.idxOf (x.1 / 17), x.1 % 17, if x.2 then b.inCell 0 (s.cell x.1).kept else Cell.init))
    dies := r.clusters.map (· / 12)
    parts := [] }

/-- A conductor without its past: its commands are numbered from 0, and its accesses counted afresh (R360). -/
def Cond.plain (c : Cond) : Cond :=
  { c with
    hart := { c.hart with pendSeq := 0 }, nextId := c.cmds.length
    cmds := c.cmds.zipIdx.map (fun m => { m.1 with id := m.2, upto := 0 }) }

/-- An operation without its past. -/
def PulseOp.plain (o : PulseOp) (n : Nat) : PulseOp := { o with ord := n, readyAt := 0 }

/-- A cell without its past: `ids` numbers the commands that its patterns complete. -/
def Cell.plain (ids : Nat × Nat → Nat × Nat) (x : Cell) : Cell :=
  let pattern (p : Pattern) : Pattern := { p with cmd := p.cmd.map ids }
  { x with
    ord := x.ops.length, ops := x.ops.zipIdx.map (fun o => o.1.plain o.2)
    ctx := Vector.ofFn (fun c =>
      let h := x.ctx[c]
      { h with
        pendSeq := 0
        ports := Vector.ofFn (fun q =>
          let o := h.ports[q]
          { o with cur := o.cur.map pattern, nxt := o.nxt.map pattern }) }) }

/-- An image without any number that only the past has given: two saves of one state are equal (R360). -/
def Image.plain (i : Image) : Image :=
  let ids (c : Nat × Nat) : Nat × Nat := (c.1, ((i.conds.getD c.1 Cond.init).cmds.map (·.id)).idxOf c.2)
  { i with conds := i.conds.map Cond.plain, cells := i.cells.map (fun c => (c.1, c.2.1, c.2.2.plain ids)) }

/-- The hops of a channel between the dies that its clause's cells now stand on (R226, R230). -/
def Chan.recrossed (ch : Chan) (cells : List Nat) : Chan :=
  let dies := ch.dies cells
  { ch with hops := ch.hops.zipIdx.map (fun h =>
      { h.1 with cross := crossDie (dies.getD h.2 none) (dies.getD (h.2 + 1) none) }) }

/-- Whether a section holds nothing: its role has not loaded, or is released. -/
def Cell.vacant (x : Cell) : Bool := x.bound.isNone && x.last.isNone

def restoreCells (b : Rebind) (q : Nat) : List (Nat × Nat × Cell) → State → State
  | [], s => s
  | (rank, pos, x) :: r, s =>
    let p := b.cell (17 * rank + pos)
    restoreCells b q r (if x.vacant then s else s.setCell p (b.inCell q x))

def restoreConds (b : Rebind) (q : Nat) : List (Nat × Cond) → State → State
  | [], s => s
  | (k, c) :: r, s => restoreConds b q r (s.setCond k (b.cond (some q) c))

/-- The cells that an image names. -/
def Image.used (i : Image) : List Nat :=
  i.region.roleMap ++ (i.region.clauses.map (·.cells)).flatten ++ i.cells.map (fun c => 17 * c.1 + c.2.1)

/-- An image restored on some clusters (R361): it runs on from its saved boundaries. A clause that reads the seam and has not
loaded a role waits for the seamw commands to its new dies (R188). -/
def State.restore (s : State) (q : Nat) (i : Image) (ks : List Nat) : State :=
  let b := fromRanks s ks i.used
  let r := b.region i.region
  let r1 := { r with
    clusters := ks, phase := .running, started := s.cycle, quiet := false
    clauses := r.clauses.map (fun cl => { cl with
      began := s.cycle - cl.began
      chans := cl.chans.map (fun ch => ch.recrossed cl.cells)
      couples := cl.couples.map (fun x => { x with resumed := true }) }) }
  let s1 := restoreConds b q (ks.zip i.conds) (restoreCells b q i.cells (s.setRegion q r1))
  s1.modRegion q (fun r => { r with clauses := r.clauses.map (fun cl =>
    { cl with waits := cl.waits || (cl.seam && cl.loaded.isEmpty && s1.seamwTo (seamDies r cl.extents)) }) })

end Sys2Proof.Machine
end

