-- ==== Sys2Proof/Machine/Save.lean ====
section
/-! DEFINITION. The bytes of a context image, its places in the save areas, and an image read from memory (spec/19 R346,
R357 to R361; spec/12 R241; spec/21 R390). -/
namespace Sys2Proof.Machine

/-! ### Layouts

The manual places the pieces of an image and gives their sizes; how the registers of a conductor, a command, a context, a
port, a log entry, an operation and the rate state lie inside theirs it leaves to the module (log entry 40). What they are
given holds nothing of the past (`Image.plain`), so equal states give equal bytes (R360). -/

/-- Registers, PC and CSRs of a conductor. -/
opaque condLayout : Hart → List Byte
/-- A command's words and progress. -/
opaque cmdLayout : Command → List Byte
opaque hartLayout : Hart → List Byte
opaque portLayout : Port → List Entry → List Byte
opaque logLayout : LogEntry → List Byte
opaque opLayout : PulseOp → List Byte
opaque rateLayout : Cell → List Couple → List Byte
/-- What the bytes of an image that this module has not written say beyond the pieces whose places the manual gives. -/
opaque readLayout : List Byte → Image

def sectionSize : Nat := 589824
def condSize : Nat := 8192
def headSize : Nat := 4096

/-! ### Bytes of an image (R357 to R360) -/

/-- The bytes of a tile: 48 rows of 24 binary32 (R36). -/
def tileBytes (t : Tile) : List Byte := (List.range 1152).flatMap (fun i => leBytes 4 (tget t i 0).toNat)

/-- A cell of an image by its rank-form number. -/
def Image.cell? (i : Image) (p : Nat) : Option Cell := (i.cells.find? (fun c => 17 * c.1 + c.2.1 == p)).map (·.2.2)

/-- The tokens of a channel that have not reached its consumer's port, oldest first; in an image they stand at that port
(R360). -/
def Image.onTheWay (i : Image) (cl : Clause) (ch : Chan) : List Entry :=
  (ch.hops.map (·.buf)).reverse.flatten ++
    (match ch.src with
      | .port r c q =>
        if cl.endLive ch.src then (((i.cell? (cl.cells.getD r 0)).map (fun x => x.ctx[c].ports[q].queue)).getD []) else []
      | .edge _ _ => ch.edge
      | .remote _ => [])

/-- The entries of a port's slot: what is queued there, and what its channel still brings (R359, R360). -/
def Image.slotEntries (i : Image) (x : Cell) (c : Fin 4) (q : Fin 8) : List Entry :=
  let o := x.ctx[c].ports[q]
  match x.bound.bind (fun b => (i.region.clauses.find? (fun cl => cl.num == b.2.1)).map (fun cl => (b.2.2, cl))) with
  | none => o.queue
  | some (role, cl) =>
    o.queue ++ (cl.chans.filter (fun ch => ch.dst == .port role c q)).flatMap (i.onTheWay cl)

/-- The couplings whose channels have an end on a cell (R359). -/
def Image.couplesOf (i : Image) (x : Cell) : List Couple :=
  match x.bound with
  | none => []
  | some (_, n, role) =>
    (i.region.clauses.filter (fun cl => cl.num == n)).flatMap (fun cl =>
      cl.couples.filter (fun k =>
        match cl.chans[k.chan]? with
        | none => false
        | some ch =>
          (match ch.src with | .port r _ _ => r == role | _ => false) ||
            (match ch.dst with | .port r _ _ => r == role | _ => false)))

/-- A cell section (R359); that of a role without a cell's state is zero. -/
def Image.section (i : Image) (x : Cell) : List Byte :=
  if x.vacant then List.replicate sectionSize 0
  else x.store.read 0 524288 ++
    (x.ctx.toList.flatMap (fun h => fit 3472 (hartLayout h))) ++
    x.acc.toList.flatMap tileBytes ++
    (List.finRange 4).flatMap (fun c => (List.finRange 8).flatMap (fun q =>
      fit 768 (portLayout x.ctx[c].ports[q] (i.slotEntries x c q)))) ++
    fit 5120 (x.log.flatMap (fun e => fit 80 (logLayout e))) ++
    fit 768 (x.ops.flatMap (fun o => fit 48 (opLayout o))) ++
    fit 512 (rateLayout x (i.couplesOf x)) ++ List.replicate 2240 0

/-- The address in the context's space of an address of the launch extent (R190, R338), and back. -/
def Region.gvaOf (r : Region) (v : DWord) : Nat :=
  ((r.extents.find? (fun e => e.idx == fld v.toNat 47 40)).map (·.base)).getD 0 + fld v.toNat 39 0
def Region.formOf (r : Region) (g : Nat) : DWord :=
  dwn (r.lext * 2 ^ 40 + (g - ((r.extents.find? (fun e => e.idx == r.lext)).map (·.base)).getD 0))

/-- A clause record of the header: image address, number, iterations, cycles since the load, load state, roles released and
NROLE. The sizes of its fields after the first are the model's (log entry 40). -/
def Clause.headRecord (r : Region) (cl : Clause) : List Byte :=
  let state := if cl.waits then 0 else if cl.loaded.length < cl.roles.length then 1 else 2
  fit 64 (leBytes 8 (r.gvaOf cl.img) ++ leBytes 4 cl.num ++ leBytes 4 cl.iters ++ leBytes 8 cl.began.toNat ++
    leBytes 2 state ++ leBytes 2 cl.released.length ++ leBytes 2 cl.roles.length)

/-- A conductor image (R358): registers, PC and CSRs; 16 commands of 64 bytes; 16 records of 64 bytes; zeros. An abandoned
hold leaves its PC alone: the held instruction executes afresh from there (R161, R360). -/
def Cond.imageBytes (c : Cond) : List Byte :=
  fit 1024 (condLayout c.hart) ++ fit 1024 (c.cmds.flatMap (fun m => fit 64 (cmdLayout m))) ++
    fit 1024 (c.records.flatMap Record.bytes) ++ List.replicate 5120 0

/-- Whether a die is the lowest of an image's region. -/
def Image.lowest (i : Image) (d : Nat) : Bool := i.dies.head? == some d && !i.dies.any (fun e => decide (e < d))

/-- Bytes of an image on a die, from the dies of its ranks and of its sections. -/
def bytesOn (dies sections : List Nat) (d : Nat) : Nat :=
  sectionSize * (sections.filter (· == d)).length + (if dies.head? = some d then headSize + condSize * dies.length else 0)

def Image.bytes (i : Image) : Nat := headSize + condSize * i.conds.length + sectionSize * i.cells.length

/-- The region header (R357). -/
def Image.header (i : Image) : List Byte :=
  let r := i.region
  let off (d : Nat) : Nat := ((i.parts.find? (fun p => p.1 == d)).map (·.2.1)).getD 0
  leBytes 2 1 ++ leBytes 2 i.rclass ++ leBytes 2 r.ctx ++ leBytes 1 i.conds.length ++ leBytes 1 r.dmode.toNat ++
    leBytes 8 r.consumed ++ leBytes 8 i.bytes ++ (List.range 4).flatMap (fun d => leBytes 8 (off d)) ++ leBytes 8 0 ++
    fit 128 (r.clauses.flatMap (Clause.headRecord r)) ++
    (List.range 256).flatMap (fun m => leBytes 4 (tget r.sems m 0)) ++
    fit 1640 (leBytes 8 r.roleMap.length ++ r.roleMap.flatMap (fun p => leBytes 2 (p / 17 * 1024 + p % 17))) ++
    List.replicate 1240 0

/-- The sections of an image on a die. -/
def Image.onDie (i : Image) (d : Nat) : List Cell :=
  (i.cells.filter (fun c => i.dies.getD c.1 0 == d)).map (·.2.2)

/-- The header and the conductor images, which stand on the lowest die (R357, R358). -/
def Image.front (i : Image) : List Byte := i.header ++ i.conds.flatMap Cond.imageBytes

/-- The part of an image on a die. -/
def Image.part (i : Image) (d : Nat) : List Byte :=
  (if i.dies.head? = some d then i.front else []) ++ (i.onDie d).flatMap i.section

/-! ### Places in the save areas (R241, R346) -/

/-- Where a die's save area begins in the seam. -/
def saveBase (d : Nat) : Nat := d * 2 ^ 36 + Config.seamDie

/-- The lowest free offset of a save area for some bytes, among the parts that stand there. -/
def freeOffset (used : List (Nat × Nat)) (n : Nat) : Option Nat :=
  let ok (o : Nat) : Bool := decide (o + n ≤ 2 ^ 30) && used.all (fun u => decide (o + n ≤ u.1) || decide (u.1 + u.2 ≤ o))
  ((0 :: used.map (fun u => u.1 + u.2)).filter ok).min?

/-- Parts that images hold on a die. -/
def partsOn (ps : List (Nat × Nat × Nat)) (d : Nat) : List (Nat × Nat) := (ps.filter (fun p => p.1 == d)).map (·.2)

/-- Every part of the images that are kept. -/
def State.savedParts (s : State) : List (Nat × Nat × Nat) := s.saves.flatMap (fun i => i.2.parts)

/-- Places for an image of some size on each die beside other parts; none when a die has no room. -/
def placeParts (ps : List (Nat × Nat × Nat)) (size : Nat → Nat) : List Nat → Option (List (Nat × Nat × Nat))
  | [] => some []
  | d :: ds =>
    if size d = 0 then placeParts ps size ds
    else
      match freeOffset (partsOn ps d) (size d), placeParts ps size ds with
      | some o, some r => some ((d, o, size d) :: r)
      | _, _ => none

/-- Places for an image in the save areas of its dies. -/
def State.placeImage (s : State) (q : Nat) (i : Image) : Option (List (Nat × Nat × Nat)) :=
  placeParts ({ s with saves := tdel s.saves q } : State).savedParts
    (bytesOn i.dies (i.cells.map (fun c => i.dies.getD c.1 0))) (List.range 4)

/-- Full/empty bits of an image's sections, as word numbers of the seam, where a part begins at `base`. -/
def Image.feWords (i : Image) (d base : Nat) : List Nat :=
  let lead := if i.dies.head? = some d then headSize + condSize * i.conds.length else 0
  (i.onDie d).zipIdx.flatMap (fun x => x.1.fe.map (fun w => (base + lead + sectionSize * x.2) / 8 + w))

/-- The save engine writes an image into its parts (R351, R357). -/
def storeParts (i : Image) : List (Nat × Nat × Nat) → State → State
  | [], s => s
  | (d, off, n) :: ps, s =>
    let base := saveBase d + off
    storeParts i ps { s with
      seam := (s.seam.cut base n).write base (i.part d)
      feSave := (i.feWords d base).foldl setAdd (s.feSave.filter (fun w => decide (8 * w < base) || decide (base + n ≤ 8 * w)))
      bad := s.bad.filter (fun p => match p with
        | .seam a => decide (a + 64 ≤ base) || decide (base + n ≤ a)
        | _ => true) }

/-- An uncorrectable word among an image's parts (R390). -/
def State.badPart (s : State) (i : Image) : Option Place :=
  s.bad.find? (fun p => match p with
    | .seam a => i.parts.any (fun x =>
        let base := saveBase x.1 + x.2.1
        decide (base < a + 64) && decide (a < base + x.2.2))
    | _ => false)

/-! ### An image in memory (RES = 1) -/

/-- Where some bytes of a context's GVA space lie, by walks (R322); none when one fails. -/
def State.gvaPlaces (s : State) (root g : Nat) : Nat → State × Option (List Place)
  | 0 => (s, some [])
  | n + 1 =>
    if 2 ^ 52 ≤ g then (s, none)
    else
      match s.walk root g with
      | (s1, none) => (s1, none)
      | (s1, some p) =>
        match State.gvaPlaces s1 root (g + 1) n with
        | (s2, some ps) => (s2, some (.bulk (p.frame + g % 2 ^ 16) :: ps))
        | (s2, none) => (s2, none)

/-- Bytes of a context's GVA space, by walks (R322). -/
def State.gvaRead (s : State) (root g n : Nat) : State × Option (List Byte) :=
  match s.gvaPlaces root g n with
  | (s1, some ps) => (s1, some (s1.getBytes ps))
  | (s1, none) => (s1, none)

/-- Numbers of the 8-byte words of some bytes that are marked full. -/
def State.fullWords (s : State) (ps : List Place) : List Nat :=
  (ps.zipIdx.filter (fun p => p.2 % 8 == 0 && s.isFull p.1)).map (fun p => p.2 / 8)

/-- The region header of a context image (R340, R357): false for CODE 0x06. Its fields and the role map it holds must be
well formed, and its length that of whole sections. -/
def headerOk (ctx ncl : Nat) (h : List Byte) : Bool :=
  let n := imgNum h 0x4C0 2
  let total := imgNum h 0x10 8
  let lead := headSize + condSize * ncl
  imgNum h 0 2 == 1 && imgNum h 4 2 == ctx && imgNum h 6 1 == ncl && decide (imgNum h 7 1 < 4) && imgNum h 0x38 8 == 0 &&
    imgNum h 0xB28 1240 == 0 && imgNum h 0x4C2 6 == 0 && decide (1 ≤ n) && decide (n ≤ 816) &&
    (List.range n).all (fun i =>
      let e := imgNum h (0x4C8 + 2 * i) 2
      fld e 9 5 == 0 && decide (fld e 15 10 < ncl) && decide (fld e 4 0 ≤ 16)) &&
    decide (lead ≤ total) && (total - lead) % sectionSize == 0

/-- Role-map entries in rank form (R357). -/
def rankMap (h : List Byte) : List Nat :=
  (List.range (imgNum h 0x4C0 2)).map (fun i =>
    let e := imgNum h (0x4C8 + 2 * i) 2
    17 * fld e 15 10 + fld e 4 0)

/-- A tile from its bytes. -/
def tileFrom (bs : List Byte) : Tile :=
  ((List.range 1152).map (fun i => (i, BitVec.ofNat 32 (imgNum bs (4 * i) 4)))).filter (fun e => e.2 != 0)

/-- A clause as its record in the header has it. -/
def Clause.withRecord (r : Region) (cl : Clause) (h : List Byte) (at8 : Nat) : Clause :=
  { cl with
    img := r.formOf (imgNum h at8 8), num := imgNum h (at8 + 8) 4, iters := imgNum h (at8 + 12) 4, began := imgNum h (at8 + 16) 8
    waits := imgNum h (at8 + 24) 2 == 0 }

/-- A cell as its section has it: its store, its full/empty bits, given by word, and its tiles stand at their places. -/
def Cell.withSection (x : Cell) (b : List Byte) (fe : List Nat) : Cell :=
  { x with
    store := Memory.write [] 0 (b.take 524288), fe := fe
    acc := Vector.ofFn (fun t => tileFrom ((b.drop (0x83640 + 4608 * t.val)).take 4608)) }

/-- All bytes of an image: header, conductor images and sections, one after the other (R357). -/
def Image.all (i : Image) : List Byte := i.front ++ i.cells.flatMap (fun c => i.section c.2.2)

/-- The image that some bytes hold (R357, R361). Bytes that the module has written read as the image they were written
from, so every agent, port, command and record is as it was saved. Of other bytes, what the manual places is taken from its
place and the rest is as the module lays it out (log entry 40). `full` says which words of the bytes are marked full. -/
def imageFrom (written : List Image) (ncl : Nat) (b : List Byte) (full : List Nat) : Image :=
  let i := (written.find? (fun i => i.all == b)).getD (readLayout b)
  let lead := headSize + condSize * ncl
  { i with
    rclass := imgNum b 2 2
    dies := List.replicate ncl 0
    parts := []
    conds := i.conds.take ncl ++ List.replicate (ncl - i.conds.length) Cond.init
    cells := (i.cells.take ((b.length - lead) / sectionSize)).zipIdx.map (fun c =>
      let at8 := lead + sectionSize * c.2
      (c.1.1, c.1.2.1, c.1.2.2.withSection ((b.drop at8).take sectionSize)
        ((full.filter (fun w => decide (at8 ≤ 8 * w) && decide (8 * w < at8 + 524288))).map (· - at8 / 8))))
    region := { i.region with
      clusters := List.range ncl, ctx := imgNum b 4 2, dmode := BitVec.ofNat 2 (imgNum b 7 1), consumed := imgNum b 8 8
      sems := ((List.range 256).map (fun m => (m, imgNum b (0xC0 + 4 * m) 4))).filter (fun e => e.2 != 0)
      clauses := (i.region.clauses.take 2).zipIdx.map (fun cl => cl.1.withRecord i.region b (0x40 + 64 * cl.2))
      roleMap := rankMap b } }

end Sys2Proof.Machine
end

