-- ==== Sys2Proof/Machine/Distributor.lean ====
section
/-! DEFINITION. Launch queues, the checks and dispatch of records, the distributor's choice, pre-emption, saving, resuming
and retiring (spec/19 R335 to R361, spec/20 R374, spec/21 R391). -/
namespace Sys2Proof.Machine

/-! ### Queue registers (R335, R342) -/

def State.queue (s : State) (q : Nat) : Queue := tget s.queues q Queue.init
def State.setQueue (s : State) (q : Nat) (x : Queue) : State := { s with queues := tset s.queues q x }
def State.modQueue (s : State) (q : Nat) (f : Queue → Queue) : State := s.setQueue q (f (s.queue q))

def Queue.en (x : Queue) : Bool := x.qcfg.getLsbD 8
def Queue.irq (x : Queue) : Bool := x.qcfg.getLsbD 9
def Queue.vec (x : Queue) : Nat := fld x.qcfg.toNat 26 16
def Queue.log2n (x : Queue) : Nat := fld x.qcfg.toNat 3 0
def Queue.bal (x : Queue) : Nat := fld x.tokens.toNat 15 0
def Queue.tmax (x : Queue) : Nat := fld x.tokens.toNat 47 32

/-- The balance replaced. -/
def Queue.setBal (x : Queue) (b : Nat) : Queue := { x with tokens := dwn (x.tokens.toNat / 2 ^ 16 * 2 ^ 16 + b % 2 ^ 16) }

/-- What a period start does (R342): the budget, the balance, and a deadline at the end of the new period. -/
def Queue.startPeriod (x : Queue) (now : Nat) : Queue :=
  let e := now + 256 * x.period.toNat
  { x.setBal (min (x.bal + fld x.tokens.toNat 31 16) x.tmax) with
    left := 256 * x.budget.toNat, periodEnd := e, deadline := some e }

/-- Bits that a queue register may hold. -/
def regMask : QReg → Nat
  | .qbase => 0xFFFFFFFFFFC0
  | .qcfg => 0x07FF030F
  | .period | .budget => 0xFFFFFFFF
  | .tokens => 0xFFFFFFFFFFFF

/-- A queue after a write to one of its registers, unless the write is ignored (R335). A PERIOD that an enabled queue
lacked counts from the cycle in which EN became 1: the period under way starts now (R342). -/
def Queue.write (x : Queue) (r : QReg) (v : DWord) (now : Nat) : Queue :=
  let busy := x.en || x.head != x.tail
  if v.toNat &&& regMask r ≠ v.toNat then x
  else
    match r with
    | .qbase => if busy then x else { x with qbase := v }
    | .qcfg =>
      let n := fld v.toNat 3 0
      if n = 0 ∨ 12 < n ∨ (busy ∧ n ≠ x.log2n) then x
      else
        let x1 := { x with qcfg := v }
        if !x.en && x1.en then
          let x2 := { x1 with enabledAt := now }
          if x.period = 0 then x2 else x2.startPeriod now
        else x1
    | .period =>
      if x.en && x.period == 0 && v != 0 then
        { x with period := v, periodEnd := x.enabledAt + (now - x.enabledAt) / (256 * v.toNat) * (256 * v.toNat) }
      else { x with period := v }
    | .budget => { x with budget := v }
    | .tokens => { x with tokens := v }

/-- QUEUE_REGISTER_WRITE (R335). -/
def execQueueRegisterWrite (queue : Nat) (reg : QReg) (value : DWord) (s : State) : Out :=
  if s.firm.ready && decide (queue < 64) then .next (s.modQueue queue (fun x => x.write reg value s.cycle)) else .next s

/-- TAIL_WRITE (R335, R416, R418): it ends idleness, and the hold after an overheating once the die has cooled. -/
def execTailWrite (queue : Nat) (value : DWord) (s : State) : Out :=
  if s.firm.ready = false ∨ 64 ≤ queue then .next s
  else
    let s1 := if s.power.hot && decide (s.power.temp < 90) then { s with power := { s.power with hot := false } } else s
    let s2 := s1.wake
    if value.toNat < 2 ^ (s2.queue queue).log2n ∧ value.toNat < 2 ^ 12 then
      .next (s2.modQueue queue (fun x => { x with tail := value.toNat }))
    else .next s2

/-- QSTAT (R335). -/
def Queue.stat (x : Queue) : DWord := dwn (x.left / 256 % 2 ^ 32 + x.periodEnd / 256 % 2 ^ 32 * 2 ^ 32)

/-- PERIOD_START (R342, R416). -/
def execPeriodStart (queue : Nat) (s : State) : Out :=
  let x := s.queue queue
  if x.en && x.period != 0 && decide (x.periodEnd ≤ s.cycle) then
    let x1 := x.startPeriod x.periodEnd
    let s1 := s.setQueue queue x1
    .next (if x1.head ≠ x1.tail ∧ 0 < x1.left then s1.wake else s1)
  else .next s

/-- BUDGET_EXHAUSTED (R342). -/
def execBudgetExhausted (queue : Nat) (s : State) : Out :=
  if (s.queue queue).left = 0 then .next (s.modQueue queue (fun x => { x with deadline := none })) else .next s

/-! ### Records (R336, R337) -/

/-- A launch record as the distributor reads it. -/
structure Launch where
  at8 : Nat
  img : Nat
  ptroot : Nat
  argp : Nat
  gpool : Nat
  spool : Nat
  gpooln : Nat
  spooln : Nat
  cap : Nat
  ctx : Nat
  ncl : Nat
  flags : BitVec 8
deriving DecidableEq, Repr

/-- The record at the head of a queue. -/
def State.headRecord (s : State) (q : Nat) : Launch :=
  let x := s.queue q
  let a := x.qbase.toNat + 64 * x.head
  let n (o k : Nat) : Nat := s.bulk.num (a + o) k
  { at8 := a, img := n 0 8, ptroot := n 8 8, argp := n 0x10 8, gpool := n 0x18 8, spool := n 0x20 8, gpooln := n 0x28 4
    spooln := n 0x2C 4, cap := n 0x30 4, ctx := n 0x34 2, ncl := n 0x36 1, flags := BitVec.ofNat 8 (n 0x37 1) }

/-- CLUSTERS of a region (R337). -/
def clusterMask (ks : List Nat) : Nat := ks.foldl (fun n k => n + 2 ^ k) 0

/-- CPL written whole (R337). -/
def State.writeCpl (s : State) (at8 state code : Nat) (ks : List Nat) : State :=
  { s with bulk := s.bulk.write (at8 + 0x38) (leBytes 8 (clusterMask ks + state * 2 ^ 48 + code * 2 ^ 52)) }

/-- The record at the head retires (R335, R341): HEAD advances, and VEC is raised when IRQ = 1. -/
def State.retireRecord (s : State) (q at8 state code : Nat) (ks : List Nat) : State :=
  let s1 := s.writeCpl at8 state code ks
  let x := s1.queue q
  let s2 := s1.setQueue q { x with head := (x.head + 1) % 2 ^ x.log2n, state := 0, consumed := 0 }
  if x.irq then { s2 with msix := s2.msix ++ [x.vec] } else s2

/-! ### Checks (R338, R340) -/

/-- A launch block (R338). -/
structure LaunchBlock where
  next : Nat
  lext : Nat
  dmode : BitVec 2
  len : Nat
  entry : Nat
  tfoff : Nat
  frbase : Nat
  extoff : Nat
  lodectx : List Nat
  est : Nat
deriving DecidableEq, Repr

/-- The launch block's own fields; none for CODE 0x01. -/
def parseBlock (b : List Byte) : Option LaunchBlock :=
  let n := imgNum b
  let len := n 8 8
  let ok := n 0 2 == 1 && decide (n 2 1 ≤ 254) && n 3 1 != 0 && decide (n 4 1 < 4) && n 5 3 == 0
    && n 0x10 4 % 4 == 0 && n 0x14 4 % 4096 == 0 && n 0x18 4 % 64 == 0 && n 0x1C 4 % 8 == 0 && n 0x48 56 == 0
    && decide (128 ≤ len) && decide (n 0x10 4 + 4 ≤ len) && decide (n 0x14 4 < len) && decide (n 0x18 4 < len)
    && decide (n 0x1C 4 < len) && decide (n 0x1C 4 + 32 * n 2 1 ≤ len)
  if ok then
    some ⟨n 2 1, n 3 1, BitVec.ofNat 2 (n 4 1), len, n 0x10 4, n 0x14 4, n 0x18 4, n 0x1C 4,
      (List.range 4).map (fun c => n (0x20 + 8 * c) 8), n 0x40 8⟩
  else none

/-- Clusters in service (R394, R395). -/
def State.inService (s : State) : Nat := ((List.range Config.clusters).filter (fun k => (s.enmapOf k).getLsbD 17)).length

/-- Whether a context is running or saved. -/
def State.ctxTaken (s : State) (ctx : Nat) : Bool :=
  s.regions.any (fun r => r.2.ctx == ctx) || s.saves.any (fun i => i.2.region.ctx == ctx)

/-- CODE of the record's own fields (R340, R395). -/
def checkRecord (s : State) (l : Launch) : Option Nat :=
  if l.ctx = 0 ∨ s.ctxTaken l.ctx then some 3
  else if l.ncl = 0 ∨ 48 < l.ncl ∨ s.inService < l.ncl then some 4
  else if l.cap = 0 ∨ 16 ≤ l.flags.toNat then some 5
  else none

/-- Bytes of the image that IMG names, walked; CODE 0x02 otherwise. -/
def State.imgRead (s : State) (l : Launch) (n : Nat) : Except Nat (List Byte) × State :=
  if l.img % 2 ^ 16 ≠ 0 then (.error 2, s)
  else
    match s.gvaRead l.ptroot l.img n with
    | (s1, some b) => (.ok b, s1)
    | (s1, none) => (.error 2, s1)

/-- The extents of a launch block, the launch extent first; or a CODE (R338, R340). -/
def launchExtents (s : State) (l : Launch) (b : LaunchBlock) : Except Nat (List Extent) × State :=
  let le : Extent := ⟨b.lext, .bulk, true, false, false, l.img, roundUp b.len (2 ^ 16), 0⟩
  match s.gvaRead l.ptroot (l.img + b.extoff) (32 * b.next) with
  | (s1, none) => (.error 2, s1)
  | (s1, some bs) =>
    match extentTable bs 0 b.next [b.lext] with
    | .error _ => (.error 1, s1)
    | .ok es => (.ok (le :: es), s1)

/-- x1 to x8 of every conductor (R336, R340); CODE 0x02 where the walk fails. -/
def launchArgs (s : State) (l : Launch) : Except Nat (List DWord) × State :=
  if l.argp = 0 then (.ok (List.replicate 8 0), s)
  else if l.argp % 8 ≠ 0 then (.error 2, s)
  else
    match s.gvaRead l.ptroot l.argp 64 with
    | (s1, none) => (.error 2, s1)
    | (s1, some bs) => (.ok ((List.range 8).map (fun i => dwn (leNat ((bs.drop (8 * i)).take 8)))), s1)

/-! ### Dispatch (R340) -/

/-- A conductor as it starts a sentence (R340 step 3). -/
def startHart (b : LaunchBlock) (args : List DWord) (rank n : Nat) : Hart :=
  { Hart.init with
    pc := dwn (b.lext * 2 ^ 40 + b.entry), run := .running, dmode := b.dmode
    x := Vector.ofFn (fun i => if 1 ≤ i.val ∧ i.val ≤ 8 then args.getD (i.val - 1) 0 else 0)
    roleIdx := BitVec.ofNat 16 rank, roleNum := BitVec.ofNat 16 n
    tframe := dwn (b.lext * 2 ^ 40 + b.tfoff + 4096 * rank) }

def startConds (q : Nat) (b : LaunchBlock) (args : List DWord) (n : Nat) : List (Nat × Nat) → State → State
  | [], s => s
  | (k, rank) :: r, s =>
    startConds q b args n r (s.modCond k (fun c => { c.freed with hart := startHart b args rank n, region := some q }))

/-- The region of a record. -/
def regionFor (l : Launch) (b : LaunchBlock) (ks : List Nat) (es : List Extent) (consumed now : Nat) : Region :=
  { Region.init l.ctx ks b.lext es with
    recAddr := l.at8, img := l.img, ptroot := l.ptroot, gpool := l.gpool, spool := l.spool, gpooln := l.gpooln
    spooln := l.spooln, cap := l.cap, flags := l.flags, imgLen := b.len, tfoff := b.tfoff, frbase := b.frbase
    est := b.est, dmode := b.dmode, lodectx := b.lodectx, consumed := consumed, started := now }

/-- A new record started on some clusters, or rejected (R340). -/
def State.launch (s : State) (q : Nat) (l : Launch) (ks : List Nat) : State :=
  let rejected (s : State) (code : Nat) : State := s.retireRecord q l.at8 6 code []
  match s.imgRead l 128 with
  | (.error c, s1) => rejected s1 c
  | (.ok hd, s1) =>
    match parseBlock hd with
    | none => rejected s1 1
    | some b =>
      match launchExtents s1 l b with
      | (.error c, s2) => rejected s2 c
      | (.ok es, s2) =>
        match launchArgs s2 l with
        | (.error c, s3) => rejected s3 c
        | (.ok args, s3) =>
          let s4 := { s3 with xlats := tset s3.xlats l.ctx (Xlat.init l.ptroot) }
          match s4.takeExtents q ⟨l.ctx, 0⟩ [] es with
          | (s5, false) => rejected { s5 with xlats := tdel s5.xlats l.ctx } 2
          | (s5, true) =>
            let s6 := (s5.setRegion q (regionFor l b ks es (s.queue q).consumed s.cycle)).emptyExtents q ⟨l.ctx, 0⟩ es
            let s7 := (startConds q b args ks.length ks.zipIdx s6).modQueue q (fun x => { x with state := 1 })
            s7.writeCpl l.at8 1 0 ks

/-- The extents of a region taken again for each owner of translations (R328). -/
def takeOwned (q ctx : Nat) : List (Nat × List Extent) → List (Nat × Extent) → State → State × Bool
  | [], _, s => (s, true)
  | (o, es) :: r, held, s =>
    match s.takeExtents q ⟨ctx, o⟩ held es with
    | (s1, true) => takeOwned q ctx r (held ++ es.map (fun e => (o, e))) s1
    | (s1, false) => (s1, false)

/-- An image resumed on some clusters (R361): a class mismatch gives STATE 7, a refusal by the translator STATE 6. The
launch goes on from the cluster-cycles of all its runs (R344). -/
def State.resume (s : State) (q : Nat) (l : Launch) (i : Image) (ks : List Nat) : State :=
  let drop (s : State) : State := { s with saves := tdel s.saves q }
  if i.rclass ≠ s.rclass then (drop s).retireRecord q l.at8 7 0 []
  else
    let region := { i.region with
      recAddr := l.at8, img := l.img, ptroot := l.ptroot, gpool := l.gpool, spool := l.spool, gpooln := l.gpooln
      spooln := l.spooln, cap := l.cap, flags := l.flags, consumed := max i.region.consumed (s.queue q).consumed }
    let ctx := region.ctx
    let s1 := { s with xlats := tset s.xlats ctx (Xlat.init l.ptroot) }
    match takeOwned q ctx ((0, region.extents) :: region.clauses.map (fun c => (c.num + 1, c.extents))) [] s1 with
    | (s2, false) => (drop { s2 with xlats := tdel s2.xlats ctx }).retireRecord q l.at8 6 2 []
    | (s2, true) =>
      let s3 := (drop s2).restore q { i with region := region } ks
      let s4 := reinstall ctx region.held false l.spool l.spooln (reinstall ctx region.held true l.gpool l.gpooln s3)
      let s5 := drainBulk ctx (s4.loggedPages ctx) s4
      (s5.modQueue q (fun x => { x with state := 1 })).writeCpl l.at8 1 0 ks

/-- An image that holds an uncorrectable word: STATE 5 with CODE 0x0E (R390). -/
def State.badImage (s : State) (q : Nat) (l : Launch) (p : Place) : State :=
  ({ s.noteUe p with saves := tdel s.saves q } : State).retireRecord q l.at8 5 0x0E []

/-- A record with RES = 1 (R340, R361): the header is walked and checked, and then the whole image is read. -/
def State.startSaved (s : State) (q : Nat) (l : Launch) (ks : List Nat) : State :=
  match s.imgRead l headSize with
  | (.error c, s1) => s1.retireRecord q l.at8 6 c []
  | (.ok h, s1) =>
    if headerOk l.ctx l.ncl h = false then s1.retireRecord q l.at8 6 6 []
    else
      match s1.gvaPlaces l.ptroot l.img (imgNum h 0x10 8) with
      | (s2, none) => s2.retireRecord q l.at8 6 2 []
      | (s2, some ps) =>
        match ps.find? s2.isBad with
        | some p => s2.badImage q l p
        | none => s2.resume q l (imageFrom s2.written l.ncl (s2.getBytes ps) (s2.fullWords ps)) ks

/-- A record chosen, with its clusters (R340, R361, R390). -/
def State.start (s : State) (q : Nat) (l : Launch) (ks : List Nat) : State :=
  if (s.queue q).state = 3 then
    match tfind s.saves q with
    | none => s
    | some i =>
      match s.badPart i with
      | some p => s.badImage q l p
      | none => s.resume q l i ks
  else if l.flags.getLsbD 0 then s.startSaved q l ks
  else s.launch q l ks

/-! ### Giving way (R345 to R347) -/

/-- The estimate of the candidate: its launch block's EST, or its image's. -/
def State.candEst (s : State) (q : Nat) (l : Launch) : Nat :=
  if (s.queue q).state = 3 then ((tfind s.saves q).map (·.region.est)).getD 0
  else
    match s.imgRead l 128 with
    | (.ok h, _) => if l.flags.getLsbD 0 then 0 else ((parseBlock h).map (·.est)).getD 0
    | (.error _, _) => 0

/-- Rc of a victim (R347). -/
def Region.remaining (r : Region) (now : Nat) : Nat :=
  r.clauses.foldl (fun n cl => max n (cl.est * cl.iters - ((now : Int) - cl.began).toNat)) 0

/-- S of a candidate (R347). -/
def State.slack (s : State) (q est : Nat) : Nat :=
  match (s.queue q).deadline with
  | none => 2 ^ 64
  | some d => d - s.cycle - est

/-- The actions of R347. -/
inductive Action where
  | drain | kill | checkpoint
deriving DecidableEq, Repr

/-- The action chosen for a victim; none when its FLAGS allow none (R347). -/
def chooseAction (s : State) (slack : Nat) (r : Region) : Option Action :=
  let kill := r.flags.getLsbD 1
  let ckpt := r.flags.getLsbD 2
  let drain := r.flags.getLsbD 3
  if drain && decide (r.remaining s.cycle ≤ min slack s.drainMax) then some .drain
  else if kill && decide (s.cycle - r.started ≤ s.killMax) then some .kill
  else if ckpt then some .checkpoint
  else if drain then some .drain
  else if kill then some .kill
  else none

/-- The bytes on each die of the image that an action would leave of a region (R349, R351, R357). -/
def State.imageSize (s : State) (q : Nat) (r : Region) (drain : Bool) : Nat → Nat :=
  bytesOn (r.clusters.map (· / 12)) ((if drain then s.drainSections r else (s.sections q r).map (·.1)).map (· / 204))

/-- Parts with room kept for one more image. -/
def reserve (ps : List (Nat × Nat × Nat)) (size : Nat → Nat) : List (Nat × Nat × Nat) :=
  match placeParts ps size (List.range 4) with
  | some x => ps ++ x
  | none => ps

/-- The save areas' parts, with room for the regions that are giving way already (R346). -/
def State.reserved (s : State) : List (Nat × Nat × Nat) :=
  s.regions.foldl (fun ps e =>
    match e.2.phase with
    | .drain _ => reserve ps (s.imageSize e.1 e.2 true)
    | .preCopy _ _ => reserve ps (s.imageSize e.1 e.2 false)
    | .saving =>
      match tfind s.saves e.1 with
      | some i => reserve ps (bytesOn i.dies (i.cells.map (fun c => i.dies.getD c.1 0)))
      | none => reserve ps (s.imageSize e.1 e.2 false)
    | .running | .killed => ps) s.savedParts

/-- A victim: its queue, region and action. -/
structure Victim where
  q : Nat
  r : Region
  act : Action
deriving DecidableEq, Repr

/-- Later deadline first, ties to the higher queue number (R346); no deadline is the latest. -/
def laterThan (a b : Option Nat × Nat) : Bool :=
  match a.1, b.1 with
  | none, none => decide (b.2 < a.2)
  | none, some _ => true
  | some _, none => false
  | some x, some y => decide (y < x) || (x == y && decide (b.2 < a.2))

def insertVictim (s : State) (v : Victim) : List Victim → List Victim
  | [] => [v]
  | w :: r =>
    if laterThan ((s.queue v.q).deadline, v.q) ((s.queue w.q).deadline, w.q) then v :: w :: r else w :: insertVictim s v r

/-- A queue's deadline is later than the candidate's. -/
def deadlineAfter (a b : Option Nat) : Bool :=
  match a, b with
  | none, some _ => true
  | some x, some y => decide (y < x)
  | _, none => false

def Phase.isRunning : Phase → Bool
  | .running => true
  | _ => false

/-- Regions whose FLAGS allow an action, in order (R346). A region already giving way is not taken again (R352). -/
def State.takeable (s : State) (q slack : Nat) : List Victim :=
  s.regions.foldl (fun acc e =>
    if e.2.phase.isRunning && deadlineAfter (s.queue e.1).deadline (s.queue q).deadline then
      match chooseAction s slack e.2 with
      | none => acc
      | some a => insertVictim s ⟨e.1, e.2, a⟩ acc
    else acc) []

/-- Victims taken whole until their clusters suffice, those whose images would not fit being skipped (R346); none when
they do not suffice. `ps` are the parts of the save areas that are spoken for. -/
def State.takeVictims (s : State) : Nat → List (Nat × Nat × Nat) → List Victim → Option (List Victim)
  | 0, _, _ => some []
  | _ + 1, _, [] => none
  | n + 1, ps, v :: r =>
    let size := s.imageSize v.q v.r (v.act == .drain)
    if v.act == .kill then (s.takeVictims (n + 1 - v.r.clusters.length) ps r).map (fun l => v :: l)
    else
      match placeParts ps size (List.range 4) with
      | none => s.takeVictims (n + 1) ps r
      | some x => (s.takeVictims (n + 1 - v.r.clusters.length) (ps ++ x) r).map (fun l => v :: l)

/-- Clusters of regions that already give way. -/
def State.coming (s : State) : Nat :=
  s.regions.foldl (fun n e => if e.2.phase.isRunning then n else n + e.2.clusters.length) 0

def State.freeCount (s : State) : Nat := ((List.range 4).map (fun d => (s.freeOn d).length)).foldl (· + ·) 0

/-- A victim begins to give way, and tokens move (R345, R349 to R351). -/
def giveWay (q : Nat) (s : State) (v : Victim) : State :=
  let n := v.r.clusters.length
  let s1 := s.modQueue q (fun x => x.setBal (x.bal - n))
  let s2 := s1.modQueue v.q (fun x => x.setBal (min (x.bal + n) (max x.tmax x.bal)))
  s2.modRegion v.q (fun r => { r with phase := match v.act with
    | .drain => .drain s.cycle
    | .kill => .killed
    | .checkpoint => .preCopy s.cycle false })

/-- The candidate lacks clusters: victims are chosen, or the queue is passed over (R343, R345, R346). `claimed` clusters,
free or coming, are those that earlier candidates of the choice wait for (R352); the candidate's own are added. -/
def State.preempt (s : State) (q : Nat) (l : Launch) (ncl claimed : Nat) : State × Nat :=
  let need := ncl - (s.freeCount + s.coming - claimed)
  if need = 0 then (s, claimed + ncl)
  else
    match s.takeVictims need s.reserved (s.takeable q (s.slack q (s.candEst q l))) with
    | none => (s, claimed)
    | some vs =>
      let pay := vs.foldl (fun n v => n + v.r.clusters.length) 0
      if (s.queue q).bal < pay then (s, claimed) else (vs.foldl (giveWay q) s, claimed + ncl)

/-! ### The choice (R343) -/

/-- Whether the distributor may dispatch at all: the module is up, in PS0, cool, and not being updated (R406, R408,
R416, R418). -/
def State.dispatching (s : State) : Bool :=
  s.firm.ready && s.power.cur == .ps0 && !s.power.hot && !s.firm.busy

def State.eligible (s : State) (q : Nat) : Bool :=
  let x := s.queue q
  x.en && x.head != x.tail && x.period != 0 && x.budget != 0 && decide (0 < x.left) && (s.region q).isNone &&
    (x.state == 0 || x.state == 3)

/-- Earlier deadline first, ties to the lower queue number. -/
def insertQueue (s : State) (q : Nat) : List Nat → List Nat
  | [] => [q]
  | r :: l => if laterThan ((s.queue r).deadline, r) ((s.queue q).deadline, q) then q :: r :: l else r :: insertQueue s q l

/-- The clusters that the head record of a queue asks for. -/
def State.headClusters (s : State) (q : Nat) : Nat :=
  if (s.queue q).state = 3 then ((tfind s.saves q).map (·.region.clusters.length)).getD 0 else (s.headRecord q).ncl

/-- One queue considered (R340, R343): a record is checked when it is dispatched; one whose NCL no module could meet is
rejected at once. -/
def considerQueue (sn : State × Nat) (q : Nat) : State × Nat :=
  let (s, claimed) := sn
  if s.eligible q = false then sn
  else
    let l := s.headRecord q
    let ncl := s.headClusters q
    let bad := if (s.queue q).state = 3 then none else checkRecord s l
    match s.place ncl, bad with
    | none, none => s.preempt q l ncl claimed
    | none, some c =>
      if ncl = 0 ∨ s.inService < ncl then (s.retireRecord q l.at8 6 c [], claimed) else s.preempt q l ncl claimed
    | some _, some c => (s.retireRecord q l.at8 6 c [], claimed)
    | some ks, none => (s.start q l ks, claimed)

/-- DISTRIBUTOR_CHOICE (R343). -/
def execDistributorChoice (s : State) : Out :=
  if s.dispatching then
    let qs := ((List.range 64).filter s.eligible).foldl (fun acc q => insertQueue s q acc) []
    .next (qs.foldl considerQueue (s, 0)).1
  else .next s

/-! ### Pre-emption in progress (R349 to R352) -/

/-- What a stopped cell still holds once the save has taken it (R260). -/
def Cell.emptied (x : Cell) : Cell := { x with log := [], ops := [], msts := [] }

/-- The region stopped and its image kept; the region holds its clusters until the save completes. -/
def State.save (s : State) (q : Nat) (r : Region) : State :=
  let s1 := s.stopRegion q r
  match s1.region q with
  | none => s1
  | some r1 =>
    let i := s1.imageOf q r1
    let s2 := (s1.cellsServing q).foldl (fun s p => s.modCell p Cell.emptied) s1
    { s2.modRegion q (fun r => { r with phase := .saving, clauses := [], copied := [] }) with saves := tset s2.saves q i }

/-- A region's run thrown away: its record stands again at the head, queued (R350). -/
def State.kill (s : State) (q : Nat) (r : Region) : State :=
  let s1 := s.stopRegion q r
  let c := ((s1.region q).map (·.consumed)).getD 0
  ((s1.removeRegion q r).modQueue q (fun x => { x with state := 0, consumed := c })).writeCpl r.recAddr 0 0 []

/-- A region stopped with nothing saved, and its record retired (R344, R391). -/
def State.endRegion (s : State) (q : Nat) (r : Region) (state code : Nat) : State :=
  let s1 := s.stopRegion q r
  ({ s1.removeRegion q r with saves := tdel s1.saves q }).retireRecord q r.recAddr state code r.clusters

/-- The TCAUSE code for which a region must end: a conductor that NESTED has stopped, whose commands are done (R275), or
what the management core has noted (R231, R334, R386, R418). -/
def State.doomOf (s : State) (r : Region) : Option Nat :=
  match r.doom with
  | some c => some c
  | none =>
    if r.clusters.any (fun k => (s.cond k).hart.run == .stopped && (s.cond k).cmds.isEmpty) then some 0x0F else none

/-- Whether a region has passed its cap (R344). -/
def Region.overCap (r : Region) : Bool := decide (r.cap * 2 ^ 16 < r.consumed)

/-- STATE and CODE with which a region ends where an action on it has completed (R344, R352). -/
def State.ending (s : State) (r : Region) : Option (Nat × Nat) :=
  match s.doomOf r with
  | some c => some (5, c)
  | none => if r.overCap then some (4, 0) else none

/-- Whether a region that has passed its cap ends at once: an action under way completes first (R352); a drain that has
outlasted DRAINMAX and that no other action may follow does not (log entry 44). -/
def State.capEnds (s : State) (r : Region) : Bool :=
  match r.phase with
  | .running | .killed => true
  | .drain began => decide (began + s.drainMax < s.cycle) && !r.flags.getLsbD 1 && !r.flags.getLsbD 2
  | .preCopy _ _ | .saving => false

/-- Every conductor of a region has halted. -/
def State.allHalted (s : State) (r : Region) : Bool := r.clusters.all (fun k => (s.cond k).hart.run == .halted)

/-- STOP_REQUEST (R350 to R353); a region whose conductors have all halted is not killed: it retires (R352). -/
def execStopRequest (queue : Nat) (s : State) : Out :=
  match s.region queue with
  | none => .next s
  | some r =>
    match r.phase, tfind s.saves queue with
    | .saving, none => .next (s.save queue r)
    | .killed, _ =>
      match s.ending r with
      | some e => .next (s.endRegion queue r e.1 e.2)
      | none =>
        if s.allHalted r then .next (s.modRegion queue (fun r => { r with phase := .running })) else .next (s.kill queue r)
    | _, _ => .next s

/-- DRAIN_STOP (R349); a region whose conductors have all halted retires instead (R352). -/
def execDrainStop (queue : Nat) (s : State) : Out :=
  match s.region queue with
  | none => .next s
  | some r =>
    match r.phase with
    | .drain _ => if r.clauses.isEmpty && !s.allHalted r then .next (s.save queue r) else .next s
    | _ => .next s

/-- DRAINMAX_EXPIRY (R349). -/
def execDrainmaxExpiry (queue : Nat) (s : State) : Out :=
  match s.region queue with
  | none => .next s
  | some r =>
    match r.phase with
    | .drain began =>
      if s.cycle ≤ began + s.drainMax then .next s
      else if r.flags.getLsbD 2 then .next (s.modRegion queue (fun r => { r with phase := .preCopy s.cycle false }))
      else if r.flags.getLsbD 1 then .next (s.modRegion queue (fun r => { r with phase := .killed }))
      else .next s
    | _ => .next s

/-- The lode table commands (R299, R351): those that complete before a save; the others are saved with their progress. -/
def CmdOp.isTable : CmdOp → Bool
  | .lfork _ | .lshare _ _ _ _ | .lrel _ | .linv _ _ => true
  | _ => false

/-- Lode table commands of a region that are dispatched, which a pre-copy lets complete (R351). -/
def State.tableBusy (s : State) (r : Region) : Bool :=
  r.clusters.any (fun k => (s.cond k).cmds.any (fun c => c.dispatched && c.failed.isNone && c.op.isTable))

/-- The pre-copy copies a line of a cell that serves its region (R351). -/
def copyLine (q p line : Nat) (s : State) : State :=
  match s.region q with
  | some r =>
    match r.phase with
    | .preCopy _ _ =>
      if (s.cellsServing q).contains p && decide (line < 8192) then
        s.modRegion q (fun r => { r with
          copied := (p, line, (s.cell p).store.read (64 * line) 64) :: r.copied.filter (fun l => l.1 != p || l.2.1 != line) })
      else s
    | _ => s
  | none => s

/-- Cell-store bytes of a region on a die that the save would still have to write: lines not copied, or written since
(R351, R354). -/
def State.dirtyBytes (s : State) (q : Nat) (r : Region) (die : Nat) : Nat :=
  let cells := (s.cellsServing q).filter (fun p => p / 204 == die)
  let clean := r.copied.filter (fun l => cells.contains l.1 && (s.cell l.1).store.read (64 * l.2.1) 64 == l.2.2)
  524288 * cells.length - 64 * clean.length

/-- PRE_COPY_END (R351): the stop request is sent once the dirty bytes on every die have fallen far enough and the lode
table commands have completed; a region whose conductors have all halted retires instead (R352). -/
def execPreCopyEnd (queue : Nat) (s : State) : Out :=
  match s.region queue with
  | none => .next s
  | some r =>
    match r.phase with
    | .preCopy _ _ =>
      if !s.tableBusy r && !s.allHalted r && (List.range 4).all (fun d => decide (s.dirtyBytes queue r d ≤ Config.preCopyBytes)) then
        .next (s.modRegion queue (fun r => { r with phase := .saving }))
      else .next s
    | _ => .next s

/-- PCMAX_EXPIRY (R351): from now on writes to copied lines hold. -/
def execPcmaxExpiry (queue : Nat) (s : State) : Out :=
  match s.region queue with
  | none => .next s
  | some r =>
    match r.phase with
    | .preCopy began false =>
      if s.cycle < began + s.pcMax then .next s
      else .next (s.modRegion queue (fun r => { r with phase := .preCopy began true }))
    | _ => .next s

/-- SAVE_COMPLETE (R260, R349, R351): once the region is quiet and its image has its places, the image is written, the
record stands with STATE 3, and the clusters are free; the image of a region that must end is discarded (R352). The
conductors' commands and records are saved as they stand by then (R277, R352). -/
def execSaveComplete (queue : Nat) (s : State) : Out :=
  match s.region queue, tfind s.saves queue with
  | some r, some i =>
    if r.phase = .saving ∧ r.quiet = true then
      match s.ending r with
      | some e => .next (s.endRegion queue r e.1 e.2)
      | none =>
        match s.placeImage queue i with
        | none => .next s
        | some ps =>
          let i1 := Image.plain { i with
            parts := ps
            region := { i.region with consumed := r.consumed, xfaults := ((toRanks r.clusters).region r).xfaults }
            conds := (r.clusters.zip i.conds).map (fun c =>
              { c.2 with
                cmds := (s.cond c.1).cmds.map Command.saved
                records := (s.cond c.1).records.map (toRanks r.clusters).record }) }
          let s1 := s.removeRegion queue r
          let s2 : State := { storeParts i1 ps s1 with
            saves := tset s1.saves queue i1, written := s1.written ++ [i1] }
          .next ((s2.modQueue queue (fun x => { x with state := 3 })).writeCpl r.recAddr 3 0 r.clusters)
    else .next s
  | _, _ => .next s

/-! ### Retirement and forced ends (R341, R344, R391) -/

/-- SENTENCE_RETIREMENT (R341): quiescent, then every store is performed at system scope. -/
def execSentenceRetirement (queue : Nat) (s : State) : Out :=
  match s.region queue with
  | none => .next s
  | some r =>
    if r.phase.moves && r.quiet && s.allHalted r && s.quiescent queue r then
      let s1 := r.clusters.foldl (fun s k => s.performAgent (.cond k)) s
      .next ((s1.removeRegion queue r).retireRecord queue r.recAddr 2 0 r.clusters)
    else .next s

/-- OVERRUN (R344, R352): the cap is passed, or the management core ends the region with STATE 5. -/
def execOverrun (queue : Nat) (s : State) : Out :=
  match s.region queue with
  | none => .next s
  | some r =>
    match s.doomOf r with
    | some c => .next (s.endRegion queue r 5 c)
    | none => .next (if r.overCap && s.capEnds r then s.endRegion queue r 4 0 else s)

end Sys2Proof.Machine
end

