-- ==== Sys2Proof/Machine/Wire.lean ====
section
/-! DEFINITION. A packet as its flits: the header's layout, its CRCs, and the packet that some flits are (spec/21 R380). -/
namespace Sys2Proof.Machine

/-! ### CRC-32C -/

/-- One bit of the remainder, least significant first: 0x82F6_3B78 is the polynomial 0x1EDC_6F41 reflected. -/
def crcBit (c : Word) : Word := if c.getLsbD 0 then (c >>> 1) ^^^ 0x82F63B78 else c >>> 1

def crcByte (c : Word) (b : Byte) : Word := (List.range 8).foldl (fun c _ => crcBit c) (c ^^^ b.setWidth 32)

/-- CRC-32C of some bytes, of which the rule gives the polynomial: bits reflected, first value and last mask all ones (log
entry 68). -/
def crc32c (bs : List Byte) : Word := ~~~ (bs.foldl crcByte 0xFFFFFFFF)

/-! ### The header (R380) -/

def PType.num : PType → Nat
  | .idle => 0 | .write => 1 | .readReq => 2 | .readRsp => 3 | .token => 4 | .grant => 5 | .done => 6 | .refuse => 7

def PType.all : List PType := [.idle, .write, .readReq, .readRsp, .token, .grant, .done, .refuse]

/-- NDATA of a packet: the flits of its payload. -/
def packetNdata (p : Packet) : Nat := ceilDiv p.data.length 64

/-- The data flits: the payload with zeros beyond it. -/
def packetFlits (p : Packet) : List Byte := p.data ++ List.replicate (64 * packetNdata p - p.data.length) 0

/-- Header bytes 0x00 to 0x3B. -/
def packetHeader (t : PType) (p : Packet) : List Byte :=
  leBytes 1 t.num ++ leBytes 1 (packetNdata p) ++ leBytes 2 p.seq.toNat ++ leBytes 2 (p.ack.toNat + (if p.nak then 4096 else 0)) ++
    leBytes 2 p.data.length ++ leBytes 8 p.addr.toNat ++ leBytes 4 p.key.toNat ++ leBytes 4 p.tag.toNat ++
    leBytes 8 p.arg.toNat ++ List.replicate 24 0 ++ leBytes 4 (if packetNdata p = 0 then 0 else (crc32c (packetFlits p)).toNat)

/-- A packet on the wire: its header flit and its data flits. -/
def packetWire (t : PType) (p : Packet) : List Byte :=
  packetHeader t p ++ leBytes 4 (crc32c (packetHeader t p)).toNat ++ packetFlits p

/-! ### Lanes (R379) -/

/-- The working lanes of a mask, ascending. -/
def workingLanes (m : BitVec 16) : List Nat := (List.range 16).filter (fun l => m.getLsbD l)

/-- Flits on the 16 lanes: byte b of a flit travels on the (b mod W)-th working lane. -/
def lanesOut (m : BitVec 16) (bs : List Byte) : List (List Byte) :=
  let w := workingLanes m
  (List.range 16).map (fun l =>
    if m.getLsbD l then (bs.zipIdx.filter (fun b => b.2 % w.length == w.idxOf l)).map (·.1) else [])

/-- The flits that the working lanes of a mask have carried. -/
def lanesIn (m : BitVec 16) (lanes : List (List Byte)) : List Byte :=
  let w := workingLanes m
  (List.range ((lanes.getD (w.headD 0) []).length)).flatMap (fun i => w.map (fun l => (lanes.getD l []).getD i 0))

/-- Why flits are no packet: a CRC fails, or a TYPE, an NDATA, a LEN or a res0 field is not as R380 has it (R382). -/
inductive Garbled where
  | crc | reserved
deriving DecidableEq, Repr

/-- The packet that some flits are. -/
def packetFrom (b : List Byte) : Except Garbled (PType × Packet) :=
  let n (o k : Nat) : Nat := leNat ((b.drop o).take k)
  let nd := n 1 1 % 8
  let data := (b.drop 64).take (64 * nd)
  let len := n 6 2
  if b.length < 64 ∨ crc32c (b.take 60) ≠ BitVec.ofNat 32 (n 0x3C 4) ∨ data.length ≠ 64 * nd
      ∨ BitVec.ofNat 32 (n 0x38 4) ≠ (if nd = 0 then 0 else crc32c data) then .error .crc
  else if 8 ≤ n 1 1 ∨ 4 < nd ∨ 4096 ≤ n 2 2 ∨ 8192 ≤ n 4 2 ∨ 2 ^ 48 ≤ n 8 8 ∨ 2 ^ 24 ≤ n 0x14 4
      ∨ ((b.drop 0x20).take 24).any (· != 0) ∨ 64 * nd < len ∨ (0 < nd ∧ len ≤ 64 * (nd - 1)) then .error .reserved
  else
    match PType.all.find? (fun t => t.num == n 0 1) with
    | none => .error .reserved
    | some t =>
      .ok (t, ⟨BitVec.ofNat 12 (n 2 2), BitVec.ofNat 12 (n 4 2 % 4096), decide (4096 ≤ n 4 2), dwn (n 8 8),
        BitVec.ofNat 32 (n 0x10 4), BitVec.ofNat 24 (n 0x14 4), dwn (n 0x18 8), data.take len⟩)

end Sys2Proof.Machine
end

