-- ==== Sys2Proof/Machine/Links.lean ====
section
/-! DEFINITION. Finub links: sending, receiving and replay, retraining, ports that go down, and what a packet does once it
is delivered (spec/18 R333, R334, spec/20 R376, spec/21 R379 to R387, R390, spec/22 R399, R400). -/
namespace Sys2Proof.Machine

/-! ### Sending (R381) -/

/-- A header as it leaves: it carries the acknowledgement and the NAK of the moment. -/
def Link.stamped (l : Link) (seq : BitVec 12) (p : Packet) : Packet := { p with seq := seq, ack := l.rxExp, nak := l.nakDue }

/-- A packet leaves: its header has carried the acknowledgement and the NAK. -/
def Link.told (l : Link) (t : PType) (p : Packet) : Link := { l with ackDue := false, nakDue := false, wire := lanesOut l.txLanes (packetWire t p) }

/-- Grants to a peer's remote channels that 64 cycles have made due (R230). -/
def Link.dueGrants (l : Link) (now : Nat) : Link :=
  let due := l.freed.filter (fun f => decide (f.2.2 + 64 ≤ now))
  { l with
    freed := l.freed.filter (fun f => !decide (f.2.2 + 64 ≤ now))
    outbox := l.outbox ++ due.map (fun f => (.grant, packet 0 0 f.1 (dwn f.2.1) [])) }

/-- PACKET_SEND (R381): a packet to resend goes before any new one, with the acknowledgement and the NAK of the moment; a
new one needs room in the window of 512; with nothing to send, an IDLE carries what is due (R379, R382). -/
def Link.send (l0 : Link) (now : Nat) : Link :=
  let l := l0.dueGrants now
  let idle := l.stamped 0 (packet 0 0 0 0 [])
  match l.resend with
  | (t, p) :: r => { l.told t (l.stamped p.seq p) with resend := r, replays := sat32 (l.replays + 1) }
  | [] =>
    match l.outbox with
    | (t, p) :: r =>
      if l.inFlight < 512 then
        { l.told t (l.stamped l.txNext p) with
          outbox := r, replay := l.replay ++ [(t, l.stamped l.txNext p)], txNext := l.txNext + 1
          lastAdvance := if l.inFlight = 0 then now else l.lastAdvance }
      else l.told .idle idle
    | [] => l.told .idle idle

def execPacketSend (port : Fin 8) (s : State) : Out :=
  if s.links[port].state = .up then .next (s.modLink port (fun l => l.send s.cycle)) else .next s

/-- REPLAY_TIMEOUT (R381): nothing has been acknowledged for 2,048 cycles. -/
def execReplayTimeout (port : Fin 8) (s : State) : Out :=
  let l := s.links[port]
  if l.state = .up ∧ 0 < l.inFlight ∧ l.lastAdvance + 2048 ≤ s.cycle then
    .next (s.modLink port (fun l => { l with resend := l.replay, lastAdvance := s.cycle }))
  else .next s

/-- An acknowledgement taken (R381); a stale one is ignored. -/
def Link.acked (l : Link) (a : BitVec 12) (now : Nat) : Link :=
  let n := (a - l.txOld).toNat
  if n ≤ l.inFlight then
    { l with
      txOld := a, replay := l.replay.drop n, resend := l.resend.drop (n - (l.replay.length - l.resend.length))
      lastAdvance := if 0 < n then now else l.lastAdvance }
  else l

/-! ### A port that goes down (R386) -/

/-- Whether an access goes through a port. -/
def PendWhat.through (w : PendWhat) (port : Fin 8) : Bool :=
  w.places.any (fun p => match p with | .peer n _ _ => n % 8 == port.val | _ => false)

/-- Whether a region has a store or a remote channel through a port. -/
def State.dependsOn (s : State) (port : Fin 8) (r : Nat × Region) : Bool :=
  (r.2.clusters.any (fun k => (s.cond k).hart.pend.any (fun p => p.what.through port))) ||
    (s.cellsOf r.2.ctx).any (fun p => (s.cell p).ctx.toList.any (fun h => h.pend.any (fun x => x.what.through port))) ||
    r.2.clauses.any (fun cl => cl.chans.any (fun ch => [ch.src, ch.dst].any (fun e =>
      match cl.remoteExt e with
      | some x => x.port == port
      | none => false)))

/-- X(rb) of a remote copy. -/
def CmdOp.remAddr : CmdOp → DWord
  | .rcopy _ rem _ _ _ _ => rem
  | _ => 0

/-- A remote copy fails (R334, R386). -/
def State.failTransfer (s : State) (t : Transfer) : State :=
  match s.cmd t.cond t.cmd with
  | some c => s.failCmd t.cond c ⟨.cmdfail, 0x20, c.op.remAddr, none⟩
  | none => s

/-- A port down, or disabled by LNKCTL: sequence numbers and the replay buffer stay (R384). -/
def State.portDown (s : State) (port : Fin 8) (st : LinkState) : State :=
  let s1 := s.links[port].transfers.foldl State.failTransfer s
  let s2 := s1.modLink port (fun l => { l with
    state := st, training := none, resend := [], outbox := [], transfers := [], txLanes := 0, rxLanes := 0 })
  (s.regions.filter (s.dependsOn port)).foldl (fun s r => s.doomRegion r.1 0x0E) s2

/-- PORT_DISABLE (R387). -/
def execPortDisable (port : Fin 8) (s : State) : Out := .next (s.portDown port .disabled)

/-- An uncorrectable error of a domain whose words have no physical address counted, and LASTUE set (R390, R392). -/
def State.countUe (s : State) (d : Fin 7) : State :=
  { s.modErr d (fun e => { e with uncorr := sat32 (e.uncorr + 1) }) with lastUe := d.val * 2 ^ 48 }

/-- A packet of the replay buffer has become uncorrectable: it counts in domain 6, and the port goes down (R388, R390). -/
def spoil (port : Fin 8) (s : State) : State :=
  if s.links[port].replay.isEmpty then s else (s.countUe 6).portDown port .down

/-! ### Retraining (R384, R400) -/

/-- Step 1: a replay in progress is abandoned. -/
def Link.train (l : Link) (now : Nat) : Link :=
  { l with state := .training, training := some ⟨now, none, none, none, false⟩, resend := [], crcTimes := [] }

/-- LANE_LOSS (R384): a lane in use, or in training, is lost. -/
def execLaneLoss (port : Fin 8) (lane : Fin 16) (s : State) : Out :=
  let l := s.links[port]
  if l.lost.getLsbD lane.val then .next s
  else
    let mark (l : Link) : Link :=
      { l with lost := l.lost ||| BitVec.ofNat 16 (2 ^ lane.val), lostCount := sat32 (l.lostCount + 1) }
    match l.state with
    | .up => .next (s.modLink port (fun l => (mark l).train s.cycle))
    | .training => .next (s.modLink port mark)
    | .down | .disabled => .next s

/-- CRC_RETRAIN (R384): 32 discards for CRCERR within 4,096 cycles. -/
def execCrcRetrain (port : Fin 8) (s : State) : Out :=
  let l := s.links[port]
  if l.state = .up ∧ 32 ≤ (l.crcTimes.filter (fun c => decide (s.cycle < c + 4096))).length then
    .next (s.modLink port (fun l => l.train s.cycle))
  else .next s

/-- TRAINING_PATTERN_RECEIVED (R400): an end that is up joins. -/
def execTrainingPatternReceived (port : Fin 8) (s : State) : Out :=
  if s.links[port].state = .up then .next (s.modLink port (fun l => l.train s.cycle)) else .next s

/-- FULL_RETRAINING (R384, R387): lost lanes may come into use again. -/
def execFullRetraining (port : Fin 8) (s : State) : Out :=
  .next (s.modLink port (fun l => { l.train s.cycle with lost := 0 }))

/-- The lanes of a width taken from a receiver's mask; none when the port goes down. -/
def lanesFor (good : BitVec 16) : Option (BitVec 16) :=
  if good = 0xFFFF then some 0xFFFF
  else if good &&& 0xFF00 = 0xFF00 then some 0xFF00
  else if good &&& 0x00FF = 0x00FF then some 0x00FF
  else none

/-- The IDLE of step 4, which carries RXEXP and no NAK (R384, R400). -/
def Link.lastIdle (l : Link) : Packet := { packet 0 0 0 0 [] with ack := l.rxExp }

/-- Step 3: once both masks are known the widths stand, and the step-4 IDLE leaves at the new width. -/
def State.widths (s : State) (port : Fin 8) : State :=
  match s.links[port].training with
  | some t =>
    match t.good, t.peer with
    | some g, some p =>
      match lanesFor g, lanesFor p with
      | some rx, some tx =>
        s.modLink port (fun l => { l with
          rxLanes := rx, txLanes := tx, wire := lanesOut tx (packetWire .idle l.lastIdle)
          training := some { t with idleSent := some (t.idleSent.getD s.cycle) } })
      | _, _ => s.portDown port .down
    | _, _ => s
  | none => s

/-- TRAINING_PATTERN_END (R384 step 2): after 1,024 cycles, the lanes that delivered the whole pattern and are not
lost. -/
def execTrainingPatternEnd (port : Fin 8) (good : BitVec 16) (s : State) : Out :=
  let l := s.links[port]
  match l.training with
  | some t =>
    if t.good.isSome ∨ s.cycle < t.began + 1024 then .next s
    else
      .next ((s.modLink port (fun l => { l with
        training := some { t with good := some (good &&& ~~~ l.lost) } })).widths port)
  | none => .next s

/-- GOOD_LANE_MASK (R384 step 3): the other end's mask. -/
def execGoodLaneMask (port : Fin 8) (good : BitVec 16) (s : State) : Out :=
  match s.links[port].training with
  | some t =>
    if t.peer.isSome then .next s
    else .next ((s.modLink port (fun l => { l with training := some { t with peer := some good } })).widths port)
  | none => .next s

/-- RETRAIN_TIMEOUT (R384 step 4): the other end's IDLE has not come within 512 cycles. -/
def execRetrainTimeout (port : Fin 8) (s : State) : Out :=
  match s.links[port].training with
  | some t =>
    match t.idleSent with
    | some c => if c + 512 ≤ s.cycle then .next (s.modLink port (fun l => l.train s.cycle)) else .next s
    | none => .next s
  | none => .next s

/-- Step 4 taken: the port is up, and every unacknowledged packet is sent again (R381, R400). The training that first
brings it up is no retraining and is not counted (R387, R397). -/
def Link.trained (l : Link) (hdr : Packet) (now : Nat) : Link :=
  let l1 := l.acked hdr.ack now
  { l1 with
    state := .up, training := none, resend := l1.replay, lastAdvance := now, wasUp := true
    retrains := if l1.wasUp then sat32 (l1.retrains + 1) else l1.retrains }

/-! ### Receiving (R382) -/

/-- A reserved bit of a header, or a payload that no packet carries (R380). -/
def badHeader (p : Packet) : Bool := fld p.addr.toNat 63 48 != 0 || decide (256 < p.data.length)

/-- The acknowledgement and the NAK of a header whose CRCs check. -/
def Link.heard (l : Link) (p : Packet) (now : Nat) : Link :=
  let l1 := l.acked p.ack now
  if p.nak then { l1 with resend := l1.replay } else l1

/-- What a discard for CRCERR or OOO leaves: one NAK until the next acceptance. -/
def Link.discarded (l : Link) : Link :=
  if l.nakOpen then l else { l with nakOpen := true, nakDue := true }

/-- A sequenced packet received: accepted, and what it does; or discarded. -/
def receive (port : Fin 8) (p : Packet) (body : State → State) (s : State) : Out :=
  let l := s.links[port]
  if l.state ≠ .up then .next s
  else if badHeader p then .next (s.portDown port .down)
  else
    let s1 := s.modLink port (fun l => l.heard p s.cycle)
    let d := (l.rxExp - p.seq).toNat
    if d = 0 then
      .next (body (s1.modLink port (fun l => { l with rxExp := l.rxExp + 1, nakOpen := false, ackDue := true })))
    else if d ≤ 512 then .next (s1.modLink port (fun l => { l with dup := sat32 (l.dup + 1), ackDue := true }))
    else .next (s1.modLink port (fun l => ({ l with ooo := sat32 (l.ooo + 1) } : Link).discarded))

/-- CRCERR (R382). -/
def execCrcErr (port : Fin 8) (s : State) : Out :=
  if s.links[port].state = .up then
    .next (s.modLink port (fun l =>
      ({ l with crcErr := sat32 (l.crcErr + 1), crcTimes := l.crcTimes ++ [s.cycle] } : Link).discarded))
  else .next s

/-- RESERVED_TYPE_PACKET (R382). -/
def execReservedTypePacket (port : Fin 8) (s : State) : Out :=
  if s.links[port].state = .up then .next (s.portDown port .down) else .next s

/-- IDLE (R382): its ACK is taken; in training it may be the other end's step-4 IDLE, which is discarded when a lane of
the new width has been lost again, or when a res0 bit is set: until it is taken the receiver discards everything (R384, R400,
log entry 38). -/
def execIdleHdr (port : Fin 8) (hdr : Packet) (s : State) : Out :=
  let l := s.links[port]
  match l.state, l.training with
  | .up, _ =>
    if badHeader hdr then .next (s.portDown port .down) else .next (s.modLink port (fun l => l.heard hdr s.cycle))
  | .training, some t =>
    if t.idleSent.isNone ∨ l.lost &&& l.rxLanes ≠ 0 ∨ badHeader hdr then .next s
    else .next (s.modLink port (fun l => l.trained hdr s.cycle))
  | _, _ => .next s

/-! ### The exporter (R333) -/

/-- The page-table root of a context that runs or is saved. -/
def State.rootOf (s : State) (ctx : Nat) : Option Nat :=
  match s.regions.find? (fun r => r.2.ctx == ctx) with
  | some r => some r.2.ptroot
  | none => (s.saves.find? (fun i => i.2.region.ctx == ctx)).map (fun i => i.2.region.ptroot)

/-- The bulk addresses of a range, walked byte by byte; a write sets D (R322, R325). -/
def walkRange (root : Nat) (write : Bool) : Nat → Nat → State → State × Option (List Nat)
  | _, 0, s => (s, some [])
  | g, n + 1, s =>
    match s.walk root g with
    | (s1, none) => (s1, none)
    | (s1, some p) =>
      if write && !p.writable then (s1, none)
      else
        let s2 := if write && !p.dirty then { s1 with bulk := s1.bulk.write p.leaf (leBytes 8 (orBits p.value 0x18)) } else s1
        match walkRange root write (g + 1) n s2 with
        | (s3, some l) => (s3, some ((p.frame + g % 2 ^ 16) :: l))
        | (s3, none) => (s3, none)

/-- The checks of R333 on a request of n bytes: the bytes it may touch. -/
def State.importCheck (s : State) (p : Packet) (n : Nat) (write : Bool) : State × Option (List Nat) :=
  let b := s.bulk.read (s.impBase.toNat + 32 * fld p.addr.toNat 47 40) 32
  let num (o k : Nat) : Nat := leNat ((b.drop o).take k)
  let fl := num 0x16 1
  let off := fld p.addr.toNat 39 0
  if bitOf fl 0 = false ∨ 4 ≤ fl ∨ num 0x17 9 ≠ 0 ∨ num 0x10 4 ≠ p.key.toNat ∨ num 8 8 < off + n ∨ (write && !bitOf fl 1)
      then (s, none)
  else
    match s.rootOf (num 0x14 2) with
    | none => (s, none)
    | some root => walkRange root write (num 0 8 + off) n s

/-- An admitted WRITE: what it goes through, and its bytes (R333, R399). -/
def State.queueAccess (s : State) (port : Fin 8) (p : Packet) (addrs : List Nat) : State :=
  let idx := fld p.addr.toNat 47 40
  let b := s.bulk.read (s.impBase.toNat + 32 * idx) 32
  let num (o k : Nat) : Nat := leNat ((b.drop o).take k)
  s.modLink port (fun l => { l with
    writes := l.writes ++ [⟨l.admitted, p.tag, idx, num 0x14 2, num 0 8 + fld p.addr.toNat 39 0, addrs, p.data⟩]
    admitted := l.admitted + 1 })

/-- Bytes written for a peer. -/
def State.importWrite (s : State) (as : List Nat) (bs : List Byte) : State := s.putBytes ((as.map Place.bulk).zip bs)

/-- An answer posted. -/
def State.answer (s : State) (port : Fin 8) (t : PType) (tag : BitVec 24) (data : List Byte) : State :=
  let arg : DWord := if t = .readRsp then 0 else dwn tag.toNat
  s.modLink port (fun l => l.post t (packet 0 0 tag arg data))

/-- WRITE (R399): admitted, it is performed in any order with the others of its push; one that fails a check is not
performed, and its push is refused at its DONE header. -/
def execWritePkt (port : Fin 8) (pkt : Packet) (s : State) : Out :=
  receive port pkt (fun s =>
    match s.importCheck pkt pkt.data.length true with
    | (s1, some as) => s1.queueAccess port pkt as
    | (s1, none) => s1.modLink port (fun l => { l with refused := l.refused ++ [pkt.tag] })) s

/-- An admitted WRITE performed. -/
def settleWrite (port : Fin 8) (i : Nat) (s : State) : State :=
  match s.links[port].writes[i]? with
  | none => s
  | some w => (s.importWrite w.addrs w.bytes).modLink port (fun l => { l with writes := delAt l.writes i })

/-- Every admitted WRITE of a push performed (R399). -/
def State.settlePush (s : State) (port : Fin 8) (tag : BitVec 24) : State :=
  let ws := s.links[port].writes.filter (fun w => w.tag == tag)
  (ws.foldl (fun s w => s.importWrite w.addrs w.bytes) s).modLink port (fun l => { l with
    writes := l.writes.filter (fun w => w.tag != tag) })

/-- READREQ (R399): answered by its bytes, or refused. -/
def execReadReq (port : Fin 8) (pkt : Packet) (s : State) : Out :=
  receive port pkt (fun s =>
    let n := pkt.arg.toNat
    if n = 0 ∨ 256 < n then s.answer port .refuse pkt.tag []
    else
      match s.importCheck pkt n false with
      | (s1, some as) =>
        if as.any (fun a => s1.isBad (.bulk a)) then s1.answer port .refuse pkt.tag []
        else s1.answer port .readRsp pkt.tag (as.map s1.bulk.get)
      | (s1, none) => s1.answer port .refuse pkt.tag []) s

/-- READRSP (R399): the payload waits for its local writes. -/
def execReadRsp (port : Fin 8) (pkt : Packet) (s : State) : Out :=
  receive port pkt (fun s => s.modLink port (fun l => { l with
    transfers := l.transfers.map (fun t => if t.tag == pkt.tag then { t with inbox := t.inbox ++ [pkt.data] } else t) })) s

/-- Whether a tag is that of one of this module's channels through a port, and which end is remote. -/
def State.ownChan (s : State) (port : Fin 8) (tag : BitVec 24) : Option (Nat × Nat × Nat × Bool) :=
  (s.chanOfTag tag).bind (fun x =>
    match s.clauseAt x.1 x.2.1 with
    | none => none
    | some cl =>
      match cl.chans[x.2.2]? with
      | none => none
      | some ch =>
        let e := if ch.dst.isRemote then cl.remoteExt ch.dst else cl.remoteExt ch.src
        match e with
        | some y => if y.port = port ∧ tag.getLsbD 22 = !ch.dst.isRemote then some (x.1, x.2.1, x.2.2, ch.dst.isRemote) else none
        | none => none)

/-- A slot of a peer's remote channel freed: a grant after four (R230). -/
def Link.freeSlot (l : Link) (tag : BitVec 24) (now : Nat) : Link :=
  let n := ((l.freed.find? (fun f => f.1 == tag)).map (·.2.1)).getD 0
  let rest := l.freed.filter (fun f => f.1 != tag)
  let first := ((l.freed.find? (fun f => f.1 == tag)).map (·.2.2)).getD now
  if 4 ≤ n + 1 then ({ l with freed := rest } : Link).post .grant (packet 0 0 tag (dwn (n + 1)) [])
  else { l with freed := rest ++ [(tag, n + 1, first)] }

/-- TOKEN (R376): a token of an inbound channel of this module; else one of a peer, written as a WRITE is, and refused at
once. -/
def execTokenPkt (port : Fin 8) (pkt : Packet) (s : State) : Out :=
  receive port pkt (fun s =>
    match s.ownChan port pkt.tag with
    | some (q, n, i, false) => s.importToken q n i (some pkt.data)
    | _ =>
      match s.importCheck pkt pkt.data.length true with
      | (s1, some as) => (s1.importWrite as pkt.data).modLink port (fun l => l.freeSlot pkt.tag s.cycle)
      | (s1, none) => s1.answer port .refuse pkt.tag []) s

/-- The size and the number of the tokens of a peer's inbound channel, which the exporter knows from the peer: the rules do
not say by which packet (log entry 41). -/
opaque serveShape : Packet → Nat × Nat

/-- A peer grants slots of its inbound channel; the first grant opens it (R376). -/
def Link.granted (l : Link) (p : Packet) : Link :=
  if l.serves.any (fun x => x.tag == p.tag) then
    { l with serves := l.serves.map (fun x => if x.tag == p.tag then { x with credit := x.credit + p.arg.toNat } else x) }
  else
    let (size, count) := serveShape p
    { l with serves := l.serves ++ [⟨p.tag, p.addr, p.key, size, count, 0, p.arg.toNat⟩] }

/-- The next token of a peer's inbound channel: read from its window and sent, or refused; after the last the drain token
(R333, R376, R378). -/
def serveToken (port : Fin 8) (i : Nat) (s : State) : State :=
  let l := s.links[port]
  match l.serves[i]? with
  | none => s
  | some x =>
    if l.state ≠ .up ∨ l.room = false ∨ x.credit = 0 ∨ x.count ≤ x.next then s
    else
      let p := packet (x.addr + dwn (x.next * x.size)) x.key x.tag 0 []
      let s2 := match s.importCheck p x.size false with
        | (s1, some as) =>
          if as.any (fun a => s1.isBad (.bulk a)) then s1.answer port .refuse x.tag []
          else s1.modLink port (fun l => l.post .token { p with data := as.map s1.bulk.get })
        | (s1, none) => s1.answer port .refuse x.tag []
      if x.next + 1 = x.count then
        (s2.modLink port (fun l => { l with serves := delAt l.serves i })).answer port .done x.tag []
      else
        s2.modLink port (fun l => { l with
          serves := modAt l.serves i (fun x => { x with next := x.next + 1, credit := x.credit - 1 }) })

/-- GRANT (R230, R376): slots of an outbound channel return, or those of a peer's inbound channel are granted. -/
def execGrantPkt (port : Fin 8) (pkt : Packet) (s : State) : Out :=
  receive port pkt (fun s =>
    match s.ownChan port pkt.tag with
    | some (q, n, i, true) =>
      s.modChan q n i (fun ch => { ch with hops := modAt ch.hops (ch.hops.length - 1) (fun h =>
        { h with free := h.free + pkt.arg.toNat }) })
    | _ => s.modLink port (fun l => l.granted pkt)) s

/-- The transfer of this module that an answer names. -/
def Link.transfer (l : Link) (tag : BitVec 24) : Option Transfer := l.transfers.find? (fun t => t.tag == tag)

/-- A transfer has its answer. -/
def State.closeTransfer (s : State) (port : Fin 8) (tag : BitVec 24) : State :=
  s.modLink port (fun l => { l with transfers := l.transfers.filter (fun t => t.tag != tag) })

/-- Whether this module has sent a DONE header of a tag that the peer has acknowledged: only then can a DONE of that tag
be the answer to it (R399, log entry 69). -/
def State.doneHeard (s : State) (port : Fin 8) (tag : BitVec 24) : Bool :=
  let l := s.links[port]
  !(l.outbox ++ l.replay).any (fun x => x.1 == .done && x.2.tag == tag)

/-- The push of this module that a DONE answers: it has sent its own DONE header. -/
def State.donePush (s : State) (port : Fin 8) (tag : BitVec 24) : Option Transfer :=
  (s.links[port].transfer tag).filter (fun t =>
    match s.cmd t.cond t.cmd with
    | some c =>
      (match c.op with | .rcopy _ _ len _ pull _ => !pull && decide (rcopyPackets len.toNat < c.prog) | _ => false) &&
        s.doneHeard port tag
    | none => false)

/-- The outbound channel of this module whose drain token a DONE answers (R377). -/
def State.doneChan (s : State) (port : Fin 8) (tag : BitVec 24) : Option (Nat × Nat × Nat) :=
  match s.ownChan port tag with
  | some (q, n, i, true) =>
    match s.getChan q n i with
    | some ch => if ch.drainHops = ch.hops.length ∧ ch.drainAcked = false ∧ s.doneHeard port tag then some (q, n, i) else none
    | none => none
  | _ => none

/-- DONE (R377, R399): the answer to a push or to an outbound channel of this module; the drain token of an inbound one,
which follows its last token anyhow; else a peer's header, answered once every WRITE of its push is performed. -/
def execDoneHdr (port : Fin 8) (pkt : Packet) (s : State) : Out :=
  receive port pkt (fun s =>
    let tag := BitVec.ofNat 24 pkt.arg.toNat
    match s.donePush port tag, s.doneChan port tag, s.ownChan port tag with
    | some t, _, _ => (s.modCmd t.cond t.cmd (fun c => { c with ready := true })).closeTransfer port tag
    | none, some (q, n, i), _ => s.modChan q n i (fun ch => { ch with drainAcked := true })
    | none, none, some (_, _, _, false) => s
    | none, none, _ =>
      let s1 := s.settlePush port tag
      let bad := s1.links[port].refused.contains tag
      (s1.modLink port (fun l => { l with
        refused := l.refused.filter (· != tag), freed := l.freed.filter (fun f => f.1 != tag) })).answer port
        (if bad then .refuse else .done) tag []) s

/-- REFUSE (R334, R378, R399). -/
def execRefusePkt (port : Fin 8) (pkt : Packet) (s : State) : Out :=
  receive port pkt (fun s =>
    let tag := BitVec.ofNat 24 pkt.arg.toNat
    match s.links[port].transfer tag, s.ownChan port tag with
    | some t, _ => (s.failTransfer t).closeTransfer port tag
    | none, some (q, _, _, true) => s.doomRegion q 0x0E
    | none, some (q, n, i, false) => s.importToken q n i none
    | none, none => s) s

/-! ### Flits as they arrive (R380, R382) -/

/-- Flits that arrive on the lanes of a port: the packet they are, or a discard (R379, R382). -/
def wireIn (port : Fin 8) (lanes : List (List Byte)) (s : State) : Out :=
  match packetFrom (lanesIn s.links[port].rxLanes lanes) with
  | .error .crc => execCrcErr port s
  | .error .reserved => execReservedTypePacket port s
  | .ok (t, p) =>
    match t with
    | .idle => execIdleHdr port p s
    | .write => execWritePkt port p s
    | .readReq => execReadReq port p s
    | .readRsp => execReadRsp port p s
    | .token => execTokenPkt port p s
    | .grant => execGrantPkt port p s
    | .done => execDoneHdr port p s
    | .refuse => execRefusePkt port p s

end Sys2Proof.Machine
end

