-- ==== Sys2Proof/Machine/Health.lean ====
section
/-! DEFINITION. Refresh, corrected and uncorrectable errors, the health page, cell retirement and partitions (spec/11 R231,
spec/12 R243, spec/21 R388 to R395). -/
namespace Sys2Proof.Machine

/-! ### Refresh (R243) -/

/-- A window starts in the cycle in which CYCLE is a multiple of PER, once; a change of PER takes effect here (R243). -/
def State.openWindow (s : State) : State :=
  if s.firm.ready && s.cycle % s.per == 0 && s.windows.all (fun w => w.2 != s.cycle) then
    { s with windows := s.windows ++ [(s.cycle / s.per % 16, s.cycle)], per := s.perNext }
  else s

/-- The oldest window ends 200 cycles after its start. -/
def State.closeWindow (s : State) : State :=
  match s.windows with
  | w :: r => if w.2 + 200 ≤ s.cycle then { s with windows := r } else s
  | [] => s

/-- REFRESH_WINDOW_START. -/
def execRefreshWindowStart (s : State) : Out := .next s.openWindow

/-- REFRESH_WINDOW_END. -/
def execRefreshWindowEnd (s : State) : Out := .next s.closeWindow

/-! ### Errors (R389, R390) -/

/-- CORRECTION_REWRITE (R389): one correctable error counts in its domain; no byte changes. -/
def execCorrectionRewrite (domain : Fin 7) (word : Place) (s : State) : Out :=
  if word.domain = some domain ∨ domain = 1 ∨ domain = 6 then
    .next (s.modErr domain (fun e => { e with corr := sat32 (e.corr + 1) }))
  else .next s

/-- PATROL_SCRUB (R389, R390): an uncorrectable word that the scrubber finds is counted only; its next consumer meets
it. Lode, bulk, seam and cell-store words are scrubbed. -/
def execPatrolScrub (domain : Fin 7) (word : Place) (uncorr : Bool) (s : State) : Out :=
  if uncorr && word.domain == some domain then
    let s1 := if s.bad.contains word.code then s else { s with bad := word.code :: s.bad }
    .next (s1.noteUe word)
  else .next s

/-! ### The health page (R392, R393) -/

def PState.num : PState → Nat
  | .ps0 => 0 | .ps1 => 1 | .ps2 => 2 | .ps3 => 3

/-- LNKSTAT (R387). -/
def Link.stat (l : Link) : Nat :=
  (match l.state with | .down => 0 | .training => 1 | .up => 2 | .disabled => 3) * 2 ^ 62 + l.txOld.toNat * 2 ^ 48
    + l.rxExp.toNat * 2 ^ 36 + l.txLanes.toNat * 2 ^ 16 + l.rxLanes.toNat

/-- A port's 64 bytes. -/
def Link.health (l : Link) : List Byte :=
  leBytes 8 l.stat ++ leBytes 4 l.crcErr ++ leBytes 4 l.dup ++ leBytes 4 l.ooo ++ leBytes 4 l.replays ++ leBytes 4 l.retrains
    ++ leBytes 4 l.lostCount ++ leBytes 32 0

/-- Everything of the page but GEN. -/
def State.healthFields (s : State) : List Byte :=
  leBytes 56 0 ++ (s.links.toList.map Link.health).flatten
    ++ (s.errs.toList.map (fun e => leBytes 4 e.corr ++ leBytes 4 e.uncorr)).flatten ++ leBytes 8 0
    ++ leBytes 8 s.lastUe ++ leBytes 120 0
    ++ ((List.range Config.clusters).map (fun k => leBytes 4 (s.enmapOf k).toNat)).flatten ++ leBytes 3136 0

/-- HSNAP_WRITE (R392, R393): a write that sets a res0 bit is ignored. -/
def execHsnapWrite (value : DWord) (s : State) : Out :=
  if s.firm.ready = false ∨ fld value.toNat 63 48 ≠ 0 ∨ fld value.toNat 11 0 ≠ 0 then .next s
  else .next { s with hsnap := value, gen := 0, snapped := none, snapAt := none }

/-- GEN advanced by one in the page and in the module (R392 steps 1, 2 and 4). -/
def State.putGen (s : State) : State :=
  { s with gen := s.gen + 1, bulk := s.bulk.write s.hsnap.toNat (leBytes 8 (s.gen + 1)) }

/-- SNAPSHOT_REWRITE (R392, R393): the next write of a rewrite of the page, which begins after a change, or the first time:
an odd GEN; then the other fields, a word at a time; then the next even GEN. -/
def execSnapshotRewrite (s : State) : Out :=
  let a := s.hsnap.toNat
  if a = 0 ∨ Config.bulkBytes < a + 4096 then .next s
  else
    match s.snapAt with
    | none => if s.snapped = some s.healthFields then .next s else .next { s.putGen with snapAt := some (s.healthFields, 0) }
    | some (f, n) =>
      if n < 511 then
        .next { s with
          bulk := s.bulk.write (a + 8 + 8 * n) ((f.drop (8 * n)).take 8), snapAt := some (f, n + 1) }
      else .next { s.putGen with snapped := some f, snapAt := none }

/-! ### Retirement (R394, R395) -/

/-- The unused healthy positions of a cluster: not enabled, not dead. -/
def State.spares (s : State) (k : Nat) : List Nat :=
  (List.range 17).filter (fun c => !(s.enmapOf k).getLsbD c && !s.dead.contains (17 * k + c))

/-- A position retired: its EN bit clears and a spare's is set; without a spare the cluster leaves service. -/
def State.retireCell (s : State) (k c : Nat) : State :=
  let s1 := { s with dead := setAdd s.dead (17 * k + c) }
  let en := s1.enmapOf k &&& ~~~ BitVec.ofNat 18 (2 ^ c)
  let en1 := match s1.spares k with
    | d :: _ => en ||| BitVec.ofNat 18 (2 ^ d)
    | [] => en &&& 0x1FFFF
  { s1 with enmap := tset s1.enmap k en1 }

/-- CELL_RETIREMENT (R395): only while no region holds the cluster. -/
def execCellRetirement (cluster : Nat) (s : State) : Out :=
  if s.regions.any (fun r => r.2.clusters.contains cluster) then .next s
  else
    let pos := (tget s.retire cluster []).filter (fun c => (s.enmapOf cluster).getLsbD c)
    .next (pos.foldl (fun s c => s.retireCell cluster c) { s with retire := tdel s.retire cluster })

/-- ENMAP of a cluster from its dead positions (R394): position 16 is the spare where 0 to 15 all pass. -/
def enmapFor (dead : List Nat) (k : Nat) : BitVec 18 :=
  let ok := (List.range 17).filter (fun c => !dead.contains (17 * k + c))
  let on := ok.take 16
  BitVec.ofNat 18 (on.foldl (fun n c => n + 2 ^ c) 0 + (if 16 ≤ ok.length then 2 ^ 17 else 0))

/-! ### Partitions -/

/-- PARTITION_CHANGE (R231): the partition of each die, and what each border admits. -/
def execPartitionChange (parts : List Nat) (admitted : List Border) (s : State) : Out :=
  if parts.length = 4 ∧ s.firm.ready then .next { s with partitions := parts, borders := admitted } else .next s

end Sys2Proof.Machine
end

