-- ==== Sys2Proof/Machine/Hash.lean ====
section
/-! DEFINITION. SHA-256 (FIPS 180-4), which spec/20 R364 and spec/23 R406 to R413 use. Its constants are computed from the
primes that the standard takes them from. -/
namespace Sys2Proof.Machine

/-! ### Constants -/

/-- The first 64 primes, below 312: what none of the primes below 18 divides, and those themselves. -/
def shaPrimes : List Nat :=
  ((List.range 312).drop 2).filter (fun n => [2, 3, 5, 7, 11, 13, 17].all (fun d => n == d || n % d != 0))

/-- The largest r below 2^n more than the start with r^k at most m, bit by bit. -/
def rootFrom (k m : Nat) : Nat → Nat → Nat
  | 0, r => r
  | n + 1, r => rootFrom k m n (if (r + 2 ^ n) ^ k ≤ m then r + 2 ^ n else r)

/-- The first 32 bits of the fraction of a k-th root. -/
def rootFraction (k p : Nat) : Word := BitVec.ofNat 32 (rootFrom k (p * 2 ^ (32 * k)) 37 0)

/-- The constants of the 64 rounds: cube roots. -/
def shaRounds : List Word := shaPrimes.map (rootFraction 3)
/-- The first chaining value: square roots of the first eight primes. -/
def shaStart : List Word := (shaPrimes.take 8).map (rootFraction 2)

/-! ### The function -/

/-- The number big-endian bytes stand for. -/
def beNat (bs : List Byte) : Nat := bs.foldl (fun n b => n * 256 + b.toNat) 0

/-- The `n` big-endian bytes of a number. -/
def beBytes (n v : Nat) : List Byte := (leBytes n v).reverse

/-- A word rotated right by three amounts, the results added bit by bit; an amount of 32 or more is a shift right by 32
less. -/
def shaMix (x : Word) (amounts : List Nat) : Word :=
  amounts.foldl (fun acc n => acc ^^^ (if n < 32 then x.rotateRight n else x >>> (n - 32))) 0

/-- The schedule from a chunk's sixteen words: each step drops the oldest and gives the next. -/
def shaSchedule : Nat → List Word → List Word
  | 0, _ => []
  | n + 1, w =>
    let at0 (i : Nat) : Word := w.getD i 0
    at0 0 :: shaSchedule n (w.drop 1 ++ [at0 0 + shaMix (at0 1) [7, 18, 35] + at0 9 + shaMix (at0 14) [17, 19, 42]])

/-- Bits of y where x is set, of z elsewhere. -/
def shaPick (x y z : Word) : Word := z ^^^ (x &&& (y ^^^ z))

/-- A round of the eight working variables, with its constant and schedule word already added. -/
def shaTurn (v : List Word) (kw : Word) : List Word :=
  match v with
  | [a, b, c, d, e, f, g, h] =>
    let t := h + kw + shaMix e [6, 11, 25] + shaPick e f g
    [t + shaMix a [2, 13, 22] + shaPick (a ^^^ b) c b, a, b, c, d + t, e, f, g]
  | _ => v

/-- The chaining value after the message's 64-byte chunks. -/
def shaFold : Nat → List Byte → List Word → List Word
  | 0, _, v => v
  | n + 1, m, v =>
    let words := (List.range 16).map (fun i => BitVec.ofNat 32 (beNat ((m.drop (4 * i)).take 4)))
    let kws := List.zipWith (· + ·) shaRounds (shaSchedule 64 words)
    shaFold n (m.drop 64) (List.zipWith (· + ·) v (kws.foldl shaTurn v))

/-- SHA-256 of bytes: 32 bytes. -/
def sha256 (m : List Byte) : List Byte :=
  let chunks := (m.length + 9 + 63) / 64
  let filled := m ++ 0x80 :: List.replicate (64 * chunks - m.length - 9) 0 ++ beBytes 8 (8 * m.length)
  (shaFold chunks filled shaStart).flatMap (fun w => beBytes 4 w.toNat)

end Sys2Proof.Machine
end

