-- ==== Sys2Proof/Machine/Hss.lean ====
section
/-! DEFINITION. The HSS signatures of RFC 8554 that firmware images and reports carry: two levels, each of
LMS_SHA256_M32_H10 with LMOTS_SHA256_N32_W4 (spec/23 R409 to R411, R413). -/
namespace Sys2Proof.Machine

/-- Bytes of an HSS signature of two levels (R409). -/
def hssSize : Nat := 5076

/-- The type codes of the two parameter sets. -/
def lmotsType : List Byte := beBytes 4 3
def lmsType : List Byte := beBytes 4 6

/-- The four-bit digits of some bytes, the higher of each byte first. -/
def hexDigits (bs : List Byte) : List Nat := bs.flatMap (fun b => [b.toNat / 16, b.toNat % 16])

/-- The 67 digits of a hash: its own 64 and those of their checksum, shifted left by four bits. -/
def chainDigits (q : List Byte) : List Nat :=
  let ds := hexDigits q
  ds ++ (hexDigits (beBytes 2 ((ds.map (fun d => 15 - d)).foldl (· + ·) 0 * 16))).take 3

/-- What stands before the hashed bytes: the tree's identifier, a number and a two-byte mark. -/
def lmsMark (ident : List Byte) (n : Nat) (m : Nat) : List Byte := ident ++ beBytes 4 n ++ beBytes 2 m

/-- A chain of one leaf run on from step `j` by `n` steps. -/
def lmsChain (ident : List Byte) (leaf i : Nat) : Nat → Nat → List Byte → List Byte
  | 0, _, v => v
  | n + 1, j, v => lmsChain ident leaf i n (j + 1) (sha256 (lmsMark ident leaf i ++ beBytes 1 j ++ v))

/-- The digits of a message under a leaf and a randomizer. -/
def messageDigits (ident : List Byte) (leaf : Nat) (c msg : List Byte) : List Nat :=
  chainDigits (sha256 (lmsMark ident leaf 0x8181 ++ c ++ msg))

/-- The one-time public key that the ends of a leaf's chains give. -/
def chainKey (ident : List Byte) (leaf : Nat) (ends : List (List Byte)) : List Byte :=
  sha256 (lmsMark ident leaf 0x8080 ++ ends.flatten)

/-- The node of a leaf in its tree. -/
def leafNode (ident : List Byte) (node : Nat) (key : List Byte) : List Byte := sha256 (lmsMark ident node 0x8282 ++ key)

/-- A node from its two children. -/
def innerNode (ident : List Byte) (node : Nat) (l r : List Byte) : List Byte := sha256 (lmsMark ident node 0x8383 ++ l ++ r)

/-- The root that a node gives with the nodes beside its way up. -/
def lmsClimb (ident : List Byte) : Nat → List Byte → List (List Byte) → List Byte
  | _, v, [] => v
  | node, v, p :: ps =>
    lmsClimb ident (node / 2) (if node % 2 = 1 then innerNode ident (node / 2) p v else innerNode ident (node / 2) v p) ps

/-- Bytes in pieces of 32. -/
def pieces32 (n : Nat) (bs : List Byte) : List (List Byte) := (List.range n).map (fun i => (bs.drop (32 * i)).take 32)

/-! ### Verification -/

/-- Whether a signature of 2,508 bytes over a message is that of an LMS public key of 56 bytes. -/
def lmsVerify (key msg sig : List Byte) : Bool :=
  let ident := (key.drop 8).take 16
  let leaf := beNat (sig.take 4)
  let c := (sig.drop 8).take 32
  let ds := messageDigits ident leaf c msg
  let ends := (List.zip ds (pieces32 67 (sig.drop 40))).zipIdx.map (fun x => lmsChain ident leaf x.2 (15 - x.1.1) x.1.1 x.1.2)
  key.length == 56 && sig.length == 2508 && key.take 4 == lmsType && (key.drop 4).take 4 == lmotsType &&
    decide (leaf < 1024) && (sig.drop 4).take 4 == lmotsType && (sig.drop 2184).take 4 == lmsType &&
    lmsClimb ident (1024 + leaf) (leafNode ident (1024 + leaf) (chainKey ident leaf ends)) (pieces32 10 (sig.drop 2188)) == key.drop 24

/-- Whether a signature of two levels over a message is that of an HSS public key of 60 bytes (R409): 4 bytes, a signature by
the upper tree of the lower tree's key, that key, and a signature by it of the message. -/
def hssVerify (key msg sig : List Byte) : Bool :=
  let low := (sig.drop 2512).take 56
  key.length == 60 && sig.length == hssSize && key.take 4 == beBytes 4 2 && sig.take 4 == beBytes 4 1 &&
    lmsVerify (key.drop 4) low ((sig.drop 4).take 2508) && lmsVerify low msg (sig.drop 2568)

/-! ### The identity key (R410) -/

/-- The identifier of a tree of the identity key, and the secret of a chain. -/
def lmsIdent (tree : Nat) : List Byte := beBytes 16 (Config.hssIdent tree).toNat
def lmsSecret (tree leaf i : Nat) : List Byte := beBytes 32 (Config.hssSecret tree leaf i).toNat

/-- A node of a tree of the identity key, `n` levels above its leaves. -/
def treeNode (tree : Nat) : Nat → Nat → List Byte
  | 0, node =>
    let leaf := node - 1024
    leafNode (lmsIdent tree) node (chainKey (lmsIdent tree) leaf ((List.range 67).map (fun i =>
      lmsChain (lmsIdent tree) leaf i 15 0 (lmsSecret tree leaf i))))
  | n + 1, node => innerNode (lmsIdent tree) node (treeNode tree n (2 * node)) (treeNode tree n (2 * node + 1))

/-- The LMS public key of a tree, 56 bytes. -/
def lmsPublic (tree : Nat) : List Byte := lmsType ++ lmotsType ++ lmsIdent tree ++ treeNode tree 10 1

/-- The node beside that of a leaf on the way up, `n` levels above it. -/
def sibling (leaf n : Nat) : Nat :=
  let node := (1024 + leaf) / 2 ^ n
  if node % 2 = 1 then node - 1 else node + 1

/-- The signature of a leaf of a tree over a message, 2,508 bytes, of which the LMOTS signature is 2,180 (R409). -/
def lmsSign (tree leaf : Nat) (msg : List Byte) : List Byte :=
  let c := beBytes 32 (Config.hssRandom tree leaf).toNat
  let ds := messageDigits (lmsIdent tree) leaf c msg
  beBytes 4 leaf ++ lmotsType ++ c ++
    (ds.zipIdx.map (fun d => lmsChain (lmsIdent tree) leaf d.2 d.1 0 (lmsSecret tree leaf d.2))).flatten ++ lmsType ++
    ((List.range 10).map (fun n => treeNode tree n (sibling leaf n))).flatten

/-- The identity HSS public key, 60 bytes (R409, R410). -/
def hssPublic : List Byte := beBytes 4 2 ++ lmsPublic 0

/-- The HSS signature that leaf q of the 2^20 of the identity key gives over a message, 5,076 bytes (R409, R410, R413). -/
def hssSign (q : Nat) (msg : List Byte) : List Byte :=
  let low := lmsPublic (q / 1024 + 1)
  beBytes 4 1 ++ lmsSign 0 (q / 1024) low ++ low ++ lmsSign (q / 1024 + 1) (q % 1024) msg

end Sys2Proof.Machine
end

