-- ==== Sys2Proof/Machine/Resolver.lean ====
section
/-! DEFINITION. Fat code objects: requests, the selection of an image, the checks of a Plynrun image, and the cache of
translations (spec/20 R363 to R373). -/
namespace Sys2Proof.Machine

/-- COREQ_WRITE (R366): a request is queued, up to 8; a value with a res0 bit set names no record. -/
def execCoreqWrite (value : DWord) (s : State) : Out :=
  let v := value.toNat
  if fld v 63 48 ≠ 0 ∨ fld v 5 0 ≠ 0 ∨ 8 ≤ s.coreq.length ∨ s.firm.ready = false then .next s
  else .next { s with coreq := s.coreq ++ [v] }

/-! ### The object (R364, R365) -/

/-- An entry of a code object. -/
structure ObjEntry where
  idx : Nat
  kind : Nat
  rclass : Nat
  req : Nat
  off : Nat
  ilen : Nat
  digest : List Byte
deriving DecidableEq, Repr

/-- An entry, unless it is disqualified. -/
def State.objEntry (s : State) (pa len idx : Nat) : Option ObjEntry :=
  let b := s.bulk.read (pa + 0x40 + 64 * idx) 64
  let n := imgNum b
  let e : ObjEntry := ⟨idx, n 0 1, n 2 2, n 8 8, n 0x10 8, n 0x18 8, (b.drop 0x20).take 32⟩
  if decide (e.kind ≤ 1) && n 1 1 == 0 && n 4 4 == 0 && e.off % (if e.kind = 0 then 2 ^ 16 else 64) == 0
      && decide (e.off + e.ilen ≤ len) && sha256 (s.bulk.read (pa + e.off) e.ilen) == e.digest then some e
  else none

/-- The header's NENT and LEN; none for CODE 0x10. -/
def State.objHeader (s : State) (pa : Nat) : Option (Nat × Nat) :=
  let b := s.bulk.read pa 64
  let n := imgNum b
  if pa % 2 ^ 16 == 0 && decide (pa + 64 ≤ Config.bulkBytes) && n 0 2 == 1 && decide (1 ≤ n 2 2) && decide (n 2 2 ≤ 64)
      && n 4 4 == 0 && imgNum b 0x10 48 == 0 && decide (0x40 + 64 * n 2 2 ≤ n 8 8)
      && decide (pa + n 8 8 ≤ Config.bulkBytes) then some (n 2 2, n 8 8)
  else none

/-- FEAT AND NOT ERRATA covers what an image requires. -/
def State.featured (s : State) (req : Nat) : Bool := req &&& (Config.feat &&& (s.errata ^^^ Config.feat)) == req

/-- The selection of R365: the entry chosen among those that are not disqualified. -/
def State.selectImage (s : State) (es : List ObjEntry) : Option ObjEntry :=
  let cand := es.filter (fun e => e.kind == 0 && s.featured e.req && decide (e.rclass ≤ s.rclass))
  let top := cand.foldl (fun m e => max m e.rclass) 0
  (cand.find? (fun e => e.rclass == top)).orElse (fun _ => es.find? (fun e => e.kind == 1))

/-! ### The request (R366, R371, R372) -/

/-- RESULT. -/
def resultWord (tlen : Nat) (hit : Bool) (ent code : Nat) : Nat :=
  tlen % 2 ^ 32 * 2 ^ 32 + b2n hit * 2 ^ 17 + 2 ^ 16 + ent * 2 ^ 8 + code

/-- The cached translation of a key, if it serves (R372). -/
def State.cached (s : State) (digest : List Byte) (ncl : Nat) : Option CacheEntry :=
  s.cache.find? (fun c => c.digest == digest && c.ncl == ncl && c.rclass == s.rclass && s.errata &&& c.used == c.em)

/-- A translation kept: a full cache replaces the entry built earliest. -/
def State.keep (s : State) (c : CacheEntry) : State :=
  let l := s.cache.filter (fun x => x.digest != c.digest || x.ncl != c.ncl || x.rclass != c.rclass)
  { s with cache := (if 1024 ≤ l.length then l.drop 1 else l) ++ [c] }

/-- The translation of an image, from the cache or made afresh; none where the translator refuses it. -/
def State.translateImage (s : State) (e : ObjEntry) (bytes : List Byte) (ncl : Nat) : Option (State × Bool × List Byte) :=
  match s.cached e.digest ncl with
  | some c => some (s, true, c.image)
  | none =>
    let used := plynUsed bytes
    if plynrunOk bytes ncl && s.errata &&& used == 0 then
      let img := plynSentence bytes ncl (s.errata &&& used)
      some (s.keep ⟨e.digest, ncl, s.rclass, used, s.errata &&& used, img⟩, false, img)
    else none

/-- The answer to a request record: the state with the image in place, and RESULT. -/
def State.resolve (s : State) (rec : List Byte) : State × Nat :=
  let pa := imgNum rec 0 8
  let dst := imgNum rec 8 8
  let ncl := imgNum rec 0x18 1
  match s.objHeader pa with
  | none => (s, resultWord 0 false 0 0x10)
  | some (nent, len) =>
    match s.selectImage ((List.range nent).filterMap (s.objEntry pa len)) with
    | none => (s, resultWord 0 false 0 0x12)
    | some e =>
      if e.kind = 0 then (s, resultWord 0 false e.idx 0)
      else
        match s.translateImage e (s.bulk.read (pa + e.off) e.ilen) ncl with
        | none => (s, resultWord 0 false e.idx 0x13)
        | some (s1, hit, img) =>
          let tlen := ceilDiv img.length 64
          if dst = 0 ∨ dst % 2 ^ 16 ≠ 0 ∨ imgNum rec 0x10 8 < 64 * tlen ∨ Config.bulkBytes < dst + 64 * tlen then
            (s1, resultWord 0 hit e.idx 0x14)
          else ({ s1 with bulk := s1.bulk.write dst img }, resultWord tlen hit e.idx 1)

/-- RESOLVER_SERVE (R365, R366): the oldest request. -/
def execResolverServe (s : State) : Out :=
  match s.coreq with
  | [] => .next s
  | at8 :: r =>
    let x := ({ s with coreq := r } : State).resolve (s.bulk.read at8 64)
    .next { x.1 with bulk := x.1.bulk.write (at8 + 0x20) (leBytes 8 x.2) }

end Sys2Proof.Machine
end

