-- ==== Sys2Proof/Machine/Firmware.lean ====
section
/-! DEFINITION. Module reset and bring-up, the firmware mailbox, measurements and reports, and the host's CXL port and
registers (spec/18 R329, spec/23 R403 to R413). -/
namespace Sys2Proof.Machine

/-! ### Measurements and images (R409 to R412) -/

/-- The extension of a measurement register. -/
def extendWith (m d : List Byte) : List Byte := sha256 (m ++ d)

/-- The 64-byte header of a firmware image (R411). -/
def fwHeader (img : List Byte) : List Byte := img.take 64

/-- The header and the body of a firmware image, and the HSS signature over the two that ends it (R409, R411). -/
def fwSigned (img : List Byte) : List Byte := img.take (img.length - hssSize)
def fwSignature (img : List Byte) : List Byte := img.drop (img.length - hssSize)

/-- What verifying a firmware image gives: none, or a CODE (R411). -/
def verifyImage (rclass : Nat) (img : List Byte) : Option Nat :=
  if img.length < 64 + hssSize ∨ hssVerify Config.vendorKey (fwSigned img) (fwSignature img) = false then some 1
  else if rclass < Config.fwLow (fwHeader img) ∨ Config.fwHigh (fwHeader img) < rclass then some 2
  else none

/-- SHA-256 of FEAT, ERRATA and RCLASS (R412). -/
def State.featDigest (s : State) : List Byte := sha256 (leBytes 8 Config.feat ++ leBytes 8 s.errata ++ leBytes 2 s.rclass)

def State.modFirm (s : State) (f : Firm → Firm) : State := { s with firm := f s.firm }

/-- An image started (R406, R408, R348): MEAS0, its ERRATA, the cache by R372, the thresholds it carries, MEAS1. -/
def State.startImage (s : State) (img : List Byte) : State :=
  let errata := Config.fwErrata (fwHeader img) % 256
  let s1 := { s with
    errata := errata, cache := s.cache.filter (fun c => errata &&& c.used == c.em)
    drainMax := min Config.drainMax 16777216, killMax := Config.killMax, pcMax := min Config.pcMax 500000 }
  s1.modFirm (fun f => { f with
    image := img, meas0 := extendWith f.meas0 (sha256 img), meas1 := extendWith f.meas1 s1.featDigest })

/-- The firmware's bring-up (R406 step 2): ENMAP from the self-tests and the retirements stored, then READY. -/
def State.bringUp (s : State) : State :=
  ({ s with
    enmap := (List.range Config.clusters).map (fun k => (k, enmapFor s.dead k))
    retire := [] } : State).modFirm (fun f => { f with ready := true })

/-- The META marks of the frames that hold a chiplet's frame table (R286). -/
def metaTable : Memory := (List.range 32768).map (fun i => (frameEntry (0xFF8000 + i) + 4, 1))

/-- MODULE_RESET (R406): the mask ROM verifies and starts the stored image, and the firmware brings the module up. The
cells that fail their self-test are given. What the store holds is kept: the images, the retirements and the leaf index.
Host and peer memory lie outside the module. -/
def execModuleReset (tests : List Nat) (s : State) : Out :=
  let img := if s.firm.image.isEmpty then Config.storedImage else s.firm.image
  let s1 : State := { State.reset with
    agenda := s.agenda, fresh := s.fresh, written := s.written, host := s.host, peer := s.peer, feHost := s.feHost
    bad := s.bad.filter (fun p => p.domain == none)
    lode := Vector.replicate 4 metaTable, dead := (tests.filter (· < Config.cells)).foldl setAdd s.dead
    firm := { State.reset.firm with
      staging := s.firm.staging, staged := s.firm.staged, verified := s.firm.verified, image := img, leaf := s.firm.leaf } }
  match verifyImage s1.rclass img with
  | some _ => .next (s1.modFirm (fun f => { f with code := 1 }))
  | none => .next ((s1.startImage img).bringUp.openWindow)

/-! ### The mailbox (R407, R408, R413) -/

/-- A mailbox command completed with its CODE. -/
def State.fwDone (s : State) (code : Nat) : State :=
  s.modFirm (fun f => { f with code := code, seq := (f.seq + 1) % 256, busy := false })

/-- The buffer that FWARG names; none where a res0 bit is set or it leaves bulk memory. -/
def State.fwBuf (s : State) : Option Nat :=
  let a := s.firm.fwarg.toNat
  if fld a 63 48 ≠ 0 ∨ fld a 11 0 ≠ 0 ∨ Config.bulkBytes < a + 8192 then none else some a

/-- A command written to the mailbox: discarded while BUSY; it ends idleness (R407, R416). -/
def mailbox (body : State → State) (s : State) : Out := if s.firm.busy then .next s else .next (body s.wake)

/-- A mailbox command that the module accepts only once READY (R406). -/
def whenReady (body : State → State) (s : State) : State := if s.firm.ready then body s else s.fwDone 4

/-- STAGE (R407): up to 8 KiB of the image are appended; once complete it is verified. -/
def execStage (s : State) : Out :=
  mailbox (fun s =>
    match s.fwBuf with
    | none => s.fwDone 4
    | some a =>
      let old := s.firm.staging
      let buf := s.bulk.read a 8192
      let len := leNat ((old ++ buf).take 8)
      let got := (old ++ buf).take (max len 8)
      if got.length < len then (s.modFirm (fun f => { f with staging := got })).fwDone 0
      else
        match verifyImage s.rclass got with
        | some c => (s.modFirm (fun f => { f with staging := [] })).fwDone c
        | none => (s.modFirm (fun f => { f with staging := [], staged := got, verified := true })).fwDone 0) s

/-- The staged image runs (R408 steps 3 to 6); from a failed reset it also brings the module up (R406). -/
def State.activateNow (s : State) : State :=
  if s.firm.verified = false then s.fwDone 1
  else
    let s1 := (s.startImage s.firm.staged).modFirm (fun f => { f with staged := [], verified := false })
    (if s1.firm.ready then s1 else s1.bringUp.openWindow).fwDone 0

/-- ACTIVATE (R408): it waits, BUSY, until no region is running; dispatch stops meanwhile. -/
def execActivate (s : State) : Out :=
  if s.regions.isEmpty then .next s.wake.activateNow
  else .next (s.wake.modFirm (fun f => { f with busy := true }))

/-- The signed part of a report (R413). -/
def State.reportBody (s : State) (nonce : List Byte) : List Byte :=
  leBytes 2 1 ++ leBytes 2 s.rclass ++ leBytes 4 0 ++ leBytes 8 Config.feat ++ leBytes 8 s.errata
    ++ leBytes 8 Config.serial.toNat ++ nonce ++ s.firm.meas0 ++ s.firm.meas1 ++ s.firm.meas2 ++ leBytes 4 s.firm.leaf
    ++ leBytes 28 0

/-- REPORT (R410, R413): the leaf index advances before the signature is released. -/
def execReport (s : State) : Out :=
  mailbox (whenReady (fun s =>
    match s.fwBuf with
    | none => s.fwDone 4
    | some a =>
      if 2 ^ 20 ≤ s.firm.leaf then s.fwDone 3
      else
        let q := s.firm.leaf
        let body := s.reportBody (s.bulk.read a 32)
        let bytes := body ++ hssPublic ++ leBytes 4 0 ++ hssSign q body
        (({ s with bulk := s.bulk.write a bytes } : State).modFirm (fun f => { f with leaf := q + 1 })).fwDone 0)) s

/-- EXTEND (R407, R412). -/
def execExtend (s : State) : Out :=
  mailbox (whenReady (fun s =>
    match s.fwBuf with
    | none => s.fwDone 4
    | some a => (s.modFirm (fun f => { f with meas2 := extendWith f.meas2 (s.bulk.read a 32) })).fwDone 0)) s

/-- FWSTAT (R407). -/
def State.fwstat (s : State) : DWord :=
  dwn (s.firm.seq + b2n s.firm.ready * 2 ^ 8 + b2n s.firm.busy * 2 ^ 16 + s.firm.code * 2 ^ 24)

/-! ### The host's port (R403, R404) -/

/-- IDE_KM (R403): the stream for CXL.io or for CXL.mem is established. -/
def execIdeKm (mem : Bool) (s : State) : Out :=
  if s.firm.ready = false then .next s
  else .next (s.modFirm (fun f => if mem then { f with ideMem := true } else { f with ideIo := true }))

/-- Whether a byte of the lode decoder stands in a META frame (R286, R404). -/
def State.metaByte (s : State) (addr : Nat) : Bool :=
  let g : Fin 4 := Fin.ofNat 4 (addr / 2 ^ 36)
  bitOf ((s.lodeMem g).num (frameEntry (addr % 2 ^ 36 / 4096)) 8) 32

/-- The place of a byte of a decoder. -/
def hdmPlace (lode : Bool) (addr : Nat) : Place := if lode then .lode (addr / 2 ^ 36) (addr % 2 ^ 36) else .bulk addr

/-- Whether a request is accepted (R403, R404): the module is up, the range lies within the decoder, and one under IDE comes
after its stream is established (log entry 52). -/
def State.hdmTakes (s : State) (lode : Bool) (addr len : Nat) : Bool :=
  s.firm.ready && (!s.ide || s.firm.ideMem) && decide (addr + len ≤ (if lode then 4 * Config.lodeBytes else Config.bulkBytes))

/-- A request ends idleness (R416). -/
def State.hdmWake (s : State) : State := { s.wake with power := { s.wake.power with lastMem := s.cycle + 1 } }

/-- A request served (R404): bytes of frames that are not META read as all ones, and writes to them are discarded. -/
def hdmServe (s : State) : HdmReq → State
  | .read lode addr len =>
    { s with reads := ((List.range len).map (fun i =>
        if lode && !s.metaByte (addr + i) then (0xFF : Byte) else s.getByte (hdmPlace lode (addr + i)))) :: s.reads }
  | .write lode addr bytes =>
    s.putBytes ((bytes.zipIdx.filter (fun b => !lode || s.metaByte (addr + b.2))).map (fun b =>
      (hdmPlace lode (addr + b.2), b.1)))

/-- An accepted request ends idleness; outside PS0 it is held until the exit completes (R416). -/
def hdmRequest (s : State) (r : HdmReq) : State :=
  let s1 := s.hdmWake
  if s1.power.cur = .ps0 then hdmServe s1 r else { s1 with hdmHeld := s1.hdmHeld ++ [r] }

/-- CXL_MEM_READ (R404). -/
def execCxlMemRead (lode : Bool) (addr len : Nat) (s : State) : Out :=
  if s.hdmTakes lode addr len then .next (hdmRequest s (.read lode addr len)) else .next s

/-- CXL_MEM_WRITE (R404). -/
def execCxlMemWrite (lode : Bool) (addr : Nat) (bytes : List Byte) (s : State) : Out :=
  if s.hdmTakes lode addr bytes.length then .next (hdmRequest s (.write lode addr bytes)) else .next s

/-! ### Registers (R329, R405) -/

/-- REGISTER_WRITE (R405): XSDADDR, XSDLEN, the RW1C bits of XSDSTAT, IMPBASE and FWARG; a FWCMD that is no command; a
write to the mailbox while BUSY is discarded (R407). The other registers' writes are steps of their own; writes elsewhere are discarded. -/
def execRegisterWrite (off : Nat) (value : DWord) (s : State) : Out :=
  if off = 0x40000 then
    if [1, 2, 0x10, 0x11].contains value.toNat then .next s else mailbox (fun s => s.fwDone 4) s
  else if off = 0x40008 then .next (if s.firm.busy then s else s.modFirm (fun f => { f with fwarg := value }))
  else if s.firm.ready = false then .next s
  else if off = 0x10000 then .next { s with xsdAddr := value }
  else if off = 0x10008 then .next { s with xsdLen := value }
  else if off = 0x10018 then
    .next { s with shootErr := s.shootErr && !value.getLsbD 32, shootOvfl := s.shootOvfl && !value.getLsbD 33 }
  else if off = 0x10020 then .next { s with impBase := value &&& 0x1FFFFFFE000 }
  else .next s

end Sys2Proof.Machine
end

