-- ==== Sys2Proof/Machine/Power.lean ====
section
/-! DEFINITION. Power states, the refill ceiling and thermal limits, and what the host reads of the registers (spec/23 R405,
R414 to R418). -/
namespace Sys2Proof.Machine

/-- The deepest state that a tolerance in ns allows (R414, R416). -/
def deepest (tol : Nat) : PState :=
  if tol < 2000 then .ps0 else if tol < 150000 then .ps1 else if tol < 20000000 then .ps2 else .ps3

/-- Whether the module is idle (R416). -/
def State.idle (s : State) : Bool :=
  s.regions.isEmpty && !((List.range 64).any s.eligible) && s.coreq.isEmpty && !s.firm.busy
    && (s.power.lastMem == 0 || decide (s.power.lastMem + 12499 ≤ s.cycle))

/-- Whether an exit from a power state has begun (R416). -/
def Power.leaving (p : Power) : Bool := p.trans && decide (p.tgt.num < p.cur.num)

def State.setTgt (s : State) (t : PState) : State :=
  { s with power := { s.power with tgt := t, trans := t != s.power.cur } }

/-- MODULE_IDLE (R416, R418): the target while idle, unless an exit has begun, which completes first; an overheated module is
held in PS3. -/
def execModuleIdle (s : State) : Out :=
  if s.power.hot then .next s
  else if s.firm.ready && s.idle then .next (if s.power.leaving then s else s.setTgt (deepest s.power.lattol))
  else .next (s.setTgt .ps0)

/-- LATTOL_WRITE (R415, R416): a target too deep for the new tolerance becomes shallower. -/
def execLattolWrite (value : DWord) (s : State) : Out :=
  let tol := value.toNat % 2 ^ 32
  if s.firm.ready = false then .next s
  else
    let s1 : State := { s with power := { s.power with lattol := tol } }
    if s1.power.hot = false ∧ (deepest tol).num < s1.power.tgt.num then .next (s1.setTgt (deepest tol)) else .next s1

/-- The held CXL.mem requests are served, oldest first, once the module is in PS0 (R416). -/
def State.serveHeld (s : State) : State :=
  if s.power.cur = .ps0 then s.hdmHeld.foldl hdmServe { s with hdmHeld := [] } else s

/-- POWER_TRANSITION_COMPLETE (R414): no region runs in PS1 to PS3; in PS0 the requests that were held go on (R416). -/
def execPowerTransitionComplete (s : State) : Out :=
  let p := s.power
  if p.tgt = p.cur ∨ (p.tgt ≠ .ps0 ∧ s.regions.isEmpty = false) then .next s
  else .next ({ s with power := { p with cur := p.tgt, trans := false } } : State).serveHeld

/-- The firmware sets MCEIL; refills take it from the next cycle on (R417). -/
def State.setCeiling (s : State) (v : Nat) : State :=
  let p := s.power
  { s with power := { p with
      mceil := v, mceilOld := if p.mceilAt = s.cycle + 1 then p.mceilOld else p.mceil, mceilAt := s.cycle + 1 } }

/-- POWER_SAMPLE (R417): above 5,700 A the ceiling is lowered, below 5,400 A raised, by a step the manual leaves to the
firmware (log entry 9), within 108 and 432. -/
def execPowerSample (watts amps : BitVec 16) (s : State) : Out :=
  if s.cycle % 1024 ≠ 0 ∨ s.firm.ready = false then .next s
  else
    let s1 : State := { s with power := { s.power with watts := watts.toNat, amps := amps.toNat } }
    let m := s1.power.mceil
    if 5700 < amps.toNat ∧ 108 < m then
      let d := s1.draw
      .next (d.2.setCeiling (108 + d.1.toNat % (m - 108)))
    else if amps.toNat < 5400 ∧ m < 432 then
      let d := s1.draw
      .next (d.2.setCeiling (min 432 (m + 1 + d.1.toNat % (432 - m))))
    else .next s1

/-- THERMAL_ACTION (R418). -/
def execThermalAction (temp : BitVec 16) (s : State) : Out :=
  let t := temp.toNat
  let per := if 85 < t then 128 else if t < 80 then 256 else s.perNext
  let s0 : State := { s with perNext := per, power := { s.power with temp := t } }
  let s1 := if 100 < t then s0.setCeiling 108 else s0
  if s.firm.ready = false then .next s
  else if 110 < t then
    let s2 := s1.regions.foldl (fun s r => s.doomRegion r.1 0x0E) s1
    .next { s2 with power := { s2.power with hot := true, tgt := .ps3, trans := s2.power.cur != .ps3 } }
  else .next s1

/-! ### Reads (R335, R348, R362, R363, R392, R405, R407, R415) -/

/-- PSTAT (R415). -/
def State.pstat (s : State) : DWord :=
  dwn (s.power.cur.num + 4 * s.power.tgt.num + 16 * b2n s.power.trans + s.power.temp % 2 ^ 16 * 2 ^ 16)

/-- A queue register as the host reads it. -/
def Queue.read (x : Queue) (i : Nat) : DWord :=
  match i with
  | 0 => x.qbase
  | 1 => x.qcfg
  | 2 => dwn x.tail
  | 3 => dwn x.head
  | 4 => x.period
  | 5 => x.budget
  | 6 => x.tokens
  | _ => x.stat

/-- What the host reads at an offset of BAR 0; unassigned offsets, write-only registers and res0 fields read as zero (R6),
though a set res0 bit stays known to the checks of R329 and R407. Before READY the module answers the mailbox alone (R406),
and the rest reads as zero too. -/
def State.barRead (s : State) (off : Nat) : DWord :=
  if off < 0x40000 && !s.firm.ready then 0
  else if off < 0x1000 then (s.queue (off / 64)).read (off % 64 / 8)
  else
    match off with
    | 0x1000 => dwn s.drainMax
    | 0x1008 => dwn s.killMax
    | 0x1010 => dwn s.pcMax
    | 0x1100 => dwn s.rclass
    | 0x1108 => dwn Config.feat
    | 0x1110 => dwn s.errata
    | 0x10000 => s.xsdAddr &&& 0x000FFFFFFFFF0000
    | 0x10008 => s.xsdLen &&& 0x0000000FFFFFFFFF
    | 0x10018 => xsdstat s
    | 0x10020 => s.impBase
    | 0x20000 => s.hsnap
    | 0x30000 => dwn s.power.lattol
    | 0x30008 => s.pstat
    | 0x30010 => dwn s.power.mceil
    | 0x30018 => dwn (s.power.watts + s.power.amps * 2 ^ 16)
    | 0x40008 => s.firm.fwarg &&& 0x0000FFFFFFFFF000
    | 0x40010 => s.fwstat
    | _ => 0

end Sys2Proof.Machine
end

