-- ==== Sys2Proof/Machine/Cycle.lean ====
section
/-! DEFINITION. What the passing of a fabric cycle does by itself, and the steps that concern one cell's issue
(R37, R49, R50, R150, R232 to R234, R243, R342, R344). -/
namespace Sys2Proof.Machine

/-- A context that serves a clause and is held on a port of a coupled channel counts in FULLS or EMPTYS, as long as the first
hop has no slot or the port no token (R234). -/
def coupleTick (s : State) (cl : Clause) (x : Couple) : Couple :=
  match cl.chans[x.chan]? with
  | none => x
  | some ch =>
    let full := match ch.src with
      | .port r c q => cl.endLive ch.src && (s.hart (.ctx (cl.cells.getD r 0) c)).hold == some (.full q) &&
          ((ch.hops.head?.map (·.free)).getD 0) == 0
      | _ => false
    let empty := match ch.dst with
      | .port r c q => cl.endLive ch.dst && (s.hart (.ctx (cl.cells.getD r 0) c)).hold == some (.empty q) &&
          ((s.hart (.ctx (cl.cells.getD r 0) c)).ports[q]).queue.isEmpty
      | _ => false
    { x with fulls := min (x.fulls + b2n full) 0xFFFFFFFF, emptys := min (x.emptys + b2n empty) 0xFFFFFFFF }

/-- A region uses its clusters for a cycle (R344), and its coupled channels count holds (R234). -/
def regionTick (s : State) (r : Region) : Region :=
  { r with
    consumed := r.consumed + r.clusters.length
    clauses := r.clauses.map (fun cl => { cl with couples := cl.couples.map (coupleTick s cl) }) }

/-- A queue whose region runs spends its budget (R342). -/
def queueTick (s : State) (q : Nat) (x : Queue) : Queue :=
  match s.region q with
  | some r => { x with left := x.left - r.clusters.length }
  | none => x

/-- A cell that serves a clause ends its cycle: the bucket is filled, a ready k-block starts or stalls, and the rate
controller updates (R150, R232). -/
def closeCell (s : State) (p : Nat) : State :=
  if (s.cell p).bound.isSome then (s.startBlock p true).rateCell p else s

/-- The samples that are due in a cycle are taken (R232). -/
def sampleAll (s : State) : State :=
  { s with regions := s.regions.map (fun e =>
      (e.1, if e.2.phase.moves then
        { e.2 with clauses := e.2.clauses.map (fun cl => { cl with couples := cl.couples.map (coupleSample s cl) }) }
      else e.2)) }

/-- What a cycle does before it ends, as far as no earlier move has done it. -/
def closeCycle (s : State) : State := (s.cells.map (·.1)).foldl closeCell (sampleAll s)

/-- A fabric cycle passes. -/
def tick (s0 : State) : State :=
  let s := closeCycle s0
  ({ s with
    cycle := s.cycle + 1, served := [], regions := s.regions.map (fun e => (e.1, regionTick s e.2))
    queues := s.queues.map (fun e => (e.1, queueTick s e.1 e.2)) } : State).closeWindow.openWindow

/-- CONTEXT_READY (R50). -/
def execContextReady (cell : Nat) (ctx : Fin 4) (s : State) : Out :=
  .next (s.modCell cell (fun x => x.becomeReady s.cycle ctx))

end Sys2Proof.Machine
end

