-- ==== Sys2Proof/Machine/Dispatch.lean ====
section
/-! DEFINITION. The meaning of every instruction: one arm per row of spec/opcode_table.json, each one call. -/
namespace Sys2Proof.Machine

/-- What the current agent's instruction, or a step of the machine, does. -/
def exec (i : Instr) (s : State) : Host.Outcome State Fault Refusal :=
  match i with
  | .add rd ra rb pg => Sys2Proof.Machine.execAdd rd ra rb pg s
  | .sub rd ra rb pg => Sys2Proof.Machine.execSub rd ra rb pg s
  | .and rd ra rb pg => Sys2Proof.Machine.execAnd rd ra rb pg s
  | .or rd ra rb pg => Sys2Proof.Machine.execOr rd ra rb pg s
  | .xor rd ra rb pg => Sys2Proof.Machine.execXor rd ra rb pg s
  | .andn rd ra rb pg => Sys2Proof.Machine.execAndn rd ra rb pg s
  | .shl rd ra rb pg => Sys2Proof.Machine.execShl rd ra rb pg s
  | .shr rd ra rb pg => Sys2Proof.Machine.execShr rd ra rb pg s
  | .sra rd ra rb pg => Sys2Proof.Machine.execSra rd ra rb pg s
  | .rot rd ra rb pg => Sys2Proof.Machine.execRot rd ra rb pg s
  | .addw rd ra rb pg => Sys2Proof.Machine.execAddw rd ra rb pg s
  | .subw rd ra rb pg => Sys2Proof.Machine.execSubw rd ra rb pg s
  | .shlw rd ra rb pg => Sys2Proof.Machine.execShlw rd ra rb pg s
  | .shrw rd ra rb pg => Sys2Proof.Machine.execShrw rd ra rb pg s
  | .sraw rd ra rb pg => Sys2Proof.Machine.execSraw rd ra rb pg s
  | .mul rd ra rb pg => Sys2Proof.Machine.execMul rd ra rb pg s
  | .mulh rd ra rb pg => Sys2Proof.Machine.execMulh rd ra rb pg s
  | .mulhu rd ra rb pg => Sys2Proof.Machine.execMulhu rd ra rb pg s
  | .mulw rd ra rb pg => Sys2Proof.Machine.execMulw rd ra rb pg s
  | .div rd ra rb pg => Sys2Proof.Machine.execDiv rd ra rb pg s
  | .divu rd ra rb pg => Sys2Proof.Machine.execDivu rd ra rb pg s
  | .rem rd ra rb pg => Sys2Proof.Machine.execRem rd ra rb pg s
  | .remu rd ra rb pg => Sys2Proof.Machine.execRemu rd ra rb pg s
  | .min rd ra rb pg => Sys2Proof.Machine.execMin rd ra rb pg s
  | .max rd ra rb pg => Sys2Proof.Machine.execMax rd ra rb pg s
  | .minu rd ra rb pg => Sys2Proof.Machine.execMinu rd ra rb pg s
  | .maxu rd ra rb pg => Sys2Proof.Machine.execMaxu rd ra rb pg s
  | .slt rd ra rb pg => Sys2Proof.Machine.execSlt rd ra rb pg s
  | .sltu rd ra rb pg => Sys2Proof.Machine.execSltu rd ra rb pg s
  | .seq rd ra rb pg => Sys2Proof.Machine.execSeq rd ra rb pg s
  | .clz rd ra pg => Sys2Proof.Machine.execClz rd ra pg s
  | .popc rd ra pg => Sys2Proof.Machine.execPopc rd ra pg s
  | .brev rd ra pg => Sys2Proof.Machine.execBrev rd ra pg s
  | .addi rd ra imm pg => Sys2Proof.Machine.execAddi rd ra imm pg s
  | .andi rd ra imm pg => Sys2Proof.Machine.execAndi rd ra imm pg s
  | .ori rd ra imm pg => Sys2Proof.Machine.execOri rd ra imm pg s
  | .xori rd ra imm pg => Sys2Proof.Machine.execXori rd ra imm pg s
  | .shli rd ra sh pg => Sys2Proof.Machine.execShli rd ra sh pg s
  | .shri rd ra sh pg => Sys2Proof.Machine.execShri rd ra sh pg s
  | .srai rd ra sh pg => Sys2Proof.Machine.execSrai rd ra sh pg s
  | .slti rd ra imm pg => Sys2Proof.Machine.execSlti rd ra imm pg s
  | .sltiu rd ra imm pg => Sys2Proof.Machine.execSltiu rd ra imm pg s
  | .lui rd imm => Sys2Proof.Machine.execLui rd imm s
  | .lih rd imm => Sys2Proof.Machine.execLih rd imm s
  | .auipc rd imm => Sys2Proof.Machine.execAuipc rd imm s
  | .peq rd ra rb pg => Sys2Proof.Machine.execPeq rd ra rb pg s
  | .pne rd ra rb pg => Sys2Proof.Machine.execPne rd ra rb pg s
  | .plt rd ra rb pg => Sys2Proof.Machine.execPlt rd ra rb pg s
  | .pge rd ra rb pg => Sys2Proof.Machine.execPge rd ra rb pg s
  | .pltu rd ra rb pg => Sys2Proof.Machine.execPltu rd ra rb pg s
  | .pgeu rd ra rb pg => Sys2Proof.Machine.execPgeu rd ra rb pg s
  | .pand rd ra rb pg => Sys2Proof.Machine.execPand rd ra rb pg s
  | .por rd ra rb pg => Sys2Proof.Machine.execPor rd ra rb pg s
  | .pxor rd ra rb pg => Sys2Proof.Machine.execPxor rd ra rb pg s
  | .pnot rd ra pg => Sys2Proof.Machine.execPnot rd ra pg s
  | .pmany rd ra pg => Sys2Proof.Machine.execPmany rd ra pg s
  | .mset rd ra pg => Sys2Proof.Machine.execMset rd ra pg s
  | .mget rd ra pg => Sys2Proof.Machine.execMget rd ra pg s
  | .mnot rd ra pg => Sys2Proof.Machine.execMnot rd ra pg s
  | .csrrw rd ra csr pg => Sys2Proof.Machine.execCsrrw rd ra csr pg s
  | .csrrs rd ra csr pg => Sys2Proof.Machine.execCsrrs rd ra csr pg s
  | .csrrc rd ra csr pg => Sys2Proof.Machine.execCsrrc rd ra csr pg s
  | .beq ra rb off => Sys2Proof.Machine.execBeq ra rb off s
  | .bne ra rb off => Sys2Proof.Machine.execBne ra rb off s
  | .blt ra rb off => Sys2Proof.Machine.execBlt ra rb off s
  | .bge ra rb off => Sys2Proof.Machine.execBge ra rb off s
  | .bltu ra rb off => Sys2Proof.Machine.execBltu ra rb off s
  | .bgeu ra rb off => Sys2Proof.Machine.execBgeu ra rb off s
  | .jal off => Sys2Proof.Machine.execJal off s
  | .jalr rd ra imm pg => Sys2Proof.Machine.execJalr rd ra imm pg s
  | .rep cnt sd sa sb sc => Sys2Proof.Machine.execRep cnt sd sa sb sc s
  | .rept => Sys2Proof.Machine.execRept s
  | .nop pg => Sys2Proof.Machine.execNop pg s
  | .trap ra pg => Sys2Proof.Machine.execTrap ra pg s
  | .rett pg => Sys2Proof.Machine.execRett pg s
  | .ends pg => Sys2Proof.Machine.execEnds pg s
  | .fence scope pg => Sys2Proof.Machine.execFence scope pg s
  | .bar pg => Sys2Proof.Machine.execBar pg s
  | .wfa pg => Sys2Proof.Machine.execWfa pg s
  | .yield pg => Sys2Proof.Machine.execYield pg s
  | .halt pg => Sys2Proof.Machine.execHalt pg s
  | .ldB rd ra off pg => Sys2Proof.Machine.execLdB rd ra off pg s
  | .ldBu rd ra off pg => Sys2Proof.Machine.execLdBu rd ra off pg s
  | .ldH rd ra off pg => Sys2Proof.Machine.execLdH rd ra off pg s
  | .ldHu rd ra off pg => Sys2Proof.Machine.execLdHu rd ra off pg s
  | .ldW rd ra off pg => Sys2Proof.Machine.execLdW rd ra off pg s
  | .ldWu rd ra off pg => Sys2Proof.Machine.execLdWu rd ra off pg s
  | .ldD rd ra off pg => Sys2Proof.Machine.execLdD rd ra off pg s
  | .stB rd ra off pg => Sys2Proof.Machine.execStB rd ra off pg s
  | .stH rd ra off pg => Sys2Proof.Machine.execStH rd ra off pg s
  | .stW rd ra off pg => Sys2Proof.Machine.execStW rd ra off pg s
  | .stD rd ra off pg => Sys2Proof.Machine.execStD rd ra off pg s
  | .ldaA4 rd ra off pg => Sys2Proof.Machine.execLdaA4 rd ra off pg s
  | .ldaA32 rd ra off pg => Sys2Proof.Machine.execLdaA32 rd ra off pg s
  | .staA4 rd ra off pg => Sys2Proof.Machine.execStaA4 rd ra off pg s
  | .staA32 rd ra off pg => Sys2Proof.Machine.execStaA32 rd ra off pg s
  | .ldwFp32 rd ra off pg => Sys2Proof.Machine.execLdwFp32 rd ra off pg s
  | .ldwBf16 rd ra off pg => Sys2Proof.Machine.execLdwBf16 rd ra off pg s
  | .stwFp32 rd ra off pg => Sys2Proof.Machine.execStwFp32 rd ra off pg s
  | .stwBf16 rd ra off pg => Sys2Proof.Machine.execStwBf16 rd ra off pg s
  | .ldfW rd ra off pg => Sys2Proof.Machine.execLdfW rd ra off pg s
  | .ldfD rd ra off pg => Sys2Proof.Machine.execLdfD rd ra off pg s
  | .ldfDc rd ra off pg => Sys2Proof.Machine.execLdfDc rd ra off pg s
  | .stfW rd ra off pg => Sys2Proof.Machine.execStfW rd ra off pg s
  | .stfD rd ra off pg => Sys2Proof.Machine.execStfD rd ra off pg s
  | .amoAdd rd ra rb pg => Sys2Proof.Machine.execAmoAdd rd ra rb pg s
  | .amoMin rd ra rb pg => Sys2Proof.Machine.execAmoMin rd ra rb pg s
  | .amoMax rd ra rb pg => Sys2Proof.Machine.execAmoMax rd ra rb pg s
  | .amoMinu rd ra rb pg => Sys2Proof.Machine.execAmoMinu rd ra rb pg s
  | .amoMaxu rd ra rb pg => Sys2Proof.Machine.execAmoMaxu rd ra rb pg s
  | .amoAnd rd ra rb pg => Sys2Proof.Machine.execAmoAnd rd ra rb pg s
  | .amoOr rd ra rb pg => Sys2Proof.Machine.execAmoOr rd ra rb pg s
  | .amoXor rd ra rb pg => Sys2Proof.Machine.execAmoXor rd ra rb pg s
  | .amoSwap rd ra rb pg => Sys2Proof.Machine.execAmoSwap rd ra rb pg s
  | .amonAdd ra rb pg => Sys2Proof.Machine.execAmonAdd ra rb pg s
  | .amonMin ra rb pg => Sys2Proof.Machine.execAmonMin ra rb pg s
  | .amonMax ra rb pg => Sys2Proof.Machine.execAmonMax ra rb pg s
  | .amonMinu ra rb pg => Sys2Proof.Machine.execAmonMinu ra rb pg s
  | .amonMaxu ra rb pg => Sys2Proof.Machine.execAmonMaxu ra rb pg s
  | .amonAnd ra rb pg => Sys2Proof.Machine.execAmonAnd ra rb pg s
  | .amonOr ra rb pg => Sys2Proof.Machine.execAmonOr ra rb pg s
  | .amonXor ra rb pg => Sys2Proof.Machine.execAmonXor ra rb pg s
  | .cas rd ra rb rc pg => Sys2Proof.Machine.execCas rd ra rb rc pg s
  | .semw sem ra pg => Sys2Proof.Machine.execSemw sem ra pg s
  | .sems sem ra pg => Sys2Proof.Machine.execSems sem ra pg s
  | .semr rd sem pg => Sys2Proof.Machine.execSemr rd sem pg s
  | .fset ra off pg => Sys2Proof.Machine.execFset ra off pg s
  | .fclr ra off pg => Sys2Proof.Machine.execFclr ra off pg s
  | .ftst rd ra off pg => Sys2Proof.Machine.execFtst rd ra off pg s
  | .mkpop rd qa pg => Sys2Proof.Machine.execMkpop rd qa pg s
  | .spos rd qa pg => Sys2Proof.Machine.execSpos rd qa pg s
  | .sskip qa rb pg => Sys2Proof.Machine.execSskip qa rb pg s
  | .srst qa pg => Sys2Proof.Machine.execSrst qa pg s
  | .socc rd qa pg => Sys2Proof.Machine.execSocc rd qa pg s
  | .sisect rd qa qb pg => Sys2Proof.Machine.execSisect rd qa qb pg s
  | .sacc rd qa pg => Sys2Proof.Machine.execSacc rd qa pg s
  | .saccx rd qa pg => Sys2Proof.Machine.execSaccx rd qa pg s
  | .bmk qa kind off => Sys2Proof.Machine.execBmk qa kind off s
  | .dec rd ra pg => Sys2Proof.Machine.execDec rd ra pg s
  | .encA4 rd ra pg => Sys2Proof.Machine.execEncA4 rd ra pg s
  | .encA32 rd ra pg => Sys2Proof.Machine.execEncA32 rd ra pg s
  | .enctA4 rd ra rb pg => Sys2Proof.Machine.execEnctA4 rd ra rb pg s
  | .enctA32 rd ra rb pg => Sys2Proof.Machine.execEnctA32 rd ra rb pg s
  | .aaddA4 rd ra rb pg => Sys2Proof.Machine.execAaddA4 rd ra rb pg s
  | .aaddA32 rd ra rb pg => Sys2Proof.Machine.execAaddA32 rd ra rb pg s
  | .asubA4 rd ra rb pg => Sys2Proof.Machine.execAsubA4 rd ra rb pg s
  | .asubA32 rd ra rb pg => Sys2Proof.Machine.execAsubA32 rd ra rb pg s
  | .arelu rd ra pg => Sys2Proof.Machine.execArelu rd ra pg s
  | .amsk rd ra rb pg => Sys2Proof.Machine.execAmsk rd ra rb pg s
  | .aneg rd ra pg => Sys2Proof.Machine.execAneg rd ra pg s
  | .ascl rd ra rb pg => Sys2Proof.Machine.execAscl rd ra rb pg s
  | .adot rd ra rb pg => Sys2Proof.Machine.execAdot rd ra rb pg s
  | .amov rd ra pg => Sys2Proof.Machine.execAmov rd ra pg s
  | .aget rd ra rb pg => Sys2Proof.Machine.execAget rd ra rb pg s
  | .aset rd ra rb pg => Sys2Proof.Machine.execAset rd ra rb pg s
  | .acvtA4 rd ra pg => Sys2Proof.Machine.execAcvtA4 rd ra pg s
  | .acvtA32 rd ra pg => Sys2Proof.Machine.execAcvtA32 rd ra pg s
  | .wadd rd ra rb pg => Sys2Proof.Machine.execWadd rd ra rb pg s
  | .wsub rd ra rb pg => Sys2Proof.Machine.execWsub rd ra rb pg s
  | .wmul rd ra rb pg => Sys2Proof.Machine.execWmul rd ra rb pg s
  | .wmin rd ra rb pg => Sys2Proof.Machine.execWmin rd ra rb pg s
  | .wmax rd ra rb pg => Sys2Proof.Machine.execWmax rd ra rb pg s
  | .wabs rd ra pg => Sys2Proof.Machine.execWabs rd ra pg s
  | .wneg rd ra pg => Sys2Proof.Machine.execWneg rd ra pg s
  | .wrcp rd ra pg => Sys2Proof.Machine.execWrcp rd ra pg s
  | .wrsq rd ra pg => Sys2Proof.Machine.execWrsq rd ra pg s
  | .wsqrt rd ra pg => Sys2Proof.Machine.execWsqrt rd ra pg s
  | .wexp2 rd ra pg => Sys2Proof.Machine.execWexp2 rd ra pg s
  | .wlog2 rd ra pg => Sys2Proof.Machine.execWlog2 rd ra pg s
  | .wcmpeq rd ra rb pg => Sys2Proof.Machine.execWcmpeq rd ra rb pg s
  | .wcmplt rd ra rb pg => Sys2Proof.Machine.execWcmplt rd ra rb pg s
  | .wcmple rd ra rb pg => Sys2Proof.Machine.execWcmple rd ra rb pg s
  | .wredsum rd ra pg => Sys2Proof.Machine.execWredsum rd ra pg s
  | .wredmax rd ra pg => Sys2Proof.Machine.execWredmax rd ra pg s
  | .wredmin rd ra pg => Sys2Proof.Machine.execWredmin rd ra pg s
  | .wbcst rd ra pg => Sys2Proof.Machine.execWbcst rd ra pg s
  | .wins rd ra rb pg => Sys2Proof.Machine.execWins rd ra rb pg s
  | .wext rd ra rb pg => Sys2Proof.Machine.execWext rd ra rb pg s
  | .wshuf rd ra rb pg => Sys2Proof.Machine.execWshuf rd ra rb pg s
  | .wcvtfi rd ra pg => Sys2Proof.Machine.execWcvtfi rd ra pg s
  | .wcvtif rd ra pg => Sys2Proof.Machine.execWcvtif rd ra pg s
  | .wcvtbf rd ra pg => Sys2Proof.Machine.execWcvtbf rd ra pg s
  | .wcvtfb rd ra pg => Sys2Proof.Machine.execWcvtfb rd ra pg s
  | .wmov rd ra pg => Sys2Proof.Machine.execWmov rd ra pg s
  | .wfma rd ra rb rc pg => Sys2Proof.Machine.execWfma rd ra rb rc pg s
  | .wfms rd ra rb rc pg => Sys2Proof.Machine.execWfms rd ra rb rc pg s
  | .wfnma rd ra rb rc pg => Sys2Proof.Machine.execWfnma rd ra rb rc pg s
  | .wsel rd ra rb rc pg => Sys2Proof.Machine.execWsel rd ra rb rc pg s
  | .mmaA4a4 tile cls ra rb rc pg => Sys2Proof.Machine.execMmaA4a4 tile cls ra rb rc pg s
  | .mmaA4a32 tile cls ra rb rc pg => Sys2Proof.Machine.execMmaA4a32 tile cls ra rb rc pg s
  | .mmaA32a32 tile cls ra rb rc pg => Sys2Proof.Machine.execMmaA32a32 tile cls ra rb rc pg s
  | .mmacsrA4 tile cls ra rb rc pg => Sys2Proof.Machine.execMmacsrA4 tile cls ra rb rc pg s
  | .mmacsrA32 tile cls ra rb rc pg => Sys2Proof.Machine.execMmacsrA32 tile cls ra rb rc pg s
  | .mmagA4 tile cls ra rb rc pg => Sys2Proof.Machine.execMmagA4 tile cls ra rb rc pg s
  | .mmagA32 tile cls ra rb rc pg => Sys2Proof.Machine.execMmagA32 tile cls ra rb rc pg s
  | .mzero tile cls pg => Sys2Proof.Machine.execMzero tile cls pg s
  | .mrd rd tile cls rb pg => Sys2Proof.Machine.execMrd rd tile cls rb pg s
  | .mwr tile cls ra rb pg => Sys2Proof.Machine.execMwr tile cls ra rb pg s
  | .mstF32 tile cls ra rb pg => Sys2Proof.Machine.execMstF32 tile cls ra rb pg s
  | .mstA4 tile cls ra rb pg => Sys2Proof.Machine.execMstA4 tile cls ra rb pg s
  | .mstA32 tile cls ra rb pg => Sys2Proof.Machine.execMstA32 tile cls ra rb pg s
  | .mwait cls pg => Sys2Proof.Machine.execMwait cls pg s
  | .mbudget ra pg => Sys2Proof.Machine.execMbudget ra pg s
  | .mstat rd pg => Sys2Proof.Machine.execMstat rd pg s
  | .nopl ws pg => Sys2Proof.Machine.execNopl ws pg s
  | .spat ra rb rc immA immB ws pg => Sys2Proof.Machine.execSpat ra rb rc immA immB ws pg s
  | .spatr ra rb ws pg => Sys2Proof.Machine.execSpatr ra rb ws pg s
  | .copy ra rb rc opts ws pg => Sys2Proof.Machine.execCopy ra rb rc opts ws pg s
  | .fill ra rb rc opts ws pg => Sys2Proof.Machine.execFill ra rb rc opts ws pg s
  | .fprint ra rb rc fe ws pg => Sys2Proof.Machine.execFprint ra rb rc fe ws pg s
  | .cmpr ra rb rc fe immB ws pg => Sys2Proof.Machine.execCmpr ra rb rc fe immB ws pg s
  | .gather ra rb rc opts esz immB ws pg => Sys2Proof.Machine.execGather ra rb rc opts esz immB ws pg s
  | .scatter ra rb rc fe esz immB ws pg => Sys2Proof.Machine.execScatter ra rb rc fe esz immB ws pg s
  | .rcopy ra rb rc port pull key ws pg => Sys2Proof.Machine.execRcopy ra rb rc port pull key ws pg s
  | .reduce ra rb rc opts op ws pg => Sys2Proof.Machine.execReduce ra rb rc opts op ws pg s
  | .seamw ra rb rc ws pg => Sys2Proof.Machine.execSeamw ra rb rc ws pg s
  | .xmap ra zero ws pg => Sys2Proof.Machine.execXmap ra zero ws pg s
  | .clause ra rb ws pg => Sys2Proof.Machine.execClause ra rb ws pg s
  | .cwait ra ws pg => Sys2Proof.Machine.execCwait ra ws pg s
  | .rolemap ra ws pg => Sys2Proof.Machine.execRolemap ra ws pg s
  | .attn ra ws pg => Sys2Proof.Machine.execAttn ra ws pg s
  | .lfork ra ws pg => Sys2Proof.Machine.execLfork ra ws pg s
  | .lapp ra rb rc ws pg => Sys2Proof.Machine.execLapp ra rb rc ws pg s
  | .lput ra rb rc ws pg => Sys2Proof.Machine.execLput ra rb rc ws pg s
  | .lget ra rb rc opts ws pg => Sys2Proof.Machine.execLget ra rb rc opts ws pg s
  | .lshare ra rb rc ext ws pg => Sys2Proof.Machine.execLshare ra rb rc ext ws pg s
  | .lrel ra ws pg => Sys2Proof.Machine.execLrel ra ws pg s
  | .linv ra all ws pg => Sys2Proof.Machine.execLinv ra all ws pg s
  | .contextReady cell ctx => Sys2Proof.Machine.execContextReady cell ctx s
  | .stopRequest queue => Sys2Proof.Machine.execStopRequest queue s
  | .faultRecordDelivery cond => Sys2Proof.Machine.execFaultRecordDelivery cond s
  | .operationStart cell => Sys2Proof.Machine.execOperationStart cell s
  | .kBlockStart cell => Sys2Proof.Machine.execKBlockStart cell s
  | .operationComplete cell => Sys2Proof.Machine.execOperationComplete cell s
  | .mstStoresPerformed cell slot rows => Sys2Proof.Machine.execMstStoresPerformed cell slot rows s
  | .apeFetch cell ctx port => Sys2Proof.Machine.execApeFetch cell ctx port s
  | .patternWrite cell ctx port => Sys2Proof.Machine.execPatternWrite cell ctx port s
  | .completionEvent cell ctx port => Sys2Proof.Machine.execCompletionEvent cell ctx port s
  | .tokenHop queue clause chan hop => Sys2Proof.Machine.execTokenHop queue clause chan hop s
  | .slotReturn queue clause chan hop => Sys2Proof.Machine.execSlotReturn queue clause chan hop s
  | .sendWindowGrant queue clause chan hop => Sys2Proof.Machine.execSendWindowGrant queue clause chan hop s
  | .grantTimer queue clause chan hop => Sys2Proof.Machine.execGrantTimer queue clause chan hop s
  | .grantArrival queue clause chan hop => Sys2Proof.Machine.execGrantArrival queue clause chan hop s
  | .drainToken queue clause chan => Sys2Proof.Machine.execDrainToken queue clause chan s
  | .edgeDrain queue clause chan => Sys2Proof.Machine.execEdgeDrain queue clause chan s
  | .occupancySample queue clause chan => Sys2Proof.Machine.execOccupancySample queue clause chan s
  | .sampleMessage queue clause chan => Sys2Proof.Machine.execSampleMessage queue clause chan s
  | .rateUpdate cell => Sys2Proof.Machine.execRateUpdate cell s
  | .semaphoreWaiterSatisfied queue sem => Sys2Proof.Machine.execSemaphoreWaiterSatisfied queue sem s
  | .barrierComplete queue clause => Sys2Proof.Machine.execBarrierComplete queue clause s
  | .ldfRelease word => Sys2Proof.Machine.execLdfRelease word s
  | .arrival cell line => Sys2Proof.Machine.execArrival cell line s
  | .clauseLoad queue => Sys2Proof.Machine.execClauseLoad queue s
  | .roleLoad queue clause role => Sys2Proof.Machine.execRoleLoad queue clause role s
  | .iterationStart cell ctx => Sys2Proof.Machine.execIterationStart cell ctx s
  | .cellRelease cell => Sys2Proof.Machine.execCellRelease cell s
  | .commandDispatch cond => Sys2Proof.Machine.execCommandDispatch cond s
  | .commandComplete cond slot => Sys2Proof.Machine.execCommandComplete cond slot s
  | .commandFail cond slot => Sys2Proof.Machine.execCommandFail cond slot s
  | .frameFree chip frame => Sys2Proof.Machine.execFrameFree chip frame s
  | .correctionRewrite domain word => Sys2Proof.Machine.execCorrectionRewrite domain word s
  | .patrolScrub domain word uncorr => Sys2Proof.Machine.execPatrolScrub domain word uncorr s
  | .refreshWindowStart => Sys2Proof.Machine.execRefreshWindowStart s
  | .refreshWindowEnd => Sys2Proof.Machine.execRefreshWindowEnd s
  | .quiescenceReport queue => Sys2Proof.Machine.execQuiescenceReport queue s
  | .shootDownGvaRange cmd => Sys2Proof.Machine.execShootDownGvaRange cmd s
  | .shootDownContext cmd => Sys2Proof.Machine.execShootDownContext cmd s
  | .shootDownImportEntry cmd => Sys2Proof.Machine.execShootDownImportEntry cmd s
  | .shootDownAcceptance => Sys2Proof.Machine.execShootDownAcceptance s
  | .shootDownCompletion => Sys2Proof.Machine.execShootDownCompletion s
  | .tailWrite queue value => Sys2Proof.Machine.execTailWrite queue value s
  | .queueRegisterWrite queue reg value => Sys2Proof.Machine.execQueueRegisterWrite queue reg value s
  | .periodStart queue => Sys2Proof.Machine.execPeriodStart queue s
  | .budgetExhausted queue => Sys2Proof.Machine.execBudgetExhausted queue s
  | .distributorChoice => Sys2Proof.Machine.execDistributorChoice s
  | .drainStop queue => Sys2Proof.Machine.execDrainStop queue s
  | .drainmaxExpiry queue => Sys2Proof.Machine.execDrainmaxExpiry queue s
  | .preCopyEnd queue => Sys2Proof.Machine.execPreCopyEnd queue s
  | .pcmaxExpiry queue => Sys2Proof.Machine.execPcmaxExpiry queue s
  | .saveComplete queue => Sys2Proof.Machine.execSaveComplete queue s
  | .sentenceRetirement queue => Sys2Proof.Machine.execSentenceRetirement queue s
  | .overrun queue => Sys2Proof.Machine.execOverrun queue s
  | .coreqWrite value => Sys2Proof.Machine.execCoreqWrite value s
  | .resolverServe => Sys2Proof.Machine.execResolverServe s
  | .packetSend port => Sys2Proof.Machine.execPacketSend port s
  | .idleHdr port hdr => Sys2Proof.Machine.execIdleHdr port hdr s
  | .writePkt port pkt => Sys2Proof.Machine.execWritePkt port pkt s
  | .readReq port pkt => Sys2Proof.Machine.execReadReq port pkt s
  | .readRsp port pkt => Sys2Proof.Machine.execReadRsp port pkt s
  | .tokenPkt port pkt => Sys2Proof.Machine.execTokenPkt port pkt s
  | .grantPkt port pkt => Sys2Proof.Machine.execGrantPkt port pkt s
  | .doneHdr port pkt => Sys2Proof.Machine.execDoneHdr port pkt s
  | .refusePkt port pkt => Sys2Proof.Machine.execRefusePkt port pkt s
  | .replayTimeout port => Sys2Proof.Machine.execReplayTimeout port s
  | .laneLoss port lane => Sys2Proof.Machine.execLaneLoss port lane s
  | .crcRetrain port => Sys2Proof.Machine.execCrcRetrain port s
  | .trainingPatternReceived port => Sys2Proof.Machine.execTrainingPatternReceived port s
  | .trainingPatternEnd port good => Sys2Proof.Machine.execTrainingPatternEnd port good s
  | .goodLaneMask port good => Sys2Proof.Machine.execGoodLaneMask port good s
  | .retrainTimeout port => Sys2Proof.Machine.execRetrainTimeout port s
  | .fullRetraining port => Sys2Proof.Machine.execFullRetraining port s
  | .portDisable port => Sys2Proof.Machine.execPortDisable port s
  | .hsnapWrite value => Sys2Proof.Machine.execHsnapWrite value s
  | .snapshotRewrite => Sys2Proof.Machine.execSnapshotRewrite s
  | .cellRetirement cluster => Sys2Proof.Machine.execCellRetirement cluster s
  | .moduleReset tests => Sys2Proof.Machine.execModuleReset tests s
  | .stage => Sys2Proof.Machine.execStage s
  | .activate => Sys2Proof.Machine.execActivate s
  | .report => Sys2Proof.Machine.execReport s
  | .extend => Sys2Proof.Machine.execExtend s
  | .ideKm mem => Sys2Proof.Machine.execIdeKm mem s
  | .cxlMemRead lode addr len => Sys2Proof.Machine.execCxlMemRead lode addr len s
  | .cxlMemWrite lode addr bytes => Sys2Proof.Machine.execCxlMemWrite lode addr bytes s
  | .lattolWrite value => Sys2Proof.Machine.execLattolWrite value s
  | .moduleIdle => Sys2Proof.Machine.execModuleIdle s
  | .powerTransitionComplete => Sys2Proof.Machine.execPowerTransitionComplete s
  | .powerSample watts amps => Sys2Proof.Machine.execPowerSample watts amps s
  | .thermalAction temp => Sys2Proof.Machine.execThermalAction temp s
  | .registerWrite off value => Sys2Proof.Machine.execRegisterWrite off value s
  | .crcErr port => Sys2Proof.Machine.execCrcErr port s
  | .reservedTypePacket port => Sys2Proof.Machine.execReservedTypePacket port s
  | .accessPerformed agent slot scope => Sys2Proof.Machine.execAccessPerformed agent slot scope s
  | .budgetRefill cell => Sys2Proof.Machine.execBudgetRefill cell s
  | .partitionChange parts admitted => Sys2Proof.Machine.execPartitionChange parts admitted s

end Sys2Proof.Machine
end

