-- ==== Sys2Proof/Machine/Loop.lean ====
section
/-! DEFINITION. The dispatch loop of a replica, and a handler's `ends`: what the words that the translator writes around a
handler do (spec/20 R368, R370). The loop takes one step here for each of its turns. -/
namespace Sys2Proof.Machine

/-- The replica that an agent runs. -/
def State.handlerOf (s : State) : AgentId → Option (Nat × Nat × Nat × Replica)
  | .ctx p c => s.replicaOf p c
  | .cond _ => none

/-- Whether a replica has finished: its cell has been released, or its stage has ended (R212, R370). -/
def State.replicaEnded (s : State) (q : Nat) (cl : Clause) (i : Nat) : Bool :=
  let role := i / 4
  let x := s.cell (cl.cells.getD role 0)
  cl.released.contains role ||
    (cl.loaded.contains role && x.bound == some (q, cl.num, role) && x.ctx[Fin.ofNat 4 i].ended)

/-- The incoming channels of a replica, by their numbers in its clause. -/
def Plyn.incoming (y : Plyn) (i : Nat) : List (PChan × Nat) := y.chans.zipIdx.filter (fun ch => ch.1.dst == i)

/-- The next message by the rotation: from the first channel at or after the replica's turn that holds one. -/
def Plyn.next (y : Plyn) (i : Nat) (r : Replica) : Option (Token × Plyn) :=
  let ins := (y.incoming i).zipIdx
  match ((ins.drop r.turn) ++ ins.take r.turn).find? (fun ch => !ch.1.1.tokens.isEmpty) with
  | some ((⟨src, dst, slot, depth, t :: ts⟩, j), k) =>
    some (t, ⟨modAt y.reps i (fun r => { r with turn := (k + 1) % ins.length }),
      modAt y.chans j (fun _ => ⟨src, dst, slot, depth, ts⟩)⟩)
  | _ => none

/-- Entry to a handler (R368): the message in x1, a0 or w0 by its type, the state area in x2 and the index in x3; the start
handler finds all three of x1, a0 and w0 zero. -/
def Hart.enter (h : Hart) (r : Replica) (t : Option Token) : Hart :=
  let h1 := match t with
    | none =>
      { (((h.cured 0 1).cured 1 0).cured 2 0) with x := h.x.set 1 0, a := h.a.set 0 Block.zero, w := h.w.set 0 Wide.zero }
    | some t =>
      if r.ttype < 4 then { h.cured 0 1 with x := h.x.set 1 t.scalarVal }
      else if r.ttype < 6 then { h.cured 1 0 with a := h.a.set 0 t.blockVal }
      else { h.cured 2 0 with w := h.w.set 0 t.wideVal }
  { (h1.cured 0 2).cured 0 3 with x := (h1.x.set 2 (dwn r.area)).set 3 (dwn r.index), pc := dwn r.code, hold := none }

/-- One turn of the dispatch loop (R370): the next message is taken and its handler entered; with none left to come the
loop executes the clause's `ends`. The start handler runs once, on its replica of index 0 (R368). -/
def dispatchTurn (a : AgentId) (g n i : Nat) (r : Replica) (s : State) : Out :=
  match s.clauseAt g n with
  | none => .next s
  | some cl =>
    match cl.plyn with
    | none => .next s
    | some y =>
      if r.start then
        if r.ran || r.index != 0 then execEnds 0 s
        else
          .next ((s.modPlyn g n (fun y => { y with reps := modAt y.reps i (fun r => { r with ran := true }) })).modHart a
            (fun h => h.enter r none))
      else
        match y.next i r with
        | some (t, y1) => .next ((s.modPlyn g n (fun _ => y1)).modHart a (fun h => h.enter r (some t)))
        | none =>
          if (y.incoming i).all (fun ch => s.replicaEnded g cl ch.1.src) then execEnds 0 s else .next (s.holdBy a (.empty 0))

/-- A handler's `ends`, which the translator has made a branch back to the loop (R370). -/
def backToLoop (r : Replica) (pg : Pg) (s : State) : Out :=
  governedJump pg 4 (fun s => pure (s.jumpTo (dwn r.loopAt))) s

end Sys2Proof.Machine
end

