-- ==== Sys2Proof/Machine/Issue.lean ====
section
/-! DEFINITION. Which agent issues in a cycle, fetching and decoding its instruction, and the moves of the machine
(R49, R51, R73 to R75, R90 to R92; log entries 1 and 2). -/
namespace Sys2Proof.Machine

/-- A row of the opcode table that has no word and is no repeat: a whole step of the machine. -/
def isEvent (i : Instr) : Bool := (encode i).isEmpty && i != .rept

/-- A fetched instruction executes, unless an unfinished one that it must not overtake holds it (R49, R245). `i` is what
the agent carries out: the stepped word of a repeat, else the instruction itself. -/
def execAfter (a : AgentId) (i : Instr) (run : Out) (s : State) : Out :=
  if hazard s a i then .next (s.holdBy a .hazard)
  else if (s.hart a).early.isEmpty || keepsEarly i then run
  else
    match run with
    | .next t => .next (if (t.hart a).hold = none then t.modHart a (fun h => { h with early := [] }) else t)
    | r => r

/-- What a decoded instruction does where it stands: what `exec` says, but for a handler's `ends` (R370). -/
def runWord (a : AgentId) (i : Instr) (s : State) : Out :=
  match s.handlerOf a, i with
  | some (_, _, _, r), .ends pg => backToLoop r pg s
  | _, i => exec i s

/-- The agent fetches, decodes and executes the instruction at its pc. -/
def issueWord (a : AgentId) (s : State) : Out :=
  let h := s.hart a
  let k := kindOf a
  match s.fetchWord a h.pc with
  | .error e => .next (s.stopBy a e)
  | .ok (s1, w0) =>
    if fld w0 31 26 = 0x1A then
      if h.rep then execAfter a (((nextInstr a s).map (·.2.1)).getD .rept) (exec .rept s1) s1
      else
        match decode k true w0 0 0 0 with
        | .ok i => execAfter a i (exec i s1) s1
        | .error _ =>
          match s1.fetchWord a (h.pc + 4) with
          | .error e => .next (s1.stopBy a e)
          | .ok (s2, w1) => .next (s2.stopBy a (.trap (repTrap w0 w1)))
    else
      let s2 := if h.rep then s1.modHart a (fun h => { h with rep := false, repc := 0 }) else s1
      let at16 := h.pc.toNat % 16 == 0
      if fld w0 31 26 = 0x3F ∧ at16 then
        match s2.fetchBytes a h.pc 16 with
        | .error e => .next (s2.stopBy a e)
        | .ok (s3, bs) =>
          match decode k true (wordAt bs 0) (wordAt bs 1) (wordAt bs 2) (wordAt bs 3) with
          | .ok i => execAfter a i (runWord a i s3) s3
          | .error e => .next (s3.stopBy a (.trap (decodeTrap e w0 (wordAt bs 1) (wordAt bs 2))))
      else
        match decode k at16 w0 0 0 0 with
        | .ok i => execAfter a i (runWord a i s2) s2
        | .error e => .next (s2.stopBy a (.trap (decodeTrap e w0 0 0)))

/-- The agent executes what stands at its pc: a word, or a turn of a replica's dispatch loop (R370). -/
def issueAt (a : AgentId) (s0 : State) : Out :=
  let s := { s0 with cur := a }
  match s.handlerOf a with
  | some (g, n, i, r) => if (s.hart a).pc = dwn r.loopAt then dispatchTurn a g n i r s else issueWord a s
  | none => issueWord a s

/-- The cycle in which an agent's cell, or the conductor, last issued, one more than its number. -/
def lastIssueOf (s : State) : AgentId → Nat
  | .ctx p _ => (s.cell p).lastIssue
  | .cond k => (s.cond k).lastIssue

def noteIssue (s : State) : AgentId → State
  | .ctx p _ => s.modCell p (fun c => { c with lastIssue := s.cycle + 1 })
  | .cond k => s.modCond k (fun c => { c with lastIssue := s.cycle + 1 })

/-- Whether an agent's region lets its agents issue: it is not being saved or killed (R350, R351). -/
def State.mayIssue (s : State) (a : AgentId) : Bool :=
  match (s.regionOf a).bind s.region with
  | some r => r.phase.moves
  | none => true

/-! ### Readiness and the choice of a cell (R49, R50) -/

/-- Whether an agent is ready: it runs, and its next instruction would not be held (R49). -/
def State.ready (s : State) (a : AgentId) : Bool :=
  (s.hart a).run == .running && s.mayIssue a &&
    (match issueAt a s with
      | .next t => (t.hart a).hold == none
      | _ => false)

/-- The context a cell issues among those that are ready (R49). -/
def chooseReady (x : Cell) (ready : List (Fin 4)) : Option (Fin 4) :=
  let cand := (List.finRange 4).filter (fun c => ready.contains c)
  match cand.find? (fun c => 255 ≤ x.ctx[c].passed) with
  | some c => some c
  | none =>
    cand.foldl (fun acc c =>
      match acc with
      | none => some c
      | some d => if passBelow x.ctx[c].pass x.ctx[d].pass then some c else some d) none

/-- Ready contexts that are passed over count it; the one chosen starts afresh (R49). -/
def Cell.passOver (x : Cell) (ready : List (Fin 4)) (chosen : Fin 4) : Cell :=
  { x with ctx := Vector.ofFn (fun c =>
      let h := x.ctx[c]
      { h with passed := if c = chosen then 0 else if ready.contains c then h.passed + 1 else h.passed }) }

/-- Contexts that are ready when a cycle ends count as ready in it (R50), in a cell whose timing no move has named. -/
def markCell (s : State) (p : Nat) : State :=
  if (s.cell p).considered = s.cycle + 1 then s
  else (List.finRange 4).foldl (fun s c => if s.ready (.ctx p c) then s.nowReady (.ctx p c) else s) s

/-- A fabric cycle passes. -/
def passCycle (s : State) : State := tick ((s.cells.map (·.1)).foldl markCell s)

/-- A cell or a conductor issues once a cycle at most, so a second issue comes in the next cycle (R30, R49). -/
def State.freshCycle (s : State) (a : AgentId) : State := if lastIssueOf s a = s.cycle + 1 then passCycle s else s

/-- An agent that is not ready notes what holds it. -/
def noteHold (a : AgentId) (s : State) : State :=
  if (s.hart a).run ≠ .running ∨ s.mayIssue a = false then s else outState s (issueAt a s)

/-- A cell's cycle: of the contexts given, those that are ready have become so, the choice of R49 issues, and the others
note what holds them. Where a move wants one context, it issues only if it is the choice. -/
def cellIssue (go : AgentId → State → Out) (p : Nat) (given : List (Fin 4)) (want : Option (Fin 4)) (s : State) : Out :=
  let s1 := s.freshCycle (.ctx p 0)
  let s2 := (given.filter (fun c => !s1.ready (.ctx p c))).foldl (fun s c => noteHold (.ctx p c) s) s1
  let ready := given.filter (fun c => s2.ready (.ctx p c))
  let s3 := ready.foldl (fun s c => s.nowReady (.ctx p c)) s2
  match chooseReady (s3.cell p) ready with
  | none => .next s3
  | some c =>
    if want.all (· == c) then go (.ctx p c) (noteIssue (s3.modCell p (fun x => x.passOver ready c)) (.ctx p c)) else .next s3

/-- A cell's cycle in which timing holds all contexts but those given. -/
def issueCell (p : Nat) (given : List (Fin 4)) (s : State) : Out :=
  let s1 := s.freshCycle (.ctx p 0)
  cellIssue issueAt p given none (s1.modCell p (fun x => { x with considered := s1.cycle + 1 }))

/-- A conductor comes to the issue stage: it issues if it is ready; else what holds it is noted, and no issue is spent. -/
def condIssue (go : AgentId → State → Out) (a : AgentId) (s : State) : Out :=
  if (s.hart a).run ≠ .running ∨ s.mayIssue a = false then .next s
  else
    let s1 := s.freshCycle a
    if s1.ready a then go a (noteIssue s1 a) else issueAt a s1

/-- An agent that runs comes to the issue stage, a context as one of its cell's four (R49). -/
def agentIssue (go : AgentId → State → Out) (a : AgentId) (s : State) : Out :=
  match a with
  | .ctx p c => cellIssue go p (List.finRange 4) (some c) s
  | .cond _ => condIssue go a s

def issue (a : AgentId) (s : State) : Out := agentIssue issueAt a s

/-- An agent issues and its instruction stays unfinished, if it may; else it issues as any other (R46, log entry 7). -/
def launchAt (a : AgentId) (s : State) : Out :=
  match if (s.handlerOf a).isSome then none else launched a s with
  | some t => .next t
  | none => issueAt a s

def launch (a : AgentId) (s : State) : Out := agentIssue launchAt a s

/-- Whether a whole step of the table may come now: a context becomes ready only when it is (R50). -/
def State.happens (s : State) (i : Instr) : Bool :=
  match i with
  | .contextReady p c => s.ready (.ctx p c)
  | _ => true

/-! ### What happens to memory from outside, and errors (R276, R388, R390) -/

/-- A byte of the world outside changed: the host's memory or a peer's. -/
def outside (p : Place) (b : Byte) (s : State) : State :=
  match p with
  | .host _ | .peer _ _ _ => s.putByte b p
  | _ => s

/-- A line or a word becomes uncorrectable, or is mended. -/
def decay (p : Place) (bad : Bool) (s : State) : State :=
  let rest := s.bad.filter (· != p.code)
  if bad then { s with bad := p.code :: rest } else { s with bad := rest, ueSeen := s.ueSeen.filter (· != p.code) }

/-- The head of a port's queue becomes uncorrectable (R276). -/
def spoilHead : List Entry → List Entry
  | e :: r => { e with item := .failed .uncorr e.addr } :: r
  | [] => []

/-- A register (classes 0 to 5), a tile (6) or the token at the head of a port (7) becomes uncorrectable (R276, R388). -/
def upset (a : AgentId) (n : Nat) (s : State) : State :=
  let s2 := s.countUe 1
  match n / 256, a with
  | 6, .ctx p _ => s2.modCell p (fun x => { x with badTiles := Fin.ofNat 4 n :: x.badTiles.filter (· != Fin.ofNat 4 n) })
  | 7, _ =>
    let q : Fin 8 := Fin.ofNat 8 n
    s2.modHart a (fun h => { h with ports := h.ports.set q { h.ports[q] with queue := spoilHead h.ports[q].queue } })
  | _, _ => s2.modHart a (fun h => { h with badRegs := n :: h.badRegs.filter (· != n) })

/-- A side-log entry becomes uncorrectable. -/
def spoilLog (p i : Nat) (s : State) : State :=
  (s.countUe 1).modCell p (fun x => { x with log := modAt x.log i (fun e => { e with bad := true }) })

/-- A token in the buffer of a channel's hop becomes uncorrectable. -/
def spoilHop (q n i hop j : Nat) (s : State) : State :=
  (s.countUe 1).modHop q n i hop (fun h => { h with buf := modAt h.buf j (fun e =>
    if e.item.isData then { e with item := .failed .uncorr e.addr } else e) })

/-- A CXL.mem request, which may arrive under IDE (R403). -/
def isMemRequest : Instr → Bool
  | .cxlMemRead _ _ _ | .cxlMemWrite _ _ _ => true
  | _ => false

/-- What an event under IDE leaves: the mark of its request is gone. -/
def plainAgain : Out → Out
  | .next s => .next { s with ide := false }
  | o => o

/-- The next move of the machine (log entry 1). -/
def nextMove (s : State) : Out :=
  match s.agenda with
  | [] => .next (passCycle s)
  | m :: r =>
    let s1 := { s with agenda := r }
    match m with
    | .tick => .next (passCycle s1)
    | .issue a => issue a s1
    | .cell p given => issueCell p given s1
    | .launch a => launch a s1
    | .land a i => .next (land a i s1)
    | .pieceLoad a i word => .next (pieceLoad a i word s1)
    | .begin a v size => .next (beginLoad a v size s1)
    | .piecePort p c q word =>
      let a := AgentId.ctx p c
      .next (if ((s1.hart a).ports[q]).input then fetchPiece s1 a q word else patPiece s1 a q word)
    | .late p cls => .next (s1.modCell p (fun x => { x with late := cls }))
    | .event i => if isEvent i && s1.happens i then exec i s1 else .next s1
    | .ide i => if isMemRequest i then plainAgain (exec i { s1 with ide := true }) else .next s1
    | .beat k slot n => .next (beat k slot n s1)
    | .outside p b => .next (outside p b s1)
    | .decay p bad => .next (decay p bad s1)
    | .upset a n => .next (upset a n s1)
    | .spoil port => .next (spoil port s1)
    | .spoilLog p i => .next (spoilLog p i s1)
    | .spoilHop q n i hop j => .next (spoilHop q n i hop j s1)
    | .spoilTable => .next (s1.countUe 6)
    | .markMeta g f => .next (markMeta g f s1)
    | .wire port lanes => wireIn port lanes s1
    | .settleWrite port i => .next (settleWrite port i s1)
    | .serveToken port i => .next (serveToken port i s1)
    | .copyLine q p line => .next (copyLine q p line s1)

/-- Where a word is placed to be run: on a stage context for words a cell decodes, else on a conductor. -/
def placeWord (s : State) (nbits w : Nat) : State :=
  let bs := leBytes 16 (w % 2 ^ nbits)
  let start (a : AgentId) (pc : DWord) (s : State) : State :=
    { s.modHart a (fun h =>
        { h with run := .running, pc := pc, rep := false, repc := 0, hold := none, capt := none, flight := [] })
      with agenda := [.issue a] }
  match decodeBytes .cell true bs with
  | .ok _ => start (.ctx 0 0) 0 (s.modCell 0 (fun c => { c with store := c.store.write 0 bs }))
  | .error _ =>
    let r := Region.init 0 [0] 1 [⟨1, .bulk, true, false, false, 0, 2 ^ 16, 0⟩]
    let s1 := (s.setRegion 0 r).modCond 0 (fun c => { c with region := some 0 })
    let s2 := s1.modXlat 0 (fun x => x.setPage ⟨0, 0, 2 ^ 16, 0, 0, true, true, false⟩)
    start (.cond 0) (dwn (2 ^ 40)) { s2 with bulk := s2.bulk.write (2 ^ 16) bs }

end Sys2Proof.Machine
end

