-- ==== Sys2Proof/Machine/Step.lean ====
section
/-! DEFINITION. One step of the machine, and a word placed where it runs next. -/
namespace Sys2Proof.Machine

/-- One step: the next move of the agenda. -/
def step (s : State) : Host.Outcome State Fault Refusal := nextMove s

/-- The state with an instruction stored where the next step fetches and runs it (log entry 2). -/
def State.withFetchWord (s : State) (nbits w : Nat) : State := placeWord s nbits w

end Sys2Proof.Machine
end

