-- ==== Sys2Proof/Safety.lean ====
section
/-! DEFINITION. What a safe run is, in the terms the statements use: every memory keeps its canonical form. -/
namespace Sys2Proof.Machine

/-- Every memory of the machine is in canonical form. -/
def State.memWf (s : State) : Bool :=
  s.bulk.wf && s.seam.wf && s.host.wf && s.peer.wf && s.lode.toList.all Memory.wf &&
    s.cells.all (fun c => c.2.store.wf) && s.saves.all (fun i => i.2.cells.all (fun c => c.2.2.store.wf))

end Sys2Proof.Machine
end

