-- ==== Sys2Proof/WellFormed.lean ====
section
/-! DEFINITION. What an instruction term must satisfy beyond its types: the checks of spec/03 R62 and spec/07 R175,
and the ranges of the places an event names (spec/07 R166, spec/19 R335). -/
namespace Sys2Proof

/-- A signal clause adds 1 to 255 (R62). -/
def WaitSig.wf (ws : WaitSig) : Bool :=
  match ws.signal with
  | some g => g.inc != 0
  | none => true

/-- A physical cell position (R166). -/
def cellOk (p : Nat) : Bool := p < 816
/-- A conductor, by cluster (R166). -/
def condOk (k : Nat) : Bool := k < 48
/-- A launch queue (R335). -/
def queueOk (q : Nat) : Bool := q < 64

/-- An agent that exists (R30). -/
def AgentId.wf : AgentId → Bool
  | .ctx p _ => cellOk p
  | .cond k => condOk k

/-- A packet carries at most 256 payload bytes (R380). -/
def Packet.wf (p : Packet) : Bool := p.data.length ≤ 256

/-- A register, not a port: what a conductor's field may name (R33). -/
def Opnd.isReg {n : Nat} : Opnd n → Bool
  | .reg _ => true
  | .port _ => false

/-- Well-formed instruction terms. A command that only conductors issue names registers; `spat` and `spatr` name a port of
their own cell and have neither clause, or name registers alone (R62, R72). -/
def Instr.wf : Instr → Bool
  | .sisect _ qa qb _ => qa != qb
  | .nopl ws _ => ws.wf
  | .spat t b c _ _ ws _ => ws.wf && (if t.isReg then b.isReg && c.isReg else ws == ⟨none, none⟩)
  | .spatr t b ws _ => ws.wf && (if t.isReg then b.isReg else ws == ⟨none, none⟩)
  | .copy a b c _ ws _ | .fill a b c _ ws _ | .fprint a b c _ ws _ | .cmpr a b c _ _ ws _ | .gather a b c _ _ _ ws _
  | .scatter a b c _ _ _ ws _ | .rcopy a b c _ _ _ ws _ | .reduce a b c _ _ ws _ | .seamw a b c ws _ | .lapp a b c ws _
  | .lput a b c ws _ | .lget a b c _ ws _ | .lshare a b c _ ws _ => ws.wf && a.isReg && b.isReg && c.isReg
  | .clause a b ws _ => ws.wf && a.isReg && b.isReg
  | .xmap a _ ws _ | .cwait a ws _ | .rolemap a ws _ | .attn a ws _ | .lfork a ws _ | .lrel a ws _ | .linv a _ ws _ =>
    ws.wf && a.isReg
  | .contextReady p _ | .iterationStart p _ | .operationStart p | .kBlockStart p | .operationComplete p
  | .rateUpdate p | .cellRelease p | .budgetRefill p | .mstStoresPerformed p _ _ | .apeFetch p _ _
  | .patternWrite p _ _ | .completionEvent p _ _ | .arrival p _ => cellOk p
  | .stopRequest q | .quiescenceReport q | .periodStart q | .budgetExhausted q | .drainStop q | .drainmaxExpiry q
  | .preCopyEnd q | .pcmaxExpiry q | .saveComplete q | .sentenceRetirement q | .overrun q | .clauseLoad q
  | .tokenHop q _ _ _ | .slotReturn q _ _ _ | .sendWindowGrant q _ _ _ | .grantTimer q _ _ _
  | .grantArrival q _ _ _ | .drainToken q _ _ | .edgeDrain q _ _ | .occupancySample q _ _ | .sampleMessage q _ _
  | .semaphoreWaiterSatisfied q _ | .barrierComplete q _ | .roleLoad q _ _ | .tailWrite q _
  | .queueRegisterWrite q _ _ => queueOk q
  | .faultRecordDelivery k | .commandDispatch k | .commandComplete k _ | .commandFail k _ | .cellRetirement k =>
    condOk k
  | .accessPerformed a _ _ => a.wf
  | .frameFree _ f => f < 2 ^ 24
  | .idleHdr _ p | .writePkt _ p | .readReq _ p | .readRsp _ p | .tokenPkt _ p | .grantPkt _ p | .doneHdr _ p
  | .refusePkt _ p => p.wf
  | .shootDownGvaRange c => c.toNat / 2 ^ 16 % 4 == 0
  | .shootDownContext c => c.toNat / 2 ^ 16 % 4 == 1
  | .shootDownImportEntry c => c.toNat / 2 ^ 16 % 4 == 2
  | _ => true

end Sys2Proof
end

