-- ==== Sys2Proof/Certificates/Slice0/Obligations.lean ====
section
/-! DEFINITION. The statements of this model: encodings, steps, operand access, every instruction's effect and the
rules of the whole machine, each with the rules of spec/ it rests on. -/

/-! ### The words the statements use -/

namespace Sys2Proof.Claim
open Sys2Proof Sys2Proof.Machine

/-- Word n of an instruction; absent words are zero. -/
def wordOf (i : Instr) (n : Nat) : Nat := (encode i).getD n 0

/-- The predicate register that pg names has no uncorrectable error (R276). -/
abbrev PredGood (s : State) (pg : Pg) : Prop := 3 * 256 + pg.val ∉ (s.hart s.cur).badRegs

/-- The predicate that pg names is true: pg = 0, or p1 to p7 hold (R54). -/
def On (s : State) (pg : Pg) : Prop := pg = 0 ∨ ((s.hart s.cur).p[pg] = true ∧ PredGood s pg)

/-- The predicate that pg names is false, and the instruction is issued afresh, not replayed from a frame (R48, R54). -/
def Off (s : State) (pg : Pg) : Prop :=
  pg ≠ 0 ∧ (s.hart s.cur).p[pg] = false ∧ (s.hart s.cur).capt = none ∧ PredGood s pg

/-- The instruction retires: the pc is past its `len` bytes and nothing else of the machine has changed but the pass. -/
def retires (w : Work) (s : State) (len : Nat) : Host.Outcome State Fault Refusal := .next (w.s.retireBy s.cur len)

/-- The instruction stops for a reason: a hold, a missing page or a trap. -/
def stops (s : State) (e : Stop) : Host.Outcome State Fault Refusal := .next (s.stopBy s.cur e)

/-- Every byte of every memory is as it was. -/
def SameBytes (s t : State) : Prop := ∀ p : Place, t.getByte p = s.getByte p

/-- Every byte but some is as it was. -/
def SameBytesBut (s t : State) (ps : List Place) : Prop := ∀ p : Place, p ∉ ps → t.getByte p = s.getByte p

/-- The registers of every other agent are as they were. -/
def SameOthers (s t : State) : Prop := ∀ b, b ≠ s.cur → t.hart b = s.hart b

/-- The special registers, exception registers and flags of an agent that no computing instruction writes. -/
def SameSpecial (g h : Hart) : Prop :=
  h.level = g.level ∧ h.armed = g.armed ∧ h.roleIdx = g.roleIdx ∧ h.roleNum = g.roleNum ∧ h.iter = g.iter ∧
  h.clause = g.clause ∧ h.dmode = g.dmode ∧ h.tvec = g.tvec ∧ h.evec = g.evec ∧ h.fvec = g.fvec ∧ h.tcause = g.tcause ∧
  h.tinfo0 = g.tinfo0 ∧ h.tinfo1 = g.tinfo1 ∧ h.tpc = g.tpc ∧ h.tstat = g.tstat ∧ h.tframe = g.tframe ∧ h.wgt = g.wgt

/-- The instruction ran to its end: the agent runs on at the same trap level and is not held. -/
def Completed (s t : State) : Prop :=
  (s.hart s.cur).run = .running ∧ (t.hart s.cur).run = .running ∧ (t.hart s.cur).hold = none ∧
  (t.hart s.cur).level = (s.hart s.cur).level

end Sys2Proof.Claim

open Sys2Proof Sys2Proof.Machine Sys2Proof.Claim

/-! ### Encoding -/

/-- Decoding undoes encoding, for every operand the encoding admits (spec/03 R51 to R73). -/
def Obligations.DecodeGivesBackEveryEncodedInstruction : Prop :=
  ∀ i : Instr, i.wf = true → encode i ≠ [] →
    (∃ k, decode k true (wordOf i 0) (wordOf i 1) (wordOf i 2) (wordOf i 3) = .ok i) ∧
    ∀ k j, decode k true (wordOf i 0) (wordOf i 1) (wordOf i 2) (wordOf i 3) = .ok j → j = i

/-- Encoding undoes decoding: no bit of a word is dropped, reserved fields are refused (spec/03 R52, R73). -/
def Obligations.EncodeGivesBackEveryDecodedWord : Prop :=
  ∀ (k : Kind) (at16 : Bool) (w0 w1 w2 w3 : Nat) (i : Instr),
    w0 < 2 ^ 32 → w1 < 2 ^ 32 → w2 < 2 ^ 32 → w3 < 2 ^ 32 → decode k at16 w0 w1 w2 w3 = .ok i →
    i.wf = true ∧
      ((fld w0 31 26 ≠ 0x3F ∧ encode i = [w0]) ∨ (fld w0 31 26 = 0x3F ∧ at16 = true ∧ encode i = [w0, w1, w2, w3]))

/-- Worked encodings of spec/03 to spec/07 and spec/15. -/
def Obligations.WordsOfTheManualDecode : Prop :=
  decode .cell true 0x0485D008 0 0 0 = .ok (.sub (.reg 4) (.reg 5) (.port 2) 0) ∧
  decode .cell true 0x08E7FFE8 0 0 0 = .ok (.addi (.reg 7) (.reg 7) 0x1FFD 0) ∧
  decode .cond true 0x2CA68ACF 0 0 0 = .ok (.lui (.reg 5) 0x68ACF) ∧
  decode .cell true 0x38611020 0 0 0 = .ok (.pltu (.reg 3) (.reg 1) (.reg 2) 0) ∧
  decode .cell true 0x44090008 0 0 0 = .ok (.csrrc (.reg 0) (.reg 9) 1 0) ∧
  decode .cell true 0x4CB8FFFD 0 0 0 = .ok (.bne (.reg 5) (.port 0) 0xFFFD) ∧
  decode .cond true 0x66E90080 0 0 0 = .ok (.jalr (.reg 23) (.reg 9) 16 0) ∧
  decode .cell true 0x68340000 0 0 0 = .ok (.rep 3 1 0 0 0) ∧
  decode .cond true 0x6C020020 0 0 0 = .ok (.fence .region 0) ∧
  decode .cell true 0x710900E0 0 0 0 = .ok (.ldW (.reg 8) (.reg 9) 3 0) ∧
  decode .cell true 0x98642980 0 0 0 = .ok (.cas (.reg 3) (.reg 4) (.reg 5) (.reg 6) 0) ∧
  decode .cell true 0x9C042028 0 0 0 = .ok (.sems 5 (.reg 4) 0) ∧
  decode .cell true 0xA4D8C828 0 0 0 = .ok (.sisect 6 0 1 0) ∧
  decode .cell true 0xACE7004A 0 0 0 = .ok (.arelu (.reg 7) (.reg 7) 2) ∧
  decode .cell true 0xB4C740D9 0 0 0 = .ok (.wsel (.reg 6) (.reg 7) (.reg 8) (.reg 3) 1) ∧
  decode .cell true 0xB9A429A8 0 0 0 = .ok (.mmagA4 1 3 (.reg 4) (.reg 5) (.reg 6) 0) ∧
  decode .cond true 0xFC408530 0 0x81008000 0 = .ok (.copy (.reg 4) (.reg 5) (.reg 6) 0 ⟨none, some ⟨2, 1⟩⟩ 0) ∧
  decode .cond true 0xFC80A000 0x80800080 0 0 = .ok (.clause (.reg 5) (.reg 0) ⟨some ⟨1, 1⟩, none⟩ 0) ∧
  decode .cond true 0xFCC50000 0x80800080 0 0 = .ok (.lfork (.reg 8) ⟨some ⟨1, 1⟩, none⟩ 0)

/-! ### Steps -/

namespace Sys2Proof.Claim
open Sys2Proof Sys2Proof.Machine

/-- The cell once each of its contexts that is not ready has noted what holds it; the contexts that are ready then; and the
cell once those have become so (R49, R50). -/
def noted (s : State) (p : Nat) : State :=
  ((List.finRange 4).filter (fun c => !s.ready (.ctx p c))).foldl (fun s c => noteHold (.ctx p c) s) s
def offered (s : State) (p : Nat) : List (Fin 4) := (List.finRange 4).filter (fun c => (noted s p).ready (.ctx p c))
def marked (s : State) (p : Nat) : State := (offered s p).foldl (fun s c => s.nowReady (.ctx p c)) (noted s p)

/-- The agent may issue: a context that is the choice of its cell, or a conductor that runs and whose region lets it; and its
cell or conductor has not issued in this cycle (R30, R49, R351). -/
def Ready (s : State) (a : AgentId) : Prop :=
  lastIssueOf s a ≠ s.cycle + 1 ∧
    match a with
    | .ctx p c => chooseReady ((marked s p).cell p) (offered s p) = some c
    | .cond _ => (s.hart a).run = .running ∧ s.mayIssue a = true

/-- The state in which agent `a` fetches: an agent that is ready has become so and spends its cell's issue, a conductor that is
held spends none, and the ready contexts that are passed over count it (R49, R50). -/
def fetching (s : State) (a : AgentId) : State :=
  match a with
  | .ctx p c => { noteIssue ((marked s p).modCell p (fun x => x.passOver (offered s p) c)) a with cur := a }
  | .cond _ => { (if s.ready a then noteIssue s a else s) with cur := a }

/-- The decoding of what an agent fetches at its pc: the state that has fetched, and the decoder's answer. Words of major
0x3F at a multiple of 16 are long (R51, R73). -/
def Fetches (s : State) (a : AgentId) (s1 : State) (r : Dec Instr) : Prop :=
  (∃ w0, s.fetchWord a (s.hart a).pc = .ok (s1, w0) ∧ fld w0 31 26 ≠ 0x1A ∧
    ¬ (fld w0 31 26 = 0x3F ∧ (s.hart a).pc.toNat % 16 = 0) ∧ r = decode (kindOf a) ((s.hart a).pc.toNat % 16 == 0) w0 0 0 0) ∨
  (∃ w0 s0 bs, s.fetchWord a (s.hart a).pc = .ok (s0, w0) ∧ fld w0 31 26 = 0x3F ∧ (s.hart a).pc.toNat % 16 = 0 ∧
    s0.fetchBytes a (s.hart a).pc 16 = .ok (s1, bs) ∧
    r = decode (kindOf a) true (wordAt bs 0) (wordAt bs 1) (wordAt bs 2) (wordAt bs 3))

/-- The step is what `o` says; bytes that a later load has read early are forgotten, unless the instruction keeps them or did
not complete (log entry 5). -/
def RunsAs (s s1 : State) (a : AgentId) (i : Instr) (o : Out) : Prop :=
  ((s1.hart a).early = [] ∨ keepsEarly i = true → step s = o) ∧
    ((s1.hart a).early ≠ [] → keepsEarly i = false → ∀ t, o = .next t →
      step s = .next (if (t.hart a).hold = none then t.modHart a (fun h => { h with early := [] }) else t))

end Sys2Proof.Claim

/-- A step runs the decoded instruction (R51, R73, R91). The agenda (log entry 1), unfinished instructions (7), readiness (16),
the turns of a dispatch loop (70) and bytes read early (5) are the model's choices. -/
def Obligations.StepRunsTheDecodedInstruction : Prop :=
  (∀ (s s1 : State) (a : AgentId) (r : List Move) (i : Instr), s.agenda = .issue a :: r →
    let u : State := { s with agenda := r }; let f := fetching u a
    Ready u a → (f.hart a).rep = false → f.handlerOf a = none → s1.handlerOf a = none → Fetches f a s1 (.ok i) →
    (hazard s1 a i = false → RunsAs s s1 a i (exec i s1)) ∧ (hazard s1 a i = true → step s = .next (s1.holdBy a .hazard))) ∧
  (∀ (s s1 : State) (a : AgentId) (r : List Move) (w0 : Nat) (i : Instr), s.agenda = .issue a :: r →
    let u : State := { s with agenda := r }; let f := fetching u a
    Ready u a → f.handlerOf a = none → f.fetchWord a (f.hart a).pc = .ok (s1, w0) → fld w0 31 26 = 0x1A →
    (s1.hart a).flight = [] → (s1.hart a).early = [] →
    ((f.hart a).rep = true → step s = exec .rept s1) ∧
    ((f.hart a).rep = false → decode (kindOf a) true w0 0 0 0 = .ok i → step s = exec i s1)) ∧
  (∀ (s s1 : State) (a : AgentId) (r : List Move) (i : Instr) (g n k : Nat) (x : Replica), s.agenda = .issue a :: r →
    let u : State := { s with agenda := r }; let f := fetching u a
    Ready u a → (f.hart a).rep = false → f.handlerOf a = some (g, n, k, x) →
    ((f.hart a).pc = BitVec.ofNat 64 x.loopAt → step s = dispatchTurn a g n k x f) ∧
    ((f.hart a).pc ≠ BitVec.ofNat 64 x.loopAt → s1.handlerOf a = some (g, n, k, x) → Fetches f a s1 (.ok i) →
      hazard s1 a i = false →
      (∀ pg, i = .ends pg → RunsAs s s1 a i (backToLoop x pg s1)) ∧ ((∀ pg, i ≠ .ends pg) → RunsAs s s1 a i (exec i s1)))) ∧
  (∀ (s t : State) (a : AgentId) (r : List Move), s.agenda = .issue a :: r → lastIssueOf s a = s.cycle + 1 →
    (a.isCond = true → (s.hart a).run = .running ∧ s.mayIssue a = true) → t = passCycle { s with agenda := r } → Ready t a →
    step s = step { t with agenda := .issue a :: t.agenda }) ∧
  ((∀ (s : State) (k : Nat) (r : List Move), s.agenda = .issue (.cond k) :: r → (s.hart (.cond k)).run ≠ .running →
    step s = .next { s with agenda := r }) ∧
  (∀ (s : State) (p : Nat) (c : Fin 4) (r : List Move), s.agenda = .issue (.ctx p c) :: r →
    let u : State := { s with agenda := r }
    lastIssueOf s (.ctx p c) ≠ s.cycle + 1 → chooseReady ((marked u p).cell p) (offered u p) ≠ some c →
    step s = .next (marked u p)) ∧
  (∀ (x : Cell) (l : List (Fin 4)) (c : Fin 4), chooseReady x l = some c →
    c ∈ l ∧ ((∃ d ∈ l, 255 ≤ x.ctx[d].passed) → 255 ≤ x.ctx[c].passed) ∧
    ((∀ d ∈ l, x.ctx[d].passed < 255) → (∃ b : DWord, ∀ d ∈ l, (x.ctx[d].pass - b).toNat < 2 ^ 63) →
      ∀ d ∈ l, 0 ≤ (x.ctx[d].pass - x.ctx[c].pass).toInt))) ∧
  (∀ (s : State) (i : Instr) (r : List Move), s.agenda = .event i :: r → isEvent i = true →
    ((∀ p c, i = .contextReady p c → State.ready { s with agenda := r } (.ctx p c) = true) →
      step s = exec i { s with agenda := r }) ∧
    (∀ p c, i = .contextReady p c → State.ready { s with agenda := r } (.ctx p c) = false →
      step s = .next { s with agenda := r }))

/-- Fetching (R51, R90, R276) and the traps of decoding (R73, R74, R75). -/
def Obligations.FetchesReadTheCodeSpaceAndBadWordsTrap : Prop :=
  ((∀ (s s1 : State) (a : AgentId) (r : List Move) (w0 : Nat) (e : DecodeErr), s.agenda = .issue a :: r →
    let u : State := { s with agenda := r }; let f := fetching u a
    Ready u a → (f.hart a).rep = false → f.handlerOf a = none →
    f.fetchWord a (f.hart a).pc = .ok (s1, w0) → fld w0 31 26 ≠ 0x1A →
    ¬ (fld w0 31 26 = 0x3F ∧ (f.hart a).pc.toNat % 16 = 0) →
    decode (kindOf a) ((f.hart a).pc.toNat % 16 == 0) w0 0 0 0 = .error e →
    step s = .next (s1.takeTrap a (trapOf .undef (dwn w0) 0))) ∧
  (∀ (s s0 s1 : State) (a : AgentId) (r : List Move) (w0 : Nat) (bs : List Byte) (e : DecodeErr),
    s.agenda = .issue a :: r →
    let u : State := { s with agenda := r }; let f := fetching u a
    Ready u a → (f.hart a).rep = false → f.handlerOf a = none →
    f.fetchWord a (f.hart a).pc = .ok (s0, w0) → fld w0 31 26 = 0x3F → (f.hart a).pc.toNat % 16 = 0 →
    s0.fetchBytes a (f.hart a).pc 16 = .ok (s1, bs) → wordAt bs 0 = w0 →
    decode (kindOf a) true (wordAt bs 0) (wordAt bs 1) (wordAt bs 2) (wordAt bs 3) = .error e →
    step s = .next (s1.takeTrap a
      (trapOf (if e = .cellLong then .priv else .undef) (dwn w0) (dwn (wordAt bs 2 * 2 ^ 32 + wordAt bs 1)))))) ∧
  ((∀ (s : State) (a : AgentId) (v : DWord), v.toNat % 4 ≠ 0 →
    s.fetchWord a v = .error (.trap (trapOf .align v 0))) ∧
  (∀ (s : State) (p : Nat) (c : Fin 4) (v : DWord), v.toNat % 4 = 0 →
    (0x80000 < v.toNat + 4 → s.fetchWord (.ctx p c) v = .error (.trap (trapOf .bounds v 0))) ∧
    (v.toNat + 4 ≤ 0x80000 →
      (s.isBad (.store p v.toNat) = false →
        s.fetchWord (.ctx p c) v = .ok (s, (s.getByte (.store p v.toNat)).toNat
          + 2 ^ 8 * (s.getByte (.store p (v.toNat + 1))).toNat + 2 ^ 16 * (s.getByte (.store p (v.toNat + 2))).toNat
          + 2 ^ 24 * (s.getByte (.store p (v.toNat + 3))).toNat)) ∧
      (s.isBad (.store p v.toNat) = true →
        s.fetchWord (.ctx p c) v = .error (.bad (.store p v.toNat) (trapOf .uncorr v 1))))) ∧
  (∀ (s : State) (k q : Nat) (r : Region) (e : Extent) (v : DWord), v.toNat % 4 = 0 → (s.cond k).region = some q →
    s.region q = some r → s.extentNo (.cond k) r.lext = some e →
    (2 ^ 48 ≤ v.toNat ∨ fld v.toNat 47 40 ≠ r.lext ∨ e.len < fld v.toNat 39 0 + 4) →
    s.fetchWord (.cond k) v = .error (.trap (trapOf .bounds v 0))))

/-- A false predicate (R34 rule 4, R54, R81). -/
def Obligations.FalsePredicateSkipsEveryInstruction : Prop :=
  ∀ (i : Instr) (s : State), (s.hart s.cur).hold = none →
    (∀ w, encode i = [w] → [0x0B, 0x0C, 0x0D, 0x12, 0x13, 0x14, 0x15, 0x16, 0x17, 0x18, 0x1A, 0x2A].contains (fld w 31 26) = false →
      Off s (pgOf w) → exec i s = .next (s.retireBy s.cur 4)) ∧
    (∀ w0 w1 w2 w3, encode i = [w0, w1, w2, w3] → Off s (pgOf w0) → exec i s = .next (s.retireBy s.cur 16))

/-- The end of every instruction that completes in sequence (R49, R91). -/
def Obligations.RetiringAdvancesOnlyPcAndPass : Prop :=
  ∀ (s : State) (n : Nat), let t := s.retireBy s.cur n; let g := s.hart s.cur; let h := t.hart s.cur
    SameBytes s t ∧ SameOthers s t ∧ SameSpecial g h ∧ h.x = g.x ∧ h.p = g.p ∧ h.a = g.a ∧ h.w = g.w ∧ h.m = g.m ∧
    h.tl = g.tl ∧ h.fps = g.fps ∧ h.rdh = g.rdh ∧ h.ports = g.ports ∧ h.pend = g.pend ∧ h.run = g.run ∧ h.hold = none ∧
    t.regions = s.regions ∧
    h.pass.toNat = (if s.cur.isCond then g.pass.toNat else (g.pass.toNat + 2 ^ 24 / g.wgt.toNat) % 2 ^ 64) ∧
    (g.rep = false → h.pc = g.pc + BitVec.ofNat 64 n ∧ h.rep = false ∧ h.repc = g.repc) ∧
    (g.rep = true → 1 < g.repc.toNat → h.pc = g.pc ∧ h.rep = true ∧ h.repc.toNat = g.repc.toNat - 1) ∧
    (g.rep = true → g.repc.toNat ≤ 1 → h.pc = g.pc + 8 ∧ h.rep = false ∧ h.repc = 0)

/-! ### Reset and the whole machine -/

/-- Reset (R406) and the Reset columns of the register maps; the registers at clause load (R31, R209). Host and peer bytes are
log entry 8, the firmware's registers 3, reads before READY 52. -/
def Obligations.ResetAndLoadGiveEveryRegisterItsValue : Prop :=
  ((∀ off, State.reset.barRead off = 0) ∧
  (∀ off, off < 0x40000 → (State.reset.modFirm (fun f => { f with ready := true })).barRead off =
    (if off = 0x1100 then 1 else if off = 0x1108 then 0xFF else if off = 0x10018 then BitVec.ofNat 64 (16 * 2 ^ 35)
     else if off = 0x30010 then 432 else 0)) ∧
  (∀ p, State.reset.getByte p = 0) ∧ (∀ p, State.reset.isFull p = false) ∧ State.reset.regions = [] ∧
  (∀ n : Fin 8, let l := State.reset.links[n]
    l.state = .down ∧ l.txOld = 0 ∧ l.rxExp = 0 ∧ l.txLanes = 0 ∧ l.rxLanes = 0 ∧ l.crcErr = 0 ∧ l.dup = 0 ∧ l.ooo = 0 ∧
      l.replays = 0 ∧ l.retrains = 0 ∧ l.lostCount = 0) ∧
  (∀ d : Fin 7, State.reset.errs[d] = ⟨0, 0⟩)) ∧
  (∀ (d : StageDesc) (role nrole n : Nat) (dm : BitVec 2), d.present = true →
    let h := loadHart d role nrole n dm
    (∀ r : Fin 24, h.x[r] = 0) ∧ (∀ r : Fin 24, h.a[r] = ⟨0, false⟩) ∧ (∀ r l : Fin 24, h.w[r][l] = 0) ∧
    (∀ r : Fin 8, h.p[r] = decide (r = 0)) ∧ (∀ r : Fin 8, h.m[r] = 0) ∧ (∀ (r : Fin 4) (l : Fin 24), h.tl[r][l] = 0) ∧
    h.fps = 0 ∧ h.pass = 0 ∧ h.level = false ∧ h.rep = false ∧ h.rdh = false ∧ h.run = .waiting ∧
    h.armed = d.armed ∧ h.roleIdx.toNat = role % 2 ^ 16 ∧ h.roleNum.toNat = nrole % 2 ^ 16 ∧ h.clause.toNat = n % 2 ^ 32 ∧
    h.dmode = dm ∧ h.tvec.toNat = d.tvec % 2 ^ 64 ∧ h.tframe.toNat = 2048 * d.tfa % 2 ^ 64 ∧ h.wgt = d.w)

/-- Reset satisfies the invariant that every step keeps. -/
def Obligations.ResetMemoriesAreCanonical : Prop := State.reset.memWf = true

/-- The invariant: every step, whatever the instruction or event, keeps every memory canonical. -/
def Obligations.StepKeepsMemoriesCanonical : Prop :=
  ∀ s s' : State, s.memWf = true → step s = .next s' → s'.memWf = true

/-- No stop: whatever an instruction meets is a next state. -/
def Obligations.EveryInstructionAnswersANextState : Prop := ∀ (i : Instr) (s : State), ∃ t, exec i s = .next t

/-! ### Operands -/

namespace Sys2Proof.Claim
open Sys2Proof Sys2Proof.Machine

/-- What reading an operand may change: the ports of the reading agent, and free slots of the channels behind them. -/
def OnlyPortsRead (s t : State) : Prop :=
  SameBytes s t ∧ SameOthers s t ∧ t.cur = s.cur ∧ t.hart s.cur = { s.hart s.cur with ports := (t.hart s.cur).ports } ∧
  (∀ q, (t.region q).map (fun r => { r with clauses := [] }) = (s.region q).map (fun r => { r with clauses := [] }))

/-- A source register with an uncorrectable error: UNCORR names its class and number (R276). -/
def badSource (cls n : Nat) : Stop := .trap (trapOf .uncorr (BitVec.ofNat 64 (2 ^ 63 + cls * 256 + n)) 2)

/-- The token types that a class accepts (R34 rule 7). -/
def classTakes (c : Cls) (t : Nat) : Prop :=
  match c with
  | .x | .p => t ∈ [0, 1, 2, 3]
  | .m => t ∈ [2, 3]
  | .a => t ∈ [4, 5]
  | .w | .tl => t ∈ [6, 7]

/-- The port word of R35: TTYPE, CLS, FLD, DIR and PORT. -/
def r35Word (ttype cls field : Nat) (input : Bool) (q : Fin 8) : DWord :=
  BitVec.ofNat 64 (ttype * 2 ^ 12 + cls * 2 ^ 9 + field * 2 ^ 4 + (if input then 8 else 0) + q.val)

/-- Row 1 of R194 at one field of an instruction whose source fields name the ports `src`: the port is used, faces the right
way (an input port that is also a source may be a destination), and carries a type, and for a fixed format a block, that the
field takes. -/
def fits (h : Hart) (src : List (Fin 8)) (f : Field) (q : Fin 8) : Prop :=
  let o := h.ports[q]
  o.used = true ∧ (if f.dst then o.input = false ∨ q ∈ src else o.input = true) ∧ classTakes f.cls o.ttype ∧
    (∀ t, f.a32 = some t → t = (o.ttype == 5))

/-- Why a field stops the instruction before anything is popped: PORTTYPE, an empty source port, or MARKER. -/
inductive Refuses (h : Hart) (src : List (Fin 8)) (f : Field) : Stop → Prop
  | porttype (q : Fin 8) : f.port = some q → ¬ fits h src f q →
      Refuses h src f (let o := h.ports[q]; let n := o.next
        .trap ⟨.porttype, BitVec.ofNat 64 n.1, r35Word (if o.used then o.ttype else 15) f.cls.num (24 + q.val) o.input q,
          BitVec.ofNat 64 n.1, n.2⟩)
  | empty (q : Fin 8) : f.port = some q → fits h src f q → f.dst = false → h.ports[q].queue = [] →
      Refuses h src f (.hold (.empty q))
  | marker (q : Fin 8) (e : Entry) (r : List Entry) : f.port = some q → fits h src f q → f.dst = false →
      h.ports[q].queue = e :: r → ((∃ m, e.item = .marker m) ∨ e.item = .drain) →
      Refuses h src f (let o := h.ports[q]; let n := o.next
        .trap ⟨.marker, BitVec.ofNat 64 n.1, r35Word o.ttype f.cls.num (24 + q.val) true q, BitVec.ofNat 64 n.1, n.2⟩)

/-- The ports that the source fields of an instruction name. -/
def sourcePorts (l : List Field) : List (Fin 8) := l.filterMap (fun f => if f.dst then none else f.port)

/-- The fields of an instruction are looked at before anything else; it stops where one refuses. -/
def Looked (s : State) (i : Instr) (l : List Field) (rest : Prop) : Prop :=
  (∀ e, fields s l = .error e → exec i s = stops s e) ∧ (fields s l = .ok (work s) → rest)

end Sys2Proof.Claim

/-- Register sources and destinations (R31, R276). -/
def Obligations.RegisterOperandsReadAndWriteTheirFile : Prop :=
  (∀ (w : Work) (i : Nat), w.hart.capt = none →
    (∀ r : Fin 24, (0 * 256 + r.val ∉ w.hart.badRegs → readX w i (.reg r) = .ok (if r = 0 then 0 else w.hart.x[r], w)) ∧
      (0 * 256 + r.val ∈ w.hart.badRegs → readX w i (.reg r) = .error (badSource 0 r.val))) ∧
    (∀ r : Fin 24, (256 + r.val ∉ w.hart.badRegs → readA w i (.reg r) = .ok (w.hart.a[r], w)) ∧
      (256 + r.val ∈ w.hart.badRegs → readA w i (.reg r) = .error (badSource 1 r.val))) ∧
    (∀ r : Fin 24, (2 * 256 + r.val ∉ w.hart.badRegs → readW w i (.reg r) = .ok (w.hart.w[r], w)) ∧
      (2 * 256 + r.val ∈ w.hart.badRegs → readW w i (.reg r) = .error (badSource 2 r.val))) ∧
    (∀ r : Fin 8, (3 * 256 + r.val ∉ w.hart.badRegs → readP w i (.reg r) = .ok (decide (r = 0) || w.hart.p[r], w)) ∧
      (3 * 256 + r.val ∈ w.hart.badRegs → readP w i (.reg r) = .error (badSource 3 r.val))) ∧
    (∀ r : Fin 8, (4 * 256 + r.val ∉ w.hart.badRegs → readM w i (.reg r) = .ok (w.hart.m[r], w)) ∧
      (4 * 256 + r.val ∈ w.hart.badRegs → readM w i (.reg r) = .error (badSource 4 r.val))) ∧
    (∀ r : Fin 4, (5 * 256 + r.val ∉ w.hart.badRegs → readTl w i (.reg r) = .ok (w.hart.tl[r], w)) ∧
      (5 * 256 + r.val ∈ w.hart.badRegs → readTl w i (.reg r) = .error (badSource 5 r.val)))) ∧
  (∀ w : Work,
    (∀ v, writeX w (.reg 0) v = .ok w) ∧ (∀ v, writeP w (.reg 0) v = .ok w) ∧
    (∀ (r : Fin 24) v, r ≠ 0 → ∃ w', writeX w (.reg r) v = .ok w' ∧ SameBytes w.s w'.s ∧ SameOthers w.s w'.s ∧ w'.popped = w.popped ∧
      w'.hart = { w.hart with x := w.hart.x.set r v, badRegs := w.hart.badRegs.filter (· != r.val) }) ∧
    (∀ (r : Fin 24) v, ∃ w', writeA w (.reg r) v = .ok w' ∧ SameBytes w.s w'.s ∧ SameOthers w.s w'.s ∧ w'.popped = w.popped ∧
      w'.hart = { w.hart with a := w.hart.a.set r v, badRegs := w.hart.badRegs.filter (· != 256 + r.val) }) ∧
    (∀ (r : Fin 24) v, ∃ w', writeW w (.reg r) v = .ok w' ∧ SameBytes w.s w'.s ∧ SameOthers w.s w'.s ∧ w'.popped = w.popped ∧
      w'.hart = { w.hart with w := w.hart.w.set r v, badRegs := w.hart.badRegs.filter (· != 512 + r.val) }) ∧
    (∀ (r : Fin 8) v, r ≠ 0 → ∃ w', writeP w (.reg r) v = .ok w' ∧ SameBytes w.s w'.s ∧ SameOthers w.s w'.s ∧ w'.popped = w.popped ∧
      w'.hart = { w.hart with p := w.hart.p.set r v, badRegs := w.hart.badRegs.filter (· != 768 + r.val) }) ∧
    (∀ (r : Fin 8) v, ∃ w', writeM w (.reg r) v = .ok w' ∧ SameBytes w.s w'.s ∧ SameOthers w.s w'.s ∧ w'.popped = w.popped ∧
      w'.hart = { w.hart with m := w.hart.m.set r v, badRegs := w.hart.badRegs.filter (· != 1024 + r.val) }) ∧
    (∀ (r : Fin 4) v, ∃ w', writeTl w (.reg r) v = .ok w' ∧ SameBytes w.s w'.s ∧ SameOthers w.s w'.s ∧ w'.popped = w.popped ∧
      w'.hart = { w.hart with tl := w.hart.tl.set r v, badRegs := w.hart.badRegs.filter (· != 1280 + r.val) }))

/-- Ports as sources (R34 rules 1, 2, 7 and 8, R35); every port is looked at first (R34, row 1 of R194). -/
def Obligations.PortSourcePopsTheTokenAtItsHead : Prop :=
  (∀ (s : State) (l : List Field), (s.hart s.cur).capt = none →
    ((∀ f ∈ l, ∀ e, ¬ Refuses (s.hart s.cur) (sourcePorts l) f e) → fields s l = .ok (work s)) ∧
    (∀ (a b : List Field) (f : Field) (e : Stop), l = a ++ f :: b → (∀ g ∈ a, ∀ e, ¬ Refuses (s.hart s.cur) (sourcePorts l) g e) →
      Refuses (s.hart s.cur) (sourcePorts l) f e → fields s l = .error e)) ∧
  ∀ (w : Work) (cls : Cls) (q : Fin 8), let o := w.hart.ports[q]; let n := o.next
    w.popped.find? (fun e => e.1 == q) = none →
    ((o.used = false ∨ o.input = false ∨ ¬ classTakes cls o.ttype) →
      readPort w cls (24 + q.val) q = .error (.trap ⟨.porttype, BitVec.ofNat 64 n.1,
        r35Word (if o.used then o.ttype else 15) cls.num (24 + q.val) o.input q, BitVec.ofNat 64 n.1, n.2⟩)) ∧
    (o.used = true → o.input = true → classTakes cls o.ttype →
      (o.queue = [] → readPort w cls (24 + q.val) q = .error (.hold (.empty q))) ∧
      (∀ e r, o.queue = e :: r → ((∃ m, e.item = .marker m) ∨ e.item = .drain) →
        readPort w cls (24 + q.val) q = .error (.trap ⟨.marker, BitVec.ofNat 64 n.1,
          r35Word o.ttype cls.num (24 + q.val) true q, BitVec.ofNat 64 n.1, n.2⟩)) ∧
      (∀ e r t, o.queue = e :: r → e.item = .data t → ∃ w', readPort w cls (24 + q.val) q = .ok (t, w') ∧
        w'.popped = (q, t) :: w.popped ∧ OnlyPortsRead w.s w'.s ∧ w'.hart.ports[q].queue = r ∧
        (∀ q' : Fin 8, q' ≠ q → w'.hart.ports[q'] = w.hart.ports[q']) ∧
        (∀ cls', classTakes cls' o.ttype → readPort w' cls' (24 + q.val) q = .ok (t, w')))) ∧
    (∀ (i : Nat) (t : Token) (w' : Work), w.hart.capt = none →
      (readPort w .x (24 + q.val) q = .ok (t, w') → readX w i (.port q) = .ok (t.scalarVal, w')) ∧
      (readPort w .a (24 + q.val) q = .ok (t, w') → readA w i (.port q) = .ok (t.blockVal, w')) ∧
      (readPort w .w (24 + q.val) q = .ok (t, w') → readW w i (.port q) = .ok (t.wideVal, w')) ∧
      (readPort w .p (24 + q.val) q = .ok (t, w') → readP w i (.port q) = .ok (t.scalarVal.getLsbD 0, w')) ∧
      (readPort w .m (24 + q.val) q = .ok (t, w') → readM w i (.port q) = .ok (t.scalarVal.setWidth 24, w')) ∧
      (readPort w .tl (24 + q.val) q = .ok (t, w') → readTl w i (.port q) = .ok (t.wideVal, w')))

/-- Ports as destinations (R34, R35, R183, R225, R226); PORTTYPE at an input port that was not popped is log entry 59,
the hold for an earlier clause 75. -/
def Obligations.PortDestinationPushesOneToken : Prop :=
  ∀ (w : Work) (p : Nat) (c : Fin 4) (cls : Cls) (q : Fin 8) (t : Token), w.s.cur = .ctx p c →
    let o := w.hart.ports[q]; let n := o.next; let popped := w.popped.any (fun e => e.1 == q)
    let tagBad : Bool := match t with | .block b => b.a32 != (o.ttype == 5) | _ => false
    ((o.used = false ∨ (o.input = true ∧ popped = false ∧ w.hart.capt = none) ∨ ¬ classTakes cls o.ttype ∨ tagBad = true) →
      pushPort w cls (24 + q.val) q t = .error (.trap ⟨.porttype, BitVec.ofNat 64 n.1,
        r35Word (if o.used then o.ttype else 15) cls.num (24 + q.val) o.input q, BitVec.ofNat 64 n.1, n.2⟩)) ∧
    (o.used = true → o.input = true → popped = true → classTakes cls o.ttype → tagBad = false →
      ∃ w' e, pushPort w cls (24 + q.val) q t = .ok w' ∧ w'.hart.ports[q].queue = o.queue ++ [e] ∧
        e.item = .data (tokenFor o.ttype t).1 ∧ SameBytes w.s w'.s) ∧
    (o.used = true → o.input = false → classTakes cls o.ttype → tagBad = false → w.replica = none →
      (o.chan = true → ∀ g m i ch h, w.s.chanAt p c q true = some (g, m, i) → w.s.getChan g m i = some ch →
        ch.hops.head? = some h →
        (h.free = 0 → pushPort w cls (24 + q.val) q t = .error (.hold (.full q))) ∧
        (0 < h.free → ∃ w' ch', pushPort w cls (24 + q.val) q t = .ok w' ∧
          w'.hart.ports[q].queue = o.queue ++ [⟨.data (tokenFor o.ttype t).1, o.seq, chanIdx o.seq, 0⟩] ∧
          w'.s.getChan g m i = some ch' ∧ ch'.pushed = ch.pushed + 1 ∧
          ch'.hops = { h with free := h.free - 1 } :: ch.hops.tail ∧ SameBytes w.s w'.s)) ∧
      (o.chan = false → o.cur = none → pushPort w cls (24 + q.val) q t = .error (.hold (.full q))) ∧
      (o.chan = false → ∀ pat, o.cur = some pat →
        (pat.total ≤ pat.pos → pushPort w cls (24 + q.val) q t = .error (.hold (.full q))) ∧
        (pat.pos < pat.total → ∀ site, checkAddr w.s w.s.cur (pat.addr (pat.entry pat.pos).idx) (tokenSize o.ttype)
            (tokenAlign o.ttype) true false = .ok site → w.hart.det = false →
          let early : Bool := match site with | .store _ _ => false | .ext _ _ => w.s.clauseBefore p
          (early = true → pushPort w cls (24 + q.val) q t = .error (.hold .clauseOrder)) ∧
          (early = false → ∃ w' x, pushPort w cls (24 + q.val) q t = .ok w' ∧ w'.hart.ports[q].out = o.out ++ [x] ∧
            x.addr = pat.addr (pat.entry pat.pos).idx ∧ x.tok = (tokenFor o.ttype t).1 ∧
            w'.hart.ports[q].cur = some { pat with pos := pat.pos + 1 } ∧ SameBytes w.s w'.s)))) ∧
    (o.used = true → o.input = false → classTakes cls o.ttype → tagBad = false → o.cur = none →
      ∀ g m i x cl y, w.replica = some (g, m, i, x) → w.s.clauseAt g m = some cl → cl.plyn = some y →
        (cl.routeFull i q.val = true → pushPort w cls (24 + q.val) q t = .error (.hold (.full q))) ∧
        (cl.routeFull i q.val = false → ∃ w', pushPort w cls (24 + q.val) q t = .ok w' ∧ SameBytes w.s w'.s ∧
          w'.s.clauseAt g m = some { cl with plyn := some (y.send i q.val (tokenFor o.ttype t).1) })) ∧
    (∀ v : DWord, o.ttype ≤ 3 → tokenFor o.ttype (.scalar v) = (.scalar (BitVec.ofNat 64 (v.toNat % 2 ^ (8 * 2 ^ o.ttype))), 0))
/-! ### Scalar, predicate and mask instructions -/

namespace Sys2Proof.Claim
open Sys2Proof Sys2Proof.Machine

/-- An instruction of one source and one destination: its fields are looked at; under a true predicate it reads its source,
writes f of it and retires, and it stops where the source cannot be read or the destination written. -/
def OneToOne {α β : Type} {n l : Nat} (ca cd : Cls) (rdA : Work → Nat → Opnd n → Res (α × Work))
    (wr : Work → Opnd l → β → Res Work) (mk : Opnd l → Opnd n → Pg → Instr) (f : α → β) : Prop :=
  ∀ (s : State) (rd : Opnd l) (ra : Opnd n) (pg : Pg), On s pg → Looked s (mk rd ra pg) [ca.src ra, cd.dst rd]
    ((∀ e, rdA (work s) 0 ra = .error e → exec (mk rd ra pg) s = stops s e) ∧
    ∀ a w1, rdA (work s) 0 ra = .ok (a, w1) →
      (∀ e, wr w1 rd (f a) = .error e → exec (mk rd ra pg) s = stops s e) ∧
      (∀ w2, wr w1 rd (f a) = .ok w2 → exec (mk rd ra pg) s = retires w2 s 4))

/-- An instruction of two sources, read in field order, and one destination. -/
def TwoToOne {α β γ : Type} {n m l : Nat} (ca cb cd : Cls) (rdA : Work → Nat → Opnd n → Res (α × Work))
    (rdB : Work → Nat → Opnd m → Res (β × Work)) (wr : Work → Opnd l → γ → Res Work)
    (mk : Opnd l → Opnd n → Opnd m → Pg → Instr) (f : α → β → γ) : Prop :=
  ∀ (s : State) (rd : Opnd l) (ra : Opnd n) (rb : Opnd m) (pg : Pg), On s pg →
    Looked s (mk rd ra rb pg) [ca.src ra, cb.src rb, cd.dst rd]
    ((∀ e, rdA (work s) 0 ra = .error e → exec (mk rd ra rb pg) s = stops s e) ∧
    ∀ a w1, rdA (work s) 0 ra = .ok (a, w1) →
      (∀ e, rdB w1 1 rb = .error e → exec (mk rd ra rb pg) s = stops s e) ∧
      ∀ b w2, rdB w1 1 rb = .ok (b, w2) →
        (∀ e, wr w2 rd (f a b) = .error e → exec (mk rd ra rb pg) s = stops s e) ∧
        (∀ w3, wr w2 rd (f a b) = .ok w3 → exec (mk rd ra rb pg) s = retires w3 s 4))

/-- A 32-bit value sign-extended to 64 bits: sext32 of R82. -/
def sx (v : BitVec 32) : DWord := v.signExtend 64
/-- The low 32 bits of a register. -/
def lo (a : DWord) : BitVec 32 := a.setWidth 32
/-- A shift amount of 6 bits, and of 5 bits in the w forms (R82). -/
def amt (b : DWord) : Nat := b.toNat % 64
def amtw (b : DWord) : Nat := b.toNat % 32
/-- 1 or 0. -/
def flag1 (b : Bool) : DWord := if b then 1 else 0

/-- div and rem of R28: truncation toward zero, and its borderline cases. -/
def r28div (a b : DWord) : DWord :=
  if b = 0 then BitVec.allOnes 64 else if a.toInt = -2 ^ 63 ∧ b.toInt = -1 then a else BitVec.ofInt 64 (a.toInt.tdiv b.toInt)
def r28rem (a b : DWord) : DWord :=
  if b = 0 then a else if a.toInt = -2 ^ 63 ∧ b.toInt = -1 then 0 else BitVec.ofInt 64 (a.toInt.tmod b.toInt)
def r28divu (a b : DWord) : DWord := if b = 0 then BitVec.allOnes 64 else BitVec.ofNat 64 (a.toNat / b.toNat)
def r28remu (a b : DWord) : DWord := if b = 0 then a else BitVec.ofNat 64 (a.toNat % b.toNat)

/-- Functions 0 to 29 of R82, by their constructors. -/
def r82two : List ((XOp → XOp → XOp → Pg → Instr) × (DWord → DWord → DWord)) := [
  (.add, fun a b => a + b), (.sub, fun a b => a - b), (.and, fun a b => a &&& b), (.or, fun a b => a ||| b),
  (.xor, fun a b => a ^^^ b), (.andn, fun a b => a &&& ~~~b), (.shl, fun a b => a <<< amt b), (.shr, fun a b => a >>> amt b),
  (.sra, fun a b => a.sshiftRight (amt b)), (.rot, fun a b => a.rotateRight (amt b)),
  (.addw, fun a b => sx (lo a + lo b)), (.subw, fun a b => sx (lo a - lo b)), (.shlw, fun a b => sx (lo a <<< amtw b)),
  (.shrw, fun a b => sx (lo a >>> amtw b)), (.sraw, fun a b => sx ((lo a).sshiftRight (amtw b))),
  (.mul, fun a b => a * b), (.mulh, fun a b => ((a.signExtend 128 * b.signExtend 128) >>> 64).setWidth 64),
  (.mulhu, fun a b => ((a.setWidth 128 * b.setWidth 128) >>> 64).setWidth 64), (.mulw, fun a b => sx (lo a * lo b)),
  (.div, r28div), (.divu, r28divu), (.rem, r28rem), (.remu, r28remu),
  (.min, fun a b => if a.slt b then a else b), (.max, fun a b => if a.slt b then b else a),
  (.minu, fun a b => if a.ult b then a else b), (.maxu, fun a b => if a.ult b then b else a),
  (.slt, fun a b => flag1 (a.slt b)), (.sltu, fun a b => flag1 (a.ult b)), (.seq, fun a b => flag1 (a == b))]

/-- Functions 30 to 32 of R82. -/
def r82one : List ((XOp → XOp → Pg → Instr) × (DWord → DWord)) := [
  (.clz, fun a => BitVec.ofNat 64 ((List.range 65).findIdx (fun n => n == 64 || a.getLsbD (63 - n)))),
  (.popc, fun a => BitVec.ofNat 64 ((List.range 64).countP (fun n => a.getLsbD n))),
  (.brev, fun a => a.reverse)]

/-- The immediate forms of R83, c their sign-extended immediate. -/
def r83imm : List ((XOp → XOp → BitVec 13 → Pg → Instr) × (DWord → DWord → DWord)) := [
  (.addi, fun a c => a + c), (.andi, fun a c => a &&& c), (.ori, fun a c => a ||| c), (.xori, fun a c => a ^^^ c),
  (.slti, fun a c => flag1 (a.slt c)), (.sltiu, fun a c => flag1 (a.ult c))]

/-- The shifts of R83 by imm13[5:0]. -/
def r83shift : List ((XOp → XOp → BitVec 6 → Pg → Instr) × (DWord → Nat → DWord)) := [
  (.shli, fun a n => a <<< n), (.shri, fun a n => a >>> n), (.srai, fun a n => a.sshiftRight n)]

/-- The comparisons of R85 into a predicate. -/
def r85cmp : List ((POp → XOp → XOp → Pg → Instr) × (DWord → DWord → Bool)) := [
  (.peq, fun a b => a == b), (.pne, fun a b => a != b), (.plt, fun a b => a.slt b), (.pge, fun a b => !a.slt b),
  (.pltu, fun a b => a.ult b), (.pgeu, fun a b => !a.ult b)]

/-- The functions of two predicates of R85. -/
def r85log : List ((POp → POp → POp → Pg → Instr) × (Bool → Bool → Bool)) := [
  (.pand, fun a b => a && b), (.por, fun a b => a || b), (.pxor, fun a b => a ^^ b)]

/-- The registers an instruction of this chapter may write. -/
inductive Dest where
  | x (r : XOp) | p (r : POp) | m (r : MOp) | nothing

/-- The scalar, immediate, U-format, predicate and mask instructions, branches and jumps, with their destination. -/
def scalarDest : Instr → Option Dest
  | .add d _ _ _ | .sub d _ _ _ | .and d _ _ _ | .or d _ _ _ | .xor d _ _ _ | .andn d _ _ _ | .shl d _ _ _ | .shr d _ _ _
  | .sra d _ _ _ | .rot d _ _ _ | .addw d _ _ _ | .subw d _ _ _ | .shlw d _ _ _ | .shrw d _ _ _ | .sraw d _ _ _
  | .mul d _ _ _ | .mulh d _ _ _ | .mulhu d _ _ _ | .mulw d _ _ _ | .div d _ _ _ | .divu d _ _ _ | .rem d _ _ _
  | .remu d _ _ _ | .min d _ _ _ | .max d _ _ _ | .minu d _ _ _ | .maxu d _ _ _ | .slt d _ _ _ | .sltu d _ _ _
  | .seq d _ _ _ | .addi d _ _ _ | .andi d _ _ _ | .ori d _ _ _ | .xori d _ _ _ | .shli d _ _ _ | .shri d _ _ _
  | .srai d _ _ _ | .slti d _ _ _ | .sltiu d _ _ _ => some (.x d)
  | .clz d _ _ | .popc d _ _ | .brev d _ _ | .mget d _ _ => some (.x d)
  | .lui d _ | .lih d _ | .auipc d _ => some (.x d)
  | .peq d _ _ _ | .pne d _ _ _ | .plt d _ _ _ | .pge d _ _ _ | .pltu d _ _ _ | .pgeu d _ _ _ | .pand d _ _ _
  | .por d _ _ _ | .pxor d _ _ _ => some (.p d)
  | .pnot d _ _ | .pmany d _ _ => some (.p d)
  | .mset d _ _ | .mnot d _ _ => some (.m d)
  | .beq _ _ _ | .bne _ _ _ | .blt _ _ _ | .bge _ _ _ | .bltu _ _ _ | .bgeu _ _ _ => some .nothing
  | .jal _ => some (.x (.reg 23))
  | .jalr d _ _ _ => some (.x d)
  | _ => none

end Sys2Proof.Claim

/-- R82 and R28: every alu function. -/
def Obligations.AluFunctionsGiveTheValuesOfTheirTable : Prop :=
  (∀ e ∈ r82two, TwoToOne .x .x .x readX readX writeX e.1 e.2) ∧ (∀ e ∈ r82one, OneToOne .x .x readX writeX e.1 e.2)

/-- R83: every immediate form. -/
def Obligations.ImmediateFormsGiveTheValuesOfTheirTable : Prop :=
  (∀ e ∈ r83imm, ∀ imm : BitVec 13, OneToOne .x .x readX writeX (fun d a pg => e.1 d a imm pg) (fun a => e.2 a (imm.signExtend 64))) ∧
  (∀ e ∈ r83shift, ∀ sh : BitVec 6, OneToOne .x .x readX writeX (fun d a pg => e.1 d a sh pg) (fun a => e.2 a sh.toNat))

/-- R84: the U-format instructions. -/
def Obligations.UpperImmediateInstructionsPlaceTheirImmediate : Prop :=
  ∀ (s : State) (rd : XOp) (imm : BitVec 21),
    let up : DWord := sx (BitVec.ofNat 32 (imm.toNat * 2 ^ 11))
    (∀ w, writeX (work s) rd up = .ok w → exec (.lui rd imm) s = retires w s 4) ∧
    (∀ e, writeX (work s) rd up = .error e → exec (.lui rd imm) s = stops s e) ∧
    (∀ w, writeX (work s) rd ((s.hart s.cur).pc + up) = .ok w → exec (.auipc rd imm) s = retires w s 4) ∧
    (∀ e, writeX (work s) rd ((s.hart s.cur).pc + up) = .error e → exec (.auipc rd imm) s = stops s e) ∧
    Looked s (.lih rd imm) [Cls.x.src rd, Cls.x.dst rd]
    ((∀ e, readX (work s) 0 rd = .error e → exec (.lih rd imm) s = stops s e) ∧
    (∀ v w1, readX (work s) 0 rd = .ok (v, w1) → let x : DWord := imm.signExtend 32 ++ lo v
      (∀ w2, writeX w1 rd x = .ok w2 → exec (.lih rd imm) s = retires w2 s 4) ∧
      (∀ e, writeX w1 rd x = .error e → exec (.lih rd imm) s = stops s e)))

/-- R85: the predicate and mask functions. -/
def Obligations.PredicateAndMaskFunctionsGiveTheirResults : Prop :=
  (∀ e ∈ r85cmp, TwoToOne .x .x .p readX readX writeP e.1 e.2) ∧ (∀ e ∈ r85log, TwoToOne .p .p .p readP readP writeP e.1 e.2) ∧
  OneToOne .p .p readP writeP .pnot (fun a => !a) ∧ OneToOne .m .p readM writeP .pmany (fun a => decide (a ≠ 0)) ∧
  OneToOne .x .m readX writeM .mset (fun a => a.setWidth 24) ∧ OneToOne .m .x readM writeX .mget (fun a => a.setWidth 64) ∧
  OneToOne .m .m readM writeM .mnot (fun a => ~~~a)

/-- The frame of the chapter's computing instructions (R81). -/
def Obligations.ScalarInstructionsChangeOnlyTheirDestination : Prop :=
  ∀ (i : Instr) (d : Dest) (s t : State), scalarDest i = some d → exec i s = .next t → Completed s t →
    let g := s.hart s.cur; let h := t.hart s.cur
    SameBytes s t ∧ SameOthers s t ∧ SameSpecial g h ∧ h.fps = g.fps ∧ h.a = g.a ∧ h.w = g.w ∧ h.tl = g.tl ∧
    (∀ r : Fin 24, (∀ r', d = .x (.reg r') → r' ≠ r) → h.x[r] = g.x[r]) ∧
    (∀ r : Fin 8, (∀ r', d = .p (.reg r') → r' ≠ r) → h.p[r] = g.p[r]) ∧
    (∀ r : Fin 8, (∀ r', d = .m (.reg r') → r' ≠ r) → h.m[r] = g.m[r])

/-! ### Traps -/

namespace Sys2Proof.Claim
open Sys2Proof Sys2Proof.Machine

/-- The first n bytes of a string that zeros follow. -/
def cutTo (bs : List Byte) (n : Nat) : List Byte := (List.range n).map (fun i => bs.getD i 0)

/-- The 320 bytes of the entry of an unfinished instruction (R47). -/
def r47Entry (f : Flight) : List Byte :=
  leBytes 8 f.pc.toNat ++ cutTo (f.words.flatMap (leBytes 4)) 16 ++ [BitVec.ofNat 8 f.nops, BitVec.ofNat 8 f.popped] ++
    List.replicate 6 0 ++ cutTo (f.slots.flatMap (fun b => cutTo b 96)) 288

/-- The 2,048 bytes of a frame (R47), with entries of the oldest six unfinished instructions; no more than six are left
unfinished (log entry 7). -/
def r47Frame (fl : List Flight) (repc : Nat) (seq : DWord) (idx : Idx) (nest : List DWord) : List Byte :=
  let es := fl.take 6
  [BitVec.ofNat 8 es.length, BitVec.ofNat 8 repc] ++ List.replicate 6 0 ++ leBytes 8 seq.toNat ++
    leBytes 4 idx.i0 ++ leBytes 4 idx.i1 ++ leBytes 4 idx.i2 ++ leBytes 4 idx.i3 ++
    (nest.map (fun v => leBytes 8 v.toNat)).flatten ++ List.replicate (32 - 8 * nest.length) 0 ++
    es.flatMap r47Entry ++ List.replicate (1984 - 320 * es.length) 0

/-- The bytes at a place and after it, up to a number. -/
def bytesAt (s : State) (at_ : Nat → Place) (n : Nat) : List Byte := (List.range n).map (fun i => s.getByte (at_ i))

/-- STATUS as a number: TL, REP, RDH, ARM, CTX and CND at their bits (R39). -/
def r39Status (h : Hart) (ctx : Nat) (cnd : Bool) : Nat :=
  (if h.level then 1 else 0) + (if h.rep then 2 else 0) + (if h.rdh then 4 else 0) + (if h.armed then 8 else 0) +
    ctx * 2 ^ 8 + (if cnd then 2 ^ 10 else 0)

/-- The pass after one issue: a stage context's advances by floor(2^24 / W), a conductor's does not (R49). -/
def issuedPass (h : Hart) (cnd : Bool) : DWord := if cnd then h.pass else h.pass + BitVec.ofNat 64 (2 ^ 24 / h.wgt.toNat)

/-- The registers that steps 1, 2, 4 and 5 of R46 leave, the rest unchanged but the pass. -/
def trapped (h : Hart) (t : TrapInfo) (ctx : Nat) (cnd : Bool) : Hart :=
  { h with
    pass := issuedPass h cnd, early := []
    tpc := if t.cause = .swtrap then h.pc + 4 else h.pc, tstat := BitVec.ofNat 64 (r39Status h ctx cnd)
    tcause := BitVec.ofNat 64 t.cause.code, tinfo0 := t.i0, tinfo1 := t.i1, level := true, rep := false, rdh := false
    hold := none, pc := if t.cause = .undef ∧ h.evec ≠ 0 then h.evec else h.tvec, flight := [], replayed := 0 }

/-- What a trap at trap level 1 leaves of the agent: it stops. -/
def nested (h : Hart) (cnd : Bool) : Hart :=
  { h with
    run := .stopped, hold := none, arrived := none, capt := none, flight := [], early := [], pass := issuedPass h cnd }

/-- The accesses of an agent that it has accepted and not performed touch none of 2,048 bulk bytes. -/
def apart (h : Hart) (lo : Nat) : Prop := ∀ x ∈ h.pend, x.level = 0 → ∀ i, i < 2048 → Place.bulk (lo + i) ∉ x.what.places

/-- The frame area of a stage context in its cell store: ADDR in units of 2 KiB (R45). -/
def frameAt (h : Hart) : Nat := h.tframe.toNat / 2 ^ 11 % 2 ^ 8 * 2048

end Sys2Proof.Claim

/-- Taking a trap at level 0 (R46, R47); unfinished instructions are log entry 7, the pass of one that traps 16. -/
def Obligations.TrapSavesStateWritesTheFrameAndEntersTheHandler : Prop :=
  (∀ (s : State) (p : Nat) (c : Fin 4) (t : TrapInfo), (s.hart (.ctx p c)).level = false →
    let a := AgentId.ctx p c; let h := s.hart a; let s' := s.takeTrap a t
    s'.hart a = trapped h t c.val false ∧ (∀ b, b ≠ a → s'.hart b = s.hart b) ∧
    bytesAt s' (fun i => .store p (frameAt h + i)) 2048 = r47Frame h.flight h.repc.toNat t.seq t.idx [] ∧
    (∀ x : Place, (∀ i, i < 2048 → x ≠ .store p (frameAt h + i)) → s'.getByte x = s.getByte x) ∧
    (s'.cell p).ops = (s.cell p).ops ∧ (∀ k, (s'.cond k).cmds = (s.cond k).cmds)) ∧
  (∀ (s : State) (k lo : Nat) (e : Extent) (t : TrapInfo), (s.hart (.cond k)).level = false →
    let a := AgentId.cond k; let h := s.hart a
    s.extentNo a (fld h.tframe.toNat 47 40) = some e →
    s.translate (s.holder a) e (fld h.tframe.toNat 39 12 * 4096) true = (s, some (.bulk lo)) →
    let s' := s.takeTrap a t
    s'.hart a = { trapped h t 0 true with pend := (s'.hart a).pend } ∧ (∀ b, b ≠ a → s'.hart b = s.hart b) ∧
    bytesAt s' (fun i => .bulk (lo + i)) 2048 = r47Frame h.flight h.repc.toNat t.seq t.idx [] ∧
    (apart h lo → (s'.hart a).pend = h.pend ∧
      ∀ x : Place, (∀ i, i < 2048 → x ≠ .bulk (lo + i)) → s'.getByte x = s.getByte x) ∧
    (s'.cond k).cmds = (s.cond k).cmds ∧ (∀ p, (s'.cell p).ops = (s.cell p).ops))

/-- Taking a trap at level 1 (R46, R274); unfinished instructions are log entry 7, the pass of one that traps 16. -/
def Obligations.NestedTrapStopsTheContextAndTellsItsConductor : Prop :=
  (∀ (s : State) (p : Nat) (c : Fin 4) (t : TrapInfo), (s.hart (.ctx p c)).level = true →
    let a := AgentId.ctx p c; let h := s.hart a; let s' := s.takeTrap a t
    let own : DWord := if t.cause = .swtrap then h.pc + 4 else h.pc
    s'.hart a = nested h false ∧
    (s'.cell p).nestHold = (s.cell p).nestHold + 1 ∧
    bytesAt s' (fun i => .store p (frameAt h + 2048 + i)) 2048 =
      r47Frame h.flight h.repc.toNat t.seq t.idx [own, BitVec.ofNat 64 t.cause.code, t.i0, t.i1] ∧
    (∀ x : Place, (∀ i, i < 2048 → x ≠ .store p (frameAt h + 2048 + i)) → s'.getByte x = s.getByte x) ∧
    ((s.cond (p / 17)).records.length < 16 → ∃ rec, (s'.cond (p / 17)).records = (s.cond (p / 17)).records ++ [rec] ∧
      rec.cause = .nested ∧ rec.src = 7 ∧ rec.stage = true ∧ rec.ctx = c.val ∧ rec.pc = own ∧
      rec.role = s.roleOf a ∧ rec.addr = BitVec.ofNat 64 (s.roleOf a * 2 ^ 20 + frameAt h))) ∧
  (∀ (s : State) (k lo : Nat) (e : Extent) (t : TrapInfo), (s.hart (.cond k)).level = true →
    let a := AgentId.cond k; let h := s.hart a
    let own : DWord := if t.cause = .swtrap then h.pc + 4 else h.pc
    s.extentNo a (fld h.tframe.toNat 47 40) = some e →
    s.translate (s.holder a) e (fld h.tframe.toNat 39 12 * 4096 + 2048) true = (s, some (.bulk lo)) →
    let s' := s.takeTrap a t
    s'.hart a = { nested h true with pend := (s'.hart a).pend } ∧ (apart h (lo) → (s'.hart a).pend = h.pend) ∧
    bytesAt s' (fun i => .bulk (lo + i)) 2048 =
      r47Frame h.flight h.repc.toNat t.seq t.idx [own, BitVec.ofNat 64 t.cause.code, t.i0, t.i1])

/-- What a stopped instruction leaves (R34 rule 6, R161, R261). The leaf is the one the walk of the page from the root of the
agent's context reaches (R322). -/
def Obligations.StoppedInstructionChangesNothingButItsHold : Prop :=
  ∀ (s : State) (a : AgentId),
    (∀ x : Hold, let t := s.stopBy a (.hold x)
      t.hart a = { s.hart a with hold := some x } ∧ (∀ b, b ≠ a → t.hart b = s.hart b) ∧ SameBytes s t ∧
        t.regions = s.regions) ∧
    (∀ x : TrapInfo, s.stopBy a (.trap x) = s.takeTrap a x) ∧
    (∀ m : PageMiss, let t := s.stopBy a (.page m)
      (t.hart a).hold = some .page ∧ (t.hart a).x = (s.hart a).x ∧ (t.hart a).pc = (s.hart a).pc ∧
      (let walked := walkFrom s.bad s.bulk (m.sa / 2 ^ 16 * 2 ^ 16) 3 (s.xlat (s.ctxOf a)).root
      ((m.sort ≠ .bulk ∨ m.sa / 2 ^ 16 ∈ (s.xlat (s.ctxOf a)).broken ∨ ∃ e, walked = .error e) → SameBytes s t) ∧
      (∀ leaf e lvl, walked = .ok (leaf, e, lvl) → SameBytesBut s t [.bulk leaf] ∧
        (m.sort = .bulk → m.sa / 2 ^ 16 ∉ (s.xlat (s.ctxOf a)).broken →
          t.getByte (.bulk leaf) = s.getByte (.bulk leaf) ||| 8))) ∧
      (m.sort = .bulk → m.sa / 2 ^ 16 ∈ (t.xlat (s.ctxOf a)).broken ∧
        ((m.sa / 2 ^ 16 ∉ (s.xlat (s.ctxOf a)).broken) →
          ∀ p ∈ (t.xlat (s.ctxOf a)).pages, p.page = m.sa / 2 ^ 16 → p.dropped = true)) ∧
      (m.sort, m.sa / 2 ^ 16) ∈ (t.xlat (s.ctxOf a)).pending ∧
      ((m.sort, m.sa / 2 ^ 16) ∉ (s.xlat (s.ctxOf a)).pending → (s.cond a.conductor).records.length < 16 →
        ∃ rec, (t.cond a.conductor).records = (s.cond a.conductor).records ++ [rec] ∧ rec.cause = .xfault ∧
          rec.addr = m.addr ∧ rec.pc = m.pc ∧ rec.stage = !a.isCond ∧ rec.ctx = a.ctxNum ∧ rec.role = s.roleOf a) ∧
      ((m.sort, m.sa / 2 ^ 16) ∈ (s.xlat (s.ctxOf a)).pending → ∀ k, (t.cond k).records = (s.cond k).records))

/-! ### Control -/

namespace Sys2Proof.Claim
open Sys2Proof Sys2Proof.Machine

/-- A branch or jump to a pc: nothing of the agent changes but the pc, the hold, which ends, and the pass. -/
def jumps (w : Work) (s : State) (pc : DWord) : Host.Outcome State Fault Refusal := .next (w.s.modHart s.cur (fun h =>
  { h with pc := pc, hold := none, pass := if s.cur.isCond then h.pass else h.pass + BitVec.ofNat 64 (2 ^ 24 / h.wgt.toNat) }))

/-- The compare-branches with their conditions (R88). -/
def r88 : List ((XOp → XOp → BitVec 16 → Instr) × (DWord → DWord → Bool)) := [
  (.beq, fun a b => a == b), (.bne, fun a b => a != b), (.blt, fun a b => a.slt b), (.bge, fun a b => !a.slt b),
  (.bltu, fun a b => a.ult b), (.bgeu, fun a b => !a.ult b)]

/-- What a header must hold for `rett` (R48 step 1, R40); `n` is the count of the rep word at TPC, if one stands there. -/
def r48Legal (tstat : DWord) (hdr : List Byte) (n : Option Nat) : Prop :=
  tstat.toNat < 2 ^ 11 ∧ tstat.toNat / 2 ^ 4 % 2 ^ 4 = 0 ∧ tstat.toNat % 2 = 0 ∧ (hdr.getD 0 0).toNat ≤ 6 ∧
  (∀ i, 2 ≤ i → i < 8 → hdr.getD i 0 = 0) ∧ (∀ i, 32 ≤ i → i < 64 → hdr.getD i 0 = 0) ∧
  (∀ c, n = some c → tstat.toNat / 2 % 2 = 1 → 1 ≤ (hdr.getD 1 0).toNat ∧ (hdr.getD 1 0).toNat ≤ c)

/-- The count of the rep word that a stage context would fetch at an address. -/
def repAt (s : State) (a : AgentId) (pc : DWord) : Option Nat :=
  match s.fetchWord a pc with
  | .ok (_, w) => if fld w 31 26 = 0x1A then some (fld w 25 20 + 1) else none
  | .error _ => none

end Sys2Proof.Claim

/-- Branches and jumps (R88, R89). -/
def Obligations.BranchesAndJumpsPlaceThePc : Prop :=
  (∀ e ∈ r88, ∀ (s : State) (ra rb : XOp) (off : BitVec 16), let pc := (s.hart s.cur).pc
    Looked s (e.1 ra rb off) [Cls.x.src ra, Cls.x.src rb]
    ((∀ x, readX (work s) 0 ra = .error x → exec (e.1 ra rb off) s = stops s x) ∧
    ∀ a w1, readX (work s) 0 ra = .ok (a, w1) →
      (∀ x, readX w1 1 rb = .error x → exec (e.1 ra rb off) s = stops s x) ∧
      ∀ b w2, readX w1 1 rb = .ok (b, w2) →
        exec (e.1 ra rb off) s = jumps w2 s (if e.2 a b then pc + 4 * off.signExtend 64 else pc + 4))) ∧
  (∀ (s : State) (off : BitVec 26), let pc := (s.hart s.cur).pc
    ∃ w, writeX (work s) (.reg 23) (pc + 4) = .ok w ∧ exec (.jal off) s = jumps w s (pc + 4 * off.signExtend 64)) ∧
  (∀ (s : State) (rd ra : XOp) (imm : BitVec 13) (pg : Pg), On s pg → let pc := (s.hart s.cur).pc
    Looked s (.jalr rd ra imm pg) [Cls.x.src ra, Cls.x.dst rd]
    ((∀ x, readX (work s) 0 ra = .error x → exec (.jalr rd ra imm pg) s = stops s x) ∧
    ∀ a w1, readX (work s) 0 ra = .ok (a, w1) →
      (∀ x, writeX w1 rd (pc + 4) = .error x → exec (.jalr rd ra imm pg) s = stops s x) ∧
      (∀ w2, writeX w1 rd (pc + 4) = .ok w2 → exec (.jalr rd ra imm pg) s = jumps w2 s (a + imm.signExtend 64))))

/-- R94. -/
def Obligations.NopOnlyAdvances : Prop := ∀ (s : State) (pg : Pg), exec (.nop pg) s = .next (s.retireBy s.cur 4)

/-- R95. -/
def Obligations.TrapInstructionRaisesSwtrapAndCommitsItsPop : Prop :=
  ∀ (s : State) (ra : XOp) (pg : Pg) (v : DWord) (w : Work), On s pg → readX (work s) 0 ra = .ok (v, w) →
    ∃ t, exec (.trap ra pg) s = .next t ∧ t = w.s.takeTrap s.cur (trapOf .swtrap v 0) ∧
      (t.hart s.cur).ports = (w.s.hart s.cur).ports ∧
      ((s.hart s.cur).level = false → (t.hart s.cur).tcause = 0x13 ∧ (t.hart s.cur).tinfo0 = v ∧ (t.hart s.cur).tinfo1 = 0 ∧
        (t.hart s.cur).tpc = (s.hart s.cur).pc + 4 ∧ (t.hart s.cur).level = true ∧ (t.hart s.cur).pc = (s.hart s.cur).tvec) ∧
      ((s.hart s.cur).level = true → (t.hart s.cur).run = .stopped ∧ (t.hart s.cur).tpc = (s.hart s.cur).tpc ∧
        (t.hart s.cur).tcause = (s.hart s.cur).tcause ∧ (t.hart s.cur).tinfo0 = (s.hart s.cur).tinfo0)

/-- R40, R48 and R96: the return from a trap. -/
def Obligations.RettRestoresWhatTheTrapSaved : Prop :=
  ∀ (s : State) (pg : Pg), On s pg → (s.hart s.cur).capt = none → (s.hart s.cur).run = .running →
    let a := s.cur; let h := s.hart a; let hdr := s.frameBytes a 64
    let restored (g : Hart) : Prop := g.level = false ∧ g.rep = bitOf h.tstat.toNat 1 ∧ g.rdh = bitOf h.tstat.toNat 2 ∧
      g.repc.toNat = (hdr.getD 1 0).toNat % 2 ^ 7 ∧ g.pc = h.tpc ∧ g.tpc = h.tpc ∧ g.tstat = h.tstat ∧ g.tcause = h.tcause
    ((h.level = false ∨ ¬ r48Legal h.tstat hdr (repAt s a h.tpc)) →
      exec (.rett pg) s = .next (s.takeTrap a (trapOf .badrett (BitVec.ofNat 64 (0x6C000010 + pg.val)) 0))) ∧
    (h.level = true → r48Legal h.tstat hdr (repAt s a h.tpc) →
      ((hdr.getD 0 0).toNat = 0 → ∃ t, exec (.rett pg) s = .next t ∧ restored (t.hart a) ∧ SameBytes s t ∧
        (t.hart a).x = h.x ∧ (t.hart a).p = h.p ∧ (t.hart a).a = h.a ∧ (t.hart a).w = h.w ∧ (t.hart a).m = h.m ∧
        (t.hart a).tl = h.tl ∧ (t.hart a).fps = h.fps ∧ (t.hart a).ports = h.ports) ∧
      (∀ (d : Fin 24) (x y : XOp) (g : Pg), d ≠ 0 → (hdr.getD 0 0).toNat = 1 → h.replayed = 0 →
        (∀ r : Fin 24, (x = .reg r ∨ y = .reg r) → r.val ∉ h.badRegs) →
        let fr := s.frameBytes a 2048; let slot (n : Nat) := leNat ((fr.drop (0x60 + 96 * n)).take 8)
        [leNat ((fr.drop 0x48).take 4)] = encode (.add (.reg d) x y g) →
        decode (kindOf a) true (leNat ((fr.drop 0x48).take 4)) (leNat ((fr.drop 0x4C).take 4)) (leNat ((fr.drop 0x50).take 4))
          (leNat ((fr.drop 0x54).take 4)) = .ok (.add (.reg d) x y g) →
        ∃ t, exec (.rett pg) s = .next t ∧ restored (t.hart a) ∧
          (t.hart a).x = h.x.set d (BitVec.ofNat 64 (slot 0 + slot 1)) ∧ (t.hart a).ports = h.ports))

/-- R97, R98, R100, R102. -/
def Obligations.EndsFenceWfaAndHaltActAsTheirRules : Prop :=
  (∀ (s : State) (p q n r : Nat) (c : Fin 4) (cl : Clause) (pg : Pg), On s pg → s.cur = .ctx p c →
    (s.cell p).bound = some (q, n, r) → s.clauseAt q n = some cl → let h := s.hart s.cur
    (h.level = false → ∃ t, exec (.ends pg) s = .next t ∧
      (t.hart s.cur).run = (if h.begun < cl.iters then .waiting else .finished) ∧
      (t.hart s.cur).x = h.x ∧ (t.hart s.cur).p = h.p ∧ (t.hart s.cur).a = h.a ∧ (t.hart s.cur).w = h.w ∧
      (t.hart s.cur).ports = h.ports ∧ (t.hart s.cur).pend = h.pend ∧ SameBytes s t ∧ SameOthers s t) ∧
    (h.level = true → exec (.ends pg) s = stops s (.trap (trapOf .priv (BitVec.ofNat 64 (0x6C000018 + pg.val)) 0)))) ∧
  (∀ (s : State) (sc : Scope) (pg : Pg), On s pg →
    let lvl := if s.cur.isCond ∧ sc = .cell then 0 else sc.code
    (s.released s.cur lvl = true → exec (.fence sc pg) s = .next (s.retireBy s.cur 4)) ∧
    (s.released s.cur lvl = false → exec (.fence sc pg) s = stops s (.hold .fence))) ∧
  (∀ (s : State) (p : Nat) (c : Fin 4) (pg : Pg) (l : Fin 16), On s pg → s.cur = .ctx p c → l.val = (s.hart s.cur).line % 16 →
    ((s.hart s.cur).armed = true → 0 < (s.cell p).arrivals[l].toNat → ∃ t, exec (.wfa pg) s = .next (t.retireBy s.cur 4) ∧
      (t.cell p).arrivals = (s.cell p).arrivals.set l ((s.cell p).arrivals[l] - 1) ∧ SameBytes s t ∧ ∀ b, t.hart b = s.hart b) ∧
    ((s.hart s.cur).armed = true → (s.cell p).arrivals[l] = 0 → exec (.wfa pg) s = stops s (.hold .wfa)) ∧
    ((s.hart s.cur).armed = false →
      exec (.wfa pg) s = stops s (.trap (trapOf .undef (BitVec.ofNat 64 (0x6C000030 + pg.val)) 0)))) ∧
  (∀ (s : State) (k : Nat) (pg : Pg), On s pg → s.cur = .cond k →
    let torn : Prop := (s.hart s.cur).clause = 0 ∨
      ∀ q r, (s.cond k).region = some q → s.region q = some r → (s.hart s.cur).clause.toNat - 1 ∈ r.completed
    ((s.cond k).cmds = [] → torn → ∃ t, exec (.halt pg) s = .next t ∧ t.hart s.cur = { s.hart s.cur with run := .halted, hold := none } ∧
      SameBytes s t ∧ SameOthers s t) ∧
    ((s.cond k).cmds ≠ [] ∨ ¬ torn → exec (.halt pg) s = stops s (.hold .halt)))

/-- R101. P is described by what makes it the largest: it is some other running context's pass, and no other's is above. -/
def Obligations.YieldRaisesThePassAboveTheOthers : Prop :=
  (∀ (s : State) (k : Nat) (pg : Pg), On s pg → s.cur = .cond k → exec (.yield pg) s = exec (.nop pg) s) ∧
  (∀ (s : State) (p : Nat) (c : Fin 4) (pg : Pg), On s pg → s.cur = .ctx p c →
    let t0 := s.retireBy s.cur 4; let others := (List.finRange 4).filter (fun d => d ≠ c ∧ (t0.hart (.ctx p d)).run = .running)
    (others = [] → exec (.yield pg) s = .next t0) ∧
    (∀ d ∈ others, let P := (t0.hart (.ctx p d)).pass
      (∀ d' ∈ others, ¬ 0 < ((t0.hart (.ctx p d')).pass - P).toInt) →
      (∀ d₁ ∈ others, ∀ d₂ ∈ others, ∀ d₃ ∈ others,
        0 ≤ ((t0.hart (.ctx p d₂)).pass - (t0.hart (.ctx p d₁)).pass).toInt →
        0 ≤ ((t0.hart (.ctx p d₃)).pass - (t0.hart (.ctx p d₂)).pass).toInt →
        0 ≤ ((t0.hart (.ctx p d₃)).pass - (t0.hart (.ctx p d₁)).pass).toInt) →
      ∃ t, exec (.yield pg) s = .next t ∧ (∀ b, b ≠ s.cur → t.hart b = s.hart b) ∧ SameBytes s t ∧
        t.hart s.cur = { t0.hart s.cur with pass :=
          if ((t0.hart s.cur).pass - (P + 1)).toInt < 0 then P + 1 else (t0.hart s.cur).pass }))

namespace Sys2Proof.Claim
open Sys2Proof Sys2Proof.Machine

/-- Another participant has reached a stage's barrier n, or ended, or gone on to a later iteration (R99). -/
def reached (g h : Hart) : Prop :=
  h.run = .stopped ∨ h.run = .finished ∨ g.begun < h.begun ∨
    h.begun = g.begun ∧ (h.run = .waiting ∨ g.barCount < h.barCount ∨ h.arrived = some g.barCount)

/-- A context of a clause in flight. -/
def inClauseOf (s : State) (p q m : Nat) (cl : Clause) : Prop :=
  (∃ r, (s.cell p).bound = some (q, m, r)) ∧ s.clauseAt q m = some cl ∧ ∀ ro ∈ cl.roles, ro.stages.length ≤ 4

/-- Every other present stage of a context's clause, but those of released roles, which have finished, has loaded and has
reached the context's barrier. -/
def allReached (s : State) (p : Nat) (c : Fin 4) (cl : Clause) : Prop :=
  ∀ i ro, cl.roles[i]? = some ro → ∀ d : Fin 4, (ro.stage d.val).present = true → cl.released.contains i = false →
    cl.loaded.contains i = true ∧
      (AgentId.ctx (cl.cells.getD i 0) d = .ctx p c ∨ reached (s.hart (.ctx p c)) (s.hart (.ctx (cl.cells.getD i 0) d)))

/-- Every other conductor of a region has halted, or passed a conductor's barrier, or waits there. -/
def condsReached (s : State) (k : Nat) (r : Region) : Prop :=
  ∀ j ∈ r.clusters, j = k ∨ (let h := s.hart (.cond j); let n := (s.hart (.cond k)).barCount
    h.run = .halted ∨ n < h.barCount ∨ h.arrived = some n)

/-- The agents a BARRIER_COMPLETE names: a region's conductors, or the contexts of a clause's loaded roles. -/
def atBarrierOf (s : State) (q : Nat) (a : AgentId) : Option Nat → Prop
  | none => ∃ r, s.region q = some r ∧ ∃ k ∈ r.clusters, a = .cond k
  | some m => ∃ cl, s.clauseAt q m = some cl ∧
      ∃ i ∈ cl.loaded, cl.released.contains i = false ∧ ∃ c, a = .ctx (cl.cells.getD i 0) c

end Sys2Proof.Claim

/-- R99: the barrier at issue and its completion. That the agent's pass is raised to those that were ready before it counts the
bar is log entry 16; that a phase in which the region does not move passes nobody is 12. -/
def Obligations.BarrierWaitsForEveryParticipant : Prop :=
  (∀ (s : State) (pg : Pg), On s pg → let h := s.hart s.cur
    let passes : Prop := ∃ t, exec (.bar pg) s = .next t ∧
      t.hart s.cur = { h.retired s.cur 4 with barCount := h.barCount + 1, arrived := none } ∧ SameBytes s t ∧ SameOthers s t
    let waits : Prop := ∃ t, exec (.bar pg) s = .next t ∧
      t.hart s.cur = { h with arrived := some h.barCount, hold := some .bar } ∧ SameBytes s t ∧ SameOthers s t
    (s.released s.cur 2 = false → exec (.bar pg) s = stops s (.hold .bar)) ∧
    (s.released s.cur 2 = true →
      (∀ (p q m : Nat) (c : Fin 4) (cl : Clause), s.cur = .ctx p c → inClauseOf s p q m cl →
        (allReached s p c cl → passes) ∧ (¬ allReached s p c cl → waits)) ∧
      (∀ (k q : Nat) (r : Region), s.cur = .cond k → (s.cond k).region = some q → s.region q = some r →
        (condsReached s k r → passes) ∧ (¬ condsReached s k r → waits)))) ∧
  (∀ (s : State) (p q m : Nat) (c : Fin 4) (cl : Clause), inClauseOf s p q m cl →
    (s.barDone (.ctx p c) (s.hart (.ctx p c)).barCount = true ↔ allReached s p c cl)) ∧
  (∀ (s : State) (k q : Nat) (r : Region), (s.cond k).region = some q → s.region q = some r →
    (s.barDone (.cond k) (s.hart (.cond k)).barCount = true ↔ condsReached s k r)) ∧
  (∀ (s : State) (q : Nat) (n : Option Nat) (a : AgentId), a ∈ s.barReady q n ↔ atBarrierOf s q a n ∧
    (s.hart a).replayed = 0 ∧ ∃ k, (s.hart a).arrived = some k ∧ s.barDone a k = true) ∧
  (∀ (s : State) (q : Nat) (n : Option Nat) (r : Region), s.region q = some r →
    (r.phase.moves = false → exec (.barrierComplete q n) s = .next s) ∧
    (r.phase.moves = true → ∃ t, exec (.barrierComplete q n) s = .next t ∧ SameBytes s t ∧
      (∀ a, a ∈ s.barReady q n → (s.barReady q n).Nodup → (t.hart a).barCount = (s.hart a).barCount + 1 ∧
        (t.hart a).arrived = none ∧ (t.hart a).hold = none ∧ (t.hart a).pc = ((s.hart a).retired a 4).pc ∧
        (t.hart a).x = (s.hart a).x) ∧
      (∀ a, a ∉ s.barReady q n → t.hart a = s.hart a)))

/-- R60 and R91: the repeat unit. -/
def Obligations.RepeatUnitRunsItsSteppedInstruction : Prop :=
  (∀ (s s1 : State) (cnt : BitVec 6) (sd sa sb sc : BitVec 2) (w0 w1 : Nat), encode (.rep cnt sd sa sb sc) = [w0] →
    s.fetchWord s.cur ((s.hart s.cur).pc + 4) = .ok (s1, w1) →
    (repLegal (kindOf s.cur) w0 w1 = true → exec (.rep cnt sd sa sb sc) s =
      .next (s1.modHart s.cur (fun h => { h with rep := true, repc := BitVec.ofNat 7 (cnt.toNat + 1), hold := none }))) ∧
    (repLegal (kindOf s.cur) w0 w1 = false → exec (.rep cnt sd sa sb sc) s =
      stops s (.trap (trapOf .undef (BitVec.ofNat 64 w0) (BitVec.ofNat 64 w1))))) ∧
  (∀ (s s1 s2 : State) (w0 w1 : Nat) (i : Instr), s.fetchWord s.cur (s.hart s.cur).pc = .ok (s1, w0) →
    s1.fetchWord s.cur ((s.hart s.cur).pc + 4) = .ok (s2, w1) → repLegal (kindOf s.cur) w0 w1 = true → w1 < 2 ^ 32 →
    decode (kindOf s.cur) true (repWord w0 w1 (fld w0 25 20 + 1 - (s.hart s.cur).repc.toNat)) 0 0 0 = .ok i →
    exec .rept s = exec i s2) ∧
  (∀ (s : State) (p : Nat) (c : Fin 4) (w0 w1 : Nat) (d x y : Fin 24), s.cur = .ctx p c → let h := s.hart s.cur
    s.fetchWord s.cur h.pc = .ok (s, w0) → s.fetchWord s.cur (h.pc + 4) = .ok (s, w1) →
    repLegal .cell w0 w1 = true → w1 < 2 ^ 32 → h.rep = true → h.capt = none → d ≠ 0 → x.val ∉ h.badRegs → y.val ∉ h.badRegs →
    decode .cell true (repWord w0 w1 (fld w0 25 20 + 1 - h.repc.toNat)) 0 0 0 = .ok (.add (.reg d) (.reg x) (.reg y) 0) →
    ∃ t, exec .rept s = .next t ∧ SameBytes s t ∧ SameOthers s t ∧ let g := t.hart s.cur
      g.x = h.x.set d ((if x = 0 then 0 else h.x[x]) + (if y = 0 then 0 else h.x[y])) ∧ g.ports = h.ports ∧ g.p = h.p ∧ g.a = h.a ∧
      (1 < h.repc.toNat → g.pc = h.pc ∧ g.rep = true ∧ g.repc.toNat = h.repc.toNat - 1) ∧
      (h.repc.toNat ≤ 1 → g.pc = h.pc + 8 ∧ g.rep = false ∧ g.repc = 0)) ∧
  (∀ (w0 w1 n : Nat), w1 < 2 ^ 32 →
    let step (i : Nat) : Int := match fld w0 (19 - 2 * i) (18 - 2 * i) with | 0 => 0 | 1 => 1 | 2 => 2 | _ => -1
    let new (i : Nat) : Int := (fld w1 (25 - 5 * i) (21 - 5 * i) : Int) + n * step i
    (∀ i, i < 4 → 0 ≤ new i ∧ new i < 32) →
    (∀ i, i < 4 → (fld (repWord w0 w1 n) (25 - 5 * i) (21 - 5 * i) : Int) = new i) ∧
    fld (repWord w0 w1 n) 31 26 = fld w1 31 26 ∧ fld (repWord w0 w1 n) 5 0 = fld w1 5 0)
/-! ### Control and status registers -/

namespace Sys2Proof.Claim
open Sys2Proof Sys2Proof.Machine

/-- The CSR instructions, whether their zero ra field writes nothing, and the value they write (R86). -/
def r86 : List ((XOp → XOp → BitVec 12 → Pg → Instr) × Bool × (DWord → DWord → DWord)) := [
  (.csrrw, false, fun _ v => v), (.csrrs, true, fun old v => old ||| v), (.csrrc, true, fun old v => old &&& ~~~v)]

/-- Numbers of the CSR map that a stage context and a conductor may read (R37). -/
def r37Ctx : List Nat :=
  [0x000, 0x001, 0x002, 0x003, 0x004, 0x005, 0x006, 0x007, 0x010, 0x011, 0x012, 0x013, 0x014, 0x015, 0x016, 0x017,
   0x020, 0x021, 0x040, 0x041, 0x042, 0x043, 0x044, 0x045, 0x046, 0x047, 0x048, 0x049, 0x04A, 0x04B, 0x04C, 0x04D,
   0x04E, 0x04F, 0x060, 0x061, 0x080]
def r37Cond : List Nat :=
  [0x000, 0x002, 0x003, 0x004, 0x005, 0x006, 0x007, 0x010, 0x011, 0x012, 0x013, 0x014, 0x015, 0x016, 0x017, 0x018, 0x080]

/-- UNDEF or PRIV of a CSR instruction: TINFO0 its word, TINFO1 the number (R86). -/
def csrTrap (c : Cause) (i : Instr) (n : BitVec 12) : Stop :=
  .trap (trapOf c (BitVec.ofNat 64 (wordOf i 0)) (n.setWidth 64))

end Sys2Proof.Claim

/-- R86: the CSR instructions. -/
def Obligations.CsrInstructionsReadTheOldValueAndWriteTheNew : Prop :=
  ∀ e ∈ r86, ∀ (s : State) (rd ra : XOp) (n : BitVec 12) (pg : Pg), On s pg →
    let i := e.1 rd ra n pg; let a := s.cur; let old := csrRead s a n.toNat
    (n.toNat ∉ (if a.isCond then r37Cond else r37Ctx) → exec i s = stops s (csrTrap .undef i n)) ∧
    ∀ acc, csrAccess a.isCond n.toNat = some acc →
      (∀ x, readX (work s) 0 ra = .error x → exec i s = stops s x) ∧
      ∀ v w, readX (work s) 0 ra = .ok (v, w) → let new := e.2.2 old v
        (e.2.1 = true ∧ ra = .reg 0 →
          (∀ w2, writeX w rd old = .ok w2 → exec i s = retires w2 s 4) ∧
          (∀ x, writeX w rd old = .error x → exec i s = stops s x)) ∧
        (¬ (e.2.1 = true ∧ ra = .reg 0) →
          (acc = .ro → exec i s = stops s (csrTrap .undef i n)) ∧
          (acc = .t → (s.hart a).level = false → exec i s = stops s (csrTrap .priv i n)) ∧
          (acc ≠ .ro → ¬ (acc = .t ∧ (s.hart a).level = false) →
            (csrLegal s a n.toNat new = false → exec i s = stops s (csrTrap .undef i n)) ∧
            (csrLegal s a n.toNat new = true → let w1 : Work := { w with s := csrWrite w.s a n.toNat new }
              (∀ w2, writeX w1 rd old = .ok w2 → exec i s = retires w2 s 4) ∧
              (∀ x, writeX w1 rd old = .error x → exec i s = stops s x))))

/-- R37 to R45: the registers behind the CSR numbers. -/
def Obligations.CsrsReadAndWriteTheirFields : Prop :=
  (∀ (s : State) (a : AgentId), let h := s.hart a; let rd := csrRead s a
    rd 0x000 = BitVec.ofNat 64 (r39Status h a.ctxNum a.isCond) ∧ rd 0x001 = h.fps.setWidth 64 ∧
    rd 0x002 = h.repc.setWidth 64 ∧ rd 0x003 = BitVec.ofNat 64 (h.roleIdx.toNat + h.roleNum.toNat * 2 ^ 16) ∧
    rd 0x004 = (if a.isCond then 0 else h.iter.setWidth 64) ∧ rd 0x005 = h.clause.setWidth 64 ∧
    rd 0x006 = BitVec.ofNat 64 s.cycle ∧ rd 0x007 = h.dmode.setWidth 64 ∧ rd 0x010 = h.tvec ∧ rd 0x011 = h.evec ∧
    rd 0x012 = h.tcause ∧ rd 0x013 = h.tinfo0 ∧ rd 0x014 = h.tinfo1 ∧ rd 0x015 = h.tpc ∧ rd 0x016 = h.tstat ∧
    rd 0x017 = h.tframe ∧ rd 0x018 = h.fvec ∧ rd 0x020 = h.wgt.setWidth 64 ∧ rd 0x021 = h.pass ∧
    (∀ q : Fin 8, rd (0x040 + q.val) = h.ports[q].qocc ∧ rd (0x048 + q.val) = BitVec.ofNat 64 h.ports[q].next.1) ∧
    (∀ p c, a = .ctx p c → let x := s.cell p
      let inClass (k : Fin 4) : Nat := x.ops.countP (fun o => o.cls = k)
      let busy (t : Fin 4) : Nat := if ∃ o ∈ x.ops, o.tile = t then 1 else 0
      rd 0x060 = x.mbud.setWidth 64 ∧ rd 0x061 = BitVec.ofNat 64 (min x.stalls 65535 + inClass 0 * 2 ^ 16 + inClass 1 * 2 ^ 19 +
        inClass 2 * 2 ^ 22 + inClass 3 * 2 ^ 25 + busy 0 * 2 ^ 28 + busy 1 * 2 ^ 29 + busy 2 * 2 ^ 30 + busy 3 * 2 ^ 31 +
        x.nextTag.toNat * 2 ^ 32 + x.budget * 2 ^ 48)) ∧
    (let next := if s.cycle % s.per = 0 ∧ ∀ w ∈ s.windows, w.2 ≠ s.cycle then s.cycle / s.per else s.cycle / s.per + 1
     rd 0x080 = BitVec.ofNat 64 (s.per + 200 * 2 ^ 16 + next % 16 * 2 ^ 24 + a.die * 2 ^ 30 + next * s.per % 2 ^ 32 * 2 ^ 32))) ∧
  (∀ (s : State) (a : AgentId) (n : Nat) (acc : CsrAccess) (v : DWord), csrAccess a.isCond n = some acc → acc ≠ .ro →
    csrLegal s a n v = true → let t := csrWrite s a n v; let g := s.hart a; let h := t.hart a
    (n ≠ 0x020 → csrRead t a n = v) ∧
    (n = 0x020 → g.wmin.toNat ≤ g.wmax.toNat → (csrRead t a n).toNat = max g.wmin.toNat (min v.toNat g.wmax.toNat)) ∧
    (∀ m, m ∈ (if a.isCond then r37Cond else r37Ctx) → m ≠ n → csrRead t a m = csrRead s a m) ∧
    SameBytes s t ∧ (∀ b, b ≠ a → t.hart b = s.hart b) ∧ h.x = g.x ∧ h.p = g.p ∧ h.a = g.a ∧ h.w = g.w ∧ h.m = g.m ∧
    h.tl = g.tl ∧ h.ports = g.ports ∧ h.pc = g.pc) ∧
  (∀ (s : State) (a : AgentId) (v : DWord), let legal (n : Nat) := csrLegal s a n v = true; let n := v.toNat
    (legal 0x001 ↔ n < 32) ∧ (∀ m ∈ [0x010, 0x011, 0x018], legal m ↔ n < 2 ^ 48 ∧ n % 4 = 0) ∧ (legal 0x012 ↔ n < 256) ∧
    (∀ m ∈ [0x013, 0x014, 0x015], legal m) ∧ (legal 0x016 ↔ n < 2 ^ 11 ∧ n / 2 ^ 4 % 2 ^ 4 = 0) ∧
    (a.isCond = false → (legal 0x017 ↔ n < 2 ^ 19 ∧ n % 2 ^ 12 = 0)) ∧
    (a.isCond = true → (legal 0x017 ↔ n < 2 ^ 48 ∧ n % 2 ^ 12 = 0 ∧ ∃ q r e, s.regionOf a = some q ∧ s.region q = some r ∧
      s.extentNo a r.lext = some e ∧ n / 2 ^ 40 = r.lext ∧ n % 2 ^ 40 + 4096 ≤ e.len)) ∧
    (legal 0x020 ↔ n < 2 ^ 16) ∧ (legal 0x060 ↔ n < 2 ^ 16))

/-! ### Loads and stores -/

namespace Sys2Proof.Claim
open Sys2Proof Sys2Proof.Machine

/-- A load: it reads its address register, takes the bytes that stand at X(ra) + scale · sext(off10) and writes f of
them to rd; whatever cannot be taken stops it. Of a destination port the class comes first, then the address of the load,
then the address that the port would write (R194). -/
def Loads {β : Type} {l : Nat} (cls : Cls) (fld : Opnd l → Field) (wr : Work → Opnd l → β → Res Work)
    (mk : Opnd l → XOp → BitVec 10 → Pg → Instr) (size scale : Nat) (f : List Byte → β) : Prop :=
  ∀ (s : State) (rd : Opnd l) (ra : XOp) (off : BitVec 10) (pg : Pg), On s pg → let i := mk rd ra off pg
    Looked s i [Cls.x.src ra, fld rd]
    ((∀ e, readX (work s) 0 ra = .error e → exec i s = stops s e) ∧
    ∀ b w1, readX (work s) 0 ra = .ok (b, w1) → let v := b + BitVec.ofNat 64 scale * off.signExtend 64
      (∀ e, dstOk w1 cls rd = .error e → exec i s = stops s e) ∧
      (∀ e, dstOk w1 cls rd = .ok () → rd.isPort = true → checkAddr w1.s s.cur v size scale false false = .error e →
        exec i s = stops s e) ∧
      (dstOk w1 cls rd = .ok () → (rd.isPort = true → ∃ site, checkAddr w1.s s.cur v size scale false false = .ok site) →
        (∀ e, dstAddr w1 cls rd = .error e → exec i s = stops s e) ∧
        (dstAddr w1 cls rd = .ok () →
        (∀ e, loadBytes w1.s s.cur v size scale = .error e → exec i s = stops s e) ∧
        ∀ bs s2, loadBytes w1.s s.cur v size scale = .ok (bs, s2) →
          (∀ e, wr { w1 with s := s2 } rd (f bs) = .error e → exec i s = stops s e) ∧
          ∀ w3, wr { w1 with s := s2 } rd (f bs) = .ok w3 → exec i s = retires w3 s 4)))

/-- A store: it reads its address register and then its source, and stores f of it at X(ra) + scale · sext(off10). The
checks of the address come before a source port's token that could not be fetched (R194). -/
def Stores {β : Type} {l : Nat} (cls : Cls) (size : Nat) (rdS : Work → Nat → Opnd l → Res (β × Work))
    (mk : Opnd l → XOp → BitVec 10 → Pg → Instr) (scale : Nat) (f : β → List Byte) (fe : Option Bool)
    (after : β → State → AgentId → State) : Prop :=
  ∀ (s : State) (rd : Opnd l) (ra : XOp) (off : BitVec 10) (pg : Pg), On s pg → let i := mk rd ra off pg
    Looked s i [Cls.x.src ra, cls.src rd]
    ((∀ e, readX (work s) 0 ra = .error e → exec i s = stops s e) ∧
    ∀ b w1, readX (work s) 0 ra = .ok (b, w1) → let v := b + BitVec.ofNat 64 scale * off.signExtend 64
      (∀ e, w1.lateSource cls rd = true → checkAddr w1.s s.cur v size scale true fe.isSome = .error e → exec i s = stops s e) ∧
      ((w1.lateSource cls rd = true → ∃ site, checkAddr w1.s s.cur v size scale true fe.isSome = .ok site) →
      (∀ e, rdS w1 1 rd = .error e → exec i s = stops s e) ∧
      ∀ x w2, rdS w1 1 rd = .ok (x, w2) →
        (∀ e, storeBytes w2.s s.cur v (f x) scale fe true = .error e → exec i s = stops s e) ∧
        ∀ s3, storeBytes w2.s s.cur v (f x) scale fe true = .ok s3 → exec i s = .next ((after x s3 s.cur).retireBy s.cur 4)))

/-- Little-endian bytes as a number. -/
def num (bs : List Byte) : Nat := bs.foldr (fun b n => b.toNat + 256 * n) 0

/-- Lane l of bytes in words of n bytes. -/
def laneNum (n : Nat) (bs : List Byte) (l : Nat) : Nat := num ((bs.drop (n * l)).take n)

/-- BF16 widened exactly, a subnormal to signed zero (R26). -/
def widen (h : Nat) : Word := if h / 2 ^ 7 % 2 ^ 8 = 0 then BitVec.ofNat 32 (h / 2 ^ 15 * 2 ^ 31) else BitVec.ofNat 32 (h * 2 ^ 16)

/-- ld, by mode (R160). -/
def r160ld : List ((XOp → XOp → BitVec 10 → Pg → Instr) × Nat × (List Byte → DWord)) := [
  (.ldB, 1, fun b => (BitVec.ofNat 8 (num b)).signExtend 64), (.ldBu, 1, fun b => BitVec.ofNat 64 (num b)),
  (.ldH, 2, fun b => (BitVec.ofNat 16 (num b)).signExtend 64), (.ldHu, 2, fun b => BitVec.ofNat 64 (num b)),
  (.ldW, 4, fun b => (BitVec.ofNat 32 (num b)).signExtend 64), (.ldWu, 4, fun b => BitVec.ofNat 64 (num b)),
  (.ldD, 8, fun b => BitVec.ofNat 64 (num b))]

/-- The n low bytes of a number, lowest first. -/
def bytesOf (n v : Nat) : List Byte := (List.range n).map (fun i => BitVec.ofNat 8 (v / 2 ^ (8 * i)))

/-- The bytes of 24 lanes of n bytes each. -/
def laneBytes (n : Nat) (f : Fin 24 → Nat) : List Byte := (List.finRange 24).flatMap (fun l => bytesOf n (f l))

/-- The events mk (n - 1), …, mk 0 in this order. -/
def inTurn (mk : Nat → Instr) : Nat → State → Out
  | 0, t => .next t
  | n + 1, t => match exec (mk n) t with
    | .next u => inTurn mk n u
    | o => o

/-- What an access waits for that its own agent or cell still owes, and what holds its cell's lines: none of it. -/
def Settled (s : State) (a : AgentId) : Prop :=
  (∀ q : Fin 8, (s.hart a).ports[q].out = []) ∧ (s.hart a).flight = [] ∧ (s.hart a).early = [] ∧ (s.hart a).capt = none ∧ waitHeld s a = false ∧
  (∀ p c, a = .ctx p c → (s.cell p).msts = [] ∧ (s.cell p).ops = [] ∧ ∀ o n, s.copyHeld p o n = false)

end Sys2Proof.Claim

/-- R160: the loads. -/
def Obligations.LoadsWriteTheBytesOfTheirAddress : Prop :=
  (∀ e ∈ r160ld, Loads .x Cls.x.dst writeX e.1 e.2.1 e.2.1 e.2.2) ∧
  Loads .a (fun rd => (Cls.a.dst rd).of false) writeA .ldaA4 10 2 (fun b => ⟨BitVec.ofNat 160 (num b), false⟩) ∧
  Loads .a (fun rd => (Cls.a.dst rd).of true) writeA .ldaA32 20 2 (fun b => ⟨BitVec.ofNat 160 (num b), true⟩) ∧
  Loads .w Cls.w.dst writeW .ldwFp32 96 4 (fun b => Vector.ofFn (fun l => BitVec.ofNat 32 (laneNum 4 b l.val))) ∧
  Loads .w Cls.w.dst writeW .ldwBf16 48 4 (fun b => Vector.ofFn (fun l => widen (laneNum 2 b l.val)))

/-- R160, R162, R163: the stores. -/
def Obligations.StoresWriteTheirSourceToTheirAddress : Prop :=
  (∀ e ∈ [(Instr.stB, 1), (.stH, 2), (.stW, 4), (.stD, 8)], Stores .x e.2 readX e.1 e.2 (fun v => bytesOf e.2 v.toNat) none (fun _ s _ => s)) ∧
  Stores .a 10 readA .staA4 2 (fun b => bytesOf 10 b.bits.toNat) none (fun _ s _ => s) ∧
  Stores .a 20 readA .staA32 2 (fun b => bytesOf 20 b.bits.toNat) none (fun _ s _ => s) ∧
  Stores .w 96 readW .stwFp32 4 (fun v => laneBytes 4 (fun l => v[l].toNat)) none (fun _ s _ => s) ∧
  Stores .w 48 readW .stwBf16 4 (fun v => laneBytes 2 (fun l => (bfNarrow v[l]).1)) none
    (fun v s a => s.orFlags a ((List.finRange 24).foldl (fun f l => f ||| (bfNarrow v[l]).2) 0)) ∧
  (∀ e ∈ [(Instr.stfW, 4), (.stfD, 8)], Stores .x e.2 readX e.1 e.2 (fun v => bytesOf e.2 v.toNat) (some true) (fun _ s _ => s)) ∧
  (∀ e ∈ [(Instr.fset, true), (.fclr, false)], ∀ (s : State) (ra : XOp) (off : BitVec 10) (pg : Pg), On s pg →
    (∀ x, readX (work s) 0 ra = .error x → exec (e.1 ra off pg) s = stops s x) ∧
    ∀ b w1, readX (work s) 0 ra = .ok (b, w1) → let v := b + 8 * off.signExtend 64
      let r := storeBytes w1.s s.cur v (List.replicate 8 0) 8 (some e.2) false
      (∀ x, r = .error x → exec (e.1 ra off pg) s = stops s x) ∧ (∀ s3, r = .ok s3 → exec (e.1 ra off pg) s = .next (s3.retireBy s.cur 4)))

/-- R158, and what a checked access reads and writes (R160, R161, R246). That stores hold for an earlier clause at their issue is
log entry 75; that an ACCESS_PERFORMED which may not be performed changes nothing is 12. -/
def Obligations.AccessesAreCheckedAndReachExactlyTheirBytes : Prop :=
  (∀ (s : State) (a : AgentId) (v : DWord) (size align : Nat) (wr fe : Bool),
    let r := checkAddr s a v size align wr fe; let n := v.toNat / 2 ^ 40; let o := v.toNat % 2 ^ 40
    let bounds (i : DWord) : Res Site := .error (.trap (trapOf .bounds v i))
    (2 ^ 48 ≤ v.toNat → r = bounds 0) ∧
    (v.toNat < 2 ^ 48 → v.toNat % align ≠ 0 → r = .error (.trap (trapOf .align v (BitVec.ofNat 64 align)))) ∧
    (v.toNat < 2 ^ 48 → v.toNat % align = 0 →
      (n = 0 → (∀ k, a = .cond k → r = bounds 0) ∧ (∀ p c, a = .ctx p c →
        (0x80000 < o + size → r = bounds 0x80000) ∧ (o + size ≤ 0x80000 → r = .ok (.store p o)))) ∧
      (n ≠ 0 → (s.extentNo a n = none → r = bounds 0) ∧ (∀ e, s.extentNo a n = some e →
        (e.len < o + size → r = bounds (BitVec.ofNat 64 e.len)) ∧
        (o + size ≤ e.len → (wr = true → e.rw = false → r = bounds (BitVec.ofNat 64 (2 ^ 63 + e.len))) ∧
          (¬ (wr = true ∧ e.rw = false) → fe = true → e.fe = false → r = bounds (BitVec.ofNat 64 (2 ^ 62 + e.len))) ∧
          (¬ (wr = true ∧ e.rw = false) → ¬ (fe = true ∧ e.fe = false) → r = .ok (.ext e o))))))) ∧
  (∀ (s : State) (p : Nat) (c : Fin 4) (v : DWord) (size align : Nat), let a := AgentId.ctx p c
    Settled s a → (s.hart a).dmode = 0 →
    (∀ o, checkAddr s a v size align false false = .ok (.store p o) → (∀ i, i < size → s.isBad (.store p (o + i)) = false) →
      loadBytes s a v size align = .ok (bytesAt s (fun i => .store p (o + i)) size, s)) ∧
    (∀ (bs : List Byte) (fe : Option Bool) (o : Nat), bs.length = size → checkAddr s a v size align true fe.isSome = .ok (.store p o) →
      s.ldfWait = [] → s.memWf = true → ∃ t, storeBytes s a v bs align fe true = .ok t ∧ bytesAt t (fun i => .store p (o + i)) size = bs ∧
        (∀ x, (∀ i, i < size → x ≠ .store p (o + i)) → t.getByte x = s.getByte x) ∧ (∀ b, t.hart b = s.hart b) ∧
        (∀ x, t.isFull x = if x.word = (Place.store p o).word then fe.getD (s.isFull x) else s.isFull x)) ∧
    (∀ (on : Bool) (o : Nat), checkAddr s a v 8 8 true true = .ok (.store p o) → s.ldfWait = [] →
      ∃ t, storeBytes s a v (List.replicate 8 0) 8 (some on) false = .ok t ∧ SameBytes s t ∧ (∀ b, t.hart b = s.hart b) ∧
        (∀ x, t.isFull x = if x.word = .store p o then on else s.isFull x))) ∧
  (∀ (s : State) (a : AgentId) (v : DWord) (size align o : Nat) (e : Extent) (pl : Nat → Place), Settled s a →
    (s.hart a).dmode = 0 → (∀ i j, i < size → j < size → pl i = pl j → i = j) →
    (checkAddr s a v size align false false = .ok (.ext e o) → orderHeld s a (.ext e o) = false →
      (∀ i, i < size → s.translate (s.holder a) e (o + i) false = (s, some (pl i)) ∧ s.isBad (pl i) = false ∧
        s.refreshing (pl i) = false) → (∀ x ∈ (s.hart a).pend, ∀ fn ps u, x.what ≠ .amon fn ps u) →
      loadBytes s a v size align = .ok ((List.range size).map (fun i => s.viewByte a (pl i)), s) ∧
      ((s.hart a).pend = [] → ∀ x, s.viewByte a x = s.getByte x)) ∧
    (checkAddr s a v size align true false = .ok (.ext e o) → orderHeld s a (.ext e o) = true →
      ∀ bs : List Byte, bs.length = size → storeBytes s a v bs align none true = .error (.hold .clauseOrder)) ∧
    (∀ bs : List Byte, bs.length = size → 0 < size → checkAddr s a v size align true false = .ok (.ext e o) →
      orderHeld s a (.ext e o) = false → (∀ i, i < size → s.translate (s.holder a) e (o + i) true = (s, some (pl i))) →
      ∃ t, storeBytes s a v bs align none true = .ok t ∧ SameBytes s t ∧ (∀ b, b ≠ a → t.hart b = s.hart b) ∧
        (t.hart a).x = (s.hart a).x ∧ (t.hart a).pc = (s.hart a).pc ∧
        (∀ i, i < size → t.viewByte a (pl i) = bs.getD i 0) ∧
        (∀ x, (∀ i, i < size → x ≠ pl i) → t.viewByte a x = s.viewByte a x) ∧
        (∀ x ∈ (t.hart a).pend.drop (s.hart a).pend.length, ∃ b, x.what = .store b [] ∧ ∀ y ∈ b, ∀ z ∈ b, y.1.word = z.1.word) ∧
        ∀ sc : Scope, sc ≠ .ctx → (s.hart a).pend = [] → s.refusedAt ((List.range size).map pl) = false → s.memWf = true →
          ∃ u, inTurn (fun i => .accessPerformed a i sc) (t.hart a).pend.length t = .next u ∧ (∀ i, i < size → u.getByte (pl i) = bs.getD i 0) ∧
            (e.space ≠ .peer → ∀ x, (∀ i, i < size → x ≠ pl i) → u.getByte x = s.getByte x)) ∧
    (∀ (slot : Nat) (sc : Scope), sc = .ctx ∨ (s.hart a).mayPerform slot = false → exec (.accessPerformed a slot sc) s = .next s))

/-! ### Full/empty words, atomics, semaphores -/

namespace Sys2Proof.Claim
open Sys2Proof Sys2Proof.Machine

/-- An access of `size` bytes at v passes its checks and reaches the places pl 0, pl 1, … at once: its pages are resident,
nothing of the agent or its cell is outstanding, and the agent is not in deterministic mode. -/
def Reaches (s : State) (a : AgentId) (v : DWord) (size align : Nat) (wr fe : Bool) (pl : Nat → Place) : Prop :=
  Settled s a ∧ (s.hart a).dmode = 0 ∧ (s.hart a).pend = [] ∧ (∀ i j, i < size → j < size → pl i = pl j → i = j) ∧
  (∀ i, i < size → s.isBad (pl i) = false) ∧
  ((∃ p o, checkAddr s a v size align wr fe = .ok (.store p o) ∧ ∀ i, i < size → pl i = .store p (o + i)) ∨
   (∃ e o, checkAddr s a v size align wr fe = .ok (.ext e o) ∧ orderHeld s a (.ext e o) = false ∧
     ∀ i, i < size → s.translate (s.holder a) e (o + i) wr = (s, some (pl i))))

/-- No agent of a higher index has been served at the bytes' lines in this cycle (R165, R166). -/
def Unserved (s : State) (a : AgentId) (pl : Nat → Place) : Prop :=
  ∀ i, i < 8 → ∀ x ∈ s.served, x.1 = (pl i).line → x.2 ≤ a.index

/-- Nobody waits in an ldf of a word. -/
def Unwaited (s : State) (word : Place) : Prop := ∀ w ∈ s.ldfWait, w.bytes.head?.map Place.word ≠ some word

/-- The functions of amo and amon (R164). -/
def r164 : List (AmoFn × (DWord → DWord → DWord)) := [
  (.add, fun o b => o + b), (.min, fun o b => if o.slt b then o else b), (.max, fun o b => if o.slt b then b else o),
  (.minu, fun o b => if o.ult b then o else b), (.maxu, fun o b => if o.ult b then b else o), (.and, fun o b => o &&& b),
  (.or, fun o b => o ||| b), (.xor, fun o b => o ^^^ b), (.swap, fun _ b => b)]
def amos : List ((XOp → XOp → XOp → Pg → Instr) × AmoFn) := [
  (.amoAdd, .add), (.amoMin, .min), (.amoMax, .max), (.amoMinu, .minu), (.amoMaxu, .maxu), (.amoAnd, .and), (.amoOr, .or),
  (.amoXor, .xor), (.amoSwap, .swap)]
def amons : List ((XOp → XOp → Pg → Instr) × AmoFn) := [
  (.amonAdd, .add), (.amonMin, .min), (.amonMax, .max), (.amonMinu, .minu), (.amonMaxu, .maxu), (.amonAnd, .and),
  (.amonOr, .or), (.amonXor, .xor)]

/-- The number that n bytes from pl 0 on stand for. -/
def numAt (s : State) (pl : Nat → Place) (n : Nat) : Nat := num ((List.range n).map (fun i => s.getByte (pl i)))

/-- s with the 8-byte word at pl 0 holding v, its own agents, registers and bits as they were. -/
def Wrote8 (s t : State) (pl : Nat → Place) (v : DWord) : Prop :=
  BitVec.ofNat 64 (numAt t pl 8) = v ∧ (∀ b, t.hart b = s.hart b) ∧ (∀ x, t.isFull x = s.isFull x) ∧ t.regions = s.regions ∧
  ((∀ q n o, pl 0 ≠ .peer q n o) → SameBytesBut s t ((List.range 8).map pl))

end Sys2Proof.Claim

/-- R162 and R163: waiting for full words. That a waiter is looked at for errors at the fill that releases it, and that an
uncorrectable one empties nothing, is log entry 81; that its agent counts as ready when it completes is 16. -/
def Obligations.FullEmptyLoadsWaitForTheirWord : Prop :=
  (∀ e ∈ [(Instr.ldfW, 4, false), (.ldfD, 8, false), (.ldfDc, 8, true)],
    ∀ (s : State) (rd ra : XOp) (off : BitVec 10) (pg : Pg) (b : DWord) (w : Work) (pl : Nat → Place), On s pg →
    let i := e.1 rd ra off pg; let a := s.cur
    readX (work s) 0 ra = .ok (b, w) → dstOk w .x rd = .ok () → dstAddr w .x rd = .ok () → s.waiter a = none → Unwaited w.s (pl 0).word → w.s.waiter a = none →
    let v := b + BitVec.ofNat 64 e.2.1 * off.signExtend 64
    Reaches w.s a v e.2.1 e.2.1 e.2.2 true pl → Reaches s a v e.2.1 e.2.1 e.2.2 true pl →
    (w.s.isFull (pl 0) = true → ∀ k,
      writeX { w with s := if e.2.2 then w.s.setFull false (pl 0).word else w.s } rd (BitVec.ofNat 64 (numAt w.s pl e.2.1)) = .ok k →
      exec i s = retires k s 4) ∧
    (w.s.isFull (pl 0) = false → ∃ l1 l2, s.ldfWait = l1 ++ l2 ∧
      exec i s = .next (({ s with
        ldfWait := l1 ++ ⟨a, v, (List.range e.2.1).map pl, e.2.2, rd, ra, s.cycle, none, false⟩ :: l2 } : State).holdBy a .ldf) ∧
      (∀ x ∈ l1, ¬ (x.began = s.cycle ∧ a.index < x.agent.index)) ∧
      (∀ x, l2.head? = some x → x.began = s.cycle ∧ a.index < x.agent.index))) ∧
  (∀ (s : State) (p : Place) (l1 l2 : List LdfWaiter) (w : LdfWaiter),
    let ready (x : LdfWaiter) : Prop := x.bytes.head?.map Place.word = some p.word ∧ x.got = none
    let value (x : LdfWaiter) : DWord := BitVec.ofNat 64 (num (x.bytes.map s.getByte))
    let bad (x : LdfWaiter) : Bool := x.bytes.any s.isBad
    let give (x : LdfWaiter) : LdfWaiter :=
      if x.bytes.head?.map Place.word = some p.word ∧ x.got = none then { x with got := some (value x), bad := bad x } else x
    (s.ldfWait = l1 ++ w :: l2 → ready w → w.clear = true → bad w = false →
      (∀ x ∈ l1, ready x → x.clear = false ∨ bad x = true) →
      (s.fill p).ldfWait = l1.map give ++ give w :: l2 ∧
      ((∀ a, p ≠ .seam a) → (∀ g a, p ≠ .lode g a) → (∀ q n o, p ≠ .peer q n o) → (s.fill p).isFull p = false)) ∧
    ((∀ x ∈ s.ldfWait, ready x → x.clear = false ∨ bad x = true) → (s.fill p).ldfWait = s.ldfWait.map give ∧
      ((∀ a, p ≠ .seam a) → (∀ g a, p ≠ .lode g a) → (∀ q n o, p ≠ .peer q n o) → (s.fill p).isFull p = true))) ∧
  (∀ (s : State) (word : Place) (w : LdfWaiter) (v x : DWord) (k k2 : Work),
    s.ldfWait.find? (fun w => w.got.isSome && (w.bytes.head?.map Place.word) == some word.word) = some w → w.got = some v →
    (s.hart w.agent).replayed = 0 → let a := w.agent; let u := State.nowReady { s with cur := a } a
    readX (work u) 0 w.ra = .ok (x, k) →
    (w.bad = false → writeX k w.rd v = .ok k2 → ∃ t, exec (.ldfRelease word) s = .next t ∧
      t.hart a = { (k2.s.hart a).retired a 4 with early := (k2.s.hart a).early.filter (fun b => !w.bytes.contains b.1) } ∧
      (∀ y ∈ t.ldfWait, y.agent ≠ a) ∧ SameBytes s t ∧ t.cur = s.cur) ∧
    (w.bad = true → ∃ p, exec (.ldfRelease word) s =
      .next ({ (((u.dropWaiter a).noteUe p).takeTrap a (trapOf .uncorr w.addr 0)) with cur := s.cur } : State))) ∧
  (∀ (s : State) (rd ra : XOp) (off : BitVec 10) (pg : Pg) (b : DWord) (w : Work) (pl : Nat → Place), On s pg →
    readX (work s) 0 ra = .ok (b, w) → dstOk w .x rd = .ok () → dstAddr w .x rd = .ok () →
    Reaches w.s s.cur (b + 8 * off.signExtend 64) 8 8 false true pl →
    ∀ k, writeX w rd (if w.s.isFull (pl 0) then 1 else 0) = .ok k → exec (.ftst rd ra off pg) s = retires k s 4)

/-- R164, R165, R167: atomics. -/
def Obligations.AtomicsReplaceOneWordAndReturnTheOld : Prop :=
  (∀ e ∈ amos, ∀ f, (e.2, f) ∈ r164 → ∀ (s : State) (rd ra rb : XOp) (pg : Pg) (v b : DWord) (w1 w2 : Work), On s pg →
    let i := e.1 rd ra rb pg
    readX (work s) 0 ra = .ok (v, w1) → readX w1 1 rb = .ok (b, w2) → dstOk w2 .x rd = .ok () → dstAddr w2 .x rd = .ok () →
    (∀ pl, Reaches w2.s s.cur v 8 8 true false pl → Unserved w2.s s.cur pl → w2.s.memWf = true → let old : DWord := BitVec.ofNat 64 (numAt w2.s pl 8)
      ∃ s', Wrote8 w2.s s' pl (f old b) ∧ ∀ k, writeX { w2 with s := s' } rd old = .ok k → exec i s = retires k s 4) ∧
    (∀ site, checkAddr w2.s s.cur v 8 8 true false = .ok site → (w2.s.hart s.cur).dmode.getLsbD 0 = true →
      exec i s = stops s (.trap (trapOf .determ v (BitVec.ofNat 64 (wordOf i 0)))))) ∧
  (∀ (s : State) (rd ra rb rc : XOp) (pg : Pg) (v b c : DWord) (w1 w2 w3 : Work), On s pg → let i := Instr.cas rd ra rb rc pg
    readX (work s) 0 ra = .ok (v, w1) → readX w1 1 rb = .ok (b, w2) → readX w2 2 rc = .ok (c, w3) → dstOk w3 .x rd = .ok () → dstAddr w3 .x rd = .ok () →
    (∀ pl, Reaches w3.s s.cur v 8 8 true false pl → Unserved w3.s s.cur pl → w3.s.memWf = true → let old : DWord := BitVec.ofNat 64 (numAt w3.s pl 8)
      ∃ s', Wrote8 w3.s s' pl (if old = b then c else old) ∧
        ∀ k, writeX { w3 with s := s' } rd old = .ok k → exec i s = retires k s 4) ∧
    (∀ site, checkAddr w3.s s.cur v 8 8 true false = .ok site → (w3.s.hart s.cur).dmode.getLsbD 0 = true →
      (∀ p o, site = .store p o → (w3.s.hart s.cur).wlen ≠ 0 ∧ (o < (w3.s.hart s.cur).woff ∨ (w3.s.hart s.cur).woff + (w3.s.hart s.cur).wlen < o + 8)) →
      exec i s = stops s (.trap (trapOf .determ v (BitVec.ofNat 64 (wordOf i 0)))))) ∧
  (∀ e ∈ amons, ∀ f, (e.2, f) ∈ r164 → ∀ (s : State) (ra rb : XOp) (pg : Pg) (v b : DWord) (w1 w2 : Work) (pl : Nat → Place),
    On s pg → readX (work s) 0 ra = .ok (v, w1) → readX w1 1 rb = .ok (b, w2) → Reaches w2.s s.cur v 8 8 true false pl →
    w2.s.memWf = true → let old : DWord := BitVec.ofNat 64 (numAt w2.s pl 8)
    ((∀ p o, checkAddr w2.s s.cur v 8 8 true false ≠ .ok (.store p o)) → let s' := w2.s.modHart s.cur (fun h =>
        h.accept (.amon e.2 ((List.range 8).map pl) b))
      exec (e.1 ra rb pg) s = .next (s'.retireBy s.cur 4) ∧ SameBytes w2.s s' ∧
      (w2.s.refusedAt ((List.range 8).map pl) = false → ∃ u, exec (.accessPerformed s.cur 0 .cell) s' = .next u ∧
        BitVec.ofNat 64 (numAt u pl 8) = f old b)) ∧
    ((∃ p o, checkAddr w2.s s.cur v 8 8 true false = .ok (.store p o)) →
      ∃ s', Wrote8 w2.s s' pl (f old b) ∧ exec (e.1 ra rb pg) s = .next (s'.retireBy s.cur 4)))

/-- R168 and R169: semaphores. That the event does nothing while the count is too small is log entry 12; that a waiter's context
counts as ready when it completes is 16. -/
def Obligations.SemaphoresCountWaitAndRelease : Prop :=
  (∀ (s : State) (q : Nat) (r : Region) (sem : BitVec 8) (ra : XOp) (pg : Pg) (v : DWord) (w : Work), On s pg →
    s.regionOf s.cur = some q → s.region q = some r → readX (work s) 0 ra = .ok (v, w) →
    let n := v.toNat % 2 ^ 32; let ws := r.semWait.filter (fun w => w.sem = sem)
    let mine := n = 0 ∨ (n ≤ s.semCount q sem ∧ ∀ x l, ws = x :: l → x.agent = s.cur)
    (mine → ∃ t, exec (.semw sem ra pg) s = .next t ∧ t.semCount q sem = s.semCount q sem - n ∧
      (∀ m, m ≠ sem → t.semCount q m = s.semCount q m) ∧ t.hart s.cur = (w.s.hart s.cur).retired s.cur 4 ∧
      (∀ r', t.region q = some r' → r'.semWait = r.semWait.filter (fun x => x.agent ≠ s.cur)) ∧ SameBytes s t ∧ SameOthers s t) ∧
    (¬ mine → ∃ t r', exec (.semw sem ra pg) s = .next t ∧ t.region q = some r' ∧ r'.sems = r.sems ∧
      t.hart s.cur = { s.hart s.cur with hold := some .sem } ∧ SameBytes s t ∧ SameOthers s t ∧
      r'.semWait = (if ∃ x ∈ ws, x.agent = s.cur then r.semWait else r.semWait ++ [⟨s.cur, sem, n, ra⟩]))) ∧
  (∀ (s : State) (q : Nat) (r : Region) (sem : BitVec 8) (ra : XOp) (pg : Pg) (v : DWord) (w : Work), On s pg →
    s.regionOf s.cur = some q → s.region q = some r → readX (work s) 0 ra = .ok (v, w) →
    (s.released s.cur 2 = false → exec (.sems sem ra pg) s = stops s (.hold .fence)) ∧
    (s.released s.cur 2 = true → ∃ t, exec (.sems sem ra pg) s = .next t ∧
      t.semCount q sem = min (s.semCount q sem + v.toNat % 2 ^ 32) 0xFFFFFFFF ∧ (∀ m, m ≠ sem → t.semCount q m = s.semCount q m) ∧
      t.hart s.cur = (w.s.hart s.cur).retired s.cur 4 ∧ SameBytes s t ∧ SameOthers s t)) ∧
  (∀ (s : State) (q : Nat) (rd : XOp) (sem : BitVec 8) (pg : Pg), On s pg → s.regionOf s.cur = some q →
    let n : DWord := BitVec.ofNat 64 (s.semCount q sem)
    (∀ w, writeX (work s) rd n = .ok w → exec (.semr rd sem pg) s = retires w s 4) ∧
    (∀ e, writeX (work s) rd n = .error e → exec (.semr rd sem pg) s = stops s e)) ∧
  (∀ (s : State) (q : Nat) (r : Region) (sem : BitVec 8) (x : SemWaiter) (l : List SemWaiter) (v : DWord) (w : Work),
    s.region q = some r → r.semWait.filter (fun w => w.sem = sem) = x :: l →
    (s.semCount q sem < x.count → exec (.semaphoreWaiterSatisfied q sem) s = .next s) ∧
    (x.count ≤ s.semCount q sem → (s.hart x.agent).replayed = 0 →
      readX (work (State.nowReady { s with cur := x.agent } x.agent)) 0 x.ra = .ok (v, w) → ∃ t r', exec (.semaphoreWaiterSatisfied q sem) s = .next t ∧ t.region q = some r' ∧
      t.semCount q sem = s.semCount q sem - x.count ∧ r'.semWait = r.semWait.filter (fun y => y.agent ≠ x.agent) ∧
      t.hart x.agent = (w.s.hart x.agent).retired x.agent 4 ∧ SameBytes s t))
/-! ### Ports and patterns -/

namespace Sys2Proof.Claim
open Sys2Proof Sys2Proof.Machine

/-- PORTTYPE or MARKER at a port: TINFO0 the next sequence number, TINFO1 the port word (R35). -/
def portStop (c : Cause) (o : Port) (cls : Nat) (q : Fin 8) : Stop :=
  .trap ⟨c, BitVec.ofNat 64 o.next.1, r35Word (if o.used then o.ttype else 15) cls (24 + q.val) o.input q,
    BitVec.ofNat 64 o.next.1, o.next.2⟩

/-- The pc, pass, repeat count and hold of an instruction that has retired. -/
def Retired (s t : State) (len : Nat) : Prop :=
  let r := (s.hart s.cur).retired s.cur len; let h := t.hart s.cur
  h.pc = r.pc ∧ h.pass = r.pass ∧ h.rep = r.rep ∧ h.repc = r.repc ∧ h.hold = none ∧ h.run = (s.hart s.cur).run

/-- An agent holds where it stood. -/
def HeldAt (s t : State) (x : Hold) : Prop :=
  (t.hart s.cur).hold = some x ∧ (t.hart s.cur).pc = (s.hart s.cur).pc ∧ (t.hart s.cur).pass = (s.hart s.cur).pass ∧
  (t.hart s.cur).run = (s.hart s.cur).run

/-- The current agent's port. -/
def portOf (s : State) (q : Fin 8) : Port := (s.hart s.cur).ports[q]

/-- The queue of a used input port whose type is in ts holds some items. -/
def Holds (s : State) (q : Fin 8) (ts : List Nat) (items : List Item) : Prop :=
  (portOf s q).used = true ∧ (portOf s q).input = true ∧ (portOf s q).ttype ∈ ts ∧ (portOf s q).queue.map (·.item) = items

/-- The x, p, a, w and m registers but x d, the special registers and the memories are as they were. -/
def OnlyX (s t : State) (d : Fin 24) : Prop :=
  let g := s.hart s.cur; let h := t.hart s.cur
  SameBytes s t ∧ SameOthers s t ∧ SameSpecial g h ∧ h.p = g.p ∧ h.a = g.a ∧ h.w = g.w ∧ h.m = g.m ∧ h.tl = g.tl ∧
  h.fps = g.fps ∧ ∀ r : Fin 24, r ≠ d → h.x[r] = g.x[r]

/-- x d holds v; a write to x0 is discarded. -/
def XHolds (s t : State) (d : Fin 24) (v : DWord) : Prop := (t.hart s.cur).x[d] = if d = 0 then (s.hart s.cur).x[d] else v

/-- Where a scalar stream reduction starts: 0, or the partial value in rd when STATUS.RDH is 1 (R175). -/
def startOf (s : State) (d : Fin 24) : DWord :=
  if (s.hart s.cur).rdh then (if d = 0 then 0 else (s.hart s.cur).x[d]) else 0

/-- The order of R183: tokens and markers of the loop nest, then the stop. -/
def r183 (p : Pattern) : List Slotted :=
  let mk (d : Nat) (code : Byte) (i : Idx) : List Slotted := if p.marks.getLsbD d then [.mark code i] else []
  ((List.range p.c3).flatMap fun i3 =>
    ((List.range p.c2).flatMap fun i2 =>
      ((List.range p.c1).flatMap fun i1 =>
        ((List.range p.c0).map fun i0 => .token ⟨i0, i1, i2, i3⟩) ++ mk 0 0x80 ⟨p.c0, i1, i2, i3⟩) ++
      mk 1 0x81 ⟨p.c0, p.c1, i2, i3⟩) ++
    mk 2 0x82 ⟨p.c0, p.c1, p.c2, i3⟩) ++
  mk 3 0x83 ⟨p.c0, p.c1, p.c2, p.c3⟩ ++ mk 4 0xC0 ⟨p.c0, p.c1, p.c2, p.c3⟩

/-- The token that n bytes hold, by type (R220). -/
def tokenIn (t : Nat) (bs : List Byte) : Token :=
  if t ≤ 3 then .scalar (BitVec.ofNat 64 (num bs)) else if t ≤ 5 then .block ⟨BitVec.ofNat 160 (num bs), decide (t = 5)⟩
  else .wide (Vector.ofFn (fun l => if t = 7 then widen (laneNum 2 bs l.val) else BitVec.ofNat 32 (laneNum 4 bs l.val)))

/-- Sizes and alignments of the token types (R220). -/
def r220 : List (Nat × Nat × Nat) := [(0, 1, 1), (1, 2, 2), (2, 4, 4), (3, 8, 8), (4, 10, 2), (5, 20, 2), (6, 96, 4), (7, 48, 4)]

end Sys2Proof.Claim

/-- R171. CLS = 0 in the port word of PORTTYPE is log entry 25. -/
def Obligations.SposAndSoccReadThePortState : Prop :=
  ∀ e ∈ [(Instr.spos, 0x048), (.socc, 0x040)], ∀ (s : State) (rd : XOp) (q : Fin 8) (pg : Pg), On s pg →
    let v := csrRead s s.cur (e.2 + q.val)
    Looked s (e.1 rd q pg) [Cls.x.dst rd]
    (((portOf s q).used = true →
      (∀ w, writeX (work s) rd v = .ok w → exec (e.1 rd q pg) s = retires w s 4) ∧
      (∀ x, writeX (work s) rd v = .error x → exec (e.1 rd q pg) s = stops s x)) ∧
    ((portOf s q).used = false → exec (e.1 rd q pg) s = stops s (portStop .porttype (portOf s q) 0 q)))

/-- R172, R174, R176. CLS = 0 in the port word of PORTTYPE is log entry 25, a drain token's code 19, a failed token 71. -/
def Obligations.MarkersArePoppedAndPatternsReset : Prop :=
  (∀ (s : State) (rd : XOp) (q : Fin 8) (pg : Pg), On s pg → let o := portOf s q; let i := Instr.mkpop rd q pg
    Looked s i [Cls.x.dst rd]
    (((o.used = false ∨ o.input = false) → exec i s = stops s (portStop .porttype o 0 q)) ∧
    (o.used = true → o.input = true →
      (o.queue = [] → exec i s = stops s (.hold (.empty q))) ∧
      (∀ e r c, o.queue = e :: r → e.item = .marker c → ∃ s1, OnlyPortsRead s s1 ∧ (portOf s1 q).queue = r ∧
        (∀ w, writeX (work s1) rd (c.setWidth 64) = .ok w → exec i s = retires w s 4) ∧
        (∀ x, writeX (work s1) rd (c.setWidth 64) = .error x → exec i s = stops s x)) ∧
      (∀ e r v, o.queue = e :: r → ((∃ t, e.item = .data t) ∧ v = 0 ∨ (∃ x y, e.item = .failed x y ∨ ∃ z, e.item = .trapped x y z) ∧ v = 0 ∨ e.item = .drain ∧ v = 0xFF) →
        (∀ w, writeX (work s) rd v = .ok w → exec i s = retires w s 4) ∧
        (∀ x, writeX (work s) rd v = .error x → exec i s = stops s x))))) ∧
  (∀ (s : State) (q : Fin 8) (kind : Fin 3) (off : BitVec 16), let o := portOf s q; let i := Instr.bmk q kind off
    let pc := (s.hart s.cur).pc
    ((o.used = false ∨ o.input = false) → exec i s = stops s (portStop .porttype o 0 q)) ∧
    (o.used = true → o.input = true →
      (o.queue = [] → exec i s = stops s (.hold (.empty q))) ∧
      (∀ e r, o.queue = e :: r → let hit := ∃ c, e.item = .marker c ∧ (kind = 0 → c = 0x80) ∧ (kind = 1 → c = 0xC0)
        (hit → ∃ w, OnlyPortsRead s w.s ∧ (portOf w.s q).queue = r ∧ exec i s = jumps w s (pc + 4 * off.signExtend 64)) ∧
        (¬ hit → exec i s = jumps (work s) s (pc + 4))))) ∧
  (∀ (s : State) (q : Fin 8) (pg : Pg), On s pg → let o := portOf s q; let i := Instr.srst q pg
    ((o.used = false ∨ o.chan = true) → exec i s = stops s (portStop .porttype o 0 q)) ∧
    (o.used = true → o.chan = false →
      let logged := ∃ p c, s.cur = .ctx p c ∧ ∃ e ∈ (s.cell p).log, e.ctx = c ∧ e.port = some q
      ((o.out ≠ [] ∨ logged) → exec i s = stops s (.hold .srst)) ∧
      (o.out = [] → ¬ logged → ∃ t, exec i s = .next t ∧ Retired s t 4 ∧ SameBytes s t ∧ SameOthers s t ∧ (t.hart s.cur).x = (s.hart s.cur).x ∧
        (portOf t q).cur = o.nxt ∧ (portOf t q).nxt = none ∧
        (∀ (old own : List Entry) (pat : Pattern), o.cur = some pat → o.queue = old ++ own → own.length ≤ pat.pos →
          (∀ (k : Nat) (e : Entry), own[k]? = some e → e.seq = pat.pos - own.length + k) →
          (own.length = pat.pos ∨ ∀ e : Entry, old.getLast? = some e → e.seq + 1 ≠ pat.pos - own.length) → (portOf t q).queue = old))))

/-- R173 and R175: loops over the tokens of a stream. -/
def Obligations.StreamReductionsConsumeTheirStream : Prop :=
  (∀ (s : State) (q : Fin 8) (rb : Fin 24) (pg : Pg) (ts : List Token) (rest : List Item), On s pg →
    rb.val ∉ (s.hart s.cur).badRegs → Holds s q [0, 1, 2, 3, 4, 5, 6, 7] (ts.map Item.data ++ rest) →
    let k := (s.hart s.cur).x[rb].toNat
    (rb = 0 → exec (.sskip q rb pg) s = .next (s.retireBy s.cur 4)) ∧
    (rb ≠ 0 → (k ≤ ts.length ∨ ∃ m r, rest = .marker m :: r) → ∃ t, exec (.sskip q rb pg) s = .next t ∧ Retired s t 4 ∧
      OnlyX s t rb ∧ (t.hart s.cur).x[rb].toNat = k - min k ts.length ∧
      (portOf t q).queue.map (·.item) = (ts.map Item.data ++ rest).drop (min k ts.length)) ∧
    (rb ≠ 0 → ts.length < k → rest = [] → ∃ t, exec (.sskip q rb pg) s = .next t ∧ HeldAt s t (.empty q) ∧
      OnlyX s t rb ∧ (t.hart s.cur).x[rb].toNat = k - ts.length ∧ (portOf t q).queue = [])) ∧
  (∀ (s : State) (q : Fin 8) (rd : Fin 24) (pg : Pg) (vs : List DWord) (rest : List Item), On s pg →
    ((s.hart s.cur).rdh = true → rd.val ∉ (s.hart s.cur).badRegs) →
    Holds s q [0, 1, 2, 3] (vs.map (fun v => Item.data (.scalar v)) ++ rest) → let sum := vs.foldl (· + ·) (startOf s rd)
    (∀ m r, rest = .marker m :: r → ∃ t, exec (.saccx rd q pg) s = .next t ∧ Retired s t 4 ∧ OnlyX s t rd ∧ XHolds s t rd sum ∧
      (t.hart s.cur).rdh = false ∧ (portOf t q).queue.map (·.item) = r) ∧
    (rest = [] → ∃ t, exec (.saccx rd q pg) s = .next t ∧ HeldAt s t (.empty q) ∧ OnlyX s t rd ∧ XHolds s t rd sum ∧
      (t.hart s.cur).rdh = true ∧ (portOf t q).queue = [])) ∧
  (∀ (s : State) (q : Fin 8) (rd : Fin 24) (pg : Pg) (vs : List Wide) (rest : List Item), On s pg →
    ((s.hart s.cur).rdh = true → 512 + rd.val ∉ (s.hart s.cur).badRegs) →
    Holds s q [6, 7] (vs.map (fun v => Item.data (.wide v)) ++ rest) →
    let st : Wide := if (s.hart s.cur).rdh then (s.hart s.cur).w[rd] else Wide.zero
    let lane (l : Fin 24) : Word × BitVec 5 := vs.foldl (fun acc v => let r := reduceStep fadd acc.1 (flush v[l])
      (r.1, acc.2 ||| r.2 ||| (if isSnan v[l] then 1 else 0))) (st[l], 0)
    let done (t : State) : Prop := SameBytes s t ∧ SameOthers s t ∧ (t.hart s.cur).x = (s.hart s.cur).x ∧
      (∀ l : Fin 24, (t.hart s.cur).w[rd][l] = (lane l).1) ∧ (∀ r : Fin 24, r ≠ rd → (t.hart s.cur).w[r] = (s.hart s.cur).w[r]) ∧
      (t.hart s.cur).fps = (List.finRange 24).foldl (fun f l => f ||| (lane l).2) (s.hart s.cur).fps
    (∀ m r, rest = .marker m :: r → ∃ t, exec (.sacc rd q pg) s = .next t ∧ Retired s t 4 ∧ done t ∧
      (t.hart s.cur).rdh = false ∧ (portOf t q).queue.map (·.item) = r) ∧
    (rest = [] → ∃ t, exec (.sacc rd q pg) s = .next t ∧ HeldAt s t (.empty q) ∧ done t ∧ (t.hart s.cur).rdh = true)) ∧
  (∀ (s : State) (qa qb : Fin 8) (rd : Fin 24) (pg : Pg) (as bs : List DWord) (m n : Byte) (ra rb : List Item), On s pg →
    qa ≠ qb → (s.hart s.cur).rdh = false → as.Pairwise (fun a b => a.toNat < b.toNat) → bs.Pairwise (fun a b => a.toNat < b.toNat) →
    Holds s qa [0, 1, 2, 3] (as.map (fun v => Item.data (.scalar v)) ++ .marker m :: ra) →
    Holds s qb [0, 1, 2, 3] (bs.map (fun v => Item.data (.scalar v)) ++ .marker n :: rb) →
    ∃ t, exec (.sisect rd qa qb pg) s = .next t ∧ Retired s t 4 ∧ OnlyX s t rd ∧
      XHolds s t rd (BitVec.ofNat 64 (as.countP (fun a => bs.contains a))) ∧ (t.hart s.cur).rdh = false ∧
      (portOf t qa).queue.map (·.item) = ra ∧ (portOf t qb).queue.map (·.item) = rb)

/-- R183 and R222: the order of a pattern. -/
def Obligations.PatternEntriesFollowTheLoopNest : Prop :=
  (∀ p : Pattern, (List.range p.total).map p.entry = r183 p) ∧
  (∀ (p : Pattern) (i : Idx), p.addr i = p.base + BitVec.ofInt 64 (i.i0 * p.s0 + i.i1 * p.s1 + i.i2 * p.s2 + i.i3 * p.s3)) ∧
  (∀ (b c : DWord) (immA : BitVec 15) (immB : Word) (pc : DWord), let t := immA.toNat % 16
    (8 ≤ t → spatPattern b c immA immB pc = none) ∧
    (∀ e ∈ r220, t = e.1 → ∃ p, spatPattern b c immA immB pc = some p ∧ p.base = b ∧ p.c0 = c.toNat % 2 ^ 32 ∧
      p.c1 = c.toNat / 2 ^ 32 ∧ p.c2 = 1 ∧ p.c3 = 1 ∧ p.s0 = (immA.extractLsb' 7 8).toInt * e.2.1 ∧ p.s1 = immB.toInt ∧ p.ttype = t ∧
      (∀ d : Fin 5, p.marks.getLsbD d.val = if d = 0 then immA.getLsbD 4 else if d = 1 then immA.getLsbD 5 else
        if d = 4 then immA.getLsbD 6 else false) ∧ p.pos = 0 ∧ p.done = 0 ∧ p.pc = pc)) ∧
  (∀ e ∈ r220, tokenSize e.1 = e.2.1 ∧ tokenAlign e.1 = e.2.2)

/-- R182, R183, R223, R224: patterns at work. That an event whose condition fails changes nothing is log entry 12, CLS = 0 in the
port word of PORTTYPE 25. -/
def Obligations.AccessPatternEngineMovesTokens : Prop :=
  (∀ (s : State) (p : Nat) (c : Fin 4) (q : Fin 8) (pat : Pattern), let a := AgentId.ctx p c; let o := (s.hart a).ports[q]
    o.used = true → o.input = true → o.chan = false → o.dead = false → o.seen = [] → o.queue.length < 16 → o.cur = some pat → pat.pos < pat.total →
    (∀ code i, pat.entry pat.pos = .mark code i → ∃ t, exec (.apeFetch p c q) s = .next t ∧ SameBytes s t ∧
      (t.hart a).ports[q].queue = o.queue ++ [⟨.marker code, pat.pos, i, 0⟩] ∧
      (t.hart a).ports[q].cur = some { pat with pos := pat.pos + 1 }) ∧
    (∀ i, pat.entry pat.pos = .token i → ∀ e ∈ r220, o.ttype = e.1 →
      (∀ pl, Reaches s a (pat.addr i) e.2.1 e.2.2 false false pl → (∀ j, j < e.2.1 → s.refreshing (pl j) = false) →
        ∃ t, exec (.apeFetch p c q) s = .next t ∧ SameBytes s t ∧
        (t.hart a).ports[q].queue = o.queue ++ [⟨.data (tokenIn e.1 ((List.range e.2.1).map (fun j => s.getByte (pl j)))), pat.pos, i, pat.addr i⟩] ∧
        (t.hart a).ports[q].cur = some { pat with pos := pat.pos + 1 }) ∧
      (∀ x, checkAddr s a (pat.addr i) e.2.1 e.2.2 false false = .error (.trap x) → ∃ t, exec (.apeFetch p c q) s = .next t ∧
        (t.hart a).ports[q].queue = o.queue ++ [⟨.failed x.cause (pat.addr i), pat.pos, i, pat.addr i⟩] ∧ (t.hart a).ports[q].dead = true ∧
        exec (.apeFetch p c q) t = .next t))) ∧
  (∀ (s : State) (p : Nat) (c : Fin 4) (q : Fin 8), let a := AgentId.ctx p c; let o := (s.hart a).ports[q]
    (o.out = [] → exec (.patternWrite p c q) s = .next s) ∧
    (∀ x r off, o.out = x :: r → x.put = [] → s.memWf = true → (x.tok.bytes o.ttype).length = tokenSize o.ttype →
      checkAddr s a x.addr (tokenSize o.ttype) (tokenAlign o.ttype) true false = .ok (.store p off) →
      (s.hart a).flight = [] → s.copyHeld p off (tokenSize o.ttype) = false →
      (∀ op ∈ (s.cell p).ops, x.ord ≤ op.ord ∨ ∀ g ∈ op.ranges, off + tokenSize o.ttype ≤ g.1 ∨ g.1 + g.2 ≤ off) →
      ∃ t, exec (.patternWrite p c q) s = .next t ∧ (t.hart a).ports[q].out = r ∧ let bs := x.tok.bytes o.ttype
        bytesAt t (fun i => .store p (off + i)) bs.length = bs ∧
        (∀ y, (∀ i, i < bs.length → y ≠ .store p (off + i)) → t.getByte y = s.getByte y))) ∧
  (∀ (s : State) (p : Nat) (c : Fin 4) (q : Fin 8) (pat : Pattern), let a := AgentId.ctx p c; let o := (s.hart a).ports[q]
    o.cur = some pat →
    (pat.pos = pat.total → o.dead = false → (o.input = true ∨ o.out = [] ∧ ∀ e ∈ (s.cell p).log, e.ctx = c → e.port ≠ some q) → ∃ t, exec (.completionEvent p c q) s = .next t ∧
      (t.hart a).ports[q].cur = o.nxt ∧ (t.hart a).ports[q].nxt = none ∧ (t.hart a).ports[q].queue = o.queue ∧ SameBytes s t ∧
      (∀ k id x, pat.cmd = some (k, id) → x ∈ (s.cond k).cmds → x.id = id → { x with ready := true } ∈ (t.cond k).cmds)) ∧
    (pat.pos ≠ pat.total ∨ o.input = false ∧ (o.out ≠ [] ∨ ∃ e ∈ (s.cell p).log, e.ctx = c ∧ e.port = some q) →
      exec (.completionEvent p c q) s = .next s)) ∧
  (∀ (s : State) (p : Nat) (c : Fin 4) (q : Fin 8) (rb rc : XOp) (immA : BitVec 15) (immB : Word) (pg : Pg) (b n : DWord) (w1 w2 : Work),
    s.cur = .ctx p c → On s pg → readX (work s) 1 rb = .ok (b, w1) → readX w1 2 rc = .ok (n, w2) →
    let i := Instr.spat (.port q) rb rc immA immB ⟨none, none⟩ pg; let o := portOf w2.s q
    (8 ≤ immA.toNat % 16 → exec i s = stops s (.trap (trapOf .undef (BitVec.ofNat 64 (wordOf i 0))
      (BitVec.ofNat 64 (wordOf i 2 * 2 ^ 32 + wordOf i 1))))) ∧
    (∀ pat, spatPattern b n immA immB (s.hart s.cur).pc = some pat →
      ((o.used = false ∨ o.chan = true ∨ o.ttype ≠ pat.ttype ∨ o.input = false ∧ pat.marks ≠ 0) →
        exec i s = stops s (portStop .porttype (portOf s q) 0 q)) ∧
      (o.used = true → o.chan = false → o.ttype = pat.ttype → (o.input = true ∨ pat.marks = 0) →
        (o.cur = none → ∃ t, exec i s = .next t ∧ Retired s t 16 ∧ (portOf t q).cur = some pat ∧ SameBytes s t) ∧
        (∀ x, o.cur = some x → o.nxt = none → ∃ t, exec i s = .next t ∧ Retired s t 16 ∧ (portOf t q).cur = some x ∧
          (portOf t q).nxt = some pat ∧ SameBytes s t) ∧
        (∀ x y, o.cur = some x → o.nxt = some y → exec i s = stops s (.hold .pattern))))) ∧
  (∀ (s s1 : State) (p : Nat) (c : Fin 4) (q : Fin 8) (rb : XOp) (pg : Pg) (b : DWord) (w : Work) (bs : List Byte) (pat : Pattern),
    s.cur = .ctx p c → On s pg → readX (work s) 1 rb = .ok (b, w) → loadBytes w.s s.cur b 64 8 = .ok (bs, s1) →
    let i := Instr.spatr (.port q) rb ⟨none, none⟩ pg; let o := portOf s1 q; let r := recordPattern bs (s.hart s.cur).pc
    (r = none → exec i s = stops s (.trap (trapOf .undef (BitVec.ofNat 64 (wordOf i 0)) (BitVec.ofNat 64 (wordOf i 2 * 2 ^ 32 + wordOf i 1))))) ∧
    (r = some pat → (o.used = false ∨ o.chan = true ∨ o.ttype ≠ pat.ttype ∨ o.input = false ∧ pat.marks ≠ 0) →
      exec i s = stops s (portStop .porttype (portOf s q) 0 q)) ∧
    (r = some pat → o.used = true → o.chan = false → o.ttype = pat.ttype → (o.input = true ∨ pat.marks = 0) →
      (o.cur = none → SameBytes s s1 → ∃ t, exec i s = .next t ∧ (portOf t q).cur = some pat ∧ SameBytes s t ∧
        (t.hart s.cur).x = (s1.hart s.cur).x ∧ (t.hart s.cur).pc = ((s1.hart s.cur).retired s.cur 16).pc) ∧
      (∀ x, o.cur = some x → o.nxt = none → ∃ t, exec i s = .next t ∧ (portOf t q).cur = some x ∧ (portOf t q).nxt = some pat) ∧
      (∀ x y, o.cur = some x → o.nxt = some y → exec i s = stops s (.hold .pattern)))) ∧
  (∀ (s : State) (p : Nat) (c : Fin 4) (q : Fin 8) (rb : XOp) (pg : Pg) (b : DWord) (w : Work) (e : Stop),
    s.cur = .ctx p c → On s pg → let i := Instr.spatr (.port q) rb ⟨none, none⟩ pg
    (readX (work s) 1 rb = .error e → exec i s = stops s e) ∧
    (readX (work s) 1 rb = .ok (b, w) → loadBytes w.s s.cur b 64 8 = .error e → exec i s = stops s e))
/-! ### Atoms -/

namespace Sys2Proof.Claim
open Sys2Proof Sys2Proof.Machine

/-- One source, one destination, and flags that are ORed into FPS with the result (R24). -/
def OneToOneF {α β : Type} {n l : Nat} (ca : Cls) (fd : Opnd l → Field) (rdA : Work → Nat → Opnd n → Res (α × Work)) (wr : Work → Opnd l → β → Res Work)
    (mk : Opnd l → Opnd n → Pg → Instr) (f : α → β × BitVec 5) : Prop :=
  ∀ (s : State) (rd : Opnd l) (ra : Opnd n) (pg : Pg), On s pg → Looked s (mk rd ra pg) [ca.src ra, fd rd]
    ((∀ e, rdA (work s) 0 ra = .error e → exec (mk rd ra pg) s = stops s e) ∧
    ∀ a w1, rdA (work s) 0 ra = .ok (a, w1) →
      (∀ e, wr (w1.flags (f a).2) rd (f a).1 = .error e → exec (mk rd ra pg) s = stops s e) ∧
      (∀ w2, wr (w1.flags (f a).2) rd (f a).1 = .ok w2 → exec (mk rd ra pg) s = retires w2 s 4))

/-- Two sources, one destination, and flags. -/
def TwoToOneF {α β γ : Type} {n m l : Nat} (ca cb : Cls) (fd : Opnd l → Field) (rdA : Work → Nat → Opnd n → Res (α × Work))
    (rdB : Work → Nat → Opnd m → Res (β × Work)) (wr : Work → Opnd l → γ → Res Work)
    (mk : Opnd l → Opnd n → Opnd m → Pg → Instr) (f : α → β → γ × BitVec 5) : Prop :=
  ∀ (s : State) (rd : Opnd l) (ra : Opnd n) (rb : Opnd m) (pg : Pg), On s pg → let i := mk rd ra rb pg
    Looked s i [ca.src ra, cb.src rb, fd rd]
    ((∀ e, rdA (work s) 0 ra = .error e → exec i s = stops s e) ∧
    ∀ a w1, rdA (work s) 0 ra = .ok (a, w1) →
      (∀ e, rdB w1 1 rb = .error e → exec i s = stops s e) ∧
      ∀ b w2, rdB w1 1 rb = .ok (b, w2) →
        (∀ e, wr (w2.flags (f a b).2) rd (f a b).1 = .error e → exec i s = stops s e) ∧
        (∀ w3, wr (w2.flags (f a b).2) rd (f a b).1 = .ok w3 → exec i s = retires w3 s 4))

/-- Three sources in the order ra, rb, rc, the first two wide and the third of a class, one wide destination. -/
def ThreeToOne {α β δ γ : Type} {n m o l : Nat} (cc : Cls) (rdA : Work → Nat → Opnd n → Res (α × Work))
    (rdB : Work → Nat → Opnd m → Res (β × Work)) (rdC : Work → Nat → Opnd o → Res (δ × Work))
    (wr : Work → Opnd l → γ → Res Work) (mk : Opnd l → Opnd n → Opnd m → Opnd o → Pg → Instr)
    (f : α → β → δ → Res (γ × BitVec 5)) (fl : Work → BitVec 5 → Work) : Prop :=
  ∀ (s : State) (rd : Opnd l) (ra : Opnd n) (rb : Opnd m) (rc : Opnd o) (pg : Pg), On s pg → let i := mk rd ra rb rc pg
    Looked s i [Cls.w.src ra, Cls.w.src rb, cc.src rc, Cls.w.dst rd]
    ((∀ e, rdA (work s) 0 ra = .error e → exec i s = stops s e) ∧
    ∀ a w1, rdA (work s) 0 ra = .ok (a, w1) →
      (∀ e, rdB w1 1 rb = .error e → exec i s = stops s e) ∧
      ∀ b w2, rdB w1 1 rb = .ok (b, w2) →
        (∀ e, rdC w2 2 rc = .error e → exec i s = stops s e) ∧
        ∀ c w3, rdC w2 2 rc = .ok (c, w3) →
          (∀ e, f a b c = .error e → exec i s = stops s e) ∧
          ∀ v, f a b c = .ok v →
            (∀ e, wr (fl w3 v.2) rd v.1 = .error e → exec i s = stops s e) ∧
            (∀ w4, wr (fl w3 v.2) rd v.1 = .ok w4 → exec i s = retires w4 s 4))

/-- No flag is touched. -/
def noFlags (w : Work) (_ : BitVec 5) : Work := w

/-- The OR of 24 lanes' flags. -/
def orAll (f : Fin 24 → BitVec 5) : BitVec 5 := (List.finRange 24).foldl (fun acc l => acc ||| f l) 0

/-- 24 results, each with its flags. -/
def lanesFrom (f : Fin 24 → Word × BitVec 5) : Wide × BitVec 5 := (Vector.ofFn fun l => (f l).1, orAll fun l => (f l).2)

/-- A block operation on decoded operands: a NaN operand gives the NaN block and INV, others are searched (R108). -/
def searched (a32 : Bool) (bad : Bool) (z : List Int) : Block × BitVec 5 :=
  if bad then (⟨0xFF, a32⟩, 1) else searchExact z a32

/-- The raw field of R112. -/
def r112 (b : Block) (sel : Nat) : Nat :=
  if sel ≤ 5 then (if b.a32 then b.bits.toNat / 2 ^ (16 + 24 * sel) % 2 ^ 24 else b.bits.toNat / 2 ^ (8 + 12 * sel) % 2 ^ 12)
  else if sel = 6 then b.bits.toNat % 2 ^ (if b.a32 then 16 else 8) else if b.a32 then 1 else 0

/-- ENCT of R17: the block, the new tailings, the flags. Decoded values below 2^-126 are flushed, and the difference of two
zeros is -0 only where the first is -0 and the second +0 (R23). -/
def r17 (a32 : Bool) (x t : Wide) : Block × Wide × BitVec 5 :=
  let xp := lanesFrom (fun l => fadd x[l] t[l])
  let r := searchWide xp.1.toList a32
  let d (l : Fin 24) : Word × BitVec 5 :=
    let e := r.1.dec.getD l.val 0; let n := val xp.1[l] - (if e.natAbs < 2 ^ 23 then 0 else e)
    if n = 0 then (if isZero xp.1[l] && signOf xp.1[l] && decide (0 ≤ e) then 0x80000000 else 0, 0) else rnd n (-149)
  if r.1.isNan then (r.1, Vector.replicate 24 0, xp.2 ||| r.2)
  else (r.1, (lanesFrom d).1, xp.2 ||| r.2 ||| (lanesFrom d).2)

/-- The nearest integer to n / d, ties to even. -/
def rne (n d : Nat) : Nat := if d < 2 * (n % d) ∨ (2 * (n % d) = d ∧ n / d % 2 = 1) then n / d + 1 else n / d

/-- The magnitude sums of the six atoms (R15). -/
def atomSum (xs : List Int) (j : Nat) : Nat := ((List.range 4).map (fun i => (xs.getD (4 * j + i) 0).natAbs)).sum

end Sys2Proof.Claim

/-- R105 to R112: the atom instructions. -/
def Obligations.AtomInstructionsGiveTheirBlocks : Prop :=
  (∀ (w : Work) (i : Nat) (f : AOp), let n := match f with | .reg r => r.val | .port q => 24 + q.val
    (∀ e, readA w i f = .error e → operandBlock w i f = .error e) ∧
    ∀ b w1, readA w i f = .ok (b, w1) →
      (b.malformed = none → operandBlock w i f = .ok (b, w1)) ∧
      (∀ j raw, b.malformed = some (j, raw) →
        (w1.hart.dmode = 3 → operandBlock w i f =
          .error (.trap (trapOf .malatom (BitVec.ofNat 64 (n * 8 + j)) (BitVec.ofNat 64 raw)))) ∧
        (w1.hart.dmode.toNat < 3 → operandBlock w i f = .ok (b, w1.flags 16)))) ∧
  OneToOneF .a Cls.w.dst operandBlock writeW .dec (fun b => lanesFrom (fun l =>
    if b.isNan then (0x7FC00000, 0) else rnd (b.dec.getD l.val 0) (-149))) ∧
  OneToOneF .w (fun d => (Cls.a.dst d).of false) readW writeA .encA4 (fun v => searchWide v.toList false) ∧
  OneToOneF .w (fun d => (Cls.a.dst d).of true) readW writeA .encA32 (fun v => searchWide v.toList true) ∧
  (∀ e ∈ [(Instr.aaddA4, false), (.aaddA32, true)], TwoToOneF .a .a (fun d => (Cls.a.dst d).of e.2) operandBlock operandBlock writeA e.1 (fun a b =>
    searched e.2 (a.isNan || b.isNan) (List.zipWith (· + ·) a.dec b.dec))) ∧
  (∀ e ∈ [(Instr.asubA4, false), (.asubA32, true)], TwoToOneF .a .a (fun d => (Cls.a.dst d).of e.2) operandBlock operandBlock writeA e.1 (fun a b =>
    searched e.2 (a.isNan || b.isNan) (List.zipWith (· - ·) a.dec b.dec))) ∧
  OneToOneF .a Cls.a.dst operandBlock writeA .arelu (fun a => searched a.a32 a.isNan (a.dec.map (max · 0))) ∧
  TwoToOneF .a .m Cls.a.dst operandBlock readM writeA .amsk (fun a m => searched a.a32 a.isNan
    ((List.range 24).map (fun l => if m.getLsbD l then a.dec.getD l 0 else 0))) ∧
  (∀ e ∈ [(Instr.acvtA4, false), (.acvtA32, true)], OneToOneF .a (fun d => (Cls.a.dst d).of e.2) operandBlock writeA e.1 (fun a =>
    if a.isNan then (⟨0xFF, e.2⟩, if a.a32 = e.2 then 0 else 1)
    else if a.a32 = e.2 ∧ a.malformed = none then (a, 0) else searchExact a.dec e.2)) ∧
  OneToOne .a .a operandBlock writeA .aneg Block.neg ∧ OneToOne .a .a readA writeA .amov id ∧
  TwoToOneF .a .x Cls.a.dst operandBlock readX writeA .ascl (fun a x => a.scale x.toInt) ∧
  TwoToOneF .a .a Cls.x.dst operandBlock operandBlock writeX .adot (fun a b =>
    let r := if a.isNan || b.isNan then (0x7FC00000, 1) else rnd (List.zipWith (· * ·) a.dec b.dec).sum (-298)
    (r.1.setWidth 64, r.2)) ∧
  TwoToOne .a .x .x readA readX writeX .aget (fun b x => BitVec.ofNat 64 (r112 b (x.toNat % 8))) ∧
  (∀ (s : State) (rd : AOp) (ra rb : XOp) (pg : Pg) (v x : DWord) (b : Block) (w1 w2 w3 : Work), On s pg →
    readX (work s) 0 ra = .ok (v, w1) → readX w1 1 rb = .ok (x, w2) → readA w2 2 rd = .ok (b, w3) →
    (∀ k, writeA w3 rd (b.setField (x.toNat % 8) v.toNat) = .ok k → exec (.aset rd ra rb pg) s = retires k s 4) ∧
    (∀ e, writeA w3 rd (b.setField (x.toNat % 8) v.toNat) = .error e → exec (.aset rd ra rb pg) s = stops s e)) ∧
  (∀ e ∈ [(Instr.enctA4, false), (.enctA32, true)], ∀ (s : State) (rd : AOp) (ra : WOp) (rb : TOp) (pg : Pg), On s pg →
    Looked s (e.1 rd ra rb pg) [Cls.w.src ra, Cls.tl.src rb, (Cls.a.dst rd).of e.2, Cls.tl.dst rb]
    ((∀ x, readW (work s) 0 ra = .error x → exec (e.1 rd ra rb pg) s = stops s x) ∧
    ∀ x w1, readW (work s) 0 ra = .ok (x, w1) →
      (∀ y, readTl w1 1 rb = .error y → exec (e.1 rd ra rb pg) s = stops s y) ∧
      ∀ t w2, readTl w1 1 rb = .ok (t, w2) → let r := r17 e.2 x t
        (∀ y, writeA (w2.flags r.2.2) rd r.1 = .error y → exec (e.1 rd ra rb pg) s = stops s y) ∧
        ∀ w3, writeA (w2.flags r.2.2) rd r.1 = .ok w3 →
          (∀ y, writeTl w3 rb r.2.1 = .error y → exec (e.1 rd ra rb pg) s = stops s y) ∧
          (∀ w4, writeTl w3 rb r.2.1 = .ok w4 → exec (e.1 rd ra rb pg) s = retires w4 s 4)))

/-- R13 to R16, R20, R21, R112: the algebra of blocks. -/
def Obligations.BlockRanksSearchesAndFieldsAreExact : Prop :=
  (∀ n k, n ≤ 4 → vCount n 0 = 1 ∧ (0 < k → vCount 0 k = 0) ∧
    (n < 4 → vCount (n + 1) (k + 1) = vCount n (k + 1) + vCount (n + 1) k + vCount n k)) ∧
  (∀ a32 : Bool, let k := if a32 then 32 else 4; let size (p : List Int) : Nat := (p.map Int.natAbs).sum
    (∀ r, r < vCount 4 k → (unrank r 4 k).length = 4 ∧ size (unrank r 4 k) = k ∧ rankOf (unrank r 4 k) 4 k = r) ∧
    (∀ p : List Int, p.length = 4 → size p = k → rankOf p 4 k < vCount 4 k ∧ unrank (rankOf p 4 k) 4 k = p)) ∧
  (∀ b : Block, b.isNan = false → b.neg.dec = b.dec.map (fun x => -x) ∧ b.neg.a32 = b.a32 ∧
    ∀ s : Int, let r := b.scale s; let e : Int := b.e + s
      ((∀ x ∈ b.dec, x = 0) → r = (⟨0, b.a32⟩, 0)) ∧
      ((∃ x ∈ b.dec, x ≠ 0) → (254 < e → r = (⟨0xFF, b.a32⟩, 4)) ∧ (e < 0 → r = (⟨0xFF, b.a32⟩, 8)) ∧
        (0 ≤ e → e ≤ 254 → r.2 = 0 ∧ r.1.isNan = false ∧ r.1.malformed = none ∧ r.1.a32 = b.a32 ∧ (r.1.e : Int) = e ∧
          r.1.dec.map (· * 2 ^ (-s).toNat) = b.dec.map (· * 2 ^ s.toNat)))) ∧
  (∀ b : Block, b.isNan = true → b.neg = ⟨0xFF, b.a32⟩ ∧ ∀ s, b.scale s = (⟨0xFF, b.a32⟩, 0)) ∧
  (∀ (xs : List Int) (a32 : Bool), xs.length = 24 → let k := if a32 then 32 else 4; let g := if a32 then 127 else 15
    let r := searchExact xs a32; let top (e : Nat) := (2 * g + 1) * k * 2 ^ (e + 21)
    ((∀ j, j < 6 → atomSum xs j = 0) → r = (⟨0, a32⟩, 0)) ∧
    ((∃ j, j < 6 ∧ top 254 ≤ atomSum xs j) → r = (⟨0xFF, a32⟩, 4)) ∧
    ((∀ j, j < 6 → atomSum xs j < top 254) → r.2 = 0 ∧ r.1.malformed = none ∧ r.1.isNan = false ∧ r.1.a32 = a32 ∧
      ∃ e, e ≤ 254 ∧ (∀ j, j < 6 → atomSum xs j < top e) ∧ (0 < e → ∃ j, j < 6 ∧ top (e - 1) ≤ atomSum xs j) ∧
        let gain (j : Nat) := rne (atomSum xs j) (k * 2 ^ (e + 22))
        ((∀ j, j < 6 → gain j = 0) → r.1 = ⟨0, a32⟩) ∧
        ((∃ j, j < 6 ∧ gain j ≠ 0) → r.1.e = e ∧ ∀ j, j < 6 → atomGain a32 (r.1.atom j) = gain j))) ∧
  (∀ (b : Block) (sel d : Nat), sel ≤ 6 → let c := b.setField sel d
    r112 c sel = d % 2 ^ (if sel = 6 then (if b.a32 then 16 else 8) else if b.a32 then 24 else 12) ∧ c.a32 = b.a32 ∧
    ∀ o, o ≤ 6 → o ≠ sel → r112 c o = r112 b o) ∧
  (∀ (b : Block) (d : Nat), let c := b.setField 7 d
    c.a32 = decide (d % 2 = 1) ∧ c.bits.toNat = if d % 2 = 1 then b.bits.toNat else b.bits.toNat % 2 ^ 80) ∧
  (searchExact ([3 * 2 ^ 149, -3 * 2 ^ 148, 2 ^ 148, 0] ++ List.replicate 20 0) false).1.bits = 0x0AB77C

/-! ### Wide values -/

namespace Sys2Proof.Claim
open Sys2Proof Sys2Proof.Machine

/-- How far n × 2^e lies from a word's value, in a unit that makes both whole. -/
def dist (n e : Int) (w : Word) : Nat := (val w * 2 ^ (-149 - e).toNat - n * 2 ^ (e + 149).toNat).natAbs

/-- A word as an operation reads it: a subnormal is zero of its sign (R23). -/
def flushed (w : Word) : Word := if isZero w then w &&& 0x80000000 else w

/-- A finite word. -/
def finite (w : Word) : Prop := w.toNat / 2 ^ 23 % 2 ^ 8 ≠ 255

/-- The binary and unary functions of R114 to R116 and R121 on lanes, and the fused ones of R122. -/
def r114two : List ((WOp → WOp → WOp → Pg → Instr) × (Word → Word → Word × BitVec 5)) := [
  (.wadd, fadd), (.wsub, fsub), (.wmul, fmul), (.wmin, fmin), (.wmax, fmax)]
def r116one : List ((WOp → WOp → Pg → Instr) × (Word → Word × BitVec 5)) := [
  (.wabs, fun a => (if isZero a then 0 else a &&& 0x7FFFFFFF, 0)),
  (.wneg, fun a => (if isZero a then (a &&& 0x80000000) ^^^ 0x80000000 else a ^^^ 0x80000000, 0)), (.wrcp, frcp), (.wrsq, frsq),
  (.wsqrt, fsqrt), (.wexp2, fexp2), (.wlog2, flog2), (.wmov, fun a => (a, 0)), (.wcvtfi, fToInt), (.wcvtif, fun a => rnd a.toInt 0),
  (.wcvtbf, fun a => (widen (a.toNat % 2 ^ 16), 0)), (.wcvtfb, fun a => (BitVec.ofNat 32 (bfNarrow a).1, (bfNarrow a).2))]
def r122three : List ((WOp → WOp → WOp → WOp → Pg → Instr) × (Word → Word → Word → Word × BitVec 5)) := [
  (.wfma, ffma false false), (.wfms, ffma false true), (.wfnma, ffma true false)]

/-- The lane comparisons of R117 with what sets INV. -/
def r117 : List ((MOp → WOp → WOp → Pg → Instr) × (Int → Int → Bool) × (Word → Bool)) := [
  (.wcmpeq, fun a b => a == b, isSnan), (.wcmplt, fun a b => decide (a < b), isNan), (.wcmple, fun a b => decide (a ≤ b), isNan)]

/-- The ordered reductions of R118. -/
def r118 : List ((WOp → WOp → Pg → Instr) × (Word → Word → Word × BitVec 5)) := [
  (.wredsum, fadd), (.wredmax, fmax), (.wredmin, fmin)]

/-- The loop of R118 on flushed lanes: a NaN stays, the first NaN is quieted, else the operation. -/
def r118go (op : Word → Word → Word × BitVec 5) : Word × BitVec 5 → List Word → Word × BitVec 5
  | s, [] => s
  | s, v :: vs => r118go op (if isNan s.1 then s else if isNan v then (v ||| 0x00400000, s.2) else ((op s.1 v).1, s.2 ||| (op s.1 v).2)) vs

/-- Atom and wide instructions: their destination class and register. -/
inductive WDest where
  | a (r : AOp) | w (r : WOp) | m (r : MOp) | x (r : XOp) | aTl (r : AOp) (t : TOp)

def wideDest : Instr → Option WDest
  | .dec d _ _ => some (.w d)
  | .encA4 d _ _ | .encA32 d _ _ | .arelu d _ _ | .aneg d _ _ | .amov d _ _ | .acvtA4 d _ _ | .acvtA32 d _ _ => some (.a d)
  | .enctA4 d _ t _ | .enctA32 d _ t _ => some (.aTl d t)
  | .aaddA4 d _ _ _ | .aaddA32 d _ _ _ | .asubA4 d _ _ _ | .asubA32 d _ _ _ | .amsk d _ _ _ | .ascl d _ _ _ | .aset d _ _ _ => some (.a d)
  | .adot d _ _ _ | .aget d _ _ _ | .wext d _ _ _ => some (.x d)
  | .wadd d _ _ _ | .wsub d _ _ _ | .wmul d _ _ _ | .wmin d _ _ _ | .wmax d _ _ _ | .wins d _ _ _ | .wshuf d _ _ _ => some (.w d)
  | .wabs d _ _ | .wneg d _ _ | .wrcp d _ _ | .wrsq d _ _ | .wsqrt d _ _ | .wexp2 d _ _ | .wlog2 d _ _ | .wredsum d _ _
  | .wredmax d _ _ | .wredmin d _ _ | .wbcst d _ _ | .wcvtfi d _ _ | .wcvtif d _ _ | .wcvtbf d _ _ | .wcvtfb d _ _ | .wmov d _ _ => some (.w d)
  | .wcmpeq d _ _ _ | .wcmplt d _ _ _ | .wcmple d _ _ _ => some (.m d)
  | .wfma d _ _ _ _ | .wfms d _ _ _ _ | .wfnma d _ _ _ _ | .wsel d _ _ _ _ => some (.w d)
  | _ => none

/-- The instructions that move bits to a register and set no flag (R111, R112, R119, R123). -/
def moves : Instr → Bool
  | .amov (.reg _) _ _ | .aget (.reg _) _ _ _ | .aset (.reg _) _ _ _ | .wbcst (.reg _) _ _ | .wins (.reg _) _ _ _
  | .wext (.reg _) _ _ _ | .wshuf (.reg _) _ _ _ | .wmov (.reg _) _ _ | .wsel (.reg _) _ _ _ _ => true
  | _ => false

end Sys2Proof.Claim

/-- R23, R25, R26, R114, R121: one rounding. The subnormal words of a narrowing are log entry 58. EXP2 and LOG2 are said to
within half a unit in the last place and a share of 2^-100 or 2^-80 of the value. -/
def Obligations.BinaryArithmeticRoundsToNearestEven : Prop :=
  (∀ n e : Int, let r := rnd n e; let neg := n < 0
    (n = 0 → r = (0, 0)) ∧
    (n ≠ 0 → (r.2 = 0 ∨ r.2 = 8 ∨ r.2 = 4) ∧
      (r.2 = 0 → finite r.1 ∧ ∀ v, finite v → dist n e r.1 ≤ dist n e v ∧ (dist n e v = dist n e r.1 → v ≠ r.1 → r.1.getLsbD 0 = false)) ∧
      (r.2 = 8 → r.1 = (if neg then 0x80000000 else 0) ∧ n.natAbs * 2 ^ (e + 126).toNat < 2 ^ (-126 - e).toNat) ∧
      (r.2 = 4 → r.1 = (if neg then 0xFF800000 else 0x7F800000)) ∧
      (r.2 = 4 ↔ (2 ^ 25 - 1) * 2 ^ (103 - e).toNat ≤ n.natAbs * 2 ^ (e - 103).toNat))) ∧
  (∀ a b : Word, (isNan a ∨ isNan b →
      let q : Word := (if isNan a then a else b) ||| 0x00400000; let f : BitVec 5 := if isSnan a || isSnan b then 1 else 0
      fadd a b = (q, f) ∧ fsub a b = (q, f) ∧ fmul a b = (q, f) ∧ fmin a b = (q, f) ∧ fmax a b = (q, f)) ∧
    (isNan a = false → isNan b = false → let r := fmin a b; let q := fmax a b
      (r = (flushed a, 0) ∨ r = (flushed b, 0)) ∧ (q = (flushed a, 0) ∨ q = (flushed b, 0)) ∧
      (a = 0xFF800000 → r.1 = a ∧ q.1 = flushed b) ∧ (b = 0xFF800000 → r.1 = b ∧ q.1 = flushed a) ∧
      (a = 0x7F800000 → r.1 = flushed b ∧ q.1 = a) ∧ (b = 0x7F800000 → r.1 = flushed a ∧ q.1 = b) ∧
      (finite a → finite b → (val r.1 ≤ val a ∧ val r.1 ≤ val b ∧ val a ≤ val q.1 ∧ val b ≤ val q.1) ∧
        (val a = 0 → val b = 0 → signOf r.1 = (signOf a || signOf b) ∧ signOf q.1 = (signOf a && signOf b)))) ∧
    (finite a → finite b → (val a + val b ≠ 0 → fadd a b = rnd (val a + val b) (-149)) ∧
      (val a + val b = 0 → fadd a b = (if signOf a && signOf b then 0x80000000 else 0, 0)) ∧
      (val a * val b ≠ 0 → fmul a b = rnd (val a * val b) (-298)) ∧
      (val a * val b = 0 → fmul a b = (if signOf a != signOf b then 0x80000000 else 0, 0)) ∧
      fsub a b = fadd a (b ^^^ 0x80000000) ∧
      (∀ c negP negC, finite c → let x := (if negP then -(val a * val b) else val a * val b) + (if negC then -val c else val c) * 2 ^ 149
        (x ≠ 0 → ffma negP negC a b c = rnd x (-298)) ∧
        (x = 0 → ffma negP negC a b c =
          (if ((signOf a != signOf b) != negP) && (signOf c != negC) then 0x80000000 else 0, 0)))) ∧
    (isInf a → isInf b → fadd a b = (if signOf a = signOf b then (a, 0) else (0x7FC00000, 1))) ∧
    (isInf a → isZero b → fmul a b = (0x7FC00000, 1) ∧ fmul b a = (0x7FC00000, 1)) ∧
    (isInf a → finite b → fadd a b = (a, 0) ∧ fadd b a = (a, 0))) ∧
  (∀ a : Word, isNan a = false →
    (isZero a → fexp2 a = (0x3F800000, 0) ∧ flog2 a = (0xFF800000, 2) ∧ frcp a = (if signOf a then 0xFF800000 else 0x7F800000, 2) ∧
      frsq a = (if signOf a then 0xFF800000 else 0x7F800000, 2) ∧ fsqrt a = (a &&& 0x80000000, 0)) ∧
    (isZero a = false → signOf a = true → flog2 a = (0x7FC00000, 1) ∧ frsq a = (0x7FC00000, 1) ∧ fsqrt a = (0x7FC00000, 1)) ∧
    (isInf a → frcp a = (if signOf a then 0x80000000 else 0, 0) ∧ fexp2 a = (if signOf a then 0 else 0x7F800000, 0)) ∧
    (isInf a → signOf a = false → flog2 a = (a, 0) ∧ frsq a = (0, 0) ∧ fsqrt a = (a, 0)) ∧
    (∀ i : Int, -126 ≤ i → i ≤ 127 → finite a → val a = i * 2 ^ 149 →
      fexp2 a = (BitVec.ofNat 32 ((i + 127).toNat * 2 ^ 23), 0)) ∧
    (∀ i : Int, a = BitVec.ofNat 32 ((i + 127).toNat * 2 ^ 23) → -126 ≤ i → i ≤ 127 → flog2 a = rnd i 0) ∧
    (finite a → isZero a = false → let r := frcp a; let off (v : Word) : Nat := (val v * val a - 2 ^ 298).natAbs
      (2 ^ 275 < (val a).natAbs → r = (if signOf a then 0x80000000 else 0, 8)) ∧
      ((val a).natAbs ≤ 2 ^ 275 → r.2 = 0 ∧ finite r.1 ∧ ∀ v, finite v →
        off r.1 ≤ off v ∧ (off v = off r.1 → v ≠ r.1 → r.1.getLsbD 0 = false))) ∧
    (finite a → isZero a = false → signOf a = false → let w := (frsq a).1
      finite w ∧ signOf w = false ∧ (frsq a).2 = 0 ∧ ∀ v : Word, finite v → isZero v = false → signOf v = false → v ≠ w →
        (v.toNat < w.toNat → (val v + val w) ^ 2 * val a < 2 ^ 449) ∧ (w.toNat < v.toNat → 2 ^ 449 < (val v + val w) ^ 2 * val a)) ∧
    (finite a → isZero a = false → let r := fexp2 a; let x : ℝ := (val a : ℝ) / 2 ^ 149
      (128 ≤ x → r = (0x7F800000, 4)) ∧ (x < -126 → r = (0, 8)) ∧
      (-126 ≤ x → x < 128 → r.2 = 0 ∧ finite r.1 ∧ |(val r.1 : ℝ) / 2 ^ 149 - (2 : ℝ) ^ x| ≤ (2 : ℝ) ^ x * (1 / 2 ^ 24 + 1 / 2 ^ 100))) ∧
    (finite a → isZero a = false → signOf a = false → let r := flog2 a; let y := Real.logb 2 ((val a : ℝ) / 2 ^ 149)
      r.2 = 0 ∧ finite r.1 ∧ |(val r.1 : ℝ) / 2 ^ 149 - y| ≤ |y| * (1 / 2 ^ 24 + 1 / 2 ^ 80)) ∧
    (finite a → let r := fToInt a; let n : Int := r.1.toInt
      (2 ^ 180 ≤ val a → r = (0x7FFFFFFF, 1)) ∧ (val a < -2 ^ 180 → r = (0x80000000, 1)) ∧
      (-2 ^ 180 ≤ val a → val a < 2 ^ 180 → r.2 = 0 ∧ 2 * (val a - n * 2 ^ 149).natAbs ≤ 2 ^ 149 ∧
        (2 * (val a - n * 2 ^ 149).natAbs = 2 ^ 149 → n % 2 = 0))) ∧
    (isInf a → fToInt a = (if signOf a then 0x80000000 else 0x7FFFFFFF, 1)) ∧
    (finite a → isZero a = false → signOf a = false → let w := (fsqrt a).1
      finite w ∧ signOf w = false ∧ (fsqrt a).2 = 0 ∧ ∀ v : Word, finite v → isZero v = false → signOf v = false → v ≠ w →
        (v.toNat < w.toNat → ((val v + val w) ^ 2 < 4 * val a * 2 ^ 149)) ∧ (w.toNat < v.toNat → 4 * val a * 2 ^ 149 < (val v + val w) ^ 2))) ∧
  (∀ a : Word, isNan a → fToInt a = (0, 1)) ∧
  (∀ w : Word, let r := bfNarrow w; let s := if signOf w then 2 ^ 15 else 0; let f := w.toNat % 2 ^ 23
    (isNan w → r = (s + 0x7FC0 + f / 2 ^ 16 % 2 ^ 6, if isSnan w then 1 else 0)) ∧
    (isInf w → r = (s + 0x7F80, 0)) ∧
    (isZero w → r = (if f = 0 then (s, 0) else if f < 2 ^ 23 - 2 ^ 14 then (s, 8) else (s + 0x80, 0))) ∧
    (finite w → isZero w = false → (r.2 = 0 ∨ r.2 = 4) ∧ (r.2 = 4 → r.1 = s + 0x7F80 ∧ 0x7F7F8000 ≤ w.toNat % 2 ^ 31) ∧
      (r.2 = 0 → finite (widen r.1) ∧ ∀ h, h < 2 ^ 16 → finite (widen h) →
        (val w - val (widen r.1)).natAbs ≤ (val w - val (widen h)).natAbs)))

/-- R114 to R123: the wide instructions. -/
def Obligations.WideInstructionsGiveTheirLanes : Prop :=
  (∀ e ∈ r114two, TwoToOneF .w .w Cls.w.dst readW readW writeW e.1 (fun a b => lanesFrom (fun l => e.2 a[l] b[l]))) ∧
  (∀ e ∈ r116one, OneToOneF .w Cls.w.dst readW writeW e.1 (fun a => lanesFrom (fun l => e.2 a[l]))) ∧
  (∀ e ∈ r122three, ThreeToOne .w readW readW readW writeW e.1 (fun a b d => .ok (lanesFrom (fun l => e.2 a[l] b[l] d[l]))) Work.flags) ∧
  (∀ e ∈ r117, TwoToOneF .w .w Cls.m.dst readW readW writeM e.1 (fun a b =>
    (BitVec.ofNat 24 ((List.finRange 24).map (fun l =>
      if !isNan a[l] && !isNan b[l] && e.2.1 (orderKey a[l]) (orderKey b[l]) then 2 ^ l.val else 0)).sum,
     orAll (fun l => if e.2.2 a[l] || e.2.2 b[l] then 1 else 0)))) ∧
  (∀ a b : Word, finite a → finite b → (orderKey a < orderKey b ↔ val a < val b) ∧ (orderKey a = orderKey b ↔ val a = val b)) ∧
  (∀ e ∈ r118, OneToOneF .w Cls.w.dst readW writeW e.1 (fun a =>
    let f (v : Word) : Word := if isZero v then v &&& 0x80000000 else v
    let r := r118go e.2 (if isNan a[0] then a[0] ||| 0x00400000 else f a[0], 0) ((a.toList.drop 1).map f)
    (Vector.replicate 24 r.1, r.2 ||| orAll (fun l => if isSnan a[l] then 1 else 0)))) ∧
  OneToOne .x .w readX writeW .wbcst (fun x => Vector.replicate 24 (x.setWidth 32)) ∧
  TwoToOne .w .w .w readW readW writeW .wshuf (fun a b => Vector.ofFn (fun l => a.toList.getD b[l].toNat 0)) ∧
  (∀ (s : State) (rd : WOp) (ra rb : XOp) (pg : Pg) (x n : DWord) (o : Wide) (w1 w2 w3 : Work), On s pg →
    readX (work s) 0 ra = .ok (x, w1) → readX w1 1 rb = .ok (n, w2) → readW w2 2 rd = .ok (o, w3) →
    (24 ≤ n.toNat → exec (.wins rd ra rb pg) s = stops s (.trap (trapOf .bounds n 24))) ∧
    (∀ m : Fin 24, n.toNat = m.val → (∀ k, writeW w3 rd (o.set m (x.setWidth 32)) = .ok k → exec (.wins rd ra rb pg) s = retires k s 4) ∧
      (∀ e, writeW w3 rd (o.set m (x.setWidth 32)) = .error e → exec (.wins rd ra rb pg) s = stops s e))) ∧
  (∀ (s : State) (rd : XOp) (ra : WOp) (rb : XOp) (pg : Pg) (a : Wide) (n : DWord) (w1 w2 : Work), On s pg →
    readW (work s) 0 ra = .ok (a, w1) → readX w1 1 rb = .ok (n, w2) → Looked s (.wext rd ra rb pg) [Cls.w.src ra, Cls.x.src rb, Cls.x.dst rd]
    ((24 ≤ n.toNat → exec (.wext rd ra rb pg) s = stops s (.trap (trapOf .bounds n 24))) ∧
    (∀ m : Fin 24, n.toNat = m.val → (∀ k, writeX w2 rd (a[m].setWidth 64) = .ok k → exec (.wext rd ra rb pg) s = retires k s 4) ∧
      (∀ e, writeX w2 rd (a[m].setWidth 64) = .error e → exec (.wext rd ra rb pg) s = stops s e)))) ∧
  ThreeToOne .m readW readW readM writeW .wsel
    (fun a b m => .ok (Vector.ofFn (fun l => if m.getLsbD l.val then a[l] else b[l]), 0)) noFlags

/-- The frame of atom and wide instructions. -/
def Obligations.AtomAndWideInstructionsChangeOnlyTheirDestination : Prop :=
  ∀ (i : Instr) (d : WDest) (s t : State), wideDest i = some d → exec i s = .next t → Completed s t →
    let g := s.hart s.cur; let h := t.hart s.cur
    SameBytes s t ∧ SameOthers s t ∧ SameSpecial g h ∧ h.p = g.p ∧ h.fps ||| g.fps = h.fps ∧
    (∀ r : Fin 24, (∀ r', d = .x (.reg r') → r' ≠ r) → h.x[r] = g.x[r]) ∧
    (∀ r : Fin 24, (∀ r', (d = .a (.reg r') ∨ ∃ t, d = .aTl (.reg r') t) → r' ≠ r) → h.a[r] = g.a[r]) ∧
    (∀ r : Fin 24, (∀ r', d = .w (.reg r') → r' ≠ r) → h.w[r] = g.w[r]) ∧
    (∀ r : Fin 8, (∀ r', d = .m (.reg r') → r' ≠ r) → h.m[r] = g.m[r]) ∧
    (∀ r : Fin 4, (∀ r' a, d = .aTl a (.reg r') → r' ≠ r) → h.tl[r] = g.tl[r]) ∧
    (moves i = true → h.fps = g.fps)
/-! ### The pulse array -/

namespace Sys2Proof.Claim
open Sys2Proof Sys2Proof.Machine

/-- Bytes of a block of a format. -/
def bsize (a32 : Bool) : Nat := if a32 then 20 else 10

/-- A range an operation names is empty, or aligned and within the cell store (R128). -/
def InStore (v n al : Nat) : Prop := n = 0 ∨ (v % al = 0 ∧ v + n ≤ 0x80000)

/-- The number that n bytes of a cell's store hold. -/
def storeNum (s : State) (p o n : Nat) : Nat := numAt s (fun i => .store p (o + i)) n

/-- The registers that no instruction of the array writes, but those in which a value is returned. -/
def SameFiles (s t : State) : Prop :=
  let g := s.hart s.cur; let h := t.hart s.cur
  h.x = g.x ∧ h.p = g.p ∧ h.a = g.a ∧ h.w = g.w ∧ h.m = g.m ∧ h.tl = g.tl ∧ h.fps = g.fps ∧ SameSpecial g h

/-- A class with a place, and no operation of another class on the tile where that would race (R135, R136). -/
def MayEnter (s : State) (p : Nat) (c tile cls : Fin 4) : Prop :=
  ((s.cell p).ops.filter (fun o => o.cls = cls)).length < 4 ∧
  ((s.hart (.ctx p c)).dmode.getLsbD 0 = false ∨ ∀ o ∈ (s.cell p).ops, o.tile = tile → o.cls = cls)

/-- An operation has entered its class queue with the next tag, the instruction has retired, and nothing else has
changed: no byte, no tile, no register, no flag. -/
def Enters (s t : State) (p : Nat) (c tile cls : Fin 4) (f : PulseOp → Prop) : Prop :=
  Retired s t 4 ∧ SameBytes s t ∧ SameOthers s t ∧ SameFiles s t ∧ (t.cell p).acc = (s.cell p).acc ∧
  (t.cell p).nextTag = (s.cell p).nextTag + 1 ∧ ∃ o, (t.cell p).ops = (s.cell p).ops ++ [o] ∧ o.tag = (s.cell p).nextTag ∧
    o.ctx = c ∧ o.tile = tile ∧ o.cls = cls ∧ o.running = false ∧ o.passed = 0 ∧ o.result = none ∧ f o

/-- Whether an instruction of the array that enters an operation may not: it holds or races. -/
def Barred (s : State) (p : Nat) (c tile cls : Fin 4) (i : Instr) : Prop :=
  (((s.cell p).ops.filter (fun o => o.cls = cls)).length = 4 → exec i s = stops s (.hold .array)) ∧
  (((s.cell p).ops.filter (fun o => o.cls = cls)).length < 4 → (s.hart (.ctx p c)).dmode.getLsbD 0 = true →
    ∀ o r, (s.cell p).ops.filter (fun o => o.tile = tile) = o :: r → o.cls ≠ cls →
      exec i s = stops s (.trap (trapOf .race (BitVec.ofNat 64 (tile.val + 4 * cls.val)) (o.tag.setWidth 64))))

/-- The three operands of mma, mmacsr and mmag. -/
def Reads3 (s : State) (ra rb rc : XOp) (a b k : DWord) (w : Work) : Prop :=
  ∃ w1 w2, readX (work s) 0 ra = .ok (a, w1) ∧ readX w1 1 rb = .ok (b, w2) ∧ readX w2 2 rc = .ok (k, w)

def mmaDenses : List ((Fin 4 → Fin 4 → XOp → XOp → XOp → Pg → Instr) × Bool × Bool) := [
  (.mmaA4a4, false, false), (.mmaA4a32, false, true), (.mmaA32a32, true, true)]

/-- The ceiling that a refill of this cycle takes: a change of MCEIL acts from the next cycle on (R417). -/
def ceilingOf (s : State) : Nat := if s.power.mceilAt = s.cycle + 1 then s.power.mceilOld else s.power.mceil

/-- Group counts and panels of an mmag descriptor at d (R144). -/
def r144Panels (s : State) (p d : Nat) : List Panel :=
  (List.range 8).filterMap (fun g =>
    let cnt (i : Nat) := storeNum s p (d + 8 + i) 1
    if cnt g = 0 then none else some ⟨((List.range g).map cnt).sum, cnt g, storeNum s p (d + 16 + 4 * g) 4⟩)

end Sys2Proof.Claim

/-- R128 to R146: operations at issue. -/
def Obligations.PulseOperationsEnterTheirClassQueue : Prop :=
  (∀ e ∈ mmaDenses, ∀ (s : State) (p : Nat) (c tile cls : Fin 4) (ra rb rc : XOp) (pg : Pg) (a b k : DWord) (w : Work),
    s.cur = .ctx p c → On s pg → Reads3 s ra rb rc a b k w → let i := e.1 tile cls ra rb rc pg; let n := k.toNat
    let na := n * 48 * bsize e.2.1; let nb := n * 24 * bsize e.2.2
    (256 < n → exec i s = stops s (.trap (trapOf .bounds k 256))) ∧
    (n ≤ 256 → 0 < n → a.toNat % 2 ≠ 0 → exec i s = stops s (.trap (trapOf .align a 2))) ∧
    (n ≤ 256 → 0 < n → a.toNat % 2 = 0 → 0x80000 < a.toNat + na → exec i s = stops s (.trap (trapOf .bounds a 0x80000))) ∧
    (n ≤ 256 → InStore a.toNat na 2 → InStore b.toNat nb 2 → ((s.hart s.cur).dmode ≠ 3 ∨ n = 0) →
      Barred s p c tile cls i ∧
      (MayEnter s p c tile cls → ∃ t, exec i s = .next t ∧ Enters s t p c tile cls (fun o => o.form = .dense e.2.1 e.2.2 ∧
        o.a0 = a.toNat ∧ o.panels = [⟨0, 48, b.toNat⟩] ∧ o.kb = n ∧ o.est = 432 * n ∧
        o.ranges = if n = 0 then [] else [(a.toNat, na), (b.toNat, nb)]))) ∧
    (n ≤ 256 → 0 < n → InStore a.toNat na 2 → InStore b.toNat nb 2 → (s.hart s.cur).dmode = 3 → ∀ j raw r,
      ra = .reg r → (⟨BitVec.ofNat 160 (storeNum s p a.toNat (bsize e.2.1)), e.2.1⟩ : Block).malformed = some (j, raw) →
      exec i s = stops s (.trap (trapOf .malatom (BitVec.ofNat 64 (j + 8 * r.val)) (BitVec.ofNat 64 raw))))) ∧
  (∀ e ∈ [(Instr.mmacsrA4, false), (.mmacsrA32, true)],
    ∀ (s : State) (p : Nat) (c tile cls : Fin 4) (ra rb rc : XOp) (pg : Pg) (a b k : DWord) (w : Work),
    s.cur = .ctx p c → On s pg → Reads3 s ra rb rc a b k w → let i := e.1 tile cls ra rb rc pg; let n := k.toNat; let d := b.toNat
    let rp := storeNum s p d 4; let ci := storeNum s p (d + 4) 4; let bv := storeNum s p (d + 8) 4
    let ptr (k : Nat) := storeNum s p (rp + 4 * k) 4; let col (e : Nat) := storeNum s p (ci + e) 1
    n ≤ 256 → d % 8 = 0 → d + 32 ≤ 0x80000 → (∀ x, x < 0x80000 → s.isBad (.store p x) = false) →
    (∀ x, x < 20 → storeNum s p (d + 12 + x) 1 ≠ 0 → (∀ y, y < x → storeNum s p (d + 12 + y) 1 = 0) →
      exec i s = stops s (.trap (trapOf .bounds (BitVec.ofNat 64 (d + 12 + x)) (BitVec.ofNat 64 (storeNum s p (d + 12 + x) 1))))) ∧
    ((∀ x, x < 20 → storeNum s p (d + 12 + x) 1 = 0) →
      (ptr 0 ≠ 0 → rp < 0x80000 → exec i s = stops s (.trap (trapOf .bounds (BitVec.ofNat 64 rp) (BitVec.ofNat 64 (ptr 0))))) ∧
      (ptr 0 = 0 → (∀ k, k < n → ptr k ≤ ptr (k + 1)) → ptr n ≤ 24 * n →
        (∀ k x, k < n → ptr k ≤ x → x < ptr (k + 1) → col x < 24 ∧ (x + 1 < ptr (k + 1) → col x < col (x + 1))) →
        (n = 0 ∨ InStore a.toNat (n * 48 * bsize e.2) 2 ∧ InStore rp (4 * (n + 1)) 4 ∧ InStore ci (ptr n) 1 ∧
          InStore bv (ptr n * bsize e.2) 2) → (s.hart s.cur).dmode ≠ 3 →
        Barred s p c tile cls i ∧
        (MayEnter s p c tile cls → ∃ t, exec i s = .next t ∧ Enters s t p c tile cls (fun o =>
          o.form = .csr e.2 ((List.range n).map (fun k => (List.range (ptr (k + 1) - ptr k)).map (fun x =>
            (col (ptr k + x), bv + (ptr k + x) * bsize e.2)))) ∧ o.a0 = a.toNat ∧ o.kb = n ∧
          o.est = 288 * (List.range n).countP (fun k => ptr k < ptr (k + 1)) + 6 * ptr n))))) ∧
  (∀ e ∈ [(Instr.mmagA4, false), (.mmagA32, true)],
    ∀ (s : State) (p : Nat) (c tile cls : Fin 4) (ra rb rc : XOp) (pg : Pg) (a b k : DWord) (w : Work),
    s.cur = .ctx p c → On s pg → Reads3 s ra rb rc a b k w → let i := e.1 tile cls ra rb rc pg; let n := k.toNat; let d := b.toNat
    let g := storeNum s p d 1; let cnt (i : Nat) := storeNum s p (d + 8 + i) 1; let sum := ((List.range 8).map cnt).sum
    let zero (o : Nat) := storeNum s p (d + o) 1 = 0
    let legal := 1 ≤ g ∧ g ≤ 8 ∧ sum ≤ 48 ∧ (∀ o, 1 ≤ o → o < 8 → zero o) ∧ (∀ o, 48 ≤ o → o < 64 → zero o) ∧
      (∀ i, g ≤ i → i < 8 → cnt i = 0 ∧ storeNum s p (d + 16 + 4 * i) 4 = 0)
    n ≤ 256 → d % 8 = 0 → d + 64 ≤ 0x80000 → (∀ x, x < 0x80000 → s.isBad (.store p x) = false) →
    (¬ legal → exec i s = stops s (.trap (trapOf .ragged (BitVec.ofNat 64 sum) (BitVec.ofNat 64 g)))) ∧
    (legal → InStore a.toNat (n * 48 * bsize e.2) 2 → (∀ q ∈ r144Panels s p d, InStore q.base (n * 24 * bsize e.2) 2) →
      (s.hart s.cur).dmode ≠ 3 → Barred s p c tile cls i ∧
      (MayEnter s p c tile cls → ∃ t, exec i s = .next t ∧ Enters s t p c tile cls (fun o => o.form = .groups e.2 ∧ o.a0 = a.toNat ∧
        o.panels = r144Panels s p d ∧ o.kb = n ∧ o.est = n * ((r144Panels s p d).map (fun q => 6 * q.count + 144)).sum)))) ∧
  (∀ (s : State) (p : Nat) (c tile cls : Fin 4) (pg : Pg), s.cur = .ctx p c → On s pg →
    Barred s p c tile cls (.mzero tile cls pg) ∧
    (MayEnter s p c tile cls → ∃ t, exec (.mzero tile cls pg) s = .next t ∧ Enters s t p c tile cls (fun o =>
      o.form = .zero ∧ o.kb = 0 ∧ o.est = 0 ∧ o.ranges = [])))

/-- R138, R139, R147, R148, R156. What a misaligned stride of mst raises, and when, is log entry 64. -/
def Obligations.DirectTileAccessesAndControlActAtIssue : Prop :=
  (∀ (s : State) (p : Nat) (c tile cls : Fin 4) (rb : XOp) (pg : Pg) (r : DWord), s.cur = .ctx p c → On s pg → (s.cell p).lost = [] →
    let busy (o : PulseOp) : Stop := .trap (trapOf .accbusy (BitVec.ofNat 64 tile.val) (o.tag.setWidth 64))
    let ops := (s.cell p).ops.filter (fun o => o.tile = tile)
    (∀ (rd : WOp) (w : Work), readX (work s) 0 rb = .ok (r, w) → dstOk w .w rd = .ok () → let i := Instr.mrd rd tile cls rb pg
      (48 ≤ r.toNat → exec i s = stops s (.trap (trapOf .bounds r 48))) ∧
      (r.toNat < 48 → (∀ o l, ops = o :: l → exec i s = stops s (busy o)) ∧
        (ops = [] → tile ∉ (s.cell p).badTiles →
          let row : Wide := Vector.ofFn (fun j => tget (s.cell p).acc[tile] (24 * r.toNat + j.val) 0)
          (∀ k, writeW w rd row = .ok k → exec i s = retires (k.modHart (fun h => { h with fps := w.hart.fps })) s 4) ∧
          (∀ e, writeW w rd row = .error e → exec i s = stops s e)))) ∧
    (∀ (ra : WOp) (v : Wide) (w1 w2 : Work), readW (work s) 0 ra = .ok (v, w1) → readX w1 1 rb = .ok (r, w2) →
      let i := Instr.mwr tile cls ra rb pg
      (48 ≤ r.toNat → exec i s = stops s (.trap (trapOf .bounds r 48))) ∧
      (r.toNat < 48 → (∀ o l, ops = o :: l → exec i s = stops s (busy o)) ∧
        (ops = [] → ∃ t, exec i s = .next t ∧ Retired s t 4 ∧ SameFiles s t ∧ SameBytes s t ∧ SameOthers s t ∧
          (∀ m, m < 1152 → tget (t.cell p).acc[tile] m 0 =
            if m / 24 = r.toNat then v.toList.getD (m % 24) 0 else tget (s.cell p).acc[tile] m 0) ∧
          ∀ u : Fin 4, u ≠ tile → (t.cell p).acc[u] = (s.cell p).acc[u])))) ∧
  (∀ e ∈ [(Instr.mstF32, 96, 4, (fun v : Wide => (laneBytes 4 (fun l => v[l].toNat), (0 : BitVec 5)))),
      (.mstA4, 10, 2, fun v => (bytesOf 10 (searchWide v.toList false).1.bits.toNat, (searchWide v.toList false).2)),
      (.mstA32, 20, 2, fun v => (bytesOf 20 (searchWide v.toList true).1.bits.toNat, (searchWide v.toList true).2))],
    ∀ (s : State) (p : Nat) (c tile cls : Fin 4) (ra rb : XOp) (pg : Pg) (a st : DWord) (w1 w2 : Work), s.cur = .ctx p c → On s pg →
    (s.cell p).lost = [] → readX (work s) 0 ra = .ok (a, w1) → readX w1 1 rb = .ok (st, w2) → let i := e.1 tile cls ra rb pg
    let n := e.2.1; let al := e.2.2.1
    (a.toNat % al ≠ 0 → exec i s = stops s (.trap (trapOf .align a (BitVec.ofNat 64 al)))) ∧
    (a.toNat % al = 0 → st.toNat % al ≠ 0 → exec i s = stops s (.trap (trapOf .align st (BitVec.ofNat 64 al)))) ∧
    (a.toNat % al = 0 → st.toNat % al = 0 →
      (0x80000 < a.toNat + 47 * st.toNat + n → exec i s = stops s (.trap (trapOf .bounds a 0x80000))) ∧
      (a.toNat + 47 * st.toNat + n ≤ 0x80000 →
        (st.toNat < n → exec i s = stops s (.trap (trapOf .bounds st (BitVec.ofNat 64 n)))) ∧
        (n ≤ st.toNat →
          (∀ o l, (s.cell p).ops.filter (fun o => o.tile = tile) = o :: l →
            exec i s = stops s (.trap (trapOf .accbusy (BitVec.ofNat 64 tile.val) (o.tag.setWidth 64)))) ∧
          ((∀ o ∈ (s.cell p).ops, o.tile ≠ tile) → tile ∉ (s.cell p).badTiles → (s.hart s.cur).dmode.getLsbD 0 = false →
            let row (r : Nat) := e.2.2.2 (Vector.ofFn (fun j => tget (s.cell p).acc[tile] (24 * r + j.val) 0))
            ∃ t m, exec i s = .next t ∧ Retired s t 4 ∧ SameFiles s t ∧ SameBytes s t ∧ SameOthers s t ∧
              (t.cell p).acc = (s.cell p).acc ∧ (t.cell p).msts = (s.cell p).msts ++ [m] ∧ m.tile = tile ∧ m.cls = cls ∧ m.ctx = c ∧
              m.rows = (List.range 48).map (fun r => (a.toNat + r * st.toNat, (row r).1)) ∧
              m.flags = (List.range 48).foldl (fun f r => f ||| (row r).2) 0))))) ∧
  (∀ (s : State) (p : Nat) (c cls : Fin 4) (pg : Pg), s.cur = .ctx p c → On s pg → (s.cell p).lost = [] →
    (∀ n, (s.hart s.cur).hold ≠ some (.mwait n)) → (∀ o ∈ (s.cell p).ops, o.ord < (s.cell p).ord) →
    (∀ m ∈ (s.cell p).msts, m.ord < (s.cell p).ord) →
    let done := (∀ o ∈ (s.cell p).ops, o.cls ≠ cls) ∧ ∀ m ∈ (s.cell p).msts, m.cls ≠ cls
    (done → exec (.mwait cls pg) s = .next (s.retireBy s.cur 4)) ∧
    (¬ done → exec (.mwait cls pg) s = stops s (.hold (.mwait (s.cell p).ord)))) ∧
  (∀ (s : State) (p : Nat) (c : Fin 4) (ra : XOp) (pg : Pg) (v : DWord) (w : Work), s.cur = .ctx p c → On s pg →
    readX (work s) 0 ra = .ok (v, w) → ∃ t, exec (.mbudget ra pg) s = .next t ∧ Retired s t 4 ∧ SameFiles s t ∧ SameBytes s t ∧
      let b := max 432 (min v.toNat 65535)
      (t.cell p).bcap = b ∧ (t.cell p).budget = min (s.cell p).budget b ∧ (t.cell p).ops = (s.cell p).ops) ∧
  (∀ (s : State) (p : Nat) (c : Fin 4) (rd : XOp) (pg : Pg), s.cur = .ctx p c → On s pg → let v := csrRead s s.cur 0x061
    (∀ w, writeX (work s) rd v = .ok w → exec (.mstat rd pg) s = retires w s 4) ∧
    (∀ e, writeX (work s) rd v = .error e → exec (.mstat rd pg) s = stops s e))

/-- R29, R130, R148, R150, R152, R417: the array at work. That an accumulator NaN keeps its bits is log entry 27; that an event
whose condition fails changes nothing is 12. -/
def Obligations.ArrayStepsAccumulateAndComplete : Prop :=
  (∀ (c : Word) (ts : List (Nat × Option Int)), let f : Word := if isZero c then c &&& 0x80000000 else c
    (∀ l k r, ts = l ++ (k, none) :: r → (∀ t ∈ l, t.2 ≠ none) →
      groupSum c ts = (if isNan c then c else BitVec.ofNat 32 (0x7FC00000 + k % 2 ^ 22), 1)) ∧
    ((∀ t ∈ ts, t.2 ≠ none) → ((isNan c ∨ isInf c) → groupSum c ts = (c, 0)) ∧
      (finite c → let ops := (val c * 2 ^ 105) :: ts.filterMap (·.2)
        ((∀ v ∈ ops, v = 0) → groupSum c ts = (f, 0)) ∧
        (∀ emax, (∃ v ∈ ops, v ≠ 0 ∧ Nat.log2 v.natAbs = emax) → (∀ v ∈ ops, v ≠ 0 → Nat.log2 v.natAbs ≤ emax) →
          groupSum c ts = rnd ((ops.map (fun v => v * 2 ^ 38 / 2 ^ emax)).sum) (emax - 292))))) ∧
  groupSum 0 [(0, some (2 ^ 294)), (1, some (-3 * 2 ^ 253)), (2, some (-2 ^ 294)), (3, some (2 ^ 224))] = (0xC0800000, 0) ∧
  (∀ (s : State) (p : Nat) (o : PulseOp), let x := s.cell p; o ∈ x.heads → (∀ q ∈ x.ops, q.running = false) →
    (x.ops.map (·.ord)).Nodup →
    ((16 ≤ o.passed ∧ ∀ q ∈ x.heads, 16 ≤ q.passed → o.cls.val ≤ q.cls.val) ∨
      (∀ q ∈ x.heads, q.passed < 16 ∧ (o.est < q.est ∨ o.est = q.est ∧ o.cls.val ≤ q.cls.val))) →
    ∃ t, exec (.operationStart p) s = .next t ∧ SameBytes s t ∧ (∀ a, t.hart a = s.hart a) ∧ (t.cell p).acc = x.acc ∧
      (∃ o' ∈ (t.cell p).ops, o'.ord = o.ord ∧ o'.running = true ∧ o'.tag = o.tag) ∧
      (∀ q ∈ x.heads, q.ord ≠ o.ord → { q with passed := q.passed + 1 } ∈ (t.cell p).ops) ∧
      (∀ q ∈ x.ops, q ∉ x.heads → q ∈ (t.cell p).ops)) ∧
  (∀ (s : State) (p : Nat) (o : PulseOp) (pre post : List PulseOp) (a b : Bool) (q : Panel) (base : Nat), let x := s.cell p
    x.ops = pre ++ o :: post → o.running = true → (∀ r ∈ pre, r.running = false) → (x.ops.map (·.ord)).Nodup → o.form = .dense a b →
    q = ⟨0, 48, base⟩ → o.panels = [q] → o.group = 0 → o.nextK + 1 < o.kb → o.readyAt ≤ s.cycle →
    (∀ i, i < 0x80000 → s.isBad (.store p i) = false) → o.a0 + o.kb * 48 * bsize a ≤ 0x80000 → base + o.kb * 24 * bsize b ≤ 0x80000 →
    let blk (f : Bool) (v : Nat) : Block := ⟨BitVec.ofNat 160 (storeNum s p v (bsize f)), f⟩
    let abl := (List.range 48).map (fun i => blk a (o.a0 + (o.nextK * 48 + i) * bsize a))
    let bbl := (List.range 24).map (fun j => blk b (base + (o.nextK * 24 + j) * bsize b))
    let charge := ((abl ++ bbl).map Block.charge).sum
    let due := s.cycle + (if a then 4 else if b then 2 else 1)
    let lvl := if x.lastRefill = s.cycle + 1 then x.budget else min x.bcap (x.budget + max 108 (min x.mbud.toNat (ceilingOf s)))
    (x.lastStart = s.cycle + 1 → ∃ t, exec (.kBlockStart p) s = .next t ∧ (t.cell p).budget = lvl ∧ SameBytes s t ∧
      (t.cell p).ops = x.ops ∧ (t.cell p).acc = x.acc ∧ (t.cell p).stalls = x.stalls) ∧
    (x.lastStart ≠ s.cycle + 1 → lvl < charge → (∃ t, exec (.kBlockStart p) s = .next t ∧ (t.cell p).budget = lvl ∧ SameBytes s t ∧ (t.cell p).acc = x.acc ∧
      (t.cell p).ops = x.ops ∧ (t.cell p).stalls = x.stalls) ∧
      ((s.startBlock p true).cell p).stalls = min (x.stalls + 1) 65535) ∧
    (x.lastStart ≠ s.cycle + 1 → charge ≤ lvl → ∃ t, exec (.kBlockStart p) s = .next t ∧ (t.cell p).budget = lvl - charge ∧
      (t.cell p).lastStart = s.cycle + 1 ∧ SameBytes s t ∧
      (t.cell p).acc = x.acc ∧ (∀ b, t.hart b = s.hart b) ∧
      (t.cell p).ops = pre ++ { o with nextK := o.nextK + 1, read := o.read ++ [(o.nextK, abl, bbl)], readyAt := due } :: post)) ∧
  (∀ (s : State) (p : Nat) (o : PulseOp) (pre post : List PulseOp) (tl : Tile) (f : BitVec 5), let x := s.cell p
    x.ops = pre ++ o :: post → o.running = true → (∀ r ∈ pre, r.running = false) → (x.ops.map (·.ord)).Nodup →
    o.panels.length ≤ o.group → o.result = some (tl, f) →
    ∃ t, exec (.operationComplete p) s = .next t ∧ (t.cell p).ops = pre ++ post ∧ (t.cell p).acc = x.acc.set o.tile tl ∧ SameBytes s t ∧
      (t.hart (.ctx p o.ctx)).fps = (s.hart (.ctx p o.ctx)).fps ||| f ∧ (t.hart (.ctx p o.ctx)).x = (s.hart (.ctx p o.ctx)).x ∧
      ∀ b, b ≠ .ctx p o.ctx → t.hart b = s.hart b) ∧
  (∀ (s : State) (p : Nat) (m : MstOp) (l : List MstOp), (s.cell p).msts = m :: l → (s.cell p).ops = [] → m.rows ≠ [] →
    (∀ o n, s.copyHeld p o n = false) → s.memWf = true →
    m.rows.Pairwise (fun a b => a.1 + a.2.length ≤ b.1) →
    ∃ t, exec (.mstStoresPerformed p 0 m.rows.length) s = .next t ∧ (t.cell p).msts = l ∧
      (∀ r ∈ m.rows, bytesAt t (fun i => .store p (r.1 + i)) r.2.length = r.2) ∧
      (∀ x, (∀ r ∈ m.rows, ∀ i, i < r.2.length → x ≠ .store p (r.1 + i)) → t.getByte x = s.getByte x) ∧
      (t.hart (.ctx p m.ctx)).fps = (s.hart (.ctx p m.ctx)).fps ||| m.flags ∧ (t.cell p).acc = (s.cell p).acc) ∧
  (∀ (s : State) (p : Nat), let x := s.cell p
    (x.lastRefill = s.cycle + 1 → exec (.budgetRefill p) s = .next s) ∧
    (x.lastRefill ≠ s.cycle + 1 → ∃ t, exec (.budgetRefill p) s = .next t ∧ (t.cell p).lastRefill = s.cycle + 1 ∧ SameBytes s t ∧
      (t.cell p).budget = min x.bcap (x.budget + max 108 (min x.mbud.toNat (ceilingOf s))) ∧ (t.cell p).ops = x.ops ∧
      (t.cell p).stalls = x.stalls ∧ (∀ a, t.hart a = s.hart a)))

/-! ### Commands -/

namespace Sys2Proof.Claim
open Sys2Proof Sys2Proof.Machine

/-- A check that passes, or the trap it raises. -/
def need (p : Prop) [Decidable p] (c : Cause) (i0 i1 : DWord) : Res Unit := if p then .ok () else .error (.trap (trapOf c i0 i1))

/-- The first check that fails stops the instruction; with none it does as it should. -/
def Checked (s : State) (i : Instr) (cs : List (Res Unit)) (done : Prop) : Prop :=
  (∀ pre e post, cs = pre ++ .error e :: post → (∀ x ∈ pre, x = .ok ()) → exec i s = stops s e) ∧ ((∀ x ∈ cs, x = .ok ()) → done)

/-- A command has joined a conductor's queue, with CLAUSE at n; no byte and no register of any agent has changed. -/
def Queued (s t : State) (k : Nat) (op : CmdOp) (ws : WaitSig) (n : Word) : Prop :=
  let g := s.hart s.cur; let h := t.hart s.cur
  SameBytes s t ∧ SameOthers s t ∧ h.x = g.x ∧ h.p = g.p ∧ h.a = g.a ∧ h.w = g.w ∧ h.m = g.m ∧ h.tl = g.tl ∧ h.fps = g.fps ∧
  h.clause = n ∧ SameSpecial g { h with clause := g.clause } ∧
  ∃ c, (t.cond k).cmds = (s.cond k).cmds ++ [c] ∧ c.id = (s.cond k).nextId ∧ (t.cond k).nextId = (s.cond k).nextId + 1 ∧
    c.op = op ∧ c.wait = ws.wait ∧ c.signal = ws.signal ∧ c.pc = g.pc ∧ c.clause = n - 1 ∧ c.dispatched = false ∧
    c.failed = none ∧ c.prog = 0

/-- A command is queued and its 16 bytes have retired. -/
def Issues (s : State) (k : Nat) (i : Instr) (ws : WaitSig) (op : CmdOp) : Prop :=
  ∃ t, exec i s = .next t ∧ Retired s t 16 ∧ Queued s t k op ws (s.hart s.cur).clause

def Issues1 (s : State) (k : Nat) (ra : XOp) (i : Instr) (ws : WaitSig) (op : DWord → CmdOp) (f : State → DWord → List (Res Unit)) :
    Prop :=
  (∀ e, readX (work s) 0 ra = .error e → exec i s = stops s e) ∧
  ∀ a w, readX (work s) 0 ra = .ok (a, w) → Checked s i (f w.s a) (Issues s k i ws (op a))

def Issues3 (s : State) (k : Nat) (ra rb rc : XOp) (i : Instr) (ws : WaitSig) (op : DWord → DWord → DWord → CmdOp)
    (f : State → DWord → DWord → DWord → List (Res Unit)) : Prop :=
  (∀ e, readX (work s) 0 ra = .error e → exec i s = stops s e) ∧
  ∀ a b c w, Reads3 s ra rb rc a b c w → Checked s i (f w.s a b c) (Issues s k i ws (op a b c))

/-- A length that is a multiple of 8 (R181). -/
def eights (n : Nat) : Res Unit := need (n % 8 = 0) .align (BitVec.ofNat 64 n) 8

/-- ARR names a cell store (R179). -/
def arrOk (o : BitVec 6) (d : DWord) : Res Unit := need (o.getLsbD 4 = false ∨ fld d.toNat 47 40 = 0) .bounds d 0

/-- Bits [63:lo] are res0. -/
def below (v : DWord) (l : Nat) : Res Unit := need (v.toNat < 2 ^ l) .bounds v 0

/-- Bits [63:35] of a key are res0 (R281, R299). -/
def keyOk (v : DWord) : Res Unit := need (v.toNat < 2 ^ 35) .bounds v 0

/-- The checks of a range of slots in memory (R301, R311). -/
def slotChecks (s : State) (wr : Bool) (o : BitVec 6) (key mem rng : DWord) : List (Res Unit) :=
  [engCheck s s.cur mem (240 * fld rng.toNat 47 32) (if o.getLsbD 5 then 8 else 1) wr (o.getLsbD 5), keyOk key, below rng 48, arrOk o mem]

end Sys2Proof.Claim

/-- R177 to R192, R299 to R306, R311: commands at issue. The model's choices here: that FE asks alignment of scatter's base at
issue and that gather's base is not checked then (log entry 29), seamw's reports and their order (30), a conductor's record
whose words are uncorrectable (33), the report of a role form's res0 bits and a record that cannot be read (78). -/
def Obligations.LongCommandsCheckAndJoinTheQueue : Prop :=
  (∀ (i : Instr) (s : State) (w0 w1 w2 w3 : Nat), encode i = [w0, w1, w2, w3] → On s (pgOf w0) →
    (∀ p c, s.cur = .ctx p c → (∀ pg, i ≠ .nopl ⟨none, none⟩ pg) → (∀ ra rb rc a b ws pg, i ≠ .spat ra rb rc a b ws pg) →
      (∀ ra rb ws pg, i ≠ .spatr ra rb ws pg) →
      exec i s = stops s (.trap (trapOf .priv (BitVec.ofNat 64 w0) (BitVec.ofNat 64 (w2 * 2 ^ 32 + w1))))) ∧
    (∀ k, s.cur = .cond k → (s.hart s.cur).hold ≠ some .cwait → 16 ≤ (s.cond k).cmds.length →
      exec i s = stops s (.hold .issueQueue))) ∧
  (∀ (s : State) (p : Nat) (c : Fin 4) (pg : Pg), s.cur = .ctx p c → On s pg →
    exec (.nopl ⟨none, none⟩ pg) s = .next (s.retireBy s.cur 16)) ∧
  (∀ (s : State) (a : AgentId) (v : DWord) (n al : Nat) (wr fe : Bool), 0 < al →
    (2 ^ 48 ≤ v.toNat → engCheck s a v n al wr fe = .error (.trap (trapOf .bounds v 0))) ∧
    (v.toNat < 2 ^ 48 → v.toNat % al ≠ 0 → engCheck s a v n al wr fe = .error (.trap (trapOf .align v (BitVec.ofNat 64 al)))) ∧
    (v.toNat < 2 ^ 48 → v.toNat % al = 0 → fld v.toNat 47 40 = 0 → engCheck s a v n al wr fe =
      if v.toNat / 2 ^ 36 % 16 ≠ 0 ∨ v.toNat / 2 ^ 19 % 2 = 1 then .error (.trap (trapOf .bounds v 0))
      else if 0x80000 < v.toNat % 2 ^ 19 + n then .error (.trap (trapOf .bounds v 0x80000)) else .ok ()) ∧
    (v.toNat < 2 ^ 48 → v.toNat % al = 0 → fld v.toNat 47 40 ≠ 0 →
      (∀ pl, checkAddr s a v n al wr fe = .ok pl → engCheck s a v n al wr fe = .ok ()) ∧
      (∀ e, checkAddr s a v n al wr fe = .error e → engCheck s a v n al wr fe = .error e))) ∧
  ∀ (s : State) (k : Nat) (ra rb rc : XOp) (o : BitVec 6) (fe : Bool) (esz : BitVec 3) (ws : WaitSig) (pg : Pg) (m : Word),
    s.cur = .cond k → On s pg → (s.cond k).cmds.length < 16 → let g := s.hart s.cur; let oe := o.getLsbD 5; let z := 8 * 2 ^ esz.toNat
    let eng (t : State) (v : DWord) (n al : Nat) (wr fe : Bool) : Res Unit := engCheck t t.cur v n al wr fe
    let inExtent (t : State) (v : DWord) (al : Nat) : Res Unit := (checkAddr t t.cur v 64 al false false).map (fun _ => ())
    Issues s k (.nopl ws pg) ws .nopl ∧
    Issues3 s k ra rb rc (.copy ra rb rc o ws pg) ws (fun d b l => .copy d b l o) (fun t d b l =>
      [need (l.toNat < 2 ^ 40) .bounds l (2 ^ 40), eng t d l.toNat (if oe then 8 else 1) true oe, if oe then eights l.toNat else .ok (),
        eng t b l.toNat 1 false false, need (¬ (fld d.toNat 47 40 = fld b.toNat 47 40 ∧ overlap d.toNat l.toNat b.toNat l.toNat)) .bounds d b,
        arrOk o d]) ∧
    Issues3 s k ra rb rc (.fill ra rb rc o ws pg) ws (fun d v l => .fill d v l o) (fun t d _ l =>
      [eng t d l.toNat 8 true oe, eights l.toNat, arrOk o d]) ∧
    Issues3 s k ra rb rc (.fprint ra rb rc fe ws pg) ws (fun b d n => .fprint b d n fe) (fun t b d n =>
      [need (n.toNat ≤ 65536) .bounds n 65536, eng t b (4096 * n.toNat) 4096 false false, eng t d (8 * n.toNat) 8 true fe]) ∧
    Issues3 s k ra rb rc (.cmpr ra rb rc fe m ws pg) ws (fun x y d => .cmpr x y d fe m.toNat) (fun t x y d =>
      [eng t x m.toNat 1 false false, eng t y m.toNat 1 false false, eng t d 8 8 true fe]) ∧
    Issues3 s k ra rb rc (.gather ra rb rc o esz m ws pg) ws (fun d b x => .gather d b x o z m.toNat) (fun t d _ x =>
      [eng t d (m.toNat * z) (if oe then 8 else 1) true oe, eng t x (4 * m.toNat) 4 false false, arrOk o d]) ∧
    Issues3 s k ra rb rc (.scatter ra rb rc fe esz m ws pg) ws (fun d b x => .scatter d b x fe z m.toNat) (fun t d b x =>
      [need (fe = false ∨ d.toNat % 8 = 0) .align d 8, eng t b (m.toNat * z) 1 false false, eng t x (4 * m.toNat) 4 false false]) ∧
    (∀ (q : Fin 8) (pull : Bool), Issues3 s k ra rb rc (.rcopy ra rb rc q pull m ws pg) ws (fun x y l => .rcopy x y l q pull m)
      (fun t x y l => [need (l.toNat < 2 ^ 40) .bounds l (2 ^ 40), eng t x l.toNat 1 pull false, below y 48])) ∧
    (∀ op : Fin 3, let i := Instr.reduce ra rb rc o op ws pg; let y := if op = 2 then 8 else 4
      Issues3 s k ra rb rc i ws (fun d b n => .reduce d b n o op) (fun t d b n =>
        [eng t d (n.toNat * y) (if oe then 8 else 1) true oe, if oe then eights (n.toNat * y) else .ok (), eng t b (n.toNat * y) 1 false false,
          arrOk o d, need (op = 2 ∨ g.dmode.getLsbD 0 = false) .determ d (BitVec.ofNat 64 (wordOf i 0))])) ∧
    Issues3 s k ra rb rc (.seamw ra rb rc ws pg) ws (fun d b l => .seamw d b l) (fun t d b l =>
      let sa := t.seamAddr t.cur d; let die := (sa.getD 0) / 2 ^ 36
      [eng t d l.toNat 64 false false, eng t b l.toNat 64 false false, need (l.toNat % 64 = 0) .align l 64, need (sa ≠ none) .bounds d 0,
        need (t.seamBusy die = false) .seambusy d (BitVec.ofNat 64 die)]) ∧
    Issues1 s k ra (.xmap ra fe ws pg) ws (fun v => .xmap v fe) (fun t v => [eng t v 1 1 false false]) ∧
    Issues1 s k ra (.rolemap ra ws pg) ws (fun v => .rolemap v) (fun t v => [launchCheck t t.cur v 8 8]) ∧
    Issues1 s k ra (.attn ra ws pg) ws (fun v => .attn v) (fun t v => [inExtent t v 64]) ∧
    Issues1 s k ra (.lfork ra ws pg) ws (fun v => .lfork v) (fun t v => [inExtent t v 8]) ∧
    Issues3 s k ra rb rc (.lapp ra rb rc ws pg) ws .lapp (fun t a b c => slotChecks t false 0 a b c) ∧
    Issues3 s k ra rb rc (.lput ra rb rc ws pg) ws .lput (fun t a b c => slotChecks t false 0 a b c) ∧
    Issues3 s k ra rb rc (.lget ra rb rc o ws pg) ws (fun a b c => .lget a b c o) (fun t a b c => slotChecks t true o a b c) ∧
    Issues3 s k ra rb rc (.lshare ra rb rc fe ws pg) ws (fun a b c => .lshare a b c fe) (fun _ a b c => [keyOk a, below b 28, below c 32]) ∧
    Issues1 s k ra (.lrel ra ws pg) ws .lrel (fun _ a => [keyOk a]) ∧
    Issues1 s k ra (.linv ra fe ws pg) ws (fun a => .linv a fe) (fun _ a => [keyOk a]) ∧
    (∀ v n w1 w, readX (work s) 0 ra = .ok (v, w1) → readX w1 1 rb = .ok (n, w) → let i := Instr.clause ra rb ws pg
      Checked s i [launchCheck w.s w.s.cur v 64 64, need (n.toNat < 2 ^ 32) .bounds n (2 ^ 32)]
        (∃ t, exec i s = .next t ∧ Retired s t 16 ∧ Queued s t k (.clause v n) ws (g.clause + 1))) ∧
    (let i := Instr.cwait ra ws pg;
      (g.hold = some .cwait → exec i s = .next s) ∧
      (g.hold ≠ some .cwait → ∀ n w, readX (work s) 0 ra = .ok (n, w) →
        (g.clause.toNat ≤ n.toNat → exec i s = stops s (.trap (trapOf .bounds n (BitVec.ofNat 64 g.clause.toNat)))) ∧
        (n.toNat < g.clause.toNat → ∃ t, exec i s = .next t ∧ HeldAt s t .cwait ∧ Queued s t k (.cwait n) ws g.clause))) ∧
    (∀ (a : BitVec 15) (t b c : DWord) (w : Work), Reads3 s ra rb rc t b c w → let i := Instr.spat ra rb rc a m ws pg
      (∀ x q cur nxt, w.s.targetPort k t = some (x, q) → (w.s.hart x).ports[q].cur = some cur → (w.s.hart x).ports[q].nxt = some nxt →
        exec i s = stops s (.hold .pattern)) ∧
      ((∀ x q, w.s.targetPort k t = some (x, q) → (w.s.hart x).ports[q].nxt = none) →
        (∀ pat, spatPattern b c a m g.pc = some pat → Issues s k i ws (.spat t pat none)) ∧
        (spatPattern b c a m g.pc = none → Issues s k i ws (.spat t (badPattern g.pc) none)))) ∧
    (∀ (t b : DWord) (w1 w : Work), readX (work s) 0 ra = .ok (t, w1) → readX w1 1 rb = .ok (b, w) → let i := Instr.spatr ra rb ws pg
      (∀ e, recordRead w.s k b = .error e → exec i s = stops s e) ∧
      ∀ r, recordRead w.s k b = .ok (r, w.s) →
        (∀ x q cur nxt, w.s.targetPort k t = some (x, q) → (w.s.hart x).ports[q].cur = some cur → (w.s.hart x).ports[q].nxt = some nxt →
          exec i s = stops s (.hold .pattern)) ∧
        ((∀ x q, w.s.targetPort k t = some (x, q) → (w.s.hart x).ports[q].nxt = none) →
          (∀ bs, r = .ok bs → (∀ pat, recordPattern bs g.pc = some pat → Issues s k i ws (.spat t pat none)) ∧
            (recordPattern bs g.pc = none → Issues s k i ws (.spat t (badPattern g.pc) none))) ∧
          ∀ f, r = .error f → Issues s k i ws (.spat t (badPattern g.pc) (some f))))

namespace Sys2Proof.Claim
open Sys2Proof Sys2Proof.Machine

/-- A role-form address whose n bytes lie in the store of cell p, the cell that the command's role names (R181). -/
def AtStore (s : State) (k : Nat) (c : Command) (v : DWord) (n p : Nat) : Prop :=
  fld v.toNat 47 40 = 0 ∧ roleCell s k c.run v = .ok p ∧ v.toNat % 2 ^ 19 + n ≤ 2 ^ 19

/-- A role-form address whose offsets may be added to: its res0 bits are clear (R181). -/
def Base (v : DWord) : Prop := v.toNat < 2 ^ 36 ∧ v.toNat / 2 ^ 19 % 2 = 0

/-- The semaphores of a region after a command's signal, if it has one (R179). -/
def Signalled (s t : State) (q : Nat) (c : Command) : Prop :=
  ∀ m, t.semCount q m = match c.signal with
    | some g => if g.sem = m then min (s.semCount q m + g.inc.toNat) (2 ^ 32 - 1) else s.semCount q m
    | none => s.semCount q m

/-- The commands of the whole module that hold a place of an engine. -/
def placed (s : State) (e : EngineKind) : Nat := (s.conds.map (fun x => (x.2.cmds.filter (fun c => c.onEngine = some e)).length)).sum

/-- A dispatched command of a conductor whose region runs, with a place of its engine or a free one: there are 24 copy engines,
and 16 lode commands run on a chiplet at a time (R2, R299). -/
def Under (s : State) (k slot q : Nat) (r : Region) (c : Command) : Prop :=
  (s.cond k).cmds[slot]? = some c ∧ ((s.cond k).cmds.map (·.id)).Nodup ∧ c.dispatched = true ∧ c.failed = none ∧
  (s.cond k).region = some q ∧ s.region q = some r ∧ r.phase = .running ∧ s.memWf = true ∧
  (c.onEngine ≠ none ∨ ∀ e, c.engine s k = some e → placed s e < if e = .copy then 24 else 16)

/-- Such a command with nothing of it done. -/
def Fresh (s : State) (k slot q : Nat) (r : Region) (c : Command) : Prop := Under s k slot q r c ∧ c.prog = 0 ∧ c.memo = []

/-- A command has completed: it is gone, its signal applied, its arrival sent to cell p with ARR (R179). -/
def Done (s t : State) (k q p : Nat) (c : Command) (o : BitVec 6) : Prop :=
  (t.cond k).cmds = (s.cond k).cmds.filter (fun x => x.id ≠ c.id) ∧ Signalled s t q c ∧
  (t.cell p).arriving = (s.cell p).arriving ++ (if o.getLsbD 4 then [Fin.ofNat 16 o.toNat] else [])

/-- COMMAND_COMPLETE finds that a command fails: no byte has changed, and it keeps the fault for its record (R180). -/
def Fails (s : State) (k slot : Nat) (c : Command) (f : CmdFault) : Prop :=
  ∃ t, exec (.commandComplete k slot) s = .next t ∧ SameBytes s t ∧ ∃ y ∈ (t.cond k).cmds, y.id = c.id ∧ y.failed = some f

/-- A command of the lode fails with a code, for a key word and a position (R292). -/
def LodeFails (s : State) (k slot : Nat) (c : Command) (code : Nat) (key : DWord) (pos : Nat) : Prop :=
  Fails s k slot c ⟨.lodefault, code, key, some (BitVec.ofNat 64 pos)⟩

/-- The cell's store can be read and written by an engine: no byte is uncorrectable, no operation protects it, no
pre-copy holds it. -/
def Plain (s : State) (p : Nat) : Prop :=
  (∀ i, s.isBad (.store p i) = false) ∧ (s.cell p).ops = [] ∧ ∀ o n, s.copyHeld p o n = false

/-- What FE leaves of the full/empty bits of n bytes written from pl 0 on: every word of them full, and all others as they
were (R181). -/
def Marks (s t : State) (fe : Bool) (pl : Nat → Place) (n : Nat) : Prop :=
  (fe = true → ∀ i, i < n → t.isFull (pl i) = true) ∧
  ∀ x : Place, (fe = false ∨ ∀ i, i < n → x.word ≠ (pl i).word) → t.isFull x = s.isFull x

/-- With FE a range is whole words, for which no ldf waits. -/
def Words (s : State) (fe : Bool) (pl : Nat → Place) (a n : Nat) : Prop :=
  fe = true → a % 8 = 0 ∧ n % 8 = 0 ∧ ∀ i, i < n → Unwaited s (pl i).word

/-- COMMAND_COMPLETE finishes a command that has written n bytes from pl 0 on, and nothing else, as v says. -/
def Writes (s : State) (k slot q p : Nat) (c : Command) (o : BitVec 6) (fe : Bool) (pl : Nat → Place) (n : Nat) (v : State → Prop) : Prop :=
  ∃ t, exec (.commandComplete k slot) s = .next t ∧ Done s t k q p c o ∧ v t ∧ (∀ x, (∀ i, i < n → x ≠ pl i) → t.getByte x = s.getByte x) ∧
    Marks s t fe pl n

/-- R185: the fingerprint of the page image at o of cell p's store. -/
def r185 (s : State) (p o : Nat) : Nat :=
  ((List.range 480).map (fun i => storeNum s p (o + 256 + 8 * i) 8 * (2 * i + 1))).sum % 2 ^ 64

/-- R184: one element of reduce. -/
def r184red (op : Fin 3) (d e : Nat) : Nat :=
  if op = 2 then (d + e) % 2 ^ 64
  else if op = 1 then (fmax (BitVec.ofNat 32 d) (BitVec.ofNat 32 e)).1.toNat else (fadd (BitVec.ofNat 32 d) (BitVec.ofNat 32 e)).1.toNat

/-- R184 to R188, R192: what the commands of the copy engines do to cell stores, and to the seam, the port and the role map. -/
def EngineCommands : Prop :=
  (∀ (s : State) (k slot q p p' : Nat) (r : Region) (c : Command) (d b l : DWord) (o : BitVec 6), Fresh s k slot q r c →
    Plain s p → Plain s p' → AtStore s k c d l.toNat p → let fe := o.getLsbD 5; let dst := d.toNat % 2 ^ 19; let src := b.toNat % 2 ^ 19
    let pl (i : Nat) : Place := .store p (dst + i)
    Words s fe pl d.toNat l.toNat →
    (c.op = .copy d b l o → AtStore s k c b l.toNat p' → (p = p' → overlap dst l.toNat src l.toNat = false) →
      Writes s k slot q p c o fe pl l.toNat (fun t => ∀ i, i < l.toNat → t.getByte (pl i) = s.getByte (.store p' (src + i)))) ∧
    (c.op = .fill d b l o → l.toNat % 8 = 0 →
      Writes s k slot q p c o fe pl l.toNat (fun t => ∀ i, i < l.toNat → t.getByte (pl i) = BitVec.ofNat 8 (b.toNat / 2 ^ (8 * (i % 8)))))) ∧
  (∀ (s : State) (k slot q p p1 p2 : Nat) (r : Region) (c : Command) (d b x : DWord) (o : BitVec 6) (fe : Bool) (z n : Nat), Fresh s k slot q r c →
    Plain s p → Plain s p1 → Plain s p2 → p ≠ p1 → p ≠ p2 → 0 < z → n < 2 ^ 32 → AtStore s k c x (4 * n) p2 →
    let dst := d.toNat % 2 ^ 19; let src := b.toNat % 2 ^ 19; let idx (i : Nat) := storeNum s p2 (x.toNat % 2 ^ 19 + 4 * i) 4
    (c.op = .gather d b x o z n → AtStore s k c d (n * z) p → AtStore s k c b 0 p1 → Base b → let pl (i : Nat) : Place := .store p (dst + i)
      Words s (o.getLsbD 5) pl d.toNat (n * z) → (o.getLsbD 5 = true → z % 8 = 0) → (∀ i, i < n → src + idx i * z + z ≤ 2 ^ 19) →
      Writes s k slot q p c o (o.getLsbD 5) pl (n * z) (fun t => ∀ i m, i < n → m < z →
        t.getByte (pl (i * z + m)) = s.getByte (.store p1 (src + idx i * z + m)))) ∧
    (c.op = .scatter d b x fe z n → AtStore s k c d 0 p → Base d → AtStore s k c b (n * z) p1 →
      let pl (i : Nat) : Place := .store p (dst + idx (i / z) * z + i % z)
      Words s fe pl d.toNat (n * z) → (fe = true → z % 8 = 0) → (∀ i, i < n → dst + idx i * z + z ≤ 2 ^ 19) →
      Writes s k slot q p c 0 fe pl (n * z) (fun t => ∀ i m, i < n → m < z → (∀ j, i < j → j < n → idx j ≠ idx i) →
        t.getByte (pl (i * z + m)) = s.getByte (.store p1 (src + i * z + m))))) ∧
  (∀ (s : State) (k slot q p p1 p2 : Nat) (r : Region) (c : Command) (d b e : DWord) (fe : Bool), Fresh s k slot q r c → Plain s p →
    Plain s p1 → Plain s p2 → p ≠ p1 → p ≠ p2 → let dst := d.toNat % 2 ^ 19; let src := b.toNat % 2 ^ 19
    let pl (i : Nat) : Place := .store p (dst + i)
    (∀ n : DWord, c.op = .fprint b d n fe → AtStore s k c d (8 * n.toNat) p → AtStore s k c b (4096 * n.toNat) p1 →
      Words s fe pl d.toNat (8 * n.toNat) → Writes s k slot q p c 0 fe pl (8 * n.toNat) (fun t => ∀ i, i < n.toNat →
        storeNum t p (dst + 8 * i) 8 = r185 s p1 (src + 4096 * i))) ∧
    (∀ n : Nat, c.op = .cmpr b e d fe n → AtStore s k c d 8 p → AtStore s k c b n p1 → AtStore s k c e n p2 → Words s fe pl d.toNat 8 →
      let x (i : Nat) := s.getByte (.store p1 (src + i)); let y (i : Nat) := s.getByte (.store p2 (e.toNat % 2 ^ 19 + i))
      Writes s k slot q p c 0 fe pl 8 (fun t => ((∀ i, i < n → x i = y i) → storeNum t p dst 8 = 0) ∧
        ∀ i, i < n → x i ≠ y i → (∀ j, j < i → x j = y j) → storeNum t p dst 8 = 1 + i)) ∧
    (∀ (n : DWord) (o : BitVec 6) (op : Fin 3), let z := if op = 2 then 8 else 4
      c.op = .reduce d b n o op → n.toNat ≤ 2 ^ 19 → AtStore s k c d (n.toNat * z) p → AtStore s k c b (n.toNat * z) p1 →
      Words s (o.getLsbD 5) pl d.toNat (n.toNat * z) → Writes s k slot q p c o (o.getLsbD 5) pl (n.toNat * z) (fun t => ∀ i, i < n.toNat →
        storeNum t p (dst + i * z) z = r184red op (storeNum s p (dst + i * z) z) (storeNum s p1 (src + i * z) z)))) ∧
  (∀ (s : State) (k slot q p : Nat) (r : Region) (c : Command) (x y l : DWord) (port : Fin 8) (pull : Bool) (key : Word),
    Under s k slot q r c → c.op = .rcopy x y l port pull key → let n := (l.toNat + 255) / 256; let k0 := s.links[port]
    let size (i : Nat) := min 256 (l.toNat - 256 * i); let at_ (i : Nat) := y + BitVec.ofNat 64 (256 * i); let tag := tagOf k c
    let here (i : Nat) := bytesAt s (fun j => .store p (x.toNat % 2 ^ 19 + 256 * i + j)) (size i)
    let waits (t : State) (m : Nat) : Prop := ∃ z ∈ (t.cond k).cmds, z.id = c.id ∧ z.prog = m ∧ z.failed = none
    Plain s p → AtStore s k c x l.toNat p →
    (c.prog = 0 → c.memo = [] → (pull = false ∨ 0 < l.toNat) → k0.state = .down ∨ k0.state = .disabled → Fails s k slot c ⟨.cmdfail, 0x20, y, none⟩) ∧
    (k0.state = .up → c.prog = 0 → c.memo = [] → c.ready = false → k0.outbox.length + k0.inFlight + n + 1 ≤ 512 →
      (∀ z ∈ k0.transfers, z.tag ≠ tag) →
      (pull = false → ∃ t, exec (.commandComplete k slot) s = .next t ∧ SameBytes s t ∧ waits t (n + 1) ∧ t.links[port].outbox =
        k0.outbox ++ (List.range n).map (fun i => (PType.write, packet (at_ i) key tag 0 (here i))) ++
          [(PType.done, packet 0 0 tag (BitVec.ofNat 64 tag.toNat) [])]) ∧
      (pull = true → 0 < n → ∃ t, exec (.commandComplete k slot) s = .next t ∧ SameBytes s t ∧ waits t n ∧ t.links[port].outbox =
        k0.outbox ++ (List.range n).map (fun i => (PType.readReq, packet (at_ i) key tag (BitVec.ofNat 64 (size i)) [])))) ∧
    (∀ z bs, k0.state = .up → pull = true → 0 < n → c.prog = 2 * n - 1 → c.memo = [] → k0.transfers.find? (fun z => z.tag == tag) = some z →
      z.inbox = [bs] → bs.length = size (n - 1) → let pl (i : Nat) : Place := .store p (x.toNat % 2 ^ 19 + 256 * (n - 1) + i)
      Writes s k slot q p c 0 false pl bs.length (fun t => bytesAt t pl bs.length = bs))) ∧
  (∀ (s : State) (k slot q p : Nat) (r : Region) (c : Command) (d b l : DWord) (e : Extent), Fresh s k slot q r c → c.op = .seamw d b l →
    s.extentNo (.cond k) (fld d.toNat 47 40) = some e → e.space = .seam → fld d.toNat 47 40 ≠ 0 → fld d.toNat 39 0 + l.toNat ≤ 2 ^ 40 → AtStore s k c b l.toNat p →
    Plain s p → let a := e.base + fld d.toNat 39 0; let pl (i : Nat) : Place := .seam (a + i)
    ((∀ die, s.seamBusy die = false) → s.windows = [] → Writes s k slot q p c 0 false pl l.toNat (fun t => ∀ i, i < l.toNat →
      t.getByte (pl i) = s.getByte (.store p (b.toNat % 2 ^ 19 + i)))) ∧
    (0 < l.toNat → s.seamBusy (a / 2 ^ 36) = true → ∃ t, exec (.commandComplete k slot) s = .next t ∧ SameBytes s t ∧
      ∃ y ∈ (t.cond k).cmds, y.id = c.id ∧ y.prog = 0 ∧ y.failed = none)) ∧
  (∀ (s : State) (k slot q n : Nat) (r : Region) (c : Command) (v : DWord) (hd bs : List Byte), Fresh s k slot q r c → c.op = .rolemap v →
    engRead s k c v 8 = .ok (hd, s) → n = num (hd.take 2) → (∀ x ∈ hd.drop 2, x = 0) → 1 ≤ n → n ≤ 816 →
    engCheck s (.cond k) v (8 + 2 * n) 8 false false = .ok () → engRead s k c (v + 8) (2 * n) = .ok (bs, s) →
    let x (i : Nat) := num ((bs.drop (2 * i)).take 2); let pos (i : Nat) := x i % 256; let cl (i : Nat) := 12 * (x i / 256 % 4) + pos i / 17
    let good := (∀ i, i < n → x i < 2 ^ 10 ∧ pos i < 204 ∧ cl i ∈ r.clusters ∧ (s.enmapOf (cl i)).getLsbD (pos i % 17) = true) ∧
      ∀ i j, i < j → j < n → x i ≠ x j
    (good → ∃ t r', exec (.commandComplete k slot) s = .next t ∧ SameBytes s t ∧ Done s t k q 0 c 0 ∧ t.region q = some r' ∧
      r'.roleMap = (List.range n).map (fun i => 204 * (x i / 256 % 4) + pos i)) ∧
    (¬ good → Fails s k slot c ⟨.cmdfail, 0x21, v, none⟩))

/-- A page of a conductor's non-lazy bulk extent is installed, written to before, and holds byte off of the extent at lo. -/
def Installed (s : State) (ctx : Nat) (e : Extent) (off lo : Nat) : Prop :=
  e.space = .bulk ∧ e.lazy = false ∧ ∃ p, (s.xlat ctx).page? 0 ((e.base + off) / 2 ^ 16) = some p ∧ p.dropped = false ∧ p.dirty = true ∧
      lo = p.frame + (e.base + off) % 2 ^ 16

/-! #### Lazy pages and dirty bits -/

/-- The latest byte that log entries of a kind of page hold for a space address (R264, R265). -/
def lastLogged (l : List LogEntry) (sort : PageSort) (sa : Nat) : Option Byte :=
  (((l.filter (fun x => x.sort = sort)).flatMap (·.bytes)).reverse.find? (fun b => b.1 == sa)).map (·.2)

/-- A word of bulk memory. -/
def bulkWord (s : State) (a : Nat) : Nat := numAt s (fun j => .bulk (a + j)) 8

/-- A memory with some words of bulk replaced, the earlier pair first. -/
def with8 (l : List (Nat × Nat)) (f : Place → Byte) : Place → Byte
  | .bulk a => match l.find? (fun x => x.1 ≤ a && a < x.1 + 8) with
    | some x => BitVec.ofNat 8 (x.2 / 2 ^ (8 * (a - x.1)))
    | none => f (.bulk a)
  | x => f x

/-- xmap completes: the page stands at a frame and is pending no more, and the log that cell p, the only one with a log, holds
for it is performed over the bytes of `base` (R265, R327). -/
def Installs (s : State) (k slot q : Nat) (r : Region) (c : Command) (p : Nat) (e : Extent) (pg frame : Nat) (wr : Bool)
    (base : Place → Byte) : Prop :=
  let host := decide (e.space = .host); let pl (o : Nat) : Place := if host then .host (frame + o) else .bulk (frame + o)
  ∃ t, exec (.commandComplete k slot) s = .next t ∧ Done s t k q 0 c 0 ∧ (t.xlat r.ctx).lazy? host pg = some ⟨host, pg, frame, wr⟩ ∧
    (e.sort, pg) ∉ (t.xlat r.ctx).pending ∧ (t.cell p).log = (s.cell p).log.filter (fun x => ¬ (x.sort = e.sort ∧ x.line / 1024 = pg)) ∧
    (∀ o, o < 2 ^ 16 → t.getByte (pl o) = (lastLogged (s.cell p).log e.sort (pg * 2 ^ 16 + o)).getD (base (pl o))) ∧
    ∀ x, (∀ o, o < 2 ^ 16 → x ≠ pl o) → t.getByte x = base x

/-- R189, R265, R325, R327: pages that xmap installs, with the side log's replay, and the first write to a clean page. -/
def LazyPages : Prop :=
  (∀ (s : State) (k slot q p : Nat) (r : Region) (c : Command) (v : DWord) (zero : Bool) (e : Extent), Fresh s k slot q r c →
    c.op = .xmap v zero → s.extentNo (.cond k) (fld v.toNat 47 40) = some e →
    let host := decide (e.space = .host); let pg := (e.base + fld v.toNat 39 0) / 2 ^ 16; let key := pg % 2 ^ 36 + (if host then 2 ^ 36 else 0)
    let w := bulkWord s; let g (i : Nat) := r.gpool + 16 * i; let u (i : Nat) := r.spool + 16 * i
    let hit (i : Nat) : Prop := w (g i + 8) % 2 = 1 ∧ fld (w (g i)) 52 16 = key
    let first (i : Nat) : Prop := i < r.gpooln ∧ hit i ∧ ∀ j, j < i → ¬ hit j
    let spare (i : Nat) : Prop := (∀ j, j < r.gpooln → ¬ hit j) ∧ i < r.spooln ∧ w (u i) % 2 = 0 ∧ ∀ j, j < i → w (u j) % 2 = 1
    let clean (k f n : Nat) : Prop := fld k 63 53 = 0 ∧ fld k 15 0 = 0 ∧ fld f 63 52 = 0 ∧ fld f 15 n = 0
    let shut (i : Nat) : Prop := w (g i + 8) / 4 % 2 = 0 ∧ ∃ f ∈ r.held, f.lazy = true ∧ (f.space = .host ↔ e.space = .host) ∧ f.rw = true ∧
      f.base / 2 ^ 16 ≤ pg ∧ pg < (f.base + f.len) / 2 ^ 16
    let fits (frame : Nat) (wr : Bool) : Prop := (s.modXlat r.ctx (fun x =>
      { x with lazies := insertLazy ⟨host, pg, frame, wr⟩ x.lazies })).runsFit q r.ctx r.owned = true
    let frame (x : Nat) := fld x 51 16 * 2 ^ 16
    (e.lazy = false ∨ ((s.xlat r.ctx).lazy? host pg).isSome = true ∨ (zero = true ∧ e.space = .host) ∨
      (∃ i, first i ∧ (¬ clean (w (g i)) (w (g i + 8)) 3 ∨ shut i)) ∨ (∀ i, i < r.gpooln → ¬ hit i) ∧ (zero = false ∨
        (∀ i, i < r.spooln → w (u i) % 2 = 1) ∨ ∃ i, spare i ∧ ¬ clean (w (u i + 8)) (w (u i)) 1) →
      Fails s k slot c ⟨.cmdfail, 0x24, v, none⟩) ∧
    (e.lazy = true → (s.xlat r.ctx).lazy? host pg = none → ¬ (zero = true ∧ e.space = .host) → p ∈ s.cellsOf r.ctx →
      (∀ j, j ≠ p → (s.cell j).log = []) → (∀ x ∈ (s.cell p).log, ∀ b ∈ x.bytes, b.1 / 64 = x.line) →
      (∀ i, first i → clean (w (g i)) (w (g i + 8)) 3 → ¬ shut i → let f := w (g i + 8); fits (frame f) (f.testBit 2) →
        Installs s k slot q r c p e pg (frame f) (f.testBit 2) (with8 [(g i + 8, f ||| 2)] s.getByte)) ∧
      (∀ i, zero = true → spare i → clean (w (u i + 8)) (w (u i)) 1 → let f := w (u i); fits (frame f) true →
        Installs s k slot q r c p e pg (frame f) true (with8 [(u i + 8, key * 2 ^ 16), (u i, f ||| 1)] (fun x => match x with
          | .bulk a => if frame f ≤ a ∧ a < frame f + 2 ^ 16 then 0 else s.getByte x
          | _ => s.getByte x))))) ∧
  (∀ (s : State) (o : Holder) (e : Extent) (off : Nat) (p : Page), e.space = .bulk → e.lazy = false → s.memWf = true →
    let g := e.base + off; (s.xlat o.ctx).page? o.owner (g / 2 ^ 16) = some p → p.dropped = false → let t := s.translate o e off true
    let marked (a v : Nat) : Prop := bulkWord t.1 a = v ||| 24 ∧ ∀ x, (∀ i, i < 8 → x ≠ .bulk (a + i)) → t.1.getByte x = s.getByte x
    s.translate o e off false = (s, some (.bulk (p.frame + g % 2 ^ 16))) ∧
    (p.dirty = true → t = (s, some (.bulk (p.frame + g % 2 ^ 16)))) ∧
    (p.dirty = false → bulkWord s p.leaf = p.value → t.2 = some (.bulk (p.frame + g % 2 ^ 16)) ∧ marked p.leaf p.value ∧
      (t.1.xlat o.ctx).page? o.owner p.page = some { p with value := p.value ||| 24, dirty := true }) ∧
    (p.dirty = false → bulkWord s p.leaf ≠ p.value →
      (∀ a v l, walkFrom s.bad s.bulk (p.page * 2 ^ 16) 3 (s.xlat o.ctx).root = .ok (a, v, l) →
        t.2 = some (.bulk (leafFrame (p.page * 2 ^ 16) v l + g % 2 ^ 16)) ∧ marked a v) ∧
      (∀ x, walkFrom s.bad s.bulk (p.page * 2 ^ 16) 3 (s.xlat o.ctx).root = .error x → t.2 = none ∧ SameBytes s t.1 ∧
        p.page ∈ (t.1.xlat o.ctx).broken ∧ ∀ y ∈ (t.1.xlat o.ctx).pages, y.page = p.page → y.dropped = true))) ∧
  (∀ (s : State) (k slot q : Nat) (r : Region) (c : Command) (d v : DWord) (e : Extent) (p : Page), Fresh s k slot q r c →
    c.op = .fill d v 8 0 → fld d.toNat 47 40 ≠ 0 → s.extentNo (.cond k) (fld d.toNat 47 40) = some e → e.space = .bulk → e.lazy = false →
    fld d.toNat 39 0 + 8 ≤ 2 ^ 40 → let g := e.base + fld d.toNat 39 0; let a := p.frame + g % 2 ^ 16; g % 8 = 0 →
    (s.xlat r.ctx).page? 0 (g / 2 ^ 16) = some p → p.dropped = false → p.dirty = false → bulkWord s p.leaf = p.value →
    overlap a 8 p.leaf 8 = false → ∃ t, exec (.commandComplete k slot) s = .next t ∧ Done s t k q 0 c 0 ∧ bulkWord t a = v.toNat ∧
      bulkWord t p.leaf = p.value ||| 24 ∧ ∀ x, (∀ i, i < 8 → x ≠ .bulk (a + i) ∧ x ≠ .bulk (p.leaf + i)) → t.getByte x = s.getByte x)

/-! #### The lode -/

/-- A number in a chiplet's memory. -/
def lnum (s : State) (g : Fin 4) (a n : Nat) : Nat := numAt s (fun i => .lode g.val (a + i)) n

/-- The descriptor, the sequence and the leaf that a command reads for a key word. -/
def Tables (s : State) (k : Nat) (key : DWord) (d : LodeDesc) (q : Seq) (n : Node) : Prop :=
  lodeDesc s k (homeOf key.toNat) = .ok d ∧ seqOf s d (seqIndex key.toNat) = .ok q ∧ nodeAt s d.g q.leaf = .ok n

/-- A frame is META (R290); a range of tables is aligned and in META frames (R292). -/
def Meta (s : State) (g : Fin 4) (f : Nat) : Prop := lnum s g (frameEntry f) 8 / 2 ^ 32 % 2 = 1
def InTables (s : State) (g : Fin 4) (a n al : Nat) : Prop := a % al = 0 ∧ a + n ≤ 2 ^ 36 ∧ ∀ i, i < n → Meta s g ((a + i) / 4096)

/-- Ranges of tables below the frame table, no two of which meet. -/
def Apart (l : List (Nat × Nat)) : Prop :=
  (∀ x ∈ l, x.1 + x.2 ≤ 0xFF8000000) ∧ l.Pairwise (fun x y => overlap x.1 x.2 y.1 y.2 = false)

/-- A chiplet's memory has no uncorrectable word. -/
def Sound (s : State) (g : Fin 4) : Prop := ∀ a, s.isBad (.lode g.val a) = false

/-- What a node's 64 bytes say (R288). -/
def NodeIs (s : State) (g : Fin 4) (n : Node) : Prop :=
  let v (o k : Nat) := lnum s g (n.addr + o) k
  v 0 4 = n.start ∧ v 4 4 = n.count ∧ v 8 8 = n.parent ∧ v 0x10 4 = n.ref ∧ (v 0x14 4 % 2 = 1 ↔ n.sealed = true) ∧ v 0x18 8 = n.dir ∧
  v 0x20 4 = n.dbase ∧ v 0x24 4 = n.pcap ∧ v 0x28 2 = n.nl ∧ v 0x2A 1 = n.nhg ∧ v 0x2B 1 = n.fmt ∧ v 0x2C 1 = n.geom

/-- R286 to R288, R290: where the tables stand and what their fields are. -/
def LodeTables : Prop :=
  ∀ (s : State) (k : Nat) (key : DWord) (d : LodeDesc) (q : Seq) (n : Node), Tables s k key d q n → let g := d.g; let v := lnum s g
    g.val = fld key.toNat 19 18 ∧ d.stbase = v d.addr 8 ∧ d.nseq = v (d.addr + 8) 4 ∧ d.ffsize = v (d.addr + 0xC) 4 ∧
    d.ffbase = v (d.addr + 0x10) 8 ∧ d.ffhead = v (d.addr + 0x18) 4 ∧ d.fftail = v (d.addr + 0x1C) 4 ∧ d.rcbase = v (d.addr + 0x20) 8 ∧
    d.rcsize = v (d.addr + 0x28) 4 ∧ d.rchead = v (d.addr + 0x2C) 4 ∧ d.rctail = v (d.addr + 0x30) 4 ∧
    fld key.toNat 17 0 < d.nseq ∧ q.addr = d.stbase + 16 * fld key.toNat 17 0 ∧ q.leaf = v q.addr 8 ∧ q.fin = v (q.addr + 8) 4 ∧
    v (q.addr + 12) 4 % 2 = 1 ∧ n.addr = q.leaf ∧ NodeIs s g n ∧ InTables s g d.addr 64 8 ∧ InTables s g q.addr 16 16 ∧ InTables s g n.addr 64 64

/-- The place of a key's directory entry of page m, which lies in the tree's geometry and in the directory (R288, R291). -/
def dirAt (n : Node) (key : DWord) (m : Nat) : Nat :=
  n.dir + 8 * (((fld key.toNat 27 20 * n.nhg + fld key.toNat 33 28) * n.pcap + (m - n.dbase)) * 2 + fld key.toNat 34 34)
def Within (n : Node) (key : DWord) (m : Nat) : Prop :=
  fld key.toNat 27 20 < n.nl ∧ fld key.toNat 33 28 < n.nhg ∧ n.dbase ≤ m ∧ m - n.dbase < n.pcap

/-- Frame f of chiplet g may hold a page, and directory entry e maps it (R290, R291). -/
def Frame (s : State) (g : Fin 4) (f : Nat) : Prop := f < 0xFF8000 ∧ ¬ Meta s g f
def Maps (s : State) (g : Fin 4) (e f : Nat) : Prop := fld e 27 26 = 0 ∧ fld e 25 24 = g.val ∧ f = e % 2 ^ 24 ∧ Frame s g f

/-- A slot is written in frame f, whose page was `page` before (R285, R294). -/
def SlotWritten (t : State) (g : Fin 4) (f i : Nat) (page src : Nat → Byte) : Prop :=
  let old (w : Nat) := num ((List.range 8).map (fun b => page (256 + 240 * i + 8 * w + b)))
  let new (w : Nat) := num ((List.range 8).map (fun b => src (8 * w + b)))
  let sum (x : Nat → Nat) := ((List.range 30).map (fun w => x w * (2 * (30 * i + w) + 1))).sum
  (∀ j, j < 4096 → (j < 8 ∨ 18 ≤ j) → t.getByte (.lode g.val (4096 * f + j)) =
    if 256 + 240 * i ≤ j ∧ j < 256 + 240 * i + 240 then src (j - (256 + 240 * i)) else page j) ∧
  lnum t g (4096 * f + 16) 2 = num ((List.range 2).map (fun b => page (16 + b))) ||| 2 ^ i ∧
  (lnum t g (4096 * f + 8) 8 + sum old) % 2 ^ 64 = (num ((List.range 8).map (fun b => page (8 + b))) + sum new) % 2 ^ 64

/-- R294, R298, R301: lapp, lput and lget of one slot. -/
def LodeSlots : Prop :=
  (∀ (s : State) (k slot q p : Nat) (r : Region) (c : Command) (key mem rng : DWord) (app : Bool) (d : LodeDesc) (z : Seq) (n : Node),
    Fresh s k slot q r c → c.op = (if app then .lapp key mem rng else .lput key mem rng) → Tables s k key d z n → Sound s d.g → Plain s p →
    AtStore s k c mem 240 p → fld rng.toNat 47 32 = 1 → let pos := fld rng.toNat 31 0; let m := pos / 16; let g := d.g; let ea := dirAt n key m
    pos + 1 < 2 ^ 32 → let e := lnum s g ea 8; let ref (f : Nat) := lnum s g (frameEntry f) 4; let grow := app = true ∧ z.fin ≤ pos
    let src (j : Nat) := s.getByte (.store p (mem.toNat % 2 ^ 19 + j))
    ((if app then z.fin < pos else z.fin ≤ pos) → LodeFails s k slot c 2 key pos) ∧
    ((if app then pos ≤ z.fin else pos < z.fin) → fld key.toNat 27 20 < n.nl → fld key.toNat 33 28 < n.nhg →
      (pos < n.start → LodeFails s k slot c 0x0B key pos) ∧
      (n.start ≤ pos → (m < n.dbase ∨ n.pcap ≤ m - n.dbase) → LodeFails s k slot c 8 key pos) ∧
      (n.start ≤ pos → Within n key m → InTables s g ea 8 8 → Apart [(d.addr, 64), (z.addr, 16), (n.addr, 64), (ea, 8)] →
        let puts (f : Nat) (page : Nat → Byte) (more : State → Prop) (also : Nat → Prop) : Prop :=
          ∃ t, exec (.commandComplete k slot) s = .next t ∧ Done s t k q p c 0 ∧ SlotWritten t g f (pos % 16) page src ∧
            lnum t g ea 8 = 7 * 2 ^ 29 + g.val * 2 ^ 24 + f ∧ (grow → lnum t g (z.addr + 8) 4 = pos + 1 ∧ lnum t g (n.addr + 4) 4 = pos + 1 - n.start) ∧
            more t ∧ ∀ x, (∀ a, x = .lode g.val a → a / 4096 ≠ f ∧ ¬ (ea ≤ a ∧ a < ea + 8) ∧ ¬ also a ∧
              (grow → ¬ (z.addr + 8 ≤ a ∧ a < z.addr + 12) ∧ ¬ (n.addr + 4 ≤ a ∧ a < n.addr + 8))) → t.getByte x = s.getByte x
        let head (st j : Nat) : Byte := ([BitVec.ofNat 8 g.val, BitVec.ofNat 8 st, BitVec.ofNat 8 n.fmt, BitVec.ofNat 8 (fld key.toNat 34 34)] ++
          bytesOf 4 (16 * m)).getD j 0
        let taken (f : Nat) : Prop := d.ffsize ≠ 0 ∧ d.ffhead ≠ d.fftail ∧ InTables s g (d.ffbase + 4 * d.ffhead) 4 4 ∧
          f = lnum s g (d.ffbase + 4 * d.ffhead) 4 ∧ Frame s g f
        let took (f : Nat) (t : State) : Prop := lnum t g (d.addr + 0x18) 4 = (d.ffhead + 1) % d.ffsize ∧ lnum t g (frameEntry f) 4 = 1
        let books (f a : Nat) : Prop := (d.addr + 0x18 ≤ a ∧ a < d.addr + 0x1C) ∨ (frameEntry f ≤ a ∧ a < frameEntry f + 4)
        (e / 2 ^ 31 % 2 = 0 → app = false → LodeFails s k slot c 3 key pos) ∧
        (e / 2 ^ 31 % 2 = 0 → app = true → d.ffsize = 0 ∨ d.ffhead = d.fftail → LodeFails s k slot c 4 key pos) ∧
        (∀ f, e / 2 ^ 31 % 2 = 0 → app = true → taken f → puts f (fun j => if j < 8 then head 1 j else 0) (took f) (books f)) ∧
        (∀ f, e / 2 ^ 31 % 2 = 1 → Maps s g e f → ref f ≤ 1 → puts f (fun j => s.getByte (.lode g.val (4096 * f + j))) (fun _ => True) (fun _ => False)) ∧
        (∀ f f', e / 2 ^ 31 % 2 = 1 → Maps s g e f → 1 < ref f → taken f' → f' ≠ f →
          puts f' (fun j => if j < 8 then head 3 j else s.getByte (.lode g.val (4096 * f + j)))
            (fun t => took f' t ∧ lnum t g (frameEntry f) 4 = ref f - 1) (fun a => books f' a ∨ (frameEntry f ≤ a ∧ a < frameEntry f + 4)))))) ∧
  (∀ (s : State) (k slot q p : Nat) (r : Region) (c : Command) (key mem rng : DWord) (o : BitVec 6) (d : LodeDesc) (z : Seq) (l n : Node) (f : Nat),
    Fresh s k slot q r c → c.op = .lget key mem rng o → Tables s k key d z l → Sound s d.g → Plain s p → AtStore s k c mem 240 p →
    fld rng.toNat 47 32 = 1 → let pos := fld rng.toNat 31 0; let g := d.g; let ea := dirAt n key (pos / 16); let e := lnum s g ea 8
    let pl (i : Nat) : Place := .store p (mem.toNat % 2 ^ 19 + i)
    (z.fin ≤ pos → LodeFails s k slot c 2 key pos) ∧
    (pos < z.fin → n.start ≤ pos → (n = l ∨ (pos < l.start ∧ l.parent ≠ 0 ∧ nodeAt s g l.parent = .ok n)) → Within n key (pos / 16) →
      InTables s g ea 8 8 →
      (e / 2 ^ 31 % 2 = 0 → LodeFails s k slot c 3 key pos) ∧
      (e / 2 ^ 31 % 2 = 1 → Maps s g e f → Words s (o.getLsbD 5) pl mem.toNat 240 → ∃ t, exec (.commandComplete k slot) s = .next t ∧
        Done s t k q p c o ∧ (∀ i, i < 240 → t.getByte (pl i) = s.getByte (.lode g.val (4096 * f + 256 + 240 * (pos % 16) + i))) ∧
        lnum t g ea 8 = e ||| 2 ^ 29 ∧ Marks s t (o.getLsbD 5) pl 240 ∧
        ∀ x, (∀ i, i < 240 → x ≠ pl i) → (∀ i, i < 8 → x ≠ .lode g.val (ea + i)) → t.getByte x = s.getByte x)))

/-- R293, R300, R302 to R304: lshare, lrel, linv and lfork. -/
def LodeTrees : Prop :=
  (∀ (s : State) (k slot q : Nat) (r : Region) (c : Command) (key fr pos : DWord) (ext : Bool) (d : LodeDesc) (z : Seq) (n : Node) (f : Nat),
    Fresh s k slot q r c → c.op = .lshare key fr pos ext → Tables s k key d z n → Sound s d.g → pos.toNat + 16 < 2 ^ 32 →
    fld key.toNat 27 20 < n.nl → fld key.toNat 33 28 < n.nhg → let g := d.g; let m := pos.toNat / 16; let ea := dirAt n key m
    let e := lnum s g ea 8; let f0 := e % 2 ^ 24; let ref (t : State) (f : Nat) := lnum t g (frameEntry f) 4
    let grow := ext = true ∧ z.fin < 16 * m + 16
    (16 * m < n.start → LodeFails s k slot c 0x0B key pos.toNat) ∧
    (n.start ≤ 16 * m → Within n key m → InTables s g ea 8 8 → Apart [(d.addr, 64), (z.addr, 16), (n.addr, 64), (ea, 8)] → Maps s g fr.toNat f →
      (ref s f = 0 → LodeFails s k slot c 7 key pos.toNat) ∧
      (1 ≤ ref s f → ref s f + 1 < 2 ^ 32 → (e / 2 ^ 31 % 2 = 0 ∨ (f0 ≠ f ∧ f0 < 0xFF8000 ∧ 2 ≤ ref s f0)) →
        ∃ t, exec (.commandComplete k slot) s = .next t ∧ Done s t k q 0 c 0 ∧ lnum t g ea 8 = 2 ^ 31 + g.val * 2 ^ 24 + f ∧ ref t f = ref s f + 1 ∧
          (e / 2 ^ 31 % 2 = 1 → ref t f0 = ref s f0 - 1) ∧
          (grow → lnum t g (z.addr + 8) 4 = 16 * m + 16 ∧ lnum t g (n.addr + 4) 4 = 16 * m + 16 - n.start) ∧
          ∀ x, (∀ a, x = .lode g.val a → ¬ (ea ≤ a ∧ a < ea + 8) ∧ ¬ (frameEntry f ≤ a ∧ a < frameEntry f + 4) ∧
            (e / 2 ^ 31 % 2 = 1 → ¬ (frameEntry f0 ≤ a ∧ a < frameEntry f0 + 4)) ∧
            (grow → ¬ (z.addr + 8 ≤ a ∧ a < z.addr + 12) ∧ ¬ (n.addr + 4 ≤ a ∧ a < n.addr + 8))) → t.getByte x = s.getByte x))) ∧
  (∀ (s : State) (k slot q : Nat) (r : Region) (c : Command) (key : DWord) (d : LodeDesc) (z : Seq) (n : Node), Fresh s k slot q r c →
    c.op = .lrel key → Tables s k key d z n → Sound s d.g → n.addr ≠ 0 → let g := d.g; let len := 16 * n.nl * n.nhg * n.pcap
    let room := if d.rcsize = 0 then 0 else (d.rchead + 2 * d.rcsize - d.rctail - 1) % d.rcsize
    let released (t : State) : Prop := exec (.commandComplete k slot) s = .next t ∧ Done s t k q 0 c 0 ∧ lnum t g (z.addr + 12) 4 = 0
    (1 < n.ref → Apart [(z.addr, 16), (n.addr, 64)] → ∃ t, released t ∧ lnum t g (n.addr + 0x10) 4 = n.ref - 1 ∧
      ∀ x, (∀ a, x = .lode g.val a → ¬ (z.addr + 12 ≤ a ∧ a < z.addr + 16) ∧ ¬ (n.addr + 0x10 ≤ a ∧ a < n.addr + 0x14)) → t.getByte x = s.getByte x) ∧
    (n.ref = 1 → n.parent = 0 → InTables s g n.dir len 8 → 0 < len → room < 2 → LodeFails s k slot c 0x0A key 0) ∧
    (∀ (i f : Nat), n.ref = 1 → n.parent = 0 → InTables s g n.dir len 8 → 2 ≤ room → d.rctail < d.rcsize → d.fftail < d.ffsize → s.freeing = [] →
      s.pins = [] → 1 ≤ (d.ffhead + 2 * d.ffsize - d.fftail - 1) % d.ffsize → 8 * i < len → (∀ j, 8 * j < len →
        (lnum s g (n.dir + 8 * j) 8 / 2 ^ 31 % 2 = 1 ↔ j = i)) → f = lnum s g (n.dir + 8 * i) 8 % 2 ^ 24 → f < 0xFF8000 →
      lnum s g (frameEntry f) 4 = 1 → let r0 := d.rcbase + 8 * d.rctail; let r1 := d.rcbase + 8 * ((d.rctail + 1) % d.rcsize)
      let f0 := d.ffbase + 4 * d.fftail; let ea := n.dir + 8 * i
      InTables s g r0 8 8 → InTables s g r1 8 8 → InTables s g f0 4 4 →
      Apart [(d.addr, 64), (z.addr, 16), (n.addr, 64), (n.dir, len), (r0, 8), (r1, 8), (f0, 4)] → ∃ t, released t ∧
        lnum t g (n.addr + 0x10) 4 = 0 ∧ lnum t g ea 8 = 0 ∧ lnum t g (frameEntry f) 4 = 0 ∧ lnum t g f0 4 = f ∧
        lnum t g (d.addr + 0x1C) 4 = (d.fftail + 1) % d.ffsize ∧ lnum t g r0 8 = n.addr ∧ lnum t g r1 8 = n.dir ∧
        lnum t g (d.addr + 0x30) 4 = (d.rctail + 2) % d.rcsize ∧
        ∀ x, (∀ a, x = .lode g.val a → ∀ y ∈ [(z.addr + 12, 4), (n.addr + 0x10, 4), (ea, 8), (frameEntry f, 4), (f0, 4), (d.addr + 0x1C, 4), (r0, 8), (r1, 8),
          (d.addr + 0x30, 4)], ¬ (y.1 ≤ a ∧ a < y.1 + y.2)) → t.getByte x = s.getByte x)) ∧
  (∀ (s : State) (k slot q : Nat) (r : Region) (c : Command) (key : DWord) (all : Bool) (d : LodeDesc), Fresh s k slot q r c →
    c.op = .linv key all → lodeDesc s k (homeOf key.toNat) = .ok d →
    let stale (j : Nat) (y : Command) : Prop := s.ctxOf (.cond j) = r.ctx ∧ (s.cond j).region ≠ none ∧ y.memo.length = 3 ∧
      ∃ h m g o, y.op = .lget h m g o ∧ fld h.toNat 19 18 = fld key.toNat 19 18 ∧ (all = true ∨ fld h.toNat 19 0 = fld key.toNat 19 0)
    ∃ t, exec (.commandComplete k slot) s = .next t ∧ SameBytes s t ∧ Signalled s t q c ∧ (∀ y ∈ (t.cond k).cmds, y.id ≠ c.id) ∧
      ∀ j y, y ∈ (s.cond j).cmds → (j = k → y.id ≠ c.id) → (stale j y → { y with memo := [] } ∈ (t.cond j).cmds) ∧
        (¬ stale j y → y ∈ (t.cond j).cmds)) ∧
  (∀ (s : State) (k slot q : Nat) (r : Region) (c : Command) (blk : DWord) (bs : List Byte) (d : LodeDesc), Fresh s k slot q r c →
    c.op = .lfork blk → engRead s k c blk 64 = .ok (bs, s) → let v (o n : Nat) := num ((bs.drop o).take n)
    let dst := v 4 4; let g := d.g; let a := d.stbase + 16 * (dst % 2 ^ 18); let nn := v 0x10 8; let nd := v 0x18 8
    v 0xD 3 = 0 → v 0x39 7 = 0 → v 0 4 < 2 ^ 20 → dst < 2 ^ 20 → Sound s g → dst % 2 ^ 18 < d.nseq → InTables s g a 16 16 → lnum s g (a + 12) 4 % 2 = 0 →
    0 < v 0x20 4 → InTables s g nn 64 64 →
    let seqIs (t : State) (fin : Nat) : Prop := lnum t g a 8 = nn ∧ lnum t g (a + 8) 4 = fin ∧ lnum t g (a + 12) 4 = 1
    let rest (t : State) (l : List (Nat × Nat)) : Prop := ∀ x, (∀ b, x = .lode g.val b → ∀ y ∈ l, ¬ (y.1 ≤ b ∧ b < y.1 + y.2)) →
      t.getByte x = s.getByte x
    let forked (t : State) : Prop := exec (.commandComplete k slot) s = .next t ∧ Done s t k q 0 c 0
    (lodeDesc s k (homeOf dst) = .ok d → v 0xC 1 = 1 → let gw := v 0x24 4; let nl := gw % 2 ^ 16; let nhg := gw / 2 ^ 16 % 256
      let fmt := gw / 2 ^ 24; let geom := v 0x38 1; let len := 16 * nl * nhg * v 0x20 4
      1 ≤ nl → nl ≤ 256 → 1 ≤ nhg → nhg ≤ 64 → (fmt = 0 ∧ geom ∈ [0x46, 0x38, 0x64, 0x2C] ∨ fmt = 1 ∧ geom ∈ [0x26, 0x34, 0x1C, 0x18]) →
      InTables s g nd len 8 → Apart [(a, 16), (nn, 64), (nd, len)] → ∃ t, forked t ∧ seqIs t 0 ∧
        NodeIs t g ⟨nn, 0, 0, 0, 1, false, nd, 0, v 0x20 4, nl, nhg, fmt, geom⟩ ∧ (∀ i, i < len → t.getByte (.lode g.val (nd + i)) = 0) ∧
        rest t [(a, 16), (nn, 64), (nd, len)]) ∧
    (∀ z l n, v 0xC 1 = 0 → v 0x24 4 = 0 → v 0x38 1 = 0 → Tables s k (BitVec.ofNat 64 (v 0 4)) d z l → dst / 2 ^ 18 = g.val → let pos := v 8 4
      let b := pos / 16; let np := v 0x20 4; let len := 16 * n.nl * n.nhg * np; let old := 16 * n.nl * n.nhg * n.pcap
      let keys : List DWord := (List.range n.nl).flatMap (fun l => (List.range n.nhg).flatMap (fun h => [0, 1].map (fun kv =>
        BitVec.ofNat 64 (l * 2 ^ 20 + h * 2 ^ 28 + kv * 2 ^ 34))))
      n.nl ≤ 256 → n.nhg ≤ 64 → pos ≤ z.fin → n.start < pos → (n = l ∨ (pos ≤ l.start ∧ l.parent ≠ 0 ∧ nodeAt s g l.parent = .ok n)) →
      InTables s g nd len 8 → InTables s g n.dir old 8 →
      let new : Node := ⟨nn, pos, 0, n.addr, 1, false, nd, b, np, n.nl, n.nhg, n.fmt, n.geom⟩
      (n.sealed = true → pos = n.start + n.count → n.ref + 1 < 2 ^ 32 → (pos % 16 ≠ 0 → n.dbase ≤ b ∧ b - n.dbase < n.pcap) →
        Apart [(a, 16), (nn, 64), (nd, len), (n.addr, 64), (n.dir, old)] →
        let mapped (f : Nat) := (keys.filter (fun x => let e := lnum s g (dirAt n x b) 8; e / 2 ^ 31 % 2 = 1 && e % 2 ^ 24 = f)).length
        let more (f : Nat) := if pos % 16 = 0 then 0 else mapped f
        ∃ t, forked t ∧ seqIs t pos ∧ NodeIs t g new ∧ NodeIs t g { n with ref := n.ref + 1 } ∧
          (∀ x ∈ keys, ∀ i, i < np → lnum t g (dirAt new x (b + i)) 8 = if i = 0 ∧ pos % 16 ≠ 0 then
            (let e := lnum s g (dirAt n x b) 8; if e / 2 ^ 30 % 2 = 1 then e - 2 ^ 30 else e) else 0) ∧
          (∀ f, f < 2 ^ 24 → lnum t g (frameEntry f) 4 = (lnum s g (frameEntry f) 4 + more f) % 2 ^ 32) ∧
          rest t [(a, 16), (nn, 64), (nd, len), (n.addr, 64), (0xFF8000000, 2 ^ 27)]) ∧
      (n.sealed = false → pos % 16 = 0 → pos ≤ n.start + n.count → n.dbase ≤ n.start / 16 → b - n.dbase ≤ n.pcap → let pn := v 0x28 8; let pd := v 0x30 8
        let p0 := n.start / 16; let pre : Node := ⟨pn, n.start, pos - n.start, n.parent, 2, true, pd, p0, b - p0, n.nl, n.nhg, n.fmt, n.geom⟩
        let plen := 16 * n.nl * n.nhg * (b - p0)
        InTables s g pn 64 64 → InTables s g pd plen 8 → Apart [(a, 16), (nn, 64), (nd, len), (n.addr, 64), (n.dir, old), (pn, 64), (pd, plen)] →
        ∃ t, forked t ∧ seqIs t pos ∧ NodeIs t g { new with parent := pn } ∧ NodeIs t g pre ∧
          NodeIs t g { n with start := pos, count := n.start + n.count - pos, parent := pn } ∧
          (∀ x ∈ keys, ∀ m, p0 ≤ m → m < b → lnum t g (dirAt pre x m) 8 = lnum s g (dirAt n x m) 8 ∧ lnum t g (dirAt n x m) 8 = 0) ∧
          (∀ x ∈ keys, ∀ i, i < np → lnum t g (dirAt new x (b + i)) 8 = 0) ∧
          (∀ x ∈ keys, ∀ m, b ≤ m → m - n.dbase < n.pcap → lnum t g (dirAt n x m) 8 = lnum s g (dirAt n x m) 8) ∧
          rest t [(a, 16), (nn, 64), (nd, len), (n.addr, 64), (n.dir, old), (pn, 64), (pd, plen)])))

/-! #### Attention -/

/-- n bytes of a conductor's address lie in installed bulk pages, written to before, at the bulk addresses pl. -/
def Mapped (s : State) (r : Region) (k : Nat) (v : DWord) (n : Nat) (pl : Nat → Nat) : Prop :=
  (∃ e, s.extentNo (.cond k) (fld v.toNat 47 40) = some e ∧ ∀ i, i < n → Installed s r.ctx e (fld v.toNat 39 0 + i) (pl i)) ∧
  fld v.toNat 47 40 ≠ 0 ∧ fld v.toNat 39 0 + n ≤ 2 ^ 40 ∧ ∀ i j, i < n → j < n → pl i = pl j → i = j

/-- A byte of some bytes that begin at an offset. -/
def piece (off : Nat) (bs : List Byte) (j : Nat) : Option Byte := if j < off then none else bs[j - off]?

/-- The bytes at pl are those of l where it names one; no other byte has changed. -/
def Stores1 (s t : State) (pl : Nat → Nat) (n : Nat) (l : Nat → Option Byte) : Prop :=
  (∀ j, j < n → t.getByte (.bulk (pl j)) = (l j).getD (s.getByte (.bulk (pl j)))) ∧
  ∀ x, (∀ j, j < n → x ≠ .bulk (pl j)) → t.getByte x = s.getByte x

/-- STATE and CPOS of a block (R306). -/
def stateBytes (st cpos : Nat) : List Byte := BitVec.ofNat 8 st :: bytesOf 4 cpos

/-- What an attn keeps after a unit: its progress, and the image of its block and area. -/
def Keeps (t : State) (k : Nat) (c : Command) (prog fm gm : Nat) (img : List Byte) : Prop :=
  ∃ y ∈ (t.cond k).cmds, y.id = c.id ∧ y.prog = prog ∧ y.failed = none ∧ y.memo = fm :: gm :: img.map (·.toNat)

/-- R308: m, l and o of a row and head after the scores and V lanes of the positions of a tile. -/
def r308 (p : Pair) (xs : List (Word × List Block)) : Pair :=
  let m := xs.foldl (fun m x => if isNan m then m else if isNan x.1 then flushed x.1 ||| 0x00400000 else (fmax m (flushed x.1)).1) p.m
  if xs = [] ∨ m = 0xFF800000 then p
  else
    let a := (fexp2 (fsub p.m m).1).1
    let go (lo : Word × List Word) (x : Word × List Block) : Word × List Word :=
      let w := (fexp2 (fsub x.1 m).1).1
      ((fadd lo.1 w).1, (lo.2.zip (slotLanes x.2)).map (fun e => fusedLane w e.1 e.2.1 e.2.2))
    let r := xs.foldl go ((fmul p.l a).1, p.o.map (fun x => (fmul x a).1))
    ⟨m, r.1, r.2⟩

/-- R305 to R309: attention's arithmetic, and its units by STATE. -/
def Attention : Prop :=
  (∀ (p : Pair) (xs : List (Word × List Block)), p.update xs = r308 p xs) ∧
  (∀ (σ : Word) (q x : List Block), let d : Int := ((q.zip x).map (fun y => dotInts y.1.dec y.2.dec)).sum
    ((∀ b ∈ q ++ x, b.isNan = false) → finite σ → score σ q x = (rnd (val σ * d) (-447)).1) ∧
    ((∃ b ∈ q ++ x, b.isNan = true) ∨ isNan σ = true → score σ q x = 0x7FC00000)) ∧
  (∀ (w o : Word) (v : Int), finite w → finite o → let n := val w * v + val o * 2 ^ 149
    (n ≠ 0 → fusedLane w o false v = (rnd n (-298)).1) ∧ (isNan w = false → isNan o = false → isInf o = false → fusedLane w o true v = 0x7FC00000)) ∧
  (∀ (p : Pair) (b : Nat) (e : Fin 24), let out := (p.output b)[e]
    (isNan p.m ∨ isNan p.l ∨ p.o.any isNan → out = 0x7FC00000) ∧
    (isNan p.m = false → isNan p.l = false → p.o.any isNan = false → (isZero p.l → out = 0) ∧
      (isZero p.l = false → out = (fdiv (p.o.getD (24 * b + e.val) 0) p.l).1))) ∧
  (∀ (a b : Word), finite a → finite b → isZero b = false → let r := fdiv a b
    (isZero a → r.1 = if signOf a = signOf b then 0 else 0x80000000) ∧
    (isZero a = false → r.2 = 0 → finite r.1 ∧ ∀ v, finite v →
      (val r.1 * val b - val a * 2 ^ 149).natAbs ≤ (val v * val b - val a * 2 ^ 149).natAbs)) ∧
  (∀ (s : State) (k slot q fm gm : Nat) (r : Region) (c : Command) (blk : DWord) (img : List Byte) (pl : Nat → Nat),
    Under s k slot q r c → c.op = .attn blk → c.prog = 1 → c.memo = fm :: gm :: img.map (·.toNat) →
    let b := Block64.from img fm gm; img.length = b.size → Mapped s r k blk b.size pl →
    let v (o n : Nat) := num ((img.drop o).take n); let t := beat k slot 1 s; let st := v 0x27 1; let cp := v 0x28 4
    let g := homeOf (v 0 8); let p0 := v 8 4; let p1 := v 0xC 4; let bz := if fm = 1 then 20 else 10; let nq := v 0x24 1; let heads := gm / 16
    let blocks := gm % 16; let nQ := nq * heads * blocks; let pairs := nq * heads; let pos := p0 / 16 * 16
    let key : DWord := BitVec.ofNat 64 (v 0 8); let off := (0x40 + nQ * bz + 7) / 8 * 8
    let fails (f : CmdFault) : Prop := SameBytes s t ∧ ∃ y ∈ (t.cond k).cmds, y.id = c.id ∧ y.failed = some f
    let does (prog st' cp' at_ : Nat) (bs : List Byte) : Prop :=
      Stores1 s t pl b.size (fun j => (piece 0x27 (stateBytes st' cp') j).or (piece at_ bs j)) ∧
      Keeps t k c prog fm gm (patch (patch img at_ bs) 0x27 (stateBytes st' cp'))
    (st = 1 → cp < nQ → ∀ q1 n1 i1 ch, edgeChan s k c g b.qch true = some (q1, n1, i1) → s.getChan q1 n1 i1 = some ch →
      (ch.edge = [] → SameBytes s t ∧ Keeps t k c 1 fm gm img) ∧
      (∀ e l, ch.edge = e :: l → (∀ x, e.item = .data x → does 1 1 (cp + 1) (0x40 + cp * bz) (x.blockVal.bytes (fm == 1)) ∧
          ∃ ch', t.getChan q1 n1 i1 = some ch' ∧ ch'.edge = l) ∧
        (e.item = .drain → fails ⟨.lodefault, 0x0C, key, some (BitVec.ofNat 64 pos)⟩) ∧
        (∀ x a, e.item = .failed x a → x ≠ .lodefault → fails ⟨x, 0, a, none⟩))) ∧
    (st = 1 → nQ ≤ cp → does 1 2 (if p0 < p1 then p0 / 16 else (p1 + 15) / 16) off ((List.range pairs).flatMap (fun _ =>
      bytesOf 4 0xFF800000 ++ List.replicate (4 + 96 * blocks) 0))) ∧
    (st = 2 → (p1 ≤ p0 ∨ (p1 - 1) / 16 < cp) → does 1 3 0 0 []) ∧
    (∀ cm, st = 2 → p0 < p1 → p0 / 16 ≤ cp → cp ≤ (p1 - 1) / 16 → let i := cp - p0 / 16
      engRead s k c (BitVec.ofNat 64 (v 0x10 8)) (i / 4 + 1) = .ok (cm, s) → let code := (cm.getD (i / 4) 0).toNat / 4 ^ (i % 4) % 4
      (code = 3 → fails ⟨.lodefault, 5, key, some (BitVec.ofNat 64 (16 * cp))⟩) ∧
      (code = 0 → does 1 2 (cp + 1) off ((img.drop off).take (pairs * (8 + 96 * blocks)))) ∧
      (∀ ks vs s3 s4, code = 1 → let ps := ((List.range 16).map (fun u => 16 * cp + u)).filter (fun p => decide (p0 ≤ p) && decide (p < p1))
        1 ≤ nq → tileSlots s k (kvKey key false) ps = .ok (ks, s3) → tileSlots s3 k (kvKey key true) ps = .ok (vs, s4) →
        let slotOf (l : List (Nat × List Byte)) (p : Nat) := ((l.find? (fun e => e.1 == p)).map (·.2)).getD []
        let cut (bs : List Byte) (h : Nat) := (List.range blocks).map (fun j => blockFrom (fm == 1) (bs.drop ((h * blocks + j) * bz)))
        let after := (List.range pairs).map (fun x => r308 (pairFrom (img.drop (off + x * (8 + 96 * blocks))) blocks) (ps.map (fun p =>
          (score (BitVec.ofNat 32 (v 0x20 4)) (cut (img.drop 0x40) x) (cut (slotOf ks p) (x % heads)), cut (slotOf vs p) (x % heads)))))
        let area := (after.map Pair.bytes).flatten
        Stores1 s4 t pl b.size (fun j => (piece 0x27 (stateBytes 2 (cp + 1)) j).or (piece off area j)) ∧
          Keeps t k c 1 fm gm (patch (patch img off area) 0x27 (stateBytes 2 (cp + 1))))) ∧
    (st = 3 → cp < pairs * blocks → ∀ q1 n1 i1 ch h hs, edgeChan s k c g b.rch false = some (q1, n1, i1) → s.getChan q1 n1 i1 = some ch →
      ch.hops = h :: hs → (h.free = 0 → SameBytes s t ∧ Keeps t k c 1 fm gm img) ∧
      (h.free ≠ 0 → does 1 3 (cp + 1) 0 [] ∧ let p := pairFrom (img.drop (off + cp / blocks * (8 + 96 * blocks))) blocks
        t.getChan q1 n1 i1 = some { ch with
          edge := ch.edge ++ [⟨.data (.wide (p.output (cp % blocks))), ch.pushed, chanIdx ch.pushed, 0⟩], pushed := ch.pushed + 1,
          hops := { h with free := h.free - 1 } :: hs })) ∧
    (st = 3 → pairs * blocks ≤ cp → does 2 0 cp 0 [])) ∧
  (∀ (s : State) (k slot q : Nat) (r : Region) (c : Command) (blk : DWord) (hd img cm : List Byte) (pl : Nat → Nat) (d : LodeDesc) (z : Seq) (n : Node),
    Fresh s k slot q r c → c.op = .attn blk → engRead s k c blk 64 = .ok (hd, s) → let v (o n : Nat) := num ((hd.drop o).take n)
    let key : DWord := BitVec.ofNat 64 (v 0 8); Tables s k key d z n → v 0 8 < 2 ^ 35 → v 0x25 1 < 8 → v 0x26 1 < 8 → v 0x2C 20 = 0 →
    1 ≤ v 0x24 1 → v 0x24 1 ≤ 16 → v 0x27 1 < 4 → let b := Block64.from hd n.fmt n.geom; let p0 := v 8 4; let p1 := v 0xC 4
    let g := homeOf (v 0 8); let tiles := if p0 < p1 then (p1 - 1) / 16 + 1 - p0 / 16 else 0; let len := (tiles + 3) / 4
    (p1 < p0 ∨ z.fin < p1 → LodeFails s k slot c 2 key (p0 / 16 * 16)) ∧
    (p0 ≤ p1 → p1 ≤ z.fin → attnRange s k key blk b.size true = .ok () → attnRange s k key b.cmap len false = .ok () →
      engRead s k c b.cmap len = .ok (cm, s) → attnRange s k key b.bmap (2 * v 0x24 1 * partialBefore cm tiles) false = .ok () →
      ∀ x y, edgeChan s k c g b.qch true = some x → edgeChan s k c g b.rch false = some y →
        (chanType s x ≠ 4 + n.fmt → LodeFails s k slot c 6 key p0) ∧
        (chanType s x = 4 + n.fmt → v 0x27 1 = 0 → engRead s k c blk b.size = .ok (img, s) → Mapped s r k blk b.size pl → let t := beat k slot 1 s
          Stores1 s t pl b.size (piece 0x27 (stateBytes 1 0)) ∧ Keeps t k c 1 n.fmt n.geom (patch img 0x27 (stateBytes 1 0))))) ∧
  (∀ (s s' : State) (k : Nat) (key : DWord) (ps : List Nat) (l : List (Nat × List Byte)), tileSlots s k key ps = .ok (l, s') →
    l.map (·.1) = ps ∧ (∀ x, (∀ a, x ≠ .lode (homeOf key.toNat).val a) → s'.getByte x = s.getByte x)) ∧
  (∀ (s s1 : State) (k p : Nat) (key : DWord) (ps : List Nat) (f : Fill), walkLode s k key p = .ok (f, s1) →
    ∀ bs l s2, lodeRead s1 (homeOf key.toNat) (4096 * f.frame + 256 + 240 * (p % 16)) 240 = .ok bs → tileSlots s1 k key ps = .ok (l, s2) →
      tileSlots s k key (p :: ps) = .ok ((p, bs) :: l, s2))

end Sys2Proof.Claim

/-- R178 to R193, R265, R267, R268, R281 to R310, R325, R327: the life of a command, and what each kind of command does. The
model's choices here: a wide unit of a command is a word, an element, a page or a slot (log entry 1); an event whose condition
fails changes nothing (12); the running clause of a command is that of its dispatch (33); a clause waits for no outstanding
role map and its load takes the map in force when its last command dispatches (67); when the places of engines are taken (72);
alignment and order of the lode's checks (79). -/
def Obligations.CommandsDispatchMoveTheirBytesAndFinish : Prop :=
  (∀ (s : State) (k q : Nat) (r : Region) (pre post : List Command) (c : Command), (s.cond k).cmds = pre ++ c :: post →
    ((s.cond k).cmds.map (·.id)).Nodup → (∀ x ∈ pre, x.dispatched = true) → c.dispatched = false → (s.cond k).region = some q →
    s.region q = some r → let i := Instr.commandDispatch k
    (∀ w, c.wait = some w → s.semCount q w.sem < w.thr.toNat → exec i s = .next s) ∧
    ((∀ w, c.wait = some w → w.thr.toNat ≤ s.semCount q w.sem) → r.phase = .running → (∀ x ∈ (s.cond k).hart.pend, 2 ≤ x.level) →
      ((∃ v n, c.op = .clause v n) → ((List.range c.clause.toNat).filter (fun n => n ∉ r.completed)).length < 2 ∧
        ∀ j ∈ r.clusters, ∀ d ∈ (s.cond j).cmds, d.dispatched = true → d.failed = none → ∀ v, d.op ≠ .rolemap v) →
      ∃ t, exec i s = .next t ∧ SameBytes s t ∧ (t.cond k).hart = (s.cond k).hart ∧
        (c.op = .nopl → (t.cond k).cmds = pre ++ post ∧ Signalled s t q c) ∧
        (∀ v n, c.op = .clause v n → let no := c.clause.toNat; let last := ∀ j ∈ r.clusters, j = k ∨ (s.clauseCmd j no).isSome = true
          (¬ last → (t.cond k).cmds = pre ++ { c with dispatched := true } :: post ∧ ∀ j, j ≠ k → t.cond j = s.cond j) ∧
          (last → (∀ x ∈ pre, x.op.isClause = true → x.clause ≠ c.clause) →
            (r.clusters.head? = some k → (t.cond k).cmds = pre ++ { c with dispatched := true, memo := s.roleMapOf r } :: post) ∧
            ∀ j d, r.clusters.head? = some j → j ≠ k → s.clauseCmd j no = some d → { d with memo := s.roleMapOf r } ∈ (t.cond j).cmds)) ∧
        (c.op ≠ .nopl → (∀ v n, c.op ≠ .clause v n) → let m := (r.clauses.filter (fun cl => cl.waits = false)).getLast?.map (·.num)
          (t.cond k).cmds = pre ++ { c with dispatched := true, run := m } :: post))) ∧
  (∀ (s : State) (k slot q : Nat) (r : Region) (c : Command) (e : EngineKind), (s.cond k).cmds[slot]? = some c →
    ((s.cond k).cmds.map (·.id)).Nodup → c.dispatched = true → c.failed = none → (s.cond k).region = some q →
    s.region q = some r → r.phase = .running → c.prog < c.total → c.onEngine = none → c.engine s k = some e →
    (if e = .copy then 24 else 16) ≤ placed s e → exec (.commandComplete k slot) s = .next s) ∧
  EngineCommands ∧ LazyPages ∧ LodeTables ∧ LodeSlots ∧ LodeTrees ∧ Attention ∧
  (∀ (s : State) (k slot : Nat) (c : Command) (f : CmdFault), (s.cond k).cmds[slot]? = some c → ((s.cond k).cmds.map (·.id)).Nodup →
    c.failed = some f →
    (16 ≤ (s.cond k).records.length → exec (.commandFail k slot) s = .next s) ∧
    ((s.cond k).records.length < 16 → ∃ t, exec (.commandFail k slot) s = .next t ∧ SameBytes s t ∧
      (t.cond k).cmds = (s.cond k).cmds.filter (fun x => x.id ≠ c.id) ∧ (∀ q m, t.semCount q m = s.semCount q m) ∧
      ∃ rec, (t.cond k).records = (s.cond k).records ++ [rec] ∧ rec.cause = f.cause ∧ rec.src = 6 ∧ rec.code = f.code ∧
        rec.addr = f.addr ∧ rec.pc = c.pc ∧ rec.clause = c.clause))

/-- R190, R191, R204 to R215: the life of a clause. The model's choices here: an event whose condition fails changes nothing (log
entry 12), how a load waits for seamw commands (30), and the role map of a load, the one in force when the last of its
commands dispatched (67). -/
def Obligations.ClausesLoadRunAndRelease : Prop :=
  (∀ (s0 s s1 : State) (q k : Nat) (r : Region) (c : Command) (v n : DWord) (y : Option Plyn), s = s0.waitsOver q →
    s.region q = some r → r.clusters.head? = some k → s.clauseCmd k r.loads = some c → c.op = .clause v n →
    let i := Instr.clauseLoad q; let map := s.loadMap r c
    (map = if c.memo = [] then s.roleMapOf r else c.memo) ∧
    (s.loadReady r = true ↔ (r.phase = .running ∨ ∃ a b, r.phase = .preCopy a b) ∧ r.clauses.length < 2 ∧
      ∀ j ∈ r.clusters, ∃ x ∈ (s.cond j).cmds, (∃ v m, x.op = .clause v m) ∧ x.clause.toNat = r.loads ∧ x.dispatched = true ∧ x.failed = none) ∧
    (s.loadReady r = false → exec i s0 = .next s) ∧
    (s.loadReady r = true →
      (∀ code, readImage s k c v map.length (r.dmode.getLsbD 0) = .ok (.error code, y, s1) →
        ∃ t r', exec i s0 = .next t ∧ (∀ x, (∀ a, x ≠ .bulk a) → t.getByte x = s.getByte x) ∧ t.region q = some r' ∧
          r'.loads = r.loads + 1 ∧ r'.clauses = r.clauses ∧
          r'.completed = r.completed ++ [r.loads] ∧ ∀ j x, j ∈ r.clusters → s.clauseCmd j r.loads = some x →
            ∃ z ∈ (t.cond j).cmds, z.id = x.id ∧ z.failed = some ⟨.cmdfail, code, v, none⟩) ∧
      (∀ img s2, readImage s k c v map.length (r.dmode.getLsbD 0) = .ok (.ok img, y, s1) →
        s1.takeExtents q ⟨r.ctx, r.loads + 1⟩ r.owned img.extents = (s2, true) →
        ∃ t r' cl, exec i s0 = .next t ∧ (∀ x, (∀ a, x ≠ .bulk a) → t.getByte x = s.getByte x) ∧ t.region q = some r' ∧
          r'.loads = r.loads + 1 ∧ r'.clauses = r.clauses ++ [cl] ∧
          cl.num = r.loads ∧ cl.roles = img.roles ∧ cl.cells = map.take img.roles.length ∧ cl.loaded = [] ∧ cl.plyn = y ∧
          cl.released = [] ∧ cl.began = (s.cycle : Int) ∧ (cl.iters = if n = 0 then img.hdr.iters else n.toNat) ∧
          (cl.waits = true ↔ img.hdr.seam = 1 ∧ s2.seamwTo (seamDies r img.extents) = true)))) ∧
  (∀ (s0 s : State) (q n role k : Nat) (r : Region) (cl : Clause) (d : RoleDesc) (bs : List Byte), s = s0.waitsOver q →
    s.region q = some r → s.clauseAt q n = some cl → cl.roles[role]? = some d → r.clusters.head? = some k →
    let p := cl.cells.getD role 0
    let i := Instr.roleLoad q n role; let keep := d.keep ∧ 0 < n ∧ (s.cell p).last = some (q, n - 1)
    ((cl.waits = true ∨ role ∈ cl.loaded) → exec i s0 = .next s) ∧
    (cl.waits = false → role ∉ cl.loaded → r.phase = .running → s.cellFree r cl.num p = true → s.memWf = true →
      engRead s k (newCommand 0 .nopl ⟨none, none⟩ (s.hart (.cond k))) (cl.img + BitVec.ofNat 64 d.imgOff) d.imgLen = .ok (bs, s) →
      ∃ t, exec i s0 = .next t ∧ (t.cell p).bound = some (q, cl.num, role) ∧ (t.cell p).loaded = true ∧
        t.clauseAt q n = some { cl with loaded := cl.loaded ++ [role], chans := cl.chans.map (fun ch => ch.opened role p) } ∧
        bytesAt t (fun j => .store p j) bs.length = bs ∧
        (∀ j, bs.length ≤ j → (keep → t.getByte (.store p j) = s.getByte (.store p j)) ∧ (¬ keep → t.getByte (.store p j) = 0)) ∧
        (∀ x, (∀ j, x ≠ .store p j) → t.getByte x = s.getByte x) ∧
        (cl.presets = [] → ∀ c : Fin 4, t.hart (.ctx p c) = loadHart (d.stage c.val) role cl.roles.length cl.num r.dmode))) ∧
  (∀ (s : State) (p : Nat) (c : Fin 4) (q n role : Nat) (r : Region), (s.cell p).bound = some (q, n, role) → s.region q = some r →
    r.phase = .running → let h := s.hart (.ctx p c); let l : Fin 16 := Fin.ofNat 16 h.line; let i := Instr.iterationStart p c
    ((h.run ≠ .waiting ∨ h.armed = true ∧ (s.cell p).arrivals[l] = 0) → exec i s = .next s) ∧
    (h.run = .waiting → (h.armed = true → (s.cell p).arrivals[l] ≠ 0) → ∃ t, exec i s = .next t ∧ SameBytes s t ∧
      let g := t.hart (.ctx p c); g.run = .running ∧ g.pc = h.entry ∧ g.iter.toNat = h.begun % 2 ^ 32 ∧ g.begun = h.begun + 1 ∧
      g.x = h.x ∧ g.p = h.p ∧ g.a = h.a ∧ g.w = h.w ∧ g.m = h.m ∧ g.tl = h.tl ∧ g.pass = h.pass ∧
      (t.cell p).arrivals[l].toNat = (s.cell p).arrivals[l].toNat - (if h.armed then 1 else 0))) ∧
  (∀ (s : State) (p : Nat) (l : Fin 16), let x := s.cell p
    (l ∉ x.arriving → exec (.arrival p l) s = .next s) ∧
    (l ∈ x.arriving → ∃ t, exec (.arrival p l) s = .next t ∧ SameBytes s t ∧ (t.cell p).arriving = x.arriving.erase l ∧
      (t.cell p).arrivals[l].toNat = min (x.arrivals[l].toNat + 1) 65535)) ∧
  (∀ (s : State) (p q n role : Nat) (r : Region) (cl : Clause), let x := s.cell p; x.bound = some (q, n, role) → s.region q = some r →
    s.clauseAt q n = some cl → r.phase = .running → let i := Instr.cellRelease p
    ((∃ c : Fin 4, x.ctx[c].run ∉ [.absent, .finished, .stopped]) → exec i s = .next s) ∧
    ((∀ c : Fin 4, x.ctx[c].run ∈ [.absent, .finished, .stopped] ∧ (∀ y ∈ x.ctx[c].pend, 2 ≤ y.level) ∧
        ∀ o : Fin 8, x.ctx[c].ports[o].out = []) → x.loaded = true → cl.chans = [] → x.log = [] → x.msts = [] → x.ops = [] →
      x.arriving = [] → x.nestHold = 0 → (∀ k ∈ r.clusters, (s.cond k).cmds = []) →
      ∃ t r', exec i s = .next t ∧ (t.cell p).bound = none ∧ (t.cell p).loaded = false ∧ (t.cell p).last = some (q, n) ∧ SameBytes s t ∧
        (∀ c : Fin 4, let h := (t.cell p).ctx[c]; let g := x.ctx[c]; h.run = .absent ∧ h.x = g.x ∧ h.p = g.p ∧ h.a = g.a ∧ h.w = g.w ∧ h.m = g.m ∧ h.tl = g.tl ∧
          h.pass = g.pass ∧ h.pc = g.pc) ∧
        t.region q = some r' ∧
        ((∃ j, j < cl.roles.length ∧ j ≠ role ∧ j ∉ cl.released) → r'.completed = r.completed ∧
          t.clauseAt q n = some { cl with released := cl.released ++ [role] }) ∧
        ((∀ j, j < cl.roles.length → j = role ∨ j ∈ cl.released) → r'.completed = r.completed ++ [n] ∧
          r'.clauses = r.clauses.filter (fun y => y.num ≠ n)))) ∧
  (∀ (s : State) (q n k : Nat) (r : Region) (cl : Clause) (c : Command) (v m : DWord), s.region q = some r → s.clauseAt q n = some cl →
    r.clusters = [k] → (s.cond k).region = some q → (s.cond k).cmds = [c] → c.op = .clause v m → c.clause.toNat = n →
    c.dispatched = true → c.failed = none → (∀ j, j < cl.roles.length → j ∈ cl.released) → let t := s.closeClause q n
    SameBytes s t ∧ (∃ r', t.region q = some r' ∧ r'.completed = r.completed ++ [n] ∧ r'.clauses = r.clauses.filter (fun y => y.num ≠ n)) ∧
    (cl.nested = false → (t.cond k).cmds = [] ∧ Signalled s t q c) ∧
    (cl.nested = true → (t.cond k).cmds = [{ c with failed := some ⟨.cmdfail, 0x27, v, none⟩ }]))

/-! ### Channels, fault records and readiness -/

namespace Sys2Proof.Claim
open Sys2Proof Sys2Proof.Machine

/-- Channel i of clause n of a running region. -/
def ChanAt (s : State) (q n i : Nat) (r : Region) (cl : Clause) (ch : Chan) : Prop :=
  s.region q = some r ∧ r.phase = .running ∧ s.clauseAt q n = some cl ∧ cl.chans[i]? = some ch

/-- A hop has changed; no byte has, and no agent. -/
def HopIs (s t : State) (q n i j : Nat) (h : Hop) : Prop :=
  t.getHop q n i j = some h ∧ SameBytes s t ∧ ∀ a, t.hart a = s.hart a

/-- The queue of a port of an agent. -/
def queueOf (s : State) (a : AgentId) (p : Fin 8) : List Entry := (s.hart a).ports[p].queue

/-- A drain token, numbered after the last data token (R212, R222). -/
def drainAt (n : Nat) : Entry := ⟨.drain, n, ⟨n % 2 ^ 32, n / 2 ^ 32 % 2 ^ 32, 0, 0⟩, 0⟩

/-- The stages of a cell have all finished or are absent. -/
def Ended (s : State) (p : Nat) : Prop := ∀ c : Fin 4, (s.hart (.ctx p c)).run ∈ [.absent, .finished, .stopped]

/-- R233: the weight and the integral after an update with sample o. -/
def r233 (w lo hi : Nat) (sign : Int) (x : Couple) (i o : Int) : Int × Int :=
  let e := o - x.setpt; let i' := max (-1023) (min 1023 (i + e))
  (max (lo : Int) (min (hi : Int) (w + sign * (x.kp * e + x.ki * i'))), i')

end Sys2Proof.Claim

/-- R212, R226, R230, R231, R305, and the loop of R368 and R370. The model's choices here: an event whose condition fails changes
nothing (log entry 12), the owner that a border compares is the region's context (20), and the dispatch loop takes one step a
turn, over channels per pair of replicas (70). -/
def Obligations.ChannelEventsMoveTokensSlotsAndDrains : Prop :=
  (∀ (s : State) (q n i r1 r2 : Nat) (c1 c2 : Fin 4) (p1 p2 : Fin 8) (r : Region) (cl : Clause) (ch : Chan) (h : Hop) (e : Entry)
    (l : List Entry), ChanAt s q n i r cl ch → ch.src = .port r1 c1 p1 → ch.dst = .port r2 c2 p2 → ch.hops = [h] → r1 ∈ cl.loaded → r1 ∉ cl.released →
    r2 ∈ cl.loaded →
    let a1 := AgentId.ctx (cl.cells.getD r1 0) c1; let a2 := AgentId.ctx (cl.cells.getD r2 0) c2
    (a1, p1) ≠ (a2, p2) → queueOf s a1 p1 = e :: l →
    s.borderOk r.ctx (some (cl.cells.getD r1 0 / 204)) (some (cl.cells.getD r2 0 / 204)) = true →
    ∃ t, exec (.tokenHop q n i 0) s = .next t ∧ SameBytes s t ∧ queueOf t a1 p1 = l ∧ queueOf t a2 p2 = queueOf s a2 p2 ++ [e] ∧
      (e.item ≠ .drain → t.getChan q n i = some { ch with arrived := ch.arrived + 1 }) ∧
      (e.item = .drain → t.getChan q n i = some { ch with drainHops := 1 })) ∧
  (∀ (s : State) (q n i j : Nat) (r : Region) (cl : Clause) (ch : Chan) (g h : Hop) (e : Entry) (l : List Entry),
    ChanAt s q n i r cl ch → ch.hops[j]? = some g → ch.hops[j + 1]? = some h → j + 2 < ch.hops.length → g.buf = e :: l → e.item ≠ .drain →
    cl.hopLoaded ch (j + 1) = true → let x := Instr.tokenHop q n i (j + 1)
    let ok := s.borderOk r.ctx ((ch.dies cl.cells).getD (j + 1) none) ((ch.dies cl.cells).getD (j + 2) none)
    let g' : Hop := { g with buf := l, freed := g.freed + 1, firstFreed := some (g.firstFreed.getD s.cycle) }
    (h.free = 0 → exec x s = .next s) ∧
    (h.free ≠ 0 → ok = true → ∃ t, exec x s = .next t ∧ HopIs s t q n i j g' ∧
      HopIs s t q n i (j + 1) { h with buf := h.buf ++ [e], free := h.free - 1 }) ∧
    (h.free ≠ 0 → ok = false → ∃ t r', exec x s = .next t ∧ HopIs s t q n i j g' ∧ HopIs s t q n i (j + 1) h ∧ t.region q = some r' ∧
      r'.doom = some 0x0E)) ∧
  (∀ (s : State) (q n i j : Nat) (r : Region) (cl : Clause) (ch : Chan) (g h : Hop) (e : Entry) (l : List Entry),
    ChanAt s q n i r cl ch → ch.hops[j]? = some g → ch.hops[j + 1]? = some h → j + 2 < ch.hops.length → g.buf = e :: l → e.item = .drain →
    cl.hopLoaded ch (j + 1) = true → let x := Instr.tokenHop q n i (j + 1)
    let ok := s.borderOk r.ctx ((ch.dies cl.cells).getD (j + 1) none) ((ch.dies cl.cells).getD (j + 2) none)
    (ok = true → ∃ t, exec x s = .next t ∧ HopIs s t q n i j { g with buf := l } ∧ HopIs s t q n i (j + 1) { h with buf := h.buf ++ [e] }) ∧
    (ok = false → ∃ t r', exec x s = .next t ∧ HopIs s t q n i j { g with buf := l } ∧ HopIs s t q n i (j + 1) h ∧ t.region q = some r' ∧
      r'.doom = some 0x0E)) ∧
  (∀ (s : State) (ctx : Nat) (a b : Nat), s.borderOk ctx (some a) (some b) = true ↔ s.partitions.getD a 0 = s.partitions.getD b 0 ∨
    ∃ g ∈ s.borders, g.fromPart = s.partitions.getD a 0 ∧ g.toPart = s.partitions.getD b 0 ∧ g.owner = ctx) ∧
  (∀ (s : State) (q n i j : Nat) (r : Region) (cl : Clause) (ch : Chan) (h : Hop), ChanAt s q n i r cl ch → ch.hops[j]? = some h →
    let granted : Hop := { h with freed := 0, firstFreed := none, grants := h.grants ++ [h.freed] }
    ((h.freed = 0 ∨ h.cross = true) → exec (.slotReturn q n i j) s = .next s) ∧
    (h.freed ≠ 0 → h.cross = false → ch.src.isRemote = false → ∃ t, exec (.slotReturn q n i j) s = .next t ∧ HopIs s t q n i j
      { h with free := h.free + 1, freed := h.freed - 1, firstFreed := if h.freed = 1 then none else h.firstFreed }) ∧
    (h.freed < 4 → exec (.sendWindowGrant q n i j) s = .next s) ∧
    (4 ≤ h.freed → h.cross = true → ch.src.isRemote = false → ∃ t, exec (.sendWindowGrant q n i j) s = .next t ∧ HopIs s t q n i j granted) ∧
    (∀ c, h.firstFreed = some c → s.cycle < c + 64 → exec (.grantTimer q n i j) s = .next s) ∧
    (∀ c, h.firstFreed = some c → c + 64 ≤ s.cycle → 0 < h.freed → h.cross = true → ch.src.isRemote = false →
      ∃ t, exec (.grantTimer q n i j) s = .next t ∧ HopIs s t q n i j granted) ∧
    (h.grants = [] → exec (.grantArrival q n i j) s = .next s) ∧
    (∀ g l, h.grants = g :: l → ∃ t, exec (.grantArrival q n i j) s = .next t ∧ HopIs s t q n i j
      { h with free := h.free + g, grants := l })) ∧
  (∀ (s : State) (q n i r1 : Nat) (c : Fin 4) (p : Fin 8) (r : Region) (cl : Clause) (ch : Chan), ChanAt s q n i r cl ch →
    ch.src = .port r1 c p → let a := AgentId.ctx (cl.cells.getD r1 0) c; let x := Instr.drainToken q n i
    ((ch.drainSent = true ∨ (s.hart a).run ∉ [.absent, .finished, .stopped]) → exec x s = .next s) ∧
    (ch.drainSent = false → (s.hart a).run ∈ [.absent, .finished, .stopped] → r1 ∈ cl.loaded → r1 ∉ cl.released →
      ∃ t, exec x s = .next t ∧ SameBytes s t ∧ queueOf t a p = queueOf s a p ++ [drainAt ch.pushed] ∧
        t.getChan q n i = some { ch with drainSent := true })) ∧
  (∀ (s : State) (q n i : Nat) (g : Fin 4) (slot : Fin 8) (r : Region) (cl : Clause) (ch : Chan), ChanAt s q n i r cl ch →
    ch.src = .edge g slot → let x := Instr.edgeDrain q n i
    ((∃ j, j < cl.roles.length ∧ j ∈ cl.loaded ∧ j ∉ cl.released ∧ ¬ Ended s (cl.cells.getD j 0)) → exec x s = .next s) ∧
    ((∀ j, j < cl.roles.length → j ∈ cl.released ∨ j ∈ cl.loaded ∧ Ended s (cl.cells.getD j 0)) → (∀ k ∈ r.clusters, (s.cond k).cmds = []) →
      ch.drainSent = false → ∃ t, exec x s = .next t ∧ SameBytes s t ∧
        t.getChan q n i = some { ch with edge := ch.edge ++ [drainAt ch.pushed], drainSent := true })) ∧
  (∀ (s : State) (p g n i : Nat) (c : Fin 4) (cl : Clause) (y : Plyn) (r : Replica), s.clauseAt g n = some cl → cl.plyn = some y →
    y.reps[i]? = some r → let a := AgentId.ctx p c; let h := s.hart a; let turn := dispatchTurn a g n i r s
    let entered (u : State) (z : Plyn) : Prop := turn = .next u ∧ SameBytes s u ∧ (∀ b, b ≠ a → u.hart b = s.hart b) ∧
      u.clauseAt g n = some { cl with plyn := some z } ∧ let k := u.hart a
      k.pc = BitVec.ofNat 64 r.code ∧ k.hold = none ∧ k.run = h.run ∧ k.level = h.level ∧ k.x[2] = BitVec.ofNat 64 r.area ∧
      k.x[3] = BitVec.ofNat 64 r.index ∧ (∀ d : Fin 24, d ∉ [1, 2, 3] → k.x[d] = h.x[d]) ∧ (∀ d : Fin 24, d ≠ 0 → k.a[d] = h.a[d] ∧
      k.w[d] = h.w[d]) ∧ k.p = h.p ∧ k.m = h.m ∧ k.tl = h.tl ∧ k.ports = h.ports
    (r.start = true → r.ran = false → r.index = 0 → ∃ u z, entered u z ∧ z.reps[i]? = some { r with ran := true } ∧ z.chans = y.chans ∧
      (u.hart a).x[1] = 0 ∧ (u.hart a).a[0] = ⟨0, false⟩ ∧ (u.hart a).w[0] = Wide.zero) ∧
    (r.start = true → r.ran = true ∨ r.index ≠ 0 → turn = exec (.ends 0) s) ∧
    (∀ t z, r.start = false → y.next i r = some (t, z) → ∃ u, entered u z ∧ let k := u.hart a
      (r.ttype < 4 → k.x[1] = t.scalarVal ∧ k.a[0] = h.a[0] ∧ k.w[0] = h.w[0]) ∧
      (4 ≤ r.ttype → r.ttype < 6 → k.a[0] = t.blockVal ∧ k.x[1] = h.x[1] ∧ k.w[0] = h.w[0]) ∧
      (6 ≤ r.ttype → k.w[0] = t.wideVal ∧ k.x[1] = h.x[1] ∧ k.a[0] = h.a[0])) ∧
    (r.start = false → y.next i r = none → let dry := ∀ ch ∈ y.chans, ch.dst = i → s.replicaEnded g cl ch.src = true
      (dry → turn = exec (.ends 0) s) ∧ (¬ dry → turn = .next (s.holdBy a (.empty 0))))) ∧
  (∀ (y z : Plyn) (i : Nat) (r : Replica) (t : Token), let ins := y.chans.zipIdx.filter (fun ch => ch.1.dst = i); let len := ins.length
    y.reps[i]? = some r → r.turn < len → y.next i r = some (t, z) → ∃ m ch j l, m < len ∧ let k := (r.turn + m) % len
      ins[k]? = some (ch, j) ∧ ch.tokens = t :: l ∧ z.chans[j]? = some { ch with tokens := l } ∧
      (∀ o, o ≠ j → z.chans[o]? = y.chans[o]?) ∧ z.reps[i]? = some { r with turn := (k + 1) % len } ∧
      (∀ o x, o < m → ins[(r.turn + o) % len]? = some x → x.1.tokens = []))

/-- R50, R232, R233, R267 to R269. The model's choices here: an event whose condition fails changes nothing (log entry 12), which
contexts count as ready in the cycle before (16), and samples: until when one is taken after a resumption, that one still under
way counts, and that an update uses it up (43). -/
def Obligations.RatesRecordsAndReadinessFollowTheirRules : Prop :=
  (∀ (s : State) (q n i r2 : Nat) (c : Fin 4) (p : Fin 8) (r : Region) (cl : Clause) (ch : Chan), ChanAt s q n i r cl ch →
    ch.dst = .port r2 c p → let x := Instr.occupancySample q n i
    let o : Int := ((queueOf s (.ctx (cl.cells.getD r2 0) c) p).countP (fun e => e.item ≠ .drain) : Nat)
    let due (y : Couple) : Prop := y.sampled ≠ s.cycle / 256 + 1 ∧ (s.cycle % 256 = 0 ∨ y.resumed = true ∧ s.cycle % 256 ≤ 128)
    r2 ∈ cl.loaded → r2 ∉ cl.released → ∃ (t : State) (z : List Couple), exec x s = .next t ∧ SameBytes s t ∧ t.clauseAt q n = some { cl with couples := z } ∧
      z.length = cl.couples.length ∧ ∀ (j : Nat) (y : Couple), cl.couples[j]? = some y → ∃ y', z[j]? = some y' ∧
        (y.chan = i → due y → y' = { y with sampleC := some o, inFlight := some o, sampled := s.cycle / 256 + 1, resumed := false }) ∧
        (¬ (y.chan = i ∧ due y) → y' = y)) ∧
  (∀ (s : State) (q n i : Nat) (r : Region) (cl : Clause), s.region q = some r → s.clauseAt q n = some cl →
    ∃ t, exec (.sampleMessage q n i) s = .next t ∧ SameBytes s t ∧ t.clauseAt q n = some { cl with couples := cl.couples.map (fun y =>
      if y.chan = i then (match y.inFlight with | some o => { y with sampleP := some o, inFlight := none } | none => y) else y) }) ∧
  (∀ (s : State) (cell q n role r1 r2 : Nat) (c1 c2 : Fin 4) (p1 p2 : Fin 8) (r : Region) (cl : Clause) (ch : Chan) (x : Couple) (o : Int),
    (s.cell cell).bound = some (q, n, role) → ChanAt s q n x.chan r cl ch → cl.couples = [x] → ch.src = .port r1 c1 p1 →
    ch.dst = .port r2 c2 p2 → (∀ j ∈ [r1, r2], j ∈ cl.loaded ∧ j ∉ cl.released) → let i := Instr.rateUpdate cell
    let h (c : Fin 4) := s.hart (.ctx cell c)
    (∀ c, (h c).wmin.toNat ≤ (h c).wgt.toNat ∧ (h c).wgt.toNat ≤ (h c).wmax.toNat) →
    let after (t : State) (c : Fin 4) (w : Int) : Prop := ((t.hart (.ctx cell c)).wgt.toNat : Int) = w ∧
      ∀ d, d ≠ c → (t.hart (.ctx cell d)).wgt = (h d).wgt
    let occ : Int := ((queueOf s (.ctx (cl.cells.getD r2 0) c2) p2).countP (fun e => e.item ≠ .drain) : Nat)
    let due := x.sampled ≠ s.cycle / 256 + 1 ∧ x.resumed = true
    let now := s.cycle % 256 = 128 ∧ (s.cell cell).lastRate ≠ s.cycle + 1
    let consumes := cl.cells[r2]? = some cell ∧ cl.cells[r1]? ≠ some cell ∧ r1 < cl.cells.length
    let produces := cl.cells[r1]? = some cell ∧ cl.cells[r2]? ≠ some cell ∧ r2 < cl.cells.length
    (¬ now → exec i s = .next s) ∧
    (∀ oC oP : Option Int, now → x.moved.1 ≠ s.cycle + 1 → (due → oC = some occ ∧ oP = some occ) →
      (¬ due → oC = x.sampleC ∧ oP = (match x.inFlight with | some o => some o | none => x.sampleP)) →
      let u (c : Fin 4) (sign : Int) (j : Int) (y : Option Int) : Int × Int :=
        y.elim ((h c).wgt.toNat, j) (r233 (h c).wgt.toNat (h c).wmin.toNat (h c).wmax.toNat sign x j)
      ∃ (t : State) (z : Couple), exec i s = .next t ∧ SameBytes s t ∧ t.clauseAt q n = some { cl with couples := [z] } ∧
        z = { x with
          intC := (u c2 1 x.intC oC).2, intP := (u c1 (-1) x.intP oP).2, sampleC := none, sampleP := none, inFlight := none
          moved := z.moved, sampled := if due then s.cycle / 256 + 1 else x.sampled, resumed := if due then false else x.resumed } ∧
        z.moved.1 = s.cycle + 1 ∧ (consumes → after t c2 (u c2 1 x.intC oC).1) ∧ (produces → after t c1 (u c1 (-1) x.intP oP).1)) ∧
    (∀ uP uC : Int, now → x.moved = (s.cycle + 1, uP, uC) →
      let to16 (c : Fin 4) (d : Int) : Int :=
        max ((h c).wmin.toNat : Int) (min ((h c).wmax.toNat : Int) ((h c).wgt.toNat + d))
      ∃ t, exec i s = .next t ∧ SameBytes s t ∧ t.clauseAt q n = some { cl with couples := [x] } ∧ (consumes → after t c2 (to16 c2 uC)) ∧
        (produces → after t c1 (to16 c1 (-uP))))) ∧
  (∀ (s : State) (k q lo fo : Nat) (r : Region) (e x : Extent) (rec : Record) (l : List Record), (s.cond k).region = some q →
    s.region q = some r → r.phase = .running → (s.cond k).records = rec :: l → rec.cause ≠ .swtrap → let a := AgentId.cond k; let h := s.hart a
    (h.level = true → exec (.faultRecordDelivery k) s = .next s) ∧
    (h.level = false → h.run = .running → h.flight = [] → (∀ w ∈ s.ldfWait, w.agent = a → w.got = none) → h.hold ∈ [none, some .sem, some .cwait, some .ldf, some .halt, some .waitField, some .issueQueue, some .page] →
      r.xfaults = [] → s.extentNo a r.lext = some e → s.extentNo a (fld h.tframe.toNat 47 40) = some x →
      let off := r.frbase + 64 * h.roleIdx.toNat
      Installed s r.ctx e off lo → Installed s r.ctx x (fld h.tframe.toNat 39 12 * 4096) fo → (fo + 2048 ≤ lo ∨ lo + 64 ≤ fo) → s.memWf = true →
      ∃ t, exec (.faultRecordDelivery k) s = .next t ∧
        (let v (i n : Nat) := numAt t (fun j => .bulk (lo + i + j)) n;
          v 0 1 = rec.cause.code % 256 ∧ v 1 1 = rec.src % 256 ∧ v 2 1 = rec.code % 256 ∧
          v 3 1 = ((if rec.stage then 128 else 0) + rec.ctx) % 256 ∧ v 4 2 = rec.role % 2 ^ 16 ∧ v 8 8 = rec.addr.toNat ∧
          v 16 8 = rec.xaddr.toNat ∧ v 24 8 = rec.pc.toNat ∧ v 32 8 = rec.seq % 2 ^ 64 ∧ v 56 4 = rec.clause.toNat) ∧
        (∀ y, (∀ i, i < 64 → y ≠ .bulk (lo + i)) → (∀ i, i < 2048 → y ≠ .bulk (fo + i)) → t.getByte y = s.getByte y) ∧
        t.getByte (.bulk fo) = 0 ∧
        (t.cond k).records = l ∧ let g := t.hart a
        g.level = true ∧ g.tpc = h.pc ∧ g.tcause.toNat = rec.cause.code ∧ g.tinfo0 = rec.addr ∧
        g.tinfo1 = BitVec.ofNat 64 (r.lext * 2 ^ 40 + off) ∧ g.pc = (if h.fvec = 0 then h.tvec else h.fvec) ∧ g.hold = none ∧ g.x = h.x ∧
        g.p = h.p ∧ (h.hold ≠ some .cwait → (t.cond k).cmds = (s.cond k).cmds))) ∧
  (∀ (s : State) (p : Nat) (c e : Fin 4), let x := s.cell p
    let was (d : Fin 4) : Prop := 0 < s.cycle ∧ x.ctx[d].readyFrom ≤ s.cycle ∧ s.cycle ≤ x.ctx[d].readyAt
    let others (t : State) : Prop := SameBytes s t ∧ ∀ d, d ≠ c → (t.cell p).ctx[d] = x.ctx[d]
    ((was c ∨ x.ctx[c].readyAt = s.cycle + 1 ∨ ∀ d, ¬ was d) → ∃ t, exec (.contextReady p c) s = .next t ∧ others t ∧
      (t.cell p).ctx[c].pass = x.ctx[c].pass) ∧
    (¬ was c → x.ctx[c].readyAt ≠ s.cycle + 1 → was e → (∀ d, was d → x.ctx[e].pass.toNat ≤ x.ctx[d].pass.toNat) →
      (∀ d : Fin 4, x.ctx[d].pass.toNat < 2 ^ 63) →
      ∃ t, exec (.contextReady p c) s = .next t ∧ others t ∧
        (t.cell p).ctx[c].pass.toNat = max x.ctx[c].pass.toNat x.ctx[e].pass.toNat ∧ (t.cell p).ctx[c].readyAt = s.cycle + 1))

/-! ### Queues, the distributor and pre-emption -/

namespace Sys2Proof.Claim
open Sys2Proof Sys2Proof.Machine

/-- A region with no cell that serves it, no channel and no command outstanding, whose conductors have finished every access and instruction, hold nothing and wait nowhere. -/
def Quiet (s : State) (q : Nat) (r : Region) : Prop :=
  s.region q = some r ∧ (∀ c ∈ s.cells, c.2.bound.map (·.1) ≠ some q) ∧ (∀ cl ∈ r.clauses, cl.chans = []) ∧
  ∀ k ∈ r.clusters, (s.cond k).cmds = [] ∧ (∀ w ∈ s.ldfWait, w.agent ≠ .cond k) ∧ let h := (s.cond k).hart
    h.pend = [] ∧ h.flight = [] ∧ h.hold = none ∧ h.arrived = none ∧ h.replayed = 0 ∧ ∀ p : Fin 8, h.ports[p].out = []

/-- CPL of the record at a holds CLUSTERS, STATE and CODE (R337). -/
def CplIs (t : State) (a : Nat) (ks : List Nat) (state code : Nat) : Prop :=
  numAt t (fun i => .bulk (a + 0x38 + i)) 8 = ((ks.map (fun k => 2 ^ k)).sum + state * 2 ^ 48 + code * 2 ^ 52) % 2 ^ 64

/-- A region is gone: its queue's slot is empty, its conductors are free. -/
def Gone (t : State) (q : Nat) (r : Region) : Prop := t.region q = none ∧ ∀ k ∈ r.clusters, (t.cond k).region = none

/-- The record at the head of a queue has retired: CPL is written, HEAD advanced modulo the size, VEC raised with IRQ (R335, R341). -/
def RetiredTo (s t : State) (q a : Nat) (ks : List Nat) (state code : Nat) : Prop :=
  let x := s.queue q
  CplIs t a ks state code ∧ (t.queue q).head = (x.head + 1) % 2 ^ (x.qcfg.toNat % 16) ∧ (t.queue q).state = 0 ∧
  (t.queue q).tail = x.tail ∧ t.msix = s.msix ++ if x.qcfg.getLsbD 9 then [x.qcfg.toNat / 2 ^ 16 % 2 ^ 11] else []

/-- Nothing ends a region: no doom, no conductor stopped by NESTED, and the cap not passed (R344, R352). -/
def Lives (s : State) (r : Region) : Prop :=
  r.doom = none ∧ (∀ k ∈ r.clusters, (s.cond k).hart.run ≠ .stopped) ∧ r.consumed ≤ r.cap * 2 ^ 16

/-- A region's image is kept, with each clause's cycles since its load: the region stands still, and the image holds its clusters as ranks, its conductors' registers and its semaphores. -/
def Kept (s t : State) (q : Nat) (r : Region) : Prop :=
  SameBytes s t ∧ (∃ r', t.region q = some r' ∧ r'.phase = .saving ∧ r'.clusters = r.clusters) ∧ ∃ i : Image, tfind t.saves q = some i ∧
    i.rclass = s.rclass ∧ i.region.sems = r.sems ∧ i.region.clauses.map (fun cl => (cl.num, cl.iters, cl.began)) = r.clauses.map (fun cl => (cl.num, cl.iters, (s.cycle : Int) - cl.began)) ∧
    i.region.clusters = r.clusters.map (fun k => r.clusters.idxOf k) ∧ i.conds.length = r.clusters.length ∧
    ∀ j k : Nat, r.clusters[j]? = some k → ∃ c : Cond, i.conds[j]? = some c ∧ let g := (s.cond k).hart; let h := c.hart
      h.x = g.x ∧ h.p = g.p ∧ h.a = g.a ∧ h.w = g.w ∧ h.m = g.m ∧ h.tl = g.tl ∧ h.pc = g.pc ∧ h.fps = g.fps ∧ h.tframe = g.tframe

/-- Every conductor of a region has halted. -/
def Halted (s : State) (r : Region) : Prop := ∀ k ∈ r.clusters, (s.cond k).hart.run = .halted

/-- Nothing of a region is in flight (R260): its cells' arrays, side logs, accumulator stores and arrivals are done, its contexts' and
conductors' stores are performed at system scope and no instruction or token fetch is half done, its channels are empty with every slot
returned, and no command but `clause` and cwait is outstanding (a region that is stopped moves no command). -/
def Calm (s : State) (q : Nat) (r : Region) : Prop :=
  (∀ c ∈ s.cells, c.2.bound.map (·.1) = some q → let x := s.cell c.1
    x.log = [] ∧ x.ops = [] ∧ x.msts = [] ∧ x.arriving = [] ∧ ∀ d : Fin 4, let h := x.ctx[d]
      (∀ y ∈ h.pend, 3 ≤ y.level) ∧ h.flight = [] ∧ ∀ o : Fin 8, h.ports[o].seen = [] ∧ (h.ports[o].chan = true ∨ h.ports[o].out = [])) ∧
  (∀ cl ∈ r.clauses, ∀ ch ∈ cl.chans, (∀ j b, j + 1 < ch.hops.length → ch.hops[j]? = some b → b.buf = []) ∧
    (∀ b ∈ ch.hops, b.freed = 0 ∧ b.grants = []) ∧ (ch.hops ≠ [] → match ch.src with
      | .port a d o => cl.endLive ch.src = true → ((s.hart (.ctx (cl.cells.getD a 0) d)).ports[o]).queue = []
      | .edge _ _ => ch.edge = []
      | .remote _ => True)) ∧
  ∀ k ∈ r.clusters, (∀ y ∈ (s.cond k).hart.pend, 3 ≤ y.level) ∧ (s.cond k).hart.flight = [] ∧
    (r.phase = .saving ∨ ∀ c ∈ (s.cond k).cmds, (∃ v, c.op = .cwait v) ∨ ∃ v n, c.op = .clause v n)

end Sys2Proof.Claim

/-- R335 to R343. The model's choices here: an event whose condition fails changes nothing (log entry 12), and when a period
written over 0 began (57). -/
def Obligations.QueuesBudgetThePeriodsAndStartSentences : Prop :=
  (∀ (s : State) (q : Nat) (v : DWord), let x := s.queue q
    ((s.firm.ready = false ∨ 64 ≤ q) → exec (.tailWrite q v) s = .next s) ∧
    (s.firm.ready = true → q < 64 → ∃ t, exec (.tailWrite q v) s = .next t ∧ SameBytes s t ∧
      t.queue q = if v.toNat < 2 ^ (x.qcfg.toNat % 16) ∧ v.toNat < 2 ^ 12 then { x with tail := v.toNat } else x) ∧
    (∀ (reg : QReg) (m : Nat), s.firm.ready = true → q < 64 → (reg, m) ∈ [(QReg.qbase, 0xFFFFFFFFFFC0), (.qcfg, 0x07FF030F),
        (.period, 0xFFFFFFFF), (.budget, 0xFFFFFFFF), (.tokens, 0xFFFFFFFFFFFF)] →
      ∃ t, exec (.queueRegisterWrite q reg v) s = .next t ∧ SameBytes s t ∧ let y := t.queue q
        (v.toNat &&& m ≠ v.toNat → y = x) ∧
        (v.toNat &&& m = v.toNat → (reg = .period → (x.qcfg.getLsbD 8 = false ∨ x.period ≠ 0 ∨ v = 0 → y = { x with period := v }) ∧
            (x.qcfg.getLsbD 8 = true → x.period = 0 → v ≠ 0 → y.period = v ∧ y.periodEnd ≤ max s.cycle x.enabledAt ∧
              (x.enabledAt ≤ s.cycle → s.cycle < y.periodEnd + 256 * v.toNat ∧ ∃ k, y.periodEnd = x.enabledAt + 256 * v.toNat * k))) ∧
          (reg = .budget → y = { x with budget := v }) ∧
          (reg = .tokens → y = { x with tokens := v }) ∧
          (reg = .qbase → y = if x.qcfg.getLsbD 8 ∨ x.head ≠ x.tail then x else { x with qbase := v }))) ∧
    ((x.qcfg.getLsbD 8 = false ∨ x.period = 0 ∨ s.cycle < x.periodEnd) → exec (.periodStart q) s = .next s) ∧
    (x.qcfg.getLsbD 8 = true → x.period ≠ 0 → x.periodEnd ≤ s.cycle → ∃ t, exec (.periodStart q) s = .next t ∧ SameBytes s t ∧
      let y := t.queue q; let n := x.tokens.toNat
      y.left = 256 * x.budget.toNat ∧ y.periodEnd = x.periodEnd + 256 * x.period.toNat ∧ y.deadline = some y.periodEnd ∧
      y.tokens.toNat % 2 ^ 16 = min (n % 2 ^ 16 + n / 2 ^ 16 % 2 ^ 16) (n / 2 ^ 32 % 2 ^ 16) ∧ y.tokens.toNat / 2 ^ 16 = n / 2 ^ 16 ∧
      y.head = x.head ∧ y.tail = x.tail) ∧
    (x.left ≠ 0 → exec (.budgetExhausted q) s = .next s) ∧
    (x.left = 0 → ∃ t, exec (.budgetExhausted q) s = .next t ∧ SameBytes s t ∧ t.queue q = { x with deadline := none })) ∧
  (∀ s : State, (s.firm.ready = false ∨ s.power.cur ≠ .ps0 ∨ s.power.hot = true ∨ s.firm.busy = true) →
    exec .distributorChoice s = .next s) ∧
  (∀ (s : State) (q : Nat), let x := s.queue q
    s.eligible q = true ↔ x.qcfg.getLsbD 8 = true ∧ x.head ≠ x.tail ∧ x.period ≠ 0 ∧ x.budget ≠ 0 ∧ x.left ≠ 0 ∧ s.region q = none ∧
      (x.state = 0 ∨ x.state = 3)) ∧
  (∀ (s : State) (q : Nat), q < 64 → s.dispatching = true → (∀ p, p < 64 → (s.eligible p = true ↔ p = q)) → s.memWf = true →
    (s.queue q).state = 0 → let a := (s.queue q).qbase.toNat + 64 * (s.queue q).head
    let n (o k : Nat) := numAt s (fun i => .bulk (a + o + i)) k; let l := s.headRecord q
    let out (c : Nat) : Prop := ∃ t, exec .distributorChoice s = .next t ∧ RetiredTo s t q a [] 6 c ∧ t.region q = none
    let fits : Prop := (s.place (n 0x36 1)).isSome = true
    l.at8 = a ∧ (n 0x34 2 = 0 → fits → out 3) ∧
    (n 0x34 2 ≠ 0 → s.ctxTaken (n 0x34 2) = false → (n 0x36 1 = 0 ∨ 48 < n 0x36 1) → out 4) ∧
    (n 0x34 2 ≠ 0 → s.ctxTaken (n 0x34 2) = false → 1 ≤ n 0x36 1 → n 0x36 1 ≤ min 48 s.inService → n 0x30 4 = 0 → fits → out 5) ∧
    (∀ hd s1 b es s2 args s3 s5 ks, checkRecord s l = none → l.flags.getLsbD 0 = false → s.place l.ncl = some ks → ks.Nodup →
      s.imgRead l 128 = (.ok hd, s1) → parseBlock hd = some b → launchExtents s1 l b = (.ok es, s2) → launchArgs s2 l = (.ok args, s3) →
      ({ s3 with xlats := tset s3.xlats l.ctx (Xlat.init l.ptroot) } : State).takeExtents q ⟨l.ctx, 0⟩ [] es = (s5, true) →
      ∃ t r, exec .distributorChoice s = .next t ∧ t.region q = some r ∧ r.clusters = ks ∧ r.ctx = l.ctx ∧ r.extents = es ∧
        r.phase = .running ∧ (t.queue q).state = 1 ∧ CplIs t a ks 1 0 ∧ ∀ j k, ks[j]? = some k → (t.cond k).region = some q ∧
          let h := t.hart (.cond k)
          h.run = .running ∧ h.pc = BitVec.ofNat 64 (b.lext * 2 ^ 40 + b.entry) ∧ h.dmode = b.dmode ∧ h.level = false ∧
          h.roleIdx = BitVec.ofNat 16 j ∧ h.roleNum = BitVec.ofNat 16 ks.length ∧
          ∀ i : Fin 24, h.x[i] = if 1 ≤ i.val ∧ i.val ≤ 8 then args.getD (i.val - 1) 0 else 0)) ∧
  (∀ (s : State) (q : Nat) (i : Image), q < 64 → s.dispatching = true → (∀ p, p < 64 → (s.eligible p = true ↔ p = q)) → s.memWf = true →
    (s.queue q).state = 3 → tfind s.saves q = some i → s.badPart i = none → (s.place i.region.clusters.length).isSome = true →
    i.rclass ≠ s.rclass → ∃ t, exec .distributorChoice s = .next t ∧ t.region q = none ∧ tfind t.saves q = none ∧
      RetiredTo s t q ((s.queue q).qbase.toNat + 64 * (s.queue q).head) [] 7 0)

/-- R260, R341, R344, R349 to R353. The model's choices here: an event whose condition fails changes nothing (log entry 12), bytes not
yet copied count as dirty (39), a save waits for room and an image's parts lie where the model puts them (40), and OVERRUN carries every
forced end (48). -/
def Obligations.RegionsGiveWayAreSavedAndRetire : Prop :=
  (∀ (s : State) (q : Nat) (r : Region), Quiet s q r →
    (∀ b, r.phase = .drain b →
      (r.clauses ≠ [] → exec (.drainStop q) s = .next s) ∧
      (Halted s r → exec (.drainStop q) s = .next s) ∧
      (r.clauses = [] → ¬ Halted s r → ∃ t, exec (.drainStop q) s = .next t ∧ Kept s t q r)) ∧
    (r.phase = .running → exec (.stopRequest q) s = .next s) ∧
    (r.phase = .saving → tfind s.saves q = none → ∃ t, exec (.stopRequest q) s = .next t ∧ Kept s t q r) ∧
    (r.phase = .killed → Halted s r → Lives s r → ∃ t, exec (.stopRequest q) s = .next t ∧ SameBytes s t ∧ t.region q = some { r with phase := .running }) ∧
    (r.phase = .killed → ¬ Halted s r → s.memWf = true → Lives s r → ∃ t, exec (.stopRequest q) s = .next t ∧ Gone t q r ∧ (t.queue q).state = 0 ∧
      (t.queue q).head = (s.queue q).head ∧ CplIs t r.recAddr [] 0 0) ∧
    (r.doom = none → (∀ k ∈ r.clusters, (s.cond k).hart.run ≠ .stopped) → r.cap * 2 ^ 16 < r.consumed → s.memWf = true →
      ∀ i, (r.phase = .killed ∧ i = Instr.stopRequest q ∨ r.phase = .saving ∧ r.quiet = true ∧ (tfind s.saves q).isSome = true ∧ i = .saveComplete q) →
        ∃ t, exec i s = .next t ∧ Gone t q r ∧ RetiredTo s t q r.recAddr r.clusters 4 0 ∧ tfind t.saves q = none)) ∧
  (∀ (s : State) (q b : Nat) (r : Region), s.region q = some r →
    let phaseTo (i : Instr) (p : Phase) : Prop := ∃ t, exec i s = .next t ∧ SameBytes s t ∧ t.region q = some { r with phase := p }
    (r.phase = .drain b →
      (s.cycle ≤ b + s.drainMax → exec (.drainmaxExpiry q) s = .next s) ∧
      (b + s.drainMax < s.cycle → (r.flags.getLsbD 2 = true → phaseTo (.drainmaxExpiry q) (.preCopy s.cycle false)) ∧
        (r.flags.getLsbD 2 = false → r.flags.getLsbD 1 = true → phaseTo (.drainmaxExpiry q) .killed))) ∧
    (∀ w, r.phase = .preCopy b w →
      ((∃ k ∈ r.clusters, ∃ c ∈ (s.cond k).cmds, c.dispatched = true ∧ c.failed = none ∧
          ((∃ v, c.op = .lrel v ∨ c.op = .lfork v) ∨ (∃ v w, c.op = .linv v w) ∨ ∃ u v w x, c.op = .lshare u v w x)) →
        exec (.preCopyEnd q) s = .next s) ∧
      (Halted s r → exec (.preCopyEnd q) s = .next s) ∧
      ((∃ d, d < 4 ∧ 80 * 2 ^ 20 < s.dirtyBytes q r d) → exec (.preCopyEnd q) s = .next s) ∧
      (¬ Halted s r → (∀ k ∈ r.clusters, ∀ c ∈ (s.cond k).cmds, c.dispatched = true → c.failed.isSome = true ∨ c.op.isTable = false) →
        (∀ d, d < 4 → s.dirtyBytes q r d ≤ 80 * 2 ^ 20) → phaseTo (.preCopyEnd q) .saving) ∧
      (w = false → (s.cycle < b + s.pcMax → exec (.pcmaxExpiry q) s = .next s) ∧
        (b + s.pcMax ≤ s.cycle → phaseTo (.pcmaxExpiry q) (.preCopy b true)))) ∧
    (r.quiet = false → exec (.saveComplete q) s = .next s) ∧
    (∀ i, r.phase = .saving → r.quiet = true → tfind s.saves q = some i → s.memWf = true → Lives s r →
      (s.placeImage q i = none → exec (.saveComplete q) s = .next s) ∧
      (∀ ps, s.placeImage q i = some ps → ∃ t, exec (.saveComplete q) s = .next t ∧ Gone t q r ∧ (t.queue q).state = 3 ∧
        CplIs t r.recAddr r.clusters 3 0 ∧ ∃ j : Image, tfind t.saves q = some j ∧ j.parts = ps ∧
          j.cells.map (fun c => (c.1, c.2.1, c.2.2.store, c.2.2.fe, c.2.2.acc)) = i.cells.map (fun c => (c.1, c.2.1, c.2.2.store, c.2.2.fe, c.2.2.acc)) ∧
          j.region = { i.region with consumed := r.consumed, xfaults := j.region.xfaults } ∧
          (∀ (n k : Nat) (c : Cond), r.clusters[n]? = some k → i.conds[n]? = some c → ∃ e : Cond, j.conds[n]? = some e ∧ e.hart = { c.hart with pendSeq := 0 } ∧
            e.records.map (fun x => (x.cause, x.addr)) = (s.cond k).records.map (fun x => (x.cause, x.addr)) ∧
            e.cmds.map (·.op) = (s.cond k).cmds.map (·.op) ∧ e.cmds.map (·.id) = List.range (s.cond k).cmds.length) ∧
          ∀ d o n, ps = [(d, o, n)] → ∀ b, b < (j.part d).length → t.getByte (.seam (d * 2 ^ 36 + Config.seamDie + o + b)) = (j.part d).getD b 0)) ∧
    (s.quiescent q r = true → ∃ t, exec (.quiescenceReport q) s = .next t ∧ SameBytes s t ∧ t.region q = some { r with quiet := true }) ∧
    (s.quiescent q r = false → exec (.quiescenceReport q) s = .next s)) ∧
  (∀ (s : State) (q : Nat) (r : Region),
    (s.quiescent q r = true ↔ Calm s q r ∧ s.remoteBusy q r = false) ∧
    ((∀ p : Fin 8, let l := s.links[p]; l.outbox = [] ∧ l.replay = [] ∧ l.resend = []) →
      (∀ k ∈ r.clusters, ∀ c ∈ (s.cond k).cmds, c.dispatched = true → ∀ u v w x y z, c.op ≠ .rcopy u v w x y z) → s.remoteBusy q r = false) ∧
    (∀ (p : Fin 8) (x : PType × Packet), let l := s.links[p]; l.state = .up → x ∈ l.outbox ++ l.replay ++ l.resend → x.1 = .write →
      x.2.tag.toNat < 2 ^ 23 → x.2.tag.toNat / 2 ^ 16 ∈ r.clusters → s.remoteBusy q r = true)) ∧
  (∀ (s : State) (q : Nat) (r : Region), s.region q = some r →
    ((∃ k ∈ r.clusters, (s.cond k).hart.run ≠ .halted) → exec (.sentenceRetirement q) s = .next s) ∧
    (r.phase = .running → r.quiet = true → s.quiescent q r = true → s.memWf = true →
      Halted s r → (∀ k ∈ r.clusters, (s.cond k).hart.pend = []) →
      ∃ t, exec (.sentenceRetirement q) s = .next t ∧ Gone t q r ∧ RetiredTo s t q r.recAddr r.clusters 2 0) ∧
    (r.doom = none → (∀ k ∈ r.clusters, (s.cond k).hart.run ≠ .stopped) → r.consumed ≤ r.cap * 2 ^ 16 →
      exec (.overrun q) s = .next s) ∧
    (Quiet s q r → s.memWf = true →
      (r.doom = none → (∀ k ∈ r.clusters, (s.cond k).hart.run ≠ .stopped) → r.cap * 2 ^ 16 < r.consumed →
        (r.phase = .saving ∨ (∃ b w, r.phase = .preCopy b w) → exec (.overrun q) s = .next s) ∧
        (r.phase = .running ∨ r.phase = .killed → ∃ t, exec (.overrun q) s = .next t ∧ Gone t q r ∧ RetiredTo s t q r.recAddr r.clusters 4 0 ∧ tfind t.saves q = none)) ∧
      (∀ c, r.doom = some c → ∃ t, exec (.overrun q) s = .next t ∧ Gone t q r ∧ RetiredTo s t q r.recAddr r.clusters 5 c)))

/-! ### The module -/

namespace Sys2Proof.Claim
open Sys2Proof Sys2Proof.Machine

/-- One more, saturating at 2^32 - 1 (R387, R392). -/
def up1 (n : Nat) : Nat := min (n + 1) 0xFFFFFFFF

/-- A mailbox command has completed with a code: CODE and SEQ, and BUSY 0 (R407). -/
def FwDone (s t : State) (code : Nat) : Prop :=
  t.firm.code = code ∧ t.firm.seq = (s.firm.seq + 1) % 256 ∧ t.firm.busy = false ∧ t.firm.ready = s.firm.ready

/-- FWARG names a buffer of 8 KiB in bulk memory. -/
def FwBuf (s : State) (a : Nat) : Prop := s.firm.fwarg.toNat = a ∧ a % 2 ^ 12 = 0 ∧ a + 8192 ≤ 1152 * 2 ^ 30

/-- The bits of a mask of lanes or positions. -/
def bitsOf (l : List Nat) : Nat := (l.map (fun c => 2 ^ c)).sum

/-- An event that does nothing in a state. -/
def Idle (i : Instr) (s : State) : Prop := exec i s = .next s

/-- The power fields change as given; no byte and no agent does. -/
def PowerIs (s t : State) (p : Power) : Prop := t.power = p ∧ SameBytes s t ∧ ∀ a, t.hart a = s.hart a

/-- The three events of a write of XSDCMD (R329). -/
def Shoots (f : DWord → Instr) : Prop :=
  f ∈ [Instr.shootDownGvaRange, .shootDownContext, .shootDownImportEntry]

/-- A WRITE that a peer has had admitted before the accepted shoot-down request and that is not performed, of some kind. -/
def Awaited (s : State) (kind : Admitted → Prop) : Prop :=
  ∃ p : Fin 8, ∃ w ∈ s.links[p].writes, w.no < s.shootMark.links.getD p.val 0 ∧ kind w

/-- An access that a noted agent accepted before the request is performed short of module scope and lies in a noted frame (R330). -/
def Undrained (s : State) : Prop :=
  ∃ e ∈ s.shootMark.agents, ∃ x ∈ (s.hart e.1).pend, x.level < 3 ∧ x.seq < e.2 ∧ ∃ a,
    (Place.bulk a ∈ x.what.places ∧ (false, a / 2 ^ 16 * 2 ^ 16) ∈ s.shootFrames) ∨
    (Place.host a ∈ x.what.places ∧ (true, a / 2 ^ 16 * 2 ^ 16) ∈ s.shootFrames)

/-- What an accepted request notes: every agent of the context with its accesses so far, every port with its admitted WRITEs. -/
def Noted (s t : State) (ctx : Nat) : Prop :=
  (∀ p : Fin 8, t.shootMark.links[p.val]? = some s.links[p].admitted) ∧
  ∀ a q r, s.regionOf a = some q → s.region q = some r → r.ctx = ctx → (a, (s.hart a).pendSeq) ∈ t.shootMark.agents

/-- A field of an entry of a code object (R364), at its offset, of some bytes. -/
def entryNum (s : State) (pa j o n : Nat) : Nat := numAt s (fun i => .bulk (pa + 0x40 + 64 * j + o + i)) n

/-- An entry is not disqualified (R364). -/
def Qualified (s : State) (pa len j : Nat) : Prop :=
  let n := entryNum s pa j
  n 0 1 ≤ 1 ∧ n 1 1 = 0 ∧ n 4 4 = 0 ∧ n 0x10 8 % (if n 0 1 = 0 then 2 ^ 16 else 64) = 0 ∧ n 0x10 8 + n 0x18 8 ≤ len ∧
  sha256 (bytesAt s (fun i => .bulk (pa + n 0x10 8 + i)) (n 0x18 8)) = bytesAt s (fun i => .bulk (pa + 0x40 + 64 * j + 0x20 + i)) 32

/-- An entry is a candidate: native, for a class this module reaches, and of no feature that is missing or masked (R365). -/
def Native (s : State) (pa len j : Nat) : Prop :=
  let n := entryNum s pa j
  Qualified s pa len j ∧ n 0 1 = 0 ∧ n 2 2 ≤ s.rclass ∧
  ∀ b, (n 8 8).testBit b = true → Config.feat.testBit b = true ∧ s.errata.testBit b = false

/-- A code object begins at an address, with its entries and its length (R364). -/
def ObjectAt (s : State) (pa nent len : Nat) : Prop :=
  let n (o k : Nat) := numAt s (fun i => .bulk (pa + o + i)) k
  pa % 2 ^ 16 = 0 ∧ pa + len ≤ 1152 * 2 ^ 30 ∧ n 0 2 = 1 ∧ n 2 2 = nent ∧ 1 ≤ nent ∧ nent ≤ 64 ∧ n 4 4 = 0 ∧ n 8 8 = len ∧
  (∀ i, i < 48 → s.getByte (.bulk (pa + 0x10 + i)) = 0) ∧ 0x40 + 64 * nent ≤ len

/-- The oldest request is answered: it leaves the queue, RESULT holds a number, and no byte but RESULT and some others changes (R366). -/
def Answered (s t : State) (a : Nat) (r : List Nat) (res : Nat) (other : Nat → Prop) : Prop :=
  t.coreq = r ∧ numAt t (fun i => .bulk (a + 0x20 + i)) 8 = res ∧
  ∀ x, (∀ i, i < 8 → x ≠ .bulk (a + 0x20 + i)) → (∀ b, other b → x ≠ .bulk b) → t.getByte x = s.getByte x

/-- A buffer that FWARG names holds a signed report (R413), with a leaf index, for a nonce. -/
def ReportAt (s t : State) (a : Nat) : Prop :=
  let at' (o n : Nat) : List Byte := bytesAt t (fun i => .bulk (a + o + i)) n
  at' 0x20 32 = bytesAt s (fun i => .bulk (a + i)) 32 ∧ numAt t (fun i => .bulk (a + i)) 2 = 1 ∧
  numAt t (fun i => .bulk (a + 2 + i)) 2 = s.rclass % 2 ^ 16 ∧ numAt t (fun i => .bulk (a + 8 + i)) 8 = 0xFF

end Sys2Proof.Claim

/-- R231, R243, R295, R329, R330, R364 to R366, R389 to R418. The model's choices here: the step of MCEIL is free (log entry 9), an image's
digest is that of the whole image and its header's bytes are opaque (10), an event whose condition fails changes nothing (12), which requests
the port and the mailbox take, and CODE 4 before READY and for an unknown command (52), accesses beyond a decoder and masked registers (53),
the known contexts and the res0 checks of a shoot-down for every KIND (66). -/
def Obligations.ModuleEventsFollowTheirRules : Prop :=
  (∀ (f : DWord → Instr), Shoots f → ∀ (s : State) (v : DWord), let n := v.toNat; let a := s.xsdAddr.toNat; let m := s.xsdLen.toNat
    let known : Prop := n % 2 ^ 16 ≠ 0; let clean : Prop := a < 2 ^ 52 ∧ a % 2 ^ 16 = 0 ∧ m < 2 ^ 36
    (s.firm.ready = false → Idle (f v) s) ∧
    (s.firm.ready = true → 16 ≤ s.shoots.length → ∃ t, exec (f v) s = .next t ∧ SameBytes s t ∧ t.shoots = s.shoots ∧ t.shootOvfl = true) ∧
    (s.firm.ready = true → s.shoots.length < 16 → ∃ t x, exec (f v) s = .next t ∧ SameBytes s t ∧ t.shoots = s.shoots ++ [x] ∧
      (n / 2 ^ 18 = 0 → n / 2 ^ 16 = 0 → known → clean → 0 < m → a + m * 2 ^ 16 ≤ 2 ^ 52 →
        x = .range (n % 2 ^ 16) (a / 2 ^ 16) m) ∧
      (n / 2 ^ 18 = 0 → n / 2 ^ 16 = 0 → (¬ known ∨ a % 2 ^ 16 ≠ 0 ∨ m = 0 ∨ 2 ^ 52 < a + m * 2 ^ 16) → x = .bad) ∧
      (n / 2 ^ 18 = 0 → n / 2 ^ 16 = 1 → known → clean → x = .context (n % 2 ^ 16)) ∧
      (n / 2 ^ 32 = 0 → n / 2 ^ 16 % 2 ^ 8 = 2 → clean → x = .imp (n / 2 ^ 24)) ∧ (2 ^ 32 ≤ n ∨ n / 2 ^ 16 % 4 = 3 ∨ ¬ clean → x = .bad))) ∧
  (∀ (s : State) (h : Shoot) (r : List Shoot),
    ((s.shootBusy = true ∨ s.shoots = []) → Idle .shootDownAcceptance s) ∧
    (s.shootBusy = false → s.shoots = .bad :: r → ∃ t, exec .shootDownAcceptance s = .next t ∧ t.shoots = r ∧ t.shootErr = true ∧
      t.shootDone = s.shootDone + 1) ∧
    (∀ c a n, s.shootBusy = false → s.shoots = .range c a n :: r → (∀ g ∈ s.regions, g.2.ctx ≠ c) → ∃ t, exec .shootDownAcceptance s = .next t ∧
      SameBytes s t ∧ t.shoots = r ∧ t.shootBusy = false ∧ t.shootErr = s.shootErr ∧ t.shootDone = s.shootDone + 1 ∧ t.xlats = s.xlats) ∧
    (∀ c a n, s.shootBusy = false → s.shoots = .range c a n :: r → (∃ g ∈ s.regions, g.2.ctx = c) → ∃ t, exec .shootDownAcceptance s = .next t ∧ t.shootBusy = true ∧ SameBytes s t ∧
      (t.xlat c).pages = (s.xlat c).pages.map (fun p => if a ≤ p.page ∧ p.page < a + n then { p with dropped := true } else p) ∧
      Noted s t c ∧ (∀ p ∈ (s.xlat c).pages, a ≤ p.page → p.page < a + n → (false, p.frame) ∈ t.shootFrames) ∧
      ∀ d, d ≠ c → (t.xlat d).pages = (s.xlat d).pages) ∧
    (∀ c, s.shootBusy = false → s.shoots = .context c :: r → ((∀ g ∈ s.regions, g.2.ctx ≠ c) → ∃ t, exec .shootDownAcceptance s = .next t ∧
        SameBytes s t ∧ t.shoots = r ∧ t.shootBusy = false ∧ t.shootDone = s.shootDone + 1) ∧
      ((∃ g ∈ s.regions, g.2.ctx = c) → ∃ t, exec .shootDownAcceptance s = .next t ∧ t.shootBusy = true ∧ SameBytes s t ∧
        (t.xlat c).pages = (s.xlat c).pages.map (fun p => { p with dropped := true }) ∧ (t.xlat c).lazies = [] ∧
        Noted s t c ∧ (∀ p ∈ (s.xlat c).pages, (false, p.frame) ∈ t.shootFrames) ∧ (∀ p ∈ (s.xlat c).lazies, (p.host, p.frame) ∈ t.shootFrames) ∧
        ∀ d, d ≠ c → (t.xlat d).pages = (s.xlat d).pages)) ∧
    (∀ i, s.shootBusy = false → s.shoots = .imp i :: r → ∃ t, exec .shootDownAcceptance s = .next t ∧ t.shootBusy = true ∧ SameBytes s t ∧
      t.xlats = s.xlats ∧ ∀ p : Fin 8, t.shootMark.links[p.val]? = some s.links[p].admitted) ∧
    (s.shootBusy = false → Idle .shootDownCompletion s) ∧
    (∀ i, s.shootBusy = true → s.shoots = .imp i :: r → s.shootMark.agents = [] →
      (Awaited s (fun w => w.idx = i) → Idle .shootDownCompletion s) ∧
      (¬ Awaited s (fun w => w.idx = i) → ∃ t, exec .shootDownCompletion s = .next t ∧ SameBytes s t ∧ t.shoots = r ∧
        t.shootBusy = false ∧ t.shootDone = s.shootDone + 1)) ∧
    (∀ c lo hi, s.shootBusy = true → (s.shoots = .context c :: r ∧ lo = 0 ∧ hi = 2 ^ 64 ∨ ∃ n, s.shoots = .range c lo n :: r ∧ hi = lo + n) →
      let held : Prop := Undrained s ∨ Awaited s (fun w => w.ctx = c ∧ ∃ i, i < w.bytes.length ∧ lo ≤ (w.gva + i) / 2 ^ 16 ∧ (w.gva + i) / 2 ^ 16 < hi)
      (∀ p : Fin 8, ∀ w ∈ s.links[p].writes, w.gva + w.bytes.length ≤ 2 ^ 80) → (held → Idle .shootDownCompletion s) ∧
      (¬ held → (s.xlat c).broken = [] → ∃ t, exec .shootDownCompletion s = .next t ∧ SameBytes s t ∧ t.shoots = r ∧
        t.shootBusy = false ∧ t.shootDone = s.shootDone + 1))) ∧
  (∀ (s : State) (v : DWord), let n := v.toNat
    ((2 ^ 48 ≤ n ∨ n % 64 ≠ 0 ∨ 8 ≤ s.coreq.length ∨ s.firm.ready = false) → Idle (.coreqWrite v) s) ∧
    (n < 2 ^ 48 → n % 64 = 0 → s.coreq.length < 8 → s.firm.ready = true → ∃ t, exec (.coreqWrite v) s = .next t ∧ SameBytes s t ∧
      t.coreq = s.coreq ++ [n]) ∧
    (s.coreq = [] → Idle .resolverServe s) ∧
    (∀ a r, s.coreq = a :: r → s.memWf = true → numAt s (fun i => .bulk (a + i)) 8 % 2 ^ 16 ≠ 0 → ∃ t, exec .resolverServe s = .next t ∧
      t.coreq = r ∧ numAt t (fun i => .bulk (a + 0x20 + i)) 8 = 2 ^ 16 + 0x10 ∧
      ∀ x, (∀ i, i < 8 → x ≠ .bulk (a + 0x20 + i)) → t.getByte x = s.getByte x) ∧
    (∀ a r pa nent len, s.coreq = a :: r → s.memWf = true → numAt s (fun i => .bulk (a + i)) 8 = pa → ObjectAt s pa nent len →
      (∀ j, j < nent → Native s pa len j → (∀ i, i < nent → Native s pa len i → entryNum s pa i 2 2 ≤ entryNum s pa j 2 2 ∧
          (entryNum s pa i 2 2 = entryNum s pa j 2 2 → j ≤ i)) →
        ∃ t, exec .resolverServe s = .next t ∧ Answered s t a r (2 ^ 16 + 2 ^ 8 * j) (fun _ => False) ∧ t.cache = s.cache) ∧
      ((∀ j, j < nent → ¬ Qualified s pa len j ∨ (entryNum s pa j 0 1 = 0 ∧ ¬ Native s pa len j)) →
        ∃ t, exec .resolverServe s = .next t ∧ Answered s t a r (2 ^ 16 + 0x12) (fun _ => False)) ∧
      (∀ j (x : CacheEntry) dst cap, j < nent → (∀ i, i < nent → ¬ Native s pa len i) → Qualified s pa len j → entryNum s pa j 0 1 = 1 →
        (∀ i, i < j → ¬ (Qualified s pa len i ∧ entryNum s pa i 0 1 = 1)) → s.cache = [x] →
        x.digest = bytesAt s (fun i => .bulk (pa + 0x40 + 64 * j + 0x20 + i)) 32 → x.ncl = (s.getByte (.bulk (a + 0x18))).toNat →
        x.rclass = s.rclass → s.errata &&& x.used = x.em → numAt s (fun i => .bulk (a + 8 + i)) 8 = dst → numAt s (fun i => .bulk (a + 0x10 + i)) 8 = cap →
        let units := (x.image.length + 63) / 64
        (dst = 0 ∨ dst % 2 ^ 16 ≠ 0 ∨ cap < 64 * units →
          ∃ t, exec .resolverServe s = .next t ∧ Answered s t a r (2 ^ 17 + 2 ^ 16 + 2 ^ 8 * j + 0x14) (fun _ => False)) ∧
        (dst ≠ 0 → dst % 2 ^ 16 = 0 → 64 * units ≤ cap → dst + 64 * units ≤ 1152 * 2 ^ 30 → (dst + 64 * units ≤ a ∨ a + 64 ≤ dst) → units < 2 ^ 32 →
          ∃ t, exec .resolverServe s = .next t ∧
            Answered s t a r (2 ^ 32 * units + 2 ^ 17 + 2 ^ 16 + 2 ^ 8 * j + 1) (fun b => dst ≤ b ∧ b < dst + x.image.length) ∧
            ∀ i b, x.image[i]? = some b → t.getByte (.bulk (dst + i)) = b))) ∧
    (∀ es e, (∃ f ∈ es, f.kind = 0 ∧ s.featured f.req = true ∧ f.rclass ≤ s.rclass) → s.selectImage es = some e →
      e ∈ es ∧ e.kind = 0 ∧ s.featured e.req = true ∧ e.rclass ≤ s.rclass ∧
      ∀ f ∈ es, f.kind = 0 → s.featured f.req = true → f.rclass ≤ s.rclass → f.rclass ≤ e.rclass) ∧
    (∀ ps bs, s.firm.ready = true → ps.length = 4 → ∃ t, exec (.partitionChange ps bs) s = .next t ∧ t.partitions = ps ∧ t.borders = bs ∧ SameBytes s t)) ∧
  (∀ (s : State) (d : Fin 7) (w : Place),
    (w.domain = some d → ∃ t, exec (.correctionRewrite d w) s = .next t ∧ SameBytes s t ∧ t.bad = s.bad ∧
      t.errs = s.errs.set d ⟨up1 s.errs[d].corr, s.errs[d].uncorr⟩) ∧
    (w.domain = some d → w.code ∉ s.ueSeen → ∃ t, exec (.patrolScrub d w true) s = .next t ∧ SameBytes s t ∧ t.isBad w = true ∧
      t.errs = s.errs.set d ⟨s.errs[d].corr, up1 s.errs[d].uncorr⟩) ∧
    Idle (.patrolScrub d w false) s ∧
    (s.cycle % s.per ≠ 0 → Idle .refreshWindowStart s) ∧
    (s.firm.ready = true → s.cycle % s.per = 0 → (∀ x ∈ s.windows, x.2 ≠ s.cycle) → ∃ t, exec .refreshWindowStart s = .next t ∧ SameBytes s t ∧
      t.windows = s.windows ++ [(s.cycle / s.per % 16, s.cycle)] ∧ t.per = s.perNext) ∧
    (∀ x r, s.windows = x :: r → (s.cycle < x.2 + 200 → Idle .refreshWindowEnd s) ∧
      (x.2 + 200 ≤ s.cycle → ∃ t, exec .refreshWindowEnd s = .next t ∧ SameBytes s t ∧ t.windows = r))) ∧
  (∀ (s : State) (v : DWord), let a := s.hsnap.toNat
    ((2 ^ 48 ≤ v.toNat ∨ v.toNat % 2 ^ 12 ≠ 0) → Idle (.hsnapWrite v) s) ∧
    (v.toNat < 2 ^ 48 → v.toNat % 2 ^ 12 = 0 → s.firm.ready = true → ∃ t, exec (.hsnapWrite v) s = .next t ∧ SameBytes s t ∧ t.hsnap = v ∧ t.gen = 0 ∧
      t.snapAt = none ∧ t.snapped = none) ∧
    (s.healthFields.length = 4088 ∧ ∀ k, k < 48 → ∀ i, i < 4 → s.healthFields[0x2F8 + 4 * k + i]? = some (BitVec.ofNat 8 ((s.enmapOf k).toNat / 2 ^ (8 * i)))) ∧
    ((a = 0 ∨ s.snapAt = none ∧ s.snapped = some s.healthFields) → Idle .snapshotRewrite s) ∧
    (a ≠ 0 → a + 4096 ≤ 1152 * 2 ^ 30 → s.memWf = true →
      let counts (t : State) : Prop := t.gen = s.gen + 1 ∧ numAt t (fun i => .bulk (a + i)) 8 = (s.gen + 1) % 2 ^ 64 ∧
        ∀ x, (∀ i, i < 8 → x ≠ .bulk (a + i)) → t.getByte x = s.getByte x
      (s.snapAt = none → s.snapped ≠ some s.healthFields → ∃ t, exec .snapshotRewrite s = .next t ∧ counts t ∧ t.snapAt = some (s.healthFields, 0)) ∧
      (∀ f n, s.snapAt = some (f, n) → f.length = 4088 →
        (n < 511 → ∃ t, exec .snapshotRewrite s = .next t ∧ t.gen = s.gen ∧ t.snapAt = some (f, n + 1) ∧
          (∀ i, i < 8 → t.getByte (.bulk (a + 8 + 8 * n + i)) = f.getD (8 * n + i) 0) ∧
          ∀ x, (∀ i, i < 8 → x ≠ .bulk (a + 8 + 8 * n + i)) → t.getByte x = s.getByte x) ∧
        (511 ≤ n → ∃ t, exec .snapshotRewrite s = .next t ∧ counts t ∧ t.snapAt = none ∧ t.snapped = some f))) ∧
    (∀ k, (∃ r ∈ s.regions, k ∈ r.2.clusters) → Idle (.cellRetirement k) s) ∧
    (∀ k c d l, k < 48 → (∀ r ∈ s.regions, k ∉ r.2.clusters) → tget s.retire k [] = [c] → c < 17 → (s.enmapOf k).getLsbD c = true →
      s.spares k = d :: l → ∃ t, exec (.cellRetirement k) s = .next t ∧ SameBytes s t ∧ (t.enmapOf k).getLsbD c = false ∧
        (t.enmapOf k).getLsbD d = true ∧ ∀ b, b < 18 → b ≠ c → b ≠ d → (t.enmapOf k).getLsbD b = (s.enmapOf k).getLsbD b)) ∧
  (∀ (rc : Nat) (img : List Byte), verifyImage rc img = none ↔ 64 + 5076 ≤ img.length ∧
    hssVerify Config.vendorKey (img.take (img.length - 5076)) (img.drop (img.length - 5076)) = true ∧
    Config.fwLow (img.take 64) ≤ rc ∧ rc ≤ Config.fwHigh (img.take 64)) ∧
  (∀ (s : State) (tests : List Nat), let img := if s.firm.image = [] then Config.storedImage else s.firm.image
    ∃ t, exec (.moduleReset tests) s = .next t ∧ t.regions = [] ∧ t.cycle = 0 ∧ (∀ a, t.getByte (.bulk a) = 0) ∧
      (∀ p i, t.getByte (.store p i) = 0) ∧ (∀ a, t.getByte (.host a) = s.getByte (.host a)) ∧ t.firm.leaf = s.firm.leaf ∧
      t.power.temp = 0 ∧ if verifyImage t.rclass img = none then t.firm.ready = true ∧ t.windows = [(0, 0)] ∧ t.firm.meas0 = sha256 (List.replicate 32 0 ++ sha256 img) ∧
        ∀ k, k < 48 → let ok := (List.range 17).filter (fun c => 17 * k + c ∉ t.dead)
          (t.enmapOf k).toNat = bitsOf (ok.take 16) + if 16 ≤ ok.length then 2 ^ 17 else 0
      else t.firm.ready = false ∧ t.firm.code = 1) ∧
  (∀ (s : State) (a : Nat), let buf (n : Nat) : List Byte := bytesAt s (fun i => .bulk (a + i)) n
    (s.firm.busy = true → Idle .stage s ∧ Idle .report s ∧ Idle .extend s) ∧
    (s.firm.busy = false →
      (s.firm.fwarg.toNat % 2 ^ 12 ≠ 0 → ∃ t, exec .stage s = .next t ∧ FwDone s t 4 ∧ SameBytes s t) ∧
      (s.firm.ready = false → (∃ t, exec .report s = .next t ∧ FwDone s t 4) ∧ ∃ t, exec .extend s = .next t ∧ FwDone s t 4) ∧
      (FwBuf s a →
        (s.firm.staging = [] → 8192 < numAt s (fun i => .bulk (a + i)) 8 → ∃ t, exec .stage s = .next t ∧ FwDone s t 0 ∧ SameBytes s t ∧
          t.firm.staging = buf 8192 ∧ t.firm.verified = s.firm.verified) ∧
        (s.firm.ready = true → (∃ t, exec .extend s = .next t ∧ FwDone s t 0 ∧ SameBytes s t ∧ t.firm.meas2 = sha256 (s.firm.meas2 ++ buf 32)) ∧
          (2 ^ 20 ≤ s.firm.leaf → ∃ t, exec .report s = .next t ∧ FwDone s t 3 ∧ SameBytes s t ∧ t.firm.leaf = s.firm.leaf) ∧
          (s.firm.leaf < 2 ^ 20 → s.memWf = true → ∃ t, exec .report s = .next t ∧ FwDone s t 0 ∧ t.firm.leaf = s.firm.leaf + 1 ∧ ReportAt s t a)))) ∧
    (s.regions ≠ [] → ∃ t, exec .activate s = .next t ∧ t.firm.busy = true ∧ SameBytes s t) ∧
    (s.regions = [] → (s.firm.verified = false → ∃ t, exec .activate s = .next t ∧ FwDone s t 1 ∧ SameBytes s t) ∧
      (s.firm.verified = true → ∃ t, exec .activate s = .next t ∧ t.firm.image = s.firm.staged ∧ t.firm.ready = true ∧ t.firm.code = 0 ∧
        t.firm.meas0 = sha256 (s.firm.meas0 ++ sha256 s.firm.staged) ∧ SameBytes s t)) ∧
    (s.firm.ready = false → Idle (.ideKm true) s ∧ Idle (.ideKm false) s) ∧
    (s.firm.ready = true → (∃ t, exec (.ideKm true) s = .next t ∧ t.firm.ideMem = true ∧ SameBytes s t) ∧
      ∃ t, exec (.ideKm false) s = .next t ∧ t.firm.ideIo = true)) ∧
  (∀ (s : State) (lode : Bool) (a n : Nat) (bs : List Byte), let taken : Prop := s.firm.ready = true ∧ (s.ide = false ∨ s.firm.ideMem = true)
    let size := if lode then 256 * 2 ^ 30 else 1152 * 2 ^ 30
    let place (i : Nat) : Place := if lode then .lode ((a + i) / 2 ^ 36) ((a + i) % 2 ^ 36) else .bulk (a + i)
    let open_ (i : Nat) : Bool := !lode || numAt s (fun j => .lode ((a + i) / 2 ^ 36) (0xFF8000000 + 8 * ((a + i) % 2 ^ 36 / 4096) + j)) 8 / 2 ^ 32 % 2 == 1
    ((¬ taken ∨ size < a + n) → Idle (.cxlMemRead lode a n) s) ∧ ((¬ taken ∨ size < a + bs.length) → Idle (.cxlMemWrite lode a bs) s) ∧
    (taken → a + n ≤ size → ∃ t, exec (.cxlMemRead lode a n) s = .next t ∧ SameBytes s t ∧ (s.power.hot = false → t.power.tgt = .ps0) ∧
      (s.power.cur ≠ .ps0 → t.reads = s.reads ∧ t.hdmHeld = s.hdmHeld ++ [.read lode a n]) ∧
      (s.power.cur = .ps0 → t.reads = (List.range n).map (fun i => if open_ i then s.getByte (place i) else 0xFF) :: s.reads)) ∧
    (taken → a + bs.length ≤ size → ∃ t, exec (.cxlMemWrite lode a bs) s = .next t ∧ (s.power.hot = false → t.power.tgt = .ps0) ∧
      (s.power.cur ≠ .ps0 → SameBytes s t ∧ t.hdmHeld = s.hdmHeld ++ [.write lode a bs]) ∧
      (s.power.cur = .ps0 → s.memWf = true → (∀ i b, bs[i]? = some b → open_ i = true → t.getByte (place i) = b) ∧
        ∀ x, (∀ i, i < bs.length → open_ i = true → x ≠ place i) → t.getByte x = s.getByte x)) ∧
    (s.power.cur ≠ .ps0 → s.power.tgt = .ps0 → s.memWf = true → a + bs.length ≤ size → a + n ≤ size → let i := Instr.powerTransitionComplete
      (s.hdmHeld = [.write lode a bs] → ∃ t, exec i s = .next t ∧ t.hdmHeld = [] ∧ (∀ i b, bs[i]? = some b → open_ i = true → t.getByte (place i) = b)) ∧
      (s.hdmHeld = [.read lode a n] → ∃ t, exec i s = .next t ∧ t.hdmHeld = [] ∧
        t.reads = (List.range n).map (fun i => if open_ i then s.getByte (place i) else 0xFF) :: s.reads))) ∧
  (∀ (s : State) (off : Nat) (v : DWord), let i := Instr.registerWrite off v
    (s.firm.ready = false → off < 0x40000 → Idle i s) ∧ (off ∉ [0x10000, 0x10008, 0x10018, 0x10020, 0x40000, 0x40008] → Idle i s) ∧
    ((off = 0x40008 ∨ off = 0x40000) → s.firm.busy = true → Idle i s) ∧ (off = 0x40000 → v ∈ [1, 2, 0x10, 0x11] → Idle i s) ∧
    (off = 0x40000 → v ∉ [1, 2, 0x10, 0x11] → s.firm.busy = false → ∃ t, exec i s = .next t ∧ FwDone s t 4 ∧ SameBytes s t) ∧
    (off = 0x40008 → s.firm.busy = false → ∃ t, exec i s = .next t ∧ t.barRead off = v &&& 0x0000FFFFFFFFF000 ∧ SameBytes s t) ∧
    (s.firm.ready = true → (off = 0x10000 → ∃ t, exec i s = .next t ∧ t.barRead off = v &&& 0x000FFFFFFFFF0000 ∧ SameBytes s t) ∧
      (off = 0x10008 → ∃ t, exec i s = .next t ∧ t.barRead off = v &&& 0x0000000FFFFFFFFF ∧ SameBytes s t) ∧
      (off = 0x10020 → ∃ t, exec i s = .next t ∧ t.barRead off = v &&& 0x1FFFFFFE000 ∧ SameBytes s t) ∧
      (off = 0x10018 → ∃ t, exec i s = .next t ∧ SameBytes s t ∧ (t.barRead off).getLsbD 32 = ((s.barRead off).getLsbD 32 && !v.getLsbD 32) ∧
        (t.barRead off).getLsbD 33 = ((s.barRead off).getLsbD 33 && !v.getLsbD 33)))) ∧
  (∀ (s : State) (v : DWord) (w amps temp : BitVec 16), let p := s.power
    (s.firm.ready = true → ∃ t, exec (.lattolWrite v) s = .next t ∧ SameBytes s t ∧ t.power.lattol = v.toNat % 2 ^ 32) ∧
    (p.hot = true → Idle .moduleIdle s) ∧
    (s.idle = true ↔ s.regions = [] ∧ (∀ q, q < 64 → s.eligible q = false) ∧ s.coreq = [] ∧ s.firm.busy = false ∧
      (p.lastMem = 0 ∨ p.lastMem + 12500 ≤ s.cycle + 1)) ∧
    (p.hot = false → s.firm.ready = true → s.idle = true → p.trans = true → p.tgt.num < p.cur.num → Idle .moduleIdle s) ∧
    (p.hot = false → s.firm.ready = true → s.idle = true → (p.trans = false ∨ p.cur.num ≤ p.tgt.num) → ∃ t, exec .moduleIdle s = .next t ∧ SameBytes s t ∧
      t.power.tgt = if p.lattol < 2000 then .ps0 else if p.lattol < 150000 then .ps1 else if p.lattol < 20000000 then .ps2 else .ps3) ∧
    (p.hot = false → s.idle = false → ∃ t, exec .moduleIdle s = .next t ∧ t.power.tgt = .ps0) ∧
    ((p.tgt = p.cur ∨ p.tgt ≠ .ps0 ∧ s.regions ≠ []) → Idle .powerTransitionComplete s) ∧
    (p.tgt ≠ p.cur → (p.tgt = .ps0 ∧ s.hdmHeld = [] ∨ p.tgt ≠ .ps0 ∧ s.regions = []) → ∃ t, exec .powerTransitionComplete s = .next t ∧
      PowerIs s t { p with cur := p.tgt, trans := false }) ∧
    ((s.cycle % 1024 ≠ 0 ∨ s.firm.ready = false) → Idle (.powerSample w amps) s ∧ (s.firm.ready = false → Idle (.thermalAction temp) s)) ∧
    (s.cycle % 1024 = 0 → s.firm.ready = true → 108 ≤ p.mceil → p.mceil ≤ 432 → ∃ t, exec (.powerSample w amps) s = .next t ∧ SameBytes s t ∧
      let m := t.power.mceil
      t.power.watts = w.toNat ∧ t.power.amps = amps.toNat ∧ 108 ≤ m ∧ m ≤ 432 ∧ (5700 < amps.toNat → 108 < p.mceil → m < p.mceil) ∧
      (amps.toNat < 5400 → p.mceil < 432 → p.mceil < m) ∧ (5400 ≤ amps.toNat → amps.toNat ≤ 5700 → m = p.mceil) ∧
      (p.mceilAt ≤ s.cycle → t.ceiling = p.mceil ∧ ∀ n, s.cycle < n → ({ t with cycle := n } : State).ceiling = m)) ∧
    (s.firm.ready = true → ∃ t, exec (.thermalAction temp) s = .next t ∧ SameBytes s t ∧ t.power.temp = temp.toNat ∧
      (85 < temp.toNat → t.perNext = 128) ∧ (temp.toNat < 80 → t.perNext = 256) ∧ (100 < temp.toNat → t.power.mceil = 108) ∧
      (110 < temp.toNat → t.power.hot = true ∧ t.power.tgt = .ps3 ∧ ∀ q r, s.region q = some r → ∃ r', t.region q = some r' ∧ r'.doom = some 0x0E))) ∧
  (∀ (s : State) (g : Fin 4) (f desc : Nat),
    ((∀ x ∈ s.freeing, x.1 ≠ g.val ∨ x.2.1 ≠ f) → Idle (.frameFree g f) s) ∧
    (s.freeing = [(g.val, f, desc)] → (s.pinned g f = true → Idle (.frameFree g f) s) ∧
      (s.pinned g f = false → s.memWf = true → let n (t : State) (a k : Nat) := numAt t (fun i => .lode g.val (a + i)) k
        let slot := n s (desc + 0x10) 8 + 4 * n s (desc + 0x1C) 4
        (slot + 4 ≤ desc ∨ desc + 64 ≤ slot) → n s (desc + 0xC) 4 ≠ 0 → f < 2 ^ 24 → ∃ t, exec (.frameFree g f) s = .next t ∧ t.freeing = [] ∧
        n t slot 4 = f ∧ n t (desc + 0x1C) 4 = (n s (desc + 0x1C) 4 + 1) % n s (desc + 0xC) 4 ∧
        ∀ x, (∀ i, i < 4 → x ≠ .lode g.val (slot + i) ∧ x ≠ .lode g.val (desc + 0x1C + i)) → t.getByte x = s.getByte x)))

/-! ### Finub links -/

namespace Sys2Proof.Claim
open Sys2Proof Sys2Proof.Machine

/-- A port has changed to l; no other port has, no byte, no agent and no region. -/
def LinkIs (s t : State) (p : Fin 8) (l : Link) : Prop :=
  t.links[p] = l ∧ (∀ q : Fin 8, q ≠ p → t.links[q] = s.links[q]) ∧ SameBytes s t ∧ (∀ a, t.hart a = s.hart a) ∧ t.regions = s.regions

/-- A well-formed header for a port that is up, with nothing new in its ACK and no NAK. -/
def Plain1 (s : State) (p : Fin 8) (k : Packet) : Prop :=
  s.links[p].state = .up ∧ k.addr.toNat < 2 ^ 48 ∧ k.data.length ≤ 256 ∧ k.ack = s.links[p].txOld ∧ k.nak = false

/-- A port that has accepted the next packet (R382). -/
def taken (l : Link) : Link := { l with rxExp := l.rxExp + 1, nakOpen := false, ackDue := true }

/-- A port whose latest packet has carried the ACK and NAK that were due (R381, R382). -/
def told (l : Link) (t : PType) (k : Packet) : Link := { l with ackDue := false, nakDue := false, wire := lanesOut l.txLanes (packetWire t k) }

/-- One NAK until the next acceptance (R382). -/
def oneNak (l : Link) : Link := { l with nakOpen := true, nakDue := l.nakDue || !l.nakOpen }

/-- A port in training from a cycle on (R384). -/
def trainFrom (l : Link) (c : Nat) : Link :=
  { l with state := .training, training := some ⟨c, none, none, none, false⟩, resend := [], crcTimes := [] }

/-- A packet posted at a port. -/
def posted (l : Link) (t : PType) (tag : BitVec 24) (arg : DWord) (data : List Byte) : Link :=
  { l with outbox := l.outbox ++ [(t, ⟨0, 0, false, 0, 0, tag, arg, data⟩)] }

/-- A packet's tag as an argument. -/
def tagArg (g : BitVec 24) : DWord := BitVec.ofNat 64 g.toNat

/-- The events of a sequenced packet received (R379). -/
def Sequenced (f : Fin 8 → Packet → Instr) : Prop :=
  f ∈ [Instr.writePkt, .readReq, .readRsp, .tokenPkt, .grantPkt, .doneHdr, .refusePkt]

/-- How many lanes of a mask stand below a lane: its place among the working lanes, ascending (R379). -/
def lanesBelow (m : BitVec 16) (lane : Nat) : Nat := (List.range lane).countP (fun i => m.getLsbD i)

/-- The remainder register of CRC-32C over some bits: polynomial 0x1EDC_6F41, all ones first (log entry 68). -/
def crcBits (bits : List Bool) : BitVec 32 :=
  bits.foldl (fun r b => if r.getLsbD 31 != b then (r <<< 1) ^^^ 0x1EDC6F41 else r <<< 1) 0xFFFFFFFF

/-- A slot of a peer's channel freed: the fourth since the last grant is granted with the three before it (R230). -/
def slotFreed (l : Link) (g : BitVec 24) (now : Nat) : Link :=
  let rest := l.freed.filter (fun f => f.1 ≠ g)
  match l.freed.find? (fun f => f.1 == g) with
  | some f => if 3 ≤ f.2.1 then posted { l with freed := rest } .grant g (BitVec.ofNat 64 (f.2.1 + 1)) []
    else { l with freed := rest ++ [(g, f.2.1 + 1, f.2.2)] }
  | none => { l with freed := rest ++ [(g, 1, now)] }

/-- The widest lanes of a mask that a port may use (R384). -/
def r384 (g : BitVec 16) : Option (BitVec 16) :=
  if g.toNat = 0xFFFF then some 0xFFFF else if g.toNat / 256 = 255 then some 0xFF00 else if g.toNat % 256 = 255 then some 0xFF else none

end Sys2Proof.Claim

/-- R230, R333, R334, R376 to R387, R399, R400. The model's choices here: an event whose condition fails changes nothing (log entry 12),
what a port that goes down keeps, that the first training is no RETRAIN and full retraining clears LOST (38), the tags of remote channels
(41), header errors and the conventions of the CRC (68), and the two meanings of a DONE header (69). -/
def Obligations.LinksCarryAcceptAndReplayPackets : Prop :=
  (∀ (s : State) (p : Fin 8), let l := s.links[p]; let i := Instr.packetSend p; let n := (l.txNext - l.txOld).toNat
    (l.state ≠ .up → exec i s = .next s) ∧
    (l.state = .up → (∀ f ∈ l.freed, s.cycle < f.2.2 + 64) →
      (∀ x r, l.resend = x :: r → ∃ t, exec i s = .next t ∧
        LinkIs s t p { told l x.1 { x.2 with ack := l.rxExp, nak := l.nakDue } with resend := r, replays := up1 l.replays }) ∧
      (∀ t k r, l.resend = [] → l.outbox = (t, k) :: r → n < 512 → let y : Packet := { k with seq := l.txNext, ack := l.rxExp, nak := l.nakDue }
        ∃ u, exec i s = .next u ∧ LinkIs s u p { told l t y with outbox := r, replay := l.replay ++ [(t, y)], txNext := l.txNext + 1, lastAdvance := if n = 0 then s.cycle else l.lastAdvance }) ∧
      (l.resend = [] → (l.outbox = [] ∨ 512 ≤ n) → ∃ u, exec i s = .next u ∧ LinkIs s u p (told l .idle ⟨0, l.rxExp, l.nakDue, 0, 0, 0, 0, []⟩)))) ∧
  (∀ (t : PType) (k : Packet), k.data.length ≤ 256 → let w := packetWire t k; let n (o m : Nat) : Nat := leNat ((w.drop o).take m); let f := (k.data.length + 63) / 64
    w.length = 64 + 64 * f ∧ n 0 1 = [PType.idle, .write, .readReq, .readRsp, .token, .grant, .done, .refuse].idxOf t ∧ n 1 1 = f ∧
    n 2 2 = k.seq.toNat ∧ n 4 2 = k.ack.toNat + (if k.nak = true then 2 ^ 12 else 0) ∧ n 6 2 = k.data.length ∧ n 8 8 = k.addr.toNat ∧
    n 0x10 4 = k.key.toNat ∧ n 0x14 4 = k.tag.toNat ∧ n 0x18 8 = k.arg.toNat ∧ n 0x20 24 = 0 ∧
    n 0x38 4 = (if f = 0 then 0 else (crc32c (w.drop 64)).toNat) ∧ n 0x3C 4 = (crc32c (w.take 60)).toNat ∧ (w.drop 64).take k.data.length = k.data ∧
    (k.addr.toNat < 2 ^ 48 → packetFrom w = .ok (t, k))) ∧
  (∀ (m : BitVec 16) (bs : List Byte), let w := lanesBelow m 16; (lanesOut m bs).length = 16 ∧ ∀ lane, lane < 16 →
    (m.getLsbD lane = false → (lanesOut m bs).getD lane [] = []) ∧
    (m.getLsbD lane = true → ∀ j : Nat, ((lanesOut m bs).getD lane [])[j]? = bs[w * j + lanesBelow m lane]?) ∧
    (m ≠ 0 → bs.length % w = 0 → lanesIn m (lanesOut m bs) = bs)) ∧
  (∀ (bs : List Byte) (i : Nat), i < 32 → (crc32c bs).getLsbD i =
    !(crcBits (bs.flatMap (fun b => (List.range 8).map (fun j => b.getLsbD j)))).getLsbD (31 - i)) ∧
  (∀ (f : Fin 8 → Packet → Instr), Sequenced f → ∀ (s : State) (p : Fin 8) (k : Packet), let l := s.links[p]; let d := (l.rxExp - k.seq).toNat
    (l.state ≠ .up → exec (f p k) s = .next s) ∧
    (l.state = .up → (2 ^ 48 ≤ k.addr.toNat ∨ 256 < k.data.length) → ∃ t, exec (f p k) s = .next t ∧ t.links[p].state = .down ∧
      t.links[p].txNext = l.txNext ∧ t.links[p].replay = l.replay) ∧
    (Plain1 s p k →
      (1 ≤ d → d ≤ 512 → ∃ t, exec (f p k) s = .next t ∧ LinkIs s t p { l with dup := up1 l.dup, ackDue := true }) ∧
      (512 < d → ∃ t, exec (f p k) s = .next t ∧ LinkIs s t p (oneNak { l with ooo := up1 l.ooo })) ∧
      (d = 0 → ∃ t, exec (f p k) s = .next t ∧ t.links[p].rxExp = l.rxExp + 1 ∧ t.links[p].ackDue = true))) ∧
  (∀ (s : State) (p : Fin 8) (k : Packet), let l := s.links[p]; let n := (k.ack - l.txOld).toNat
    l.state = .up → k.addr.toNat < 2 ^ 48 → k.data.length ≤ 256 → l.resend = [] → n ≤ (l.txNext - l.txOld).toNat → ∃ t, exec (.idleHdr p k) s = .next t ∧ LinkIs s t p { l with txOld := k.ack, replay := l.replay.drop n, resend := if k.nak then l.replay.drop n else [], lastAdvance := if 0 < n then s.cycle else l.lastAdvance }) ∧
  (∀ (s : State) (p : Fin 8) (k : Packet), let l := s.links[p]; Plain1 s p k → k.seq = l.rxExp →
    (∀ s1 as, s.importCheck k k.data.length true = (s1, some as) → ∃ t, exec (.writePkt p k) s = .next t ∧ SameBytes s1 t ∧ ∃ w : Admitted,
      let x := k.addr.toNat / 2 ^ 40 % 2 ^ 8; let e (o m : Nat) := numAt s1 (fun i => .bulk (s1.impBase.toNat + 32 * x + o + i)) m
      t.links[p] = { taken l with writes := l.writes ++ [w], admitted := l.admitted + 1 } ∧ w.no = l.admitted ∧ w.tag = k.tag ∧ w.addrs = as ∧
      w.bytes = k.data ∧ w.idx = x ∧ w.ctx = e 0x14 2 ∧ w.gva = e 0 8 + k.addr.toNat % 2 ^ 40) ∧
    (∀ s1 as, (∀ q n i, s.ownChan p k.tag ≠ some (q, n, i, false)) → s.importCheck k k.data.length true = (s1, some as) → as.Nodup → s1.memWf = true →
      ∃ t, exec (.tokenPkt p k) s = .next t ∧ (∀ (i : Nat) a b, as[i]? = some a → k.data[i]? = some b → t.getByte (.bulk a) = b) ∧
        (∀ x, (∀ a ∈ as, x ≠ .bulk a) → t.getByte x = s1.getByte x) ∧ t.links[p] = slotFreed (taken l) k.tag s.cycle) ∧
    (∀ q n i x r2 (c2 : Fin 4) (p2 : Fin 8) (r : Region) (cl : Clause) (ch : Chan) (h : Hop) (e : Extent), s.ownChan p k.tag = some (q, n, i, false) →
      ChanAt s q n i r cl ch → ch.src = .remote x → cl.remoteExt ch.src = some e → ch.dst = .port r2 c2 p2 → ch.hops = [h] →
      ch.pushed + 1 < e.len / tokenSize ch.ttype → let a2 := AgentId.ctx (cl.cells.getD r2 0) c2
      ∃ t y, exec (.tokenPkt p k) s = .next t ∧ SameBytes s t ∧ queueOf t a2 p2 = queueOf s a2 p2 ++ [y] ∧ y.item = .data (tokenFrom ch.ttype k.data) ∧
        t.getChan q n i = some { ch with pushed := ch.pushed + 1, arrived := ch.arrived + 1 } ∧ t.links[p] = taken l) ∧
    (s.importCheck k k.data.length true = (s, none) →
      (∃ t, exec (.writePkt p k) s = .next t ∧ LinkIs s t p { taken l with refused := l.refused ++ [k.tag] }) ∧
      ((∀ q n i, s.ownChan p k.tag ≠ some (q, n, i, false)) → ∃ t, exec (.tokenPkt p k) s = .next t ∧
        LinkIs s t p (posted (taken l) .refuse k.tag (tagArg k.tag) []))) ∧
    ((k.arg = 0 ∨ 256 < k.arg.toNat ∨ s.importCheck k k.arg.toNat false = (s, none)) →
      ∃ t, exec (.readReq p k) s = .next t ∧ LinkIs s t p (posted (taken l) .refuse k.tag (tagArg k.tag) [])) ∧
    (∀ as, k.arg ≠ 0 → k.arg.toNat ≤ 256 → s.importCheck k k.arg.toNat false = (s, some as) → (∀ a ∈ as, s.isBad (.bulk a) = false) →
      ∃ t, exec (.readReq p k) s = .next t ∧
        LinkIs s t p (posted (taken l) .readRsp k.tag 0 (as.map (fun a => s.getByte (.bulk a))))) ∧
    (∃ t, exec (.readRsp p k) s = .next t ∧ LinkIs s t p { taken l with transfers := l.transfers.map (fun x =>
      if x.tag = k.tag then { x with inbox := x.inbox ++ [k.data] } else x) }) ∧
    (∀ q n i h ch, s.ownChan p k.tag = some (q, n, i, true) → s.getChan q n i = some ch → ch.hops = [h] → ∃ t, exec (.grantPkt p k) s = .next t ∧
      t.getChan q n i = some { ch with hops := [{ h with free := h.free + k.arg.toNat }] } ∧ t.links[p] = taken l) ∧
    (let g : BitVec 24 := BitVec.ofNat 24 k.arg.toNat;
      (∀ x, l.transfers.find? (fun y => y.tag == g) = some x →
        ((∃ c, s.cmd x.cond x.cmd = some c ∧ ∃ a b n y z, c.op = .rcopy a b n y false z ∧ (n.toNat + 255) / 256 < c.prog) →
          (∀ y ∈ l.outbox ++ l.replay, y.1 = .done → y.2.tag ≠ g) → ∃ t, exec (.doneHdr p k) s = .next t ∧ SameBytes s t ∧
          (∀ c ∈ (s.cond x.cond).cmds, c.id = x.cmd → { c with ready := true } ∈ (t.cond x.cond).cmds) ∧
          t.links[p] = { taken l with transfers := l.transfers.filter (fun y => y.tag ≠ g) }) ∧
        (∀ c, (s.cond x.cond).cmds.find? (fun y => y.id == x.cmd) = some c → (∀ key m r o, c.op ≠ .lget key m r o) →
          ∃ t, exec (.refusePkt p k) s = .next t ∧ SameBytes s t ∧ ∃ c' ∈ (t.cond x.cond).cmds, c'.id = x.cmd ∧
            c'.failed = some ⟨.cmdfail, 0x20, c.op.remAddr, none⟩)) ∧
      (∀ as bs, l.transfers.find? (fun y => y.tag == g) = none → s.ownChan p g = none → l.writes.map (fun w => (w.tag, w.addrs, w.bytes)) = [(g, as, bs)] → as.length = bs.length →
        as.Nodup → s.memWf = true → ∃ t, exec (.doneHdr p k) s = .next t ∧ t.links[p].writes = [] ∧
          ∀ (i : Nat) a b, as[i]? = some a → bs[i]? = some b → t.getByte (.bulk a) = b) ∧
      (l.transfers.find? (fun y => y.tag == g) = none → s.ownChan p g = none → (∀ y ∈ l.writes, y.tag ≠ g) → ∃ t, exec (.doneHdr p k) s = .next t ∧
        LinkIs s t p { posted (taken l) (if g ∈ l.refused then .refuse else .done) g (tagArg g) [] with refused := l.refused.filter (fun y => y ≠ g), freed := l.freed.filter (fun f => f.1 ≠ g) }))) ∧
  (∀ (s : State) (q n i x : Nat) (r : Region) (cl : Clause) (ch : Chan) (h : Hop) (e : Extent), ChanAt s q n i r cl ch → ch.src = .remote x →
    cl.remoteExt ch.src = some e → ch.hops[0]? = some h → 4 ≤ h.freed → let l := s.links[e.port]; let j := Instr.sendWindowGrant q n i 0
    ((l.state = .down ∨ l.state = .disabled) → ∃ t, exec j s = .next t ∧ SameBytes s t ∧ t.region q = some { r with doom := some 0x0E }) ∧
    (l.state = .up → l.outbox.length + (l.txNext - l.txOld).toNat < 512 → ∃ t y, exec j s = .next t ∧ SameBytes s t ∧
      t.links[e.port] = { l with outbox := l.outbox ++ [(.grant, y)] } ∧ y.tag = chanTag q n i false ∧ y.arg = BitVec.ofNat 64 h.freed ∧
      t.getHop q n i 0 = some { h with freed := 0, firstFreed := none })) ∧
  (∀ (s : State) (k : Packet) (n : Nat) (wr : Bool), let e (o m : Nat) := numAt s (fun i => .bulk (s.impBase.toNat + 32 * (k.addr.toNat / 2 ^ 40 % 2 ^ 8) + o + i)) m
    (e 0x16 1 % 2 = 0 ∨ e 0x10 4 ≠ k.key.toNat ∨ e 8 8 < k.addr.toNat % 2 ^ 40 + n ∨ wr = true ∧ e 0x16 1 / 2 % 2 = 0 ∨ s.rootOf (e 0x14 2) = none) →
    s.importCheck k n wr = (s, none)) ∧
  (∀ (s : State) (p : Fin 8), let l := s.links[p]; let n := (l.txNext - l.txOld).toNat; let up := l.state = .up
    let trains (i : Instr) : Prop := ∃ t, exec i s = .next t ∧ LinkIs s t p (trainFrom l s.cycle)
    ((¬ up ∨ n = 0 ∨ s.cycle < l.lastAdvance + 2048) → exec (.replayTimeout p) s = .next s) ∧
    (up → n ≠ 0 → l.lastAdvance + 2048 ≤ s.cycle → ∃ t, exec (.replayTimeout p) s = .next t ∧
      LinkIs s t p { l with resend := l.replay, lastAdvance := s.cycle }) ∧
    (¬ up → exec (.crcErr p) s = .next s ∧ exec (.crcRetrain p) s = .next s ∧ exec (.reservedTypePacket p) s = .next s) ∧
    (up → ∃ t, exec (.crcErr p) s = .next t ∧ LinkIs s t p (oneNak { l with crcErr := up1 l.crcErr, crcTimes := l.crcTimes ++ [s.cycle] })) ∧
    (up → 32 ≤ l.crcTimes.countP (fun c => s.cycle < c + 4096) → trains (.crcRetrain p)) ∧
    (l.crcTimes.countP (fun c => s.cycle < c + 4096) < 32 → exec (.crcRetrain p) s = .next s) ∧
    (up → trains (.trainingPatternReceived p)) ∧
    (∃ t, exec (.fullRetraining p) s = .next t ∧ LinkIs s t p { trainFrom l s.cycle with lost := 0 }) ∧
    (∀ lane : Fin 16, l.lost.getLsbD lane = false → up → ∃ t, exec (.laneLoss p lane) s = .next t ∧ LinkIs s t p
      (trainFrom { l with lost := l.lost ||| BitVec.ofNat 16 (2 ^ lane.val), lostCount := up1 l.lostCount } s.cycle)) ∧
    (∃ t, exec (.portDisable p) s = .next t ∧ t.links[p].state = .disabled ∧ t.links[p].outbox = [] ∧ t.links[p].replay = l.replay) ∧
    (up → ∃ t, exec (.reservedTypePacket p) s = .next t ∧ t.links[p].state = .down) ∧
    (∀ t : Training, l.training = some t →
      ((t.good ≠ none ∨ s.cycle < t.began + 1024) → ∀ g, exec (.trainingPatternEnd p g) s = .next s) ∧
      (∀ g, t.good = none → t.began + 1024 ≤ s.cycle → t.peer = none → ∃ u, exec (.trainingPatternEnd p g) s = .next u ∧
        LinkIs s u p { l with training := some { t with good := some (g &&& ~~~ l.lost) } }) ∧
      (∀ g m, t.good = some g → t.peer = none →
        (∀ a b, r384 g = some a → r384 m = some b → ∃ u, exec (.goodLaneMask p m) s = .next u ∧ LinkIs s u p { l with rxLanes := a, txLanes := b, wire := lanesOut b (packetWire .idle ⟨0, l.rxExp, false, 0, 0, 0, 0, []⟩), training := some { t with peer := some m, idleSent := some (t.idleSent.getD s.cycle) } }) ∧
        ((r384 g = none ∨ r384 m = none) → ∃ u, exec (.goodLaneMask p m) s = .next u ∧ u.links[p].state = .down)) ∧
      (∀ c, t.idleSent = some c → (s.cycle < c + 512 → exec (.retrainTimeout p) s = .next s) ∧
        (c + 512 ≤ s.cycle → trains (.retrainTimeout p)) ∧
        (∀ k : Packet, l.state = .training → k.ack = l.txOld → k.addr.toNat < 2 ^ 48 → k.data.length ≤ 256 →
          (l.lost &&& l.rxLanes ≠ 0 → exec (.idleHdr p k) s = .next s) ∧
          (∀ k' : Packet, (2 ^ 48 ≤ k'.addr.toNat ∨ 256 < k'.data.length) → exec (.idleHdr p k') s = .next s) ∧
          (l.lost &&& l.rxLanes = 0 → ∃ u, exec (.idleHdr p k) s = .next u ∧
            LinkIs s u p { l with state := .up, training := none, resend := l.replay, wasUp := true, retrains := if l.wasUp = true then up1 l.retrains else l.retrains, lastAdvance := s.cycle })))))
end

