-- ==== Sys2Proof/Laws/State.lean ====
section
/-! SUPPORT. What each update of the state leaves: one lemma per field, so that no proof unfolds a record update. -/
-- The theorems of this file are checked one after another: in parallel they ask for more memory than a check has.
set_option Elab.async false
namespace Sys2Proof.Machine

@[simp] theorem State.setCell_cycle (s : State) (p : Nat) (x : Cell) : (s.setCell p x).cycle = s.cycle := rfl
@[simp] theorem State.setCell_agenda (s : State) (p : Nat) (x : Cell) : (s.setCell p x).agenda = s.agenda := rfl
@[simp] theorem State.setCell_cur (s : State) (p : Nat) (x : Cell) : (s.setCell p x).cur = s.cur := rfl
@[simp] theorem State.setCell_fresh (s : State) (p : Nat) (x : Cell) : (s.setCell p x).fresh = s.fresh := rfl
@[simp] theorem State.setCell_conds (s : State) (p : Nat) (x : Cell) : (s.setCell p x).conds = s.conds := rfl
@[simp] theorem State.setCell_regions (s : State) (p : Nat) (x : Cell) : (s.setCell p x).regions = s.regions := rfl
@[simp] theorem State.setCell_bulk (s : State) (p : Nat) (x : Cell) : (s.setCell p x).bulk = s.bulk := rfl
@[simp] theorem State.setCell_seam (s : State) (p : Nat) (x : Cell) : (s.setCell p x).seam = s.seam := rfl
@[simp] theorem State.setCell_host (s : State) (p : Nat) (x : Cell) : (s.setCell p x).host = s.host := rfl
@[simp] theorem State.setCell_peer (s : State) (p : Nat) (x : Cell) : (s.setCell p x).peer = s.peer := rfl
@[simp] theorem State.setCell_lode (s : State) (p : Nat) (x : Cell) : (s.setCell p x).lode = s.lode := rfl
@[simp] theorem State.setCell_feBulk (s : State) (p : Nat) (x : Cell) : (s.setCell p x).feBulk = s.feBulk := rfl
@[simp] theorem State.setCell_feHost (s : State) (p : Nat) (x : Cell) : (s.setCell p x).feHost = s.feHost := rfl
@[simp] theorem State.setCell_ldfWait (s : State) (p : Nat) (x : Cell) : (s.setCell p x).ldfWait = s.ldfWait := rfl
@[simp] theorem State.setCell_feSave (s : State) (p : Nat) (x : Cell) : (s.setCell p x).feSave = s.feSave := rfl
@[simp] theorem State.setCell_served (s : State) (p : Nat) (x : Cell) : (s.setCell p x).served = s.served := rfl
@[simp] theorem State.setCell_shootFrames (s : State) (p : Nat) (x : Cell) : (s.setCell p x).shootFrames = s.shootFrames := rfl
@[simp] theorem State.setCell_bad (s : State) (p : Nat) (x : Cell) : (s.setCell p x).bad = s.bad := rfl
@[simp] theorem State.setCell_pins (s : State) (p : Nat) (x : Cell) : (s.setCell p x).pins = s.pins := rfl
@[simp] theorem State.setCell_freeing (s : State) (p : Nat) (x : Cell) : (s.setCell p x).freeing = s.freeing := rfl
@[simp] theorem State.setCell_xlats (s : State) (p : Nat) (x : Cell) : (s.setCell p x).xlats = s.xlats := rfl
@[simp] theorem State.setCell_xsdAddr (s : State) (p : Nat) (x : Cell) : (s.setCell p x).xsdAddr = s.xsdAddr := rfl
@[simp] theorem State.setCell_xsdLen (s : State) (p : Nat) (x : Cell) : (s.setCell p x).xsdLen = s.xsdLen := rfl
@[simp] theorem State.setCell_shoots (s : State) (p : Nat) (x : Cell) : (s.setCell p x).shoots = s.shoots := rfl
@[simp] theorem State.setCell_shootBusy (s : State) (p : Nat) (x : Cell) : (s.setCell p x).shootBusy = s.shootBusy := rfl
@[simp] theorem State.setCell_shootOvfl (s : State) (p : Nat) (x : Cell) : (s.setCell p x).shootOvfl = s.shootOvfl := rfl
@[simp] theorem State.setCell_shootErr (s : State) (p : Nat) (x : Cell) : (s.setCell p x).shootErr = s.shootErr := rfl
@[simp] theorem State.setCell_shootDone (s : State) (p : Nat) (x : Cell) : (s.setCell p x).shootDone = s.shootDone := rfl
@[simp] theorem State.setCell_impBase (s : State) (p : Nat) (x : Cell) : (s.setCell p x).impBase = s.impBase := rfl
@[simp] theorem State.setCell_queues (s : State) (p : Nat) (x : Cell) : (s.setCell p x).queues = s.queues := rfl
@[simp] theorem State.setCell_drainMax (s : State) (p : Nat) (x : Cell) : (s.setCell p x).drainMax = s.drainMax := rfl
@[simp] theorem State.setCell_killMax (s : State) (p : Nat) (x : Cell) : (s.setCell p x).killMax = s.killMax := rfl
@[simp] theorem State.setCell_pcMax (s : State) (p : Nat) (x : Cell) : (s.setCell p x).pcMax = s.pcMax := rfl
@[simp] theorem State.setCell_rclass (s : State) (p : Nat) (x : Cell) : (s.setCell p x).rclass = s.rclass := rfl
@[simp] theorem State.setCell_errata (s : State) (p : Nat) (x : Cell) : (s.setCell p x).errata = s.errata := rfl
@[simp] theorem State.setCell_coreq (s : State) (p : Nat) (x : Cell) : (s.setCell p x).coreq = s.coreq := rfl
@[simp] theorem State.setCell_cache (s : State) (p : Nat) (x : Cell) : (s.setCell p x).cache = s.cache := rfl
@[simp] theorem State.setCell_saves (s : State) (p : Nat) (x : Cell) : (s.setCell p x).saves = s.saves := rfl
@[simp] theorem State.setCell_msix (s : State) (p : Nat) (x : Cell) : (s.setCell p x).msix = s.msix := rfl
@[simp] theorem State.setCell_enmap (s : State) (p : Nat) (x : Cell) : (s.setCell p x).enmap = s.enmap := rfl
@[simp] theorem State.setCell_retire (s : State) (p : Nat) (x : Cell) : (s.setCell p x).retire = s.retire := rfl
@[simp] theorem State.setCell_dead (s : State) (p : Nat) (x : Cell) : (s.setCell p x).dead = s.dead := rfl
@[simp] theorem State.setCell_per (s : State) (p : Nat) (x : Cell) : (s.setCell p x).per = s.per := rfl
@[simp] theorem State.setCell_perNext (s : State) (p : Nat) (x : Cell) : (s.setCell p x).perNext = s.perNext := rfl
@[simp] theorem State.setCell_windows (s : State) (p : Nat) (x : Cell) : (s.setCell p x).windows = s.windows := rfl
@[simp] theorem State.setCell_errs (s : State) (p : Nat) (x : Cell) : (s.setCell p x).errs = s.errs := rfl
@[simp] theorem State.setCell_lastUe (s : State) (p : Nat) (x : Cell) : (s.setCell p x).lastUe = s.lastUe := rfl
@[simp] theorem State.setCell_ueSeen (s : State) (p : Nat) (x : Cell) : (s.setCell p x).ueSeen = s.ueSeen := rfl
@[simp] theorem State.setCell_hsnap (s : State) (p : Nat) (x : Cell) : (s.setCell p x).hsnap = s.hsnap := rfl
@[simp] theorem State.setCell_gen (s : State) (p : Nat) (x : Cell) : (s.setCell p x).gen = s.gen := rfl
@[simp] theorem State.setCell_snapped (s : State) (p : Nat) (x : Cell) : (s.setCell p x).snapped = s.snapped := rfl
@[simp] theorem State.setCell_links (s : State) (p : Nat) (x : Cell) : (s.setCell p x).links = s.links := rfl
@[simp] theorem State.setCell_firm (s : State) (p : Nat) (x : Cell) : (s.setCell p x).firm = s.firm := rfl
@[simp] theorem State.setCell_power (s : State) (p : Nat) (x : Cell) : (s.setCell p x).power = s.power := rfl
@[simp] theorem State.setCell_partitions (s : State) (p : Nat) (x : Cell) : (s.setCell p x).partitions = s.partitions := rfl
@[simp] theorem State.setCell_borders (s : State) (p : Nat) (x : Cell) : (s.setCell p x).borders = s.borders := rfl
@[simp] theorem State.setCell_reads (s : State) (p : Nat) (x : Cell) : (s.setCell p x).reads = s.reads := rfl
@[simp] theorem State.setCell_ide (s : State) (p : Nat) (x : Cell) : (s.setCell p x).ide = s.ide := rfl
@[simp] theorem State.setCell_snapAt (s : State) (p : Nat) (x : Cell) : (s.setCell p x).snapAt = s.snapAt := rfl
@[simp] theorem State.setCell_hdmHeld (s : State) (p : Nat) (x : Cell) : (s.setCell p x).hdmHeld = s.hdmHeld := rfl
@[simp] theorem State.setCell_shootMark (s : State) (p : Nat) (x : Cell) : (s.setCell p x).shootMark = s.shootMark := rfl
@[simp] theorem State.setCell_written (s : State) (p : Nat) (x : Cell) : (s.setCell p x).written = s.written := rfl

@[simp] theorem State.setCond_cycle (s : State) (k : Nat) (x : Cond) : (s.setCond k x).cycle = s.cycle := rfl
@[simp] theorem State.setCond_agenda (s : State) (k : Nat) (x : Cond) : (s.setCond k x).agenda = s.agenda := rfl
@[simp] theorem State.setCond_cur (s : State) (k : Nat) (x : Cond) : (s.setCond k x).cur = s.cur := rfl
@[simp] theorem State.setCond_fresh (s : State) (k : Nat) (x : Cond) : (s.setCond k x).fresh = s.fresh := rfl
@[simp] theorem State.setCond_cells (s : State) (k : Nat) (x : Cond) : (s.setCond k x).cells = s.cells := rfl
@[simp] theorem State.setCond_regions (s : State) (k : Nat) (x : Cond) : (s.setCond k x).regions = s.regions := rfl
@[simp] theorem State.setCond_bulk (s : State) (k : Nat) (x : Cond) : (s.setCond k x).bulk = s.bulk := rfl
@[simp] theorem State.setCond_seam (s : State) (k : Nat) (x : Cond) : (s.setCond k x).seam = s.seam := rfl
@[simp] theorem State.setCond_host (s : State) (k : Nat) (x : Cond) : (s.setCond k x).host = s.host := rfl
@[simp] theorem State.setCond_peer (s : State) (k : Nat) (x : Cond) : (s.setCond k x).peer = s.peer := rfl
@[simp] theorem State.setCond_lode (s : State) (k : Nat) (x : Cond) : (s.setCond k x).lode = s.lode := rfl
@[simp] theorem State.setCond_feBulk (s : State) (k : Nat) (x : Cond) : (s.setCond k x).feBulk = s.feBulk := rfl
@[simp] theorem State.setCond_feHost (s : State) (k : Nat) (x : Cond) : (s.setCond k x).feHost = s.feHost := rfl
@[simp] theorem State.setCond_ldfWait (s : State) (k : Nat) (x : Cond) : (s.setCond k x).ldfWait = s.ldfWait := rfl
@[simp] theorem State.setCond_feSave (s : State) (k : Nat) (x : Cond) : (s.setCond k x).feSave = s.feSave := rfl
@[simp] theorem State.setCond_served (s : State) (k : Nat) (x : Cond) : (s.setCond k x).served = s.served := rfl
@[simp] theorem State.setCond_shootFrames (s : State) (k : Nat) (x : Cond) : (s.setCond k x).shootFrames = s.shootFrames := rfl
@[simp] theorem State.setCond_bad (s : State) (k : Nat) (x : Cond) : (s.setCond k x).bad = s.bad := rfl
@[simp] theorem State.setCond_pins (s : State) (k : Nat) (x : Cond) : (s.setCond k x).pins = s.pins := rfl
@[simp] theorem State.setCond_freeing (s : State) (k : Nat) (x : Cond) : (s.setCond k x).freeing = s.freeing := rfl
@[simp] theorem State.setCond_xlats (s : State) (k : Nat) (x : Cond) : (s.setCond k x).xlats = s.xlats := rfl
@[simp] theorem State.setCond_xsdAddr (s : State) (k : Nat) (x : Cond) : (s.setCond k x).xsdAddr = s.xsdAddr := rfl
@[simp] theorem State.setCond_xsdLen (s : State) (k : Nat) (x : Cond) : (s.setCond k x).xsdLen = s.xsdLen := rfl
@[simp] theorem State.setCond_shoots (s : State) (k : Nat) (x : Cond) : (s.setCond k x).shoots = s.shoots := rfl
@[simp] theorem State.setCond_shootBusy (s : State) (k : Nat) (x : Cond) : (s.setCond k x).shootBusy = s.shootBusy := rfl
@[simp] theorem State.setCond_shootOvfl (s : State) (k : Nat) (x : Cond) : (s.setCond k x).shootOvfl = s.shootOvfl := rfl
@[simp] theorem State.setCond_shootErr (s : State) (k : Nat) (x : Cond) : (s.setCond k x).shootErr = s.shootErr := rfl
@[simp] theorem State.setCond_shootDone (s : State) (k : Nat) (x : Cond) : (s.setCond k x).shootDone = s.shootDone := rfl
@[simp] theorem State.setCond_impBase (s : State) (k : Nat) (x : Cond) : (s.setCond k x).impBase = s.impBase := rfl
@[simp] theorem State.setCond_queues (s : State) (k : Nat) (x : Cond) : (s.setCond k x).queues = s.queues := rfl
@[simp] theorem State.setCond_drainMax (s : State) (k : Nat) (x : Cond) : (s.setCond k x).drainMax = s.drainMax := rfl
@[simp] theorem State.setCond_killMax (s : State) (k : Nat) (x : Cond) : (s.setCond k x).killMax = s.killMax := rfl
@[simp] theorem State.setCond_pcMax (s : State) (k : Nat) (x : Cond) : (s.setCond k x).pcMax = s.pcMax := rfl
@[simp] theorem State.setCond_rclass (s : State) (k : Nat) (x : Cond) : (s.setCond k x).rclass = s.rclass := rfl
@[simp] theorem State.setCond_errata (s : State) (k : Nat) (x : Cond) : (s.setCond k x).errata = s.errata := rfl
@[simp] theorem State.setCond_coreq (s : State) (k : Nat) (x : Cond) : (s.setCond k x).coreq = s.coreq := rfl
@[simp] theorem State.setCond_cache (s : State) (k : Nat) (x : Cond) : (s.setCond k x).cache = s.cache := rfl
@[simp] theorem State.setCond_saves (s : State) (k : Nat) (x : Cond) : (s.setCond k x).saves = s.saves := rfl
@[simp] theorem State.setCond_msix (s : State) (k : Nat) (x : Cond) : (s.setCond k x).msix = s.msix := rfl
@[simp] theorem State.setCond_enmap (s : State) (k : Nat) (x : Cond) : (s.setCond k x).enmap = s.enmap := rfl
@[simp] theorem State.setCond_retire (s : State) (k : Nat) (x : Cond) : (s.setCond k x).retire = s.retire := rfl
@[simp] theorem State.setCond_dead (s : State) (k : Nat) (x : Cond) : (s.setCond k x).dead = s.dead := rfl
@[simp] theorem State.setCond_per (s : State) (k : Nat) (x : Cond) : (s.setCond k x).per = s.per := rfl
@[simp] theorem State.setCond_perNext (s : State) (k : Nat) (x : Cond) : (s.setCond k x).perNext = s.perNext := rfl
@[simp] theorem State.setCond_windows (s : State) (k : Nat) (x : Cond) : (s.setCond k x).windows = s.windows := rfl
@[simp] theorem State.setCond_errs (s : State) (k : Nat) (x : Cond) : (s.setCond k x).errs = s.errs := rfl
@[simp] theorem State.setCond_lastUe (s : State) (k : Nat) (x : Cond) : (s.setCond k x).lastUe = s.lastUe := rfl
@[simp] theorem State.setCond_ueSeen (s : State) (k : Nat) (x : Cond) : (s.setCond k x).ueSeen = s.ueSeen := rfl
@[simp] theorem State.setCond_hsnap (s : State) (k : Nat) (x : Cond) : (s.setCond k x).hsnap = s.hsnap := rfl
@[simp] theorem State.setCond_gen (s : State) (k : Nat) (x : Cond) : (s.setCond k x).gen = s.gen := rfl
@[simp] theorem State.setCond_snapped (s : State) (k : Nat) (x : Cond) : (s.setCond k x).snapped = s.snapped := rfl
@[simp] theorem State.setCond_links (s : State) (k : Nat) (x : Cond) : (s.setCond k x).links = s.links := rfl
@[simp] theorem State.setCond_firm (s : State) (k : Nat) (x : Cond) : (s.setCond k x).firm = s.firm := rfl
@[simp] theorem State.setCond_power (s : State) (k : Nat) (x : Cond) : (s.setCond k x).power = s.power := rfl
@[simp] theorem State.setCond_partitions (s : State) (k : Nat) (x : Cond) : (s.setCond k x).partitions = s.partitions := rfl
@[simp] theorem State.setCond_borders (s : State) (k : Nat) (x : Cond) : (s.setCond k x).borders = s.borders := rfl
@[simp] theorem State.setCond_reads (s : State) (k : Nat) (x : Cond) : (s.setCond k x).reads = s.reads := rfl
@[simp] theorem State.setCond_ide (s : State) (k : Nat) (x : Cond) : (s.setCond k x).ide = s.ide := rfl
@[simp] theorem State.setCond_snapAt (s : State) (k : Nat) (x : Cond) : (s.setCond k x).snapAt = s.snapAt := rfl
@[simp] theorem State.setCond_hdmHeld (s : State) (k : Nat) (x : Cond) : (s.setCond k x).hdmHeld = s.hdmHeld := rfl
@[simp] theorem State.setCond_shootMark (s : State) (k : Nat) (x : Cond) : (s.setCond k x).shootMark = s.shootMark := rfl
@[simp] theorem State.setCond_written (s : State) (k : Nat) (x : Cond) : (s.setCond k x).written = s.written := rfl

@[simp] theorem State.setRegion_cycle (s : State) (q : Nat) (x : Region) : (s.setRegion q x).cycle = s.cycle := rfl
@[simp] theorem State.setRegion_agenda (s : State) (q : Nat) (x : Region) : (s.setRegion q x).agenda = s.agenda := rfl
@[simp] theorem State.setRegion_cur (s : State) (q : Nat) (x : Region) : (s.setRegion q x).cur = s.cur := rfl
@[simp] theorem State.setRegion_fresh (s : State) (q : Nat) (x : Region) : (s.setRegion q x).fresh = s.fresh := rfl
@[simp] theorem State.setRegion_cells (s : State) (q : Nat) (x : Region) : (s.setRegion q x).cells = s.cells := rfl
@[simp] theorem State.setRegion_conds (s : State) (q : Nat) (x : Region) : (s.setRegion q x).conds = s.conds := rfl
@[simp] theorem State.setRegion_bulk (s : State) (q : Nat) (x : Region) : (s.setRegion q x).bulk = s.bulk := rfl
@[simp] theorem State.setRegion_seam (s : State) (q : Nat) (x : Region) : (s.setRegion q x).seam = s.seam := rfl
@[simp] theorem State.setRegion_host (s : State) (q : Nat) (x : Region) : (s.setRegion q x).host = s.host := rfl
@[simp] theorem State.setRegion_peer (s : State) (q : Nat) (x : Region) : (s.setRegion q x).peer = s.peer := rfl
@[simp] theorem State.setRegion_lode (s : State) (q : Nat) (x : Region) : (s.setRegion q x).lode = s.lode := rfl
@[simp] theorem State.setRegion_feBulk (s : State) (q : Nat) (x : Region) : (s.setRegion q x).feBulk = s.feBulk := rfl
@[simp] theorem State.setRegion_feHost (s : State) (q : Nat) (x : Region) : (s.setRegion q x).feHost = s.feHost := rfl
@[simp] theorem State.setRegion_ldfWait (s : State) (q : Nat) (x : Region) : (s.setRegion q x).ldfWait = s.ldfWait := rfl
@[simp] theorem State.setRegion_feSave (s : State) (q : Nat) (x : Region) : (s.setRegion q x).feSave = s.feSave := rfl
@[simp] theorem State.setRegion_served (s : State) (q : Nat) (x : Region) : (s.setRegion q x).served = s.served := rfl
@[simp] theorem State.setRegion_shootFrames (s : State) (q : Nat) (x : Region) : (s.setRegion q x).shootFrames = s.shootFrames := rfl
@[simp] theorem State.setRegion_bad (s : State) (q : Nat) (x : Region) : (s.setRegion q x).bad = s.bad := rfl
@[simp] theorem State.setRegion_pins (s : State) (q : Nat) (x : Region) : (s.setRegion q x).pins = s.pins := rfl
@[simp] theorem State.setRegion_freeing (s : State) (q : Nat) (x : Region) : (s.setRegion q x).freeing = s.freeing := rfl
@[simp] theorem State.setRegion_xlats (s : State) (q : Nat) (x : Region) : (s.setRegion q x).xlats = s.xlats := rfl
@[simp] theorem State.setRegion_xsdAddr (s : State) (q : Nat) (x : Region) : (s.setRegion q x).xsdAddr = s.xsdAddr := rfl
@[simp] theorem State.setRegion_xsdLen (s : State) (q : Nat) (x : Region) : (s.setRegion q x).xsdLen = s.xsdLen := rfl
@[simp] theorem State.setRegion_shoots (s : State) (q : Nat) (x : Region) : (s.setRegion q x).shoots = s.shoots := rfl
@[simp] theorem State.setRegion_shootBusy (s : State) (q : Nat) (x : Region) : (s.setRegion q x).shootBusy = s.shootBusy := rfl
@[simp] theorem State.setRegion_shootOvfl (s : State) (q : Nat) (x : Region) : (s.setRegion q x).shootOvfl = s.shootOvfl := rfl
@[simp] theorem State.setRegion_shootErr (s : State) (q : Nat) (x : Region) : (s.setRegion q x).shootErr = s.shootErr := rfl
@[simp] theorem State.setRegion_shootDone (s : State) (q : Nat) (x : Region) : (s.setRegion q x).shootDone = s.shootDone := rfl
@[simp] theorem State.setRegion_impBase (s : State) (q : Nat) (x : Region) : (s.setRegion q x).impBase = s.impBase := rfl
@[simp] theorem State.setRegion_queues (s : State) (q : Nat) (x : Region) : (s.setRegion q x).queues = s.queues := rfl
@[simp] theorem State.setRegion_drainMax (s : State) (q : Nat) (x : Region) : (s.setRegion q x).drainMax = s.drainMax := rfl
@[simp] theorem State.setRegion_killMax (s : State) (q : Nat) (x : Region) : (s.setRegion q x).killMax = s.killMax := rfl
@[simp] theorem State.setRegion_pcMax (s : State) (q : Nat) (x : Region) : (s.setRegion q x).pcMax = s.pcMax := rfl
@[simp] theorem State.setRegion_rclass (s : State) (q : Nat) (x : Region) : (s.setRegion q x).rclass = s.rclass := rfl
@[simp] theorem State.setRegion_errata (s : State) (q : Nat) (x : Region) : (s.setRegion q x).errata = s.errata := rfl
@[simp] theorem State.setRegion_coreq (s : State) (q : Nat) (x : Region) : (s.setRegion q x).coreq = s.coreq := rfl
@[simp] theorem State.setRegion_cache (s : State) (q : Nat) (x : Region) : (s.setRegion q x).cache = s.cache := rfl
@[simp] theorem State.setRegion_saves (s : State) (q : Nat) (x : Region) : (s.setRegion q x).saves = s.saves := rfl
@[simp] theorem State.setRegion_msix (s : State) (q : Nat) (x : Region) : (s.setRegion q x).msix = s.msix := rfl
@[simp] theorem State.setRegion_enmap (s : State) (q : Nat) (x : Region) : (s.setRegion q x).enmap = s.enmap := rfl
@[simp] theorem State.setRegion_retire (s : State) (q : Nat) (x : Region) : (s.setRegion q x).retire = s.retire := rfl
@[simp] theorem State.setRegion_dead (s : State) (q : Nat) (x : Region) : (s.setRegion q x).dead = s.dead := rfl
@[simp] theorem State.setRegion_per (s : State) (q : Nat) (x : Region) : (s.setRegion q x).per = s.per := rfl
@[simp] theorem State.setRegion_perNext (s : State) (q : Nat) (x : Region) : (s.setRegion q x).perNext = s.perNext := rfl
@[simp] theorem State.setRegion_windows (s : State) (q : Nat) (x : Region) : (s.setRegion q x).windows = s.windows := rfl
@[simp] theorem State.setRegion_errs (s : State) (q : Nat) (x : Region) : (s.setRegion q x).errs = s.errs := rfl
@[simp] theorem State.setRegion_lastUe (s : State) (q : Nat) (x : Region) : (s.setRegion q x).lastUe = s.lastUe := rfl
@[simp] theorem State.setRegion_ueSeen (s : State) (q : Nat) (x : Region) : (s.setRegion q x).ueSeen = s.ueSeen := rfl
@[simp] theorem State.setRegion_hsnap (s : State) (q : Nat) (x : Region) : (s.setRegion q x).hsnap = s.hsnap := rfl
@[simp] theorem State.setRegion_gen (s : State) (q : Nat) (x : Region) : (s.setRegion q x).gen = s.gen := rfl
@[simp] theorem State.setRegion_snapped (s : State) (q : Nat) (x : Region) : (s.setRegion q x).snapped = s.snapped := rfl
@[simp] theorem State.setRegion_links (s : State) (q : Nat) (x : Region) : (s.setRegion q x).links = s.links := rfl
@[simp] theorem State.setRegion_firm (s : State) (q : Nat) (x : Region) : (s.setRegion q x).firm = s.firm := rfl
@[simp] theorem State.setRegion_power (s : State) (q : Nat) (x : Region) : (s.setRegion q x).power = s.power := rfl
@[simp] theorem State.setRegion_partitions (s : State) (q : Nat) (x : Region) : (s.setRegion q x).partitions = s.partitions := rfl
@[simp] theorem State.setRegion_borders (s : State) (q : Nat) (x : Region) : (s.setRegion q x).borders = s.borders := rfl
@[simp] theorem State.setRegion_reads (s : State) (q : Nat) (x : Region) : (s.setRegion q x).reads = s.reads := rfl
@[simp] theorem State.setRegion_ide (s : State) (q : Nat) (x : Region) : (s.setRegion q x).ide = s.ide := rfl
@[simp] theorem State.setRegion_snapAt (s : State) (q : Nat) (x : Region) : (s.setRegion q x).snapAt = s.snapAt := rfl
@[simp] theorem State.setRegion_hdmHeld (s : State) (q : Nat) (x : Region) : (s.setRegion q x).hdmHeld = s.hdmHeld := rfl
@[simp] theorem State.setRegion_shootMark (s : State) (q : Nat) (x : Region) : (s.setRegion q x).shootMark = s.shootMark := rfl
@[simp] theorem State.setRegion_written (s : State) (q : Nat) (x : Region) : (s.setRegion q x).written = s.written := rfl

@[simp] theorem State.modXlat_cycle (s : State) (c : Nat) (f : Xlat → Xlat) : (s.modXlat c f).cycle = s.cycle := rfl
@[simp] theorem State.modXlat_agenda (s : State) (c : Nat) (f : Xlat → Xlat) : (s.modXlat c f).agenda = s.agenda := rfl
@[simp] theorem State.modXlat_cur (s : State) (c : Nat) (f : Xlat → Xlat) : (s.modXlat c f).cur = s.cur := rfl
@[simp] theorem State.modXlat_fresh (s : State) (c : Nat) (f : Xlat → Xlat) : (s.modXlat c f).fresh = s.fresh := rfl
@[simp] theorem State.modXlat_cells (s : State) (c : Nat) (f : Xlat → Xlat) : (s.modXlat c f).cells = s.cells := rfl
@[simp] theorem State.modXlat_conds (s : State) (c : Nat) (f : Xlat → Xlat) : (s.modXlat c f).conds = s.conds := rfl
@[simp] theorem State.modXlat_regions (s : State) (c : Nat) (f : Xlat → Xlat) : (s.modXlat c f).regions = s.regions := rfl
@[simp] theorem State.modXlat_bulk (s : State) (c : Nat) (f : Xlat → Xlat) : (s.modXlat c f).bulk = s.bulk := rfl
@[simp] theorem State.modXlat_seam (s : State) (c : Nat) (f : Xlat → Xlat) : (s.modXlat c f).seam = s.seam := rfl
@[simp] theorem State.modXlat_host (s : State) (c : Nat) (f : Xlat → Xlat) : (s.modXlat c f).host = s.host := rfl
@[simp] theorem State.modXlat_peer (s : State) (c : Nat) (f : Xlat → Xlat) : (s.modXlat c f).peer = s.peer := rfl
@[simp] theorem State.modXlat_lode (s : State) (c : Nat) (f : Xlat → Xlat) : (s.modXlat c f).lode = s.lode := rfl
@[simp] theorem State.modXlat_feBulk (s : State) (c : Nat) (f : Xlat → Xlat) : (s.modXlat c f).feBulk = s.feBulk := rfl
@[simp] theorem State.modXlat_feHost (s : State) (c : Nat) (f : Xlat → Xlat) : (s.modXlat c f).feHost = s.feHost := rfl
@[simp] theorem State.modXlat_ldfWait (s : State) (c : Nat) (f : Xlat → Xlat) : (s.modXlat c f).ldfWait = s.ldfWait := rfl
@[simp] theorem State.modXlat_feSave (s : State) (c : Nat) (f : Xlat → Xlat) : (s.modXlat c f).feSave = s.feSave := rfl
@[simp] theorem State.modXlat_served (s : State) (c : Nat) (f : Xlat → Xlat) : (s.modXlat c f).served = s.served := rfl
@[simp] theorem State.modXlat_shootFrames (s : State) (c : Nat) (f : Xlat → Xlat) : (s.modXlat c f).shootFrames = s.shootFrames := rfl
@[simp] theorem State.modXlat_bad (s : State) (c : Nat) (f : Xlat → Xlat) : (s.modXlat c f).bad = s.bad := rfl
@[simp] theorem State.modXlat_pins (s : State) (c : Nat) (f : Xlat → Xlat) : (s.modXlat c f).pins = s.pins := rfl
@[simp] theorem State.modXlat_freeing (s : State) (c : Nat) (f : Xlat → Xlat) : (s.modXlat c f).freeing = s.freeing := rfl
@[simp] theorem State.modXlat_xsdAddr (s : State) (c : Nat) (f : Xlat → Xlat) : (s.modXlat c f).xsdAddr = s.xsdAddr := rfl
@[simp] theorem State.modXlat_xsdLen (s : State) (c : Nat) (f : Xlat → Xlat) : (s.modXlat c f).xsdLen = s.xsdLen := rfl
@[simp] theorem State.modXlat_shoots (s : State) (c : Nat) (f : Xlat → Xlat) : (s.modXlat c f).shoots = s.shoots := rfl
@[simp] theorem State.modXlat_shootBusy (s : State) (c : Nat) (f : Xlat → Xlat) : (s.modXlat c f).shootBusy = s.shootBusy := rfl
@[simp] theorem State.modXlat_shootOvfl (s : State) (c : Nat) (f : Xlat → Xlat) : (s.modXlat c f).shootOvfl = s.shootOvfl := rfl
@[simp] theorem State.modXlat_shootErr (s : State) (c : Nat) (f : Xlat → Xlat) : (s.modXlat c f).shootErr = s.shootErr := rfl
@[simp] theorem State.modXlat_shootDone (s : State) (c : Nat) (f : Xlat → Xlat) : (s.modXlat c f).shootDone = s.shootDone := rfl
@[simp] theorem State.modXlat_impBase (s : State) (c : Nat) (f : Xlat → Xlat) : (s.modXlat c f).impBase = s.impBase := rfl
@[simp] theorem State.modXlat_queues (s : State) (c : Nat) (f : Xlat → Xlat) : (s.modXlat c f).queues = s.queues := rfl
@[simp] theorem State.modXlat_drainMax (s : State) (c : Nat) (f : Xlat → Xlat) : (s.modXlat c f).drainMax = s.drainMax := rfl
@[simp] theorem State.modXlat_killMax (s : State) (c : Nat) (f : Xlat → Xlat) : (s.modXlat c f).killMax = s.killMax := rfl
@[simp] theorem State.modXlat_pcMax (s : State) (c : Nat) (f : Xlat → Xlat) : (s.modXlat c f).pcMax = s.pcMax := rfl
@[simp] theorem State.modXlat_rclass (s : State) (c : Nat) (f : Xlat → Xlat) : (s.modXlat c f).rclass = s.rclass := rfl
@[simp] theorem State.modXlat_errata (s : State) (c : Nat) (f : Xlat → Xlat) : (s.modXlat c f).errata = s.errata := rfl
@[simp] theorem State.modXlat_coreq (s : State) (c : Nat) (f : Xlat → Xlat) : (s.modXlat c f).coreq = s.coreq := rfl
@[simp] theorem State.modXlat_cache (s : State) (c : Nat) (f : Xlat → Xlat) : (s.modXlat c f).cache = s.cache := rfl
@[simp] theorem State.modXlat_saves (s : State) (c : Nat) (f : Xlat → Xlat) : (s.modXlat c f).saves = s.saves := rfl
@[simp] theorem State.modXlat_msix (s : State) (c : Nat) (f : Xlat → Xlat) : (s.modXlat c f).msix = s.msix := rfl
@[simp] theorem State.modXlat_enmap (s : State) (c : Nat) (f : Xlat → Xlat) : (s.modXlat c f).enmap = s.enmap := rfl
@[simp] theorem State.modXlat_retire (s : State) (c : Nat) (f : Xlat → Xlat) : (s.modXlat c f).retire = s.retire := rfl
@[simp] theorem State.modXlat_dead (s : State) (c : Nat) (f : Xlat → Xlat) : (s.modXlat c f).dead = s.dead := rfl
@[simp] theorem State.modXlat_per (s : State) (c : Nat) (f : Xlat → Xlat) : (s.modXlat c f).per = s.per := rfl
@[simp] theorem State.modXlat_perNext (s : State) (c : Nat) (f : Xlat → Xlat) : (s.modXlat c f).perNext = s.perNext := rfl
@[simp] theorem State.modXlat_windows (s : State) (c : Nat) (f : Xlat → Xlat) : (s.modXlat c f).windows = s.windows := rfl
@[simp] theorem State.modXlat_errs (s : State) (c : Nat) (f : Xlat → Xlat) : (s.modXlat c f).errs = s.errs := rfl
@[simp] theorem State.modXlat_lastUe (s : State) (c : Nat) (f : Xlat → Xlat) : (s.modXlat c f).lastUe = s.lastUe := rfl
@[simp] theorem State.modXlat_ueSeen (s : State) (c : Nat) (f : Xlat → Xlat) : (s.modXlat c f).ueSeen = s.ueSeen := rfl
@[simp] theorem State.modXlat_hsnap (s : State) (c : Nat) (f : Xlat → Xlat) : (s.modXlat c f).hsnap = s.hsnap := rfl
@[simp] theorem State.modXlat_gen (s : State) (c : Nat) (f : Xlat → Xlat) : (s.modXlat c f).gen = s.gen := rfl
@[simp] theorem State.modXlat_snapped (s : State) (c : Nat) (f : Xlat → Xlat) : (s.modXlat c f).snapped = s.snapped := rfl
@[simp] theorem State.modXlat_links (s : State) (c : Nat) (f : Xlat → Xlat) : (s.modXlat c f).links = s.links := rfl
@[simp] theorem State.modXlat_firm (s : State) (c : Nat) (f : Xlat → Xlat) : (s.modXlat c f).firm = s.firm := rfl
@[simp] theorem State.modXlat_power (s : State) (c : Nat) (f : Xlat → Xlat) : (s.modXlat c f).power = s.power := rfl
@[simp] theorem State.modXlat_partitions (s : State) (c : Nat) (f : Xlat → Xlat) : (s.modXlat c f).partitions = s.partitions := rfl
@[simp] theorem State.modXlat_borders (s : State) (c : Nat) (f : Xlat → Xlat) : (s.modXlat c f).borders = s.borders := rfl
@[simp] theorem State.modXlat_reads (s : State) (c : Nat) (f : Xlat → Xlat) : (s.modXlat c f).reads = s.reads := rfl
@[simp] theorem State.modXlat_ide (s : State) (c : Nat) (f : Xlat → Xlat) : (s.modXlat c f).ide = s.ide := rfl
@[simp] theorem State.modXlat_snapAt (s : State) (c : Nat) (f : Xlat → Xlat) : (s.modXlat c f).snapAt = s.snapAt := rfl
@[simp] theorem State.modXlat_hdmHeld (s : State) (c : Nat) (f : Xlat → Xlat) : (s.modXlat c f).hdmHeld = s.hdmHeld := rfl
@[simp] theorem State.modXlat_shootMark (s : State) (c : Nat) (f : Xlat → Xlat) : (s.modXlat c f).shootMark = s.shootMark := rfl
@[simp] theorem State.modXlat_written (s : State) (c : Nat) (f : Xlat → Xlat) : (s.modXlat c f).written = s.written := rfl

@[simp] theorem State.modErr_cycle (s : State) (d : Fin 7) (f : ErrCount → ErrCount) : (s.modErr d f).cycle = s.cycle := rfl
@[simp] theorem State.modErr_agenda (s : State) (d : Fin 7) (f : ErrCount → ErrCount) : (s.modErr d f).agenda = s.agenda := rfl
@[simp] theorem State.modErr_cur (s : State) (d : Fin 7) (f : ErrCount → ErrCount) : (s.modErr d f).cur = s.cur := rfl
@[simp] theorem State.modErr_fresh (s : State) (d : Fin 7) (f : ErrCount → ErrCount) : (s.modErr d f).fresh = s.fresh := rfl
@[simp] theorem State.modErr_cells (s : State) (d : Fin 7) (f : ErrCount → ErrCount) : (s.modErr d f).cells = s.cells := rfl
@[simp] theorem State.modErr_conds (s : State) (d : Fin 7) (f : ErrCount → ErrCount) : (s.modErr d f).conds = s.conds := rfl
@[simp] theorem State.modErr_regions (s : State) (d : Fin 7) (f : ErrCount → ErrCount) : (s.modErr d f).regions = s.regions := rfl
@[simp] theorem State.modErr_bulk (s : State) (d : Fin 7) (f : ErrCount → ErrCount) : (s.modErr d f).bulk = s.bulk := rfl
@[simp] theorem State.modErr_seam (s : State) (d : Fin 7) (f : ErrCount → ErrCount) : (s.modErr d f).seam = s.seam := rfl
@[simp] theorem State.modErr_host (s : State) (d : Fin 7) (f : ErrCount → ErrCount) : (s.modErr d f).host = s.host := rfl
@[simp] theorem State.modErr_peer (s : State) (d : Fin 7) (f : ErrCount → ErrCount) : (s.modErr d f).peer = s.peer := rfl
@[simp] theorem State.modErr_lode (s : State) (d : Fin 7) (f : ErrCount → ErrCount) : (s.modErr d f).lode = s.lode := rfl
@[simp] theorem State.modErr_feBulk (s : State) (d : Fin 7) (f : ErrCount → ErrCount) : (s.modErr d f).feBulk = s.feBulk := rfl
@[simp] theorem State.modErr_feHost (s : State) (d : Fin 7) (f : ErrCount → ErrCount) : (s.modErr d f).feHost = s.feHost := rfl
@[simp] theorem State.modErr_ldfWait (s : State) (d : Fin 7) (f : ErrCount → ErrCount) : (s.modErr d f).ldfWait = s.ldfWait := rfl
@[simp] theorem State.modErr_feSave (s : State) (d : Fin 7) (f : ErrCount → ErrCount) : (s.modErr d f).feSave = s.feSave := rfl
@[simp] theorem State.modErr_served (s : State) (d : Fin 7) (f : ErrCount → ErrCount) : (s.modErr d f).served = s.served := rfl
@[simp] theorem State.modErr_shootFrames (s : State) (d : Fin 7) (f : ErrCount → ErrCount) : (s.modErr d f).shootFrames = s.shootFrames := rfl
@[simp] theorem State.modErr_bad (s : State) (d : Fin 7) (f : ErrCount → ErrCount) : (s.modErr d f).bad = s.bad := rfl
@[simp] theorem State.modErr_pins (s : State) (d : Fin 7) (f : ErrCount → ErrCount) : (s.modErr d f).pins = s.pins := rfl
@[simp] theorem State.modErr_freeing (s : State) (d : Fin 7) (f : ErrCount → ErrCount) : (s.modErr d f).freeing = s.freeing := rfl
@[simp] theorem State.modErr_xlats (s : State) (d : Fin 7) (f : ErrCount → ErrCount) : (s.modErr d f).xlats = s.xlats := rfl
@[simp] theorem State.modErr_xsdAddr (s : State) (d : Fin 7) (f : ErrCount → ErrCount) : (s.modErr d f).xsdAddr = s.xsdAddr := rfl
@[simp] theorem State.modErr_xsdLen (s : State) (d : Fin 7) (f : ErrCount → ErrCount) : (s.modErr d f).xsdLen = s.xsdLen := rfl
@[simp] theorem State.modErr_shoots (s : State) (d : Fin 7) (f : ErrCount → ErrCount) : (s.modErr d f).shoots = s.shoots := rfl
@[simp] theorem State.modErr_shootBusy (s : State) (d : Fin 7) (f : ErrCount → ErrCount) : (s.modErr d f).shootBusy = s.shootBusy := rfl
@[simp] theorem State.modErr_shootOvfl (s : State) (d : Fin 7) (f : ErrCount → ErrCount) : (s.modErr d f).shootOvfl = s.shootOvfl := rfl
@[simp] theorem State.modErr_shootErr (s : State) (d : Fin 7) (f : ErrCount → ErrCount) : (s.modErr d f).shootErr = s.shootErr := rfl
@[simp] theorem State.modErr_shootDone (s : State) (d : Fin 7) (f : ErrCount → ErrCount) : (s.modErr d f).shootDone = s.shootDone := rfl
@[simp] theorem State.modErr_impBase (s : State) (d : Fin 7) (f : ErrCount → ErrCount) : (s.modErr d f).impBase = s.impBase := rfl
@[simp] theorem State.modErr_queues (s : State) (d : Fin 7) (f : ErrCount → ErrCount) : (s.modErr d f).queues = s.queues := rfl
@[simp] theorem State.modErr_drainMax (s : State) (d : Fin 7) (f : ErrCount → ErrCount) : (s.modErr d f).drainMax = s.drainMax := rfl
@[simp] theorem State.modErr_killMax (s : State) (d : Fin 7) (f : ErrCount → ErrCount) : (s.modErr d f).killMax = s.killMax := rfl
@[simp] theorem State.modErr_pcMax (s : State) (d : Fin 7) (f : ErrCount → ErrCount) : (s.modErr d f).pcMax = s.pcMax := rfl
@[simp] theorem State.modErr_rclass (s : State) (d : Fin 7) (f : ErrCount → ErrCount) : (s.modErr d f).rclass = s.rclass := rfl
@[simp] theorem State.modErr_errata (s : State) (d : Fin 7) (f : ErrCount → ErrCount) : (s.modErr d f).errata = s.errata := rfl
@[simp] theorem State.modErr_coreq (s : State) (d : Fin 7) (f : ErrCount → ErrCount) : (s.modErr d f).coreq = s.coreq := rfl
@[simp] theorem State.modErr_cache (s : State) (d : Fin 7) (f : ErrCount → ErrCount) : (s.modErr d f).cache = s.cache := rfl
@[simp] theorem State.modErr_saves (s : State) (d : Fin 7) (f : ErrCount → ErrCount) : (s.modErr d f).saves = s.saves := rfl
@[simp] theorem State.modErr_msix (s : State) (d : Fin 7) (f : ErrCount → ErrCount) : (s.modErr d f).msix = s.msix := rfl
@[simp] theorem State.modErr_enmap (s : State) (d : Fin 7) (f : ErrCount → ErrCount) : (s.modErr d f).enmap = s.enmap := rfl
@[simp] theorem State.modErr_retire (s : State) (d : Fin 7) (f : ErrCount → ErrCount) : (s.modErr d f).retire = s.retire := rfl
@[simp] theorem State.modErr_dead (s : State) (d : Fin 7) (f : ErrCount → ErrCount) : (s.modErr d f).dead = s.dead := rfl
@[simp] theorem State.modErr_per (s : State) (d : Fin 7) (f : ErrCount → ErrCount) : (s.modErr d f).per = s.per := rfl
@[simp] theorem State.modErr_perNext (s : State) (d : Fin 7) (f : ErrCount → ErrCount) : (s.modErr d f).perNext = s.perNext := rfl
@[simp] theorem State.modErr_windows (s : State) (d : Fin 7) (f : ErrCount → ErrCount) : (s.modErr d f).windows = s.windows := rfl
@[simp] theorem State.modErr_lastUe (s : State) (d : Fin 7) (f : ErrCount → ErrCount) : (s.modErr d f).lastUe = s.lastUe := rfl
@[simp] theorem State.modErr_ueSeen (s : State) (d : Fin 7) (f : ErrCount → ErrCount) : (s.modErr d f).ueSeen = s.ueSeen := rfl
@[simp] theorem State.modErr_hsnap (s : State) (d : Fin 7) (f : ErrCount → ErrCount) : (s.modErr d f).hsnap = s.hsnap := rfl
@[simp] theorem State.modErr_gen (s : State) (d : Fin 7) (f : ErrCount → ErrCount) : (s.modErr d f).gen = s.gen := rfl
@[simp] theorem State.modErr_snapped (s : State) (d : Fin 7) (f : ErrCount → ErrCount) : (s.modErr d f).snapped = s.snapped := rfl
@[simp] theorem State.modErr_links (s : State) (d : Fin 7) (f : ErrCount → ErrCount) : (s.modErr d f).links = s.links := rfl
@[simp] theorem State.modErr_firm (s : State) (d : Fin 7) (f : ErrCount → ErrCount) : (s.modErr d f).firm = s.firm := rfl
@[simp] theorem State.modErr_power (s : State) (d : Fin 7) (f : ErrCount → ErrCount) : (s.modErr d f).power = s.power := rfl
@[simp] theorem State.modErr_partitions (s : State) (d : Fin 7) (f : ErrCount → ErrCount) : (s.modErr d f).partitions = s.partitions := rfl
@[simp] theorem State.modErr_borders (s : State) (d : Fin 7) (f : ErrCount → ErrCount) : (s.modErr d f).borders = s.borders := rfl
@[simp] theorem State.modErr_reads (s : State) (d : Fin 7) (f : ErrCount → ErrCount) : (s.modErr d f).reads = s.reads := rfl
@[simp] theorem State.modErr_ide (s : State) (d : Fin 7) (f : ErrCount → ErrCount) : (s.modErr d f).ide = s.ide := rfl
@[simp] theorem State.modErr_snapAt (s : State) (d : Fin 7) (f : ErrCount → ErrCount) : (s.modErr d f).snapAt = s.snapAt := rfl
@[simp] theorem State.modErr_hdmHeld (s : State) (d : Fin 7) (f : ErrCount → ErrCount) : (s.modErr d f).hdmHeld = s.hdmHeld := rfl
@[simp] theorem State.modErr_shootMark (s : State) (d : Fin 7) (f : ErrCount → ErrCount) : (s.modErr d f).shootMark = s.shootMark := rfl
@[simp] theorem State.modErr_written (s : State) (d : Fin 7) (f : ErrCount → ErrCount) : (s.modErr d f).written = s.written := rfl

@[simp] theorem State.setHart_cycle (s : State) (a : AgentId) (h : Hart) : (s.setHart a h).cycle = s.cycle := by cases a <;> rfl
@[simp] theorem State.modHart_cycle (s : State) (a : AgentId) (g : Hart → Hart) : (s.modHart a g).cycle = s.cycle := by cases a <;> rfl
@[simp] theorem State.setHart_agenda (s : State) (a : AgentId) (h : Hart) : (s.setHart a h).agenda = s.agenda := by cases a <;> rfl
@[simp] theorem State.modHart_agenda (s : State) (a : AgentId) (g : Hart → Hart) : (s.modHart a g).agenda = s.agenda := by cases a <;> rfl
@[simp] theorem State.setHart_cur (s : State) (a : AgentId) (h : Hart) : (s.setHart a h).cur = s.cur := by cases a <;> rfl
@[simp] theorem State.modHart_cur (s : State) (a : AgentId) (g : Hart → Hart) : (s.modHart a g).cur = s.cur := by cases a <;> rfl
@[simp] theorem State.setHart_fresh (s : State) (a : AgentId) (h : Hart) : (s.setHart a h).fresh = s.fresh := by cases a <;> rfl
@[simp] theorem State.modHart_fresh (s : State) (a : AgentId) (g : Hart → Hart) : (s.modHart a g).fresh = s.fresh := by cases a <;> rfl
@[simp] theorem State.setHart_regions (s : State) (a : AgentId) (h : Hart) : (s.setHart a h).regions = s.regions := by cases a <;> rfl
@[simp] theorem State.modHart_regions (s : State) (a : AgentId) (g : Hart → Hart) : (s.modHart a g).regions = s.regions := by cases a <;> rfl
@[simp] theorem State.setHart_bulk (s : State) (a : AgentId) (h : Hart) : (s.setHart a h).bulk = s.bulk := by cases a <;> rfl
@[simp] theorem State.modHart_bulk (s : State) (a : AgentId) (g : Hart → Hart) : (s.modHart a g).bulk = s.bulk := by cases a <;> rfl
@[simp] theorem State.setHart_seam (s : State) (a : AgentId) (h : Hart) : (s.setHart a h).seam = s.seam := by cases a <;> rfl
@[simp] theorem State.modHart_seam (s : State) (a : AgentId) (g : Hart → Hart) : (s.modHart a g).seam = s.seam := by cases a <;> rfl
@[simp] theorem State.setHart_host (s : State) (a : AgentId) (h : Hart) : (s.setHart a h).host = s.host := by cases a <;> rfl
@[simp] theorem State.modHart_host (s : State) (a : AgentId) (g : Hart → Hart) : (s.modHart a g).host = s.host := by cases a <;> rfl
@[simp] theorem State.setHart_peer (s : State) (a : AgentId) (h : Hart) : (s.setHart a h).peer = s.peer := by cases a <;> rfl
@[simp] theorem State.modHart_peer (s : State) (a : AgentId) (g : Hart → Hart) : (s.modHart a g).peer = s.peer := by cases a <;> rfl
@[simp] theorem State.setHart_lode (s : State) (a : AgentId) (h : Hart) : (s.setHart a h).lode = s.lode := by cases a <;> rfl
@[simp] theorem State.modHart_lode (s : State) (a : AgentId) (g : Hart → Hart) : (s.modHart a g).lode = s.lode := by cases a <;> rfl
@[simp] theorem State.setHart_feBulk (s : State) (a : AgentId) (h : Hart) : (s.setHart a h).feBulk = s.feBulk := by cases a <;> rfl
@[simp] theorem State.modHart_feBulk (s : State) (a : AgentId) (g : Hart → Hart) : (s.modHart a g).feBulk = s.feBulk := by cases a <;> rfl
@[simp] theorem State.setHart_feHost (s : State) (a : AgentId) (h : Hart) : (s.setHart a h).feHost = s.feHost := by cases a <;> rfl
@[simp] theorem State.modHart_feHost (s : State) (a : AgentId) (g : Hart → Hart) : (s.modHart a g).feHost = s.feHost := by cases a <;> rfl
@[simp] theorem State.setHart_ldfWait (s : State) (a : AgentId) (h : Hart) : (s.setHart a h).ldfWait = s.ldfWait := by cases a <;> rfl
@[simp] theorem State.setHart_feSave (s : State) (a : AgentId) (h : Hart) : (s.setHart a h).feSave = s.feSave := by cases a <;> rfl
@[simp] theorem State.setHart_served (s : State) (a : AgentId) (h : Hart) : (s.setHart a h).served = s.served := by cases a <;> rfl
@[simp] theorem State.setHart_shootFrames (s : State) (a : AgentId) (h : Hart) : (s.setHart a h).shootFrames = s.shootFrames := by cases a <;> rfl
@[simp] theorem State.modHart_ldfWait (s : State) (a : AgentId) (g : Hart → Hart) : (s.modHart a g).ldfWait = s.ldfWait := by cases a <;> rfl
@[simp] theorem State.modHart_feSave (s : State) (a : AgentId) (g : Hart → Hart) : (s.modHart a g).feSave = s.feSave := by cases a <;> rfl
@[simp] theorem State.modHart_served (s : State) (a : AgentId) (g : Hart → Hart) : (s.modHart a g).served = s.served := by cases a <;> rfl
@[simp] theorem State.modHart_shootFrames (s : State) (a : AgentId) (g : Hart → Hart) : (s.modHart a g).shootFrames = s.shootFrames := by cases a <;> rfl
@[simp] theorem State.setHart_bad (s : State) (a : AgentId) (h : Hart) : (s.setHart a h).bad = s.bad := by cases a <;> rfl
@[simp] theorem State.modHart_bad (s : State) (a : AgentId) (g : Hart → Hart) : (s.modHart a g).bad = s.bad := by cases a <;> rfl
@[simp] theorem State.setHart_pins (s : State) (a : AgentId) (h : Hart) : (s.setHart a h).pins = s.pins := by cases a <;> rfl
@[simp] theorem State.modHart_pins (s : State) (a : AgentId) (g : Hart → Hart) : (s.modHart a g).pins = s.pins := by cases a <;> rfl
@[simp] theorem State.setHart_freeing (s : State) (a : AgentId) (h : Hart) : (s.setHart a h).freeing = s.freeing := by cases a <;> rfl
@[simp] theorem State.modHart_freeing (s : State) (a : AgentId) (g : Hart → Hart) : (s.modHart a g).freeing = s.freeing := by cases a <;> rfl
@[simp] theorem State.setHart_xlats (s : State) (a : AgentId) (h : Hart) : (s.setHart a h).xlats = s.xlats := by cases a <;> rfl
@[simp] theorem State.modHart_xlats (s : State) (a : AgentId) (g : Hart → Hart) : (s.modHart a g).xlats = s.xlats := by cases a <;> rfl
@[simp] theorem State.setHart_xsdAddr (s : State) (a : AgentId) (h : Hart) : (s.setHart a h).xsdAddr = s.xsdAddr := by cases a <;> rfl
@[simp] theorem State.modHart_xsdAddr (s : State) (a : AgentId) (g : Hart → Hart) : (s.modHart a g).xsdAddr = s.xsdAddr := by cases a <;> rfl
@[simp] theorem State.setHart_xsdLen (s : State) (a : AgentId) (h : Hart) : (s.setHart a h).xsdLen = s.xsdLen := by cases a <;> rfl
@[simp] theorem State.modHart_xsdLen (s : State) (a : AgentId) (g : Hart → Hart) : (s.modHart a g).xsdLen = s.xsdLen := by cases a <;> rfl
@[simp] theorem State.setHart_shoots (s : State) (a : AgentId) (h : Hart) : (s.setHart a h).shoots = s.shoots := by cases a <;> rfl
@[simp] theorem State.modHart_shoots (s : State) (a : AgentId) (g : Hart → Hart) : (s.modHart a g).shoots = s.shoots := by cases a <;> rfl
@[simp] theorem State.setHart_shootBusy (s : State) (a : AgentId) (h : Hart) : (s.setHart a h).shootBusy = s.shootBusy := by cases a <;> rfl
@[simp] theorem State.modHart_shootBusy (s : State) (a : AgentId) (g : Hart → Hart) : (s.modHart a g).shootBusy = s.shootBusy := by cases a <;> rfl
@[simp] theorem State.setHart_shootOvfl (s : State) (a : AgentId) (h : Hart) : (s.setHart a h).shootOvfl = s.shootOvfl := by cases a <;> rfl
@[simp] theorem State.modHart_shootOvfl (s : State) (a : AgentId) (g : Hart → Hart) : (s.modHart a g).shootOvfl = s.shootOvfl := by cases a <;> rfl
@[simp] theorem State.setHart_shootErr (s : State) (a : AgentId) (h : Hart) : (s.setHart a h).shootErr = s.shootErr := by cases a <;> rfl
@[simp] theorem State.modHart_shootErr (s : State) (a : AgentId) (g : Hart → Hart) : (s.modHart a g).shootErr = s.shootErr := by cases a <;> rfl
@[simp] theorem State.setHart_shootDone (s : State) (a : AgentId) (h : Hart) : (s.setHart a h).shootDone = s.shootDone := by cases a <;> rfl
@[simp] theorem State.modHart_shootDone (s : State) (a : AgentId) (g : Hart → Hart) : (s.modHart a g).shootDone = s.shootDone := by cases a <;> rfl
@[simp] theorem State.setHart_impBase (s : State) (a : AgentId) (h : Hart) : (s.setHart a h).impBase = s.impBase := by cases a <;> rfl
@[simp] theorem State.modHart_impBase (s : State) (a : AgentId) (g : Hart → Hart) : (s.modHart a g).impBase = s.impBase := by cases a <;> rfl
@[simp] theorem State.setHart_queues (s : State) (a : AgentId) (h : Hart) : (s.setHart a h).queues = s.queues := by cases a <;> rfl
@[simp] theorem State.modHart_queues (s : State) (a : AgentId) (g : Hart → Hart) : (s.modHart a g).queues = s.queues := by cases a <;> rfl
@[simp] theorem State.setHart_drainMax (s : State) (a : AgentId) (h : Hart) : (s.setHart a h).drainMax = s.drainMax := by cases a <;> rfl
@[simp] theorem State.modHart_drainMax (s : State) (a : AgentId) (g : Hart → Hart) : (s.modHart a g).drainMax = s.drainMax := by cases a <;> rfl
@[simp] theorem State.setHart_killMax (s : State) (a : AgentId) (h : Hart) : (s.setHart a h).killMax = s.killMax := by cases a <;> rfl
@[simp] theorem State.modHart_killMax (s : State) (a : AgentId) (g : Hart → Hart) : (s.modHart a g).killMax = s.killMax := by cases a <;> rfl
@[simp] theorem State.setHart_pcMax (s : State) (a : AgentId) (h : Hart) : (s.setHart a h).pcMax = s.pcMax := by cases a <;> rfl
@[simp] theorem State.modHart_pcMax (s : State) (a : AgentId) (g : Hart → Hart) : (s.modHart a g).pcMax = s.pcMax := by cases a <;> rfl
@[simp] theorem State.setHart_rclass (s : State) (a : AgentId) (h : Hart) : (s.setHart a h).rclass = s.rclass := by cases a <;> rfl
@[simp] theorem State.modHart_rclass (s : State) (a : AgentId) (g : Hart → Hart) : (s.modHart a g).rclass = s.rclass := by cases a <;> rfl
@[simp] theorem State.setHart_errata (s : State) (a : AgentId) (h : Hart) : (s.setHart a h).errata = s.errata := by cases a <;> rfl
@[simp] theorem State.modHart_errata (s : State) (a : AgentId) (g : Hart → Hart) : (s.modHart a g).errata = s.errata := by cases a <;> rfl
@[simp] theorem State.setHart_coreq (s : State) (a : AgentId) (h : Hart) : (s.setHart a h).coreq = s.coreq := by cases a <;> rfl
@[simp] theorem State.modHart_coreq (s : State) (a : AgentId) (g : Hart → Hart) : (s.modHart a g).coreq = s.coreq := by cases a <;> rfl
@[simp] theorem State.setHart_cache (s : State) (a : AgentId) (h : Hart) : (s.setHart a h).cache = s.cache := by cases a <;> rfl
@[simp] theorem State.modHart_cache (s : State) (a : AgentId) (g : Hart → Hart) : (s.modHart a g).cache = s.cache := by cases a <;> rfl
@[simp] theorem State.setHart_saves (s : State) (a : AgentId) (h : Hart) : (s.setHart a h).saves = s.saves := by cases a <;> rfl
@[simp] theorem State.modHart_saves (s : State) (a : AgentId) (g : Hart → Hart) : (s.modHart a g).saves = s.saves := by cases a <;> rfl
@[simp] theorem State.setHart_msix (s : State) (a : AgentId) (h : Hart) : (s.setHart a h).msix = s.msix := by cases a <;> rfl
@[simp] theorem State.modHart_msix (s : State) (a : AgentId) (g : Hart → Hart) : (s.modHart a g).msix = s.msix := by cases a <;> rfl
@[simp] theorem State.setHart_enmap (s : State) (a : AgentId) (h : Hart) : (s.setHart a h).enmap = s.enmap := by cases a <;> rfl
@[simp] theorem State.modHart_enmap (s : State) (a : AgentId) (g : Hart → Hart) : (s.modHart a g).enmap = s.enmap := by cases a <;> rfl
@[simp] theorem State.setHart_retire (s : State) (a : AgentId) (h : Hart) : (s.setHart a h).retire = s.retire := by cases a <;> rfl
@[simp] theorem State.modHart_retire (s : State) (a : AgentId) (g : Hart → Hart) : (s.modHart a g).retire = s.retire := by cases a <;> rfl
@[simp] theorem State.setHart_dead (s : State) (a : AgentId) (h : Hart) : (s.setHart a h).dead = s.dead := by cases a <;> rfl
@[simp] theorem State.modHart_dead (s : State) (a : AgentId) (g : Hart → Hart) : (s.modHart a g).dead = s.dead := by cases a <;> rfl
@[simp] theorem State.setHart_per (s : State) (a : AgentId) (h : Hart) : (s.setHart a h).per = s.per := by cases a <;> rfl
@[simp] theorem State.modHart_per (s : State) (a : AgentId) (g : Hart → Hart) : (s.modHart a g).per = s.per := by cases a <;> rfl
@[simp] theorem State.setHart_perNext (s : State) (a : AgentId) (h : Hart) : (s.setHart a h).perNext = s.perNext := by cases a <;> rfl
@[simp] theorem State.modHart_perNext (s : State) (a : AgentId) (g : Hart → Hart) : (s.modHart a g).perNext = s.perNext := by cases a <;> rfl
@[simp] theorem State.setHart_windows (s : State) (a : AgentId) (h : Hart) : (s.setHart a h).windows = s.windows := by cases a <;> rfl
@[simp] theorem State.modHart_windows (s : State) (a : AgentId) (g : Hart → Hart) : (s.modHart a g).windows = s.windows := by cases a <;> rfl
@[simp] theorem State.setHart_errs (s : State) (a : AgentId) (h : Hart) : (s.setHart a h).errs = s.errs := by cases a <;> rfl
@[simp] theorem State.modHart_errs (s : State) (a : AgentId) (g : Hart → Hart) : (s.modHart a g).errs = s.errs := by cases a <;> rfl
@[simp] theorem State.setHart_lastUe (s : State) (a : AgentId) (h : Hart) : (s.setHart a h).lastUe = s.lastUe := by cases a <;> rfl
@[simp] theorem State.modHart_lastUe (s : State) (a : AgentId) (g : Hart → Hart) : (s.modHart a g).lastUe = s.lastUe := by cases a <;> rfl
@[simp] theorem State.setHart_ueSeen (s : State) (a : AgentId) (h : Hart) : (s.setHart a h).ueSeen = s.ueSeen := by cases a <;> rfl
@[simp] theorem State.modHart_ueSeen (s : State) (a : AgentId) (g : Hart → Hart) : (s.modHart a g).ueSeen = s.ueSeen := by cases a <;> rfl
@[simp] theorem State.setHart_hsnap (s : State) (a : AgentId) (h : Hart) : (s.setHart a h).hsnap = s.hsnap := by cases a <;> rfl
@[simp] theorem State.modHart_hsnap (s : State) (a : AgentId) (g : Hart → Hart) : (s.modHart a g).hsnap = s.hsnap := by cases a <;> rfl
@[simp] theorem State.setHart_gen (s : State) (a : AgentId) (h : Hart) : (s.setHart a h).gen = s.gen := by cases a <;> rfl
@[simp] theorem State.modHart_gen (s : State) (a : AgentId) (g : Hart → Hart) : (s.modHart a g).gen = s.gen := by cases a <;> rfl
@[simp] theorem State.setHart_snapped (s : State) (a : AgentId) (h : Hart) : (s.setHart a h).snapped = s.snapped := by cases a <;> rfl
@[simp] theorem State.modHart_snapped (s : State) (a : AgentId) (g : Hart → Hart) : (s.modHart a g).snapped = s.snapped := by cases a <;> rfl
@[simp] theorem State.setHart_links (s : State) (a : AgentId) (h : Hart) : (s.setHart a h).links = s.links := by cases a <;> rfl
@[simp] theorem State.modHart_links (s : State) (a : AgentId) (g : Hart → Hart) : (s.modHart a g).links = s.links := by cases a <;> rfl
@[simp] theorem State.setHart_firm (s : State) (a : AgentId) (h : Hart) : (s.setHart a h).firm = s.firm := by cases a <;> rfl
@[simp] theorem State.modHart_firm (s : State) (a : AgentId) (g : Hart → Hart) : (s.modHart a g).firm = s.firm := by cases a <;> rfl
@[simp] theorem State.setHart_power (s : State) (a : AgentId) (h : Hart) : (s.setHart a h).power = s.power := by cases a <;> rfl
@[simp] theorem State.modHart_power (s : State) (a : AgentId) (g : Hart → Hart) : (s.modHart a g).power = s.power := by cases a <;> rfl
@[simp] theorem State.setHart_partitions (s : State) (a : AgentId) (h : Hart) : (s.setHart a h).partitions = s.partitions := by cases a <;> rfl
@[simp] theorem State.modHart_partitions (s : State) (a : AgentId) (g : Hart → Hart) : (s.modHart a g).partitions = s.partitions := by cases a <;> rfl
@[simp] theorem State.setHart_borders (s : State) (a : AgentId) (h : Hart) : (s.setHart a h).borders = s.borders := by cases a <;> rfl
@[simp] theorem State.modHart_borders (s : State) (a : AgentId) (g : Hart → Hart) : (s.modHart a g).borders = s.borders := by cases a <;> rfl
@[simp] theorem State.setHart_reads (s : State) (a : AgentId) (h : Hart) : (s.setHart a h).reads = s.reads := by cases a <;> rfl
@[simp] theorem State.setHart_ide (s : State) (a : AgentId) (h : Hart) : (s.setHart a h).ide = s.ide := by cases a <;> rfl
@[simp] theorem State.setHart_snapAt (s : State) (a : AgentId) (h : Hart) : (s.setHart a h).snapAt = s.snapAt := by cases a <;> rfl
@[simp] theorem State.setHart_hdmHeld (s : State) (a : AgentId) (h : Hart) : (s.setHart a h).hdmHeld = s.hdmHeld := by cases a <;> rfl
@[simp] theorem State.setHart_shootMark (s : State) (a : AgentId) (h : Hart) : (s.setHart a h).shootMark = s.shootMark := by cases a <;> rfl
@[simp] theorem State.setHart_written (s : State) (a : AgentId) (h : Hart) : (s.setHart a h).written = s.written := by cases a <;> rfl
@[simp] theorem State.modHart_reads (s : State) (a : AgentId) (g : Hart → Hart) : (s.modHart a g).reads = s.reads := by cases a <;> rfl
@[simp] theorem State.modHart_ide (s : State) (a : AgentId) (g : Hart → Hart) : (s.modHart a g).ide = s.ide := by cases a <;> rfl
@[simp] theorem State.modHart_snapAt (s : State) (a : AgentId) (g : Hart → Hart) : (s.modHart a g).snapAt = s.snapAt := by cases a <;> rfl
@[simp] theorem State.modHart_hdmHeld (s : State) (a : AgentId) (g : Hart → Hart) : (s.modHart a g).hdmHeld = s.hdmHeld := by cases a <;> rfl
@[simp] theorem State.modHart_shootMark (s : State) (a : AgentId) (g : Hart → Hart) : (s.modHart a g).shootMark = s.shootMark := by cases a <;> rfl
@[simp] theorem State.modHart_written (s : State) (a : AgentId) (g : Hart → Hart) : (s.modHart a g).written = s.written := by cases a <;> rfl

@[simp] theorem State.modCell_cycle (s : State) (p : Nat) (g : Cell → Cell) : (s.modCell p g).cycle = s.cycle := rfl
@[simp] theorem State.modCell_agenda (s : State) (p : Nat) (g : Cell → Cell) : (s.modCell p g).agenda = s.agenda := rfl
@[simp] theorem State.modCell_cur (s : State) (p : Nat) (g : Cell → Cell) : (s.modCell p g).cur = s.cur := rfl
@[simp] theorem State.modCell_fresh (s : State) (p : Nat) (g : Cell → Cell) : (s.modCell p g).fresh = s.fresh := rfl
@[simp] theorem State.modCell_conds (s : State) (p : Nat) (g : Cell → Cell) : (s.modCell p g).conds = s.conds := rfl
@[simp] theorem State.modCell_regions (s : State) (p : Nat) (g : Cell → Cell) : (s.modCell p g).regions = s.regions := rfl
@[simp] theorem State.modCell_bulk (s : State) (p : Nat) (g : Cell → Cell) : (s.modCell p g).bulk = s.bulk := rfl
@[simp] theorem State.modCell_seam (s : State) (p : Nat) (g : Cell → Cell) : (s.modCell p g).seam = s.seam := rfl
@[simp] theorem State.modCell_host (s : State) (p : Nat) (g : Cell → Cell) : (s.modCell p g).host = s.host := rfl
@[simp] theorem State.modCell_peer (s : State) (p : Nat) (g : Cell → Cell) : (s.modCell p g).peer = s.peer := rfl
@[simp] theorem State.modCell_lode (s : State) (p : Nat) (g : Cell → Cell) : (s.modCell p g).lode = s.lode := rfl
@[simp] theorem State.modCell_feBulk (s : State) (p : Nat) (g : Cell → Cell) : (s.modCell p g).feBulk = s.feBulk := rfl
@[simp] theorem State.modCell_feHost (s : State) (p : Nat) (g : Cell → Cell) : (s.modCell p g).feHost = s.feHost := rfl
@[simp] theorem State.modCell_ldfWait (s : State) (p : Nat) (g : Cell → Cell) : (s.modCell p g).ldfWait = s.ldfWait := rfl
@[simp] theorem State.modCell_feSave (s : State) (p : Nat) (g : Cell → Cell) : (s.modCell p g).feSave = s.feSave := rfl
@[simp] theorem State.modCell_served (s : State) (p : Nat) (g : Cell → Cell) : (s.modCell p g).served = s.served := rfl
@[simp] theorem State.modCell_shootFrames (s : State) (p : Nat) (g : Cell → Cell) : (s.modCell p g).shootFrames = s.shootFrames := rfl
@[simp] theorem State.modCell_bad (s : State) (p : Nat) (g : Cell → Cell) : (s.modCell p g).bad = s.bad := rfl
@[simp] theorem State.modCell_pins (s : State) (p : Nat) (g : Cell → Cell) : (s.modCell p g).pins = s.pins := rfl
@[simp] theorem State.modCell_freeing (s : State) (p : Nat) (g : Cell → Cell) : (s.modCell p g).freeing = s.freeing := rfl
@[simp] theorem State.modCell_xlats (s : State) (p : Nat) (g : Cell → Cell) : (s.modCell p g).xlats = s.xlats := rfl
@[simp] theorem State.modCell_xsdAddr (s : State) (p : Nat) (g : Cell → Cell) : (s.modCell p g).xsdAddr = s.xsdAddr := rfl
@[simp] theorem State.modCell_xsdLen (s : State) (p : Nat) (g : Cell → Cell) : (s.modCell p g).xsdLen = s.xsdLen := rfl
@[simp] theorem State.modCell_shoots (s : State) (p : Nat) (g : Cell → Cell) : (s.modCell p g).shoots = s.shoots := rfl
@[simp] theorem State.modCell_shootBusy (s : State) (p : Nat) (g : Cell → Cell) : (s.modCell p g).shootBusy = s.shootBusy := rfl
@[simp] theorem State.modCell_shootOvfl (s : State) (p : Nat) (g : Cell → Cell) : (s.modCell p g).shootOvfl = s.shootOvfl := rfl
@[simp] theorem State.modCell_shootErr (s : State) (p : Nat) (g : Cell → Cell) : (s.modCell p g).shootErr = s.shootErr := rfl
@[simp] theorem State.modCell_shootDone (s : State) (p : Nat) (g : Cell → Cell) : (s.modCell p g).shootDone = s.shootDone := rfl
@[simp] theorem State.modCell_impBase (s : State) (p : Nat) (g : Cell → Cell) : (s.modCell p g).impBase = s.impBase := rfl
@[simp] theorem State.modCell_queues (s : State) (p : Nat) (g : Cell → Cell) : (s.modCell p g).queues = s.queues := rfl
@[simp] theorem State.modCell_drainMax (s : State) (p : Nat) (g : Cell → Cell) : (s.modCell p g).drainMax = s.drainMax := rfl
@[simp] theorem State.modCell_killMax (s : State) (p : Nat) (g : Cell → Cell) : (s.modCell p g).killMax = s.killMax := rfl
@[simp] theorem State.modCell_pcMax (s : State) (p : Nat) (g : Cell → Cell) : (s.modCell p g).pcMax = s.pcMax := rfl
@[simp] theorem State.modCell_rclass (s : State) (p : Nat) (g : Cell → Cell) : (s.modCell p g).rclass = s.rclass := rfl
@[simp] theorem State.modCell_errata (s : State) (p : Nat) (g : Cell → Cell) : (s.modCell p g).errata = s.errata := rfl
@[simp] theorem State.modCell_coreq (s : State) (p : Nat) (g : Cell → Cell) : (s.modCell p g).coreq = s.coreq := rfl
@[simp] theorem State.modCell_cache (s : State) (p : Nat) (g : Cell → Cell) : (s.modCell p g).cache = s.cache := rfl
@[simp] theorem State.modCell_saves (s : State) (p : Nat) (g : Cell → Cell) : (s.modCell p g).saves = s.saves := rfl
@[simp] theorem State.modCell_msix (s : State) (p : Nat) (g : Cell → Cell) : (s.modCell p g).msix = s.msix := rfl
@[simp] theorem State.modCell_enmap (s : State) (p : Nat) (g : Cell → Cell) : (s.modCell p g).enmap = s.enmap := rfl
@[simp] theorem State.modCell_retire (s : State) (p : Nat) (g : Cell → Cell) : (s.modCell p g).retire = s.retire := rfl
@[simp] theorem State.modCell_dead (s : State) (p : Nat) (g : Cell → Cell) : (s.modCell p g).dead = s.dead := rfl
@[simp] theorem State.modCell_per (s : State) (p : Nat) (g : Cell → Cell) : (s.modCell p g).per = s.per := rfl
@[simp] theorem State.modCell_perNext (s : State) (p : Nat) (g : Cell → Cell) : (s.modCell p g).perNext = s.perNext := rfl
@[simp] theorem State.modCell_windows (s : State) (p : Nat) (g : Cell → Cell) : (s.modCell p g).windows = s.windows := rfl
@[simp] theorem State.modCell_errs (s : State) (p : Nat) (g : Cell → Cell) : (s.modCell p g).errs = s.errs := rfl
@[simp] theorem State.modCell_lastUe (s : State) (p : Nat) (g : Cell → Cell) : (s.modCell p g).lastUe = s.lastUe := rfl
@[simp] theorem State.modCell_ueSeen (s : State) (p : Nat) (g : Cell → Cell) : (s.modCell p g).ueSeen = s.ueSeen := rfl
@[simp] theorem State.modCell_hsnap (s : State) (p : Nat) (g : Cell → Cell) : (s.modCell p g).hsnap = s.hsnap := rfl
@[simp] theorem State.modCell_gen (s : State) (p : Nat) (g : Cell → Cell) : (s.modCell p g).gen = s.gen := rfl
@[simp] theorem State.modCell_snapped (s : State) (p : Nat) (g : Cell → Cell) : (s.modCell p g).snapped = s.snapped := rfl
@[simp] theorem State.modCell_links (s : State) (p : Nat) (g : Cell → Cell) : (s.modCell p g).links = s.links := rfl
@[simp] theorem State.modCell_firm (s : State) (p : Nat) (g : Cell → Cell) : (s.modCell p g).firm = s.firm := rfl
@[simp] theorem State.modCell_power (s : State) (p : Nat) (g : Cell → Cell) : (s.modCell p g).power = s.power := rfl
@[simp] theorem State.modCell_partitions (s : State) (p : Nat) (g : Cell → Cell) : (s.modCell p g).partitions = s.partitions := rfl
@[simp] theorem State.modCell_borders (s : State) (p : Nat) (g : Cell → Cell) : (s.modCell p g).borders = s.borders := rfl
@[simp] theorem State.modCell_reads (s : State) (p : Nat) (g : Cell → Cell) : (s.modCell p g).reads = s.reads := rfl
@[simp] theorem State.modCell_ide (s : State) (p : Nat) (g : Cell → Cell) : (s.modCell p g).ide = s.ide := rfl
@[simp] theorem State.modCell_snapAt (s : State) (p : Nat) (g : Cell → Cell) : (s.modCell p g).snapAt = s.snapAt := rfl
@[simp] theorem State.modCell_hdmHeld (s : State) (p : Nat) (g : Cell → Cell) : (s.modCell p g).hdmHeld = s.hdmHeld := rfl
@[simp] theorem State.modCell_shootMark (s : State) (p : Nat) (g : Cell → Cell) : (s.modCell p g).shootMark = s.shootMark := rfl
@[simp] theorem State.modCell_written (s : State) (p : Nat) (g : Cell → Cell) : (s.modCell p g).written = s.written := rfl
@[simp] theorem State.modCond_cycle (s : State) (k : Nat) (g : Cond → Cond) : (s.modCond k g).cycle = s.cycle := rfl
@[simp] theorem State.modCond_agenda (s : State) (k : Nat) (g : Cond → Cond) : (s.modCond k g).agenda = s.agenda := rfl
@[simp] theorem State.modCond_cur (s : State) (k : Nat) (g : Cond → Cond) : (s.modCond k g).cur = s.cur := rfl
@[simp] theorem State.modCond_fresh (s : State) (k : Nat) (g : Cond → Cond) : (s.modCond k g).fresh = s.fresh := rfl
@[simp] theorem State.modCond_cells (s : State) (k : Nat) (g : Cond → Cond) : (s.modCond k g).cells = s.cells := rfl
@[simp] theorem State.modCond_regions (s : State) (k : Nat) (g : Cond → Cond) : (s.modCond k g).regions = s.regions := rfl
@[simp] theorem State.modCond_bulk (s : State) (k : Nat) (g : Cond → Cond) : (s.modCond k g).bulk = s.bulk := rfl
@[simp] theorem State.modCond_seam (s : State) (k : Nat) (g : Cond → Cond) : (s.modCond k g).seam = s.seam := rfl
@[simp] theorem State.modCond_host (s : State) (k : Nat) (g : Cond → Cond) : (s.modCond k g).host = s.host := rfl
@[simp] theorem State.modCond_peer (s : State) (k : Nat) (g : Cond → Cond) : (s.modCond k g).peer = s.peer := rfl
@[simp] theorem State.modCond_lode (s : State) (k : Nat) (g : Cond → Cond) : (s.modCond k g).lode = s.lode := rfl
@[simp] theorem State.modCond_feBulk (s : State) (k : Nat) (g : Cond → Cond) : (s.modCond k g).feBulk = s.feBulk := rfl
@[simp] theorem State.modCond_feHost (s : State) (k : Nat) (g : Cond → Cond) : (s.modCond k g).feHost = s.feHost := rfl
@[simp] theorem State.modCond_ldfWait (s : State) (k : Nat) (g : Cond → Cond) : (s.modCond k g).ldfWait = s.ldfWait := rfl
@[simp] theorem State.modCond_feSave (s : State) (k : Nat) (g : Cond → Cond) : (s.modCond k g).feSave = s.feSave := rfl
@[simp] theorem State.modCond_served (s : State) (k : Nat) (g : Cond → Cond) : (s.modCond k g).served = s.served := rfl
@[simp] theorem State.modCond_shootFrames (s : State) (k : Nat) (g : Cond → Cond) : (s.modCond k g).shootFrames = s.shootFrames := rfl
@[simp] theorem State.modCond_bad (s : State) (k : Nat) (g : Cond → Cond) : (s.modCond k g).bad = s.bad := rfl
@[simp] theorem State.modCond_pins (s : State) (k : Nat) (g : Cond → Cond) : (s.modCond k g).pins = s.pins := rfl
@[simp] theorem State.modCond_freeing (s : State) (k : Nat) (g : Cond → Cond) : (s.modCond k g).freeing = s.freeing := rfl
@[simp] theorem State.modCond_xlats (s : State) (k : Nat) (g : Cond → Cond) : (s.modCond k g).xlats = s.xlats := rfl
@[simp] theorem State.modCond_xsdAddr (s : State) (k : Nat) (g : Cond → Cond) : (s.modCond k g).xsdAddr = s.xsdAddr := rfl
@[simp] theorem State.modCond_xsdLen (s : State) (k : Nat) (g : Cond → Cond) : (s.modCond k g).xsdLen = s.xsdLen := rfl
@[simp] theorem State.modCond_shoots (s : State) (k : Nat) (g : Cond → Cond) : (s.modCond k g).shoots = s.shoots := rfl
@[simp] theorem State.modCond_shootBusy (s : State) (k : Nat) (g : Cond → Cond) : (s.modCond k g).shootBusy = s.shootBusy := rfl
@[simp] theorem State.modCond_shootOvfl (s : State) (k : Nat) (g : Cond → Cond) : (s.modCond k g).shootOvfl = s.shootOvfl := rfl
@[simp] theorem State.modCond_shootErr (s : State) (k : Nat) (g : Cond → Cond) : (s.modCond k g).shootErr = s.shootErr := rfl
@[simp] theorem State.modCond_shootDone (s : State) (k : Nat) (g : Cond → Cond) : (s.modCond k g).shootDone = s.shootDone := rfl
@[simp] theorem State.modCond_impBase (s : State) (k : Nat) (g : Cond → Cond) : (s.modCond k g).impBase = s.impBase := rfl
@[simp] theorem State.modCond_queues (s : State) (k : Nat) (g : Cond → Cond) : (s.modCond k g).queues = s.queues := rfl
@[simp] theorem State.modCond_drainMax (s : State) (k : Nat) (g : Cond → Cond) : (s.modCond k g).drainMax = s.drainMax := rfl
@[simp] theorem State.modCond_killMax (s : State) (k : Nat) (g : Cond → Cond) : (s.modCond k g).killMax = s.killMax := rfl
@[simp] theorem State.modCond_pcMax (s : State) (k : Nat) (g : Cond → Cond) : (s.modCond k g).pcMax = s.pcMax := rfl
@[simp] theorem State.modCond_rclass (s : State) (k : Nat) (g : Cond → Cond) : (s.modCond k g).rclass = s.rclass := rfl
@[simp] theorem State.modCond_errata (s : State) (k : Nat) (g : Cond → Cond) : (s.modCond k g).errata = s.errata := rfl
@[simp] theorem State.modCond_coreq (s : State) (k : Nat) (g : Cond → Cond) : (s.modCond k g).coreq = s.coreq := rfl
@[simp] theorem State.modCond_cache (s : State) (k : Nat) (g : Cond → Cond) : (s.modCond k g).cache = s.cache := rfl
@[simp] theorem State.modCond_saves (s : State) (k : Nat) (g : Cond → Cond) : (s.modCond k g).saves = s.saves := rfl
@[simp] theorem State.modCond_msix (s : State) (k : Nat) (g : Cond → Cond) : (s.modCond k g).msix = s.msix := rfl
@[simp] theorem State.modCond_enmap (s : State) (k : Nat) (g : Cond → Cond) : (s.modCond k g).enmap = s.enmap := rfl
@[simp] theorem State.modCond_retire (s : State) (k : Nat) (g : Cond → Cond) : (s.modCond k g).retire = s.retire := rfl
@[simp] theorem State.modCond_dead (s : State) (k : Nat) (g : Cond → Cond) : (s.modCond k g).dead = s.dead := rfl
@[simp] theorem State.modCond_per (s : State) (k : Nat) (g : Cond → Cond) : (s.modCond k g).per = s.per := rfl
@[simp] theorem State.modCond_perNext (s : State) (k : Nat) (g : Cond → Cond) : (s.modCond k g).perNext = s.perNext := rfl
@[simp] theorem State.modCond_windows (s : State) (k : Nat) (g : Cond → Cond) : (s.modCond k g).windows = s.windows := rfl
@[simp] theorem State.modCond_errs (s : State) (k : Nat) (g : Cond → Cond) : (s.modCond k g).errs = s.errs := rfl
@[simp] theorem State.modCond_lastUe (s : State) (k : Nat) (g : Cond → Cond) : (s.modCond k g).lastUe = s.lastUe := rfl
@[simp] theorem State.modCond_ueSeen (s : State) (k : Nat) (g : Cond → Cond) : (s.modCond k g).ueSeen = s.ueSeen := rfl
@[simp] theorem State.modCond_hsnap (s : State) (k : Nat) (g : Cond → Cond) : (s.modCond k g).hsnap = s.hsnap := rfl
@[simp] theorem State.modCond_gen (s : State) (k : Nat) (g : Cond → Cond) : (s.modCond k g).gen = s.gen := rfl
@[simp] theorem State.modCond_snapped (s : State) (k : Nat) (g : Cond → Cond) : (s.modCond k g).snapped = s.snapped := rfl
@[simp] theorem State.modCond_links (s : State) (k : Nat) (g : Cond → Cond) : (s.modCond k g).links = s.links := rfl
@[simp] theorem State.modCond_firm (s : State) (k : Nat) (g : Cond → Cond) : (s.modCond k g).firm = s.firm := rfl
@[simp] theorem State.modCond_power (s : State) (k : Nat) (g : Cond → Cond) : (s.modCond k g).power = s.power := rfl
@[simp] theorem State.modCond_partitions (s : State) (k : Nat) (g : Cond → Cond) : (s.modCond k g).partitions = s.partitions := rfl
@[simp] theorem State.modCond_borders (s : State) (k : Nat) (g : Cond → Cond) : (s.modCond k g).borders = s.borders := rfl
@[simp] theorem State.modCond_reads (s : State) (k : Nat) (g : Cond → Cond) : (s.modCond k g).reads = s.reads := rfl
@[simp] theorem State.modCond_ide (s : State) (k : Nat) (g : Cond → Cond) : (s.modCond k g).ide = s.ide := rfl
@[simp] theorem State.modCond_snapAt (s : State) (k : Nat) (g : Cond → Cond) : (s.modCond k g).snapAt = s.snapAt := rfl
@[simp] theorem State.modCond_hdmHeld (s : State) (k : Nat) (g : Cond → Cond) : (s.modCond k g).hdmHeld = s.hdmHeld := rfl
@[simp] theorem State.modCond_shootMark (s : State) (k : Nat) (g : Cond → Cond) : (s.modCond k g).shootMark = s.shootMark := rfl
@[simp] theorem State.modCond_written (s : State) (k : Nat) (g : Cond → Cond) : (s.modCond k g).written = s.written := rfl

@[simp] theorem State.modRegion_cycle (s : State) (q : Nat) (g : Region → Region) : (s.modRegion q g).cycle = s.cycle := by unfold State.modRegion; split <;> rfl
@[simp] theorem State.modRegion_agenda (s : State) (q : Nat) (g : Region → Region) : (s.modRegion q g).agenda = s.agenda := by unfold State.modRegion; split <;> rfl
@[simp] theorem State.modRegion_cur (s : State) (q : Nat) (g : Region → Region) : (s.modRegion q g).cur = s.cur := by unfold State.modRegion; split <;> rfl
@[simp] theorem State.modRegion_fresh (s : State) (q : Nat) (g : Region → Region) : (s.modRegion q g).fresh = s.fresh := by unfold State.modRegion; split <;> rfl
@[simp] theorem State.modRegion_cells (s : State) (q : Nat) (g : Region → Region) : (s.modRegion q g).cells = s.cells := by unfold State.modRegion; split <;> rfl
@[simp] theorem State.modRegion_conds (s : State) (q : Nat) (g : Region → Region) : (s.modRegion q g).conds = s.conds := by unfold State.modRegion; split <;> rfl
@[simp] theorem State.modRegion_bulk (s : State) (q : Nat) (g : Region → Region) : (s.modRegion q g).bulk = s.bulk := by unfold State.modRegion; split <;> rfl
@[simp] theorem State.modRegion_seam (s : State) (q : Nat) (g : Region → Region) : (s.modRegion q g).seam = s.seam := by unfold State.modRegion; split <;> rfl
@[simp] theorem State.modRegion_host (s : State) (q : Nat) (g : Region → Region) : (s.modRegion q g).host = s.host := by unfold State.modRegion; split <;> rfl
@[simp] theorem State.modRegion_peer (s : State) (q : Nat) (g : Region → Region) : (s.modRegion q g).peer = s.peer := by unfold State.modRegion; split <;> rfl
@[simp] theorem State.modRegion_lode (s : State) (q : Nat) (g : Region → Region) : (s.modRegion q g).lode = s.lode := by unfold State.modRegion; split <;> rfl
@[simp] theorem State.modRegion_feBulk (s : State) (q : Nat) (g : Region → Region) : (s.modRegion q g).feBulk = s.feBulk := by unfold State.modRegion; split <;> rfl
@[simp] theorem State.modRegion_feHost (s : State) (q : Nat) (g : Region → Region) : (s.modRegion q g).feHost = s.feHost := by unfold State.modRegion; split <;> rfl
@[simp] theorem State.modRegion_ldfWait (s : State) (q : Nat) (g : Region → Region) : (s.modRegion q g).ldfWait = s.ldfWait := by unfold State.modRegion; split <;> rfl
@[simp] theorem State.modRegion_feSave (s : State) (q : Nat) (g : Region → Region) : (s.modRegion q g).feSave = s.feSave := by unfold State.modRegion; split <;> rfl
@[simp] theorem State.modRegion_served (s : State) (q : Nat) (g : Region → Region) : (s.modRegion q g).served = s.served := by unfold State.modRegion; split <;> rfl
@[simp] theorem State.modRegion_shootFrames (s : State) (q : Nat) (g : Region → Region) : (s.modRegion q g).shootFrames = s.shootFrames := by unfold State.modRegion; split <;> rfl
@[simp] theorem State.modRegion_bad (s : State) (q : Nat) (g : Region → Region) : (s.modRegion q g).bad = s.bad := by unfold State.modRegion; split <;> rfl
@[simp] theorem State.modRegion_pins (s : State) (q : Nat) (g : Region → Region) : (s.modRegion q g).pins = s.pins := by unfold State.modRegion; split <;> rfl
@[simp] theorem State.modRegion_freeing (s : State) (q : Nat) (g : Region → Region) : (s.modRegion q g).freeing = s.freeing := by unfold State.modRegion; split <;> rfl
@[simp] theorem State.modRegion_xlats (s : State) (q : Nat) (g : Region → Region) : (s.modRegion q g).xlats = s.xlats := by unfold State.modRegion; split <;> rfl
@[simp] theorem State.modRegion_xsdAddr (s : State) (q : Nat) (g : Region → Region) : (s.modRegion q g).xsdAddr = s.xsdAddr := by unfold State.modRegion; split <;> rfl
@[simp] theorem State.modRegion_xsdLen (s : State) (q : Nat) (g : Region → Region) : (s.modRegion q g).xsdLen = s.xsdLen := by unfold State.modRegion; split <;> rfl
@[simp] theorem State.modRegion_shoots (s : State) (q : Nat) (g : Region → Region) : (s.modRegion q g).shoots = s.shoots := by unfold State.modRegion; split <;> rfl
@[simp] theorem State.modRegion_shootBusy (s : State) (q : Nat) (g : Region → Region) : (s.modRegion q g).shootBusy = s.shootBusy := by unfold State.modRegion; split <;> rfl
@[simp] theorem State.modRegion_shootOvfl (s : State) (q : Nat) (g : Region → Region) : (s.modRegion q g).shootOvfl = s.shootOvfl := by unfold State.modRegion; split <;> rfl
@[simp] theorem State.modRegion_shootErr (s : State) (q : Nat) (g : Region → Region) : (s.modRegion q g).shootErr = s.shootErr := by unfold State.modRegion; split <;> rfl
@[simp] theorem State.modRegion_shootDone (s : State) (q : Nat) (g : Region → Region) : (s.modRegion q g).shootDone = s.shootDone := by unfold State.modRegion; split <;> rfl
@[simp] theorem State.modRegion_impBase (s : State) (q : Nat) (g : Region → Region) : (s.modRegion q g).impBase = s.impBase := by unfold State.modRegion; split <;> rfl
@[simp] theorem State.modRegion_queues (s : State) (q : Nat) (g : Region → Region) : (s.modRegion q g).queues = s.queues := by unfold State.modRegion; split <;> rfl
@[simp] theorem State.modRegion_drainMax (s : State) (q : Nat) (g : Region → Region) : (s.modRegion q g).drainMax = s.drainMax := by unfold State.modRegion; split <;> rfl
@[simp] theorem State.modRegion_killMax (s : State) (q : Nat) (g : Region → Region) : (s.modRegion q g).killMax = s.killMax := by unfold State.modRegion; split <;> rfl
@[simp] theorem State.modRegion_pcMax (s : State) (q : Nat) (g : Region → Region) : (s.modRegion q g).pcMax = s.pcMax := by unfold State.modRegion; split <;> rfl
@[simp] theorem State.modRegion_rclass (s : State) (q : Nat) (g : Region → Region) : (s.modRegion q g).rclass = s.rclass := by unfold State.modRegion; split <;> rfl
@[simp] theorem State.modRegion_errata (s : State) (q : Nat) (g : Region → Region) : (s.modRegion q g).errata = s.errata := by unfold State.modRegion; split <;> rfl
@[simp] theorem State.modRegion_coreq (s : State) (q : Nat) (g : Region → Region) : (s.modRegion q g).coreq = s.coreq := by unfold State.modRegion; split <;> rfl
@[simp] theorem State.modRegion_cache (s : State) (q : Nat) (g : Region → Region) : (s.modRegion q g).cache = s.cache := by unfold State.modRegion; split <;> rfl
@[simp] theorem State.modRegion_saves (s : State) (q : Nat) (g : Region → Region) : (s.modRegion q g).saves = s.saves := by unfold State.modRegion; split <;> rfl
@[simp] theorem State.modRegion_msix (s : State) (q : Nat) (g : Region → Region) : (s.modRegion q g).msix = s.msix := by unfold State.modRegion; split <;> rfl
@[simp] theorem State.modRegion_enmap (s : State) (q : Nat) (g : Region → Region) : (s.modRegion q g).enmap = s.enmap := by unfold State.modRegion; split <;> rfl
@[simp] theorem State.modRegion_retire (s : State) (q : Nat) (g : Region → Region) : (s.modRegion q g).retire = s.retire := by unfold State.modRegion; split <;> rfl
@[simp] theorem State.modRegion_dead (s : State) (q : Nat) (g : Region → Region) : (s.modRegion q g).dead = s.dead := by unfold State.modRegion; split <;> rfl
@[simp] theorem State.modRegion_per (s : State) (q : Nat) (g : Region → Region) : (s.modRegion q g).per = s.per := by unfold State.modRegion; split <;> rfl
@[simp] theorem State.modRegion_perNext (s : State) (q : Nat) (g : Region → Region) : (s.modRegion q g).perNext = s.perNext := by unfold State.modRegion; split <;> rfl
@[simp] theorem State.modRegion_windows (s : State) (q : Nat) (g : Region → Region) : (s.modRegion q g).windows = s.windows := by unfold State.modRegion; split <;> rfl
@[simp] theorem State.modRegion_errs (s : State) (q : Nat) (g : Region → Region) : (s.modRegion q g).errs = s.errs := by unfold State.modRegion; split <;> rfl
@[simp] theorem State.modRegion_lastUe (s : State) (q : Nat) (g : Region → Region) : (s.modRegion q g).lastUe = s.lastUe := by unfold State.modRegion; split <;> rfl
@[simp] theorem State.modRegion_ueSeen (s : State) (q : Nat) (g : Region → Region) : (s.modRegion q g).ueSeen = s.ueSeen := by unfold State.modRegion; split <;> rfl
@[simp] theorem State.modRegion_hsnap (s : State) (q : Nat) (g : Region → Region) : (s.modRegion q g).hsnap = s.hsnap := by unfold State.modRegion; split <;> rfl
@[simp] theorem State.modRegion_gen (s : State) (q : Nat) (g : Region → Region) : (s.modRegion q g).gen = s.gen := by unfold State.modRegion; split <;> rfl
@[simp] theorem State.modRegion_snapped (s : State) (q : Nat) (g : Region → Region) : (s.modRegion q g).snapped = s.snapped := by unfold State.modRegion; split <;> rfl
@[simp] theorem State.modRegion_links (s : State) (q : Nat) (g : Region → Region) : (s.modRegion q g).links = s.links := by unfold State.modRegion; split <;> rfl
@[simp] theorem State.modRegion_firm (s : State) (q : Nat) (g : Region → Region) : (s.modRegion q g).firm = s.firm := by unfold State.modRegion; split <;> rfl
@[simp] theorem State.modRegion_power (s : State) (q : Nat) (g : Region → Region) : (s.modRegion q g).power = s.power := by unfold State.modRegion; split <;> rfl
@[simp] theorem State.modRegion_partitions (s : State) (q : Nat) (g : Region → Region) : (s.modRegion q g).partitions = s.partitions := by unfold State.modRegion; split <;> rfl
@[simp] theorem State.modRegion_borders (s : State) (q : Nat) (g : Region → Region) : (s.modRegion q g).borders = s.borders := by unfold State.modRegion; split <;> rfl
@[simp] theorem State.modRegion_reads (s : State) (q : Nat) (g : Region → Region) : (s.modRegion q g).reads = s.reads := by unfold State.modRegion; split <;> rfl
@[simp] theorem State.modRegion_ide (s : State) (q : Nat) (g : Region → Region) : (s.modRegion q g).ide = s.ide := by unfold State.modRegion; split <;> rfl
@[simp] theorem State.modRegion_snapAt (s : State) (q : Nat) (g : Region → Region) : (s.modRegion q g).snapAt = s.snapAt := by unfold State.modRegion; split <;> rfl
@[simp] theorem State.modRegion_hdmHeld (s : State) (q : Nat) (g : Region → Region) : (s.modRegion q g).hdmHeld = s.hdmHeld := by unfold State.modRegion; split <;> rfl
@[simp] theorem State.modRegion_shootMark (s : State) (q : Nat) (g : Region → Region) : (s.modRegion q g).shootMark = s.shootMark := by unfold State.modRegion; split <;> rfl
@[simp] theorem State.modRegion_written (s : State) (q : Nat) (g : Region → Region) : (s.modRegion q g).written = s.written := by unfold State.modRegion; split <;> rfl

end Sys2Proof.Machine
end

