-- ==== Sys2Proof/Laws/Tables.lean ====
section
/-! SUPPORT. Laws of tables and of byte memories: reads after writes, and the canonical form kept (R4, R239, R406). -/
-- The theorems of this file are checked one after another: in parallel they ask for more memory than a check has.
set_option Elab.async false
namespace Sys2Proof.Machine

/-! ### Tables -/

@[simp] theorem tfind_tset_same {α : Type} (t : Table α) (k : Nat) (v : α) : tfind (tset t k v) k = some v := by
  induction t with
  | nil => simp [tset, tfind]
  | cons e t ih =>
    obtain ⟨k', v'⟩ := e
    simp only [tset]
    split
    · simp [tfind]
    · split
      · simp [tfind]
      · simp [tfind, *]

theorem tfind_tset_other {α : Type} (t : Table α) {j k : Nat} (v : α) (h : j ≠ k) :
    tfind (tset t k v) j = tfind t j := by
  induction t with
  | nil => simp [tset, tfind, h]
  | cons e t ih =>
    obtain ⟨k', v'⟩ := e
    simp only [tset]
    split
    · simp [tfind, h]
    · split
      · rename_i h2
        subst h2
        simp [tfind, h]
      · simp only [tfind, ih]

@[simp] theorem tget_tset_same {α : Type} (t : Table α) (k : Nat) (v d : α) : tget (tset t k v) k d = v := by
  simp [tget]

theorem tget_tset_other {α : Type} (t : Table α) {j k : Nat} (v d : α) (h : j ≠ k) :
    tget (tset t k v) j d = tget t j d := by
  simp [tget, tfind_tset_other t v h]

/-- A property of every entry holds after a write of a value that has it. -/
theorem all_tset {α : Type} (P : α → Bool) (t : Table α) (k : Nat) (v : α) (ht : t.all (fun e => P e.2) = true)
    (hv : P v = true) : (tset t k v).all (fun e => P e.2) = true := by
  induction t with
  | nil => simp [tset, hv]
  | cons e t ih =>
    obtain ⟨k', v'⟩ := e
    simp only [List.all_cons, Bool.and_eq_true] at ht
    simp only [tset]
    split
    · simp only [List.all_cons, Bool.and_eq_true]; exact ⟨hv, ht⟩
    · split
      · simp only [List.all_cons, Bool.and_eq_true]; exact ⟨hv, ht.2⟩
      · simp only [List.all_cons, Bool.and_eq_true]; exact ⟨ht.1, ih ht.2⟩

theorem all_tdel {α : Type} (P : α → Bool) (t : Table α) (k : Nat) (ht : t.all (fun e => P e.2) = true) :
    (tdel t k).all (fun e => P e.2) = true := by
  simp only [tdel, List.all_eq_true, List.mem_filter] at *
  exact fun e he => ht e he.1

/-- A property of every entry holds of what a lookup finds. -/
theorem tfind_all {α : Type} (P : α → Bool) (t : Table α) (k : Nat) (v : α) (ht : t.all (fun e => P e.2) = true)
    (h : tfind t k = some v) : P v = true := by
  induction t with
  | nil => simp [tfind] at h
  | cons e t ih =>
    obtain ⟨k', v'⟩ := e
    simp only [List.all_cons, Bool.and_eq_true] at ht
    simp only [tfind] at h
    split at h
    · cases h; exact ht.1
    · exact ih ht.2 h

theorem tget_all {α : Type} (P : α → Bool) (t : Table α) (k : Nat) (d : α) (ht : t.all (fun e => P e.2) = true)
    (hd : P d = true) : P (tget t k d) = true := by
  unfold tget
  cases h : tfind t k with
  | none => simpa using hd
  | some v => simpa using tfind_all P t k v ht h

/-! ### Memories -/

theorem Memory.get_of_above {m : Memory} {lo a : Nat} (h : Memory.above lo m = true) (hw : Memory.wf m = true)
    (ha : a ≤ lo) : m.get a = 0 := by
  induction m generalizing lo with
  | nil => rfl
  | cons e m ih =>
    obtain ⟨a', v⟩ := e
    simp only [Memory.above, decide_eq_true_eq] at h
    simp only [Memory.wf, Bool.and_eq_true] at hw
    have : a ≠ a' := by omega
    simp only [Memory.get, this, if_false]
    exact ih hw.1.2 hw.2 (by omega)

theorem Memory.above_set {m : Memory} {lo a : Nat} (v : Byte) (h : Memory.above lo m = true)
    (hw : Memory.wf m = true) (ha : lo < a) : Memory.above lo (m.set a v) = true := by
  cases m with
  | nil => simp only [Memory.set]; split <;> simp [Memory.above, ha]
  | cons e m =>
    obtain ⟨a', v'⟩ := e
    simp only [Memory.above, decide_eq_true_eq] at h
    simp only [Memory.wf, Bool.and_eq_true] at hw
    simp only [Memory.set]
    split
    · split <;> simp [Memory.above, h, ha]
    · split
      · split
        · rename_i h2 _
          cases m with
          | nil => rfl
          | cons e2 m2 =>
            obtain ⟨a2, v2⟩ := e2
            have := hw.1.2
            simp only [Memory.above, decide_eq_true_eq] at this ⊢
            omega
        · simp [Memory.above, ha]
      · simp [Memory.above, h]

/-- A write keeps the canonical form. -/
theorem Memory.wf_set (m : Memory) (a : Nat) (v : Byte) (h : m.wf = true) : (m.set a v).wf = true := by
  induction m with
  | nil =>
    simp only [Memory.set]
    split
    · rfl
    · rename_i hv
      simpa [Memory.wf, Memory.above] using hv
  | cons e m ih =>
    obtain ⟨a', v'⟩ := e
    have h0 := h
    simp only [Memory.wf, Bool.and_eq_true, bne_iff_ne, ne_eq] at h
    simp only [Memory.set]
    split
    · split
      · exact h0
      · simp only [Memory.wf, Bool.and_eq_true, bne_iff_ne, ne_eq, Memory.above, decide_eq_true_eq]
        refine ⟨⟨?_, ?_⟩, h⟩ <;> assumption
    · split
      · split
        · exact h.2
        · rename_i h2 h3
          subst h2
          simp only [Memory.wf, Bool.and_eq_true, bne_iff_ne, ne_eq]
          exact ⟨⟨h3, h.1.2⟩, h.2⟩
      · simp only [Memory.wf, Bool.and_eq_true, bne_iff_ne, ne_eq]
        exact ⟨⟨h.1.1, Memory.above_set v h.1.2 h.2 (by omega)⟩, ih h.2⟩

/-- A byte read after its write is the byte written. -/
theorem Memory.get_set_same (m : Memory) (a : Nat) (v : Byte) (h : m.wf = true) : (m.set a v).get a = v := by
  induction m with
  | nil => simp only [Memory.set]; split <;> simp_all [Memory.get]
  | cons e m ih =>
    obtain ⟨a', v'⟩ := e
    have h0 := h
    simp only [Memory.wf, Bool.and_eq_true, bne_iff_ne, ne_eq] at h
    simp only [Memory.set]
    split
    · rename_i hlt
      split
      · rename_i hv
        subst hv
        exact Memory.get_of_above (lo := a) (by simp [Memory.above, hlt]) h0 (Nat.le_refl a)
      · simp [Memory.get]
    · split
      · rename_i h2
        split
        · rename_i hv
          subst hv h2
          exact Memory.get_of_above h.1.2 h.2 (Nat.le_refl _)
        · simp [Memory.get]
      · rename_i h2
        simp only [Memory.get, h2, if_false]
        exact ih h.2

/-- A write leaves every other byte alone. -/
theorem Memory.get_set_other (m : Memory) {a b : Nat} (v : Byte) (hab : b ≠ a) :
    (m.set a v).get b = m.get b := by
  induction m with
  | nil => simp only [Memory.set]; split <;> simp [Memory.get, hab]
  | cons e m ih =>
    obtain ⟨a', v'⟩ := e
    simp only [Memory.set]
    split
    · split
      · rfl
      · simp [Memory.get, hab]
    · split
      · rename_i h2
        subst h2
        split <;> simp [Memory.get, hab]
      · simp only [Memory.get, ih]

theorem Memory.wf_write (m : Memory) (a : Nat) (bs : List Byte) (h : m.wf = true) : (m.write a bs).wf = true := by
  induction bs generalizing m a with
  | nil => exact h
  | cons b bs ih => exact ih _ _ (Memory.wf_set m a b h)

/-- Bytes outside a written range are unchanged. -/
theorem Memory.get_write_other (m : Memory) (a b : Nat) (bs : List Byte) (h : b < a ∨ a + bs.length ≤ b) :
    (m.write a bs).get b = m.get b := by
  induction bs generalizing m a with
  | nil => rfl
  | cons x bs ih =>
    simp only [List.length_cons] at h
    simp only [Memory.write]
    rw [ih _ _ (by omega)]
    exact Memory.get_set_other m x (by omega)

/-- A byte inside a written range is the byte written. -/
theorem Memory.get_write_same (m : Memory) (a i : Nat) (bs : List Byte) (hw : m.wf = true) (h : i < bs.length) :
    (m.write a bs).get (a + i) = bs[i] := by
  induction bs generalizing m a i with
  | nil => simp at h
  | cons x bs ih =>
    cases i with
    | zero =>
      simp only [Memory.write, Nat.add_zero, List.getElem_cons_zero]
      rw [Memory.get_write_other _ _ _ _ (by omega)]
      exact Memory.get_set_same m a x hw
    | succ i =>
      simp only [List.length_cons, Nat.add_lt_add_iff_right] at h
      have := ih (m.set a x) (a + 1) i (Memory.wf_set m a x hw) h
      simp only [Memory.write, List.getElem_cons_succ]
      rw [← this]
      congr 1
      omega

theorem Memory.above_filter (m : Memory) (lo : Nat) (p : Host.Cell → Bool) (h : Memory.above lo m = true)
    (hw : m.wf = true) : Memory.above lo (m.filter p) = true := by
  induction m with
  | nil => rfl
  | cons e m ih =>
    obtain ⟨a, v⟩ := e
    simp only [Memory.above, decide_eq_true_eq] at h
    simp only [Memory.wf, Bool.and_eq_true] at hw
    rw [List.filter_cons]
    split
    · simp [Memory.above, h]
    · refine ih ?_ hw.2
      cases m with
      | nil => rfl
      | cons e2 m2 =>
        obtain ⟨a2, v2⟩ := e2
        have := hw.1.2
        simp only [Memory.above, decide_eq_true_eq] at this ⊢
        omega

theorem Memory.wf_filter (m : Memory) (p : Host.Cell → Bool) (h : m.wf = true) :
    Memory.wf (m.filter p) = true := by
  induction m with
  | nil => rfl
  | cons e m ih =>
    obtain ⟨a, v⟩ := e
    simp only [Memory.wf, Bool.and_eq_true] at h
    rw [List.filter_cons]
    split
    · simp only [Memory.wf, Bool.and_eq_true]
      exact ⟨⟨h.1.1, Memory.above_filter m a p h.1.2 h.2⟩, ih h.2⟩
    · exact ih h.2

theorem Memory.wf_cut (m : Memory) (lo n : Nat) (h : m.wf = true) : (m.cut lo n).wf = true := Memory.wf_filter m _ h

theorem Memory.wf_canon (m : Memory) : m.canon.wf = true := by
  have H : ∀ (l n : Memory), n.wf = true → (l.foldl (fun n c => n.set c.1 c.2) n).wf = true := by
    intro l
    induction l with
    | nil => exact fun n h => h
    | cons e l ih => exact fun n h => ih _ (Memory.wf_set n e.1 e.2 h)
  exact H m [] rfl

theorem Memory.above_get {m : Memory} {lo : Nat} (h : Memory.above lo m = true) (hw : m.wf = true) :
    ∀ c ∈ m, lo < c.1 := by
  induction m generalizing lo with
  | nil => simp
  | cons e m ih =>
    obtain ⟨a, v⟩ := e
    simp only [Memory.above, decide_eq_true_eq] at h
    simp only [Memory.wf, Bool.and_eq_true] at hw
    intro c hc
    rcases List.mem_cons.mp hc with hc | hc
    · subst hc; exact h
    · exact Nat.lt_trans h (ih hw.1.2 hw.2 c hc)

/-- Two memories in canonical form that read alike are equal. -/
theorem Memory.ext_get {m n : Memory} (hm : m.wf = true) (hn : n.wf = true) (h : ∀ a, m.get a = n.get a) : m = n := by
  induction m generalizing n with
  | nil =>
    cases n with
    | nil => rfl
    | cons e n =>
      obtain ⟨a, v⟩ := e
      have := h a
      simp only [Memory.wf, Bool.and_eq_true, bne_iff_ne, ne_eq] at hn
      simp [Memory.get] at this
      exact absurd this.symm hn.1.1
  | cons e m ih =>
    obtain ⟨a, v⟩ := e
    have hm0 := hm
    simp only [Memory.wf, Bool.and_eq_true, bne_iff_ne, ne_eq] at hm
    cases n with
    | nil =>
      have := h a
      simp [Memory.get] at this
      exact absurd this hm.1.1
    | cons e2 n =>
      obtain ⟨b, w⟩ := e2
      have hn0 := hn
      simp only [Memory.wf, Bool.and_eq_true, bne_iff_ne, ne_eq] at hn
      have hab : a = b := by
        rcases Nat.lt_trichotomy a b with hlt | heq | hgt
        · have h1 := h a
          rw [Memory.get_of_above (m := (b, w) :: n) (lo := a) (by simp [Memory.above, hlt]) hn0 (Nat.le_refl a)] at h1
          simp [Memory.get] at h1
          exact absurd h1 hm.1.1
        · exact heq
        · have h1 := h b
          rw [Memory.get_of_above (m := (a, v) :: m) (lo := b) (by simp [Memory.above, hgt]) hm0 (Nat.le_refl b)] at h1
          simp [Memory.get] at h1
          exact absurd h1.symm hn.1.1
      subst hab
      have hv : v = w := by
        have := h a
        simpa [Memory.get] using this
      subst hv
      congr 1
      refine ih hm.2 hn.2 (fun c => ?_)
      by_cases hc : c = a
      · subst hc
        rw [Memory.get_of_above hm.1.2 hm.2 (Nat.le_refl _), Memory.get_of_above hn.1.2 hn.2 (Nat.le_refl _)]
      · have := h c
        simpa [Memory.get, hc] using this

end Sys2Proof.Machine
end

