-- ==== Sys2Proof/Laws/Memory.lean ====
section
/-! SUPPORT. The shared operations of Machine/Ops.lean: what they leave of memory, and that they keep every memory in
canonical form. -/
-- The theorems of this file are checked one after another: in parallel they ask for more memory than a check has.
set_option Elab.async false
namespace Sys2Proof.Machine

/-! ### The parts of memWf -/

theorem State.memWf_congr {s t : State} (hb : t.bulk = s.bulk) (hs : t.seam = s.seam) (hh : t.host = s.host)
    (hp : t.peer = s.peer) (hl : t.lode = s.lode) (hc : t.cells = s.cells) (hv : t.saves = s.saves) :
    t.memWf = s.memWf := by
  simp [State.memWf, *]

theorem State.memWf_same {s t : State} (h : s.memWf = true) (hb : t.bulk = s.bulk) (hs : t.seam = s.seam)
    (hh : t.host = s.host) (hp : t.peer = s.peer) (hl : t.lode = s.lode) (hc : t.cells = s.cells)
    (hv : t.saves = s.saves) : t.memWf = true := (State.memWf_congr hb hs hh hp hl hc hv).trans h

/-- The form of a cell's store and of the saved ones, apart from the other memories. -/
def cellsWf (t : Table Cell) : Bool := t.all (fun e => e.2.store.wf)
def savesWf (t : Table Image) : Bool := t.all (fun e => e.2.cells.all (fun c => c.2.2.store.wf))

theorem State.memWf_iff (s : State) : s.memWf = true ↔
    s.bulk.wf = true ∧ s.seam.wf = true ∧ s.host.wf = true ∧ s.peer.wf = true ∧ s.lode.toList.all Memory.wf = true ∧
      cellsWf s.cells = true ∧ savesWf s.saves = true := by
  simp [State.memWf, cellsWf, savesWf, Bool.and_eq_true, and_assoc]

theorem State.memWf_cell {s : State} (h : s.memWf = true) (p : Nat) : (s.cell p).store.wf = true :=
  tget_all (fun c : Cell => c.store.wf) s.cells p Cell.init ((s.memWf_iff.mp h).2.2.2.2.2.1) rfl

theorem State.memWf_lode {s : State} (h : s.memWf = true) (g : Nat) (hg : g < 4) : (s.lode[g]).wf = true := by
  have := (s.memWf_iff.mp h).2.2.2.2.1
  rw [List.all_eq_true] at this
  exact this _ (by simp)

theorem State.memWf_setBulk {s : State} {m : Memory} (h : s.memWf = true) (hm : m.wf = true) :
    ({ s with bulk := m } : State).memWf = true := by
  rw [State.memWf_iff] at h ⊢
  exact ⟨hm, h.2⟩

theorem State.memWf_setSeam {s : State} {m : Memory} (h : s.memWf = true) (hm : m.wf = true) :
    ({ s with seam := m } : State).memWf = true := by
  rw [State.memWf_iff] at h ⊢
  exact ⟨h.1, hm, h.2.2⟩

theorem State.memWf_setHost {s : State} {m : Memory} (h : s.memWf = true) (hm : m.wf = true) :
    ({ s with host := m } : State).memWf = true := by
  rw [State.memWf_iff] at h ⊢
  exact ⟨h.1, h.2.1, hm, h.2.2.2⟩

theorem State.memWf_setPeer {s : State} {m : Memory} (h : s.memWf = true) (hm : m.wf = true) :
    ({ s with peer := m } : State).memWf = true := by
  rw [State.memWf_iff] at h ⊢
  exact ⟨h.1, h.2.1, h.2.2.1, hm, h.2.2.2.2⟩

theorem State.memWf_setLode {s : State} {m : Memory} {g : Nat} (hg : g < 4) (h : s.memWf = true) (hm : m.wf = true) :
    ({ s with lode := s.lode.set g m } : State).memWf = true := by
  have hl : ∀ (i : Nat) (hi : i < 4), (s.lode[i]).wf = true := fun i hi => State.memWf_lode h i hi
  rw [State.memWf_iff] at h ⊢
  refine ⟨h.1, h.2.1, h.2.2.1, h.2.2.2.1, ?_, h.2.2.2.2.2⟩
  rw [List.all_eq_true]
  intro x hx
  simp only [Vector.toList_set] at hx
  rcases List.mem_or_eq_of_mem_set hx with hx | hx
  · obtain ⟨i, hi, rfl⟩ := List.mem_iff_getElem.mp hx
    simpa using hl i (by simpa using hi)
  · exact hx ▸ hm

theorem State.memWf_setCell {s : State} {x : Cell} (p : Nat) (h : s.memWf = true) (hx : x.store.wf = true) :
    (s.setCell p x).memWf = true := by
  rw [State.memWf_iff] at h ⊢
  exact ⟨h.1, h.2.1, h.2.2.1, h.2.2.2.1, h.2.2.2.2.1,
    all_tset (fun c : Cell => c.store.wf) s.cells p x h.2.2.2.2.2.1 hx, h.2.2.2.2.2.2⟩

theorem State.memWf_modCell {s : State} {f : Cell → Cell} (p : Nat) (h : s.memWf = true)
    (hf : ∀ c : Cell, c.store.wf = true → (f c).store.wf = true) : (s.modCell p f).memWf = true :=
  State.memWf_setCell p h (hf _ (State.memWf_cell h p))

@[simp] theorem State.memWf_setCond (s : State) (k : Nat) (x : Cond) : (s.setCond k x).memWf = s.memWf := rfl
@[simp] theorem State.memWf_modCond (s : State) (k : Nat) (f : Cond → Cond) : (s.modCond k f).memWf = s.memWf := rfl
@[simp] theorem State.memWf_setRegion (s : State) (q : Nat) (x : Region) : (s.setRegion q x).memWf = s.memWf := rfl
@[simp] theorem State.memWf_modXlat (s : State) (c : Nat) (f : Xlat → Xlat) : (s.modXlat c f).memWf = s.memWf := rfl
@[simp] theorem State.memWf_modErr (s : State) (d : Fin 7) (f : ErrCount → ErrCount) :
    (s.modErr d f).memWf = s.memWf := rfl

@[simp] theorem State.memWf_modRegion (s : State) (q : Nat) (f : Region → Region) :
    (s.modRegion q f).memWf = s.memWf := by
  unfold State.modRegion; split <;> rfl

@[simp] theorem State.memWf_modClause (s : State) (q n : Nat) (f : Clause → Clause) :
    (s.modClause q n f).memWf = s.memWf := State.memWf_modRegion s q _

theorem State.memWf_setHart {s : State} (a : AgentId) (x : Hart) (h : s.memWf = true) : (s.setHart a x).memWf = true := by
  cases a with
  | ctx p c => exact State.memWf_setCell p h (State.memWf_cell h p)
  | cond k => exact h

theorem State.memWf_modHart {s : State} (a : AgentId) (f : Hart → Hart) (h : s.memWf = true) :
    (s.modHart a f).memWf = true := State.memWf_setHart a _ h

/-! ### Bytes -/

theorem State.memWf_putByte {s : State} (b : Byte) (p : Place) (h : s.memWf = true) : (s.putByte b p).memWf = true := by
  have h0 := s.memWf_iff.mp h
  cases p with
  | store c o => exact State.memWf_modCell c h (fun x hx => Memory.wf_set x.store o b hx)
  | bulk a => exact State.memWf_setBulk h (Memory.wf_set _ a b h0.1)
  | seam a => exact State.memWf_setSeam h (Memory.wf_set _ a b h0.2.1)
  | host a => exact State.memWf_setHost h (Memory.wf_set _ a b h0.2.2.1)
  | lode g a =>
    exact State.memWf_setLode (Nat.mod_lt g (by decide)) h
      (Memory.wf_set _ a b (State.memWf_lode h _ (Nat.mod_lt g (by decide))))
  | peer p i o => exact State.memWf_setPeer h (Memory.wf_set _ _ b h0.2.2.2.1)

theorem State.memWf_putBytes {s : State} (l : List (Place × Byte)) (h : s.memWf = true) : (s.putBytes l).memWf = true := by
  induction l generalizing s with
  | nil => exact h
  | cons e l ih => exact ih (State.memWf_putByte e.2 e.1 h)

theorem State.memWf_setFull {s : State} (on : Bool) (p : Place) (h : s.memWf = true) : (s.setFull on p).memWf = true := by
  cases p <;> first | exact h | exact State.memWf_modCell _ h (fun _ hx => hx)

theorem State.memWf_fill {s : State} (p : Place) (h : s.memWf = true) : (s.fill p).memWf = true :=
  State.memWf_setFull _ p h

theorem State.memWf_putFe {s : State} (l : List (Place × Bool)) (h : s.memWf = true) : (s.putFe l).memWf = true := by
  induction l generalizing s with
  | nil => exact h
  | cons e l ih =>
    obtain ⟨p, on⟩ := e
    simp only [State.putFe]
    split
    · exact ih (State.memWf_fill p h)
    · exact ih (State.memWf_setFull false p h)

theorem State.memWf_noteUe {s : State} (p : Place) (h : s.memWf = true) : (s.noteUe p).memWf = true := by
  unfold State.noteUe
  split
  · exact h
  · rename_i d _
    have h1 : ∀ s1 : State, s1.memWf = true →
        (if s1.ueSeen.contains p.code then s1
        else { s1.modErr d (fun e => { e with uncorr := sat32 (e.uncorr + 1) }) with
          ueSeen := p.code :: s1.ueSeen, lastUe := p.lastUe d } : State).memWf = true := by
      intro s1 hs
      split
      · exact hs
      · exact State.memWf_same hs rfl rfl rfl rfl rfl rfl rfl
    apply h1
    split
    · rename_i c o _
      have hm : ∀ l1 : List Nat, (s.modCell c (fun x => { x with badWords := l1 })).memWf = true :=
        fun l1 => State.memWf_modCell c h (fun _ hx => hx)
      dsimp only
      generalize (if ((s.cell c).badWords.contains o || (s.cell c).bound.isNone) = true then (s.cell c).badWords
        else o :: (s.cell c).badWords) = l1
      split
      · exact State.memWf_same (hm l1) rfl rfl rfl rfl rfl rfl rfl
      · exact hm l1
    · exact h

/-! ### Accesses performed -/

theorem State.memWf_applyPend {s : State} (w : PendWhat) (h : s.memWf = true) : (s.applyPend w).memWf = true := by
  cases w with
  | store bs fe => exact State.memWf_putFe fe (State.memWf_putBytes bs h)
  | amon fn ps v =>
    simp only [State.applyPend]
    split
    · exact State.memWf_noteUe _ h
    · exact State.memWf_putBytes _ h

theorem State.memWf_perform {s : State} (a : AgentId) (i lvl : Nat) (h : s.memWf = true) :
    (s.perform a i lvl).memWf = true := by
  unfold State.perform
  split
  · exact h
  · apply State.memWf_modHart
    split
    · exact State.memWf_applyPend _ h
    · exact h

@[simp] theorem State.memWf_doomRegion (s : State) (q code : Nat) : (s.doomRegion q code).memWf = s.memWf :=
  State.memWf_modRegion s q _

@[simp] theorem State.memWf_doomAgent (s : State) (a : AgentId) : (s.doomAgent a).memWf = s.memWf := by
  unfold State.doomAgent
  split
  · exact State.memWf_doomRegion s _ _
  · rfl

theorem State.memWf_performOr {s : State} (a : AgentId) (i lvl : Nat) (h : s.memWf = true) :
    (s.performOr a i lvl).memWf = true := by
  unfold State.performOr
  split
  · exact h
  · split
    · exact (State.memWf_doomAgent _ a).trans (State.memWf_modHart a _ h)
    · exact State.memWf_perform a i lvl h

theorem State.memWf_settleFrom {s : State} (a : AgentId) (ps : List Place) (i n : Nat) (h : s.memWf = true) :
    (s.settleFrom a ps i n).memWf = true := by
  induction n generalizing s i with
  | zero => exact h
  | succ n ih =>
    simp only [State.settleFrom]
    split
    · split
      · exact ih _ (State.memWf_performOr a i 2 h)
      · exact ih _ h
    · exact h

theorem State.memWf_settle {s : State} (a : AgentId) (ps : List Place) (h : s.memWf = true) :
    (s.settle a ps).memWf = true := State.memWf_settleFrom a ps 0 _ h

/-! ### Translation -/

theorem State.memWf_walk {s : State} (root g : Nat) (h : s.memWf = true) : (s.walk root g).1.memWf = true := by
  unfold State.walk
  split
  · exact State.memWf_noteUe _ h
  · exact h
  · exact State.memWf_setBulk h (Memory.wf_write _ _ _ (s.memWf_iff.mp h).1)

theorem State.memWf_markDirty {s : State} (ctx : Nat) (p : Page) (v : Nat) (h : s.memWf = true) :
    (s.markDirty ctx p v).memWf = true := by
  unfold State.markDirty
  rw [State.memWf_modXlat]
  exact State.memWf_setBulk h (Memory.wf_write _ _ _ (s.memWf_iff.mp h).1)

@[simp] theorem State.memWf_breakNow (s : State) (ctx n : Nat) : (s.breakNow ctx n).memWf = s.memWf := rfl

theorem State.memWf_dirty {s : State} (ctx : Nat) (p : Page) (h : s.memWf = true) : (s.dirty ctx p).1.memWf = true := by
  have hw := State.memWf_walk (s.xlat ctx).root (p.page * 2 ^ 16) h
  unfold State.dirty
  dsimp only
  split
  · exact State.memWf_markDirty ctx p _ h
  · split
    · rename_i s' p2 he
      rw [he] at hw
      apply State.memWf_markDirty
      split <;> exact hw
    · rename_i s' he
      rw [he] at hw
      exact hw

theorem State.memWf_bulkPage {s : State} (o : Holder) (n : Nat) (write : Bool) (h : s.memWf = true) :
    (s.bulkPage o n write).1.memWf = true := by
  have hf : ∀ r : State × Option Page, r.1.memWf = true →
      (match r with
        | (s', some p) => if write && !p.dirty then s'.dirty o.ctx p else (s', some p)
        | (s', none) => (s', none)).1.memWf = true := by
    rintro ⟨s', x⟩ hr
    cases x with
    | none => exact hr
    | some p =>
      simp only
      split
      · exact State.memWf_dirty o.ctx p hr
      · exact hr
  have hw := State.memWf_walk (s.xlat o.ctx).root (n * 2 ^ 16) h
  have hfresh : (if (s.xlat o.ctx).broken.contains n then (s, none)
      else match s.walk (s.xlat o.ctx).root (n * 2 ^ 16) with
        | (s', some p) =>
          (s'.modXlat o.ctx (fun x =>
            (x.mapPage n (fun q => if q.dropped then { p with owner := q.owner } else q)).setPage { p with owner := o.owner }),
            some { p with owner := o.owner })
        | (s', none) => (s'.breakNow o.ctx n, none) : State × Option Page).1.memWf = true := by
    split
    · exact h
    · split
      · rename_i s' p he; rw [he] at hw; exact hw
      · rename_i s' he; rw [he] at hw; exact hw
  unfold State.bulkPage
  apply hf
  split
  · split
    · exact hfresh
    · exact h
  · exact hfresh

theorem State.memWf_translate {s : State} (o : Holder) (e : Extent) (off : Nat) (write : Bool) (h : s.memWf = true) :
    (s.translate o e off write).1.memWf = true := by
  have hb := State.memWf_bulkPage o ((e.base + off) / 2 ^ 16) write h
  unfold State.translate
  simp only
  split <;> try exact h
  split
  · rename_i s' p he; rw [he] at hb; exact hb
  · rename_i s' he; rw [he] at hb; exact hb

theorem State.memWf_translateN {s : State} (o : Holder) (e : Extent) (off : Nat) (write : Bool) (n : Nat)
    (h : s.memWf = true) : (s.translateN o e off write n).1.memWf = true := by
  induction n generalizing s off with
  | zero => exact h
  | succ n ih => exact ih (off + 1) (State.memWf_translate o e off write h)

/-! ### Images in the save areas, and a peer's writes -/

theorem State.memWf_storeParts {s : State} (i : Image) (ps : List (Nat × Nat × Nat)) (h : s.memWf = true) :
    (storeParts i ps s).memWf = true := by
  induction ps generalizing s with
  | nil => exact h
  | cons p ps ih =>
    obtain ⟨d, off, n⟩ := p
    apply ih
    exact State.memWf_same (State.memWf_setSeam h (Memory.wf_write _ _ _ (Memory.wf_cut _ _ _ (s.memWf_iff.mp h).2.1)))
      rfl rfl rfl rfl rfl rfl rfl

theorem State.memWf_importWrite {s : State} (as : List Nat) (bs : List Byte) (h : s.memWf = true) :
    (s.importWrite as bs).memWf = true := State.memWf_putBytes _ h

theorem State.memWf_settleWrite {s : State} (port : Fin 8) (i : Nat) (h : s.memWf = true) :
    (settleWrite port i s).memWf = true := by
  unfold settleWrite
  split
  · exact h
  · exact State.memWf_importWrite _ _ h

/-! ### Records and traps -/

theorem State.memWf_sendRecord {s : State} (k : Nat) (r : Record) (h : s.memWf = true) :
    (s.sendRecord k r).memWf = true := by
  unfold State.sendRecord
  split
  · exact h
  · split
    · rw [State.memWf_modRegion]; exact h
    · exact h

theorem State.memWf_breakPage {s : State} (ctx n : Nat) (h : s.memWf = true) : (s.breakPage ctx n).memWf = true := by
  unfold State.breakPage
  dsimp only
  split
  · exact h
  · exact (State.memWf_modXlat _ _ _).trans (State.memWf_walk _ _ h)

theorem State.memWf_missPageFor {s : State} (a : AgentId) (m : PageMiss) (c : Word) (h : s.memWf = true) :
    (s.missPageFor a m c).memWf = true := by
  have h1 : (if m.sort = .bulk then s.breakPage (s.ctxOf a) (m.sa / 2 ^ 16) else s).memWf = true := by
    split
    · exact State.memWf_breakPage _ _ h
    · exact h
  unfold State.missPageFor
  dsimp only
  generalize (if m.sort = .bulk then s.breakPage (s.ctxOf a) (m.sa / 2 ^ 16) else s) = s1 at h1
  split
  · exact h1
  · exact State.memWf_sendRecord _ _ h1

theorem State.memWf_writeFrame {s : State} (a : AgentId) (off : Nat) (hdr : List Byte) (h : s.memWf = true) :
    (s.writeFrame a off hdr).memWf = true := by
  unfold State.writeFrame
  cases a with
  | ctx p c =>
    exact State.memWf_modCell p h (fun x hx => Memory.wf_write _ _ _ (Memory.wf_cut _ _ _ hx))
  | cond k =>
    simp only
    split
    · exact h
    · rename_i e _
      have ht := State.memWf_translate (s.holder (.cond k)) e
        (fld (s.hart (.cond k)).tframe.toNat 39 12 * 4096 + off) true h
      split
      · rename_i s' lo he
        rw [he] at ht
        have h1 := State.memWf_settle (.cond k) ((List.range 2048).map (fun i => Place.bulk (lo + i))) ht
        exact State.memWf_setBulk h1 (Memory.wf_write _ _ _ (Memory.wf_cut _ _ _ ((State.memWf_iff _).mp h1).1))
      · rename_i s' _ _ he
        rw [he] at ht
        exact ht

theorem State.memWf_nestedTrap {s : State} (a : AgentId) (t : TrapInfo) (h : s.memWf = true) :
    (s.nestedTrap a t).memWf = true := by
  unfold State.nestedTrap
  simp only
  have h1 : ∀ hdr f, ((s.writeFrame a 2048 hdr).modHart a f).memWf = true := fun hdr f =>
    State.memWf_modHart a f (State.memWf_writeFrame a 2048 hdr h)
  split
  · exact h1 _ _
  · apply State.memWf_sendRecord
    split
    · rw [State.memWf_modClause]; exact State.memWf_modCell _ (h1 _ _) (fun _ hx => hx)
    · exact State.memWf_modCell _ (h1 _ _) (fun _ hx => hx)

/-- Taking a trap keeps every memory in canonical form. -/
theorem State.memWf_takeTrap {s : State} (a : AgentId) (t : TrapInfo) (h : s.memWf = true) :
    (s.takeTrap a t).memWf = true := by
  unfold State.takeTrap
  simp only
  split
  · exact State.memWf_nestedTrap a t h
  · exact State.memWf_modHart a _ (State.memWf_writeFrame a 0 _ h)

theorem State.memWf_stopBy {s : State} (a : AgentId) (e : Stop) (h : s.memWf = true) : (s.stopBy a e).memWf = true := by
  cases e with
  | hold x => exact State.memWf_modHart a _ h
  | page m => exact State.memWf_modHart a _ (State.memWf_missPageFor a m _ h)
  | trap t => exact State.memWf_takeTrap a t h
  | bad p t => exact State.memWf_takeTrap a t (State.memWf_noteUe p h)

theorem State.memWf_retireBy {s : State} (a : AgentId) (len : Nat) (h : s.memWf = true) :
    (s.retireBy a len).memWf = true := State.memWf_modHart a _ h

/-- An outcome after which every memory is in canonical form. -/
def keepsMem (o : Out) : Prop := ∀ t, o = .next t → t.memWf = true

theorem keepsMem_next {s : State} (h : s.memWf = true) : keepsMem (.next s) := by
  intro t ht; cases ht; exact h

/-- The end of an instruction keeps memory when its effect does. -/
theorem keepsMem_finish {s : State} {r : Res State} (h : s.memWf = true)
    (hr : ∀ t, r = .ok t → t.memWf = true) : keepsMem (finish s r) := by
  cases r with
  | ok t => exact keepsMem_next (hr t rfl)
  | error e => exact keepsMem_next (State.memWf_stopBy _ e h)

/-- An instruction with a predicate keeps memory when its effect does. -/
theorem keepsMem_governed {s : State} {pg : Pg} {len : Nat} {body : State → Res State} (h : s.memWf = true)
    (hb : ∀ t, body s = .ok t → t.memWf = true) : keepsMem (governed pg len body s) := by
  unfold governed
  split
  · exact keepsMem_next (State.memWf_takeTrap _ _ h)
  split
  · apply keepsMem_finish h
    intro t ht
    cases hbs : body s with
    | error e => rw [hbs] at ht; cases ht
    | ok u => rw [hbs] at ht; cases ht; exact State.memWf_retireBy _ _ (hb u hbs)
  · exact keepsMem_next (State.memWf_retireBy _ _ h)

theorem keepsMem_governedJump {s : State} {pg : Pg} {len : Nat} {body : State → Res State} (h : s.memWf = true)
    (hb : ∀ t, body s = .ok t → t.memWf = true) : keepsMem (governedJump pg len body s) := by
  unfold governedJump
  split
  · exact keepsMem_next (State.memWf_takeTrap _ _ h)
  split
  · exact keepsMem_finish h hb
  · exact keepsMem_next (State.memWf_retireBy _ _ h)

end Sys2Proof.Machine
end

