-- ==== Sys2Proof/Laws/Ops.lean ====
section
/-! SUPPORT. What the shared operations do: the registers of an agent after an update of any agent, bytes that an update
leaves, and the ends of an instruction (R30, R46, R49, R54, R239). -/
-- The theorems of this file are checked one after another: in parallel they ask for more memory than a check has.
set_option Elab.async false
namespace Sys2Proof.Machine

/-! ### Cells, conductors and agents -/

@[simp] theorem State.cell_setCell_same (s : State) (p : Nat) (x : Cell) : (s.setCell p x).cell p = x := by
  simp [State.cell, State.setCell]

theorem State.cell_setCell_other (s : State) {p q : Nat} (x : Cell) (h : q ≠ p) : (s.setCell p x).cell q = s.cell q := by
  simp [State.cell, State.setCell, tget_tset_other _ _ _ h]

@[simp] theorem State.cell_setCond (s : State) (k p : Nat) (x : Cond) : (s.setCond k x).cell p = s.cell p := rfl

@[simp] theorem State.cond_setCond_same (s : State) (k : Nat) (x : Cond) : (s.setCond k x).cond k = x := by
  simp [State.cond, State.setCond]

theorem State.cond_setCond_other (s : State) {k j : Nat} (x : Cond) (h : j ≠ k) : (s.setCond k x).cond j = s.cond j := by
  simp [State.cond, State.setCond, tget_tset_other _ _ _ h]

@[simp] theorem State.cond_setCell (s : State) (k p : Nat) (x : Cell) : (s.setCell p x).cond k = s.cond k := rfl

/-- An agent's registers as they were set. -/
@[simp] theorem State.hart_setHart_same (s : State) (a : AgentId) (h : Hart) : (s.setHart a h).hart a = h := by
  cases a with
  | ctx p c => simp [State.hart, State.setHart]
  | cond k => simp [State.hart, State.setHart]

/-- Setting one agent's registers leaves every other agent's. -/
theorem State.hart_setHart_other (s : State) {a b : AgentId} (h : Hart) (hab : b ≠ a) :
    (s.setHart a h).hart b = s.hart b := by
  cases a with
  | ctx p c =>
    cases b with
    | ctx q d =>
      by_cases hq : q = p
      · subst hq
        have hd : c ≠ d := fun e => hab (by rw [e])
        simp [State.hart, State.setHart, Fin.val_ne_of_ne hd]
      · simp [State.hart, State.setHart, State.cell_setCell_other s _ hq]
    | cond k => rfl
  | cond k =>
    cases b with
    | ctx q d => rfl
    | cond j =>
      have hj : j ≠ k := fun e => hab (by rw [e])
      simp [State.hart, State.setHart, State.cond_setCond_other s _ hj]

@[simp] theorem State.hart_modHart_same (s : State) (a : AgentId) (f : Hart → Hart) :
    (s.modHart a f).hart a = f (s.hart a) := by
  simp [State.modHart]

theorem State.hart_modHart_other (s : State) {a b : AgentId} (f : Hart → Hart) (hab : b ≠ a) :
    (s.modHart a f).hart b = s.hart b := by
  simp [State.modHart, State.hart_setHart_other s _ hab]

/-- Writing the registers an agent holds changes nothing but the table that lists them. -/
theorem State.hart_setHart (s : State) (a b : AgentId) (h : Hart) :
    (s.setHart a h).hart b = if b = a then h else s.hart b := by
  by_cases hb : b = a
  · subst hb; simp
  · simp [hb, State.hart_setHart_other s h hb]

/-! ### Bytes -/

/-- A cell whose store stays leaves every byte. -/
theorem State.getByte_setCell (s : State) (p : Nat) (x : Cell) (h : x.store = (s.cell p).store) (y : Place) :
    (s.setCell p x).getByte y = s.getByte y := by
  cases y with
  | store q o =>
    by_cases hq : q = p
    · subst hq; simp [State.getByte, h]
    · simp [State.getByte, State.cell_setCell_other s x hq]
  | _ => rfl

@[simp] theorem State.getByte_setCond (s : State) (k : Nat) (x : Cond) (y : Place) :
    (s.setCond k x).getByte y = s.getByte y := by
  cases y <;> rfl

@[simp] theorem State.getByte_setHart (s : State) (a : AgentId) (h : Hart) (y : Place) :
    (s.setHart a h).getByte y = s.getByte y := by
  cases a with
  | ctx p c => exact State.getByte_setCell s p { s.cell p with ctx := (s.cell p).ctx.set c h } rfl y
  | cond k => exact State.getByte_setCond s k _ y

@[simp] theorem State.getByte_modHart (s : State) (a : AgentId) (f : Hart → Hart) (y : Place) :
    (s.modHart a f).getByte y = s.getByte y := by
  simp [State.modHart]

@[simp] theorem State.getByte_modRegion (s : State) (q : Nat) (f : Region → Region) (y : Place) :
    (s.modRegion q f).getByte y = s.getByte y := by
  unfold State.modRegion
  split
  · cases y <;> rfl
  · rfl

@[simp] theorem State.getByte_modXlat (s : State) (c : Nat) (f : Xlat → Xlat) (y : Place) :
    (s.modXlat c f).getByte y = s.getByte y := by
  cases y <;> rfl

/-- A byte written is read back. -/
theorem State.getByte_putByte_same (s : State) (b : Byte) (p : Place) (h : s.memWf = true) : (s.putByte b p).getByte p = b := by
  rw [State.memWf_iff] at h
  obtain ⟨hb, hs, hh, hp, hl, hc, hi⟩ := h
  cases p with
  | store q o =>
    simp only [State.getByte, State.putByte, State.modCell, State.cell_setCell_same]
    exact Memory.get_set_same _ _ _ (State.memWf_cell (by rw [State.memWf_iff]; exact ⟨hb, hs, hh, hp, hl, hc, hi⟩) q)
  | bulk a => exact Memory.get_set_same _ _ _ hb
  | seam a => exact Memory.get_set_same _ _ _ hs
  | host a => exact Memory.get_set_same _ _ _ hh
  | peer q i o => exact Memory.get_set_same _ _ _ hp
  | lode g a =>
    simp only [State.getByte, State.putByte, Vector.getElem_set_self]
    exact Memory.get_set_same _ _ _ (State.memWf_lode (by rw [State.memWf_iff]; exact ⟨hb, hs, hh, hp, hl, hc, hi⟩) _ (Nat.mod_lt _ (by decide)))

/-! ### The ends of an instruction -/

@[simp] theorem finish_ok (s t : State) : finish s (.ok t) = .next t := rfl
@[simp] theorem finish_error (s : State) (e : Stop) : finish s (.error e) = .next (s.stopBy s.cur e) := rfl

/-- All that a predicated instruction can do: its predicate traps, it is skipped, its effect happens and it retires, or it is
stopped. -/
theorem governed_cases (pg : Pg) (len : Nat) (body : State → Res State) (s : State) :
    (s.hart s.cur).badPred pg = true ∧ governed pg len body s = .next (s.takeTrap s.cur (regTrap 3 pg.val)) ∨
    (s.hart s.cur).badPred pg = false ∧
      ((s.hart s.cur).pred pg = false ∧ governed pg len body s = .next (s.retireBy s.cur len) ∨
      (s.hart s.cur).pred pg = true ∧ (∃ t, body s = .ok t ∧ governed pg len body s = .next (t.retireBy s.cur len)) ∨
      (s.hart s.cur).pred pg = true ∧ (∃ e, body s = .error e ∧ governed pg len body s = .next (s.stopBy s.cur e))) := by
  unfold governed
  cases hq : (s.hart s.cur).badPred pg with
  | true => exact .inl ⟨rfl, rfl⟩
  | false =>
    refine .inr ⟨rfl, ?_⟩
    cases hp : (s.hart s.cur).pred pg with
    | false => exact .inl ⟨rfl, by simp⟩
    | true =>
      cases hb : body s with
      | ok t => exact .inr (.inl ⟨rfl, t, rfl, by simp [Except.map]⟩)
      | error e => exact .inr (.inr ⟨rfl, e, rfl, by simp [Except.map]⟩)

theorem governed_trap {pg : Pg} {len : Nat} {body : State → Res State} {s : State} (h : (s.hart s.cur).badPred pg = true) :
    governed pg len body s = .next (s.takeTrap s.cur (regTrap 3 pg.val)) := by
  simp [governed, h]

theorem governed_skip {pg : Pg} {len : Nat} {body : State → Res State} {s : State} (hb : (s.hart s.cur).badPred pg = false)
    (h : (s.hart s.cur).pred pg = false) : governed pg len body s = .next (s.retireBy s.cur len) := by
  simp [governed, h, hb]

theorem governed_ok {pg : Pg} {len : Nat} {body : State → Res State} {s t : State} (hq : (s.hart s.cur).badPred pg = false)
    (h : (s.hart s.cur).pred pg = true) (hb : body s = .ok t) :
    governed pg len body s = .next (t.retireBy s.cur len) := by
  simp [governed, h, hb, hq, Except.map]

theorem governed_stop {pg : Pg} {len : Nat} {body : State → Res State} {s : State} {e : Stop}
    (hq : (s.hart s.cur).badPred pg = false) (h : (s.hart s.cur).pred pg = true) (hb : body s = .error e) :
    governed pg len body s = .next (s.stopBy s.cur e) := by
  simp [governed, h, hb, hq, Except.map]

theorem governedJump_ok {pg : Pg} {len : Nat} {body : State → Res State} {s t : State}
    (hq : (s.hart s.cur).badPred pg = false) (h : (s.hart s.cur).pred pg = true) (hb : body s = .ok t) :
    governedJump pg len body s = .next t := by
  simp [governedJump, h, hb, hq]

theorem governedJump_stop {pg : Pg} {len : Nat} {body : State → Res State} {s : State} {e : Stop}
    (hq : (s.hart s.cur).badPred pg = false) (h : (s.hart s.cur).pred pg = true) (hb : body s = .error e) :
    governedJump pg len body s = .next (s.stopBy s.cur e) := by
  simp [governedJump, h, hb, hq]

/-- Every answer of a governed instruction is a next state. -/
theorem governed_next (pg : Pg) (len : Nat) (body : State → Res State) (s : State) :
    ∃ t, governed pg len body s = .next t := by
  rcases governed_cases pg len body s with ⟨_, h⟩ | ⟨_, ⟨_, h⟩ | ⟨_, t, _, h⟩ | ⟨_, e, _, h⟩⟩
  · exact ⟨_, h⟩
  · exact ⟨_, h⟩
  · exact ⟨_, h⟩
  · exact ⟨_, h⟩

theorem governedJump_next (pg : Pg) (len : Nat) (body : State → Res State) (s : State) :
    ∃ t, governedJump pg len body s = .next t := by
  unfold governedJump finish
  split
  · exact ⟨_, rfl⟩
  split
  · split <;> exact ⟨_, rfl⟩
  · exact ⟨_, rfl⟩

/-- What a hold leaves: the agent's registers with the note of the hold. -/
@[simp] theorem State.hart_holdBy (s : State) (a : AgentId) (x : Hold) :
    (s.holdBy a x).hart a = { s.hart a with hold := some x } := by
  simp [State.holdBy]

@[simp] theorem State.hart_retireBy (s : State) (a : AgentId) (len : Nat) :
    (s.retireBy a len).hart a = (s.hart a).retired a len := by
  simp [State.retireBy]

@[simp] theorem State.getByte_retireBy (s : State) (a : AgentId) (len : Nat) (y : Place) :
    (s.retireBy a len).getByte y = s.getByte y := by
  simp [State.retireBy]

@[simp] theorem State.getByte_holdBy (s : State) (a : AgentId) (x : Hold) (y : Place) :
    (s.holdBy a x).getByte y = s.getByte y := by
  simp [State.holdBy]

/-- An instruction out of a repeat unit moves the pc by its length. -/
theorem Hart.retired_pc {h : Hart} (a : AgentId) (len : Nat) (hr : h.rep = false) :
    (h.retired a len).pc = h.pc + dwn len := by
  simp [Hart.retired, hr]

end Sys2Proof.Machine
end

