-- ==== Sys2Proof/Tests/Slice0.lean ====
section
/-! SUPPORT. Tests: ill-formed terms are refused, words decode, worked examples of spec/ come out, and every statement's
hypotheses are met by a small state. -/
-- The theorems of this file are checked one after another: in parallel they ask for more memory than a check has.
set_option Elab.async false
open Sys2Proof Sys2Proof.Machine Sys2Proof.Claim

/-! ### Decoding -/

namespace Sys2Proof.Tests

/-- The decoder reads this well-formed instruction. -/
def reads (r : Dec Instr) (i : Instr) : Bool :=
  match r with
  | .ok j => decide (j = i) && i.wf
  | .error _ => false

/-- The decoder refuses for this reason. -/
def refuses (r : Dec Instr) (e : DecodeErr) : Bool :=
  match r with
  | .ok _ => false
  | .error f => decide (f = e)

end Sys2Proof.Tests
open Sys2Proof.Tests

/-- Match and field positions of spec/opcode_table.json, written out bit by bit. -/
theorem test_decode_alu : ([
  (0x05E5A000, .add (.reg 15) (.reg 5) (.reg 20) 0), (0x07D8180D, .sub (.port 6) (.port 0) (.reg 3) 5),
    (0x0411E811, .and (.reg 0) (.reg 17) (.port 5) 1), (0x059A781C, .or (.reg 12) (.port 2) (.reg 15) 4),
    (0x07A5C020, .xor (.port 5) (.reg 5) (.port 0) 0), (0x07ED9829, .andn (.port 7) (.reg 13) (.reg 19) 1),
    (0x07A07033, .shl (.port 5) (.reg 0) (.reg 14) 3), (0x0628D039, .shr (.reg 17) (.reg 8) (.port 2) 1),
    (0x065B7841, .sra (.reg 18) (.port 3) (.reg 15) 1), (0x06A7E84A, .rot (.reg 21) (.reg 7) (.port 5) 2),
    (0x05862850, .addw (.reg 12) (.reg 6) (.reg 5) 0), (0x07FCC85D, .subw (.port 7) (.port 4) (.port 1) 5),
    (0x076B7866, .shlw (.port 3) (.reg 11) (.reg 15) 6), (0x07EA7069, .shrw (.port 7) (.reg 10) (.reg 14) 1),
    (0x0720B073, .sraw (.port 1) (.reg 0) (.reg 22) 3), (0x0542487A, .mul (.reg 10) (.reg 2) (.reg 9) 2),
    (0x0499D084, .mulh (.reg 4) (.port 1) (.port 2) 4), (0x0519908D, .mulhu (.reg 8) (.port 1) (.reg 18) 5),
    (0x04EAA892, .mulw (.reg 7) (.reg 10) (.reg 21) 2), (0x06A8A89D, .div (.reg 21) (.reg 8) (.reg 21) 5),
    (0x072028A0, .divu (.port 1) (.reg 0) (.reg 5) 0), (0x046260A9, .rem (.reg 3) (.reg 2) (.reg 12) 1),
    (0x0760A8B7, .remu (.port 3) (.reg 0) (.reg 21) 7), (0x06A090BA, .min (.reg 21) (.reg 0) (.reg 18) 2),
    (0x06B598C3, .max (.reg 21) (.reg 21) (.reg 19) 3), (0x04A748C8, .minu (.reg 5) (.reg 7) (.reg 9) 0),
    (0x053598D6, .maxu (.reg 9) (.reg 21) (.reg 19) 6), (0x04DF28DC, .slt (.reg 6) (.port 7) (.reg 5) 4),
    (0x05B4D0E4, .sltu (.reg 13) (.reg 20) (.port 2) 4), (0x043D28EF, .seq (.reg 1) (.port 5) (.reg 5) 7),
    (0x049700F5, .clz (.reg 4) (.reg 23) 5), (0x05A400FB, .popc (.reg 13) (.reg 4) 3),
    (0x04D90107, .brev (.reg 6) (.port 1) 7)] : List (Nat × Instr)).all (fun e => reads (decode .cell true e.1 0 0 0) e.2) = true := by decide

/-- Match and field positions of spec/opcode_table.json, written out bit by bit. -/
theorem test_decode_immediates : ([
  (0x0B9D5C65, .addi (.port 4) (.port 5) 0xb8c 5), (0x0DA79EEC, .andi (.reg 13) (.reg 7) 0x13dd 4),
    (0x10C6A2BE, .ori (.reg 6) (.reg 6) 0x1457 6), (0x16D2B169, .xori (.reg 22) (.reg 18) 0x162d 1),
    (0x19E30049, .shli (.reg 15) (.reg 3) 9 1), (0x1F1B01A3, .shri (.port 0) (.port 3) 0x34 3),
    (0x237901A3, .srai (.port 3) (.port 1) 0x34 3), (0x24DFCB3E, .slti (.reg 6) (.port 7) 0x1967 6),
    (0x2BAC7167, .sltiu (.port 5) (.reg 12) 0xe2c 7), (0x2CA7A3CC, .lui (.reg 5) 0x7a3cc),
    (0x3374F66D, .lih (.port 3) 0x14f66d), (0x375C3E3C, .auipc (.port 2) 0x1c3e3c)] : List (Nat × Instr)).all (fun e => reads (decode .cell true e.1 0 0 0) e.2) = true := by decide

/-- Match and field positions of spec/opcode_table.json, written out bit by bit. -/
theorem test_decode_predicates : ([
  (0x3BE0D000, .peq (.port 7) (.reg 0) (.port 2) 0), (0x38C6880F, .pne (.reg 6) (.reg 6) (.reg 17) 7),
    (0x38A98013, .plt (.reg 5) (.reg 9) (.reg 16) 3), (0x38A2B01A, .pge (.reg 5) (.reg 2) (.reg 22) 2),
    (0x38DA4022, .pltu (.reg 6) (.port 2) (.reg 8) 2), (0x3B1D502D, .pgeu (.port 0) (.port 5) (.reg 10) 5),
    (0x38821837, .pand (.reg 4) (.reg 2) (.reg 3) 7), (0x3B81103A, .por (.port 4) (.reg 1) (.reg 2) 2),
    (0x38DAC845, .pxor (.reg 6) (.port 2) (.port 1) 5), (0x3B390048, .pnot (.port 1) (.port 1) 0),
    (0x38E50056, .pmany (.reg 7) (.reg 5) 6), (0x38BD005D, .mset (.reg 5) (.port 5) 5),
    (0x39230063, .mget (.reg 9) (.reg 3) 3), (0x3BFF006C, .mnot (.port 7) (.port 7) 4)] : List (Nat × Instr)).all (fun e => reads (decode .cell true e.1 0 0 0) e.2) = true := by decide

/-- Match and field positions of spec/opcode_table.json, written out bit by bit. -/
theorem test_decode_csrs_branches_and_jumps : ([
  (0x3C6A11AC, .csrrw (.reg 3) (.reg 10) 0x235 4), (0x40D1534C, .csrrs (.reg 6) (.reg 17) 0xa69 4),
    (0x46DF135F, .csrrc (.reg 22) (.port 7) 0x26b 7), (0x4A90504D, .beq (.reg 20) (.reg 16) 0x504d),
    (0x4DF3CC3C, .bne (.reg 15) (.reg 19) 0xcc3c), (0x511E2D3F, .blt (.reg 8) (.port 6) 0x2d3f),
    (0x541F4997, .bge (.reg 0) (.port 7) 0x4997), (0x5982F0F8, .bltu (.reg 12) (.reg 2) 0xf0f8),
    (0x5C6DF9E9, .bgeu (.reg 3) (.reg 13) 0xf9e9), (0x6067FD7F, .jal 0x67fd7f),
    (0x669A3316, .jalr (.reg 20) (.port 2) 0x662 6), (0x6A51B000, .rep 0x25 0 1 2 3)] : List (Nat × Instr)).all (fun e => reads (decode .cell true e.1 0 0 0) e.2) = true := by decide

/-- Match and field positions of spec/opcode_table.json, written out bit by bit. -/
theorem test_decode_sys : ([
  (0x6C000004, .nop 4), (0x6C0A0008, .trap (.reg 10) 0), (0x6C000013, .rett 3), (0x6C00001C, .ends 4),
    (0x6C000022, .fence .ctx 2), (0x6C000029, .bar 1), (0x6C000032, .wfa 2), (0x6C000039, .yield 1)] : List (Nat × Instr)).all (fun e => reads (decode .cell true e.1 0 0 0) e.2) = true := by decide

/-- Match and field positions of spec/opcode_table.json, written out bit by bit. -/
theorem test_decode_halt : ([
  (0x6C000042, .halt 2)] : List (Nat × Instr)).all (fun e => reads (decode .cond true e.1 0 0 0) e.2) = true := by decide

/-- Match and field positions of spec/opcode_table.json, written out bit by bit. -/
theorem test_decode_loads_and_stores : ([
  (0x716B1A44, .ldB (.reg 11) (.reg 11) 0x69 4), (0x70614DCC, .ldBu (.reg 3) (.reg 1) 0x137 4),
    (0x70BBC216, .ldH (.reg 5) (.port 3) 0x308 6), (0x706E901A, .ldHu (.reg 3) (.reg 14) 0x240 2),
    (0x71320B25, .ldW (.reg 9) (.reg 18) 0x2c 5), (0x730CE9EF, .ldWu (.port 0) (.reg 12) 0x3a7 7),
    (0x717D2E36, .ldD (.reg 11) (.port 5) 0xb8 6), (0x7788CC41, .stB (.port 4) (.reg 8) 0x331 1),
    (0x77D71454, .stH (.port 6) (.reg 23) 0x51 4), (0x7686D8A2, .stW (.reg 20) (.reg 6) 0x362 2),
    (0x771E56F5, .stD (.port 0) (.port 6) 0x15b 5), (0x7A6ADF86, .ldaA4 (.reg 19) (.reg 10) 0x37e 6),
    (0x7B7C3E4B, .ldaA32 (.port 3) (.port 4) 0xf9 3), (0x7DDFE203, .staA4 (.reg 14) (.port 7) 0x388 3),
    (0x7F65C40B, .staA32 (.port 3) (.reg 5) 0x310 3), (0x82431143, .ldwFp32 (.reg 18) (.reg 3) 0x45 3),
    (0x83C79149, .ldwBf16 (.port 6) (.reg 7) 0x245 1), (0x8407CE43, .stwFp32 (.reg 0) (.reg 7) 0x339 3),
    (0x85C4FE48, .stwBf16 (.reg 14) (.reg 4) 0x3f9 0), (0x88F2AA07, .ldfW (.reg 7) (.reg 18) 0x2a8 7),
    (0x8B1114CD, .ldfD (.port 0) (.reg 17) 0x53 5), (0x89376553, .ldfDc (.reg 9) (.reg 23) 0x195 3),
    (0x8C0A8D44, .stfW (.reg 0) (.reg 10) 0x235 4), (0x8E71F14A, .stfD (.reg 19) (.reg 17) 0x3c5 2)] : List (Nat × Instr)).all (fun e => reads (decode .cell true e.1 0 0 0) e.2) = true := by decide

/-- Match and field positions of spec/opcode_table.json, written out bit by bit. -/
theorem test_decode_atomics_and_semaphores : ([
  (0x903BC805, .amoAdd (.reg 1) (.port 3) (.port 1) 5), (0x923C2808, .amoMin (.reg 17) (.port 4) (.reg 5) 0),
    (0x92FF7811, .amoMax (.reg 23) (.port 7) (.reg 15) 1), (0x91D1C01B, .amoMinu (.reg 14) (.reg 17) (.port 0) 3),
    (0x91989026, .amoMaxu (.reg 12) (.port 0) (.reg 18) 6), (0x9342702A, .amoAnd (.port 2) (.reg 2) (.reg 14) 2),
    (0x903BE834, .amoOr (.reg 1) (.port 3) (.port 5) 4), (0x9088183E, .amoXor (.reg 4) (.reg 8) (.reg 3) 6),
    (0x93D3F840, .amoSwap (.port 6) (.reg 19) (.port 7) 0), (0x94123003, .amonAdd (.reg 18) (.reg 6) 3),
    (0x9407280A, .amonMin (.reg 7) (.reg 5) 2), (0x9413D016, .amonMax (.reg 19) (.port 2) 6),
    (0x940BC81B, .amonMinu (.reg 11) (.port 1) 3), (0x940E0020, .amonMaxu (.reg 14) (.reg 0) 0),
    (0x941B582D, .amonAnd (.port 3) (.reg 11) 5), (0x94019834, .amonOr (.reg 1) (.reg 19) 4),
    (0x9416F03D, .amonXor (.reg 22) (.port 6) 5), (0x9BD6E301, .cas (.port 6) (.reg 22) (.port 4) (.reg 12) 1),
    (0x9C0B04EA, .semw 0x9d (.reg 11) 2), (0x9C1E20E2, .sems 0x1c (.port 6) 2), (0x9F004293, .semr (.port 0) 0x52 3),
    (0xA014195A, .fset (.reg 20) 0x32b 2), (0xA01D3622, .fclr (.port 5) 0x2c4 2),
    (0xA1A95358, .ftst (.reg 13) (.reg 9) 0x26b 0)] : List (Nat × Instr)).all (fun e => reads (decode .cell true e.1 0 0 0) e.2) = true := by decide

/-- Match and field positions of spec/opcode_table.json, written out bit by bit. -/
theorem test_decode_ports : ([
  (0xA63F0004, .mkpop (.reg 17) 7 4), (0xA7FD000B, .spos (.port 7) 5 3), (0xA41AB013, .sskip 2 22 3),
    (0xA41A001B, .srst 2 3), (0xA67D0025, .socc (.reg 19) 5 5), (0xA57AF82C, .sisect 11 2 7 4),
    (0xA51C0035, .sacc 8 4 5), (0xA49E003C, .saccx 4 6 4), (0xAB600DCB, .bmk 3 0 0xdcb)] : List (Nat × Instr)).all (fun e => reads (decode .cell true e.1 0 0 0) e.2) = true := by decide

/-- Match and field positions of spec/opcode_table.json, written out bit by bit. -/
theorem test_decode_atoms : ([
  (0xADB90001, .dec (.reg 13) (.port 1) 1), (0xAFF6000C, .encA4 (.port 7) (.reg 22) 4),
    (0xAC510011, .encA32 (.reg 2) (.reg 17) 1), (0xAEE1E01A, .enctA4 (.reg 23) (.reg 1) (.port 4) 2),
    (0xACB61022, .enctA32 (.reg 5) (.reg 22) (.reg 2) 2), (0xACBBC029, .aaddA4 (.reg 5) (.port 3) (.port 0) 1),
    (0xAF5AE831, .aaddA32 (.port 2) (.port 2) (.port 5) 1), (0xAD1E203E, .asubA4 (.reg 8) (.port 6) (.reg 4) 6),
    (0xAC4D1844, .asubA32 (.reg 2) (.reg 13) (.reg 3) 4), (0xAF490049, .arelu (.port 2) (.reg 9) 1),
    (0xAFCFC056, .amsk (.port 6) (.reg 15) (.port 0) 6), (0xAF5E005E, .aneg (.port 2) (.port 6) 6),
    (0xAF5F8860, .ascl (.port 2) (.port 7) (.reg 17) 0), (0xAFE1C069, .adot (.port 7) (.reg 1) (.port 0) 1),
    (0xAE1A0077, .amov (.reg 16) (.port 2) 7), (0xAC04B878, .aget (.reg 0) (.reg 4) (.reg 23) 0),
    (0xACEEF087, .aset (.reg 7) (.reg 14) (.port 6) 7), (0xAF99008B, .acvtA4 (.port 4) (.port 1) 3),
    (0xAF12088B, .acvtA32 (.port 0) (.reg 18) 3)] : List (Nat × Instr)).all (fun e => reads (decode .cell true e.1 0 0 0) e.2) = true := by decide

/-- Match and field positions of spec/opcode_table.json, written out bit by bit. -/
theorem test_decode_wide : ([
  (0xB2554806, .wadd (.reg 18) (.reg 21) (.reg 9) 6), (0xB0FA480A, .wsub (.reg 7) (.port 2) (.reg 9) 2),
    (0xB27CB817, .wmul (.reg 19) (.port 4) (.reg 23) 7), (0xB0546819, .wmin (.reg 2) (.reg 20) (.reg 13) 1),
    (0xB2DE1825, .wmax (.reg 22) (.port 6) (.reg 3) 5), (0xB25A002C, .wabs (.reg 18) (.port 2) 4),
    (0xB3650036, .wneg (.port 3) (.reg 5) 6), (0xB205003E, .wrcp (.reg 16) (.reg 5) 6),
    (0xB1160046, .wrsq (.reg 8) (.reg 22) 6), (0xB17F004D, .wsqrt (.reg 11) (.port 7) 5),
    (0xB2400050, .wexp2 (.reg 18) (.reg 0) 0), (0xB17B0058, .wlog2 (.reg 11) (.port 3) 0),
    (0xB050C862, .wcmpeq (.reg 2) (.reg 16) (.port 1) 2), (0xB0184068, .wcmplt (.reg 0) (.port 0) (.reg 8) 0),
    (0xB0CF8871, .wcmple (.reg 6) (.reg 15) (.reg 17) 1), (0xB2FA007A, .wredsum (.reg 23) (.port 2) 2),
    (0xB1C60084, .wredmax (.reg 14) (.reg 6) 4), (0xB334008E, .wredmin (.port 1) (.reg 20) 6),
    (0xB2DD0090, .wbcst (.reg 22) (.port 5) 0), (0xB07E109D, .wins (.reg 3) (.port 6) (.reg 2) 5),
    (0xB1D670A4, .wext (.reg 14) (.reg 22) (.reg 14) 4), (0xB25EF8AF, .wshuf (.reg 18) (.port 6) (.port 7) 7),
    (0xB2FF00B2, .wcvtfi (.reg 23) (.port 7) 2), (0xB35400B8, .wcvtif (.port 2) (.reg 20) 0),
    (0xB08A00C4, .wcvtbf (.reg 4) (.reg 10) 4), (0xB26900CC, .wcvtfb (.reg 19) (.reg 9) 4),
    (0xB19A00D1, .wmov (.reg 12) (.port 2) 1), (0xB5596746, .wfma (.reg 10) (.port 1) (.reg 12) (.port 5) 6),
    (0xB7B876C8, .wfms (.port 5) (.port 0) (.reg 14) (.port 3) 0),
    (0xB621E753, .wfnma (.reg 17) (.reg 1) (.port 4) (.port 5) 3),
    (0xB437789C, .wsel (.reg 1) (.reg 23) (.reg 15) (.reg 2) 4)] : List (Nat × Instr)).all (fun e => reads (decode .cell true e.1 0 0 0) e.2) = true := by decide

/-- Match and field positions of spec/opcode_table.json, written out bit by bit. -/
theorem test_decode_array : ([
  (0xB946EA06, .mmaA4a4 2 2 (.reg 6) (.port 5) (.reg 8) 6),
    (0xB9AFC94F, .mmaA4a32 1 3 (.reg 15) (.port 1) (.reg 5) 7),
    (0xB8B93413, .mmaA32a32 1 1 (.port 1) (.reg 6) (.reg 16) 3),
    (0xB94CD81F, .mmacsrA4 2 2 (.reg 12) (.port 3) (.reg 0) 7),
    (0xB8B73EE2, .mmacsrA32 1 1 (.reg 23) (.reg 7) (.port 3) 2),
    (0xB9F696AD, .mmagA4 3 3 (.reg 22) (.reg 18) (.port 2) 5),
    (0xB87A7E76, .mmagA32 3 0 (.port 2) (.reg 15) (.port 1) 6), (0xBCC00006, .mzero 2 1 6),
    (0xBF04F008, .mrd (.port 0) 0 1 (.port 6) 0), (0xBC3D7011, .mwr 1 0 (.port 5) (.reg 14) 1),
    (0xBDE6C81E, .mstF32 3 3 (.reg 6) (.port 1) 6), (0xBCEC8821, .mstA4 3 1 (.reg 12) (.reg 17) 1),
    (0xBCB4082C, .mstA32 1 1 (.reg 20) (.reg 1) 4), (0xBC800037, .mwait 1 7), (0xBC0E003B, .mbudget (.reg 14) 3),
    (0xBDA00041, .mstat (.reg 13) 1)] : List (Nat × Instr)).all (fun e => reads (decode .cell true e.1 0 0 0) e.2) = true := by decide

/-- Worked encodings of long commands (spec/03 R62, spec/07, spec/10, spec/13, spec/15, spec/17, spec/22); reduce, gather, scatter,
seamw and spatr from the layouts of R52, R61, R72 and R181. -/
theorem test_decode_long_commands : ([
  ((0xFC000000, 0x81800100, 0x84808000, 0), .nopl ⟨some ⟨3, 2⟩, some ⟨9, 1⟩⟩ 0),
  ((0xFC408530, 0, 0x81008000, 0), .copy (.reg 4) (.reg 5) (.reg 6) 0 ⟨none, some ⟨2, 1⟩⟩ 0),
  ((0xFC44E040, 0, 0x80808000, 0), .fill (.reg 7) (.reg 0) (.reg 8) 0 ⟨none, some ⟨1, 1⟩⟩ 0),
  ((0xFC488A30, 0x80800880, 0x00000020, 0), .fprint (.reg 4) (.reg 10) (.reg 6) true ⟨some ⟨1, 17⟩, none⟩ 0),
  ((0xFC4E74A8, 0, 0x81808000, 0xF00), .cmpr (.reg 19) (.reg 20) (.reg 21) false 3840 ⟨none, some ⟨3, 1⟩⟩ 0),
  ((0xFC50A641, 0, 0x0000009B, 0x11), .gather (.reg 5) (.reg 6) (.reg 8) 0x1B 2 17 ⟨none, none⟩ 1),
  ((0xFC56ED02, 0, 0x000001E0, 0x12), .scatter (.reg 23) (.reg 13) (.reg 0) true 7 18 ⟨none, none⟩ 2),
  ((0xFC588530, 0, 3, 0x1234), .rcopy (.reg 4) (.reg 5) (.reg 6) 3 false 0x1234 ⟨none, none⟩ 0),
  ((0xFC58E208, 0, 0x8080800A, 0x7C31), .rcopy (.reg 7) (.reg 2) (.reg 1) 2 true 0x7C31 ⟨none, some ⟨1, 1⟩⟩ 0),
  ((0xFC5C221B, 0, 0x00000095, 0), .reduce (.reg 1) (.reg 2) (.reg 3) 0x15 2 ⟨none, none⟩ 3),
  ((0xFC60221C, 0, 0, 0), .seamw (.reg 1) (.reg 2) (.reg 3) ⟨none, none⟩ 4),
  ((0xFC644000, 0, 0x83808001, 0), .xmap (.reg 2) true ⟨none, some ⟨7, 1⟩⟩ 0),
  ((0xFC654000, 0, 0x80808000, 0), .xmap (.reg 10) false ⟨none, some ⟨1, 1⟩⟩ 0),
  ((0xFC80C800, 0, 0x82008000, 0), .clause (.reg 6) (.reg 8) ⟨none, some ⟨4, 1⟩⟩ 0),
  ((0xFC852000, 0x82000080, 0, 0), .cwait (.reg 9) ⟨some ⟨4, 1⟩, none⟩ 0),
  ((0xFC888000, 0, 0, 0), .rolemap (.reg 4) ⟨none, none⟩ 0),
  ((0xFCC12000, 0x81800080, 0x82008000, 0), .attn (.reg 9) ⟨some ⟨3, 1⟩, some ⟨4, 1⟩⟩ 0),
  ((0xFCC5A000, 0x81000180, 0x81008000, 0), .lfork (.reg 13) ⟨some ⟨2, 3⟩, some ⟨2, 1⟩⟩ 0),
  ((0xFCC94B60, 0x81000200, 0x81008000, 0), .lapp (.reg 10) (.reg 11) (.reg 12) ⟨some ⟨2, 4⟩, some ⟨2, 1⟩⟩ 0),
  ((0xFCCC8530, 0, 0, 0), .lput (.reg 4) (.reg 5) (.reg 6) ⟨none, none⟩ 0),
  ((0xFCD08530, 0, 0x10, 0), .lget (.reg 4) (.reg 5) (.reg 6) 0x10 ⟨none, none⟩ 0),
  ((0xFCD532B0, 0, 0x81008001, 0), .lshare (.reg 9) (.reg 18) (.reg 22) true ⟨none, some ⟨2, 1⟩⟩ 0),
  ((0xFCD88000, 0, 0, 0), .lrel (.reg 4) ⟨none, none⟩ 0),
  ((0xFCDC8000, 0, 0, 0), .linv (.reg 4) false ⟨none, none⟩ 0),
  ((0xFC04A400, 0, 0, 0), .spat (.reg 5) (.reg 4) (.reg 0) 0 0 ⟨none, none⟩ 0),
  ((0xFC08A400, 0, 0, 0), .spatr (.reg 5) (.reg 4) ⟨none, none⟩ 0)] : List ((Nat × Nat × Nat × Nat) × Instr)).all (fun e =>
    reads (decode .cond true e.1.1 e.1.2.1 e.1.2.2.1 e.1.2.2.2) e.2) = true := by decide

/-- A cell's long commands (spec/07, spec/11 R225). -/
theorem test_decode_cell_patterns :
    reads (decode .cell true 0xFC072218 0 0xD2 64) (.spat (.port 1) (.reg 2) (.reg 3) 0xD2 64 ⟨none, none⟩ 0) = true ∧
    reads (decode .cell true 0xFC076638 0 0xD3 16) (.spat (.port 3) (.reg 6) (.reg 7) 0xD3 16 ⟨none, none⟩ 0) = true ∧
    reads (decode .cell true 0xFC0B6600 0 0 0) (.spatr (.port 3) (.reg 6) ⟨none, none⟩ 0) = true ∧
    reads (decode .cell true 0xFC000000 0 0 0) (.nopl ⟨none, none⟩ 0) = true := by decide

/-- One word for each check of R73, each also failing a later one where it can. -/
theorem test_decode_checks_in_order :
    refuses (decode .cell true 0xC0000000 0 0 0) .reservedOpcode = true ∧                  -- major 0x30
    refuses (decode .cell true 0x00000000 0 0 0) .reservedOpcode = true ∧                  -- major 0
    refuses (decode .cell true 0x6FFFF840 0 0 0) .wrongAgent = true ∧                      -- halt in a cell, res0 set
    refuses (decode .cond true 0xACFFFFFF 0 0 0) .wrongAgent = true ∧                      -- atoms in a conductor
    refuses (decode .cell false 0xFC000000 0 0 0) .misplacedLong = true ∧                  -- off a multiple of 16
    refuses (decode .cell true 0x07FFFFF8 0 0 0) .reservedFunction = true ∧                -- alu function 255
    refuses (decode .cell true 0x6C050020 0 0 0) .reservedFunction = true ∧                -- fence scope 5
    refuses (decode .cond true 0x04180000 0 0 0) .reservedRegister = true ∧                -- a port in a conductor
    refuses (decode .cond true 0xFC070C68 0 0x92 0) .reservedRegister = true ∧             -- a port as a conductor's target
    refuses (decode .cell true 0x39000000 0 0 0) .reservedRegister = true ∧                -- p8
    refuses (decode .cell true 0xA4000000 0 0 0) .reservedRegister = true ∧                -- mkpop of x0
    refuses (decode .cell true 0x040008F0 0 0 0) .nonzeroRes0 = true ∧                     -- clz with rb
    refuses (decode .cond true 0xFC000000 0x00000080 0 0) .nonzeroRes0 = true ∧            -- we 0, wthr 1
    refuses (decode .cond true 0xFC000000 0 0x80000000 0) .nonzeroRes0 = true ∧            -- se 1, sinc 0
    refuses (decode .cell true 0xFC000000 0 0x80008000 0) .cellLong = true ∧               -- a cell's signal
    refuses (decode .cell true 0xFC408530 0 0x80000000 0) .nonzeroRes0 = true ∧            -- copy in a cell: UNDEF first
    refuses (decode .cell true 0xFC408530 0 0 0) .cellLong = true := by decide             -- copy in a cell

/-- An ill-formed term for each check of `wf`, and its well-formed neighbour. -/
theorem test_wf_refuses :
    (Instr.sisect 1 3 3 0).wf = false ∧ (Instr.sisect 1 3 4 0).wf = true ∧
    (Instr.nopl ⟨none, some ⟨1, 0⟩⟩ 0).wf = false ∧ (Instr.nopl ⟨none, some ⟨1, 255⟩⟩ 0).wf = true ∧
    (Instr.spat (.reg 1) (.port 2) (.reg 3) 0 0 ⟨none, none⟩ 0).wf = false ∧
    (Instr.spat (.port 1) (.reg 2) (.port 3) 0 0 ⟨some ⟨1, 1⟩, none⟩ 0).wf = false ∧
    (Instr.spat (.port 1) (.reg 2) (.port 3) 0 0 ⟨none, none⟩ 0).wf = true ∧
    (Instr.spatr (.reg 1) (.port 2) ⟨none, none⟩ 0).wf = false ∧ (Instr.spatr (.port 1) (.port 2) ⟨none, some ⟨1, 1⟩⟩ 0).wf = false ∧
    (Instr.copy (.reg 1) (.reg 2) (.port 3) 0 ⟨none, none⟩ 0).wf = false ∧
    (Instr.lput (.reg 1) (.port 2) (.reg 3) ⟨none, none⟩ 0).wf = false ∧
    (Instr.clause (.reg 1) (.port 2) ⟨none, none⟩ 0).wf = false ∧ (Instr.xmap (.port 1) true ⟨none, none⟩ 0).wf = false := by decide

theorem test_wf_refuses_places :
    (Instr.rateUpdate 816).wf = false ∧ (Instr.rateUpdate 815).wf = true ∧
    (Instr.clauseLoad 64).wf = false ∧ (Instr.clauseLoad 63).wf = true ∧
    (Instr.commandDispatch 48).wf = false ∧ (Instr.commandDispatch 47).wf = true ∧
    (AgentId.ctx 816 0).wf = false ∧ (AgentId.cond 48).wf = false ∧ (AgentId.cond 47).wf = true ∧
    (Instr.shootDownGvaRange 0x10000).wf = false ∧ (Instr.shootDownContext 0x10000).wf = true ∧
    (Instr.shootDownImportEntry 0x10000).wf = false := by decide

theorem test_wf_refuses_a_long_packet (p : Packet) (h : p.data.length = 257) : (Instr.writePkt 0 p).wf = false := by
  simp [Instr.wf, Packet.wf, h]

theorem test_wf_takes_a_full_packet (p : Packet) (h : p.data.length = 256) : (Instr.writePkt 0 p).wf = true := by
  simp [Instr.wf, Packet.wf, h]

/-! ### Small states -/

namespace Sys2Proof.Tests

/-- The next state of an instruction; every meaning answers one. -/
def run (i : Instr) (s : State) : State :=
  match exec i s with
  | .next t => t
  | _ => State.reset

/-- The next state of a step. -/
def stepped (s : State) : State :=
  match step s with
  | .next t => t
  | _ => State.reset

/-- A register x, or a change of the current agent. -/
def withX (s : State) (r : Fin 24) (v : DWord) : State := s.modHart s.cur (fun h => { h with x := h.x.set r v })
def with2 (s : State) (v1 v2 : DWord) : State := withX (withX s 1 v1) 2 v2
def xOf (s : State) (r : Fin 24) : DWord := (s.hart s.cur).x[r]

/-- Context 0 of cell 0 runs at pc 0. -/
def atCell : State := { State.reset.modHart (.ctx 0 0) (fun h => { h with run := .running }) with cur := .ctx 0 0 }

/-- A bulk extent of two pages, which lie at 2^16 and 2^17. -/
def ext1 : Extent := ⟨1, .bulk, true, false, true, 0, 2 ^ 17, 0⟩
def region0 : Region := Region.init 1 [0] 1 [ext1]

/-- Conductor 0 runs for region 0, whose extent 1 has both pages. -/
def atCond : State :=
  let s := (State.reset.setRegion 0 region0).modCond 0 (fun c => { c with region := some 0, hart := { c.hart with run := .running } })
  let s := s.modXlat 1 (fun x => (x.setPage ⟨0, 0, 2 ^ 16, 0, 0, true, true, false⟩).setPage ⟨0, 1, 2 ^ 17, 0, 0, true, true, false⟩)
  { s with cur := .cond 0 }

/-- A stage that is there, with ports, and one that is not. -/
def stage0 : StageDesc := ⟨true, false, 0, 0x100, 0, 0, 0x100, 0x80, 0x200, 0, [], 16⟩
def noStage : StageDesc := ⟨false, false, 0, 0, 0, 0, 0x100, 0x100, 0x100, 0, [], 0⟩
def role0 : RoleDesc := ⟨0, 0, false, [stage0, noStage, noStage, noStage]⟩
def clause0 : Clause := ⟨0, 0, 1, 1, false, [role0], [], [], [], [], [0], [0], [], 0, false, false, [], none⟩

/-- Context 0 of cell 0 runs role 0 of clause 0 of region 0. -/
def inClause : State :=
  let s := { atCond with cur := .ctx 0 0 }
  let s := s.setRegion 0 { region0 with clauses := [clause0], loads := 1, roleMap := [0] }
  s.modCell 0 (fun x => { x with bound := some (0, 0, 0), loaded := true, ctx := x.ctx.set 0 { x.ctx[0] with run := .running, begun := 1 } })

/-- A port of the current agent. -/
def withPort (s : State) (q : Fin 8) (o : Port) : State := s.modHart s.cur (fun h => { h with ports := h.ports.set q o })
def entry (i : Item) : Entry := ⟨i, 0, Idx.zero, 0⟩
def num64 (v : DWord) : Item := .data (.scalar v)
def inPort (t : Nat) (l : List Item) : Port := { Port.unused with used := true, input := true, ttype := t, queue := l.map entry }
def outPort (t : Nat) : Port := { Port.unused with used := true, ttype := t }
/-- A pattern of c0 s64 tokens from an address. -/
def pat1 (base : DWord) (c0 : Nat) : Pattern := ⟨base, c0, 1, 1, 1, 8, 0, 0, 0, 3, 0, 0, none, 0, 0⟩

/-- A reading that succeeds with a value, or stops for a reason. -/
def gives {α β : Type} [DecidableEq α] (r : Res (α × β)) (v : α) : Bool :=
  match r with
  | .ok (x, _) => decide (x = v)
  | .error _ => false
def fails {α : Type} (r : Res α) (e : Stop) : Bool :=
  match r with
  | .ok _ => false
  | .error x => decide (x = e)
def isOk {α : Type} (r : Res α) : Bool :=
  match r with
  | .ok _ => true
  | .error _ => false

/-- Words in the store of cell 0, whose context 0 issues next. -/
def placed (ws : List Nat) : State :=
  let s := atCell.modCell 0 (fun x => { x with store := x.store.write 0 (ws.flatMap (leBytes 4)) })
  { s.modHart (.ctx 0 0) (fun h => { h with tvec := 0x40 }) with agenda := [.issue (.ctx 0 0)] }

/-- A channel from port 2 of context 0 to port 3 of context 1 of cell 0, with n free slots. -/
def chan0 (n : Nat) : Chan := ⟨.port 0 0 2, .port 0 1 3, 3, 4, 0, [⟨n, false, [], 4, 0, none, []⟩], 0, 0, false, 0, false, [], []⟩
def inChannel (n : Nat) : State := inClause.setRegion 0 { region0 with clauses := [{ clause0 with chans := [chan0 n] }], loads := 1, roleMap := [0] }

end Sys2Proof.Tests

/-! ### What the statements assume can be met, and what comes out: encoding, steps, operands -/

theorem witness_EncodingRoundTrip : (Instr.add (.reg 23) (.port 7) (.reg 0) 7).wf = true ∧ encode (.add (.reg 23) (.port 7) (.reg 0) 7) ≠ [] ∧
    encode (.copy (.reg 4) (.reg 5) (.reg 6) 0 ⟨none, some ⟨2, 1⟩⟩ 0) = [0xFC408530, 0, 0x81008000, 0] := by decide

/-- Agents that may issue: a context, and a conductor in a long word. -/
theorem witness_StepRunsTheDecodedInstruction :
    (let s := State.reset.withFetchWord 32 0x08E7FFE8
     s.agenda = [.issue (.ctx 0 0)] ∧ Ready s (.ctx 0 0) ∧ (s.hart (.ctx 0 0)).rep = false ∧
       Fetches (fetching s (.ctx 0 0)) (.ctx 0 0) (fetching s (.ctx 0 0)) (.ok (.addi (.reg 7) (.reg 7) 0x1FFD 0)) ∧
       xOf (stepped s) 7 = -3) ∧
    (let s := State.reset.withFetchWord 128 0xFCC50000
     s.agenda = [.issue (.cond 0)] ∧ Ready s (.cond 0) ∧
       Fetches (fetching s (.cond 0)) (.cond 0) (fetching s (.cond 0)) (.ok (.lfork (.reg 8) ⟨none, none⟩ 0))) := by
  refine ⟨⟨by decide, ⟨by decide, by decide +kernel⟩, by decide, .inl ⟨0x08E7FFE8, by rfl, by decide, by decide, by rfl⟩, by decide⟩, by decide,
    ⟨by decide, by decide +kernel⟩, .inr ⟨0xFCC50000, _, _, by rfl, by decide, by decide, by rfl, by rfl⟩⟩

/-- A rep word met afresh and within its unit; a cell that issued in this cycle; an agent that does not run, and a context that
is not the choice; an event. -/
theorem witness_StepsOfOtherKinds :
    let s := State.reset.withFetchWord 64 0x0504C80068350000
    fld 0x68350000 31 26 = 0x1A ∧ (let h := (stepped s).hart (.ctx 0 0); h.rep = true ∧ h.repc = 4 ∧ h.pc = 0 ∧ h.flight = [] ∧ h.early = []) ∧
    (let t : State := { stepped s with agenda := [.issue (.ctx 0 0)] }; let u := passCycle { t with agenda := [] }
     lastIssueOf t (.ctx 0 0) = t.cycle + 1 ∧ (t.hart (.ctx 0 0)).rep = true ∧ lastIssueOf u (.ctx 0 0) ≠ u.cycle + 1 ∧
     chooseReady ((marked u 0).cell 0) (offered u 0) = some 0 ∧ stepped t = stepped { u with agenda := .issue (.ctx 0 0) :: u.agenda }) ∧
    (let t := { s.modHart (.cond 0) (fun h => { h with run := .finished }) with agenda := [.issue (.cond 0)] }
     (t.hart (.cond 0)).run ≠ .running ∧ stepped t = { t with agenda := [] }) ∧
    (let t : State := { s with agenda := [.issue (.ctx 0 1)] }
     chooseReady ((marked t 0).cell 0) (offered t 0) = some 0 ∧ stepped t = marked { t with agenda := [] } 0) ∧
    isEvent (.contextReady 0 0) = true ∧ stepped { State.reset with agenda := [.event .refreshWindowStart] } = State.reset := by decide +kernel

/-- Words that decode to nothing, at a context and at a conductor (R73, R74); the trap of a cell's long command is PRIV. -/
theorem witness_BadWordsTrap :
    (let s := placed [0xC0000000]; let t := stepped s
     decode .cell true 0xC0000000 0 0 0 matches .error .reservedOpcode ∧ Ready s (.ctx 0 0) ∧
     (t.hart (.ctx 0 0)).tcause = 1 ∧ (t.hart (.ctx 0 0)).tinfo0 = 0xC0000000 ∧ (t.hart (.ctx 0 0)).tinfo1 = 0 ∧ (t.hart (.ctx 0 0)).pc = 0x40) ∧
    (let t := stepped (placed [0xFC000000, 1, 2, 0])
     (t.hart (.ctx 0 0)).tcause = 1 ∧ (t.hart (.ctx 0 0)).tinfo0 = 0xFC000000 ∧ (t.hart (.ctx 0 0)).tinfo1 = 0x200000001) ∧
    (let t := stepped (placed [0xFC408530, 0, 0x81008000, 0])
     (t.hart (.ctx 0 0)).tcause = 2 ∧ (t.hart (.ctx 0 0)).tinfo1 = 0x8100800000000000) := by
  refine ⟨⟨by decide, ⟨by decide, by decide +kernel⟩, by decide⟩, by decide, by decide⟩

/-- Fetches at the edges of the code space: misaligned, the last word, one past it, a bad word; a conductor beyond its extent. -/
theorem witness_FetchesReadTheCodeSpace :
    fails (atCell.fetchWord (.ctx 0 0) 0x7FFFE) (.trap (trapOf .align 0x7FFFE 0)) = true ∧
    isOk (atCell.fetchWord (.ctx 0 0) 0x7FFFC) = true ∧
    fails (atCell.fetchWord (.ctx 0 0) 0x80000) (.trap (trapOf .bounds 0x80000 0)) = true ∧
    fails (({ atCell with bad := [.store 0 0] } : State).fetchWord (.ctx 0 0) 0) (.bad (.store 0 0) (trapOf .uncorr 0 1)) = true ∧
    isOk (atCond.fetchWord (.cond 0) 0x1001FFFC) = false ∧
    isOk (atCond.fetchWord (.cond 0) 0x1000001FFFC) = true ∧
    fails (atCond.fetchWord (.cond 0) 0x10000020000) (.trap (trapOf .bounds 0x10000020000 0)) = true ∧
    fails (atCond.fetchWord (.cond 0) 0x20000000000) (.trap (trapOf .bounds 0x20000000000 0)) = true := by decide

/-- A predicate that is false, at every other instruction a true one; an instruction retires in the middle and at the end of a unit. -/
theorem witness_FalsePredicateSkips :
    Off atCell 1 ∧ On (atCell.modHart (.ctx 0 0) (fun h => { h with p := h.p.set 7 true })) 7 ∧ On atCell 0 ∧
    run (.add (.reg 1) (.reg 2) (.reg 3) 1) atCell = atCell.retireBy (.ctx 0 0) 4 ∧
    run (.nopl ⟨none, none⟩ 7) atCell = atCell.retireBy (.ctx 0 0) 16 ∧
    (let s (n : Nat) := atCell.modHart (.ctx 0 0) (fun h => { h with rep := true, repc := BitVec.ofNat 7 n })
     let h (n : Nat) := ((s n).retireBy (.ctx 0 0) 4).hart (.ctx 0 0)
     (h 2).repc = 1 ∧ (h 2).pc = 0 ∧ (h 1).repc = 0 ∧ (h 1).pc = 8 ∧ (h 1).rep = false) := by
  refine ⟨⟨by decide, by decide, by decide, by decide⟩, .inr (by decide), .inl rfl, by decide, by decide, by decide⟩

theorem witness_ResetAndInvariant : State.reset.memWf = true ∧ stage0.present = true ∧
    (stepped (placed [0x7509000C])).memWf = true := by decide

/-- Register sources: sound, in error, x0 and p0; ports: empty, a token, a marker, an unused port. -/
theorem witness_Operands :
    (work (with2 atCell 5 6)).hart.capt = none ∧ gives (readX (work (with2 atCell 5 6)) 0 (.reg 23)) 0 = true ∧
    gives (readX (work (with2 atCell 5 6)) 0 (.reg 2)) 6 = true ∧ gives (readX (work (withX atCell 0 9)) 0 (.reg 0)) 0 = true ∧
    (let s := atCell.modHart (.ctx 0 0) (fun h => { h with badRegs := [23, 256, 535, 775, 1031, 1283] })
     fails (readX (work s) 0 (.reg 23)) (badSource 0 23) = true ∧ fails (readA (work s) 0 (.reg 0)) (badSource 1 0) = true ∧
       fails (readW (work s) 0 (.reg 23)) (badSource 2 23) = true ∧ fails (readP (work s) 0 (.reg 7)) (badSource 3 7) = true ∧
       fails (readM (work s) 0 (.reg 7)) (badSource 4 7) = true ∧ fails (readTl (work s) 0 (.reg 3)) (badSource 5 3) = true) ∧
    (let s := withPort atCell 7 (inPort 3 [num64 5, num64 6])
     (work s).popped.find? (fun e => e.1 == 7) = none ∧ gives (readX (work s) 0 (.port 7)) 5 = true ∧
       xOf (run (.add (.reg 1) (.port 7) (.port 7) 0) s) 1 = 10 ∧ (portOf (run (.add (.reg 1) (.port 7) (.port 7) 0) s) 7).queue = [entry (num64 6)]) ∧
    (let s := withPort atCell 0 (inPort 3 []); fails (readX (work s) 0 (.port 0)) (.hold (.empty 0)) = true) ∧
    (let s := withPort atCell 0 (inPort 6 [.drain])
     fails (readX (work s) 0 (.port 0)) (.trap ⟨.porttype, 0, r35Word 6 0 24 true 0, 0, Idx.zero⟩) = true ∧
       fails (readW (work s) 0 (.port 0)) (.trap ⟨.marker, 0, r35Word 6 2 24 true 0, 0, Idx.zero⟩) = true) := by decide

/-- Output ports: a pattern with a token left, one that has all its tokens, none, a block of the wrong tag. -/
theorem witness_PortDestinations :
    isOk (pushPort (work (withPort atCell 1 { outPort 3 with cur := some (pat1 0x100 2) })) .x 25 1 (.scalar 7)) = true ∧
    (let s := withPort atCell 1 { outPort 3 with cur := some (pat1 0x100 2) }
     isOk (checkAddr s s.cur ((pat1 0x100 2).addr Idx.zero) 8 8 true false) = true ∧
       ((portOf (run (.addi (.port 1) (.reg 0) 7 0) s) 1).out.map (fun x => (x.addr, x.tok))) = [(0x100, .scalar 7)]) ∧
    (let s := withPort atCell 1 { outPort 3 with cur := some { pat1 0x100 2 with pos := 2 } }
     fails (pushPort (work s) .x 25 1 (.scalar 7)) (.hold (.full 1)) = true) ∧
    fails (pushPort (work (withPort atCell 1 (outPort 3))) .x 25 1 (.scalar 7)) (.hold (.full 1)) = true ∧
    fails (pushPort (work (withPort atCell 1 (outPort 5))) .a 25 1 (.block Block.zero))
      (.trap ⟨.porttype, 0, r35Word 5 1 25 false 1, 0, Idx.zero⟩) = true ∧
    (tokenFor 1 (.scalar 0x12345)).1 = .scalar 0x2345 := by decide

/-- A channel port of a producing stage: a free slot, and none. -/
theorem witness_ChannelDestinations :
    let s := withPort (inChannel 1) 2 { outPort 3 with chan := true }
    s.cur = .ctx 0 0 ∧ s.chanAt 0 0 2 true = some (0, 0, 0) ∧ s.getChan 0 0 0 = some (chan0 1) ∧
    (let t := run (.addi (.port 2) (.reg 0) 7 0) s
     (portOf t 2).queue.map (·.item) = [num64 7] ∧ (t.getHop 0 0 0 0).map (·.free) = some 0 ∧
       (run (.addi (.port 2) (.reg 0) 8 0) t).hart s.cur = { t.hart s.cur with hold := some (.full 2) }) := by decide

/-! ### Scalar and control instructions -/

/-- R82 and R28 at their corners, the values worked by hand. -/
theorem test_alu_corners :
    (let two (i : Instr) (a b : DWord) := xOf (run i (with2 atCell a b)) 3
     let r3 (f : XOp → XOp → XOp → Pg → Instr) := f (.reg 3) (.reg 1) (.reg 2) 0
     two (r3 .add) (-1) 2 = 1 ∧ two (r3 .sub) 0 1 = -1 ∧ two (r3 .andn) 0xFF 0x0F = 0xF0 ∧ two (r3 .shl) 1 65 = 2 ∧
     two (r3 .shr) (-1) 63 = 1 ∧ two (r3 .sra) (-8) 2 = -2 ∧ two (r3 .rot) 1 1 = 0x8000000000000000 ∧
     two (r3 .addw) 0x7FFFFFFF 1 = 0xFFFFFFFF80000000 ∧ two (r3 .subw) 0 1 = -1 ∧ two (r3 .shlw) 1 63 = 0xFFFFFFFF80000000 ∧
     two (r3 .shrw) 0xFFFFFFFF80000000 31 = 1 ∧ two (r3 .sraw) 0x80000000 31 = -1 ∧ two (r3 .mul) (-1) 3 = -3 ∧
     two (r3 .mulh) (-1) 3 = -1 ∧ two (r3 .mulhu) (-1) 3 = 2 ∧ two (r3 .mulw) 0x10000 0x8000 = 0xFFFFFFFF80000000) ∧
    (let two (i : Instr) (a b : DWord) := xOf (run i (with2 atCell a b)) 3
     let r3 (f : XOp → XOp → XOp → Pg → Instr) := f (.reg 3) (.reg 1) (.reg 2) 0
     two (r3 .div) 7 0 = -1 ∧ two (r3 .div) 0x8000000000000000 (-1) = 0x8000000000000000 ∧ two (r3 .div) (-7) 2 = -3 ∧
     two (r3 .rem) (-7) 2 = -1 ∧ two (r3 .rem) 7 0 = 7 ∧ two (r3 .rem) 0x8000000000000000 (-1) = 0 ∧
     two (r3 .divu) (-1) 2 = 0x7FFFFFFFFFFFFFFF ∧ two (r3 .divu) 5 0 = -1 ∧ two (r3 .remu) 5 0 = 5 ∧
     two (r3 .min) (-1) 1 = -1 ∧ two (r3 .max) (-1) 1 = 1 ∧ two (r3 .minu) (-1) 1 = 1 ∧ two (r3 .maxu) (-1) 1 = -1 ∧
     two (r3 .slt) (-1) 1 = 1 ∧ two (r3 .sltu) (-1) 1 = 0 ∧ two (r3 .seq) 4 4 = 1) := by decide

theorem test_bit_counts_and_immediates :
    (let one (i : Instr) (a : DWord) := xOf (run i (withX atCell 1 a)) 3
     one (.clz (.reg 3) (.reg 1) 0) 0 = 64 ∧ one (.clz (.reg 3) (.reg 1) 0) 1 = 63 ∧ one (.popc (.reg 3) (.reg 1) 0) (-1) = 64 ∧
     one (.brev (.reg 3) (.reg 1) 0) 1 = 0x8000000000000000 ∧ one (.addi (.reg 3) (.reg 1) 0x1000 0) 0 = -4096 ∧
     one (.andi (.reg 3) (.reg 1) 0x1FFF 0) 5 = 5 ∧ one (.ori (.reg 3) (.reg 1) 0x1000 0) 1 = -4095 ∧ one (.xori (.reg 3) (.reg 1) 0x1FFF 0) 1 = -2 ∧
     one (.shli (.reg 3) (.reg 1) 63 0) 3 = 0x8000000000000000 ∧ one (.shri (.reg 3) (.reg 1) 63 0) (-1) = 1 ∧
     one (.srai (.reg 3) (.reg 1) 63 0) (-2) = -1 ∧ one (.slti (.reg 3) (.reg 1) 0x1FFF 0) (-2) = 1 ∧ one (.sltiu (.reg 3) (.reg 1) 0x1FFF 0) 5 = 1) ∧
    xOf (run (.lui (.reg 3) 0x1FFFFF) atCell) 3 = 0xFFFFFFFFFFFFF800 ∧ xOf (run (.lui (.reg 3) 0x68ACF) atCell) 3 = 0x34567800 ∧
    xOf (run (.lih (.reg 1) 0x1FFFFF) (withX atCell 1 7)) 1 = 0xFFFFFFFF00000007 ∧
    xOf (run (.auipc (.reg 3) 1) (atCell.modHart (.ctx 0 0) (fun h => { h with pc := 0x100 }))) 3 = 0x900 := by decide

theorem test_predicates_and_masks :
    (let p (i : Instr) (a b : DWord) := ((run i (with2 atCell a b)).hart (.ctx 0 0)).p[3]
     p (.peq (.reg 3) (.reg 1) (.reg 2) 0) 1 1 = true ∧ p (.pne (.reg 3) (.reg 1) (.reg 2) 0) 1 1 = false ∧
     p (.plt (.reg 3) (.reg 1) (.reg 2) 0) (-1) 1 = true ∧ p (.pge (.reg 3) (.reg 1) (.reg 2) 0) (-1) 1 = false ∧
     p (.pltu (.reg 3) (.reg 1) (.reg 2) 0) (-1) 1 = false ∧ p (.pgeu (.reg 3) (.reg 1) (.reg 2) 0) (-1) 1 = true) ∧
    (let s := atCell.modHart (.ctx 0 0) (fun h => { h with p := h.p.set 1 true, m := h.m.set 1 0x800001 })
     let p (i : Instr) := ((run i s).hart (.ctx 0 0)).p[3]
     p (.pand (.reg 3) (.reg 1) (.reg 2) 0) = false ∧ p (.por (.reg 3) (.reg 1) (.reg 2) 0) = true ∧ p (.pxor (.reg 3) (.reg 1) (.reg 0) 0) = false ∧
     p (.pnot (.reg 3) (.reg 2) 0) = true ∧ p (.pmany (.reg 3) (.reg 1) 0) = true ∧ p (.pmany (.reg 3) (.reg 2) 0) = false ∧
     xOf (run (.mget (.reg 3) (.reg 1) 0) s) 3 = 0x800001 ∧ ((run (.mnot (.reg 3) (.reg 1) 0) s).hart (.ctx 0 0)).m[3] = 0x7FFFFE ∧
     ((run (.mset (.reg 3) (.reg 1) 0) (withX s 1 0xFF000005)).hart (.ctx 0 0)).m[3] = 5) := by decide

/-- Branches taken and not, backwards; jal and jalr with their links. -/
theorem test_branches_and_jumps :
    (let at40 (a b : DWord) := (with2 atCell a b).modHart (.ctx 0 0) (fun h => { h with pc := 0x40 })
     let pc (i : Instr) (a b : DWord) := ((run i (at40 a b)).hart (.ctx 0 0)).pc
     pc (.beq (.reg 1) (.reg 2) 0xFFFB) 5 5 = 0x2C ∧ pc (.beq (.reg 1) (.reg 2) 0xFFFB) 5 6 = 0x44 ∧ pc (.bne (.reg 1) (.reg 2) 7) 5 6 = 0x5C ∧
     pc (.blt (.reg 1) (.reg 2) 1) (-1) 1 = 0x44 ∧ pc (.bge (.reg 1) (.reg 2) 2) 1 (-1) = 0x48 ∧ pc (.bltu (.reg 1) (.reg 2) 2) 1 (-1) = 0x48 ∧
     pc (.bgeu (.reg 1) (.reg 2) 2) 1 1 = 0x48 ∧ pc (.jal 40) 0 0 = 0xE0 ∧ pc (.jalr (.reg 23) (.reg 1) 0x1FFC 0) 0x1000 0 = 0xFFC ∧
     xOf (run (.jal 40) (at40 0 0)) 23 = 0x44 ∧ xOf (run (.jalr (.reg 1) (.reg 1) 0 0) (at40 8 0)) 1 = 0x44) := by decide

/-- The sources can be read and rd written: registers and ports; rd as a port without a pattern holds. -/
theorem witness_ScalarOperands :
    On atCell 0 ∧ isOk (readX (work atCell) 0 (.reg 23)) = true ∧ isOk (writeX (work atCell) (.reg 0) 1) = true ∧
    isOk (writeX (work (withPort atCell 0 (outPort 3))) (.port 0) 1) = false ∧
    isOk (readP (work atCell) 0 (.reg 7)) = true ∧ isOk (readM (work atCell) 0 (.reg 7)) = true ∧
    (let s := with2 atCell 3 4; let t := run (.add (.reg 3) (.reg 1) (.reg 2) 0) s
     scalarDest (.add (.reg 3) (.reg 1) (.reg 2) 0) = some (.x (.reg 3)) ∧ Completed s t) := by
  refine ⟨.inl rfl, by decide, by decide, by decide, by decide, by decide, rfl, by decide, by decide, by decide, by decide⟩

/-- A trap at level 0 and at level 1, in a context and in a conductor whose frame address is mapped. -/
theorem witness_Traps :
    (atCell.hart (.ctx 0 0)).level = false ∧
    (let s := atCell.modHart (.ctx 0 0) (fun h => { h with tframe := 0x8000, tvec := 0x40, evec := 0x80, pc := 0x10 })
     let t := s.takeTrap (.ctx 0 0) (trapOf .undef 5 6)
     t.hart (.ctx 0 0) = trapped (s.hart (.ctx 0 0)) (trapOf .undef 5 6) 0 false ∧ (t.hart (.ctx 0 0)).pc = 0x80 ∧
       bytesAt t (fun i => .store 0 (0x8000 + i)) 16 = List.replicate 16 0) ∧
    (let s := atCell.modHart (.ctx 0 0) (fun h => { h with level := true, tframe := 0x8000, repc := 3 })
     let t := s.takeTrap (.ctx 0 0) (trapOf .priv 5 6)
     (s.hart (.ctx 0 0)).level = true ∧ (t.hart (.ctx 0 0)).run = .stopped ∧ t.getByte (.store 0 0x8801) = 3 ∧
       t.getByte (.store 0 0x8828) = 2 ∧ t.getByte (.store 0 0x8830) = 5 ∧ ((t.cond 0).records.map (fun r => (r.cause, r.src))) = [(.nested, 7)]) ∧
    (let s := atCond.modHart (.cond 0) (fun h => { h with tframe := 0x10000011000, tvec := 0x10000000040 })
     s.extentNo (.cond 0) (fld (s.hart (.cond 0)).tframe.toNat 47 40) = some ext1 ∧
       (s.translate (s.holder (.cond 0)) ext1 0x11000 true).2 = some (.bulk 0x21000) ∧
       (let t := s.takeTrap (.cond 0) (trapOf .priv 5 6); (t.hart (.cond 0)).pc = 0x10000000040 ∧ (t.hart (.cond 0)).tstat = 0x400)) := by
  refine ⟨by decide, by decide, by decide, by decide, by decide, by decide⟩

/-- A hold, and a missing page that is not pending and one that is. -/
theorem witness_Stops :
    (let s := inClause.setRegion 0 { region0 with clauses := [{ clause0 with extents := [⟨2, .bulk, true, true, false, 0, 2 ^ 16, 0⟩] }], loads := 1, roleMap := [0] }
     let s := withX s 1 0x20000000000
     let t := run (.ldD (.reg 2) (.reg 1) 0 0) s
     (t.hart (.ctx 0 0)).hold = some .page ∧ ((t.cond 0).records.map (·.cause)) = [.xfault] ∧ (t.xlat 1).pending = [(.lazy, 0)] ∧
       ((run (.ldD (.reg 2) (.reg 1) 0 0) t).cond 0).records.length = 1) := by decide

/-- trap at both levels. -/
theorem witness_TrapInstruction :
    (let s := withX atCell 1 9; let t := run (.trap (.reg 1) 0) s
     (s.hart s.cur).level = false ∧ isOk (readX (work s) 0 (.reg 1)) = true ∧ (t.hart s.cur).tcause = 0x13 ∧ (t.hart s.cur).tinfo0 = 9 ∧ (t.hart s.cur).tpc = 4) ∧
    (let s := atCell.modHart (.ctx 0 0) (fun h => { h with level := true })
     ((run (.trap (.reg 1) 0) s).hart s.cur).run = .stopped) := by decide

/-- rett with no entry, with one, at level 0, and with a header that has seven entries or a nonzero NEST. -/
theorem witness_RettRestores :
    (let s (b : Memory) := (atCell.modHart (.ctx 0 0) (fun h => { h with level := true, tframe := 0x8000, tpc := 0x20, tstat := 2 })).modCell 0 (fun x => { x with store := b })
     let h (b : Memory) := (run (.rett 0) (s b)).hart (.ctx 0 0)
     (h [(0x8001, 5)]).pc = 0x20 ∧ (h [(0x8001, 5)]).repc = 5 ∧ (h [(0x8001, 5)]).rep = true ∧ (h [(0x8001, 5)]).level = false ∧
       (h [(0x8000, 7)]).run = .stopped ∧ (h [(0x803F, 1)]).run = .stopped ∧ ((s []).hart (.ctx 0 0)).capt = none ∧
       (let t := s [(0x8000, 1), (0x8048, 0x00), (0x8049, 0x30), (0x804A, 0x85), (0x804B, 0x04), (0x8060, 40), (0x80C0, 2)]
        fld 0x04853000 31 26 = 1 ∧ ((run (.rett 0) t).hart (.ctx 0 0)).x[4] = 42 ∧ ((run (.rett 0) t).hart (.ctx 0 0)).level = false)) ∧
    ((run (.rett 0) atCell).hart (.ctx 0 0)).tcause = 0x0D ∧ ((run (.rett 0) atCell).hart (.ctx 0 0)).tinfo0 = 0x6C000010 := by decide

/-- ends, fence, wfa and halt where they complete, hold and trap. -/
theorem witness_EndsFenceWfaHalt :
    (inClause.cell 0).bound = some (0, 0, 0) ∧ (inClause.clauseAt 0 0).isSome = true ∧ inClause.cur = .ctx 0 0 ∧
    ((run (.ends 0) inClause).hart (.ctx 0 0)).run = .finished ∧
    ((run (.ends 0) (inClause.modHart (.ctx 0 0) (fun h => { h with begun := 0 }))).hart (.ctx 0 0)).run = .waiting ∧
    ((run (.ends 0) (inClause.modHart (.ctx 0 0) (fun h => { h with level := true }))).hart (.ctx 0 0)).run = .stopped ∧
    atCell.released (.ctx 0 0) 4 = true ∧ run (.fence .system 0) atCell = atCell.retireBy (.ctx 0 0) 4 ∧
    (let s := atCell.modHart (.ctx 0 0) (fun h => { h with pend := [⟨.store [(.bulk 0, 1)] [], 1, 0⟩] })
     s.released (.ctx 0 0) 1 = true ∧ s.released (.ctx 0 0) 2 = false ∧ ((run (.fence .region 0) s).hart (.ctx 0 0)).hold = some .fence) ∧
    (let s (n : Nat) (a : Bool) := (atCell.modHart (.ctx 0 0) (fun h => { h with line := 15, armed := a })).modCell 0 (fun x =>
        { x with arrivals := x.arrivals.set 15 (BitVec.ofNat 16 n) })
     ((run (.wfa 0) (s 1 true)).cell 0).arrivals[15] = 0 ∧ ((run (.wfa 0) (s 1 true)).hart (.ctx 0 0)).pc = 4 ∧
       ((run (.wfa 0) (s 0 true)).hart (.ctx 0 0)).hold = some .wfa ∧ ((run (.wfa 0) (s 1 false)).hart (.ctx 0 0)).tcause = 1) ∧
    ((run (.halt 0) atCond).hart (.cond 0)).run = .halted ∧
    ((run (.halt 0) (atCond.modCond 0 (fun c => { c with cmds := [newCommand 0 .nopl ⟨none, none⟩ c.hart] }))).hart (.cond 0)).hold = some .halt := by decide

/-- yield: no other running context, one with a larger pass, and a conductor. -/
theorem witness_YieldRaisesThePass :
    (let s := atCell.modHart (.ctx 0 1) (fun h => { h with run := .running, pass := 0x50000 })
     let t0 := s.retireBy s.cur 4
     (List.finRange 4).filter (fun d => d ≠ (0 : Fin 4) ∧ (t0.hart (.ctx 0 d)).run = .running) = [1] ∧
       ((run (.yield 0) s).hart (.ctx 0 0)).pass = 0x50001) ∧
    run (.yield 0) atCell = atCell.retireBy (.ctx 0 0) 4 ∧ run (.yield 0) atCond = run (.nop 0) atCond := by decide

/-- bar in a clause of one stage completes; of two, it waits; BARRIER_COMPLETE lets both pass. -/
theorem witness_Barrier :
    ((run (.bar 0) inClause).hart (.ctx 0 0)).barCount = 1 ∧
    (let s := (inClause.setRegion 0 { region0 with clauses := [{ clause0 with roles := [{ role0 with stages := [stage0, stage0, noStage, noStage] }] }], loads := 1, roleMap := [0] }).modHart
        (.ctx 0 1) (fun h => { h with run := .running, begun := 1 })
     let t := run (.bar 0) s
     (t.hart (.ctx 0 0)).arrived = some 0 ∧ (t.hart (.ctx 0 0)).hold = some .bar ∧
       (let u := run (.bar 0) { t with cur := .ctx 0 1 }
        (u.hart (.ctx 0 1)).barCount = 1 ∧ u.barReady 0 (some 0) = [.ctx 0 0] ∧
          ((run (.barrierComplete 0 (some 0)) u).hart (.ctx 0 0)).barCount = 1)) ∧
    (let s := inClause.modHart (.ctx 0 0) (fun h => { h with pend := [⟨.store [(.bulk 0, 1)] [], 1, 0⟩] })
     s.released (.ctx 0 0) 2 = false ∧ ((run (.bar 0) s).hart (.ctx 0 0)).hold = some .bar) := by decide

/-- A legal unit and an illegal one (R60's own examples). -/
theorem witness_RepeatUnit :
    repLegal .cell 0x68350000 0x0504C800 = true ∧ repLegal .cell 0x68740000 0x06811000 = false ∧
    (let s := withPort (withX (placed [0x68350000, 0x0504C800]) 4 100) 1 (inPort 3 [num64 1, num64 2, num64 3, num64 4])
     let t := run (.rep 3 1 1 0 0) s
     (t.hart s.cur).rep = true ∧ (t.hart s.cur).repc = 4 ∧
       (let u := run .rept (run .rept t); xOf u 8 = 101 ∧ xOf u 9 = 2 ∧ (u.hart s.cur).repc = 2 ∧ (u.hart s.cur).pc = 0)) ∧
    (let s := placed [0x68740000, 0x06811000]
     let t := run (.rep 7 1 0 0 0) s
     (t.hart s.cur).tcause = 1 ∧ (t.hart s.cur).tinfo0 = 0x68740000 ∧ (t.hart s.cur).tinfo1 = 0x06811000) := by decide

/-! ### Special registers, memory, atomics, semaphores -/

/-- CSR accesses: absent, read only, T at both levels, legal and illegal values. -/
theorem witness_Csrs :
    (0xFFF : Nat) ∉ r37Ctx ∧ csrAccess false 0x006 = some .ro ∧ csrAccess false 0x012 = some .t ∧ csrAccess true 0x018 ≠ none ∧
    csrLegal atCell (.ctx 0 0) 0x001 0x1F = true ∧ csrLegal atCell (.ctx 0 0) 0x001 0x20 = false ∧ isOk (dstOk (work atCell) .x (.reg 1 : XOp)) = true ∧
    isOk (dstOk (work (withPort atCell 0 (outPort 6))) .x (.port 0 : XOp)) = false ∧
    (let c (i : Instr) (s : State) := ((run i s).hart s.cur).tcause
     c (.csrrw (.reg 1) (.reg 2) 0xFFF 0) atCell = 1 ∧ c (.csrrw (.reg 1) (.reg 2) 0x006 0) atCell = 1 ∧
       c (.csrrw (.reg 1) (.reg 2) 0x012 0) atCell = 2 ∧ c (.csrrs (.reg 1) (.reg 0) 0x012 0) atCell = 0 ∧
       c (.csrrw (.reg 1) (.reg 2) 0x001 0) (withX atCell 2 0x20) = 1) ∧
    (let s := withX atCell 2 0x1F; let t := run (.csrrs (.reg 1) (.reg 2) 0x001 0) s
     (t.hart s.cur).fps = 0x1F ∧ xOf t 1 = 0 ∧ xOf (run (.csrrc (.reg 3) (.reg 2) 0x001 0) t) 3 = 0x1F ∧
       ((run (.csrrc (.reg 3) (.reg 2) 0x001 0) t).hart s.cur).fps = 0) ∧
    (let s := (withX inClause 2 0x1000).modHart (.ctx 0 0) (fun h => { h with wmin := 0x80, wmax := 0x200 })
     csrLegal s s.cur 0x020 0x1000 = true ∧ csrRead (csrWrite s s.cur 0x020 0x1000) s.cur 0x020 = 0x200) ∧
    csrLegal atCell (.ctx 0 0) 0x010 0x1000000000000 = false ∧ csrLegal atCell (.ctx 0 0) 0x012 0x100 = false ∧
    csrLegal atCell (.ctx 0 0) 0x016 0x10 = false ∧ csrLegal atCell (.ctx 0 0) 0x017 0x80000 = false ∧
    csrLegal atCell (.ctx 0 0) 0x060 0x10000 = false := by decide

/-- The checks of an address at their edges (R158): top, alignment, the store's last bytes, extents. -/
theorem witness_AddressChecks :
    (let b (v : DWord) (i1 : DWord) (r : Res Site) := fails r (.trap (trapOf .bounds v i1))
     let k (a : AgentId) (v : DWord) (n al : Nat) (wr fe : Bool) := checkAddr inClause a v n al wr fe
     let x := AgentId.ctx 0 0
     b 0x1000000000000 0 (k x 0x1000000000000 8 8 false false) = true ∧ fails (k x 4 8 8 false false) (.trap (trapOf .align 4 8)) = true ∧
     isOk (k x 0x7FFF8 8 8 true true) = true ∧ b 0x80000 0x80000 (k x 0x80000 8 8 true true) = true ∧
     b 8 0 (k (.cond 0) 8 8 8 false false) = true ∧ b 0x20000000000 0 (k (.cond 0) 0x20000000000 8 8 false false) = true ∧
     isOk (k (.cond 0) 0x1000001FFF8 8 8 true true) = true ∧ b 0x10000020000 0x20000 (k (.cond 0) 0x10000020000 8 8 true true) = true) ∧
    (let s := atCond.setRegion 0 (Region.init 1 [0] 1 [⟨1, .bulk, false, false, false, 0, 2 ^ 16, 0⟩])
     fails (checkAddr s (.cond 0) 0x10000000000 8 8 true true) (.trap (trapOf .bounds 0x10000000000 0x8000000000010000)) = true ∧
     fails (checkAddr s (.cond 0) 0x10000000000 8 8 false true) (.trap (trapOf .bounds 0x10000000000 0x4000000000010000)) = true) := by decide

theorem witness_Settled : Settled atCell (.ctx 0 0) ∧ Settled atCond (.cond 0) ∧ (atCell.hart (.ctx 0 0)).dmode = 0 ∧ atCell.memWf = true ∧
    atCell.ldfWait = [] ∧ (∀ i, i < 96 → atCell.isBad (.store 0 (0x7FFA0 + i)) = false) := by
  refine ⟨⟨by decide, by decide, by decide, by decide, by decide, fun p c h => ?_⟩, ⟨by decide, by decide, by decide, by decide, by decide, fun p c h => by simp at h⟩, by decide, by decide, by decide, by decide⟩
  obtain ⟨rfl, rfl⟩ := h
  exact ⟨by decide, by decide, fun _ _ => rfl⟩

/-- Loads and stores: the last bytes of the store, sign extension, blocks, widened lanes. -/
theorem test_loads_and_stores :
    (let s := (withX atCell 1 0x7FFF8).modCell 0 (fun x => { x with store := [(0x7FFF9, 0x80), (0x7FFFF, 0xFF)] })
     let l (i : Instr) := xOf (run i s) 2
     l (.ldB (.reg 2) (.reg 1) 1 0) = -128 ∧ l (.ldBu (.reg 2) (.reg 1) 1 0) = 128 ∧ l (.ldH (.reg 2) (.reg 1) 3 0) = -256 ∧
       l (.ldHu (.reg 2) (.reg 1) 0 0) = 0x8000 ∧ l (.ldW (.reg 2) (.reg 1) 1 0) = 0xFFFFFFFFFF000000 ∧
       l (.ldWu (.reg 2) (.reg 1) 1 0) = 0xFF000000 ∧ l (.ldD (.reg 2) (.reg 1) 0 0) = 0xFF00000000008000 ∧
       ((run (.ldD (.reg 2) (.reg 1) 1 0) s).hart s.cur).tcause = 4 ∧ ((run (.ldB (.reg 2) (.reg 1) 8 0) s).hart s.cur).tcause = 4) ∧
    (let s := with2 atCell 0x100 0x1122334455667788
     let t := run (.stH (.reg 2) (.reg 1) 0x3FF 0) s
     t.getByte (.store 0 0xFE) = 0x88 ∧ t.getByte (.store 0 0xFF) = 0x77 ∧ t.getByte (.store 0 0x100) = 0 ∧
       xOf (run (.ldD (.reg 3) (.reg 1) 1 0) (run (.stD (.reg 2) (.reg 1) 1 0) s)) 3 = 0x1122334455667788 ∧
       (run (.stB (.reg 2) (.reg 1) 0 0) s).getByte (.store 0 0x100) = 0x88 ∧ (run (.stW (.reg 2) (.reg 1) 0 0) s).getByte (.store 0 0x103) = 0x55) := by decide

theorem test_wide_loads_and_stores :
    (let s := (withX atCell 1 0x40).modCell 0 (fun x => { x with store := [(0x42, 0x80), (0x43, 0x3F), (0x49, 0x77)] })
     let a (i : Instr) := ((run i s).hart s.cur).a[2]
     let w (i : Instr) := ((run i s).hart s.cur).w[2]
     a (.ldaA4 (.reg 2) (.reg 1) 0 0) = ⟨0x7700000000003F800000, false⟩ ∧ a (.ldaA32 (.reg 2) (.reg 1) 1 0) = ⟨0x770000000000_3F80, true⟩ ∧
       (w (.ldwFp32 (.reg 2) (.reg 1) 0 0))[0] = 0x3F800000 ∧ (w (.ldwBf16 (.reg 2) (.reg 1) 0 0))[1] = 0x3F800000) ∧
    (let s := (withX atCell 1 0x40).modHart (.ctx 0 0) (fun h => { h with a := h.a.set 2 ⟨0x7700000000003F800001, true⟩, w := h.w.set 2 (Vector.ofFn (fun l => if l = 1 then 0x3F808000 else 0)) })
     (run (.staA4 (.reg 2) (.reg 1) 0 0) s).getByte (.store 0 0x49) = 0x77 ∧ (run (.staA32 (.reg 2) (.reg 1) 0 0) s).getByte (.store 0 0x53) = 0 ∧
       (run (.stwFp32 (.reg 2) (.reg 1) 0 0) s).getByte (.store 0 0x45) = 0x80 ∧ (run (.stwBf16 (.reg 2) (.reg 1) 0 0) s).getByte (.store 0 0x42) = 0x80) := by decide

/-- A store to an extent is seen by its own agent at once and by memory when performed (R246). -/
theorem witness_ExtentStores :
    let s := with2 atCond 0x1000001FFF8 0xAB
    let t := run (.stD (.reg 2) (.reg 1) 0 0) s
    checkAddr s s.cur 0x1000001FFF8 8 8 true false matches .ok (.ext _ 0x1FFF8) ∧ t.getByte (.bulk 0x2FFF8) = 0 ∧
    xOf (run (.ldBu (.reg 3) (.reg 1) 0 0) t) 3 = 0xAB ∧ (run (.accessPerformed (.cond 0) 0 .cell) t).getByte (.bulk 0x2FFF8) = 0xAB ∧
    (run (.accessPerformed (.cond 0) 0 .ctx) t).getByte (.bulk 0x2FFF8) = 0 ∧ t.refusedAt [.bulk 0x2FFF8] = false ∧
    (s.translate ⟨1, 0⟩ ext1 0x1FFF8 true).2 = some (.bulk 0x2FFF8) ∧ orderHeld s s.cur (.ext ext1 0x1FFF8) = false ∧
    (s.hart s.cur).pend = [] := by decide

/-- A block over two words is performed in two pieces, in either order (R247). -/
theorem witness_Pieces :
    let s := (with2 atCond 0x1000001FFF8 0xAB).modHart (.cond 0) (fun h => h.acceptStore
      ((List.range 10).map (fun i => (.bulk (0x2F006 + i), 0xAB))) [])
    let t := run (.accessPerformed (.cond 0) 1 .region) s
    (s.hart (.cond 0)).pend.length = 2 ∧ t.getByte (.bulk 0x2F006) = 0 ∧ t.getByte (.bulk 0x2F008) = 0xAB := by decide

/-- ldf with a full word, with an empty one; a fill up to the first that empties; a release; ftst, fset and fclr. -/
theorem witness_FullEmptyLoads :
    let s := withX atCell 1 0x40
    let e := run (.ldfDc (.reg 2) (.reg 1) 0 0) s
    s.waiter s.cur = none ∧ s.isFull (.store 0 0x40) = false ∧ (e.hart s.cur).hold = some .ldf ∧ e.ldfWait.length = 1 ∧
    (let f := e.fill (.store 0 0x40)
     (f.ldfWait.map (·.got)) = [some 0] ∧ f.isFull (.store 0 0x40) = false ∧
       (let r := run (.ldfRelease (.store 0 0x40)) f; (r.hart s.cur).pc = 4 ∧ r.ldfWait = [])) ∧
    (let f := run (.stfD (.reg 1) (.reg 1) 0 0) s
     f.isFull (.store 0 0x40) = true ∧ xOf (run (.ldfW (.reg 2) (.reg 1) 0 0) f) 2 = 0x40 ∧ (run (.ldfW (.reg 2) (.reg 1) 0 0) f).isFull (.store 0 0x40) = true ∧
       xOf (run (.ldfD (.reg 2) (.reg 1) 0 0) f) 2 = 0x40 ∧ (run (.ldfDc (.reg 2) (.reg 1) 0 0) f).isFull (.store 0 0x40) = false ∧
       xOf (run (.ftst (.reg 2) (.reg 1) 0 0) f) 2 = 1 ∧ xOf (run (.ftst (.reg 2) (.reg 1) 0 0) (run (.fclr (.reg 1) 0 0) f)) 2 = 0) ∧
    (run (.fset (.reg 1) 1 0) s).isFull (.store 0 0x48) = true ∧ (run (.stfW (.reg 1) (.reg 1) 1 0) s).isFull (.store 0 0x40) = true := by decide

theorem witness_Reaches : Unwaited atCell (.store 0 0) ∧ Reaches atCell (.ctx 0 0) 0x7FFF8 8 8 true true (fun i => .store 0 (0x7FFF8 + i)) ∧
    Reaches atCond (.cond 0) 0x1000001FFF8 8 8 true true (fun i => .bulk (0x2FFF8 + i)) := by
  refine ⟨(fun w h => nomatch h), ⟨witness_Settled.1, by decide, by decide, fun i j _ _ h => ?_, by decide, .inl ⟨0, 0x7FFF8, by rfl, fun _ _ => rfl⟩⟩,
    ⟨witness_Settled.2.1, by decide, by decide, fun i j _ _ h => ?_, by decide, .inr ⟨ext1, 0x1FFF8, by rfl, by decide, fun i h => ?_⟩⟩⟩
  · simpa using h
  · simpa using h
  · match i, h with
    | 0, _ | 1, _ | 2, _ | 3, _ | 4, _ | 5, _ | 6, _ | 7, _ => rfl

/-- Atomics: old value to rd, the word replaced; the tests of the signs; deterministic mode. -/
theorem test_atomics :
    let s := (withX (with2 atCell 0x40 (-1)) 4 7).modCell 0 (fun x => { x with store := [(0x40, 5)] })
    let w (i : Instr) := (xOf (run i s) 3, BitVec.ofNat 64 (numAt (run i s) (fun i => .store 0 (0x40 + i)) 8))
    let r (f : XOp → XOp → XOp → Pg → Instr) := w (f (.reg 3) (.reg 1) (.reg 2) 0)
    let n (f : XOp → XOp → Pg → Instr) := (w (f (.reg 1) (.reg 2) 0)).2
    r .amoAdd = (5, 4) ∧ r .amoMin = (5, -1) ∧ r .amoMax = (5, 5) ∧ r .amoMinu = (5, 5) ∧ r .amoMaxu = (5, -1) ∧ r .amoAnd = (5, 5) ∧
    r .amoOr = (5, -1) ∧ r .amoXor = (5, -6) ∧ r .amoSwap = (5, -1) ∧ n .amonAdd = 4 ∧ n .amonMin = -1 ∧ n .amonMax = 5 ∧ n .amonMinu = 5 ∧
    n .amonMaxu = -1 ∧ n .amonAnd = 5 ∧ n .amonOr = -1 ∧ n .amonXor = -6 ∧
    w (.cas (.reg 3) (.reg 1) (.reg 2) (.reg 4) 0) = (5, 5) ∧
    (let t := withX s 2 5; (run (.cas (.reg 3) (.reg 1) (.reg 2) (.reg 4) 0) t).getByte (.store 0 0x40) = 7) := by decide

theorem witness_DetermAtomics :
    let s := (with2 atCell 0x40 1).modHart (.ctx 0 0) (fun h => { h with dmode := 1, woff := 0x80, wlen := 0x10 })
    let t := run (.amoAdd (.reg 3) (.reg 1) (.reg 2) 0) s; let u := run (.cas (.reg 3) (.reg 1) (.reg 2) (.reg 2) 0) s
    (s.hart s.cur).dmode.getLsbD 0 = true ∧ isOk (checkAddr s s.cur 0x40 8 8 true false) = true ∧ (t.hart s.cur).tcause = 0x0A ∧
    (t.hart s.cur).tinfo0 = 0x40 ∧ (u.hart s.cur).tcause = 0x0A := by decide

/-- An amon on an extent changes memory when it is performed. -/
theorem witness_ExtentAmon :
    let s := with2 atCond 0x10000000000 3
    let t := run (.amonAdd (.reg 1) (.reg 2) 0) s
    t.getByte (.bulk 0x10000) = 0 ∧ (t.hart s.cur).pc = 4 ∧ (run (.accessPerformed (.cond 0) 0 .cell) t).getByte (.bulk 0x10000) = 3 := by decide

/-- semw with enough, too little, and behind another; sems saturates and waits; semr; a waiter is let go. -/
theorem witness_Semaphores :
    let s (n : Nat) := (withX atCond 1 2).setRegion 0 { region0 with sems := [(5, n)] }
    (s 2).regionOf (.cond 0) = some 0 ∧ (s 2).semCount 0 5 = 2 ∧
    (run (.semw 5 (.reg 1) 0) (s 2)).semCount 0 5 = 0 ∧ ((run (.semw 5 (.reg 1) 0) (s 2)).hart (.cond 0)).pc = 4 ∧
    (let t := run (.semw 5 (.reg 1) 0) (s 1)
     (t.hart (.cond 0)).hold = some .sem ∧ t.semCount 0 5 = 1 ∧ run (.semaphoreWaiterSatisfied 0 5) t = t ∧
       (let u := t.modRegion 0 (fun r => { r with sems := [(5, 2)] })
        ((run (.semaphoreWaiterSatisfied 0 5) u).hart (.cond 0)).pc = 4 ∧ (run (.semaphoreWaiterSatisfied 0 5) u).semCount 0 5 = 0)) ∧
    (run (.sems 5 (.reg 1) 0) (s 0xFFFFFFFE)).semCount 0 5 = 0xFFFFFFFF ∧ xOf (run (.semr (.reg 2) 5 0) (s 7)) 2 = 7 ∧
    (let t := (s 1).modHart (.cond 0) (fun h => { h with pend := [⟨.store [(.bulk 0, 1)] [], 1, 0⟩] })
     t.released (.cond 0) 2 = false ∧ ((run (.sems 5 (.reg 1) 0) t).hart (.cond 0)).hold = some .fence) := by decide

/-- Waiters of one cycle stand in the order of their agents; an atomic waits for a higher agent served in its cycle. -/
theorem witness_SameCycleOrder :
    (let s := (withX atCell 1 0x40).modHart (.ctx 0 1) (fun h => { h with run := .running, x := h.x.set 1 0x40 })
     let f := Instr.ldfDc (.reg 2) (.reg 1) 0 0
     ((run f { run f { s with cur := .ctx 0 1 } with cur := .ctx 0 0 }).ldfWait.map (·.agent)) = [.ctx 0 0, .ctx 0 1]) ∧
    (let s := (withX atCond 1 0x10000000000).modCond 1 (fun c =>
        { c with region := some 0, hart := { c.hart with run := .running, x := c.hart.x.set 1 0x10000000000 } })
     let i := Instr.amoAdd (.reg 3) (.reg 1) (.reg 1) 0; let t := run i { s with cur := .cond 1 }
     (run i s).served = [(.bulk 0x10000, (AgentId.cond 0).index)] ∧ t.served = [(.bulk 0x10000, (AgentId.cond 1).index)] ∧
       ((run i { t with cur := .cond 0 }).hart (.cond 0)).hold = some .hazard ∧
       ((run i { run i s with cur := .cond 1 }).hart (.cond 1)).hold = none) := by decide

/-! ### Ports, atoms, wide values, the pulse array -/

/-- spos, socc, mkpop, bmk and srst on empty, marked and unused ports. -/
theorem witness_MarkersAndPortState :
    (let s := withPort atCell 2 (inPort 3 [.marker 0x80, num64 4, .marker 0xC0])
     (portOf s 2).used = true ∧ (portOf s 2).input = true ∧ xOf (run (.socc (.reg 1) 2 0) s) 1 ≠ 0 ∧
       (run (.spos (.reg 1) 2 0) s).hart s.cur ≠ s.hart s.cur ∧
       xOf (run (.mkpop (.reg 1) 2 0) s) 1 = 0x80 ∧ (portOf (run (.mkpop (.reg 1) 2 0) s) 2).queue.length = 2 ∧
       ((run (.bmk 2 0 7) s).hart s.cur).pc = 28 ∧ ((run (.bmk 2 1 7) s).hart s.cur).pc = 4 ∧ ((run (.bmk 2 2 0xFFFF) s).hart s.cur).pc = -4) ∧
    (let s := withPort atCell 2 (inPort 3 [num64 4]); xOf (run (.mkpop (.reg 1) 2 0) (withX s 1 9)) 1 = 0 ∧ (portOf (run (.mkpop (.reg 1) 2 0) s) 2).queue.length = 1) ∧
    (let s := withPort atCell 2 (inPort 3 [.drain]); xOf (run (.mkpop (.reg 1) 2 0) s) 1 = 0xFF ∧ (portOf (run (.mkpop (.reg 1) 2 0) s) 2).queue.length = 1) ∧
    (let s := withPort atCell 2 (inPort 3 [])
     ((run (.mkpop (.reg 1) 2 0) s).hart s.cur).hold = some (.empty 2) ∧ ((run (.bmk 2 0 7) s).hart s.cur).hold = some (.empty 2)) ∧
    ((run (.spos (.reg 1) 2 0) atCell).hart (.ctx 0 0)).tcause = 5 ∧ ((run (.mkpop (.reg 1) 2 0) (withPort atCell 2 (outPort 3))).hart (.ctx 0 0)).tcause = 5 := by decide

theorem witness_PatternsReset :
    (let o := { inPort 3 [num64 1] with cur := some { pat1 0 2 with pos := 1 }, nxt := some (pat1 8 1) }
     let t := run (.srst 2 0) (withPort atCell 2 o)
     o.out = [] ∧ (portOf t 2).cur = some (pat1 8 1) ∧ (portOf t 2).nxt = none ∧ (portOf t 2).queue = []) ∧
    (let o := { outPort 3 with cur := some (pat1 0 2), out := [⟨0, .scalar 1, 0, []⟩] }
     ((run (.srst 2 0) (withPort atCell 2 o)).hart (.ctx 0 0)).hold = some .srst) ∧
    ((run (.srst 2 0) (withPort atCell 2 { inPort 3 [] with chan := true })).hart (.ctx 0 0)).tcause = 5 := by decide

/-- Stream reductions that meet their marker and that run empty. -/
theorem witness_StreamReductions :
    (let s := withX (withPort atCell 1 (inPort 3 [num64 4, num64 5, .marker 0x80])) 1 5
     Holds s 1 [0, 1, 2, 3] ([4, 5].map (fun v => Item.data (.scalar v)) ++ [.marker 0x80]) ∧
       xOf (run (.saccx 2 1 0) s) 2 = 9 ∧ (portOf (run (.saccx 2 1 0) s) 1).queue = [] ∧
       xOf (run (.sskip 1 1 0) s) 1 = 3 ∧ (portOf (run (.sskip 1 1 0) s) 1).queue.length = 1 ∧ xOf (run (.sskip 1 1 0) (withX s 1 1)) 1 = 0) ∧
    (let s := withX (withPort atCell 1 (inPort 3 [num64 4, num64 5])) 1 5
     let t := run (.saccx 2 1 0) s
     xOf t 2 = 9 ∧ (t.hart s.cur).rdh = true ∧ (t.hart s.cur).hold = some (.empty 1) ∧ (t.hart s.cur).pc = 0 ∧
       xOf (run (.saccx 2 1 0) (withPort t 1 (inPort 3 [num64 1, .marker 0x80]))) 2 = 10 ∧
       ((run (.sskip 1 1 0) s).hart s.cur).hold = some (.empty 1) ∧ xOf (run (.sskip 1 1 0) s) 1 = 3) ∧
    (let v : Item := .data (.wide (Vector.replicate 24 0x3F800000))
     let t := run (.sacc 3 1 0) (withPort atCell 1 (inPort 6 [v, v, .marker 0xC0]))
     (t.hart t.cur).w[3][23] = 0x40000000 ∧ (t.hart t.cur).pc = 4) ∧
    (let s := withPort (withPort atCell 1 (inPort 3 [num64 1, num64 3, num64 7, .marker 0x80])) 2 (inPort 3 [num64 3, num64 4, num64 7, .marker 0x80])
     [(1 : DWord), 3, 7].Pairwise (fun a b => a.toNat < b.toNat) ∧ xOf (run (.sisect 5 1 2 0) s) 5 = 2) := by
  refine ⟨⟨⟨by decide, by decide, by decide, by decide⟩, by decide⟩, by decide, by decide, by decide⟩

/-- Patterns: R225's own example, with C0 = 2 and with C0 = 0; the loop nest of a pattern with every marker. -/
theorem test_pattern_entries :
    (spatPattern 0x1000 0x0000000200000002 0xD3 16 0).map (fun p => ((List.range p.total).map p.entry, p.addr ⟨1, 1, 0, 0⟩)) =
      some ([.token ⟨0, 0, 0, 0⟩, .token ⟨1, 0, 0, 0⟩, .mark 0x80 ⟨2, 0, 0, 0⟩, .token ⟨0, 1, 0, 0⟩,
         .token ⟨1, 1, 0, 0⟩, .mark 0x80 ⟨2, 1, 0, 0⟩, .mark 0xC0 ⟨2, 2, 1, 1⟩], 0x1018) ∧
    (spatPattern 0x1000 0x0000000200000000 0xD3 16 0).map (fun p => (List.range p.total).map p.entry) =
      some [.mark 0x80 ⟨0, 0, 0, 0⟩, .mark 0x80 ⟨0, 1, 0, 0⟩, .mark 0xC0 ⟨0, 2, 1, 1⟩] ∧
    (spatPattern 0 0 8 0 0).isNone = true := by decide

/-- The pattern engine: a fetch of a token, of a marker, of one that fails its check; a write; a completion; a cell's spat. -/
theorem witness_PatternEngine :
    (let o := { inPort 3 [] with cur := some (pat1 0x40 2) }
     let s := (withPort atCell 1 o).modCell 0 (fun x => { x with store := [(0x40, 9)] })
     (pat1 0x40 2).entry 0 = .token ⟨0, 0, 0, 0⟩ ∧ (portOf (run (.apeFetch 0 0 1) s) 1).queue = [⟨num64 9, 0, ⟨0, 0, 0, 0⟩, 0x40⟩]) ∧
    (let o := { inPort 3 [] with cur := some { pat1 0x40 1 with marks := 0x10, pos := 1 } }
     (portOf (run (.apeFetch 0 0 1) (withPort atCell 1 o)) 1).queue.map (·.item) = [.marker 0xC0]) ∧
    (let o := { inPort 3 [] with cur := some (pat1 0x80000 2) }
     let t := run (.apeFetch 0 0 1) (withPort atCell 1 o)
     (portOf t 1).queue.map (·.item) = [.failed .bounds 0x80000] ∧ (portOf t 1).dead = true ∧ run (.apeFetch 0 0 1) t = t) ∧
    (let o := { outPort 3 with cur := some (pat1 0x40 2), out := [⟨0x40, .scalar 0x1234, 0, []⟩] }
     let t := run (.patternWrite 0 0 1) (withPort atCell 1 o)
     t.getByte (.store 0 0x41) = 0x12 ∧ (portOf t 1).out = [] ∧ run (.patternWrite 0 0 1) t = t) ∧
    (let o := { inPort 3 [] with cur := some { pat1 0x40 2 with pos := 2 }, nxt := some (pat1 0 1) }
     (portOf (run (.completionEvent 0 0 1) (withPort atCell 1 o)) 1).cur = some (pat1 0 1) ∧
       (let s := withPort atCell 1 { o with cur := some (pat1 0x40 2) }; run (.completionEvent 0 0 1) s = s)) := by decide

theorem witness_CellPatterns :
    (let s := withX (withX (withPort atCell 3 (inPort 3 [])) 6 0x1000) 7 0x0000000200000002
     let i := Instr.spat (.port 3) (.reg 6) (.reg 7) 0xD3 16 ⟨none, none⟩ 0
     let t := run i s; let u := run i t
     (portOf t 3).cur.map (·.base) = some 0x1000 ∧ (t.hart s.cur).pc = 16 ∧ (portOf u 3).nxt.map (·.c1) = some 2 ∧ ((run i u).hart s.cur).hold = some .pattern ∧
       ((run (.spat (.port 3) (.reg 6) (.reg 7) 0xD2 16 ⟨none, none⟩ 0) s).hart s.cur).tcause = 5 ∧
       ((run (.spat (.port 3) (.reg 6) (.reg 7) 0xD8 16 ⟨none, none⟩ 0) s).hart s.cur).tcause = 1) ∧
    (let s := (withX (withPort atCell 3 (inPort 3 [])) 6 0x40).modCell 0 (fun x => { x with store := [(0x41, 1), (0x48, 2), (0x68, 3)] })
     let i := Instr.spatr (.port 3) (.reg 6) ⟨none, none⟩ 0; let t := run i s; let u := run i t
     (portOf t 3).cur.map (fun p => (p.base, p.c0, p.ttype)) = some (0x100, 2, 3) ∧ (t.hart s.cur).pc = 16 ∧
       (portOf u 3).nxt.map (·.c0) = some 2 ∧ ((run i u).hart s.cur).hold = some .pattern ∧
       ((run i (withPort s 3 (inPort 2 []))).hart s.cur).tcause = 5 ∧ ((run i (withX s 6 0x38)).hart s.cur).tcause = 1 ∧
       ((run i (withX s 6 0x44)).hart s.cur).tcause = 3) := by decide

/-- R195: the worked program's sum, rectified block, masked block and lanes. -/
theorem test_atoms_of_the_worked_program :
    let s := atCell.modHart (.ctx 0 0) (fun h => { h with a := (h.a.set 0 ⟨0x02A93292997F, false⟩).set 1 ⟨0x014611F1517F, false⟩, m := h.m.set 1 0x21 })
    let t1 := run (.aaddA4 (.reg 2) (.reg 0) (.reg 1) 0) s
    let t2 := run (.arelu (.reg 3) (.reg 2) 0) t1
    let t3 := run (.amsk (.reg 4) (.reg 3) (.reg 1) 0) t2
    let t4 := run (.dec (.reg 0) (.reg 4) 0) t3
    (t1.hart s.cur).a[2] = ⟨0x06ABE29A997D, false⟩ ∧ (t2.hart s.cur).a[3] = ⟨0x0340E40FB67C, false⟩ ∧ (t3.hart s.cur).a[4] = ⟨0xE40BBE7C, false⟩ ∧
    (t4.hart s.cur).w[0][0] = 0x40B00000 ∧ (t4.hart s.cur).w[0][5] = 0x40E00000 ∧ (t4.hart s.cur).fps = 0 := by decide

/-- The search of R16, negation of R20, the tailings of R17, fields of R112, the NaN block's flags. -/
theorem test_atom_examples :
    let v : Wide := Vector.ofFn (fun l => if l = 0 then 0x40400000 else if l = 1 then 0xBFC00000 else if l = 2 then 0x3F000000 else 0)
    let s := (with2 atCell 6 0).modHart (.ctx 0 0) (fun h => { h with w := h.w.set 1 v, a := h.a.set 5 ⟨0xFF, false⟩ })
    let t := run (.encA4 (.reg 1) (.reg 1) 0) s
    (t.hart s.cur).a[1] = ⟨0x0AB77C, false⟩ ∧ ((run (.aneg (.reg 2) (.reg 1) 0) t).hart s.cur).a[2] = ⟨0x0ABC7C, false⟩ ∧
    (let u := run (.enctA4 (.reg 2) (.reg 1) (.reg 3) 0) s; let u2 := run (.enctA4 (.reg 4) (.reg 1) (.reg 3) 0) u
     (u.hart s.cur).tl[3][0] = 0xBF400000 ∧ (u.hart s.cur).tl[3][1] = 0xBE800000 ∧ (u.hart s.cur).tl[3][2] = 0x3F000000 ∧
       (u2.hart s.cur).tl[3][0] = 0xBE800000 ∧ (u2.hart s.cur).tl[3][1] = 0xBF000000) ∧
    xOf (run (.aget (.reg 3) (.reg 1) (.reg 1) 0) t) 3 = 0x7C ∧ xOf (run (.aget (.reg 3) (.reg 1) (.reg 2) 0) t) 3 = 0xAB7 ∧
    ((run (.ascl (.reg 2) (.reg 1) (.reg 1) 0) t).hart s.cur).a[2] = ⟨0x0AB782, false⟩ ∧
    ((run (.asubA4 (.reg 2) (.reg 5) (.reg 1) 0) t).hart s.cur).fps = 1 ∧ ((run (.acvtA4 (.reg 2) (.reg 5) 0) t).hart s.cur).fps = 0 ∧
    xOf (run (.adot (.reg 3) (.reg 1) (.reg 1) 0) t) 3 = 0x417A0000 ∧
    ((run (.aset (.reg 1) (.reg 1) (.reg 1) 0) t).hart s.cur).a[1] = ⟨0x0AB706, false⟩ := by decide

/-- A malformed block: MAL, or MALATOM in deterministic mode with the trap bit. -/
theorem witness_MalformedOperands :
    let s (d : BitVec 2) := atCell.modHart (.ctx 0 0) (fun h => { h with a := h.a.set 3 ⟨0xFFFF7F, false⟩, dmode := d })
    (⟨0xFFFF7F, false⟩ : Block).malformed = some (0, 0xFFF) ∧ (⟨0, true⟩ : Block).malformed = none ∧
    ((run (.dec (.reg 0) (.reg 3) 0) (s 1)).hart (.ctx 0 0)).fps = 16 ∧ ((run (.dec (.reg 0) (.reg 3) 0) (s 3)).hart (.ctx 0 0)).tcause = 7 ∧
    ((run (.dec (.reg 0) (.reg 3) 0) (s 3)).hart (.ctx 0 0)).tinfo0 = 24 := by decide

/-- Lanes at their corners: flags, NaNs, conversions, comparisons, reductions, moves of lanes. -/
theorem test_wide_arithmetic :
    (let one (i : Instr) (a b : Word) :=
       let t := run i (atCell.modHart (.ctx 0 0) (fun h => { h with w := (h.w.set 1 (Vector.replicate 24 a)).set 2 (Vector.replicate 24 b) }))
       ((t.hart t.cur).w[3][23], (t.hart t.cur).fps)
     let f2 (i : WOp → WOp → WOp → Pg → Instr) := i (.reg 3) (.reg 1) (.reg 2) 0
     one (f2 .wadd) 0x3F800000 0x40000000 = (0x40400000, 0) ∧ one (f2 .wadd) 0x7F7FFFFF 0x7F7FFFFF = (0x7F800000, 4) ∧
     one (f2 .wsub) 0x7F800000 0x7F800000 = (0x7FC00000, 1) ∧ one (f2 .wmul) 0x00800000 0x3F000000 = (0, 8) ∧
     one (f2 .wmin) 0x80000000 0 = (0x80000000, 0) ∧ one (f2 .wmax) 0x3F800000 0xBF800000 = (0x3F800000, 0) ∧
     one (.wfma (.reg 3) (.reg 1) (.reg 2) (.reg 1) 0) 0x40000000 0x40400000 = (0x41000000, 0) ∧
     one (.wfms (.reg 3) (.reg 1) (.reg 2) (.reg 1) 0) 0x40000000 0x40400000 = (0x40800000, 0) ∧
     one (.wfnma (.reg 3) (.reg 1) (.reg 2) (.reg 1) 0) 0x40000000 0x40400000 = (0xC0800000, 0)) := by decide +kernel

/-- Values of one operand, lane by lane. -/
theorem test_wide_functions :
    (let f (i : Word → Word × BitVec 5) (a : Word) := i a
     f frcp 0 = (0x7F800000, 2) ∧ f frsq 0x40800000 = (0x3F000000, 0) ∧ f fsqrt 0xBF800000 = (0x7FC00000, 1) ∧ f fexp2 0x40000000 = (0x40800000, 0) ∧
     f flog2 0x41000000 = (0x40400000, 0) ∧ f fToInt 0x40A00000 = (5, 0) ∧ f fToInt 0x4F000000 = (0x7FFFFFFF, 1)) ∧
    (let one (i : WOp → WOp → Pg → Instr) (a : Word) :=
       let t := run (i (.reg 3) (.reg 1) 0) (atCell.modHart (.ctx 0 0) (fun h => { h with w := h.w.set 1 (Vector.ofFn (fun l => if l = 23 then a else 0)) }))
       ((t.hart t.cur).w[3][23], (t.hart t.cur).fps)
     one .wabs 0xBF800000 = (0x3F800000, 0) ∧ one .wneg 0x3F800000 = (0xBF800000, 0) ∧ one .wcvtif 5 = (0x40A00000, 0) ∧
     one .wcvtbf 0x3F80 = (0x3F800000, 0) ∧ one .wcvtfb 0x3F808000 = (0x3F80, 0) ∧ one .wmov 0x7FA00000 = (0x7FA00000, 0) ∧
     one .wredsum 0x3F800000 = (0x3F800000, 0) ∧ one .wredmax 0x3F800000 = (0x3F800000, 0) ∧ one .wredmin 0x3F800000 = (0, 0)) := by decide +kernel

theorem test_wide_moves :
    let s := (with2 atCell 0x3F800000 23).modHart (.ctx 0 0) (fun h => { h with m := h.m.set 1 1, w := ((h.w.set 1 (Vector.ofFn (fun l => BitVec.ofNat 32 (0x3F800000 + l.val)))).set 2 (Vector.replicate 24 0x3F800017)).set 4 (Vector.replicate 24 23) })
    let w (i : Instr) := ((run i s).hart s.cur).w[3]
    (w (.wbcst (.reg 3) (.reg 1) 0))[23] = 0x3F800000 ∧ (w (.wins (.reg 3) (.reg 1) (.reg 2) 0))[23] = 0x3F800000 ∧
    xOf (run (.wext (.reg 3) (.reg 1) (.reg 2) 0) s) 3 = 0x3F800017 ∧ ((run (.wext (.reg 3) (.reg 1) (.reg 1) 0) s).hart s.cur).tcause = 4 ∧
    ((run (.wins (.reg 3) (.reg 1) (.reg 2) 0) (withX s 2 24)).hart s.cur).tcause = 4 ∧ ((run (.wins (.reg 3) (.reg 1) (.reg 2) 0) (withX s 2 24)).hart s.cur).tinfo1 = 24 ∧
    (w (.wshuf (.reg 3) (.reg 1) (.reg 4) 0))[0] = 0x3F800017 ∧ (w (.wshuf (.reg 3) (.reg 1) (.reg 2) 0))[5] = 0 ∧
    (w (.wsel (.reg 3) (.reg 1) (.reg 2) (.reg 1) 0))[0] = 0x3F800000 ∧ (w (.wsel (.reg 3) (.reg 1) (.reg 2) (.reg 1) 0))[1] = 0x3F800017 ∧
    ((run (.wcmpeq (.reg 2) (.reg 1) (.reg 2) 0) s).hart s.cur).m[2] = 0x800000 ∧ ((run (.wcmplt (.reg 2) (.reg 1) (.reg 2) 0) s).hart s.cur).m[2] = 0x7FFFFF ∧
    ((run (.wcmple (.reg 2) (.reg 1) (.reg 1) 0) s).hart s.cur).m[2] = 0xFFFFFF := by decide

theorem witness_AtomAndWideFrames :
    (let t := run (.wadd (.reg 3) (.reg 1) (.reg 2) 0) atCell
     wideDest (.wadd (.reg 3) (.reg 1) (.reg 2) 0) = some (.w (.reg 3)) ∧ Completed atCell t) ∧
    isOk (operandBlock (work atCell) 0 (.reg 1)) = true ∧ isOk (readW (work atCell) 0 (.reg 1)) = true ∧ isOk (readTl (work atCell) 0 (.reg 1)) = true ∧
    Block.zero.isNan = false ∧ (List.replicate 24 (0 : Int)).length = 24 ∧ finite 0x7F7FFFFF ∧ isNan 0x7F800001 = true ∧ isInf 0xFF800000 = true ∧
    isZero 0x80000000 = true ∧ (∀ j, j < 6 → atomSum (List.replicate 24 0) j = 0) ∧ atomSum [-5, 6] 0 = 11 := by
  refine ⟨⟨rfl, by decide, by decide, by decide, by decide⟩, by decide, by decide, by decide, by decide, by decide, by unfold finite; decide, by decide, by decide,
    by decide, by decide, by decide⟩

/-- R26: a lane below 2^-126 narrows to a signed zero with UNF; R17: -0 stays -0; R34 rule 3 pops and then pushes. -/
theorem test_narrow_tail_and_turned_port :
    bfNarrow 0x80000001 = (0x8000, 8) ∧ bfNarrow 0x3F808000 = (0x3F80, 0) ∧
    (let s := withPort (inChannel 2) 2 { inPort 3 [num64 5] with chan := true }
     let t := run (.lih (.port 2) 0x1FFFFF) s
     (portOf t 2).queue.map (·.item) = [num64 0xFFFFFFFF00000005] ∧ (t.hart s.cur).pc = 4) := by decide

/-- mkpop at a failed and at a refused head; srst and a completion held by a write of the pattern in the side log. -/
theorem witness_FailedHeadsAndLoggedWrites :
    (let s (i : Item) := withPort atCell 2 (inPort 3 [i]); let n (i : Item) := run (.mkpop (.reg 1) 2 0) (s i)
     xOf (n (.failed .bounds 0x40)) 1 = 0 ∧ (portOf (n (.failed .bounds 0x40)) 2).queue.length = 1 ∧
       ((n (.trapped .uncorr 0x40 3)).hart (.ctx 0 0)).pc = 4 ∧ (portOf (n (.trapped .uncorr 0x40 3)) 2).queue.length = 1) ∧
    (let o := { outPort 3 with cur := some { pat1 0x40 2 with pos := 2 } }
     let s := (withPort atCell 2 o).modCell 0 (fun x => { x with log := [⟨.lazy, 0, [], [], 0, some 2, false⟩] })
     ((run (.srst 2 0) s).hart (.ctx 0 0)).hold = some .srst ∧ run (.completionEvent 0 0 2) s = s) := by decide

/-- Array operations at issue: entered, at the bounds of Kb and of the store, misaligned, a full class, a race. -/
theorem witness_PulseOperationsEnter :
    let s (k : DWord) := withX (with2 atCell 0x7D740 0x40) 3 k
    let i := Instr.mmaA4a4 1 2 (.reg 1) (.reg 2) (.reg 3) 0
    (s 257).cur = .ctx 0 0 ∧ On (s 1) 0 ∧ ((run i (s 257)).hart (.ctx 0 0)).tcause = 4 ∧ ((run i (s 257)).hart (.ctx 0 0)).tinfo1 = 256 ∧
    ((run i (withX (s 1) 1 3)).hart (.ctx 0 0)).tcause = 3 ∧ ((run i (s 22)).hart (.ctx 0 0)).tinfo0 = 0x7D740 ∧
    ((run i (s 21)).cell 0).ops.map (fun o => (o.kb, o.est, o.ranges, o.tag)) = [(21, 9072, [(0x7D740, 10080), (0x40, 5040)], 0)] ∧
    ((run i (s 0)).cell 0).ops.map (·.ranges) = [[]] ∧ MayEnter (s 1) 0 0 1 2 ∧
    (let full := run i (run i (run i (run i (s 0)))); (full.cell 0).ops.length = 4 ∧ ((run i full).hart (.ctx 0 0)).hold = some .array) ∧
    (let det := (run (.mzero 1 3 0) (s 0)).modHart (.ctx 0 0) (fun h => { h with dmode := 1 })
     ((run i det).hart (.ctx 0 0)).tcause = 8 ∧ ((run i det).hart (.ctx 0 0)).tinfo0 = 9) ∧
    (let m := ((s 1).modHart (.ctx 0 0) (fun h => { h with dmode := 3 })).modCell 0 (fun x => { x with store := [(0x7D741, 0xFF), (0x7D742, 0xFF)] })
     ((run i m).hart (.ctx 0 0)).tcause = 7 ∧ ((run i m).hart (.ctx 0 0)).tinfo0 = 8) := by
  refine ⟨rfl, .inl rfl, by decide, by decide, by decide, by decide, by decide, by decide, ⟨by decide, by decide⟩, by decide, by decide, by decide⟩

/-- A sparse and a ragged operation, legal and not: a first row pointer that is not 0, a count beyond 48. -/
theorem witness_SparseAndRaggedOperations :
    (let s (p0 : Byte) := (withX (with2 atCell 0x1000 0x40) 3 1).modCell 0 (fun x => { x with
        store := ((x.store.write 0x40 [0x80, 0, 0, 0, 0xA0, 0, 0, 0, 0xC0]).write 0x80 [p0, 0, 0, 0, 2]).write 0xA0 [3, 7] })
     let i := Instr.mmacsrA4 0 0 (.reg 1) (.reg 2) (.reg 3) 0
     ((run i (s 0)).cell 0).ops.map (fun o => (o.form, o.est)) = [(.csr false [[(3, 0xC0), (7, 0xCA)]], 300)] ∧
       ((run i (s 1)).hart (.ctx 0 0)).tcause = 4 ∧ ((run i (s 1)).hart (.ctx 0 0)).tinfo0 = 0x80 ∧ ((run i (s 1)).hart (.ctx 0 0)).tinfo1 = 1) ∧
    (let s (c : Byte) := (withX (with2 atCell 0x1000 0x40) 3 1).modCell 0 (fun x => { x with
        store := x.store.write 0x40 [2, 0, 0, 0, 0, 0, 0, 0, 8, c, 0, 0, 0, 0, 0, 0, 0, 4, 0, 0, 0, 8] })
     let i := Instr.mmagA32 0 0 (.reg 1) (.reg 2) (.reg 3) 0
     ((run i (s 40)).cell 0).ops.map (fun o => (o.form, o.panels, o.est)) = [(.groups true, [⟨0, 8, 0x400⟩, ⟨8, 40, 0x800⟩], 576)] ∧
       ((run i (s 41)).hart (.ctx 0 0)).tcause = 0x0B ∧ ((run i (s 41)).hart (.ctx 0 0)).tinfo0 = 49 ∧ ((run i (s 41)).hart (.ctx 0 0)).tinfo1 = 2) := by decide

/-- mrd, mwr, mst, mwait, mbudget and mstat: at their row bounds, on a busy tile, done and waiting. -/
theorem witness_DirectTileAccesses :
    (let s := (withX atCell 1 47).modHart (.ctx 0 0) (fun h => { h with w := h.w.set 1 (Vector.replicate 24 5) })
     let t := run (.mwr 2 1 (.reg 1) (.reg 1) 0) s
     (t.cell 0).acc[2].length = 24 ∧ ((run (.mrd (.reg 2) 2 1 (.reg 1) 0) t).hart s.cur).w[2][23] = 5 ∧
       ((run (.mrd (.reg 2) 2 1 (.reg 2) 0) t).hart s.cur).w[2][23] = 0 ∧
       ((run (.mrd (.reg 2) 2 1 (.reg 1) 0) (withX t 1 48)).hart s.cur).tcause = 4 ∧ ((run (.mwr 2 1 (.reg 2) (.reg 1) 0) (withX t 1 48)).hart s.cur).tinfo1 = 48 ∧
       (let b := run (.mzero 2 0 0) t
        ((run (.mrd (.reg 2) 2 1 (.reg 1) 0) b).hart s.cur).tcause = 9 ∧ ((run (.mwr 2 1 (.reg 2) (.reg 1) 0) b).hart s.cur).tinfo0 = 2 ∧
          ((run (.mwait 0 0) b).hart s.cur).hold = some (.mwait 1) ∧ ((run (.mwait 1 0) b).hart s.cur).pc = (b.hart s.cur).pc + 4 ∧
          xOf (run (.mstat (.reg 3) 0) b) 3 ≠ 0)) ∧
    ((run (.mbudget (.reg 1) 0) (withX atCell 1 431)).cell 0).bcap = 432 ∧ ((run (.mbudget (.reg 1) 0) (withX atCell 1 65536)).cell 0).bcap = 65535 := by decide +kernel

/-- mst at issue: entered, misaligned base, misaligned stride, a stride below the row size, a range one step too far. -/
theorem witness_TileStores :
    let s (a st : DWord) := (with2 atCell a st).modCell 0 (fun x => { x with acc := x.acc.set 0 [(25, 0x3F800000)] })
    let i := Instr.mstF32 0 0 (.reg 1) (.reg 2) 0
    ((run i (s 0x40 96)).cell 0).msts.map (fun m => m.rows.length) = [48] ∧ ((run i (s 0x42 96)).hart (.ctx 0 0)).tcause = 3 ∧
    ((run i (s 0x40 98)).hart (.ctx 0 0)).tinfo0 = 98 ∧ ((run i (s 0x40 92)).hart (.ctx 0 0)).tinfo1 = 96 ∧
    ((run i (s 0x7EE04 96)).hart (.ctx 0 0)).tinfo1 = 0x80000 ∧ ((run i (s 0x7EE00 96)).cell 0).msts.length = 1 := by decide +kernel

theorem test_tile_stores :
    let s (a st : DWord) := (with2 atCell a st).modCell 0 (fun x => { x with acc := x.acc.set 0 [(25, 0x3F800000)] })
    let t := run (.mstStoresPerformed 0 0 2) (run (.mstF32 0 0 (.reg 1) (.reg 2) 0) (s 0x40 96))
    t.getByte (.store 0 (0x40 + 96 + 7)) = 0x3F ∧ (t.cell 0).msts.map (fun m => m.rows.length) = [46] ∧
    (let m := ((run (.mstA4 0 0 (.reg 1) (.reg 2) 0) (s 0x40 10)).cell 0).msts
     m.map (fun m => (m.rows.getD 1 (0, [])).1) = [0x4A] ∧ m.map (fun m => (m.rows.getD 1 (0, [])).2.length) = [10]) ∧
    ((run (.mstA32 0 0 (.reg 1) (.reg 2) 0) (s 0x40 20)).cell 0).msts.length = 1 := by decide +kernel

/-- The array at work: a head starts, a k-block waits for its budget and starts, an operation completes, a refill. -/
theorem witness_ArraySteps :
    (let s := run (.mmaA4a4 1 2 (.reg 1) (.reg 2) (.reg 3) 0) (withX (with2 atCell 0x1000 0x40) 3 2)
     let t := run (.operationStart 0) s
     (t.cell 0).ops.map (·.running) = [true] ∧
       (let b := t.modCell 0 (fun x => { x with store := [(0x1000, 0xFF)], budget := 5, lastRefill := 1 })
        (b.cell 0).ops.map (fun o => (o.nextK, o.readyAt)) = [(0, 0)] ∧ run (.kBlockStart 0) b = b ∧ ((b.startBlock 0 true).cell 0).stalls = 1 ∧
          (let c := run (.kBlockStart 0) (b.modCell 0 (fun x => { x with budget := 6 }))
           (c.cell 0).ops.map (·.nextK) = [1] ∧ (c.cell 0).budget = 0))) ∧
    (let s := run (.mzero 1 2 0) (atCell.modCell 0 (fun x => { x with acc := x.acc.set 1 [(0, 5)] }))
     let t := run (.operationComplete 0) (run (.operationStart 0) s)
     (t.cell 0).ops = [] ∧ (t.cell 0).acc[1] = []) ∧
    (let t := run (.budgetRefill 0) atCell
     (t.cell 0).budget = 432 ∧ (t.cell 0).lastRefill = 1 ∧ run (.budgetRefill 0) t = t) ∧
    groupSum 0 [(0, some (2 ^ 128)), (1, none)] = (0x7FC00001, 1) ∧ groupSum 0x7F800000 [(0, some 1)] = (0x7F800000, 0) ∧
    groupSum 0x80000000 [(0, some 0)] = (0x80000000, 0) := by decide +kernel

/-! ### Commands and clauses -/

namespace Sys2Proof.Tests

/-- Conductor 0 with two addresses of extent 1 and a third value. -/
def atCond3 (a b c : DWord) : State := withX (with2 atCond a b) 3 c

/-- The operation that a command puts into the queue of conductor 0. -/
def queued (i : Instr) (a b c : DWord) : Option CmdOp := (((run i (atCond3 a b c)).cond 0).cmds.head?).map (·.op)

/-- The cause and information of the trap that an instruction takes at conductor 0. -/
def trapAt (i : Instr) (a b c : DWord) : DWord × DWord × DWord :=
  let h := (run i (atCond3 a b c)).hart (.cond 0)
  (h.tcause, h.tinfo0, h.tinfo1)

/-- A clause image of one role, whose stage starts at 4, and its eight bytes of cell store. -/
def image : List (Nat × List Byte) := [
  (0, [1, 0, 1, 0, 2, 0, 0, 0, 10]), (0x14, [0, 1, 0, 0, 0x40]), (0x40, [0xF0, 0, 0, 0, 8]),
  (0x50, [4, 0, 0, 0, 0x40]), (0x60, [0, 1, 0, 1, 0, 0xFF, 1]), (0xF0, [1, 2, 3, 4, 5, 6, 7, 8])]
def withImage (s : State) : State := { s with bulk := image.foldl (fun m e => m.write (2 ^ 16 + e.1) e.2) s.bulk }

/-- A queued command of conductor 0, dispatched. -/
def withCmd (s : State) (op : CmdOp) (sig : Option Signal) : State :=
  s.modCond 0 (fun c => { c with cmds := [{ newCommand 0 op ⟨none, sig⟩ c.hart with dispatched := true, run := some 0, clause := 0 }], nextId := 1 })

/-- Roles 0 and 1 of clause 0 run on cells 0 and 1 of region 0; conductor 0 is the current agent. -/
def twoCells : State :=
  let s := { inClause with cur := .cond 0 }
  let s := s.setRegion 0 { region0 with clauses := [{ clause0 with roles := [role0, role0], cells := [0, 1], loaded := [0, 1] }], loads := 1, roleMap := [0, 1] }
  s.modCell 1 (fun x => { x with bound := some (0, 0, 1), loaded := true, store := [(0x10, 7), (0x11, 8), (0x100, 1)] })

end Sys2Proof.Tests

/-- Every command joins the queue with the operands it read. -/
theorem witness_CommandsQueue :
    (let a : DWord := 0x10000000000; let b : DWord := 0x10000000800
     queued (.nopl ⟨some ⟨1, 2⟩, none⟩ 0) a b 8 = some .nopl ∧ queued (.copy (.reg 1) (.reg 2) (.reg 3) 0 ⟨none, none⟩ 0) a b 8 = some (.copy a b 8 0) ∧
     queued (.fill (.reg 1) (.reg 2) (.reg 3) 0x20 ⟨none, none⟩ 0) a b 8 = some (.fill a b 8 0x20) ∧
     queued (.fprint (.reg 1) (.reg 2) (.reg 3) true ⟨none, none⟩ 0) a b 2 = some (.fprint a b 2 true) ∧
     queued (.cmpr (.reg 1) (.reg 1) (.reg 2) false 16 ⟨none, none⟩ 0) a b 8 = some (.cmpr a a b false 16) ∧
     queued (.gather (.reg 1) (.reg 2) (.reg 2) 0 0 2 ⟨none, none⟩ 0) a b 8 = some (.gather a b b 0 8 2) ∧
     queued (.scatter (.reg 1) (.reg 2) (.reg 2) false 1 2 ⟨none, none⟩ 0) a b 8 = some (.scatter a b b false 16 2) ∧
     queued (.rcopy (.reg 1) (.reg 2) (.reg 3) 7 true 5 ⟨none, none⟩ 0) a b 8 = some (.rcopy a b 8 7 true 5) ∧
     queued (.reduce (.reg 1) (.reg 2) (.reg 3) 0 2 ⟨none, none⟩ 0) a b 8 = some (.reduce a b 8 0 2) ∧
     queued (.xmap (.reg 1) true ⟨none, none⟩ 0) a b 8 = some (.xmap a true) ∧ queued (.rolemap (.reg 1) ⟨none, none⟩ 0) a b 8 = some (.rolemap a) ∧
     queued (.attn (.reg 2) ⟨none, none⟩ 0) a b 8 = some (.attn b) ∧ queued (.lfork (.reg 2) ⟨none, none⟩ 0) a b 8 = some (.lfork b) ∧
     queued (.lapp (.reg 3) (.reg 1) (.reg 3) ⟨none, none⟩ 0) a b 8 = some (.lapp 8 a 8) ∧ queued (.lput (.reg 3) (.reg 1) (.reg 3) ⟨none, none⟩ 0) a b 8 = some (.lput 8 a 8) ∧
     queued (.lget (.reg 3) (.reg 1) (.reg 3) 0 ⟨none, none⟩ 0) a b 8 = some (.lget 8 a 8 0) ∧
     queued (.lshare (.reg 3) (.reg 3) (.reg 3) true ⟨none, none⟩ 0) a b 8 = some (.lshare 8 8 8 true) ∧ queued (.lrel (.reg 3) ⟨none, none⟩ 0) a b 8 = some (.lrel 8) ∧
     queued (.linv (.reg 3) false ⟨none, none⟩ 0) a b 8 = some (.linv 8 false)) ∧
    (let s := (atCond3 0x20000000000 0x10000000000 64).setRegion 0 { region0 with extents := [ext1, ⟨2, .seam, true, false, false, 0, 2 ^ 16, 0⟩] }
     (s.seamAddr s.cur 0x20000000000) = some 0 ∧ s.seamBusy 0 = false ∧
       ((run (.seamw (.reg 1) (.reg 2) (.reg 3) ⟨none, none⟩ 0) s).cond 0).cmds.map (·.op) = [.seamw 0x20000000000 0x10000000000 64]) := by decide +kernel

/-- clause and cwait; spat and spatr of a conductor; the queue that is full; a context's command and its plain nopl. -/
theorem witness_CommandsOfOtherKinds :
    (let s := atCond3 0x10000000000 3 0
     let t := run (.clause (.reg 1) (.reg 2) ⟨none, none⟩ 0) s
     (t.cond 0).cmds.map (fun c => (c.op, c.clause)) = [(.clause 0x10000000000 3, 0)] ∧ (t.hart (.cond 0)).clause = 1 ∧
       (let u := run (.cwait (.reg 3) ⟨none, none⟩ 0) t
        (u.hart (.cond 0)).hold = some .cwait ∧ (u.cond 0).cmds.length = 2 ∧ run (.cwait (.reg 3) ⟨none, none⟩ 0) u = u) ∧
       ((run (.cwait (.reg 3) ⟨none, none⟩ 0) s).hart (.cond 0)).tcause = 4) ∧
    (let s := (withX (withX (withX twoCells 1 0x40000) 2 0x100) 3 0x0000000200000002)
     s.targetPort 0 0x40000 = some (.ctx 0 0, 1) ∧ ((run (.spat (.reg 1) (.reg 2) (.reg 3) 0xD3 16 ⟨none, none⟩ 0) s).cond 0).cmds.length = 1 ∧
       (let o : Port := { inPort 3 [] with cur := some (pat1 0 1), nxt := some (pat1 0 1) }
        let t := s.modHart (.ctx 0 0) (fun h => { h with ports := h.ports.set 1 o })
        ((run (.spat (.reg 1) (.reg 2) (.reg 3) 0xD3 16 ⟨none, none⟩ 0) t).hart (.cond 0)).hold = some .pattern) ∧
       ((run (.spatr (.reg 1) (.reg 2) ⟨none, none⟩ 0) (withX s 2 0x10000000040)).cond 0).cmds.length = 1) ∧
    (let s := atCond.modCond 0 (fun c => { c with cmds := List.replicate 16 (newCommand 0 .nopl ⟨none, none⟩ c.hart) })
     16 ≤ (s.cond 0).cmds.length ∧ ((run (.lrel (.reg 1) ⟨none, none⟩ 0) s).hart (.cond 0)).hold = some .issueQueue) ∧
    ((run (.lrel (.reg 1) ⟨none, none⟩ 0) atCell).hart (.ctx 0 0)).tcause = 2 ∧ run (.nopl ⟨none, none⟩ 0) atCell = atCell.retireBy (.ctx 0 0) 16 := by decide +kernel

/-- The checks of commands at their edges. -/
theorem witness_CommandChecks :
    let a : DWord := 0x10000000000
    trapAt (.copy (.reg 1) (.reg 2) (.reg 3) 0 ⟨none, none⟩ 0) a a 0x10000000000 = (4, 0x10000000000, 0x10000000000) ∧
    trapAt (.copy (.reg 1) (.reg 2) (.reg 3) 0 ⟨none, none⟩ 0) a (a + 7) 8 = (4, a, a + 7) ∧
    trapAt (.copy (.reg 1) (.reg 2) (.reg 3) 0x20 ⟨none, none⟩ 0) a (a + 16) 9 = (3, 9, 8) ∧
    trapAt (.copy (.reg 1) (.reg 2) (.reg 3) 0x10 ⟨none, none⟩ 0) a (a + 16) 8 = (4, a, 0) ∧
    trapAt (.fprint (.reg 1) (.reg 2) (.reg 3) false ⟨none, none⟩ 0) a a 65537 = (4, 65537, 65536) ∧
    trapAt (.rcopy (.reg 1) (.reg 2) (.reg 3) 0 false 0 ⟨none, none⟩ 0) a 0x1000000000000 8 = (4, 0x1000000000000, 0) ∧
    trapAt (.lrel (.reg 1) ⟨none, none⟩ 0) 0x800000000 0 0 = (4, 0x800000000, 0) ∧ trapAt (.lshare (.reg 3) (.reg 1) (.reg 3) false ⟨none, none⟩ 0) 0x10000000 0 0 = (4, 0x10000000, 0) ∧
    trapAt (.clause (.reg 1) (.reg 2) ⟨none, none⟩ 0) a 0x100000000 0 = (4, 0x100000000, 0x100000000) ∧
    trapAt (.reduce (.reg 1) (.reg 2) (.reg 3) 0x20 0 ⟨none, none⟩ 0) (a + 2) a 2 = (3, a + 2, 8) ∧
    trapAt (.seamw (.reg 1) (.reg 2) (.reg 3) ⟨none, none⟩ 0) a a 64 = (4, a, 0) ∧
    fails (engCheck twoCells (.cond 0) 0x80000 8 8 true false) (.trap (trapOf .bounds 0x80000 0)) = true ∧
    isOk (engCheck twoCells (.cond 0) 0x17FFF8 8 8 true false) = true ∧
    fails (engCheck twoCells (.cond 0) 0x17FFF8 16 8 true false) (.trap (trapOf .bounds 0x17FFF8 0x80000)) = true := by decide

/-- Dispatch with its wait unsatisfied and satisfied; a copy and a fill between cell stores; a failure with a record. -/
theorem witness_CommandLives :
    (let s (n : Nat) := run (.nopl ⟨some ⟨1, 2⟩, some ⟨3, 5⟩⟩ 0) (atCond.setRegion 0 { region0 with sems := [(1, n)] })
     run (.commandDispatch 0) (s 1) = s 1 ∧ ((run (.commandDispatch 0) (s 2)).cond 0).cmds = [] ∧ (run (.commandDispatch 0) (s 2)).semCount 0 3 = 5) ∧
    (let s := run (.fill (.reg 1) (.reg 2) (.reg 3) 0 ⟨none, none⟩ 0) (withX (with2 twoCells 0x100040 0xABCD) 3 8)
     let t := run (.commandDispatch 0) s
     (t.cond 0).cmds.map (fun c => (c.dispatched, c.run)) = [(true, some 0)] ∧
       (let u := run (.commandComplete 0 0) t; u.getByte (.store 1 0x41) = 0xAB ∧ (u.cond 0).cmds = [])) ∧
    (let s := withCmd twoCells (.copy 0x20 0x100010 2 0x17) (some ⟨4, 255⟩)
     let t := run (.commandComplete 0 0) s
     t.getByte (.store 0 0x20) = 7 ∧ t.getByte (.store 0 0x21) = 8 ∧ t.semCount 0 4 = 255 ∧ (t.cell 0).arriving = [7]) ∧
    (let s := withCmd twoCells (.gather 0x20 0x100010 0x100100 0 8 1) none
     let t := run (.commandComplete 0 0) s
     t.getByte (.store 0 0x20) = 0 ∧ (t.cond 0).cmds = []) ∧
    (let s := (withCmd twoCells (.xmap 0x10000000000 false) none).modCond 0 (fun c => { c with cmds := c.cmds.map (fun c => { c with failed := some ⟨.cmdfail, 0x24, 5, none⟩ }) })
     ((run (.commandFail 0 0) s).cond 0).records.map (fun r => (r.code, r.src, r.addr)) = [(0x24, 6, 5)] ∧ ((run (.commandFail 0 0) s).cond 0).cmds = []) := by decide

/-- The clause of the image, from its command to the first iteration; an image that is rejected. -/
theorem witness_ClauseRuns :
    let s := withImage (withCmd (atCond.setRegion 0 { region0 with roleMap := [5] }) (.clause 0x10000000000 0) none)
    let t := run (.clauseLoad 0) s
    (match s.region 0 with | some r => s.loadReady r | none => false) = true ∧ (match t.region 0 with | some r => r.loads | none => 0) = 1 ∧
    (t.clauseAt 0 0).map (fun c => (c.cells, c.iters)) = some ([5], 2) ∧
    (let u := run (.roleLoad 0 0 0) (t.modCell 5 (fun x => { x with store := [(0x100, 9)] }))
     u.getByte (.store 5 1) = 2 ∧ u.getByte (.store 5 0x100) = 0 ∧ (u.hart (.ctx 5 0)).tvec = 0x40 ∧ (u.hart (.ctx 5 0)).run = .waiting ∧
       (u.hart (.ctx 5 1)).run = .absent ∧
       (let v := run (.iterationStart 5 0) u
        (v.hart (.ctx 5 0)).pc = 4 ∧ (v.hart (.ctx 5 0)).run = .running ∧ (v.hart (.ctx 5 0)).begun = 1 ∧ run (.iterationStart 5 0) v = v)) ∧
    (let bad := { s with bulk := s.bulk.write (2 ^ 16) [2] }
     let t := run (.clauseLoad 0) bad
     (t.cond 0).cmds.map (fun c => c.failed.map (·.code)) = [some 1] ∧ (match t.region 0 with | some r => r.completed | none => []) = [0]) := by decide +kernel

theorem witness_ClauseEnds :
    (let s := inClause.modHart (.ctx 0 0) (fun h => { h with run := .finished })
     run (.cellRelease 0) inClause = inClause ∧
       (let t := run (.cellRelease 0) s
        (t.cell 0).bound = none ∧ (t.cell 0).last = some (0, 0) ∧ t.clauseAt 0 0 = none ∧ (match t.region 0 with | some r => r.completed | none => []) = [0])) ∧
    (let s (n : Nat) := atCell.modCell 0 (fun x => { x with arriving := [3], arrivals := x.arrivals.set 3 (BitVec.ofNat 16 n) })
     ((run (.arrival 0 3) (s 65535)).cell 0).arrivals[3] = 65535 ∧ ((run (.arrival 0 3) (s 0)).cell 0).arrivals[3] = 1 ∧ run (.arrival 0 4) (s 0) = s 0) := by decide

/-- A 25th copy waits; a clause command is held by an outstanding rolemap, and the last of a clause's commands fixes its map; a
clause that ends completes its command, applies its signal, and fails it with 0x27 after NESTED. -/
theorem witness_EnginesMapsAndClauseEnds :
    (let c : Command := { newCommand 0 (.copy 0x20 0x100010 2 0) ⟨none, none⟩ Hart.init with dispatched := true, run := some 0, onEngine := some .copy }
     let s := (withCmd twoCells (.copy 0x20 0x100010 2 0) none).modCond 1 (fun k => { k with cmds := List.replicate 12 c })
     let full := s.modCond 2 (fun k => { k with cmds := List.replicate 12 c })
     Claim.placed full .copy = 24 ∧ Claim.placed s .copy = 12 ∧
       run (.commandComplete 0 0) full = full ∧ (run (.commandComplete 0 0) s).getByte (.store 0 0x20) = 7) ∧
    (let q (l : List CmdOp) : State := (atCond.modCond 0 (fun k => { k with cmds :=
        (l.map (fun o => { newCommand 0 o ⟨none, none⟩ k.hart with dispatched := true, clause := 0 })) ++
          [{ newCommand 1 (.clause 0x10000000000 0) ⟨none, none⟩ k.hart with clause := 0 }] })).modRegion 0 (fun r => { r with roleMap := [3, 5] })
     run (.commandDispatch 0) (q [.rolemap 0x10000000000]) = q [.rolemap 0x10000000000] ∧
       ((run (.commandDispatch 0) (q [])).cond 0).cmds.map (fun c => (c.dispatched, c.memo)) = [(true, [3, 5])]) ∧
    (let s (b : Bool) := withCmd (inClause.modRegion 0 (fun r => { r with clauses := [{ clause0 with released := [0], nested := b }] }))
        (.clause 0x10000000000 0) (some ⟨4, 3⟩)
     (((s false).closeClause 0 0).cond 0).cmds = [] ∧ ((s false).closeClause 0 0).semCount 0 4 = 3 ∧
       (((s true).closeClause 0 0).cond 0).cmds.map (fun c => c.failed.map (·.code)) = [some 0x27] ∧
       ((s true).closeClause 0 0).semCount 0 4 = 0) := by decide +kernel

/-! ### Channels, records and readiness -/

namespace Sys2Proof.Tests

/-- A channel from role 0 to role 1 with hops, on cells 0 and 204 of dies 0 and 1 or on given cells. -/
def chanOf (hops : List Hop) : Chan := { chan0 4 with src := .port 0 0 2, dst := .port 1 1 3, hops := hops }
def hop0 (free freed : Nat) (cross : Bool) : Hop := ⟨free, cross, [], 4, freed, if freed = 0 then none else some 100, []⟩
def withChan (cells : List Nat) (ch : Chan) : State :=
  let cl := { clause0 with roles := [role0, role0], chans := [ch], cells := cells, loaded := [0, 1] }
  { inClause.setRegion 0 { region0 with clauses := [cl], loads := 1, roleMap := cells } with cycle := 164 }
def pushedAt (p : Nat) (l : List Entry) (s : State) : State :=
  s.modHart (.ctx p 0) (fun h => { h with ports := h.ports.set 2 { h.ports[2] with used := true, ttype := 3, chan := true, queue := l } })
def hop? (s : State) (j : Nat) : Option Hop := s.getHop 0 0 0 j

/-- A coupling of the channel whose samples are o. -/
def couple0 (c p : Option Int) : Couple := ⟨0, 2, 3, 1, 0, 0, c, p, none, 0, false, (0, 0, 0), 0, 0⟩
def coupled (cells : List Nat) (x : Couple) (cycle : Nat) : State :=
  let s := withChan cells (chanOf [hop0 4 0 false])
  let s := s.modCell (cells.getD 0 0) (fun y => { y with bound := some (0, 0, 0), ctx := y.ctx.set 0 { y.ctx[0] with wgt := 0x200, wmin := 0x100, wmax := 0x300 } })
  let s := s.modCell (cells.getD 1 0) (fun y => { y with bound := some (0, 0, 1), ctx := y.ctx.set 1 { y.ctx[1] with wgt := 0x200, wmin := 0x100, wmax := 0x300 } })
  { s.modClause 0 0 (fun cl => { cl with couples := [x] }) with cycle := cycle }
def wgtOf (s : State) (p : Nat) (c : Fin 4) : Nat := (s.hart (.ctx p c)).wgt.toNat

end Sys2Proof.Tests

/-- A hop from port to port, of data and of a drain; hops between segments with and without a slot, and at a border. -/
theorem witness_TokensHop :
    (let s := pushedAt 0 [entry (num64 7), drainAt 1] (withChan [0, 1] (chanOf [hop0 4 0 false]))
     let t := run (.tokenHop 0 0 0 0) s
     let u := run (.tokenHop 0 0 0 0) t
     queueOf t (.ctx 0 0) 2 = [drainAt 1] ∧ queueOf t (.ctx 1 1) 3 = [entry (num64 7)] ∧ (t.getChan 0 0 0).map (·.arrived) = some 1 ∧
       queueOf u (.ctx 0 0) 2 = [] ∧ queueOf u (.ctx 1 1) 3 = [entry (num64 7), drainAt 1] ∧ (u.getChan 0 0 0).map (·.drainHops) = some 1) ∧
    (let g : Hop := { hop0 4 0 false with buf := [entry (num64 7)] }
     let s (n : Nat) := withChan [0, 1] (chanOf [g, hop0 n 0 false, hop0 4 0 false])
     ((s 1).clauseAt 0 0).map (fun cl => cl.hopLoaded (chanOf [g, hop0 1 0 false, hop0 4 0 false]) 1) = some true ∧
       run (.tokenHop 0 0 0 1) (s 0) = s 0 ∧ hop? (run (.tokenHop 0 0 0 1) (s 1)) 1 = some { hop0 0 0 false with buf := [entry (num64 7)] } ∧
       hop? (run (.tokenHop 0 0 0 1) (s 1)) 0 = some { g with buf := [], freed := 1, firstFreed := some 164 } ∧
       (let w := withChan [0, 204] { chanOf [g, hop0 1 0 true, hop0 4 0 false] with segs := [0, 204] }
        let b := { w with partitions := [0, 1, 0, 0] }
        hop? (run (.tokenHop 0 0 0 1) b) 1 = some (hop0 1 0 true) ∧ ((run (.tokenHop 0 0 0 1) b).region 0).map (·.doom) = some (some 0x0E)) ∧
       (let d : Hop := { hop0 4 0 false with buf := [drainAt 6] }
        let w := withChan [0, 204] { chanOf [d, hop0 0 0 true, hop0 4 0 false] with segs := [0, 204] }
        let b := { w with partitions := [0, 1, 0, 0] }
        hop? (run (.tokenHop 0 0 0 1) w) 1 = some { hop0 0 0 true with buf := [drainAt 6] } ∧ hop? (run (.tokenHop 0 0 0 1) b) 0 = some { d with buf := [] } ∧
          hop? (run (.tokenHop 0 0 0 1) b) 1 = some (hop0 0 0 true) ∧ ((run (.tokenHop 0 0 0 1) b).region 0).map (·.doom) = some (some 0x0E)) ∧
       (let b := { State.reset with partitions := [0, 1, 0, 0], borders := [⟨0, 1, 7, 0⟩] }
        b.borderOk 7 (some 0) (some 1) = true ∧ b.borderOk 8 (some 0) (some 1) = false)) := by decide +kernel

/-- Slots and windows at their edges: 3 and 4 freed, 63 and 64 cycles; drains. -/
theorem witness_SlotsWindowsAndDrains :
    (let s (n : Nat) (x : Bool) := withChan [0, 1] (chanOf [hop0 0 n x])
     run (.slotReturn 0 0 0 0) (s 0 false) = s 0 false ∧ run (.slotReturn 0 0 0 0) (s 1 true) = s 1 true ∧
       hop? (run (.slotReturn 0 0 0 0) (s 1 false)) 0 = some (hop0 1 0 false) ∧ hop? (run (.slotReturn 0 0 0 0) (s 2 false)) 0 = some (hop0 1 1 false) ∧
       run (.sendWindowGrant 0 0 0 0) (s 3 true) = s 3 true ∧ hop? (run (.sendWindowGrant 0 0 0 0) (s 4 true)) 0 = some { hop0 0 0 true with grants := [4] } ∧
       hop? (run (.grantTimer 0 0 0 0) (s 1 true)) 0 = some { hop0 0 0 true with grants := [1] } ∧
       (let b := { s 1 true with cycle := 163 }; run (.grantTimer 0 0 0 0) b = b) ∧ run (.grantArrival 0 0 0 0) (s 1 true) = s 1 true ∧
       hop? (run (.grantArrival 0 0 0 0) (withChan [0, 1] (chanOf [{ hop0 1 0 true with grants := [4, 2] }]))) 0 = some { hop0 5 0 true with grants := [2] }) ∧
    (let s := withChan [0, 1] { chanOf [hop0 4 0 false] with pushed := 6 }
     let e := s.modHart (.ctx 0 0) (fun h => { h with run := .finished })
     run (.drainToken 0 0 0) s = s ∧ (let t := run (.drainToken 0 0 0) e
       queueOf t (.ctx 0 0) 2 = [drainAt 6] ∧ run (.drainToken 0 0 0) t = t)) ∧
    (let s := withChan [0, 1] { chanOf [hop0 4 0 false] with src := .edge 2 5, pushed := 1 }
     let e := s.modHart (.ctx 0 0) (fun h => { h with run := .stopped })
     run (.edgeDrain 0 0 0) s = s ∧ (List.range 2).all (fun j => (e.cell j).ctx.toList.all Hart.ended) ∧ ((run (.edgeDrain 0 0 0) e).getChan 0 0 0).map (fun c => (c.edge, c.drainSent)) = some ([drainAt 1], true)) := by decide

/-- Samples at CYCLE mod 256 = 0 and updates at 128, for the consumer's and the producer's cell, with and without a clamp. -/
theorem witness_Rates :
    (let s (n : Nat) := { (coupled [0, 1] (couple0 none none) n).modHart (.ctx 1 1) (fun h => { h with ports := h.ports.set 3 (inPort 3 [num64 1, num64 2, .drain]) }) with cycle := n }
     run (.occupancySample 0 0 0) (s 255) = s 255 ∧
       (let t := run (.occupancySample 0 0 0) (s 256)
        (t.clauseAt 0 0).map (fun c => c.couples.map (fun x => (x.sampleC, x.sampleP, x.inFlight))) = some [(some 2, none, some 2)] ∧
          ((run (.sampleMessage 0 0 0) t).clauseAt 0 0).map (fun c => c.couples.map (fun x => (x.sampleC, x.sampleP, x.inFlight))) = some [(some 2, some 2, none)])) := by decide +kernel

theorem witness_RateUpdates :
    (let x := couple0 (some 7) (some 7)
     run (.rateUpdate 1) (coupled [0, 1] x 127) = coupled [0, 1] x 127 ∧
       wgtOf (run (.rateUpdate 1) (coupled [0, 1] x 384)) 1 1 = 0x200 + 20 ∧ wgtOf (run (.rateUpdate 0) (coupled [0, 1] x 384)) 0 0 = 0x200 - 20 ∧
       wgtOf (run (.rateUpdate 1) (coupled [0, 1] (couple0 (some 1000) none) 128)) 1 1 = 0x300 ∧
       wgtOf (run (.rateUpdate 0) (coupled [0, 1] (couple0 none (some 1000)) 128)) 0 0 = 0x100 ∧
       ((run (.rateUpdate 1) (coupled [0, 1] x 128)).clauseAt 0 0).map (fun c => c.couples.map (fun x => (x.intC, x.sampleC, x.intP, x.sampleP))) = some [(5, none, 5, none)] ∧
       (let t := run (.rateUpdate 1) (coupled [0, 1] x 128)
        (t.clauseAt 0 0).map (fun c => c.couples.map (·.moved)) = some [(129, 20, 20)] ∧ wgtOf (run (.rateUpdate 0) t) 0 0 = 0x200 - 20 ∧
          run (.rateUpdate 1) t = t) ∧
       (let y := { x with resumed := true, sampleC := none, sampleP := none }
        ((run (.rateUpdate 1) (coupled [0, 1] y 128)).clauseAt 0 0).map (fun c => c.couples.map (fun x => (x.sampled, x.resumed, x.intC))) = some [(1, false, -2)])) := by decide +kernel

/-- A record delivered at once, to TVEC and to FVEC, and one that waits for the handler. -/
theorem witness_RecordsAreDelivered :
    let rec0 : Record := ⟨.cmdfail, 6, 0x20, false, 0, 0xFFFF, none, 0x1234, 0, 0x44, 9, Idx.zero, 0, none⟩
    let s := (atCond.modHart (.cond 0) (fun h => { h with tframe := 0x10000001000, tvec := 0x10000000200, pc := 0x80 })).modCond 0 (fun c => { c with records := [rec0] })
    let v := s.modHart (.cond 0) (fun h => { h with fvec := 0x10000000300 })
    let b := s.modHart (.cond 0) (fun h => { h with level := true })
    (s.xlat 1).pages.map (fun p => (p.page, p.frame, p.dirty, p.dropped)) = [(1, 2 ^ 17, true, false), (0, 2 ^ 16, true, false)] ∧ s.memWf = true ∧
    run (.faultRecordDelivery 0) b = b ∧
    (let t := run (.faultRecordDelivery 0) s
     t.getByte (.bulk 0x10000) = 0x14 ∧ t.getByte (.bulk 0x10001) = 6 ∧ t.getByte (.bulk 0x10002) = 0x20 ∧ t.getByte (.bulk 0x10008) = 0x34 ∧
       t.getByte (.bulk 0x10018) = 0x44 ∧ t.getByte (.bulk 0x10020) = 9 ∧ (t.cond 0).records = [] ∧ (t.hart (.cond 0)).tinfo0 = 0x1234 ∧
       (t.hart (.cond 0)).tinfo1 = 0x10000000000 ∧ (t.hart (.cond 0)).tpc = 0x80 ∧ (t.hart (.cond 0)).level = true ∧
       (t.hart (.cond 0)).pc = 0x10000000200) ∧
    ((run (.faultRecordDelivery 0) v).hart (.cond 0)).pc = 0x10000000300 := by decide +kernel

theorem witness_ContextReady :
    let h (v : DWord) (w : Bool) (g : Hart) : Hart := { g with pass := v, readyFrom := 1, readyAt := if w then 9 else 0 }
    let s (w0 w1 : Bool) := { State.reset.modCell 3 (fun x => { x with ctx := (x.ctx.set 0 (h 5 w0 x.ctx[0])).set 1 (h 900 w1 x.ctx[1]) }) with cycle := 9 }
    let pass (i : Instr) (w0 w1 : Bool) (c : Fin 4) := ((run i (s w0 w1)).cell 3).ctx[c].pass
    pass (.contextReady 3 0) true true 0 = 5 ∧ pass (.contextReady 3 0) false false 0 = 5 ∧ pass (.contextReady 3 0) false true 0 = 900 ∧
    pass (.contextReady 3 1) true false 1 = 900 ∧ ((run (.contextReady 3 0) (s false true)).cell 3).ctx[0].readyAt = 10 := by decide

/-! ### Queues and regions -/

namespace Sys2Proof.Tests

/-- A queue of four records at 0x1000, of which n stand, with budget. -/
def queue0 (n : Nat) : Queue :=
  { Queue.init with qbase := 0x1000, qcfg := 0x50302, tail := n, period := 8, budget := 4, tokens := 0x000700030005, left := 1024, periodEnd := 2048 }

/-- Bytes put into bulk memory. -/
def withBulk (s : State) (l : List (Nat × List Byte)) : State := { s with bulk := l.foldl (fun m e => m.write e.1 e.2) s.bulk }
def le (n v : Nat) : List Byte := leBytes n v

/-- The module is up, and queue 5 has a record with a context, a cap and a count of clusters; a 1 GiB leaf maps its image. -/
def launchState (ctx cap ncl : Nat) : State :=
  let s := { State.reset with firm := { State.reset.firm with ready := true } }
  withBulk (s.setQueue 5 (queue0 1)) [(0x1000, le 8 0x10000 ++ le 8 0x40000), (0x1030, le 4 cap ++ le 2 ctx ++ le 1 ncl),
    (0x10000, [1, 0, 0, 1, 1]), (0x10008, le 8 0x100), (0x10010, le 4 0x80), (0x10018, le 4 0x40),
    (0x40000, le 4 0x50001), (0x50000, [7])]

/-- A region of conductor 0 in a phase, of queue 0. -/
def phased (p : Phase) : State := (atCond.setQueue 0 (queue0 1)).setRegion 0 { region0 with phase := p, flags := 4, recAddr := 0x1000, clusters := [0], cap := 1 }
def phaseOf (s : State) : Option Phase := (s.region 0).map (·.phase)
def cplOf (s : State) (a : Nat) : Nat := numAt s (fun i => .bulk (a + 0x38 + i)) 8
def nothingServes (s : State) : Bool :=
  let h := (s.cond 0).hart
  s.cells.all (fun c => c.2.bound.isNone) && (s.cond 0).cmds.isEmpty && s.ldfWait.isEmpty && h.pend.isEmpty && h.flight.isEmpty &&
    h.hold.isNone && h.arrived.isNone && h.replayed == 0 && h.ports.toList.all (fun o => o.out.isEmpty)

end Sys2Proof.Tests

/-- TAIL at the size and below it; a register with a reserved bit; QBASE of a busy queue; a period's start at its cycle. -/
theorem witness_QueueRegisters :
    (let s := launchState 1 1 1
     ((run (.tailWrite 5 3) s).queue 5).tail = 3 ∧ ((run (.tailWrite 5 4) s).queue 5).tail = 1 ∧ run (.tailWrite 64 0) s = s ∧
       ((run (.queueRegisterWrite 5 .period 0x100000000) s).queue 5).period = 8 ∧ ((run (.queueRegisterWrite 5 .period 9) s).queue 5).period = 9 ∧
       (let z := { s.modQueue 5 (fun x => { x with period := 0, qcfg := 0x50102, enabledAt := 100 }) with cycle := 5000 }
        ((run (.queueRegisterWrite 5 .period 8) z).queue 5).periodEnd = 4196) ∧
       ((run (.queueRegisterWrite 5 .qbase 0x2000) s).queue 5).qbase = 0x1000 ∧ ((run (.queueRegisterWrite 6 .qbase 0x2000) s).queue 6).qbase = 0x2000 ∧
       ((run (.queueRegisterWrite 6 .qbase 0x2001) s).queue 6).qbase = 0) ∧
    (let s (n : Nat) := { launchState 1 1 1 with cycle := n }
     run (.periodStart 5) (s 2047) = s 2047 ∧ run (.budgetExhausted 5) (s 0) = s 0 ∧ (let x := (run (.periodStart 5) (s 2048)).queue 5
       x.left = 1024 ∧ x.periodEnd = 4096 ∧ x.deadline = some 4096 ∧ x.tokens = 0x000700030007)) ∧
    (let s := (launchState 1 1 1).modQueue 5 (fun x => { x with left := 0, deadline := some 9 }); ((run (.budgetExhausted 5) s).queue 5).deadline = none) := by
  decide +kernel

/-- A record that starts, and records of CODE 3, 4 and 5. -/
theorem witness_DistributorChooses :
    (let s := launchState 1 1 2
     s.dispatching = true ∧ (List.range 64).filter s.eligible = [5] ∧ (let t := run .distributorChoice s
       (t.region 5).map (fun r => (r.clusters, r.ctx, r.extents.map (·.idx))) = some ([0, 1], 1, [1]) ∧ (t.queue 5).state = 1 ∧
         cplOf t 0x1000 = 2 ^ 48 + 3 ∧ (t.hart (.cond 1)).pc = 0x10000000080 ∧ (t.hart (.cond 1)).roleIdx = 1 ∧ (t.hart (.cond 0)).dmode = 1 ∧
         (t.hart (.cond 1)).roleNum = 2 ∧ (t.cond 1).region = some 5)) ∧
    (let out (s : State) := let t := run .distributorChoice s; (cplOf t 0x1000, (t.queue 5).head, t.msix, (t.region 5).isNone)
     out (launchState 0 1 1) = (6 * 2 ^ 48 + 3 * 2 ^ 52, 1, [5], true) ∧ out (launchState 1 1 0) = (6 * 2 ^ 48 + 4 * 2 ^ 52, 1, [5], true) ∧
       out (launchState 1 1 49) = (6 * 2 ^ 48 + 4 * 2 ^ 52, 1, [5], true) ∧ out (launchState 1 0 48) = (6 * 2 ^ 48 + 5 * 2 ^ 52, 1, [5], true)) ∧
    (let s := { launchState 1 1 1 with firm := State.reset.firm }; run .distributorChoice s = s) := by decide +kernel

/-- A drain that ends or expires, a stop that saves or kills, and a pre-copy at its limits. -/
theorem witness_RegionsGiveWay :
    (let s := phased (.drain 10)
     nothingServes s = true ∧ phaseOf (run (.drainStop 0) s) = some .saving ∧ (tfind (run (.drainStop 0) s).saves 0).isSome = true ∧
       (let c := s.modRegion 0 (fun r => { r with clauses := [clause0] }); run (.drainStop 0) c = c) ∧
       (let c := { s with cycle := 10 + s.drainMax }; run (.drainmaxExpiry 0) c = c) ∧
       (let c := { s with cycle := 11 + s.drainMax }; phaseOf (run (.drainmaxExpiry 0) c) = some (.preCopy (11 + s.drainMax) false) ∧
         phaseOf (run (.drainmaxExpiry 0) (c.modRegion 0 (fun r => { r with flags := 2 }))) = some .killed)) ∧
    (let s := phased .killed; let t := run (.stopRequest 0) s
     t.region 0 = none ∧ (t.cond 0).region = none ∧ (t.queue 0).state = 0 ∧ (t.queue 0).head = 0 ∧ cplOf t 0x1000 = 0) ∧
    (let s := phased .saving; let t := run (.quiescenceReport 0) (run (.stopRequest 0) s); let u := run (.saveComplete 0) t
     run (.saveComplete 0) (run (.stopRequest 0) s) = run (.stopRequest 0) s ∧ (t.region 0).map (·.quiet) = some true ∧
     run (.stopRequest 0) (phased .running) = phased .running ∧ (tfind t.saves 0).map (fun i => i.conds.map (·.hart.x)) = some [(s.hart (.cond 0)).x] ∧
       u.region 0 = none ∧ (u.queue 0).state = 3 ∧ cplOf u 0x1000 = 3 * 2 ^ 48 + 1 ∧ (tfind u.saves 0).isSome = true ∧
       (let v := run (.saveComplete 0) (t.modRegion 0 (fun r => { r with consumed := 65537 }))
        cplOf v 0x1000 = 4 * 2 ^ 48 + 1 ∧ tfind v.saves 0 = none ∧ (v.queue 0).head = 1)) ∧
    (let s := phased (.preCopy 10 false)
     let b := s.modCond 0 (fun c => { c with cmds := [{ newCommand 0 (.lrel 5) ⟨none, none⟩ c.hart with dispatched := true }] })
     (List.range 4).all (fun d => s.dirtyBytes 0 region0 d == 0) = true ∧ phaseOf (run (.preCopyEnd 0) s) = some .saving ∧ run (.preCopyEnd 0) b = b ∧
       (let c := { s with cycle := 9 + s.pcMax }; run (.pcmaxExpiry 0) c = c) ∧
       (let c := { s with cycle := 10 + s.pcMax }; phaseOf (run (.pcmaxExpiry 0) c) = some (.preCopy 10 true))) := by decide +kernel

/-- Quiescence and retirement; the cap just kept and just passed; an end that the management core has noted. -/
theorem witness_RegionsRetire :
    (let s := phased .running
     let h := (s.modHart (.cond 0) (fun h => { h with run := .halted })).modRegion 0 (fun r => { r with quiet := true })
     let t := run (.sentenceRetirement 0) h
     (s.region 0).map (s.quiescent 0) = some true ∧ ((run (.quiescenceReport 0) s).region 0).map (·.quiet) = some true ∧
       run (.sentenceRetirement 0) s = s ∧ t.region 0 = none ∧ (t.queue 0).head = 1 ∧ t.msix = [5] ∧ cplOf t 0x1000 = 2 * 2 ^ 48 + 1) ∧
    (let s := phased .running
     let b := s.modCond 0 (fun c => { c with cmds := [{ newCommand 0 (.lrel 5) ⟨none, none⟩ c.hart with dispatched := true }] })
     (b.region 0).map (b.quiescent 0) = some false ∧ run (.quiescenceReport 0) b = b) ∧
    (let s (n : Nat) := (phased .running).modRegion 0 (fun r => { r with consumed := n })
     run (.overrun 0) (s 65536) = s 65536 ∧ cplOf (run (.overrun 0) (s 65537)) 0x1000 = 4 * 2 ^ 48 + 1 ∧ (run (.overrun 0) (s 65537)).region 0 = none ∧
       cplOf (run (.overrun 0) ((s 0).modRegion 0 (fun r => { r with doom := some 0x0E }))) 0x1000 = 5 * 2 ^ 48 + 0xE * 2 ^ 52 + 1) := by decide +kernel

/-- A region whose conductors have all halted is neither saved nor killed; what is in flight; records and numbers in an image. -/
theorem witness_RegionsAtRest :
    (let s (p : Phase) := (phased p).modHart (.cond 0) (fun h => { h with run := .halted })
     run (.drainStop 0) (s (.drain 10)) = s (.drain 10) ∧ run (.preCopyEnd 0) (s (.preCopy 10 false)) = s (.preCopy 10 false) ∧
       phaseOf (run (.stopRequest 0) (s .killed)) = some .running) ∧
    (let t (op : CmdOp) := (phased (.preCopy 10 false)).modCond 0 (fun c => { c with cmds := [{ newCommand 0 op ⟨none, none⟩ c.hart with dispatched := true }] })
     run (.preCopyEnd 0) (t (.lfork 5)) = t (.lfork 5) ∧ phaseOf (run (.preCopyEnd 0) (t (.lapp 0 0 0))) = some .saving) ∧
    (let s := phased .running; let w (k : Nat) : State := s.modLink 2 (fun l => { l with state := .up, outbox := [(.write, packet 0 0 (BitVec.ofNat 24 (k * 2 ^ 16)) 0 [])] })
     s.remoteBusy 0 { region0 with phase := .running } = false ∧ (w 0).remoteBusy 0 region0 = true ∧ (w 1).remoteBusy 0 region0 = false ∧
       ((w 0).region 0).map ((w 0).quiescent 0) = some false) ∧
    (let rec0 : Record := ⟨.cmdfail, 6, 0x20, false, 0, 0xFFFF, none, 0x1234, 0, 0x44, 9, Idx.zero, 0, none⟩
     let s := (run (.quiescenceReport 0) (run (.stopRequest 0) (phased .saving))).modCond 0 (fun c => { c with
       records := [rec0], cmds := [{ newCommand 77 (.lapp 0 0 0) ⟨none, none⟩ c.hart with dispatched := true }] })
     (tfind (run (.saveComplete 0) s).saves 0).map (fun i => i.conds.map (fun c => (c.records.map (·.addr), c.cmds.map (·.id)))) = some [([0x1234], [0])]) := by decide +kernel

/-- More bytes than a pre-copy may leave; an action that outlasts the cap. -/
theorem witness_PreCopyGoesOn :
    let s := phased (.preCopy 10 false)
    let b : State := { s with cells := (List.range 161).map (fun p => (p, { Cell.init with bound := some (0, 0, 0) })) }
    let late := s.modRegion 0 (fun r => { r with consumed := 65537 })
    80 * 2 ^ 20 < b.dirtyBytes 0 region0 0 ∧ phaseOf (run (.preCopyEnd 0) b) = some (.preCopy 10 false) ∧
      phaseOf (run (.overrun 0) late) = some (.preCopy 10 false) := by decide +kernel

/-- A save area with room for an image, and one without. -/
theorem witness_SaveAreas :
    let t := run (.quiescenceReport 0) (run (.stopRequest 0) (phased .saving))
    let f : State := { t with saves := t.saves ++ [(7, { (default : Image) with parts := [(0, 0, 2 ^ 30)] })] }
    (tfind t.saves 0).map (fun i => (t.placeImage 0 i, f.placeImage 0 i)) = some (some [(0, 0, 12288)], none) ∧
      phaseOf (run (.saveComplete 0) f) = some .saving := by decide +kernel

/-- An image of another revision class. -/
theorem witness_OtherClass :
    let i : Image := { (default : Image) with rclass := 2, region := { region0 with clusters := [0] } }
    let s : State := { (launchState 1 1 1).modQueue 5 (fun x => { x with state := 3 }) with saves := [(5, i)] }
    let t := run .distributorChoice s
    s.badPart i = none ∧ (s.place 1).isSome = true ∧ cplOf t 0x1000 = 7 * 2 ^ 48 ∧ (t.queue 5).head = 1 ∧ (tfind t.saves 5).isNone = true := by decide +kernel

/-! ### The module -/

namespace Sys2Proof.Tests

/-- The module is up; region 0 runs with a page at 2^16. -/
def up : State := { atCond with firm := { State.reset.firm with ready := true } }
def shoots (n : Nat) : State := { up with xsdAddr := 0x10000, xsdLen := 1, shoots := List.replicate n (.imp 3) }
def shot (i : Instr) : Option Shoot := (run i (shoots 0)).shoots.head?
def fw (arg : DWord) (ready : Bool) : State := { State.reset with firm := { State.reset.firm with ready := ready, fwarg := arg } }
def power (f : Power → Power) : State := { up with power := f up.power, regions := [] }

end Sys2Proof.Tests

/-- Requests of each kind and their bounds; acceptance and completion; an access that holds completion back. -/
theorem witness_ShootDowns :
    shot (.shootDownGvaRange 1) = some (.range 1 1 1) ∧ shot (.shootDownGvaRange 2) = some (.range 2 1 1) ∧ shot (.shootDownGvaRange 0) = some .bad ∧ shot (.shootDownContext 0x10001) = some (.context 1) ∧
    shot (.shootDownImportEntry 0x05020000) = some (.imp 5) ∧ shot (.shootDownContext 0x100000000) = some .bad ∧
    (let s := { shoots 0 with xsdAddr := 0xFFFFFFFFF0000, xsdLen := 1 }; (run (.shootDownGvaRange 1) s).shoots = [.range 1 0xFFFFFFFFF 1] ∧
      (run (.shootDownGvaRange 1) { s with xsdLen := 2 }).shoots = [.bad] ∧ (run (.shootDownImportEntry 0x20000) { s with xsdAddr := 1 }).shoots = [.bad]) ∧
    (run (.shootDownContext 1) (shoots 15)).shoots.length = 16 ∧ (run (.shootDownContext 1) (shoots 16)).shoots.length = 16 ∧
    (run (.shootDownContext 1) (shoots 16)).shootOvfl = true ∧ (let s := { shoots 0 with firm := State.reset.firm }; run (.shootDownContext 1) s = s) ∧
    (let s := { up with shoots := [.range 1 1 1, .bad] }; let t := run .shootDownAcceptance s
     (t.xlat 1).pages.map (fun p => (p.page, p.dropped)) = [(1, true), (0, false)] ∧ t.shootBusy = true ∧ run .shootDownAcceptance t = t ∧
       run .shootDownCompletion s = s ∧ (t.drained (.range 1 1 1) = true) ∧ (let u := run .shootDownCompletion t; u.shoots = [.bad] ∧ u.shootDone = 1 ∧
         (let v := run .shootDownAcceptance u; v.shoots = [] ∧ v.shootErr = true ∧ v.shootDone = 2 ∧ run .shootDownAcceptance v = v))) := by decide +kernel

/-- A context that does not run; an import entry while an admitted write stands, and without one (R329, R334). -/
theorem witness_ShootDownsAtOnce :
    (let t := run .shootDownAcceptance { up with shoots := [.range 9 1 1] }; t.shoots = [] ∧ t.shootDone = 1 ∧ t.shootErr = false ∧ t.shootBusy = false) ∧
    (let t := run .shootDownAcceptance { up with shoots := [.context 1] }
     (t.xlat 1).pages.map (·.dropped) = [true, true] ∧ (run .shootDownCompletion t).shootDone = 1) ∧
    (run .shootDownAcceptance { up with shoots := [.imp 3] }).shootBusy = true ∧ shot (.shootDownContext 0x30001) = some .bad ∧
    (let s := { up with shoots := [.imp 3], shootBusy := true, shootMark := ⟨[], List.replicate 8 1⟩ }
     let a (n : Nat) := s.modLink 2 (fun l => { l with writes := [⟨n, 5, 3, 1, 0x10000, [0x20000], [7]⟩] }); let w := a 0
     (run .shootDownCompletion (a 1)).shootDone = 1 ∧
     (run .shootDownCompletion w).shootDone = 0 ∧ (run .shootDownCompletion s).shootDone = 1 ∧ (run .shootDownCompletion (settleWrite 2 0 w)).shootDone = 1) := by decide +kernel

/-- What a request notes, and what holds its completion back: an older store to a dropped frame, an older WRITE of a peer (R330, R333). -/
theorem witness_ShootDownsWait :
    let st (n f : Nat) : Pend := ⟨.store [(.bulk f, 7)] [], 1, n⟩
    let acc := run .shootDownAcceptance ((({ up with shoots := [.range 1 1 1] } : State).modLink 3 (fun l => { l with admitted := 4 })).modHart (.cond 0) (fun h => { h with pendSeq := 9 }))
    acc.shootMark.links = [0, 0, 0, 4, 0, 0, 0, 0] ∧ (AgentId.cond 0, 9) ∈ acc.shootMark.agents ∧ acc.shootFrames = [(false, 2 ^ 17)] ∧
    (let p (n f : Nat) := acc.modHart (.cond 0) (fun h => { h with pend := [st n f] })
     run .shootDownCompletion (p 8 0x2FFFF) = p 8 0x2FFFF ∧ (run .shootDownCompletion (p 9 0x2FFFF)).shootDone = 1 ∧ (run .shootDownCompletion (p 8 0x10000)).shootDone = 1) ∧
    (let w (n g : Nat) := acc.modLink 3 (fun l => { l with writes := [⟨n, 5, 3, 1, g, [0x20000], [7]⟩] })
     run .shootDownCompletion (w 3 0x1FFFF) = w 3 0x1FFFF ∧ (run .shootDownCompletion (w 4 0x1FFFF)).shootDone = 1 ∧ (run .shootDownCompletion (w 3 0x20000)).shootDone = 1) := by decide +kernel

/-- A native image of an object; one of a later class; a cached translation, copied and too long for its buffer (R364, R365, R372). -/
theorem witness_ResolverAnswers :
    let entry (kind cls off : Nat) : List Byte := leBytes 1 kind ++ leBytes 1 0 ++ leBytes 2 cls ++ leBytes 4 0 ++ leBytes 8 1 ++ leBytes 8 off ++ leBytes 8 0 ++ sha256 []
    let s (es : List (List Byte)) (cap : Nat) : State := { withBulk up [(0x100, leBytes 8 0x20000 ++ leBytes 8 0x40000 ++ leBytes 8 cap ++ [3]),
      (0x20000, leBytes 2 1 ++ leBytes 2 es.length ++ leBytes 4 0 ++ leBytes 8 0x10040), (0x20040, es.flatten)] with
      coreq := [0x100], cache := [⟨sha256 [], 3, 1, 0, 0, [5, 6]⟩] }
    let res (s : State) := numAt (run .resolverServe s) (fun i => .bulk (0x120 + i)) 8
    (s [] 64).rclass = 1 ∧ res (s [entry 0 2 0x10000, entry 0 1 0x10000] 64) = 0x10100 ∧ res (s [entry 0 2 0x10000] 64) = 0x10012 ∧
    res (s [entry 1 0 0x40] 64) = 2 ^ 32 + 0x30001 ∧ (run .resolverServe (s [entry 1 0 0x40] 64)).getByte (.bulk 0x40001) = 6 ∧
    res (s [entry 1 0 0x40] 63) = 0x30014 ∧ (s [entry 1 0 0x40] 63).memWf = true := by decide +kernel

/-- COREQ's bounds and its ninth object; a misaligned object; the choice among entries; partitions. -/
theorem witness_Resolver :
    (let s (n : Nat) := { up with coreq := List.replicate n 64 }
     (run (.coreqWrite 0xFFFFFFFFFFC0) (s 7)).coreq.length = 8 ∧ run (.coreqWrite 64) (s 8) = s 8 ∧ run (.coreqWrite 0x1000000000000) (s 0) = s 0 ∧
       run (.coreqWrite 65) (s 0) = s 0 ∧ run .resolverServe (s 0) = s 0) ∧
    (let s := { withBulk up [(0x100, [8])] with coreq := [0x100, 64] }; let t := run .resolverServe s
     t.coreq = [64] ∧ numAt t (fun i => .bulk (0x120 + i)) 8 = 0x10010) ∧
    (let e (i r : Nat) : ObjEntry := ⟨i, 0, r, 1, 0, 0, []⟩
     up.featured 1 = true ∧ up.selectImage [e 0 0, e 1 1, e 2 1, e 3 2] = some (e 1 1)) ∧
    (run (.partitionChange [0, 1, 2, 3] [⟨0, 1, 5, 0⟩]) up).partitions = [0, 1, 2, 3] := by decide +kernel

/-- Counted errors, saturating; refresh windows at their cycles. -/
theorem witness_ErrorsAndRefresh :
    (let s := { up with errs := up.errs.set 2 ⟨0xFFFFFFFF, 7⟩ }; let w := Place.bulk 0x40
     w.domain = some 2 ∧ (run (.correctionRewrite 2 w) s).errs[2] = ⟨0xFFFFFFFF, 7⟩ ∧ (run (.correctionRewrite 2 w) up).errs[2] = ⟨1, 0⟩ ∧
       (run (.patrolScrub 2 w true) s).errs[2] = ⟨0xFFFFFFFF, 8⟩ ∧ (run (.patrolScrub 2 w true) s).isBad w = true ∧ run (.patrolScrub 2 w false) s = s) ∧
    (let s (n : Nat) := { up with cycle := n, perNext := 128 }
     run .refreshWindowStart (s 511) = s 511 ∧ (let t := run .refreshWindowStart (s 512); t.windows = [(2, 512)] ∧ t.per = 128 ∧
       (let u := { t with cycle := 711 }; run .refreshWindowEnd u = u) ∧ (run .refreshWindowEnd { t with cycle := 712 }).windows = [])) := by decide +kernel

/-- The health page is written whole; a retirement takes the spare in. -/
theorem witness_Health :
    (let s := run (.hsnapWrite 0x30000) up
     s.hsnap = 0x30000 ∧ run (.hsnapWrite 0x30001) up = up ∧ run (.hsnapWrite 0x1000000000000) up = up ∧ run .snapshotRewrite up = up ∧
       s.snapped = none ∧ s.memWf = true) ∧
    (let f := List.replicate 4088 (3 : Byte); let s (n : Nat) : State := { up with hsnap := 0x30000, gen := 5, snapAt := some (f, n) }
     let v (t : State) (a : Nat) := numAt t (fun i => .bulk (0x30000 + a + i)) 8
     (run .snapshotRewrite (s 0)).gen = 5 ∧ v (run .snapshotRewrite (s 0)) 8 = 0x0303030303030303 ∧
       (run .snapshotRewrite (s 511)).gen = 6 ∧ v (run .snapshotRewrite (s 511)) 0 = 6 ∧ (run .snapshotRewrite (s 511)).snapAt = none ∧
       (let t := run .snapshotRewrite { up with hsnap := 0x30000 }; t.gen = 1 ∧ v t 0 = 1 ∧ (t.snapAt.map (·.2)) = some 0)) ∧
    (let s := { up with retire := [(3, [16, 2])].map (fun x => (x.1, x.2.drop 1)) }
     run (.cellRetirement 0) s = s ∧ s.spares 3 = [16] ∧ ((run (.cellRetirement 3) s).enmapOf 3).toNat = 0x2FFFF + 0x10000 - 4) := by decide +kernel

/-- A page that stands as it is. -/
theorem witness_SnapshotKept : let s := run (.hsnapWrite 0x30000) up; let t := { s with snapped := some s.healthFields }; t.snapped = some t.healthFields := rfl

/-- The mailbox: a misaligned buffer, a module that is not ready, a first piece of an image, a full counter, a report, an activation. -/
theorem witness_Mailbox :
    (let s := fw 0x1800 true; (run .stage s).firm.code = 4 ∧ (run .stage s).firm.seq = 1) ∧ (run .report (fw 0x1000 false)).firm.code = 4 ∧
    (run .extend (fw 0x1000 false)).firm.code = 4 ∧ (let s := { fw 0x1000 true with firm := { (fw 0x1000 true).firm with busy := true } }; run .stage s = s) ∧
    FwBuf (fw 0x11FFFFFE000 true) (1152 * 2 ^ 30 - 8192) ∧
    (let s := { fw 0x1000 true with firm := { (fw 0x1000 true).firm with leaf := 2 ^ 20 } }
     (run .report s).firm.code = 3 ∧ (run .report s).firm.leaf = 2 ^ 20) ∧
    (let t := run .activate { up with firm := { up.firm with verified := true } }; t.firm.busy = true ∧ (run .activate (fw 0 true)).firm.code = 1) ∧
    (run (.ideKm true) up).firm.ideMem = true ∧ (run (.ideKm false) up).firm.ideIo = true := by
  refine ⟨by decide +kernel, by decide +kernel, by decide +kernel, by decide +kernel, ⟨by decide, by decide, by decide⟩, by decide +kernel, by decide +kernel, by decide, by decide⟩

theorem witness_Stages :
    let s := withBulk (fw 0x1000 true) [(0x1000, leBytes 8 8193)]; let t := run .stage s
    t.firm.code = 0 ∧ t.firm.staging.length = 8192 ∧ t.firm.seq = 1 := by decide +kernel

/-- CXL.mem at the end of bulk memory, at a META frame and at another, outside PS0; registers of the BAR. -/
theorem witness_HostPort :
    up.firm.ready = true ∧ up.power.cur = .ps0 ∧ (run (.cxlMemRead false (1152 * 2 ^ 30 - 2) 2) up).reads = [[0, 0]] ∧
    (run (.cxlMemWrite false (1152 * 2 ^ 30 - 2) [5, 6]) up).getByte (.bulk (1152 * 2 ^ 30 - 1)) = 6 ∧
    (let s := { up with lode := up.lode.set 1 [(0x1000, 9), (0xFF800000C, 1)] }
     (run (.cxlMemRead true (2 ^ 36 + 0xFFF) 2) s).reads = [[0xFF, 9]] ∧
       (let t := run (.cxlMemWrite true (2 ^ 36 + 0xFFF) [7, 8]) s
        t.getByte (.lode 1 0xFFF) = 0 ∧ t.getByte (.lode 1 0x1000) = 8) ∧
       (let t := run (.cxlMemRead true 0 1) { s with power := { s.power with cur := .ps1, tgt := .ps1 } }
        t.reads = [] ∧ t.power.tgt = .ps0 ∧ t.power.trans = true ∧ t.hdmHeld = [.read true 0 1] ∧ (run .powerTransitionComplete t).reads = [[0xFF]] ∧
          (run .powerTransitionComplete t).hdmHeld = []) ∧
       (let t := run (.cxlMemWrite false 5 [9]) { s with power := { s.power with cur := .ps1, tgt := .ps1 } }
        t.getByte (.bulk 5) = 0 ∧ (run .powerTransitionComplete t).getByte (.bulk 5) = 9)) ∧
    (let s : State := { up with ide := true }; run (.cxlMemRead false 0 1) s = s ∧ (run (.cxlMemRead false 0 1) (s.modFirm (fun f => { f with ideMem := true }))).reads = [[0]]) ∧
    (run (.registerWrite 0x10000 0x50007) up).barRead 0x10000 = 0x50000 ∧ (run (.registerWrite 0x10008 8) up).barRead 0x10008 = 8 ∧
    (run (.registerWrite 0x10020 0x3007) up).barRead 0x10020 = 0x2000 ∧ (run (.registerWrite 0x40000 3) up).firm.code = 4 ∧
    (run (.registerWrite 0x10018 0x100000000) { up with shootErr := true, shootOvfl := true }).barRead 0x10018 = 0x8200000000 ∧
    (let s := up.modFirm (fun f => { f with busy := true }); run (.registerWrite 0x40008 0x1000) s = s) ∧
    (run (.registerWrite 0x40008 0x1009) up).barRead 0x40008 = 0x1000 ∧ run (.registerWrite 0x1108 9) up = up := by decide +kernel

/-- Idleness by tolerance; transitions; samples at the limits of the current; temperatures at 80, 85, 100 and 110. -/
theorem witness_Power :
    (let s (tol n : Nat) := { power (fun p => { p with lattol := tol, lastMem := 1 }) with cycle := n }
     (s 0 12500).idle = true ∧ (s 0 12499).idle = false ∧ (run .moduleIdle (s 1999 12500)).power.tgt = .ps0 ∧ (run .moduleIdle (s 2000 12500)).power.tgt = .ps1 ∧
       (run .moduleIdle (s 150000 12500)).power.tgt = .ps2 ∧ (run .moduleIdle (s 20000000 12500)).power.tgt = .ps3 ∧ (run .moduleIdle (s 20000000 12499)).power.tgt = .ps0 ∧
       (run (.lattolWrite 2000) (s 0 0)).power.lattol = 2000) ∧
    (let s := power (fun p => { p with lattol := 2000, cur := .ps2, tgt := .ps0, trans := true }); run .moduleIdle s = s ∧ s.idle = true) ∧
    (let s := power (fun p => { p with hot := true }); run .moduleIdle s = s ∧ run .powerTransitionComplete s = s) ∧
    (let s := power (fun p => { p with tgt := .ps2 }); (run .powerTransitionComplete s).power.cur = .ps2 ∧
      (let b := { s with regions := up.regions }; run .powerTransitionComplete b = b)) ∧
    (let s (n : Nat) := { up with cycle := n }
     run (.powerSample 1 2) (s 1023) = s 1023 ∧ (run (.powerSample 1 5400) (s 1024)).power.mceil = 432 ∧ (run (.powerSample 1 5700) (s 1024)).power.mceil = 432 ∧
       (run (.powerSample 1 5700) (s 1024)).power.amps = 5700 ∧ (run (.powerSample 1 5399) (s 1024)).power.mceil = 432) ∧
    (let t (n : BitVec 16) := run (.thermalAction n) { up with perNext := 200 }
     (t 79).perNext = 256 ∧ (t 80).perNext = 200 ∧ (t 85).perNext = 200 ∧ (t 86).perNext = 128 ∧ (t 100).power.mceil = 432 ∧ (t 101).power.mceil = 108 ∧
       (t 110).power.hot = false ∧ (t 111).power.hot = true ∧ (t 111).power.tgt = .ps3 ∧ ((t 111).region 0).map (·.doom) = some (some 0x0E) ∧ (t 111).power.temp = 111) := by decide +kernel

/-- The step of the ceiling is free, and its bounds are not: above 5,700 A it falls from 432, and stays at 108 or more. -/
theorem test_mceil_falls : let m := (run (.powerSample 1 5701) up).power.mceil; 108 ≤ m ∧ m < 432 := by
  have h : (run (.powerSample 1 5701) up).power.mceil = 108 + { up with power := { up.power with watts := 1, amps := 5701 } }.draw.1.toNat % 324 := rfl
  have := Nat.mod_lt { up with power := { up.power with watts := 1, amps := 5701 } }.draw.1.toNat (show 324 > 0 by decide)
  show 108 ≤ (run (.powerSample 1 5701) up).power.mceil ∧ (run (.powerSample 1 5701) up).power.mceil < 432
  rw [h]
  omega

/-- The ceiling that a sample sets rules the refills from the next cycle on (R417). -/
theorem test_ceiling_next_cycle :
    let s : State := { power (fun p => { p with mceil := 300, mceilAt := 5 }) with cycle := 1024 }; let t := run (.thermalAction 101) s
    t.power.mceil = 108 ∧ t.ceiling = 300 ∧ ({ t with cycle := 1025 } : State).ceiling = 108 := by decide +kernel

/-- A frame that is pinned, and one that joins the ring of its descriptor. -/
theorem witness_FrameFree :
    let s := { State.reset with lode := State.reset.lode.set 1 (Memory.write (Memory.write [] 0x100C (leBytes 4 4)) 0x1010 (leBytes 8 0x8000)), freeing := [(1, 9, 0x1000)] }
    let n (t : State) (a k : Nat) := numAt t (fun i => .lode 1 (a + i)) k
    n s 0x100C 4 = 4 ∧ s.memWf = true ∧ run (.frameFree 1 8) s = s ∧ (let b := { s with pins := [(1, 9)] }; run (.frameFree 1 9) b = b) ∧
    (let t := run (.frameFree 1 9) s; n t 0x8000 4 = 9 ∧ n t 0x101C 4 = 1 ∧ t.freeing = []) := by decide +kernel

/-! ### Links -/

namespace Sys2Proof.Tests

/-- Port 2 is up, with sequence numbers; an import entry 1 of 256 bytes at 2^16 of context 1 in bulk memory. -/
def linked (f : Link → Link) : State :=
  let s := withBulk up [(0x40000, le 4 0x50001), (0x50000, le 4 0x51001), (0x51000, le 4 0x52001), (0x52008, le 4 0x10007),
    (0x8020, le 8 0x10000), (0x8028, le 8 0x100), (0x8030, le 4 0xABC), (0x8034, le 2 1), (0x8036, [3])]
  let s := s.setRegion 0 { region0 with ptroot := 0x40000 }
  { s with impBase := 0x8000, links := s.links.set 2 (f { s.links[2] with state := .up, txNext := 5, txOld := 5, rxExp := 7 }), cycle := 9000 }
def linkOf (s : State) : Link := s.links[(2 : Fin 8)]
def pk (seq : BitVec 12) (addr : DWord) (arg : DWord) (data : List Byte) : Packet := ⟨seq, 5, false, addr, 0xABC, 0x77, arg, data⟩
def sent (n : Nat) : List (PType × Packet) := List.replicate n (.write, pk 0 0 0 [])
def trained (t : Training) : State := linked (fun l => { l with state := .training, training := some t })
/-- An outbound remote channel of region 0 over port 2, and its transfer state. -/
def exporting : State :=
  let ch : Chan := { chan0 4 with dst := .remote 9, hops := [hop0 1 0 true] }
  let cl := { clause0 with chans := [ch], extents := [⟨9, .peer, true, false, false, 0, 64, 2⟩] }
  (linked id).setRegion 0 { region0 with ptroot := 0x40000, clauses := [cl], loads := 1, roleMap := [0] }

end Sys2Proof.Tests

/-- Sending: from the replay list, a new packet, the 512th and the 513th outstanding, a port that is not up. -/
theorem witness_PacketsAreSent :
    (let s := linked (fun l => { l with resend := sent 2, outbox := sent 1 }); let l := linkOf (run (.packetSend 2) s)
     (linkOf s).freed = [] ∧ l.resend = sent 1 ∧ l.outbox = sent 1 ∧ l.replays = 1) ∧
    (let s (n : BitVec 12) := linked (fun l => { l with outbox := sent 1, txNext := 5 + n, nakDue := true }); let l (n : BitVec 12) := linkOf (run (.packetSend 2) (s n))
     (l 511).txNext = 517 ∧ (l 511).replay.map (fun x => (x.2.seq, x.2.ack, x.2.nak)) = [(516, 7, true)] ∧ (l 0).lastAdvance = 9000 ∧
       (l 512).txNext = 517 ∧ (l 512).outbox = sent 1) ∧
    (let s := linked (fun l => { l with state := .training, outbox := sent 1 }); run (.packetSend 2) s = s) := by decide +kernel

/-- Receiving: behind by 1 and by 512, ahead, the next; reserved bits; a port that is not up. -/
theorem witness_PacketsAreReceived :
    (let l (n : BitVec 12) := linkOf (run (.writePkt 2 (pk (7 - n) 0x10000000000 0 [])) (linked id))
     (l 1).dup = 1 ∧ (l 512).dup = 1 ∧ (l 513).dup = 0 ∧ (l 513).ooo = 1 ∧ (l 513).nakDue = true ∧ (l 512).rxExp = 7 ∧ (l 0).rxExp = 8 ∧ (l 0).ackDue = true) ∧
    (linkOf (run (.grantPkt 2 (pk 7 0x1000000000000 0 [])) (linked id))).state = .down ∧
    (linkOf (run (.readRsp 2 (pk 7 0 0 (List.replicate 257 0))) (linked id))).state = .down ∧
    (let s := linked (fun l => { l with state := .disabled }); run (.readReq 2 (pk 7 0 0 [])) s = s) ∧
    (let s := linked (fun l => { l with txNext := 8, replay := sent 3 }); let l (nak : Bool) := linkOf (run (.idleHdr 2 { pk 0 0 0 [] with ack := 7, nak := nak }) s)
     (l false).txOld = 7 ∧ (l false).replay = sent 1 ∧ (l false).resend = [] ∧ (l true).resend = sent 1 ∧ (l true).lastAdvance = 9000) := by decide +kernel

/-- Imports: in bounds, one byte beyond, a wrong key; a read's answer and its refusal; notes of refusals. -/
theorem witness_ImportsAreChecked :
    (let s := linked id; let a : DWord := 0x100000000FE; let t := run (.writePkt 2 (pk 7 a 0 [5, 6])) s
     Plain1 s 2 (pk 7 a 0 [5, 6]) ∧ (s.importCheck (pk 7 a 0 [5, 6]) 2 true).2 = some [0x100FE, 0x100FF] ∧ s.memWf = true ∧ (linkOf t).writes = [⟨0, 0x77, 1, 1, 0x100FE, [0x100FE, 0x100FF], [5, 6]⟩] ∧ (linkOf t).admitted = 1 ∧
       (run (.doneHdr 2 (pk 8 0 0x77 [])) t).getByte (.bulk 0x100FF) = 6 ∧ (linkOf (run (.doneHdr 2 (pk 8 0 0x77 [])) t)).writes = [] ∧
       (s.importCheck (pk 7 (a + 1) 0 [5, 6]) 2 true).2 = none ∧ (linkOf (run (.writePkt 2 (pk 7 (a + 1) 0 [5, 6])) s)).refused = [0x77] ∧
       (s.importCheck { pk 7 a 0 [] with key := 1 } 2 false) = (s, none)) ∧
    (let s := linked id; let o (n a : DWord) := (linkOf (run (.readReq 2 (pk 7 a n [])) s)).outbox.map (fun x => (x.1, x.2.data))
     o 0 0x10000000000 = [(.refuse, [])] ∧ o 257 0x10000000000 = [(.refuse, [])] ∧ o 256 0x10000000001 = [(.refuse, [])] ∧ s.ownChan 2 0x77 = none ∧
       (linkOf (run (.tokenPkt 2 (pk 7 0 0 [])) s)).outbox.map (·.1) = [.refuse]) := by
  refine ⟨⟨⟨by decide +kernel, by decide, by decide, by decide, by decide⟩, by decide +kernel⟩, by decide +kernel⟩

/-- The longest read of an import, through a 1 GiB leaf. -/
theorem witness_LongestImportRead :
    (linkOf (run (.readReq 2 (pk 7 0x10000000000 256 [])) { linked id with bulk := [(0x8022, 1), (0x8029, 1), (0x8030, 0xBC),
      (0x8031, 10), (0x8034, 1), (0x8036, 3), (0x40000, 1), (0x40002, 5), (0x50000, 15)] })).outbox.map (fun x => (x.1, x.2.data))
      = [(.readRsp, List.replicate 256 0)] := by decide +kernel

/-- The ends of transfers: a response, DONE and REFUSE of an own transfer, and of a peer's push; a grant. -/
theorem witness_TransfersEnd :
    (let tr : Transfer := ⟨0x55, 0, 3, []⟩
     let s := (linked (fun l => { l with transfers := [tr] })).modCond 0 (fun c => { c with cmds := [{ newCommand 3 (.rcopy 0 0x20000000000 8 2 false 5) ⟨none, none⟩ c.hart with dispatched := true, prog := 2 }] })
     (linkOf (run (.readRsp 2 { pk 7 0 0 [1] with tag := 0x55 }) s)).transfers.map (·.inbox) = [[[1]]] ∧
       ((run (.doneHdr 2 (pk 7 0 0x55 [])) s).cond 0).cmds.map (·.ready) = [true] ∧ (linkOf (run (.doneHdr 2 (pk 7 0 0x55 [])) s)).transfers = [] ∧
       ((run (.refusePkt 2 (pk 7 0 0x55 [])) s).cond 0).cmds.map (fun c => c.failed.map (·.code)) = [some 0x20]) ∧
    (let s := linked (fun l => { l with refused := [0x55] })
     (linkOf (run (.doneHdr 2 (pk 7 0 0x55 [])) s)).outbox.map (fun x => (x.1, x.2.arg)) = [(.refuse, 0x55)] ∧
       (linkOf (run (.doneHdr 2 (pk 7 0 0x56 [])) s)).outbox.map (fun x => (x.1, x.2.arg)) = [(.done, 0x56)]) ∧
    (let s := exporting; s.ownChan 2 (chanTag 0 0 0 true) = some (0, 0, 0, true) ∧
       hop? (run (.grantPkt 2 { pk 7 0 4 [] with tag := chanTag 0 0 0 true }) s) 0 = some (hop0 5 0 true)) := by decide +kernel

/-- A peer's TOKEN written, its fourth freed slot granted; a TOKEN of an own inbound channel; a window granted to a peer, and to one whose port
is down (R230, R376, R386). -/
theorem witness_Tokens :
    (let s (n : Nat) := linked (fun l => { l with freed := [(0x77, n, 8000)] }); let t (n : Nat) := run (.tokenPkt 2 (pk 7 0x100000000FE 0 [5, 6])) (s n)
     (t 1).getByte (.bulk 0x100FF) = 6 ∧ (linkOf (t 1)).freed = [(0x77, 2, 8000)] ∧ (linkOf (t 3)).freed = [] ∧
       (linkOf (t 3)).outbox.map (fun x => (x.1, x.2.tag, x.2.arg)) = [(.grant, 0x77, 4)] ∧ (s 1).memWf = true) ∧
    (let ch : Chan := { chan0 4 with src := .remote 9, dst := .port 0 1 3, hops := [hop0 1 4 false] }
     let cl := { clause0 with chans := [ch], extents := [⟨9, .peer, true, false, false, 0, 64, 2⟩] }
     let s := (linked id).setRegion 0 { region0 with ptroot := 0x40000, clauses := [cl], loads := 1, roleMap := [0] }
     s.ownChan 2 (chanTag 0 0 0 false) = some (0, 0, 0, false) ∧
       (let t := run (.tokenPkt 2 { pk 7 0 0 [9, 0, 0, 0, 0, 0, 0, 0] with tag := chanTag 0 0 0 false }) s
        (queueOf t (.ctx 0 1) 3).map (·.item) = [num64 9] ∧ (t.getChan 0 0 0).map (fun c => (c.pushed, c.arrived)) = some (1, 1)) ∧
       (let t := run (.sendWindowGrant 0 0 0 0) s
        (linkOf t).outbox.map (fun x => (x.1, x.2.tag, x.2.arg)) = [(.grant, chanTag 0 0 0 false, 4)] ∧ (hop? t 0).map (·.freed) = some 0) ∧
       ((run (.sendWindowGrant 0 0 0 0) (s.modLink 2 (fun l => { l with state := .down }))).region 0).map (·.doom) = some (some 0x0E)) := by decide +kernel

/-- Timeouts, errors and training at their edges. -/
theorem witness_LinksRetrain :
    (let s (c : Nat) := { linked (fun l => { l with txNext := 6, replay := sent 1, lastAdvance := 100 }) with cycle := c }
     run (.replayTimeout 2) (s 2147) = s 2147 ∧ (linkOf (run (.replayTimeout 2) (s 2148))).resend = sent 1) ∧
    (let s := linked (fun l => { l with state := .down }); run (.crcErr 2) s = s ∧ run (.crcRetrain 2) s = s ∧ run (.reservedTypePacket 2) s = s) ∧
    (let s (n c : Nat) := linked (fun l => { l with crcTimes := List.replicate n c })
     (linkOf (run (.crcErr 2) (s 0 0))).crcErr = 1 ∧ run (.crcRetrain 2) (s 31 8000) = s 31 8000 ∧ run (.crcRetrain 2) (s 32 4904) = s 32 4904 ∧
       (linkOf (run (.crcRetrain 2) (s 32 4905))).state = .training) ∧
    (linkOf (run (.trainingPatternReceived 2) (linked id))).state = .training ∧ (linkOf (run (.fullRetraining 2) (linked (fun l => { l with lost := 1 })))).lost = 0 ∧
    (linkOf (run (.laneLoss 2 15) (linked id))).lost = 0x8000 ∧ (linkOf (run (.portDisable 2) (linked (fun l => { l with outbox := sent 1 })))).outbox = [] ∧
    (linkOf (run (.reservedTypePacket 2) (linked id))).state = .down ∧
    (let s (c : Nat) := { trained ⟨100, none, none, none, false⟩ with cycle := c }
     run (.trainingPatternEnd 2 0xFFFF) (s 1123) = s 1123 ∧ ((linkOf (run (.trainingPatternEnd 2 0xFF) (s 1124))).training.map (·.good)) = some (some 0xFF)) ∧
    (let s := trained ⟨100, some 0xFF, none, none, false⟩; let l (m : BitVec 16) := linkOf (run (.goodLaneMask 2 m) s)
     (l 0xFFFF).rxLanes = 0xFF ∧ (l 0xFFFF).txLanes = 0xFFFF ∧ (l 0xFF01).txLanes = 0xFF00 ∧ (l 0x7FFE).state = .down) ∧
    (let s (c : Nat) := { trained ⟨100, some 0xFF, some 0xFF, some 2000, false⟩ with cycle := c }
     run (.retrainTimeout 2) (s 2511) = s 2511 ∧ (linkOf (run (.retrainTimeout 2) (s 2512))).training.map (·.began) = some 2512 ∧
       (linkOf (run (.idleHdr 2 (pk 0 0 0 [])) (s 2100))).state = .up) := by decide +kernel

/-- The IDLE of step 4 when a lane in use has been lost again; the first training is no retraining (R384, R397). -/
theorem witness_TrainingEnds :
    (let s (lost : BitVec 16) (up : Bool) := linked (fun l => { l with
       state := .training, lost := lost, rxLanes := 0xFF, wasUp := up, training := some ⟨100, some 0xFF, some 0xFF, some 2000, false⟩ })
     run (.idleHdr 2 (pk 0 0x1000000000000 0 [])) (s 0 false) = s 0 false ∧ (linkOf (run (.idleHdr 2 (pk 0 0 0 [])) (s 1 false))).state = .training ∧ (linkOf (run (.idleHdr 2 (pk 0 0 0 [])) (s 0x100 false))).state = .up ∧
       (linkOf (run (.idleHdr 2 (pk 0 0 0 [])) (s 0 false))).retrains = 0 ∧ (linkOf (run (.idleHdr 2 (pk 0 0 0 [])) (s 0 true))).retrains = 1) := by decide +kernel

/-- CRC-32C of the nine digits (its published check value), and a packet's flits there and back. -/
theorem test_flits :
    crc32c [0x31, 0x32, 0x33, 0x34, 0x35, 0x36, 0x37, 0x38, 0x39] = 0xE3069283 ∧
    (let k := pk 3 0x10000000000 0 [1, 2, 3]; let w := packetWire .write k
     w.length = 128 ∧ (w.take 8) = [1, 1, 3, 0, 5, 0, 3, 0] ∧ (w.drop 64).take 4 = [1, 2, 3, 0] ∧
       (packetFrom w matches .ok (.write, ⟨3, 5, false, 0x10000000000, 0xABC, 0x77, 0, [1, 2, 3]⟩)) ∧
       (packetFrom (w.set 2 4) matches .error .crc) ∧ (lanesOut 0xFF00 w).getD 9 [] = (List.range 16).map (fun j => w.getD (8 * j + 1) 0) ∧
       lanesIn 0xFF00 (lanesOut 0xFF00 w) = w) := by decide +kernel

/-! ### Handlers, instructions that stay unfinished, and repeats -/

namespace Sys2Proof.Tests

/-- A start handler sends to a scalar handler over SLOT 0; their replicas are contexts 0 and 1 of cell 0. -/
def handlers (l : List Token) : Plyn :=
  ⟨[⟨true, 0, 0, 0, 0x400, 0x500, false, [], 0⟩, ⟨false, 3, 1, 0x800, 0xC00, 0xD00, false, [], 0⟩], [⟨0, 1, 0, 2, l⟩]⟩
def handled (l : List Token) : State :=
  let cl := { clause0 with plyn := some (handlers l), roles := [{ role0 with stages := [stage0, stage0, noStage, noStage] }] }
  let s := inClause.setRegion 0 { region0 with clauses := [cl], loads := 1, roleMap := [0] }
  (s.modHart (.ctx 0 1) (fun h => { h with run := .running, begun := 1 })).modHart (.ctx 0 0) (fun h => { h with
    x := h.x.set 5 77, ports := h.ports.set 0 (outPort 3) })
def plynOfS (s : State) : Option Plyn := (s.clauseAt 0 0).bind (·.plyn)
def turnOf (s : State) (c : Fin 4) : State :=
  match s.replicaOf 0 c with
  | some (g, n, i, r) =>
    match dispatchTurn (.ctx 0 c) g n i r { s with cur := .ctx 0 c } with
    | .next t => t
    | _ => s
  | none => s

/-- The smallest image: a start handler of one word, `ends`. -/
def plynImage : List Byte :=
  leBytes 2 1 ++ leBytes 2 1 ++ leBytes 4 0 ++ leBytes 4 64 ++ List.replicate 52 0 ++
    [0, 1, 0, 0] ++ leBytes 4 0 ++ leBytes 4 96 ++ leBytes 4 4 ++ List.replicate 16 0 ++ leBytes 4 0x6C000018

end Sys2Proof.Tests

/-- The start handler runs once and sends; its message reaches the other handler in x1; at the end the loops end (R368, R370). -/
theorem witness_HandlersTakeMessages :
    (let s := handled []; let t := turnOf s 0
     (s.replicaOf 0 0).isSome = true ∧ (t.hart (.ctx 0 0)).pc = 0x400 ∧ (t.hart (.ctx 0 0)).x[2] = 0x500 ∧ (t.hart (.ctx 0 0)).x[3] = 0 ∧
       (plynOfS t).map (fun y => y.reps.map (·.ran)) = some [true, false] ∧ ((turnOf t 0).hart (.ctx 0 0)).run = .finished ∧
       (let u := run (.addi (.port 0) (.reg 5) 1 0) t; (plynOfS u).map (fun y => y.chans.map (·.tokens)) = some [[.scalar 78]] ∧
         (let v := run (.addi (.port 0) (.reg 5) 2 0) u
          ((run (.addi (.port 0) (.reg 5) 3 0) v).hart (.ctx 0 0)).hold = some (.full 0)))) ∧
    (let t := turnOf (handled [.scalar 78]) 1; let h := t.hart (.ctx 0 1)
     h.x[1] = 78 ∧ h.x[2] = 0xD00 ∧ h.x[3] = 1 ∧ h.pc = 0xC00 ∧ (plynOfS t).map (fun y => y.chans.map (·.tokens)) = some [[]]) ∧
    ((turnOf (handled []) 1).hart (.ctx 0 1)).hold = some (.empty 0) ∧
    ((turnOf ((handled []).modHart (.ctx 0 0) (fun h => { h with run := .finished })) 1).hart (.ctx 0 1)).run = .finished := by decide +kernel

/-- A step of a handler: the loop's turn at its address, a word of the handler, and its `ends`, which goes back to the loop. -/
theorem witness_HandlerSteps :
    (let at8 (pc : DWord) := (({ handled [] with agenda := [.issue (.ctx 0 0)] } : State).modHart (.ctx 0 0) (fun h => { h with pc := pc })).modCell 0 (fun x =>
        { x with store := x.store.write 0x400 (leBytes 4 0x08E7FFE8 ++ leBytes 4 0x6C000018) })
     ((stepped (at8 0)).hart (.ctx 0 0)).pc = 0x400 ∧ ((stepped (at8 0x400)).hart (.ctx 0 0)).x[7] = -3 ∧
       ((stepped (at8 0x404)).hart (.ctx 0 0)).pc = 0 ∧ ((stepped (at8 0x404)).hart (.ctx 0 0)).run = .running) := by decide +kernel

/-- The conductors' words, decoded (R370), and the checks of the smallest image (R369). -/
theorem test_translation :
    (let w (n : Nat) := imgNum plynConductor (4 * n) 4
     reads (decode .cond true (w 0) 0 0 0) (.addi (.reg 9) (.reg 0) 1 0) ∧ reads (decode .cond true (w 1) 0 0 0) (.shli (.reg 9) (.reg 9) 40 0) ∧
       reads (decode .cond true (w 2) 0 0 0) (.addi (.reg 9) (.reg 9) 0x100 0) ∧
       reads (decode .cond true (w 4) (w 5) (w 6) (w 7)) (.clause (.reg 9) (.reg 0) ⟨none, none⟩ 0) ∧ reads (decode .cond true (w 8) 0 0 0) (.halt 0)) ∧
    plynImage.length = 100 ∧ plynrunOk plynImage 1 = true ∧ plynrunOk plynImage 0 = false ∧ plynrunOk (plynImage.set 99 0x68) 1 = false := by decide +kernel

/-- A load stays unfinished, holds back an instruction that reads what it will write, and finishes (R46, R49, R246). -/
theorem witness_UnfinishedLoads :
    let s := (with2 atCond 0x10000000000 3).modXlat 1 id
    let code : Memory := Memory.write s.bulk 0x10000 (leBytes 4 ((encode (.ldD (.reg 2) (.reg 1) 1 0)).headD 0) ++ leBytes 4 0x08E7FFE8 ++ leBytes 8 0x55)
    let s : State := ({ s with bulk := code, agenda := [.launch (.cond 0), .land (.cond 0) 0] } : State).modHart (.cond 0) (fun h => { h with pc := 0x10000000000 })
    let t := stepped s
    (t.hart (.cond 0)).flight.length = 1 ∧ (t.hart (.cond 0)).pc = 0x10000000004 ∧ (t.hart (.cond 0)).x[2] = 3 ∧
      hazard t (.cond 0) (.addi (.reg 4) (.reg 2) 1 0) = true ∧ hazard t (.cond 0) (.addi (.reg 4) (.reg 5) 1 0) = false ∧
      (let u := stepped t; (u.hart (.cond 0)).flight = [] ∧ (u.hart (.cond 0)).x[2] = 0x55) ∧
      (let h := t.hart (.cond 0); let f := r47Frame h.flight 0 0 Idx.zero []
       f.length = 2048 ∧ f.getD 0 0 = 1 ∧ f.getD 0x45 0 = 1 ∧ f.getD 0x65 0 = 1) := by decide +kernel

/-- A step within a repeat unit (R91). -/
theorem witness_RepeatSteps :
    let s := (State.reset.withFetchWord 64 0x0504C80068350000).modHart (.ctx 0 0) (fun h => { h with rep := true, repc := 1, x := h.x.set 4 100, ports := h.ports.set 1 (inPort 3 [num64 7]) })
    (s.fetchWord (.ctx 0 0) 0 matches .ok (_, 0x68350000)) ∧ ((stepped s).hart (.ctx 0 0)).pc = 8 ∧ ((stepped s).hart (.ctx 0 0)).rep = false := by decide +kernel

/-- SHA-256 of "abc" begins as the standard gives it. -/
theorem test_sha256 : (sha256 [0x61, 0x62, 0x63]).take 8 = [0xBA, 0x78, 0x16, 0xBF, 0x8F, 0x01, 0xCF, 0xEA] := by decide +kernel

/-! ### What the commands of the engines and of the lode do -/

namespace Sys2Proof.Tests

/-- Command 0 of conductor 0 for region 0, when it is what the statements about running commands ask. -/
def freshCmd (s : State) : Bool :=
  match (s.cond 0).cmds, s.region 0 with
  | [x], some r => x.dispatched && decide (x.failed = none) && decide ((s.cond 0).region = some 0) && decide (r.phase = .running) && s.memWf &&
      decide (x.prog = 0) && decide (x.memo = []) && decide ((s.conds.map (fun y => (y.2.cmds.filter (fun z => z.onEngine.isSome)).length)).sum = 0)
  | _, _ => false

theorem cmds_none (l : List Command) (h : (l.filter (fun z => z.onEngine.isSome)).length = 0) (e : EngineKind) :
    (l.filter (fun z => z.onEngine = some e)).length = 0 := by
  rw [List.length_eq_zero_iff, List.filter_eq_nil_iff] at *
  intro a ha hb
  exact h a ha (by simp_all)

theorem fresh_of_freshCmd {s : State} (h : freshCmd s = true) : ∃ r c, Fresh s 0 0 0 r c := by
  unfold freshCmd at h
  split at h
  · rename_i x r hx hr
    simp only [Bool.and_eq_true, decide_eq_true_eq] at h
    obtain ⟨⟨⟨⟨⟨⟨⟨h1, h2⟩, h3⟩, h4⟩, h5⟩, h6⟩, h7⟩, h8⟩ := h
    refine ⟨r, x, ⟨by simp [hx], by simp [hx], h1, h2, h3, hr, h4, h5, .inr fun e _ => ?_⟩, h6, h7⟩
    have : Claim.placed s e = 0 := by
      unfold Claim.placed
      rw [List.sum_eq_zero_iff] at *
      intro n hn
      obtain ⟨y, hy, rfl⟩ := List.mem_map.1 hn
      exact cmds_none _ (h8 _ (List.mem_map_of_mem hy)) e
    rw [this]; split <;> decide
  · cases h

/-- The conductor's only command after one COMMAND_COMPLETE; the fault codes it keeps. -/
def done (s : State) : State :=
  match execCommandComplete 0 0 s with
  | .next t => t
  | _ => State.reset
def codes (s : State) : List (Nat × Option DWord) := ((done s).cond 0).cmds.filterMap (fun c => c.failed.map (fun f => (f.code, f.xaddr)))
def gone (s : State) : Bool := freshCmd s && decide (((done s).cond 0).cmds = [])
def puts (l : List (Nat × List Byte)) (m : Memory) : Memory := l.foldl (fun m e => m.write e.1 e.2) m
def valsAt (s : State) (pl : Nat → Place) (n : Nat) : List Nat := (List.range n).map (fun i => (s.getByte (pl i)).toNat)

/-- Indexes at 0x100 and 24 bytes at 0x200 of the store of cell 1. -/
def idxs : State := twoCells.modCell 1 (fun x => { x with store := puts [(0x100, leBytes 4 2 ++ leBytes 4 0 ++ leBytes 4 2), (0x200, (List.range 24).map (BitVec.ofNat 8))] [] })
def linkUp (s : State) : State := s.modLink 2 (fun l => { l with state := .up })
/-- A role map object of the entries. -/
def mapOf (l : List Nat) : State := idxs.modCell 1 (fun x => { x with store := puts [(0x300, leBytes 2 l.length ++ leBytes 6 0 ++ (l.map (leBytes 2)).flatten)] x.store })
/-- A page that has not been written, whose leaf holds a value. -/
def cleanPage (v : Nat) : State :=
  ({ idxs with bulk := puts [(0x5000, leBytes 8 v)] [] } : State).modXlat 1 (fun x => x.setPage ⟨0, 0, 2 ^ 16, 0x5000, 0x1000F, true, false, false⟩)
/-- A lazy extent of four pages with one table entry and one spare frame, and three logged stores of cell 0. -/
def lazyExt : State :=
  let s := ({ idxs with bulk := puts [(0x6000, leBytes 8 0x50000 ++ leBytes 8 (0x70000 + 5)), (0x6100, leBytes 8 0x80000), (0x70010, [9])] [] } : State)
  let s := s.modRegion 0 (fun r => { r with extents := [ext1, ⟨3, .bulk, true, true, true, 0x40000, 2 ^ 18, 0⟩], gpool := 0x6000, gpooln := 1, spool := 0x6100, spooln := 1 })
  s.modCell 0 (fun x => { x with log := [⟨.lazy, 0x50010 / 64, [(0x50010, 1), (0x50011, 2)], [], 0, none, false⟩,
    ⟨.lazy, 0x60010 / 64, [(0x60010, 7)], [], 0, none, false⟩, ⟨.lazy, 0x50010 / 64, [(0x50011, 3)], [], 1, none, false⟩] })

end Sys2Proof.Tests

/-- Copy, scatter and gather with FE; cmpr of equal and of unequal ranges; reduce; a fingerprint. -/
theorem witness_EnginesMoveBytes :
    (let s := withCmd idxs (.copy 0x40 0x100200 16 0x20) none; gone s = true ∧ valsAt (done s) (.store 0 <| 0x40 + ·) 16 = List.range 16 ∧ ((done s).cell 0).fe = [8, 9]) ∧
    (let s := withCmd idxs (.scatter 0x40 0x100200 0x100100 true 8 3) none
     gone s = true ∧ valsAt (done s) (.store 0 <| 0x40 + ·) 24 = [8, 9, 10, 11, 12, 13, 14, 15, 0, 0, 0, 0, 0, 0, 0, 0, 16, 17, 18, 19, 20, 21, 22, 23]) ∧
    (let s := withCmd idxs (.gather 0x40 0x100200 0x100100 0x20 8 3) none
     gone s = true ∧ valsAt (done s) (.store 0 <| 0x40 + ·) 24 = [16, 17, 18, 19, 20, 21, 22, 23, 0, 1, 2, 3, 4, 5, 6, 7, 16, 17, 18, 19, 20, 21, 22, 23]) ∧
    (let s (a : DWord) := withCmd idxs (.cmpr 0x100200 a 0x40 false 8) none
     gone (s 0x100208) = true ∧ gone (s 0x100200) = true ∧ (done (s 0x100200)).getByte (.store 0 0x40) ≠ (done (s 0x100208)).getByte (.store 0 0x40)) ∧
    (let s := withCmd (idxs.modCell 0 (fun x => { x with store := puts [(0x40, leBytes 8 5)] [] })) (.reduce 0x40 0x100200 1 0 2) none
     gone s = true ∧ valsAt (done s) (.store 0 <| 0x40 + ·) 8 = [5, 1, 2, 3, 4, 5, 6, 7]) := by decide +kernel

/-- A page whose first words are 1 and 2. -/
def Sys2Proof.Tests.printed : State :=
  withCmd (idxs.modCell 1 (fun x => { x with store := puts [(0x1000 + 256, leBytes 8 1 ++ leBytes 8 2)] x.store })) (.fprint 0x101000 0x40 1 false) none

theorem witness_Fingerprint : freshCmd printed = true ∧ r185 printed 1 0x1000 = 7 := by decide +kernel

/-- rcopy that pushes, that asks, that takes its last answer, and at a port that is down. -/
theorem witness_RemoteCopies :
    (let s := withCmd (linkUp idxs) (.rcopy 0x100200 0x7000 300 2 false 9) none
     freshCmd s = true ∧ (done s).links[2].outbox.map (fun x => (x.2.addr, x.2.data.length)) = [(0x7000, 256), (0x7100, 44), (0, 0)]) ∧
    (let s := withCmd (linkUp idxs) (.rcopy 0x100200 0x7000 300 2 true 9) none
     freshCmd s = true ∧ (done s).links[2].outbox.map (fun x => (x.2.addr, x.2.data.length)) = [(0x7000, 0), (0x7100, 0)] ∧
       (let t := (done s).modLink 2 (fun l => { l with transfers := l.transfers.map (fun z => { z with inbox := [List.replicate 256 1, List.replicate 44 2] }) })
        ((done t).cond 0).cmds = [] ∧ (done t).getByte (.store 1 0x200) = 1 ∧ (done t).getByte (.store 1 (0x200 + 299)) = 2)) ∧
    codes (withCmd idxs (.rcopy 0x100200 0x7000 300 2 false 9) none) = [(0x20, none)] := by decide +kernel

/-- The role map, a bad one twice; the seam; a command that the seam's readers hold. -/
theorem witness_MapAndSeam :
    (let s := withCmd (mapOf [3, 5, 15]) (.rolemap 0x100300) none; gone s = true ∧ ((done s).region 0).map (·.roleMap) = some [3, 5, 15]) ∧
    codes (withCmd (mapOf [3, 5, 3]) (.rolemap 0x100300) none) = [(0x21, none)] ∧ codes (withCmd (mapOf [3, 17]) (.rolemap 0x100300) none) = [(0x21, none)] ∧
    (let s := withCmd (idxs.modRegion 0 (fun r => { r with extents := [ext1, ⟨2, .seam, true, false, false, 0x40, 2 ^ 16, 0⟩] }))
        (.seamw 0x20000000040 0x100200 64) none
     gone s = true ∧ valsAt (done s) (.seam <| 0x80 + ·) 3 = [0, 1, 2]) := by decide +kernel

/-- The first write to a clean page sets its dirty bit in the table and in its translation. -/
theorem witness_DirtyPage :
    let s := withCmd (cleanPage 0x1000F) (.fill 0x10000000010 5 8 0) none
    gone s = true ∧ bulkWord (done s) 0x10010 = 5 ∧ bulkWord (done s) 0x5000 = 0x1000F ||| 24 ∧
      (((done s).xlat 1).page? 0 0).map (fun p => (p.dirty, p.value)) = some (true, 0x1000F ||| 24) := by decide +kernel

theorem witness_LazyGrant :
    (let s := withCmd lazyExt (.xmap 0x30000020000 false) none; freshCmd s = true ∧ codes s = [(0x24, none)]) ∧
    codes (withCmd lazyExt (.xmap 0x10000000000 true) none) = [(0x24, none)] := by decide +kernel

theorem witness_LazyReplay :
    let s := withCmd lazyExt (.xmap 0x30000010000 false) none; let t := done s
    gone s = true ∧ (t.xlat 1).lazy? false 5 = some ⟨false, 5, 0x70000, true⟩ ∧ valsAt t (.bulk <| 0x70010 + ·) 3 = [1, 3, 0] ∧
      bulkWord t 0x6008 = 0x70000 + 7 ∧ (t.cell 0).log.map (·.line) = [0x60010 / 64] := by decide +kernel

namespace Sys2Proof.Tests

/-- A lode descriptor of four sequences, of which sequence 0 has a leaf of positions 0 to 4 on frame 10; two free frames. -/
def lodeMem : Memory := puts [
  (0x1000, leBytes 8 0x2000 ++ leBytes 4 4 ++ leBytes 4 4 ++ leBytes 8 0x1100 ++ leBytes 4 0 ++ leBytes 4 2 ++ leBytes 8 0x1200 ++ leBytes 4 8 ++ leBytes 4 0 ++ leBytes 4 0),
  (0x1100, leBytes 4 20 ++ leBytes 4 21), (0x2000, leBytes 8 0x3000 ++ leBytes 4 5 ++ leBytes 4 1),
  (0x3000, leBytes 4 0 ++ leBytes 4 5 ++ leBytes 8 0 ++ leBytes 4 1 ++ leBytes 4 0 ++ leBytes 8 0x3100 ++ leBytes 4 0 ++ leBytes 4 4 ++ leBytes 2 1 ++ leBytes 1 1 ++ leBytes 1 0 ++ leBytes 1 0x46),
  (0x3100, leBytes 8 (2 ^ 31 + 10)), (0x3108, leBytes 8 (2 ^ 31 + 11)), (0xFF8000000 + 8, leBytes 8 (2 ^ 32) ++ leBytes 8 (2 ^ 32) ++ leBytes 8 (2 ^ 32)),
  (0xFF8000000 + 80, leBytes 4 1), (0xFF8000000 + 88, leBytes 4 1)] []
/-- That lode with some bytes replaced, under a command. -/
def lodeWith (l : List (Nat × List Byte)) (op : CmdOp) : State :=
  let s := (twoCells.modRegion 0 (fun r => { r with lodectx := [0x1000, 0, 0, 0] })).setLode 0 (puts l lodeMem)
  withCmd (s.modCell 0 (fun x => { x with store := puts [(0x400, [3, 10, 17])] x.store })) op none
/-- A range of n positions from p. -/
def span (p n : Nat) : DWord := BitVec.ofNat 64 (p + n * 2 ^ 32)
/-- A fork of sequence 0 at position 16 as sequence 2. -/
def splitBlock : List Byte := leBytes 4 0 ++ leBytes 4 2 ++ leBytes 4 16 ++ leBytes 4 0 ++ leBytes 8 0x2100 ++ leBytes 8 0x2200 ++ leBytes 4 3 ++ leBytes 4 0 ++
  leBytes 8 0x2400 ++ leBytes 8 0x2500
/-- A fork block at 0x800 of the store of cell 0. -/
def forkWith (l : List (Nat × List Byte)) (b : List Byte) : State :=
  (lodeWith l (.lfork 0x800)).modCell 0 (fun x => { x with store := puts [(0x800, b)] x.store })

end Sys2Proof.Tests
/-- A slot is put, appended and got; the positions that fail. -/
theorem witness_LodeSlots :
    (let s := lodeWith [] (.lput 0 0x400 (span 3 1)); gone s = true ∧ valsAt (done s) (.lode 0 <| 4096 * 10 + 256 + 240 * 3 + ·) 3 = [3, 10, 17]) ∧
    (let s := lodeWith [] (.lapp 0 0x400 (span 5 1)); gone s = true ∧ lnum (done s) 0 0x2008 4 = 6 ∧ lnum (done s) 0 0x3004 4 = 6) ∧
    codes (lodeWith [] (.lput 0 0x400 (span 5 1))) ≠ [] ∧ codes (lodeWith [] (.lapp 0 0x400 (span 6 1))) ≠ [] := by decide +kernel
/-- A page shared, frames released. -/
theorem witness_LodeSharesAndReleases :
    (let s := lodeWith [(0xFF8000000 + 96, leBytes 4 1)] (.lshare 0 12 20 true); gone s = true ∧ lnum (done s) 0 0x3110 8 = 2 ^ 31 + 12 ∧ lnum (done s) 0 (0xFF8000000 + 96) 4 = 2) ∧
    (let s := lodeWith [(0x3108, leBytes 8 0)] (.lrel 0); gone s = true ∧ lnum (done s) 0 0x200C 4 = 0) ∧
    (let s := lodeWith [(0x3010, leBytes 4 3)] (.lrel 0); gone s = true ∧ lnum (done s) 0 0x3010 4 = 2) := by decide +kernel
/-- A new sequence, a whole fork, a fork that splits its leaf. -/
theorem witness_LodeForks :
    (let s := forkWith [] (leBytes 4 0 ++ leBytes 4 2 ++ leBytes 4 0 ++ leBytes 1 1 ++ leBytes 3 0 ++ leBytes 8 0x2100 ++ leBytes 8 0x2200 ++ leBytes 4 3 ++ leBytes 4 (2 + 2 ^ 16 + 2 ^ 24) ++ leBytes 16 0 ++ leBytes 1 0x26)
     gone s = true ∧ lnum (done s) 0 0x2020 8 = 0x2100) ∧
    (let s := forkWith [(0x2008, leBytes 4 20), (0x3004, leBytes 4 20), (0x3110, leBytes 8 (2 ^ 31 + 12))] splitBlock
     gone s = true ∧ lnum (done s) 0 0x3000 8 = 16 + 4 * 2 ^ 32 ∧ lnum (done s) 0 0x3008 8 = 0x2400 ∧ lnum (done s) 0 0x2020 8 = 0x2100) := by decide +kernel

namespace Sys2Proof.Tests

/-- An attn block at 0x10000 for positions below 5 of the lode, with one query head for each of four groups, in state st at cpos;
two edge channels whose gather side holds es and whose result side has fr free slots; the outstanding attn has begun. -/
def attnAt (st cpos fr : Nat) (es : List Entry) : State :=
  let img := leBytes 8 0 ++ leBytes 4 0 ++ leBytes 4 5 ++ leBytes 8 0x10000008000 ++ leBytes 8 0x10000009000 ++ leBytes 4 0x3F800000 ++
    [1, 3, 4, BitVec.ofNat 8 st] ++ leBytes 4 cpos ++ leBytes 20 0
  let s := lodeWith [] (.attn 0x10000000000)
  let s := { s with bulk := (puts [(0x18000, [1])] []).write 0x10000 img }
  s.modRegion 0 (fun r => { r with clauses := r.clauses.map (fun x => { x with chans := [
    ⟨.port 0 0 2, .edge 0 3, 4, 4, 0, [⟨2, false, [], 4, 0, none, []⟩], 0, 0, false, 0, false, [], es⟩,
    ⟨.edge 0 4, .port 0 1 3, 6, 4, 0, [⟨fr, false, [], 4, 0, none, []⟩], 0, 0, false, 0, false, [], []⟩] }) })
def query : Entry := ⟨.data (.block ⟨BitVec.ofNat 160 0x123456789ABCDEF01234, false⟩), 0, Idx.zero, 0⟩
/-- The byte of STATE and the four of CPOS. -/
def attnState (s : State) : Nat × Nat := ((s.getByte (.bulk 0x10027)).toNat, numAt s (fun i => .bulk (0x10028 + i)) 4)

end Sys2Proof.Tests
/-- attn starts its block and gathers a query. -/
theorem witness_Attention :
    (let s := attnAt 0 0 2 [query]; freshCmd s = true ∧ attnState (beat 0 0 1 s) = (1, 0) ∧ attnState (beat 0 0 2 s) = (1, 1)) := by decide +kernel

/-! ### Bytes read early, missing pages, counters -/

namespace Sys2Proof.Tests

/-- A context whose store holds a word at pc 0, with bytes that a load has read early. -/
def readEarly (i : Instr) : State :=
  (placed (encode i)).modHart (.ctx 0 0) (fun h => { h with early := [(.bulk 0, 5)] })
/-- Tables of context 1 whose leaf for page 1 at 0x52008 has A and D clear. -/
def walkable : State :=
  let s := { atCond with bulk := puts [(0x40000, leBytes 4 0x50001), (0x50000, leBytes 4 0x51001), (0x51000, leBytes 4 0x52001), (0x52008, leBytes 4 0x10007)] [] }
  s.modXlat 1 (fun x => { x with root := 0x40000 })

end Sys2Proof.Tests

/-- A missing page of a non-lazy extent whose walk reaches its leaf: its A bit is set, and no translation of it stays in use. -/
theorem witness_MissingPageIsMarked :
    (match walkFrom walkable.bad walkable.bulk (2 ^ 16) 3 (walkable.xlat 1).root with | .ok (l, _, _) => l | .error _ => 0) = 0x52008 ∧
    (let t := walkable.stopBy (.cond 0) (.page ⟨.bulk, 0x10000010000, 2 ^ 16, 0, 0, none⟩)
     t.getByte (.bulk 0x52008) = 0x0F ∧ (t.hart (.cond 0)).hold = some .page ∧ (t.xlat 1).broken = [1] ∧ (t.cond 0).records.length = 1) := by decide +kernel

/-- A fence forgets bytes read early, an add keeps them. -/
theorem witness_BytesReadEarly :
    (let s := readEarly (.fence .system 0)
     Ready { s with agenda := [] } (.ctx 0 0) ∧ ((fetching { s with agenda := [] } (.ctx 0 0)).hart (.ctx 0 0)).early ≠ [] ∧ keepsEarly (.fence .system 0) = false ∧
       ((stepped s).hart (.ctx 0 0)).early = [] ∧ ((stepped s).hart (.ctx 0 0)).pc = 4) ∧
    (let i : Instr := .addi (.reg 7) (.reg 7) 1 0
     keepsEarly i = true ∧ ((stepped (readEarly i)).hart (.ctx 0 0)).early = [(.bulk 0, 5)] ∧ xOf (stepped (readEarly i)) 7 = 1) := by
  refine ⟨⟨⟨by decide, by decide +kernel⟩, by decide +kernel, by decide, by decide +kernel, by decide +kernel⟩, by decide, by decide +kernel, by decide +kernel⟩

/-- MSTAT with stalls beyond its field and one operation; the first refresh window of SEAMCAL; a cycle that has started a
k-block only takes its refill. -/
theorem witness_CountersRead :
    (let s := run (.mzero 2 0 0) (atCell.modCell 0 (fun x => { x with stalls := 70000, budget := 3 }))
     (csrRead s (.ctx 0 0) 0x061).toNat % 2 ^ 16 = 65535 ∧ (csrRead s (.ctx 0 0) 0x061).toNat / 2 ^ 48 = 3 ∧
       (csrRead s (.ctx 0 0) 0x061).toNat / 2 ^ 30 % 2 = 1) ∧
    (csrRead atCell (.ctx 0 0) 0x080).toNat / 2 ^ 16 % 2 ^ 8 = 200 ∧ (csrRead atCell (.ctx 0 0) 0x080).toNat % 2 ^ 16 = atCell.per ∧
    (let s := atCell.modCell 0 (fun x => { x with lastStart := atCell.cycle + 1, budget := 0 })
     ((run (.kBlockStart 0) s).cell 0).budget = 432 ∧ ((run (.kBlockStart 0) s).cell 0).stalls = 0) := by decide +kernel
end

section
/-! PROOFS. Machine state and operands (spec/02, spec/04, spec/11): what the shared operations leave of agents, clauses and
memory; then registers, ports, traps, CSRs, steps and records. -/
set_option Elab.async false
namespace Sys2Proof.Machine
open Sys2Proof Sys2Proof.Claim

/-! ### Reads after updates of the state -/

@[simp] theorem State.region_modHart (s : State) (a : AgentId) (f : Hart → Hart) (q : Nat) :
    (s.modHart a f).region q = s.region q := by simp [State.region]

@[simp] theorem State.clauseAt_modHart (s : State) (a : AgentId) (f : Hart → Hart) (q n : Nat) :
    (s.modHart a f).clauseAt q n = s.clauseAt q n := by simp [State.clauseAt]

@[simp] theorem State.hart_modRegion (s : State) (q : Nat) (f : Region → Region) (a : AgentId) :
    (s.modRegion q f).hart a = s.hart a := by cases a <;> simp [State.hart, State.cell, State.cond]

@[simp] theorem State.cell_modRegion (s : State) (q : Nat) (f : Region → Region) (p : Nat) :
    (s.modRegion q f).cell p = s.cell p := by simp [State.cell]

@[simp] theorem State.cond_modRegion (s : State) (q : Nat) (f : Region → Region) (k : Nat) :
    (s.modRegion q f).cond k = s.cond k := by simp [State.cond]

@[simp] theorem State.region_setRegion_same (s : State) (q : Nat) (r : Region) : (s.setRegion q r).region q = some r := by
  simp [State.region, State.setRegion]

theorem State.region_setRegion_other (s : State) {q g : Nat} (r : Region) (h : g ≠ q) :
    (s.setRegion q r).region g = s.region g := by
  simp [State.region, State.setRegion, tfind_tset_other _ _ h]

theorem State.modRegion_some {s : State} {q : Nat} {r : Region} (f : Region → Region) (h : s.region q = some r) :
    s.modRegion q f = s.setRegion q (f r) := by simp [State.modRegion, h]

theorem State.modRegion_none {s : State} {q : Nat} (f : Region → Region) (h : s.region q = none) :
    s.modRegion q f = s := by simp [State.modRegion, h]

/-- A region changed reads as the function of the old one, every other as it was. -/
theorem State.region_modRegion (s : State) (q : Nat) (f : Region → Region) (g : Nat) :
    (s.modRegion q f).region g = if g = q then (s.region g).map f else s.region g := by
  cases h : s.region q with
  | none =>
    rw [State.modRegion_none f h]
    split <;> simp_all
  | some r =>
    rw [State.modRegion_some f h]
    split
    · subst g; simp [h]
    · rename_i hg
      exact State.region_setRegion_other s _ hg

@[simp] theorem State.cell_modCell_same (s : State) (p : Nat) (f : Cell → Cell) : (s.modCell p f).cell p = f (s.cell p) := by
  simp [State.modCell]

theorem State.cell_modCell_other (s : State) {p g : Nat} (f : Cell → Cell) (h : g ≠ p) :
    (s.modCell p f).cell g = s.cell g := State.cell_setCell_other s _ h

@[simp] theorem State.cond_modCond_same (s : State) (k : Nat) (f : Cond → Cond) : (s.modCond k f).cond k = f (s.cond k) := by
  simp [State.modCond]

theorem State.cond_modCond_other (s : State) {k j : Nat} (f : Cond → Cond) (h : j ≠ k) :
    (s.modCond k f).cond j = s.cond j := State.cond_setCond_other s _ h

@[simp] theorem State.cond_modCell (s : State) (p : Nat) (f : Cell → Cell) (k : Nat) :
    (s.modCell p f).cond k = s.cond k := rfl

@[simp] theorem State.cell_modCond (s : State) (k : Nat) (f : Cond → Cond) (p : Nat) :
    (s.modCond k f).cell p = s.cell p := rfl

@[simp] theorem State.getByte_modCond (s : State) (k : Nat) (f : Cond → Cond) (y : Place) :
    (s.modCond k f).getByte y = s.getByte y := State.getByte_setCond s k _ y

/-- A cell whose store stays leaves every byte. -/
theorem State.getByte_modCell (s : State) (p : Nat) (f : Cell → Cell) (h : (f (s.cell p)).store = (s.cell p).store)
    (y : Place) : (s.modCell p f).getByte y = s.getByte y := State.getByte_setCell s p _ h y

/-- A cell whose contexts stay leaves every agent. -/
theorem State.hart_modCell (s : State) (p : Nat) (f : Cell → Cell) (h : (f (s.cell p)).ctx = (s.cell p).ctx) (a : AgentId) :
    (s.modCell p f).hart a = s.hart a := by
  cases a with
  | ctx g c =>
    by_cases hg : g = p
    · subst hg; simp [State.hart, h]
    · simp [State.hart, State.cell_modCell_other s f hg]
  | cond k => rfl

/-- A conductor whose registers stay leaves every agent. -/
theorem State.hart_modCond (s : State) (k : Nat) (f : Cond → Cond) (h : (f (s.cond k)).hart = (s.cond k).hart) (a : AgentId) :
    (s.modCond k f).hart a = s.hart a := by
  cases a with
  | ctx g c => rfl
  | cond j =>
    by_cases hj : j = k
    · subst hj; simp [State.hart, h]
    · simp [State.hart, State.cond_modCond_other s f hj]

/-- An agent changed changes nothing of a cell but its contexts. -/
theorem State.cell_modHart (s : State) (a : AgentId) (f : Hart → Hart) (p : Nat) :
    (s.modHart a f).cell p = { s.cell p with ctx := ((s.modHart a f).cell p).ctx } := by
  cases a with
  | ctx g c =>
    by_cases hp : p = g
    · subst hp; simp [State.modHart, State.setHart]
    · simp [State.modHart, State.setHart, State.cell_setCell_other s _ hp]
  | cond k => rfl

/-- An agent changed changes nothing of a conductor but its registers. -/
theorem State.cond_modHart (s : State) (a : AgentId) (f : Hart → Hart) (k : Nat) :
    (s.modHart a f).cond k = { s.cond k with hart := ((s.modHart a f).cond k).hart } := by
  cases a with
  | ctx g c => rfl
  | cond j =>
    by_cases hk : k = j
    · subst hk; simp [State.modHart, State.setHart]
    · simp [State.modHart, State.setHart, State.cond_setCond_other s _ hk]

/-! ### Retiring (R49, R91) -/

/-- Out of a unit the pc moves by the length. -/
theorem Hart.retired_outside {h : Hart} (a : AgentId) (n : Nat) (hr : h.rep = false) :
    h.retired a n = { h with hold := none, pass := issuedPass h a.isCond, pc := h.pc + dwn n } := by
  simp [Hart.retired, hr, issuedPass, passStep, dwn]

/-- Within a unit a repeat counts down. -/
theorem Hart.retired_repeat {h : Hart} (a : AgentId) (n : Nat) (hr : h.rep = true) (hc : 1 < h.repc.toNat) :
    h.retired a n = { h with hold := none, pass := issuedPass h a.isCond, repc := h.repc - 1 } := by
  have : ¬ h.repc.toNat ≤ 1 := by omega
  simp [Hart.retired, hr, this, issuedPass, passStep, dwn]

/-- The last repeat leaves the unit. -/
theorem Hart.retired_last {h : Hart} (a : AgentId) (n : Nat) (hr : h.rep = true) (hc : h.repc.toNat ≤ 1) :
    h.retired a n =
      { h with hold := none, pass := issuedPass h a.isCond, rep := false, repc := 0, pc := h.pc + 8 } := by
  simp [Hart.retired, hr, hc, issuedPass, passStep, dwn]

/-- Retiring ends the hold and moves the pass, the pc and the repeat count alone. -/
theorem Hart.retired_frame (h : Hart) (a : AgentId) (n : Nat) :
    h.retired a n = { h with
      hold := none, pass := issuedPass h a.isCond, pc := (h.retired a n).pc, rep := (h.retired a n).rep
      repc := (h.retired a n).repc } := by
  cases hr : h.rep with
  | false => rw [Hart.retired_outside a n hr]
  | true =>
    by_cases hc : h.repc.toNat ≤ 1
    · rw [Hart.retired_last a n hr hc]
    · rw [Hart.retired_repeat a n hr (by omega)]

end Sys2Proof.Machine
open Sys2Proof Sys2Proof.Machine Sys2Proof.Claim

/-- Settles O7: an agent's retired registers differ in the hold, the pass, the pc and the repeat count alone. -/
theorem retiringAdvancesOnlyPcAndPass : Obligations.RetiringAdvancesOnlyPcAndPass := by
  intro s n
  have hh : (s.retireBy s.cur n).hart s.cur = (s.hart s.cur).retired s.cur n := by simp
  have hf := Hart.retired_frame (s.hart s.cur) s.cur n
  simp only [hh]
  refine ⟨fun p => by simp, fun b hb => State.hart_modHart_other s _ hb, ?_⟩
  rw [hf]
  refine ⟨⟨rfl, rfl, rfl, rfl, rfl, rfl, rfl, rfl, rfl, rfl, rfl, rfl, rfl, rfl, rfl, rfl, rfl⟩, rfl, rfl, rfl, rfl, rfl, rfl,
    rfl, rfl, rfl, rfl, rfl, rfl, by simp [State.retireBy], ?_, ?_, ?_, ?_⟩
  · simp only [issuedPass]
    split
    · rfl
    · simp [BitVec.toNat_add]
  · intro hr
    rw [Hart.retired_outside _ _ hr]
    exact ⟨rfl, hr, rfl⟩
  · intro hr hc
    rw [Hart.retired_repeat _ _ hr hc]
    exact ⟨rfl, hr, by bv_omega⟩
  · intro hr hc
    rw [Hart.retired_last _ _ hr hc]
    exact ⟨rfl, rfl, rfl⟩
end

section
/-! PROOFS. Registers and ports as operands (R31 to R35, R183, R225, R226, R276, R370). -/
set_option Elab.async false
namespace Sys2Proof.Machine
open Sys2Proof Sys2Proof.Claim

/-! ### Clauses and channels changed -/

@[simp] theorem State.hart_modClause (s : State) (q n : Nat) (f : Clause → Clause) (a : AgentId) :
    (s.modClause q n f).hart a = s.hart a := State.hart_modRegion s q _ a
@[simp] theorem State.cur_modClause (s : State) (q n : Nat) (f : Clause → Clause) :
    (s.modClause q n f).cur = s.cur := State.modRegion_cur s q _
@[simp] theorem State.cell_modClause (s : State) (q n : Nat) (f : Clause → Clause) (p : Nat) :
    (s.modClause q n f).cell p = s.cell p := State.cell_modRegion s q _ p
@[simp] theorem State.cond_modClause (s : State) (q n : Nat) (f : Clause → Clause) (k : Nat) :
    (s.modClause q n f).cond k = s.cond k := State.cond_modRegion s q _ k
@[simp] theorem State.getByte_modClause (s : State) (q n : Nat) (f : Clause → Clause) (y : Place) :
    (s.modClause q n f).getByte y = s.getByte y := State.getByte_modRegion s q _ y

@[simp] theorem State.hart_modChan (s : State) (q n i : Nat) (f : Chan → Chan) (a : AgentId) :
    (s.modChan q n i f).hart a = s.hart a := State.hart_modRegion s q _ a
@[simp] theorem State.cur_modChan (s : State) (q n i : Nat) (f : Chan → Chan) :
    (s.modChan q n i f).cur = s.cur := State.modRegion_cur s q _
@[simp] theorem State.getByte_modChan (s : State) (q n i : Nat) (f : Chan → Chan) (y : Place) :
    (s.modChan q n i f).getByte y = s.getByte y := State.getByte_modRegion s q _ y

/-- A clause changed changes nothing of any region but its clauses. -/
theorem State.region_modClause_but_clauses (s : State) (q n : Nat) (f : Clause → Clause) (g : Nat) :
    ((s.modClause q n f).region g).map (fun r => { r with clauses := [] }) =
      (s.region g).map (fun r => { r with clauses := [] }) := by
  unfold State.modClause
  rw [State.region_modRegion]
  split
  · cases s.region g <;> rfl
  · rfl

/-- The first clause of a number, after a change of the clauses of that number that keeps their numbers. -/
theorem find_num_map (l : List Clause) (n : Nat) (f : Clause → Clause) (hf : ∀ c, (f c).num = c.num) :
    (l.map (fun c => if c.num == n then f c else c)).find? (fun c => c.num == n) =
      (l.find? (fun c => c.num == n)).map f := by
  induction l with
  | nil => rfl
  | cons c l ih =>
    by_cases hc : c.num = n
    · simp [hc, hf]
    · have hb : (c.num == n) = false := by simpa using hc
      simp only [List.map_cons, List.find?_cons, hb, Bool.false_eq_true, if_false, ih]

/-- A clause changed reads as its function of the old one. -/
theorem State.clauseAt_modClause (s : State) (q n : Nat) (f : Clause → Clause) (hf : ∀ c, (f c).num = c.num) :
    (s.modClause q n f).clauseAt q n = (s.clauseAt q n).map f := by
  unfold State.clauseAt State.modClause
  rw [State.region_modRegion, if_pos rfl]
  cases s.region q with
  | none => rfl
  | some r => exact find_num_map r.clauses n f hf

theorem getElem?_modAt {α : Type} (l : List α) (i : Nat) (f : α → α) : (modAt l i f)[i]? = l[i]?.map f := by
  induction l generalizing i with
  | nil => cases i <;> rfl
  | cons x l ih => cases i <;> simp [modAt, ih]

/-- A channel changed reads as its function of the old one. -/
theorem State.getChan_modChan (s : State) (q n i : Nat) (f : Chan → Chan) :
    (s.modChan q n i f).getChan q n i = (s.getChan q n i).map f := by
  have h := State.clauseAt_modClause s q n (fun cl => { cl with chans := modAt cl.chans i f }) (fun _ => rfl)
  unfold State.getChan State.modChan
  rw [h]
  cases s.clauseAt q n with
  | none => rfl
  | some cl => exact getElem?_modAt cl.chans i f

@[simp] theorem State.getChan_modHart (s : State) (a : AgentId) (f : Hart → Hart) (q n i : Nat) :
    (s.modHart a f).getChan q n i = s.getChan q n i := by simp [State.getChan]

/-! ### Registers -/

/-- A register is looked at by its class and number (R276). -/
theorem badReg_eq (h : Hart) (cls n : Nat) :
    badReg h cls n = if cls * 256 + n ∈ h.badRegs then .error (badSource cls n) else .ok () := by
  simp [badReg, badSource, regTrap, dwn]

/-- Outside a replay no operand stands in a slot. -/
theorem Hart.slot_none {h : Hart} (i : Nat) (hc : h.capt = none) : h.slot i = none := by simp [Hart.slot, hc]

section
variable (w : Work) (i : Nat) (hc : w.hart.capt = none)
include hc

theorem readX_reg (r : Fin 24) : readX w i (.reg r) =
    if 0 * 256 + r.val ∈ w.hart.badRegs then .error (badSource 0 r.val)
    else .ok (if r = 0 then 0 else w.hart.x[r], w) := by
  simp only [readX, Hart.slot_none i hc, badReg_eq]
  split <;> rfl

theorem readA_reg (r : Fin 24) : readA w i (.reg r) =
    if 1 * 256 + r.val ∈ w.hart.badRegs then .error (badSource 1 r.val) else .ok (w.hart.a[r], w) := by
  simp only [readA, Hart.slot_none i hc, badReg_eq]
  split <;> rfl

theorem readW_reg (r : Fin 24) : readW w i (.reg r) =
    if 2 * 256 + r.val ∈ w.hart.badRegs then .error (badSource 2 r.val) else .ok (w.hart.w[r], w) := by
  simp only [readW, Hart.slot_none i hc, badReg_eq]
  split <;> rfl

theorem readP_reg (r : Fin 8) : readP w i (.reg r) =
    if 3 * 256 + r.val ∈ w.hart.badRegs then .error (badSource 3 r.val)
    else .ok (decide (r = 0) || w.hart.p[r], w) := by
  simp only [readP, Hart.slot_none i hc, badReg_eq]
  split <;> rfl

theorem readM_reg (r : Fin 8) : readM w i (.reg r) =
    if 4 * 256 + r.val ∈ w.hart.badRegs then .error (badSource 4 r.val) else .ok (w.hart.m[r], w) := by
  simp only [readM, Hart.slot_none i hc, badReg_eq]
  split <;> rfl

theorem readTl_reg (r : Fin 4) : readTl w i (.reg r) =
    if 5 * 256 + r.val ∈ w.hart.badRegs then .error (badSource 5 r.val) else .ok (w.hart.tl[r], w) := by
  simp only [readTl, Hart.slot_none i hc, badReg_eq]
  split <;> rfl

end

/-- A register written: the agent is as `h` says, and nothing else has changed. -/
def Wrote (w w' : Work) (h : Hart) : Prop :=
  SameBytes w.s w'.s ∧ SameOthers w.s w'.s ∧ w'.popped = w.popped ∧ w'.hart = h

theorem Work.wrote_modHart (w : Work) (f : Hart → Hart) : Wrote w (w.modHart f) (f w.hart) := by
  refine ⟨fun p => ?_, fun b hb => State.hart_modHart_other w.s f hb, rfl, ?_⟩
  · simp [Work.modHart]
  · simp [Work.modHart, Work.hart]

@[simp] theorem writeX_zero (w : Work) (v : DWord) : writeX w (.reg 0) v = .ok w := rfl
@[simp] theorem writeP_zero (w : Work) (v : Bool) : writeP w (.reg 0) v = .ok w := rfl

theorem writeX_reg (w : Work) {r : Fin 24} (v : DWord) (hr : r ≠ 0) :
    writeX w (.reg r) v =
      .ok (w.modHart (fun h => { h with badRegs := h.badRegs.filter (· != r.val), x := h.x.set r v })) := by
  simp [writeX, hr, Hart.cured]

theorem writeP_reg (w : Work) {r : Fin 8} (v : Bool) (hr : r ≠ 0) :
    writeP w (.reg r) v = .ok (w.modHart (fun h => { h.cured 3 r.val with p := h.p.set r v })) := by
  simp [writeP, hr]

end Sys2Proof.Machine
open Sys2Proof Sys2Proof.Machine Sys2Proof.Claim

/-- Settles O12: each class reads by its `read_reg` lemma; each write is one change of the agent's registers. -/
theorem registerOperandsReadAndWriteTheirFile : Obligations.RegisterOperandsReadAndWriteTheirFile := by
  refine ⟨fun w i hc => ?_, fun w => ?_⟩
  · refine ⟨fun r => ?_, fun r => ?_, fun r => ?_, fun r => ?_, fun r => ?_, fun r => ?_⟩
    · rw [readX_reg w i hc]; exact ⟨fun h => if_neg h, fun h => if_pos h⟩
    · rw [readA_reg w i hc]; exact ⟨fun h => if_neg h, fun h => if_pos h⟩
    · rw [readW_reg w i hc]; exact ⟨fun h => if_neg h, fun h => if_pos h⟩
    · rw [readP_reg w i hc]; exact ⟨fun h => if_neg h, fun h => if_pos h⟩
    · rw [readM_reg w i hc]; exact ⟨fun h => if_neg h, fun h => if_pos h⟩
    · rw [readTl_reg w i hc]; exact ⟨fun h => if_neg h, fun h => if_pos h⟩
  · refine ⟨writeX_zero w, writeP_zero w, fun r v hr => ?_, fun r v => ?_, fun r v => ?_, fun r v hr => ?_, fun r v => ?_,
      fun r v => ?_⟩
    · exact ⟨_, writeX_reg w v hr, w.wrote_modHart _⟩
    · exact ⟨_, rfl, w.wrote_modHart _⟩
    · exact ⟨_, rfl, w.wrote_modHart _⟩
    · exact ⟨_, writeP_reg w v hr, w.wrote_modHart _⟩
    · exact ⟨_, rfl, w.wrote_modHart _⟩
    · exact ⟨_, rfl, w.wrote_modHart _⟩
end

section
/-! PROOFS. Ports as sources (R34, R35, R194, R226). -/
set_option Elab.async false
namespace Sys2Proof.Machine
open Sys2Proof Sys2Proof.Claim

/-! ### Port words, types and traps -/

theorem Cls.accepts_iff (c : Cls) (t : Nat) : c.accepts t = true ↔ classTakes c t := by
  cases c with
  | x | p => simp only [Cls.accepts, classTakes, decide_eq_true_eq, List.mem_cons, List.not_mem_nil, or_false]; omega
  | a | w | m | tl => simp [Cls.accepts, classTakes]

/-- The trap about a port, with the port word of R35. -/
theorem portTrap_eq (c : Cause) (o : Port) (cls fld : Nat) (q : Fin 8) : portTrap c o cls fld q.val =
    ⟨c, BitVec.ofNat 64 o.next.1, r35Word (if o.used then o.ttype else 15) cls fld o.input q,
      BitVec.ofNat 64 o.next.1, o.next.2⟩ := by
  cases hi : o.input <;> simp [portTrap, portWord, r35Word, Port.typeCode, dwn, b2n, hi]

/-- Of a used input port the trap shows its type and its direction. -/
theorem portTrap_input {c : Cause} {o : Port} {cls fld : Nat} {q : Fin 8} (hu : o.used = true) (hi : o.input = true) :
    portTrap c o cls fld q.val =
      ⟨c, BitVec.ofNat 64 o.next.1, r35Word o.ttype cls fld true q, BitVec.ofNat 64 o.next.1, o.next.2⟩ := by
  rw [portTrap_eq, hu, hi]; rfl

/-! ### The fields of an instruction (row 1 of R194) -/

/-- The test of `Field.check` for a port that the field cannot take. -/
def misfit (h : Hart) (src : List (Fin 8)) (f : Field) (q : Fin 8) : Bool :=
  let o := h.ports[q]
  !o.used || !(if f.dst then !o.input || src.contains q else o.input) || !f.cls.accepts o.ttype ||
    f.a32.any (fun t => t != (o.ttype == 5))

theorem misfit_eq_false_iff (h : Hart) (src : List (Fin 8)) (f : Field) (q : Fin 8) :
    misfit h src f q = false ↔ fits h src f q := by
  have hw : (if f.dst then !(h.ports[q]).input || src.contains q else (h.ports[q]).input) = true ↔
      (if f.dst then (h.ports[q]).input = false ∨ q ∈ src else (h.ports[q]).input = true) := by
    cases f.dst <;> simp
  have ha : f.a32.any (fun t => t != ((h.ports[q]).ttype == 5)) = false ↔
      ∀ t, f.a32 = some t → t = ((h.ports[q]).ttype == 5) := by
    cases f.a32 <;> simp
  simp only [misfit, fits, Bool.or_eq_false_iff, Bool.not_eq_false', hw, ha, Cls.accepts_iff, and_assoc]

theorem Field.check_none {h : Hart} {src : List (Fin 8)} {f : Field} (hp : f.port = none) : f.check h src = .ok () := by
  simp [Field.check, hp]

theorem Field.check_misfit {h : Hart} {src : List (Fin 8)} {f : Field} {q : Fin 8} (hp : f.port = some q)
    (hf : ¬ fits h src f q) :
    f.check h src = .error (.trap (portTrap .porttype h.ports[q] f.cls.num (24 + q.val) q.val)) := by
  have hm : misfit h src f q = true := by simpa using (misfit_eq_false_iff h src f q).not.mpr hf
  simp only [misfit] at hm
  simp only [Field.check, hp]
  rw [if_pos hm]

/-- A marker or a drain token at the head gives MARKER. -/
theorem Port.entryTrap_marker (o : Port) (e : Entry) (cls fld q : Nat)
    (he : (∃ m, e.item = .marker m) ∨ e.item = .drain) : o.entryTrap e cls fld q = portTrap .marker o cls fld q := by
  rcases he with ⟨m, hm⟩ | hm <;> simp [Port.entryTrap, hm]

section
variable {h : Hart} {src : List (Fin 8)} {f : Field} {q : Fin 8}

theorem Field.check_dst (hp : f.port = some q) (hf : fits h src f q) (hd : f.dst = true) : f.check h src = .ok () := by
  have hm := (misfit_eq_false_iff h src f q).mpr hf
  simp only [misfit, hd, if_true] at hm
  simp only [Field.check, hp, hd, hm, Bool.false_eq_true, if_false, if_true]

theorem Field.check_empty (hp : f.port = some q) (hf : fits h src f q) (hd : f.dst = false)
    (hq : (h.ports[q]).queue = []) : f.check h src = .error (.hold (.empty q)) := by
  have hm := (misfit_eq_false_iff h src f q).mpr hf
  simp only [misfit, hd, Bool.false_eq_true, if_false] at hm
  simp only [Field.check, hp, hd, hm, hq, Bool.false_eq_true, if_false]

theorem Field.check_marker (hp : f.port = some q) (hf : fits h src f q) (hd : f.dst = false) {e : Entry} {r : List Entry}
    (hq : (h.ports[q]).queue = e :: r) (he : (∃ m, e.item = .marker m) ∨ e.item = .drain) :
    f.check h src = .error (.trap (portTrap .marker h.ports[q] f.cls.num (24 + q.val) q.val)) := by
  have hm := (misfit_eq_false_iff h src f q).mpr hf
  simp only [misfit, hd, Bool.false_eq_true, if_false] at hm
  have ht := Port.entryTrap_marker h.ports[q] e f.cls.num (24 + q.val) q.val he
  rcases he with ⟨m, he⟩ | he <;> simp only [Field.check, hp, hd, hm, hq, he, ht, Bool.false_eq_true, if_false]

theorem Field.check_token (hp : f.port = some q) (hf : fits h src f q) (hd : f.dst = false) {e : Entry} {r : List Entry}
    (hq : (h.ports[q]).queue = e :: r) (he : ¬ ((∃ m, e.item = .marker m) ∨ e.item = .drain)) : f.check h src = .ok () := by
  have hm := (misfit_eq_false_iff h src f q).mpr hf
  simp only [misfit, hd, Bool.false_eq_true, if_false] at hm
  cases hi : e.item with
  | marker m => exact absurd (.inl ⟨m, hi⟩) he
  | drain => exact absurd (.inr hi) he
  | data | failed | trapped => simp only [Field.check, hp, hd, hm, hq, hi, Bool.false_eq_true, if_false]

end

theorem input_of_fits {h : Hart} {src : List (Fin 8)} {f : Field} {q : Fin 8} (hf : fits h src f q) (hd : f.dst = false) :
    (h.ports[q]).input = true := by
  have hw := hf.2.1
  rwa [hd, if_neg Bool.false_ne_true] at hw

/-- A field that refuses stops the instruction as it says. -/
theorem check_of_refuses {h : Hart} {src : List (Fin 8)} {f : Field} {e : Stop} (hr : Refuses h src f e) :
    f.check h src = .error e := by
  cases hr with
  | porttype q hp hf => rw [Field.check_misfit hp hf, portTrap_eq]
  | empty q hp hf hd hq => exact Field.check_empty hp hf hd hq
  | marker q e r hp hf hd hq he => rw [Field.check_marker hp hf hd hq he, portTrap_input hf.1 (input_of_fits hf hd)]

/-- A field at which an instruction stops refuses. -/
theorem refuses_of_check {h : Hart} {src : List (Fin 8)} {f : Field} {e : Stop} (hc : f.check h src = .error e) :
    Refuses h src f e := by
  cases hp : f.port with
  | none => rw [Field.check_none hp] at hc; cases hc
  | some q =>
    by_cases hf : fits h src f q
    · cases hd : f.dst with
      | true => rw [Field.check_dst hp hf hd] at hc; cases hc
      | false =>
        cases hq : (h.ports[q]).queue with
        | nil => rw [Field.check_empty hp hf hd hq] at hc; cases hc; exact .empty q hp hf hd hq
        | cons y r =>
          by_cases hy : (∃ m, y.item = .marker m) ∨ y.item = .drain
          · rw [Field.check_marker hp hf hd hq hy, portTrap_input hf.1 (input_of_fits hf hd)] at hc
            cases hc
            exact .marker q y r hp hf hd hq hy
          · rw [Field.check_token hp hf hd hq hy] at hc; cases hc
    · rw [Field.check_misfit hp hf, portTrap_eq] at hc
      cases hc
      exact .porttype q hp hf

theorem Field.check_ok {h : Hart} {src : List (Fin 8)} {f : Field} (hr : ∀ e, ¬ Refuses h src f e) :
    f.check h src = .ok () := by
  cases hc : f.check h src with
  | ok u => rfl
  | error e => exact absurd (refuses_of_check hc) (hr e)

theorem checkAll_cons (h : Hart) (src : List (Fin 8)) (f : Field) (l : List Field) :
    checkAll h src (f :: l) = (f.check h src).bind (fun _ => checkAll h src l) := rfl

theorem checkAll_ok {h : Hart} {src : List (Fin 8)} {l : List Field} (hl : ∀ f ∈ l, ∀ e, ¬ Refuses h src f e) :
    checkAll h src l = .ok () := by
  induction l with
  | nil => rfl
  | cons f l ih =>
    rw [checkAll_cons, Field.check_ok (hl f (by simp))]
    exact ih (fun g hg => hl g (by simp [hg]))

/-- The first field that refuses stops the instruction. -/
theorem checkAll_error {h : Hart} {src : List (Fin 8)} {f : Field} {e : Stop} (a b : List Field)
    (ha : ∀ g ∈ a, ∀ e, ¬ Refuses h src g e) (hf : Refuses h src f e) : checkAll h src (a ++ f :: b) = .error e := by
  induction a with
  | nil => rw [List.nil_append, checkAll_cons, check_of_refuses hf]; rfl
  | cons g a ih =>
    rw [List.cons_append, checkAll_cons, Field.check_ok (ha g (by simp))]
    exact ih (fun g' hg => ha g' (by simp [hg]))

theorem fields_eq {s : State} (l : List Field) (hc : (s.hart s.cur).capt = none) :
    fields s l = (checkAll (s.hart s.cur) (sourcePorts l) l).map (fun _ => work s) := by
  simp [fields, hc, sourcePorts]

/-! ### Popping -/

/-- The agent once the head of one of its input ports is taken. -/
def Hart.tookHead (h : Hart) (q : Fin 8) : Hart :=
  { h with ports := h.ports.set q { h.ports[q] with queue := (h.ports[q]).queue.drop 1, seq := (h.ports[q]).popped } }

theorem Hart.ports_tookHead_same (h : Hart) (q : Fin 8) : (h.tookHead q).ports[q] =
    { h.ports[q] with queue := (h.ports[q]).queue.drop 1, seq := (h.ports[q]).popped } := by simp [Hart.tookHead]

theorem Hart.ports_tookHead_other (h : Hart) {q q' : Fin 8} (hq : q' ≠ q) : (h.tookHead q).ports[q'] = h.ports[q'] := by
  have : q.val ≠ q'.val := fun e => hq (Fin.ext e.symm)
  simp [Hart.tookHead, this]

/-- A pop changes the port of the agent, and at most one channel beside it. -/
theorem State.popHead_cases (s : State) (a : AgentId) (q : Fin 8) :
    s.popHead a q = s.modHart a (fun h => h.tookHead q) ∨
      ∃ g n i f, s.popHead a q = (s.modHart a (fun h => h.tookHead q)).modChan g n i f := by
  have h1 : s.modHart a (fun h => { h with ports := h.ports.set q { (s.hart a).ports[q] with
      queue := ((s.hart a).ports[q]).queue.drop 1, seq := ((s.hart a).ports[q]).popped } }) =
      s.modHart a (fun h => h.tookHead q) := rfl
  unfold State.popHead
  simp only [h1]
  split
  · split
    · exact .inr ⟨_, _, _, _, rfl⟩
    · exact .inl rfl
  · exact .inl rfl

theorem onlyPortsRead_modChan {s t : State} (h : OnlyPortsRead s t) (g n i : Nat) (f : Chan → Chan) :
    OnlyPortsRead s (t.modChan g n i f) := by
  obtain ⟨hb, ho, hc, hh, hr⟩ := h
  refine ⟨fun p => by simp [hb p], fun b hb' => by simp [ho b hb'], by simp [hc], by simpa using hh, fun q => ?_⟩
  exact (State.region_modClause_but_clauses t g n _ q).trans (hr q)

theorem onlyPortsRead_tookHead (s : State) (q : Fin 8) :
    OnlyPortsRead s (s.modHart s.cur (fun h => h.tookHead q)) :=
  ⟨fun p => by simp, fun b hb => State.hart_modHart_other s _ hb, by simp, by simp [Hart.tookHead], fun g => by simp⟩

theorem onlyPortsRead_popHead (s : State) (q : Fin 8) : OnlyPortsRead s (s.popHead s.cur q) := by
  rcases s.popHead_cases s.cur q with h | ⟨g, n, i, f, h⟩
  · rw [h]; exact onlyPortsRead_tookHead s q
  · rw [h]; exact onlyPortsRead_modChan (onlyPortsRead_tookHead s q) g n i f

@[simp] theorem State.hart_popHead (s : State) (a : AgentId) (q : Fin 8) :
    (s.popHead a q).hart a = (s.hart a).tookHead q := by
  rcases s.popHead_cases a q with h | ⟨g, n, i, f, h⟩ <;> simp [h]

@[simp] theorem State.cur_popHead (s : State) (a : AgentId) (q : Fin 8) : (s.popHead a q).cur = s.cur := by
  rcases s.popHead_cases a q with h | ⟨g, n, i, f, h⟩ <;> simp [h]

theorem readPort_fresh {w : Work} {q : Fin 8} (cls : Cls) (fld : Nat) (hp : w.popped.find? (fun e => e.1 == q) = none) :
    readPort w cls fld q = ((w.hart.ports[q]).head cls fld q).map
      (fun t => (t, ⟨w.s.popHead w.s.cur q, (q, t) :: w.popped⟩)) := by
  simp only [readPort, hp]
  rfl

/-- A port named again gives the token that it gave. -/
theorem readPort_again {w : Work} {q : Fin 8} {t : Token} {cls : Cls} (fld : Nat)
    (hp : w.popped.find? (fun e => e.1 == q) = some (q, t)) (hc : classTakes cls (w.hart.ports[q]).ttype) :
    readPort w cls fld q = .ok (t, w) := by
  have : cls.accepts (w.hart.ports[q]).ttype = true := (cls.accepts_iff _).mpr hc
  simp only [readPort, hp]
  exact if_pos this

theorem Port.head_misfit {o : Port} {cls : Cls} (fld : Nat) (q : Fin 8)
    (h : o.used = false ∨ o.input = false ∨ ¬ classTakes cls o.ttype) :
    o.head cls fld q = .error (.trap (portTrap .porttype o cls.num fld q.val)) := by
  rw [← cls.accepts_iff] at h
  refine if_pos ?_
  rcases h with h | h | h <;> simp [h]

section
variable {o : Port} {cls : Cls} (fld : Nat) (q : Fin 8) (hu : o.used = true) (hi : o.input = true)
  (hc : classTakes cls o.ttype)
include hu hi hc

theorem Port.head_empty (hq : o.queue = []) : o.head cls fld q = .error (.hold (.empty q)) := by
  have ha : cls.accepts o.ttype = true := (cls.accepts_iff _).mpr hc
  simp [Port.head, hu, hi, ha, hq]

theorem Port.head_marker {e : Entry} {r : List Entry} (hq : o.queue = e :: r)
    (he : (∃ m, e.item = .marker m) ∨ e.item = .drain) :
    o.head cls fld q = .error (.trap (portTrap .marker o cls.num fld q.val)) := by
  have ha : cls.accepts o.ttype = true := (cls.accepts_iff _).mpr hc
  have ht := Port.entryTrap_marker o e cls.num fld q.val he
  rcases he with ⟨m, he⟩ | he <;> simp [Port.head, hu, hi, ha, hq, he, ht]

theorem Port.head_data {e : Entry} {r : List Entry} {t : Token} (hq : o.queue = e :: r) (he : e.item = .data t) :
    o.head cls fld q = .ok t := by
  have ha : cls.accepts o.ttype = true := (cls.accepts_iff _).mpr hc
  simp [Port.head, hu, hi, ha, hq, he]

end

end Sys2Proof.Machine
open Sys2Proof Sys2Proof.Machine Sys2Proof.Claim

/-- Settles O13: the fields stop at the first that refuses; a read of a port is `Port.head`, then `State.popHead`. -/
theorem portSourcePopsTheTokenAtItsHead : Obligations.PortSourcePopsTheTokenAtItsHead := by
  refine ⟨fun s l hc => ⟨fun h => ?_, fun a b f e hl ha hf => ?_⟩, fun w cls q => ?_⟩
  · rw [fields_eq l hc, checkAll_ok h]; rfl
  · have h := checkAll_error a b ha hf
    rw [← hl] at h
    rw [fields_eq l hc, h]; rfl
  · intro o n hp
    refine ⟨fun h => ?_, fun hu hi hc => ⟨fun hq => ?_, fun e r hq he => ?_, fun e r t hq he => ?_⟩, fun i t w' hc => ?_⟩
    · rw [readPort_fresh _ _ hp, Port.head_misfit _ q h, portTrap_eq]; rfl
    · rw [readPort_fresh _ _ hp, Port.head_empty _ q hu hi hc hq]; rfl
    · rw [readPort_fresh _ _ hp, Port.head_marker _ q hu hi hc hq he, portTrap_input hu hi]; rfl
    · have hread : readPort w cls (24 + q.val) q = .ok (t, ⟨w.s.popHead w.s.cur q, (q, t) :: w.popped⟩) := by
        rw [readPort_fresh _ _ hp, Port.head_data _ q hu hi hc hq he]; rfl
      have hports : (Work.mk (w.s.popHead w.s.cur q) ((q, t) :: w.popped)).hart = w.hart.tookHead q := by simp [Work.hart]
      refine ⟨_, hread, rfl, onlyPortsRead_popHead w.s q, ?_, fun q' hq' => ?_, fun cls' hc' => ?_⟩
      · rw [hports, Hart.ports_tookHead_same]; exact congrArg (List.drop 1) hq
      · rw [hports, Hart.ports_tookHead_other _ hq']
      · refine readPort_again _ (by simp) ?_
        rw [hports, Hart.ports_tookHead_same]; exact hc'
    · have hs := Hart.slot_none (h := w.hart) i hc
      refine ⟨fun h => ?_, fun h => ?_, fun h => ?_, fun h => ?_, fun h => ?_, fun h => ?_⟩
      · simp only [readX, hs, h]; rfl
      · simp only [readA, hs, h]; rfl
      · simp only [readW, hs, h]; rfl
      · simp only [readP, hs, h]; rfl
      · simp only [readM, hs, h]; rfl
      · simp only [readTl, hs, h]; rfl
end

section
/-! PROOFS. Ports as destinations (R34, R35, R183, R225, R226, R370). -/
set_option Elab.async false
namespace Sys2Proof.Machine
open Sys2Proof Sys2Proof.Claim

/-! ### What a destination port takes -/

/-- A block whose format is not the port's (R34). -/
def wrongTag (o : Port) (t : Token) : Bool :=
  match t with
  | .block b => b.a32 != (o.ttype == 5)
  | _ => false

theorem Work.mayPush_iff (w : Work) (cls : Cls) (q : Fin 8) : w.mayPush cls q = true ↔
    (w.hart.ports[q]).used = true ∧
      ((w.hart.ports[q]).input = false ∨ w.hart.capt.isSome = true ∨ w.popped.any (fun e => e.1 == q) = true) ∧
      classTakes cls (w.hart.ports[q]).ttype := by
  simp only [Work.mayPush, Bool.and_eq_true, Bool.or_eq_true, Bool.not_eq_true', Cls.accepts_iff, and_assoc, or_assoc]

section
variable {w : Work} {cls : Cls} {q : Fin 8} {t : Token} (f : Nat)

theorem pushPort_refused (h : w.mayPush cls q = false ∨ wrongTag w.hart.ports[q] t = true) :
    pushPort w cls f q t = .error (.trap (portTrap .porttype w.hart.ports[q] cls.num f q.val)) := by
  have hb : (!w.mayPush cls q || wrongTag w.hart.ports[q] t) = true := by
    rcases h with h | h <;> rw [h] <;> simp
  exact if_pos hb

variable {p : Nat} {c : Fin 4} (ha : w.s.cur = .ctx p c) (hm : w.mayPush cls q = true)
  (ht : wrongTag w.hart.ports[q] t = false)
include ha hm ht

/-- A push of a port that may take it, in a stage context. -/
theorem pushPort_eq : pushPort w cls f q t =
    if (w.hart.ports[q]).input then
      .ok ((pushBack w q (tokenFor (w.hart.ports[q]).ttype t).1).flags (tokenFor (w.hart.ports[q]).ttype t).2)
    else if w.full q then .error (.hold (.full q))
    else ((w.hart.ports[q]).pushCheck w.s w.s.cur cls.num f q.val).bind
      (fun _ => pushOut { w with s := (w.hart.ports[q]).pushBind w.s w.s.cur } p c q (tokenFor (w.hart.ports[q]).ttype t)) := by
  have hb : ¬ (!w.mayPush cls q || wrongTag w.hart.ports[q] t) = true := by rw [hm, ht]; decide
  refine (if_neg hb).trans ?_
  simp only [ha]
  rfl

theorem pushPort_input (hi : (w.hart.ports[q]).input = true) : pushPort w cls f q t =
    .ok ((pushBack w q (tokenFor (w.hart.ports[q]).ttype t).1).flags (tokenFor (w.hart.ports[q]).ttype t).2) := by
  rw [pushPort_eq f ha hm ht, if_pos hi]

theorem pushPort_full (hi : (w.hart.ports[q]).input = false) (hf : w.full q = true) :
    pushPort w cls f q t = .error (.hold (.full q)) := by
  rw [pushPort_eq f ha hm ht, if_neg (Bool.eq_false_iff.mp hi), if_pos hf]

theorem pushPort_out (hi : (w.hart.ports[q]).input = false) (hf : w.full q = false) : pushPort w cls f q t =
    ((w.hart.ports[q]).pushCheck w.s w.s.cur cls.num f q.val).bind
      (fun _ => pushOut { w with s := (w.hart.ports[q]).pushBind w.s w.s.cur } p c q (tokenFor (w.hart.ports[q]).ttype t)) := by
  rw [pushPort_eq f ha hm ht, if_neg (Bool.eq_false_iff.mp hi), if_neg (Bool.eq_false_iff.mp hf)]

end

/-! ### Whether there is a place (R225, R226, R370) -/

section
variable {w : Work} {q : Fin 8} (hi : (w.hart.ports[q]).input = false)
include hi

theorem Work.full_replica {g n i : Nat} {x : Replica} {cl : Clause} (hr : w.replica = some (g, n, i, x))
    (hcl : w.s.clauseAt g n = some cl) : w.full q = cl.routeFull i q.val := by
  simp only [Work.full, hi, hr, hcl, Bool.false_eq_true, if_false, Option.map_some, Option.getD_some]

variable (hr : w.replica = none)
include hr

theorem Work.full_chan {p : Nat} {c : Fin 4} {g n i : Nat} {ch : Chan} {h : Hop} (ha : w.s.cur = .ctx p c)
    (hc : (w.hart.ports[q]).chan = true) (hat : w.s.chanAt p c q true = some (g, n, i))
    (hch : w.s.getChan g n i = some ch) (hh : ch.hops.head? = some h) : w.full q = (h.free == 0) := by
  simp only [Work.full, hi, hr, hc, ha, hat, hch, hh, Bool.false_eq_true, if_false, if_true, Option.map_some,
    Option.getD_some, Option.bind_some]

theorem Work.full_noPattern (hc : (w.hart.ports[q]).chan = false) (hp : (w.hart.ports[q]).cur = none) :
    w.full q = true := by
  simp only [Work.full, hi, hr, hc, hp, Bool.false_eq_true, if_false]

theorem Work.full_pattern {pat : Pattern} (hc : (w.hart.ports[q]).chan = false) (hp : (w.hart.ports[q]).cur = some pat) :
    w.full q = decide (pat.total ≤ pat.pos) := by
  simp only [Work.full, hi, hr, hc, hp, Bool.false_eq_true, if_false]

end

/-! ### The checks of a pattern port's next address (R183, R216, R249) -/

section
variable {s : State} {a : AgentId} (site : Site) (hd : (s.hart a).det = false)
include hd

theorem windowCheck_free (n : Nat) : windowCheck s a site n = .ok () := by
  cases site <;> simp [windowCheck, hd]

theorem raceCheck_free (v : DWord) (n : Nat) : raceCheck s a site v n = .ok () := by simp [raceCheck, hd]

theorem bindExtent_free : bindExtent s a site = s := by
  unfold bindExtent
  split
  · rename_i p c e off
    have hd' : (s.cell p).ctx[c].det = false := hd
    simp only [hd', Bool.false_and, Bool.false_eq_true, if_false]
  · rfl

end

section
variable {o : Port} {s : State} {a : AgentId} (cls f q : Nat)

/-- A port that pushes to no address has none to check. -/
theorem Port.pushSite_none (h : o.cur = none ∨ o.chan = true) : o.pushSite s a cls f q = .ok none := by
  rcases h with h | h
  · simp only [Port.pushSite, h]
  · cases hp : o.cur with
    | none => simp only [Port.pushSite, hp]
    | some pat => simp [Port.pushSite, hp, h]

theorem Port.pushCheck_none (h : o.cur = none ∨ o.chan = true) : o.pushCheck s a cls f q = .ok () := by
  unfold Port.pushCheck
  rw [Port.pushSite_none cls f q h]
  rfl

theorem Port.pushBind_none (h : o.cur = none ∨ o.chan = true) : o.pushBind s a = s := by
  unfold Port.pushBind
  rw [Port.pushSite_none 0 0 0 h]

variable {pat : Pattern} {site : Site} (hp : o.cur = some pat) (hc : o.chan = false) (hi : o.input = false)
  (hlt : pat.pos < pat.total)
  (hs : checkAddr s a (pat.addr (pat.entry pat.pos).idx) (tokenSize o.ttype) (tokenAlign o.ttype) true false = .ok site)
include hp hc hi hlt hs

theorem Port.pushSite_some : o.pushSite s a cls f q = .ok (some (pat.addr (pat.entry pat.pos).idx, site)) := by
  have : ¬ pat.total ≤ pat.pos := by omega
  simp [Port.pushSite, hp, hc, hi, this, hs]

variable (hd : (s.hart a).det = false)
include hd

/-- Out of deterministic mode a push holds only for a clause before. -/
theorem Port.pushCheck_free : o.pushCheck s a cls f q =
    if orderHeld s a site then .error (.hold .clauseOrder) else .ok () := by
  unfold Port.pushCheck
  rw [Port.pushSite_some cls f q hp hc hi hlt hs]
  simp only [bind, Except.bind, windowCheck_free site hd, raceCheck_free site hd]
  split <;> rfl

theorem Port.pushBind_free : o.pushBind s a = s := by
  unfold Port.pushBind
  rw [Port.pushSite_some 0 0 0 hp hc hi hlt hs]
  exact bindExtent_free site hd

end

/-! ### What a push leaves -/

@[simp] theorem Work.ports_flags (w : Work) (f : Flags) : (w.flags f).hart.ports = w.hart.ports := by
  simp [Work.flags, Work.hart, State.orFlags]

@[simp] theorem Work.getByte_flags (w : Work) (f : Flags) (y : Place) : (w.flags f).s.getByte y = w.s.getByte y := by
  simp [Work.flags, State.orFlags]

@[simp] theorem Work.clauseAt_flags (w : Work) (f : Flags) (g n : Nat) : (w.flags f).s.clauseAt g n = w.s.clauseAt g n := by
  simp [Work.flags, State.orFlags]

@[simp] theorem Work.getChan_flags (w : Work) (f : Flags) (g n i : Nat) :
    (w.flags f).s.getChan g n i = w.s.getChan g n i := by simp [Work.flags, State.orFlags]

/-- The agent with one port replaced. -/
def Hart.setPort (h : Hart) (q : Fin 8) (o : Port) : Hart := { h with ports := h.ports.set q o }

@[simp] theorem Hart.ports_setPort_same (h : Hart) (q : Fin 8) (o : Port) : (h.setPort q o).ports[q] = o := by
  simp [Hart.setPort]

/-- A push to the port that the instruction popped changes that port, and at most one channel beside it. -/
theorem pushBack_cases (w : Work) (q : Fin 8) (t : Token) :
    pushBack w q t = { w with s := w.s.modHart w.s.cur (fun h => h.setPort q ((w.hart.ports[q]).pushedBack t)) } ∨
      ∃ g n i f, pushBack w q t =
        { w with s := (w.s.modHart w.s.cur (fun h => h.setPort q ((w.hart.ports[q]).pushedBack t))).modChan g n i f } := by
  unfold pushBack
  dsimp only
  split
  · split
    · exact .inr ⟨_, _, _, _, rfl⟩
    · exact .inl rfl
  · exact .inl rfl

theorem Port.pushedBack_queue (o : Port) (t : Token) :
    ∃ e, (o.pushedBack t).queue = o.queue ++ [e] ∧ e.item = .data t := ⟨_, rfl, rfl⟩

theorem pushBack_joins (w : Work) (q : Fin 8) (t : Token) :
    (pushBack w q t).hart.ports[q] = (w.hart.ports[q]).pushedBack t ∧ SameBytes w.s (pushBack w q t).s := by
  rcases pushBack_cases w q t with h | ⟨g, n, i, f, h⟩
  · rw [h]; exact ⟨by simp [Work.hart, Hart.setPort], fun y => by simp⟩
  · rw [h]; exact ⟨by simp [Work.hart, Hart.setPort], fun y => by simp⟩

section
variable {w : Work} {p : Nat} {c : Fin 4} {q : Fin 8} (r : Token × Flags)

/-- The handlers of a clause changed. -/
theorem State.clauseAt_modPlyn (s : State) (g n : Nat) (f : Plyn → Plyn) : (s.modPlyn g n f).clauseAt g n =
    (s.clauseAt g n).map (fun cl => { cl with plyn := cl.plyn.map f }) :=
  State.clauseAt_modClause s g n (fun cl => { cl with plyn := cl.plyn.map f }) (fun _ => rfl)

/-- A handler's message: its clause has it. -/
theorem pushOut_replica {g n i : Nat} {x : Replica} (hr : w.replica = some (g, n, i, x)) :
    ∃ w', pushOut w p c q r = .ok w' ∧ SameBytes w.s w'.s ∧ w'.s.clauseAt g n =
      (w.s.clauseAt g n).map (fun cl => { cl with plyn := cl.plyn.map (fun y => y.send i q.val r.1) }) := by
  simp only [pushOut, hr]
  refine ⟨_, rfl, fun y => ?_, ?_⟩
  · simp [State.modPlyn]
  · rw [Work.clauseAt_flags, State.clauseAt_modPlyn, State.clauseAt_modHart]

variable (hr : w.replica = none)
include hr

/-- A token for a channel: it joins the port's queue, and the channel's first hop has a slot less. -/
theorem pushOut_chan {g n i : Nat} (hc : (w.hart.ports[q]).chan = true) (hat : w.s.chanAt p c q true = some (g, n, i)) :
    ∃ w', pushOut w p c q r = .ok w' ∧ (w'.hart.ports[q]).queue = (w.hart.ports[q]).queue ++
        [⟨.data r.1, (w.hart.ports[q]).seq, chanIdx (w.hart.ports[q]).seq, 0⟩] ∧
      w'.s.getChan g n i = (w.s.getChan g n i).map (fun ch =>
        { ch with pushed := ch.pushed + 1, hops := modAt ch.hops 0 (fun h => { h with free := h.free - 1 }) }) ∧
      SameBytes w.s w'.s := by
  simp only [pushOut, hr, hc, hat, if_true]
  refine ⟨_, rfl, ?_, ?_, fun y => by simp⟩
  · rw [Work.ports_flags]; simp [Work.hart]
  · simp only [Work.getChan_flags]
    rw [State.getChan_modChan, State.getChan_modHart]

/-- A token for a pattern's next address: it waits to be written. -/
theorem pushOut_pattern {pat : Pattern} (hc : (w.hart.ports[q]).chan = false) (hp : (w.hart.ports[q]).cur = some pat) :
    ∃ w' x, pushOut w p c q r = .ok w' ∧ (w'.hart.ports[q]).out = (w.hart.ports[q]).out ++ [x] ∧
      x.addr = pat.addr (pat.entry pat.pos).idx ∧ x.tok = r.1 ∧
      (w'.hart.ports[q]).cur = some { pat with pos := pat.pos + 1 } ∧ SameBytes w.s w'.s := by
  simp only [pushOut, hr, hc, hp, Bool.false_eq_true, if_false]
  refine ⟨_, ⟨pat.addr (pat.entry pat.pos).idx, r.1, (w.s.cell p).ord, []⟩, rfl, ?_, rfl, rfl, ?_, fun y => ?_⟩
  · rw [Work.ports_flags]; simp [Work.hart, State.hart_modCell]
  · rw [Work.ports_flags]; simp [Work.hart, State.hart_modCell]
  · rw [Work.getByte_flags, State.getByte_modCell, State.getByte_modHart]; rfl

end

end Sys2Proof.Machine
open Sys2Proof Sys2Proof.Machine Sys2Proof.Claim

/-- Settles O14: what the port may take, whether it has a place, the checks of its address, and the push itself, each by its
lemma. -/
theorem portDestinationPushesOneToken : Obligations.PortDestinationPushesOneToken := by
  intro w p c cls q t ha o n popped tagBad
  have htag : tagBad = wrongTag o t := by cases t <;> rfl
  have hpush : o.used = true → (o.input = false ∨ w.hart.capt.isSome = true ∨ popped = true) → classTakes cls o.ttype →
      w.mayPush cls q = true := fun hu hi hc => (w.mayPush_iff cls q).mpr ⟨hu, hi, hc⟩
  refine ⟨fun h => ?_, fun hu hi hp hc hb => ?_, fun hu hi hc hb hr => ?_, fun hu hi hc hb hcur => ?_, fun v hv => ?_⟩
  · have hno : w.mayPush cls q = false ∨ wrongTag o t = true := by
      by_cases hm : w.mayPush cls q = true
      · obtain ⟨hu, hi, hc⟩ := (w.mayPush_iff cls q).mp hm
        rcases h with h | ⟨h1, h2, h3⟩ | h | h
        · exact absurd (h.symm.trans hu) Bool.false_ne_true
        · rcases hi with hi | hi | hi
          · exact absurd (hi.symm.trans h1) Bool.false_ne_true
          · rw [h3] at hi; cases hi
          · exact absurd (h2.symm.trans hi) Bool.false_ne_true
        · exact absurd hc h
        · exact .inr (htag ▸ h)
      · exact .inl (by simpa using hm)
    rw [pushPort_refused _ hno, portTrap_eq]
  · obtain ⟨hq, hbytes⟩ := pushBack_joins w q (tokenFor o.ttype t).1
    obtain ⟨e, he, hitem⟩ := o.pushedBack_queue (tokenFor o.ttype t).1
    refine ⟨_, e, pushPort_input _ ha (hpush hu (.inr (.inr hp)) hc) (htag ▸ hb) hi, ?_, hitem,
      fun y => (Work.getByte_flags _ _ y).trans (hbytes y)⟩
    rw [Work.ports_flags, hq, ← he]
  · have hm := hpush hu (.inl hi) hc
    refine ⟨fun hch g m i ch h hat hget hh => ?_, fun hch hp => ?_, fun hch pat hp => ⟨fun hle => ?_, fun hlt site hs hd => ?_⟩⟩
    · have hfull := Work.full_chan hi hr ha hch hat hget hh
      refine ⟨fun h0 => pushPort_full _ ha hm (htag ▸ hb) hi (by simp [hfull, h0]), fun h0 => ?_⟩
      obtain ⟨w', hw, hq, hc', hbytes⟩ := pushOut_chan (tokenFor o.ttype t) hr hch hat
      refine ⟨w', _, ?_, hq, hc'.trans (congrArg _ hget), rfl, ?_, hbytes⟩
      · rw [pushPort_out _ ha hm (htag ▸ hb) hi (by rw [hfull]; simp; omega), Port.pushCheck_none _ _ _ (.inr hch),
          Port.pushBind_none (.inr hch)]
        exact hw
      · obtain ⟨l, hl⟩ : ∃ l, ch.hops = h :: l := by
          cases hx : ch.hops with
          | nil => simp [hx] at hh
          | cons h' l => simp [hx] at hh; exact ⟨l, by rw [hh]⟩
        simp [hl, modAt]
    · exact pushPort_full _ ha hm (htag ▸ hb) hi (Work.full_noPattern hi hr hch hp)
    · exact pushPort_full _ ha hm (htag ▸ hb) hi (by rw [Work.full_pattern hi hr hch hp]; simpa using hle)
    · intro early
      have hearly : orderHeld w.s w.s.cur site = early := by rw [ha]; cases site <;> rfl
      have hout := pushPort_out (24 + q.val) ha hm (htag ▸ hb) hi
        (by rw [Work.full_pattern hi hr hch hp]; simpa using hlt)
      rw [Port.pushCheck_free _ _ _ hp hch hi hlt hs hd, Port.pushBind_free hp hch hi hlt hs hd, hearly] at hout
      refine ⟨fun he => by rw [hout, he]; rfl, fun he => ?_⟩
      obtain ⟨w', x, hw, hrest⟩ := pushOut_pattern (p := p) (c := c) (tokenFor o.ttype t) hr hch hp
      exact ⟨w', x, by rw [hout, he]; exact hw, hrest⟩
  · intro g m i x cl y hr hcl hy
    have hm := hpush hu (.inl hi) hc
    have hfull := Work.full_replica hi hr hcl
    refine ⟨fun hf => pushPort_full _ ha hm (htag ▸ hb) hi (hfull.trans hf), fun hf => ?_⟩
    obtain ⟨w', hw, hbytes, hcl'⟩ := pushOut_replica (p := p) (c := c) (q := q) (tokenFor o.ttype t) hr
    refine ⟨w', ?_, hbytes, ?_⟩
    · rw [pushPort_out _ ha hm (htag ▸ hb) hi (hfull.trans hf), Port.pushCheck_none _ _ _ (.inl hcur),
        Port.pushBind_none (.inl hcur)]
      exact hw
    · rw [hcl', hcl, Option.map_some, hy]; rfl
  · have hsize : tokenSize o.ttype = 2 ^ o.ttype := by
      obtain h | h | h | h : o.ttype = 0 ∨ o.ttype = 1 ∨ o.ttype = 2 ∨ o.ttype = 3 := by omega
      all_goals rw [h]; rfl
    simp [tokenFor, hsize, dwn]
end

section
/-! PROOFS. Traps (R39, R45 to R47, R274): the bytes of a frame, the accesses it settles, the registers a trap leaves. -/
set_option Elab.async false
namespace Sys2Proof.Machine
open Sys2Proof Sys2Proof.Claim

/-! ### A cleared range of memory, written

A frame is written where every listed byte has been cut away, so these need no canonical form. -/

/-- No byte is listed at an address. -/
def Memory.free (m : Memory) (a : Nat) : Prop := ∀ c ∈ m, c.1 ≠ a

theorem Memory.get_of_free {m : Memory} {a : Nat} (h : m.free a) : m.get a = 0 := by
  induction m with
  | nil => rfl
  | cons c m ih =>
    obtain ⟨a', v⟩ := c
    have ha : a ≠ a' := fun e => h (a', v) (by simp) e.symm
    simp only [Memory.get, ha, if_false]
    exact ih (fun c hc => h c (by simp [hc]))

/-- What a write lists beside what was listed: its own address. -/
theorem Memory.mem_set {m : Memory} {b : Nat} {v : Byte} {c : Host.Cell} (h : c ∈ m.set b v) : c ∈ m ∨ c.1 = b := by
  induction m with
  | nil =>
    simp only [Memory.set] at h
    split at h
    · cases h
    · simp only [List.mem_singleton] at h; exact .inr (by rw [h])
  | cons d m ih =>
    obtain ⟨a', v'⟩ := d
    simp only [Memory.set] at h
    split at h
    · split at h
      · exact .inl h
      · rcases List.mem_cons.mp h with h | h
        · exact .inr (by rw [h])
        · exact .inl h
    · split at h
      · split at h
        · exact .inl (List.mem_cons_of_mem _ h)
        · rcases List.mem_cons.mp h with h | h
          · exact .inr (by rw [h])
          · exact .inl (List.mem_cons_of_mem _ h)
      · rcases List.mem_cons.mp h with h | h
        · exact .inl (by simp [h])
        · rcases ih h with h | h
          · exact .inl (List.mem_cons_of_mem _ h)
          · exact .inr h

theorem Memory.free_set {m : Memory} {a b : Nat} (v : Byte) (h : m.free a) (hab : a ≠ b) : (m.set b v).free a := by
  intro c hc
  rcases Memory.mem_set hc with hc | hc
  · exact h c hc
  · exact fun e => hab (e.symm.trans hc)

/-- A byte written where none was listed is read back. -/
theorem Memory.get_set_free {m : Memory} {a : Nat} (v : Byte) (h : m.free a) : (m.set a v).get a = v := by
  induction m with
  | nil => simp only [Memory.set]; split <;> simp_all [Memory.get]
  | cons c m ih =>
    obtain ⟨a', v'⟩ := c
    have ha : a ≠ a' := fun e => h (a', v') (by simp) e.symm
    have hm : Memory.free m a := fun c hc => h c (by simp [hc])
    simp only [Memory.set, ha, if_false]
    split
    · split
      · rename_i hv; rw [hv]; exact Memory.get_of_free h
      · simp [Memory.get]
    · simp only [Memory.get, ha, if_false]; exact ih hm

/-- Bytes written over a range in which none was listed are read back. -/
theorem Memory.get_write_free {m : Memory} {a : Nat} {bs : List Byte} (h : ∀ i, i < bs.length → m.free (a + i)) (i : Nat)
    (hi : i < bs.length) : (m.write a bs).get (a + i) = bs[i] := by
  induction bs generalizing m a i with
  | nil => simp at hi
  | cons b bs ih =>
    cases i with
    | zero =>
      simp only [Memory.write, Nat.add_zero, List.getElem_cons_zero]
      rw [Memory.get_write_other _ _ _ _ (by omega)]
      exact Memory.get_set_free b (h 0 (by simp))
    | succ i =>
      have hrest : ∀ j, j < bs.length → (m.set a b).free (a + 1 + j) := fun j hj => by
        have := h (j + 1) (by simpa using hj)
        exact Memory.free_set b (by rwa [Nat.add_assoc, Nat.add_comm 1 j]) (by omega)
      have := ih hrest i (by simpa using hi)
      simp only [Memory.write, List.getElem_cons_succ]
      rw [← this, Nat.add_assoc, Nat.add_comm 1 i]

theorem Memory.free_cut (m : Memory) {lo n a : Nat} (h : lo ≤ a ∧ a < lo + n) : (m.cut lo n).free a := by
  intro c hc
  simp only [Memory.cut, List.mem_filter, Bool.or_eq_true, decide_eq_true_eq] at hc
  omega

theorem Memory.get_cut_other (m : Memory) {lo n b : Nat} (h : b < lo ∨ lo + n ≤ b) : (m.cut lo n).get b = m.get b := by
  induction m with
  | nil => rfl
  | cons c m ih =>
    obtain ⟨a, v⟩ := c
    simp only [Memory.cut] at ih
    by_cases hb : b = a
    · subst hb
      have : (decide (b < lo) || decide (lo + n ≤ b)) = true := by simpa using h
      simp [Memory.cut, Memory.get, this]
    · simp only [Memory.cut, List.filter_cons]
      split
      · simp only [Memory.get, hb, if_false, ih]
      · simp only [Memory.get, hb, if_false, ih]

/-- A range cleared and then written from its start: its bytes, then zeros. -/
theorem Memory.get_rewrite (m : Memory) {lo n i : Nat} {bs : List Byte} (hl : bs.length ≤ n) (hi : i < n) :
    ((m.cut lo n).write lo bs).get (lo + i) = bs.getD i 0 := by
  by_cases hb : i < bs.length
  · rw [Memory.get_write_free (fun j hj => Memory.free_cut m (by omega)) i hb]
    simp [List.getD, hb]
  · rw [Memory.get_write_other _ _ _ _ (by omega), Memory.get_of_free (Memory.free_cut m (by omega))]
    simp [List.getD, List.getElem?_eq_none (Nat.le_of_not_lt hb)]

theorem Memory.get_rewrite_other (m : Memory) {lo n b : Nat} {bs : List Byte} (hl : bs.length ≤ n)
    (hb : b < lo ∨ lo + n ≤ b) : ((m.cut lo n).write lo bs).get b = m.get b := by
  rw [Memory.get_write_other _ _ _ _ (by omega), Memory.get_cut_other m hb]

/-! ### The bytes of a frame (R47) -/

@[simp] theorem length_leBytes (n v : Nat) : (leBytes n v).length = n := by
  induction n generalizing v with
  | zero => rfl
  | succ n ih => simp [leBytes, ih]

theorem cutTo_eq (bs : List Byte) (n : Nat) : cutTo bs n = bs.take n ++ List.replicate (n - bs.length) 0 := by
  apply List.ext_getElem
  · simp [cutTo]; omega
  · intro i h1 h2
    simp only [cutTo, List.getElem_map, List.getElem_range, List.getElem_append, List.getElem_take,
      List.getElem_replicate, List.length_take]
    simp only [cutTo, List.length_map, List.length_range] at h1
    by_cases hb : i < bs.length
    · simp [List.getD, hb, h1]
    · simp [List.getD, hb]

theorem fit_eq_cutTo (n : Nat) (bs : List Byte) : fit n bs = cutTo bs n := by
  rw [cutTo_eq]
  simp only [fit, padTo, List.length_take]
  congr 2
  omega

@[simp] theorem length_fit (n : Nat) (bs : List Byte) : (fit n bs).length = n := by
  rw [fit_eq_cutTo]; simp [cutTo]

theorem Flight.bytes_eq (f : Flight) : f.bytes = r47Entry f := by
  simp only [Flight.bytes, r47Entry, fit_eq_cutTo]
  congr 3
  funext x; exact fit_eq_cutTo 96 x

@[simp] theorem Flight.length_bytes (f : Flight) : f.bytes.length = 320 := by simp [Flight.bytes]

theorem length_flatMap_bytes (l : List Flight) : (l.flatMap Flight.bytes).length = 320 * l.length := by
  induction l with
  | nil => rfl
  | cons f l ih => simp [ih]; omega

theorem length_nest (nest : List DWord) : (nest.map (fun v => leBytes 8 v.toNat)).flatten.length = 8 * nest.length := by
  induction nest with
  | nil => rfl
  | cons v l ih => simp at ih ⊢; omega

theorem length_frameHeader (n repc : Nat) (seq : DWord) (idx : Idx) (nest : List DWord) :
    (frameHeader n repc seq idx nest).length = 32 + 8 * nest.length := by
  simp only [frameHeader, List.length_append, length_leBytes, length_nest]

theorem Hart.length_frame_le (h : Hart) (seq : DWord) (idx : Idx) (nest : List DWord) : (h.frame seq idx nest).length ≤ 2048 := by
  simp only [Hart.frame, List.length_append, length_fit, length_flatMap_bytes, List.length_take]
  omega

/-- A frame with zeros behind it is what R47 lays out. -/
theorem Hart.frame_eq (h : Hart) (seq : DWord) (idx : Idx) (nest : List DWord) (hn : nest.length ≤ 4) :
    cutTo (h.frame seq idx nest) 2048 = r47Frame h.flight h.repc.toNat seq idx nest := by
  have hhdr : fit 64 (frameHeader (h.flight.take 6).length h.repc.toNat seq idx nest) =
      frameHeader (h.flight.take 6).length h.repc.toNat seq idx nest ++ List.replicate (32 - 8 * nest.length) 0 := by
    rw [fit_eq_cutTo, cutTo_eq, length_frameHeader, List.take_of_length_le (by rw [length_frameHeader]; omega)]
    congr 2
    omega
  have hes : (h.flight.take 6).flatMap Flight.bytes = (h.flight.take 6).flatMap r47Entry := by
    congr 1; funext f; exact f.bytes_eq
  have hlen : 2048 - (h.frame seq idx nest).length = 1984 - 320 * (h.flight.take 6).length := by
    simp only [Hart.frame, List.length_append, length_fit, length_flatMap_bytes]; omega
  rw [cutTo_eq, List.take_of_length_le (h.length_frame_le seq idx nest), hlen]
  simp only [Hart.frame]
  rw [hhdr, hes]
  simp only [frameHeader, r47Frame, List.append_assoc]
  rfl

/-! ### Accesses performed leave registers, operations and commands -/

/-- Two states agree on every agent's registers, every cell's operations and every conductor's commands. -/
structure AsBefore (s t : State) : Prop where
  hart : ∀ b, t.hart b = s.hart b
  ops : ∀ p, (t.cell p).ops = (s.cell p).ops
  cmds : ∀ k, (t.cond k).cmds = (s.cond k).cmds

theorem AsBefore.refl (s : State) : AsBefore s s := ⟨fun _ => rfl, fun _ => rfl, fun _ => rfl⟩

theorem AsBefore.trans {s t u : State} (h : AsBefore s t) (k : AsBefore t u) : AsBefore s u :=
  ⟨fun b => (k.hart b).trans (h.hart b), fun p => (k.ops p).trans (h.ops p), fun j => (k.cmds j).trans (h.cmds j)⟩

/-- A state that differs in neither cells nor conductors. -/
theorem AsBefore.of_cells {s t : State} (hc : t.cells = s.cells) (hk : t.conds = s.conds) : AsBefore s t := by
  refine ⟨fun b => ?_, fun p => ?_, fun k => ?_⟩
  · cases b <;> simp [State.hart, State.cell, State.cond, hc, hk]
  · simp [State.cell, hc]
  · simp [State.cond, hk]

theorem AsBefore.modCell (s : State) (p : Nat) (f : Cell → Cell) (hc : (f (s.cell p)).ctx = (s.cell p).ctx)
    (ho : (f (s.cell p)).ops = (s.cell p).ops) : AsBefore s (s.modCell p f) := by
  refine ⟨State.hart_modCell s p f hc, fun g => ?_, fun _ => rfl⟩
  by_cases hg : g = p
  · subst hg; simp [ho]
  · rw [State.cell_modCell_other s f hg]

theorem AsBefore.modRegion (s : State) (q : Nat) (f : Region → Region) : AsBefore s (s.modRegion q f) :=
  ⟨fun b => by simp, fun p => by simp, fun k => by simp⟩

theorem AsBefore.putByte (s : State) (b : Byte) (p : Place) : AsBefore s (s.putByte b p) := by
  cases p with
  | store c o => exact AsBefore.modCell s c (fun x => _) rfl rfl
  | _ => exact .of_cells rfl rfl

theorem AsBefore.putBytes (s : State) (l : List (Place × Byte)) : AsBefore s (s.putBytes l) := by
  induction l generalizing s with
  | nil => exact .refl s
  | cons e l ih => exact (AsBefore.putByte s e.2 e.1).trans (ih _)

theorem AsBefore.setFull (s : State) (on : Bool) (p : Place) : AsBefore s (s.setFull on p) := by
  cases p with
  | store c o => exact AsBefore.modCell s c (fun x => _) rfl rfl
  | _ => exact .of_cells rfl rfl

theorem AsBefore.fill (s : State) (p : Place) : AsBefore s (s.fill p) :=
  (AsBefore.setFull s _ p).trans (.of_cells rfl rfl)

theorem AsBefore.putFe (s : State) (l : List (Place × Bool)) : AsBefore s (s.putFe l) := by
  induction l generalizing s with
  | nil => exact .refl s
  | cons e l ih =>
    obtain ⟨p, on⟩ := e
    simp only [State.putFe]
    cases on with
    | true => exact (AsBefore.fill s p).trans (ih _)
    | false => exact (AsBefore.setFull s false p).trans (ih _)

/-- The counts and the report of an uncorrectable word. -/
theorem AsBefore.noteUe (s : State) (p : Place) : AsBefore s (s.noteUe p) := by
  unfold State.noteUe
  split
  · exact .refl s
  · rename_i d _
    have count : ∀ t : State, AsBefore s t → AsBefore s (if t.ueSeen.contains p.code then t else
        { t.modErr d (fun e => { e with uncorr := sat32 (e.uncorr + 1) }) with
          ueSeen := p.code :: t.ueSeen, lastUe := p.lastUe d }) := fun t ht => by
      split
      · exact ht
      · exact ht.trans (.of_cells rfl rfl)
    apply count
    split
    · rename_i c o _
      have words : ∀ l, AsBefore s (s.modCell c (fun x => { x with badWords := l })) := fun l => .modCell s c _ rfl rfl
      dsimp only
      generalize (if ((s.cell c).badWords.contains o || (s.cell c).bound.isNone) = true then _ else _) = l
      split
      · exact (words l).trans (.of_cells rfl rfl)
      · exact words l
    · exact .refl s

theorem AsBefore.applyPend (s : State) (w : PendWhat) : AsBefore s (s.applyPend w) := by
  cases w with
  | store bs fe => exact (AsBefore.putBytes s bs).trans (.putFe _ fe)
  | amon fn ps v =>
    simp only [State.applyPend]
    split
    · exact .noteUe s _
    · exact .putBytes s _

theorem AsBefore.doomAgent (s : State) (a : AgentId) : AsBefore s (s.doomAgent a) := by
  unfold State.doomAgent
  split
  · exact .modRegion _ _ _
  · exact .refl _

/-- A state differs from another in nothing of its agents but the accesses that one of them has outstanding. -/
structure OnlyPend (a : AgentId) (s t : State) : Prop where
  self : t.hart a = { s.hart a with pend := (t.hart a).pend }
  others : ∀ b, b ≠ a → t.hart b = s.hart b
  ops : ∀ p, (t.cell p).ops = (s.cell p).ops
  cmds : ∀ k, (t.cond k).cmds = (s.cond k).cmds

theorem AsBefore.onlyPend {s t : State} (a : AgentId) (h : AsBefore s t) : OnlyPend a s t :=
  ⟨by rw [h.hart], fun b _ => h.hart b, h.ops, h.cmds⟩

theorem OnlyPend.trans {a : AgentId} {s t u : State} (h : OnlyPend a s t) (k : OnlyPend a t u) : OnlyPend a s u :=
  ⟨by rw [k.self, h.self], fun b hb => (k.others b hb).trans (h.others b hb), fun p => (k.ops p).trans (h.ops p),
    fun j => (k.cmds j).trans (h.cmds j)⟩

theorem OnlyPend.modHart (s : State) (a : AgentId) (f : List Pend → List Pend) :
    OnlyPend a s (s.modHart a (fun h => { h with pend := f h.pend })) :=
  ⟨by simp, fun b hb => State.hart_modHart_other s _ hb, fun p => by rw [State.cell_modHart],
    fun k => by rw [State.cond_modHart]⟩

theorem OnlyPend.refuse (s : State) (a : AgentId) (i : Nat) : OnlyPend a s (s.refuse a i) := by
  exact (OnlyPend.modHart s a (fun l => delAt l i)).trans ((AsBefore.doomAgent _ a).onlyPend a)

theorem OnlyPend.perform (s : State) (a : AgentId) (i lvl : Nat) : OnlyPend a s (s.perform a i lvl) := by
  unfold State.perform
  split
  · exact (AsBefore.refl s).onlyPend a
  · rename_i x _
    have hx : AsBefore s (if x.level = 0 then s.applyPend x.what else s) := by
      split
      · exact .applyPend s _
      · exact .refl s
    exact (hx.onlyPend a).trans (OnlyPend.modHart _ a (fun l =>
      if 4 ≤ lvl then delAt l i else modAt l i (fun y => { y with level := max y.level lvl })))

theorem OnlyPend.performOr (s : State) (a : AgentId) (i lvl : Nat) : OnlyPend a s (s.performOr a i lvl) := by
  unfold State.performOr
  split
  · exact (AsBefore.refl s).onlyPend a
  · split
    · exact .refuse s a i
    · exact .perform s a i lvl

theorem OnlyPend.settleFrom (s : State) (a : AgentId) (ps : List Place) (i n : Nat) : OnlyPend a s (s.settleFrom a ps i n) := by
  induction n generalizing s i with
  | zero => exact (AsBefore.refl s).onlyPend a
  | succ n ih =>
    simp only [State.settleFrom]
    split
    · split
      · exact (OnlyPend.performOr s a i 2).trans (ih _ _)
      · exact ih _ _
    · exact (AsBefore.refl s).onlyPend a

theorem OnlyPend.settle (s : State) (a : AgentId) (ps : List Place) : OnlyPend a s (s.settle a ps) := .settleFrom s a ps _ _

/-- Where none of the agent's unperformed accesses touches the places there is nothing to perform. -/
theorem State.settleFrom_apart {s : State} {a : AgentId} {ps : List Place}
    (h : ∀ x ∈ (s.hart a).pend, x.level = 0 → x.what.touches ps = false) (i n : Nat) : s.settleFrom a ps i n = s := by
  induction n generalizing i with
  | zero => rfl
  | succ n ih =>
    simp only [State.settleFrom]
    split
    · rename_i x hx
      have hn : (x.level = 0 && x.what.touches ps) = false := by
        by_cases hl : x.level = 0
        · simp [h x (List.mem_of_getElem? hx) hl]
        · simp [hl]
      rw [hn]
      exact ih _
    · rfl

theorem State.settle_apart {s : State} {a : AgentId} {lo : Nat} (h : Claim.apart (s.hart a) lo) :
    s.settle a ((List.range 2048).map (fun i => Place.bulk (lo + i))) = s := by
  apply State.settleFrom_apart
  intro x hx hl
  rw [PendWhat.touches, List.any_eq_false]
  intro p hp hc
  simp only [List.contains_eq_mem, List.mem_map, List.mem_range, decide_eq_true_eq] at hc
  obtain ⟨i, hi, rfl⟩ := hc
  exact h x hx hl i hi hp

/-! ### A frame written (R46, R47) -/

/-- A frame of a stage context in its cell's store: bytes `lo` up to 2,048 get a string and zeros behind it. -/
def State.framed (s : State) (p lo : Nat) (bs : List Byte) : State :=
  s.modCell p (fun c => { c with store := (c.store.cut lo 2048).write lo bs })

/-- A frame in bulk. -/
def State.bulkFramed (s : State) (lo : Nat) (bs : List Byte) : State := { s with bulk := (s.bulk.cut lo 2048).write lo bs }

theorem AsBefore.framed (s : State) (p lo : Nat) (bs : List Byte) : AsBefore s (s.framed p lo bs) := .modCell s p _ rfl rfl

theorem AsBefore.bulkFramed (s : State) (lo : Nat) (bs : List Byte) : AsBefore s (s.bulkFramed lo bs) := .of_cells rfl rfl

theorem State.bytesAt_framed (s : State) (p lo : Nat) {bs : List Byte} (hl : bs.length ≤ 2048) :
    bytesAt (s.framed p lo bs) (fun i => .store p (lo + i)) 2048 = cutTo bs 2048 := by
  simp only [bytesAt, cutTo]
  apply List.map_congr_left
  intro i hi
  simp only [State.getByte, State.framed, State.cell_modCell_same]
  exact Memory.get_rewrite _ hl (List.mem_range.mp hi)

theorem State.bytesAt_bulkFramed (s : State) (lo : Nat) {bs : List Byte} (hl : bs.length ≤ 2048) :
    bytesAt (s.bulkFramed lo bs) (fun i => .bulk (lo + i)) 2048 = cutTo bs 2048 := by
  simp only [bytesAt, cutTo]
  apply List.map_congr_left
  intro i hi
  exact Memory.get_rewrite s.bulk hl (List.mem_range.mp hi)

/-- An address that is none of the `n` from `lo` lies before or behind them. -/
theorem outside_of_ne {lo n b : Nat} (h : ∀ i, i < n → b ≠ lo + i) : b < lo ∨ lo + n ≤ b := by
  by_contra hc
  exact h (b - lo) (by omega) (by omega)

theorem State.getByte_framed_other (s : State) (p lo : Nat) {bs : List Byte} (hl : bs.length ≤ 2048) {x : Place}
    (hx : ∀ i, i < 2048 → x ≠ .store p (lo + i)) : (s.framed p lo bs).getByte x = s.getByte x := by
  cases x with
  | store g o =>
    by_cases hg : g = p
    · subst hg
      simp only [State.getByte, State.framed, State.cell_modCell_same]
      exact Memory.get_rewrite_other _ hl (outside_of_ne fun i hi he => hx i hi (by rw [he]))
    · simp only [State.getByte, State.framed, State.cell_modCell_other s _ hg]
  | _ => rfl

theorem State.getByte_bulkFramed_other (s : State) (lo : Nat) {bs : List Byte} (hl : bs.length ≤ 2048) {x : Place}
    (hx : ∀ i, i < 2048 → x ≠ .bulk (lo + i)) : (s.bulkFramed lo bs).getByte x = s.getByte x := by
  cases x with
  | bulk o => exact Memory.get_rewrite_other _ hl (outside_of_ne fun i hi he => hx i hi (by rw [he]))
  | _ => rfl

/-- The frame area of R45 is bits [18:11] of TFRAME, in units of 2 KiB. -/
theorem frameAt_eq (h : Hart) : fld h.tframe.toNat 18 11 * 2048 = frameAt h := rfl

theorem State.writeFrame_ctx (s : State) (p : Nat) (c : Fin 4) (off : Nat) (bs : List Byte) :
    s.writeFrame (.ctx p c) off bs = s.framed p (frameAt (s.hart (.ctx p c)) + off) bs := rfl

/-- Where the page of a conductor's frame is mapped. -/
theorem State.writeFrame_cond {s : State} {k lo off : Nat} {e : Extent} (bs : List Byte)
    (he : s.extentNo (.cond k) (fld (s.hart (.cond k)).tframe.toNat 47 40) = some e)
    (ht : s.translate (s.holder (.cond k)) e (fld (s.hart (.cond k)).tframe.toNat 39 12 * 4096 + off) true =
      (s, some (.bulk lo))) :
    s.writeFrame (.cond k) off bs =
      (s.settle (.cond k) ((List.range 2048).map (fun i => Place.bulk (lo + i)))).bulkFramed lo bs := by
  simp only [State.writeFrame, he, ht]
  rfl

/-! ### A trap at level 0 -/

theorem statusWord_eq (a : AgentId) (h : Hart) : statusWord a h = BitVec.ofNat 64 (r39Status h a.ctxNum a.isCond) := by
  simp only [statusWord, r39Status, dwn]
  congr 1
  cases h.level <;> cases h.rep <;> cases h.rdh <;> cases h.armed <;> cases a.isCond <;> simp [b2n] <;> omega

theorem passStep_eq (h : Hart) (c : Bool) : (if c then h.pass else h.pass + passStep h.wgt) = issuedPass h c := rfl

/-- At trap level 0: the frame, then the registers of R46. -/
theorem State.takeTrap_first {s : State} {a : AgentId} (t : TrapInfo) (hl : (s.hart a).level = false) :
    s.takeTrap a t =
      (s.writeFrame a 0 ((s.hart a).frame t.seq t.idx [])).modHart a (fun h => trapped h t a.ctxNum a.isCond) := by
  simp only [State.takeTrap, hl, Bool.false_eq_true, if_false]
  congr 1
  funext h
  simp only [statusWord_eq, passStep_eq]
  rfl

/-- A trap at trap level 1: the second frame, then the agent stops; a stage context's conductor is told. -/
theorem State.nestedTrap_cond (s : State) (k : Nat) (t : TrapInfo) :
    s.nestedTrap (.cond k) t =
      (s.writeFrame (.cond k) 2048 ((s.hart (.cond k)).frame t.seq t.idx
        [(s.hart (.cond k)).trapPc t, dwn t.cause.code, t.i0, t.i1])).modHart (.cond k) (fun h => nested h true) := rfl

/-- The record of a nested trap (R267). -/
def State.nestedRecord (s : State) (p : Nat) (c : Fin 4) (t : TrapInfo) : Record :=
  let a := AgentId.ctx p c
  { cause := .nested, src := 7, code := 0, stage := true, ctx := c.val, role := s.roleOf a, port := none,
    addr := roleForm (s.roleOf a) (frameAt (s.hart a)), xaddr := 0, pc := (s.hart a).trapPc t, seq := 0,
    idx := Idx.zero, clause := s.recClause a, nestCell := some p }

/-- The clause of a cell has a context that a nested trap has stopped. -/
def State.markNested (s : State) (p : Nat) (t : State) : State :=
  match (s.cell p).bound with
  | some (q, n, _) => t.modClause q n (fun cl => { cl with nested := true })
  | none => t

theorem State.nestedTrap_ctx (s : State) (p : Nat) (c : Fin 4) (t : TrapInfo) :
    s.nestedTrap (.ctx p c) t =
      (s.markNested p
        (((s.framed p (frameAt (s.hart (.ctx p c)) + 2048) ((s.hart (.ctx p c)).frame t.seq t.idx
          [(s.hart (.ctx p c)).trapPc t, dwn t.cause.code, t.i0, t.i1])).modHart (.ctx p c) (fun h => nested h false)).modCell p
            (fun x => { x with nestHold := x.nestHold + 1 }))).sendRecord (p / 17) (s.nestedRecord p c t) := rfl

@[simp] theorem State.hart_markNested (s t : State) (p : Nat) (a : AgentId) : (s.markNested p t).hart a = t.hart a := by
  unfold State.markNested; split
  · exact State.hart_modClause _ _ _ _ a
  · rfl

@[simp] theorem State.cell_markNested (s t : State) (p g : Nat) : (s.markNested p t).cell g = t.cell g := by
  unfold State.markNested; split
  · exact State.cell_modClause _ _ _ _ g
  · rfl

@[simp] theorem State.cond_markNested (s t : State) (p k : Nat) : (s.markNested p t).cond k = t.cond k := by
  unfold State.markNested; split
  · exact State.cond_modClause _ _ _ _ k
  · rfl

@[simp] theorem State.getByte_markNested (s t : State) (p : Nat) (y : Place) : (s.markNested p t).getByte y = t.getByte y := by
  unfold State.markNested; split
  · exact State.getByte_modClause _ _ _ _ y
  · rfl

@[simp] theorem State.hart_sendRecord (s : State) (k : Nat) (r : Record) (a : AgentId) : (s.sendRecord k r).hart a = s.hart a := by
  unfold State.sendRecord; split
  · exact State.hart_modCond s k _ rfl a
  · split
    · exact State.hart_modRegion s _ _ a
    · rfl

@[simp] theorem State.cell_sendRecord (s : State) (k : Nat) (r : Record) (p : Nat) : (s.sendRecord k r).cell p = s.cell p := by
  unfold State.sendRecord; split
  · rfl
  · split
    · exact State.cell_modRegion s _ _ p
    · rfl

@[simp] theorem State.getByte_sendRecord (s : State) (k : Nat) (r : Record) (y : Place) :
    (s.sendRecord k r).getByte y = s.getByte y := by
  unfold State.sendRecord; split
  · exact State.getByte_modCond s k _ y
  · split
    · exact State.getByte_modRegion s _ _ y
    · rfl

/-- A record sent where fewer than 16 stand joins the queue (R268). -/
theorem State.records_sendRecord {s : State} {k : Nat} (r : Record) (h : (s.cond k).records.length < 16) :
    ((s.sendRecord k r).cond k).records = (s.cond k).records ++ [r] := by
  simp [State.sendRecord, h]

/-- The bytes of a range are those of another state where every byte of it is. -/
theorem bytesAt_congr {s t : State} (h : ∀ y, t.getByte y = s.getByte y) (f : Nat → Place) (n : Nat) :
    bytesAt t f n = bytesAt s f n := by
  simp only [bytesAt, h]

theorem State.cells_ops_modHart (s : State) (a : AgentId) (f : Hart → Hart) (p : Nat) :
    ((s.modHart a f).cell p).ops = (s.cell p).ops := by rw [State.cell_modHart]

theorem State.conds_cmds_modHart (s : State) (a : AgentId) (f : Hart → Hart) (k : Nat) :
    ((s.modHart a f).cond k).cmds = (s.cond k).cmds := by rw [State.cond_modHart]

/-- What a trap of a stage context at level 0 leaves. -/
theorem State.takeTrap_ctx (s : State) (p : Nat) (c : Fin 4) (t : TrapInfo) (hl : (s.hart (.ctx p c)).level = false) :
    s.takeTrap (.ctx p c) t = (s.framed p (frameAt (s.hart (.ctx p c)))
      ((s.hart (.ctx p c)).frame t.seq t.idx [])).modHart (.ctx p c) (fun h => trapped h t c.val false) := by
  rw [State.takeTrap_first t hl, State.writeFrame_ctx, Nat.add_zero]
  simp only [AgentId.ctxNum, AgentId.isCond]

/-- What a trap of a conductor at level 0 leaves where the page of its frame is mapped. -/
theorem State.takeTrap_cond {s : State} {k lo : Nat} {e : Extent} (t : TrapInfo) (hl : (s.hart (.cond k)).level = false)
    (he : s.extentNo (.cond k) (fld (s.hart (.cond k)).tframe.toNat 47 40) = some e)
    (ht : s.translate (s.holder (.cond k)) e (fld (s.hart (.cond k)).tframe.toNat 39 12 * 4096) true =
      (s, some (.bulk lo))) :
    s.takeTrap (.cond k) t =
      ((s.settle (.cond k) ((List.range 2048).map (fun i => Place.bulk (lo + i)))).bulkFramed lo
        ((s.hart (.cond k)).frame t.seq t.idx [])).modHart (.cond k) (fun h => trapped h t 0 true) := by
  rw [State.takeTrap_first t hl, State.writeFrame_cond (off := 0) _ he (by rwa [Nat.add_zero])]
  simp only [AgentId.ctxNum, AgentId.isCond]

theorem State.takeTrap_nested {s : State} {a : AgentId} (t : TrapInfo) (hl : (s.hart a).level = true) :
    s.takeTrap a t = s.nestedTrap a t := if_pos hl

/-- What a trap of a conductor at level 1 leaves where the page of its frame is mapped. -/
theorem State.takeTrap_nested_cond {s : State} {k lo : Nat} {e : Extent} (t : TrapInfo) (hl : (s.hart (.cond k)).level = true)
    (he : s.extentNo (.cond k) (fld (s.hart (.cond k)).tframe.toNat 47 40) = some e)
    (ht : s.translate (s.holder (.cond k)) e (fld (s.hart (.cond k)).tframe.toNat 39 12 * 4096 + 2048) true =
      (s, some (.bulk lo))) :
    s.takeTrap (.cond k) t =
      ((s.settle (.cond k) ((List.range 2048).map (fun i => Place.bulk (lo + i)))).bulkFramed lo
        ((s.hart (.cond k)).frame t.seq t.idx [(s.hart (.cond k)).trapPc t, dwn t.cause.code, t.i0, t.i1])).modHart (.cond k)
          (fun h => nested h true) := by
  rw [State.takeTrap_nested t hl, State.nestedTrap_cond, State.writeFrame_cond _ he ht]

end Sys2Proof.Machine
open Sys2Proof Sys2Proof.Machine Sys2Proof.Claim

/-- Settles O20: a trap at level 0 is its frame written and its registers set; a frame's bytes are those of R47, and what a
conductor's frame settles first is nothing but its own accesses. -/
theorem trapSavesStateWritesTheFrameAndEntersTheHandler :
    Obligations.TrapSavesStateWritesTheFrameAndEntersTheHandler := by
  unfold Obligations.TrapSavesStateWritesTheFrameAndEntersTheHandler
  refine ⟨fun s p c t hl => ?_, fun s k lo e t hl => ?_⟩
  · intro a h s'
    have hs' : s' = _ := s.takeTrap_ctx p c t hl
    have kept := AsBefore.framed s p (frameAt h) (h.frame t.seq t.idx [])
    have len := h.length_frame_le t.seq t.idx []
    rw [hs']
    refine ⟨by rw [State.hart_modHart_same, kept.hart], fun b hb => by rw [State.hart_modHart_other _ _ hb, kept.hart],
      ?_, fun x hx => ?_, ?_, fun j => ?_⟩
    · rw [bytesAt_congr (State.getByte_modHart _ _ _), State.bytesAt_framed s p _ len, Hart.frame_eq h _ _ _ (by simp)]
    · rw [State.getByte_modHart, State.getByte_framed_other s p _ len hx]
    · rw [State.cells_ops_modHart, kept.ops]
    · rw [State.conds_cmds_modHart, kept.cmds]
  · intro a h he ht s'
    have hs' : s' = _ := State.takeTrap_cond t hl he ht
    have kept := (OnlyPend.settle s a ((List.range 2048).map (fun i => Place.bulk (lo + i)))).trans
      ((AsBefore.bulkFramed _ lo (h.frame t.seq t.idx [])).onlyPend a)
    have len := h.length_frame_le t.seq t.idx []
    rw [hs']
    refine ⟨?_, fun b hb => ?_, ?_, fun hap => ⟨?_, fun x hx => ?_⟩, ?_, fun p => ?_⟩
    · rw [State.hart_modHart_same, kept.self]; rfl
    · rw [State.hart_modHart_other _ _ hb, kept.others b hb]
    · rw [bytesAt_congr (State.getByte_modHart _ _ _), State.bytesAt_bulkFramed _ _ len, Hart.frame_eq h _ _ _ (by simp)]
    · rw [State.settle_apart hap, State.hart_modHart_same]; rfl
    · rw [State.getByte_modHart, State.settle_apart hap, State.getByte_bulkFramed_other _ _ len hx]
    · rw [State.conds_cmds_modHart, kept.cmds]
    · rw [State.cells_ops_modHart, kept.ops]

/-- Settles O21: a trap at level 1 is the second frame written and the agent stopped; a stage context's conductor then gets
the record. -/
theorem nestedTrapStopsTheContextAndTellsItsConductor : Obligations.NestedTrapStopsTheContextAndTellsItsConductor := by
  unfold Obligations.NestedTrapStopsTheContextAndTellsItsConductor
  refine ⟨fun s p c t hl => ?_, fun s k lo e t hl => ?_⟩
  · intro a h s' own
    obtain ⟨bs, hbs⟩ : ∃ bs, bs = h.frame t.seq t.idx [own, dwn t.cause.code, t.i0, t.i1] := ⟨_, rfl⟩
    have hs' : s' = (s.markNested p (((s.framed p (frameAt h + 2048) bs).modHart a (fun h => nested h false)).modCell p
        (fun x => { x with nestHold := x.nestHold + 1 }))).sendRecord (p / 17) (s.nestedRecord p c t) := by
      rw [hbs]; exact (State.takeTrap_nested t hl).trans (s.nestedTrap_ctx p c t)
    have kept := AsBefore.framed s p (frameAt h + 2048) bs
    have len : bs.length ≤ 2048 := by rw [hbs]; exact h.length_frame_le ..
    have records : ∀ (u : State) (f : Hart → Hart), ((u.modHart a f).cond (p / 17)).records = (u.cond (p / 17)).records :=
      fun u f => by rw [State.cond_modHart]
    have bytes : ∀ y, s'.getByte y = (s.framed p (frameAt h + 2048) bs).getByte y := fun y => by
      rw [hs', State.getByte_sendRecord, State.getByte_markNested, State.getByte_modCell _ _ _ (by rfl), State.getByte_modHart]
    refine ⟨?_, ?_, ?_, fun x hx => ?_, fun hr => ⟨s.nestedRecord p c t, ?_, rfl, rfl, rfl, rfl, rfl, rfl, rfl⟩⟩
    · rw [hs', State.hart_sendRecord, State.hart_markNested, State.hart_modCell _ _ _ (by rfl), State.hart_modHart_same, kept.hart]
    · rw [hs', State.cell_sendRecord, State.cell_markNested, State.cell_modCell_same, State.cell_modHart]
      simp only [State.framed, State.cell_modCell_same]
    · rw [bytesAt_congr bytes, State.bytesAt_framed s p _ len, hbs, Hart.frame_eq h _ _ _ (by simp)]
      rfl
    · rw [bytes, State.getByte_framed_other s p _ len hx]
    · have hq : ((s.markNested p (((s.framed p (frameAt h + 2048) bs).modHart a (fun h => nested h false)).modCell p
          (fun x => { x with nestHold := x.nestHold + 1 }))).cond (p / 17)).records = (s.cond (p / 17)).records := by
        rw [State.cond_markNested, State.cond_modCell, records, State.framed, State.cond_modCell]
      rw [hs', State.records_sendRecord _ (by rw [hq]; exact hr), hq]
  · intro a h own he ht s'
    obtain ⟨bs, hbs⟩ : ∃ bs, bs = h.frame t.seq t.idx [own, dwn t.cause.code, t.i0, t.i1] := ⟨_, rfl⟩
    have hs' : s' = ((s.settle a ((List.range 2048).map (fun i => Place.bulk (lo + i)))).bulkFramed lo bs).modHart a
        (fun h => nested h true) := by
      rw [hbs]; exact State.takeTrap_nested_cond t hl he ht
    have kept := (OnlyPend.settle s a ((List.range 2048).map (fun i => Place.bulk (lo + i)))).trans
      ((AsBefore.bulkFramed _ lo bs).onlyPend a)
    have len : bs.length ≤ 2048 := by rw [hbs]; exact h.length_frame_le ..
    rw [hs']
    refine ⟨?_, fun hap => ?_, ?_⟩
    · rw [State.hart_modHart_same, kept.self]; rfl
    · rw [State.settle_apart hap, State.hart_modHart_same, (AsBefore.bulkFramed s lo bs).hart a]; rfl
    · rw [bytesAt_congr (State.getByte_modHart _ _ _), State.bytesAt_bulkFramed _ _ len, hbs, Hart.frame_eq h _ _ _ (by simp)]
      rfl
end

section
/-! PROOFS. Missing pages (R161, R322): the A bit of a walked leaf, and a memory out of canonical form. -/
set_option Elab.async false
namespace Sys2Proof.Machine
open Sys2Proof Sys2Proof.Claim

/-- A bulk memory out of canonical form (`State.memWf` fails of it): byte 0x1001 is listed twice. Its tables map page 0 by a leaf of the
root at 0x1000. -/
def twiceListed : Memory := [(0, 1), (1, 0x10), (0x1000, 3), (0x1001, 0), (0x1001, 5)]

/-- A page of bulk that conductor 0 misses. -/
def missedPage : PageMiss := ⟨.bulk, 0, 0, 0, 0, none⟩

theorem walk_twiceListed : walkFrom [] twiceListed 0 3 0 = .ok (0x1000, 3, 2) := by decide +kernel

/-- The A bit written rewrites the whole entry: its second byte loses its listing of 0 and the older one shows. -/
theorem getByte_missPage_twiceListed :
    ((({ State.reset with bulk := twiceListed } : State).stopBy (.cond 0) (.page missedPage)).getByte (.bulk 0x1001),
      ({ State.reset with bulk := twiceListed } : State).getByte (.bulk 0x1001)) = (5, 0) := by decide +kernel

/-! ### The A bit in a memory in canonical form -/

/-- Byte i of a number. -/
theorem getElem_leBytes (n v i : Nat) (h : i < (leBytes n v).length) : (leBytes n v)[i] = BitVec.ofNat 8 (v / 256 ^ i) := by
  induction n generalizing v i with
  | zero => simp [leBytes] at h
  | succ n ih =>
    cases i with
    | zero => simp [leBytes]
    | succ i =>
      simp only [leBytes, List.getElem_cons_succ]
      rw [ih, Nat.div_div_eq_div_mul, Nat.pow_succ, Nat.mul_comm]

/-- Byte i of the number that bytes make. -/
theorem leNat_div (bs : List Byte) (i : Nat) (h : i < bs.length) : BitVec.ofNat 8 (leNat bs / 256 ^ i) = bs[i] := by
  induction bs generalizing i with
  | nil => simp at h
  | cons b bs ih =>
    have hb := b.isLt
    cases i with
    | zero =>
      apply BitVec.eq_of_toNat_eq
      simp only [leNat, Nat.pow_zero, Nat.div_one, BitVec.toNat_ofNat, List.getElem_cons_zero]
      omega
    | succ i =>
      have e : leNat (b :: bs) / 256 ^ (i + 1) = leNat bs / 256 ^ i := by
        rw [Nat.pow_succ, Nat.mul_comm, ← Nat.div_div_eq_div_mul, leNat]
        congr 1
        omega
      rw [e, List.getElem_cons_succ]
      exact ih i (by simpa using h)

/-- Setting bit 3 leaves every byte of a number but the first. -/
theorem orBits_div (v i : Nat) (h : 0 < i) : orBits v 8 / 256 ^ i = v / 256 ^ i := by
  have e : (256 : Nat) ^ i = 2 ^ (8 * i) := by rw [Nat.pow_mul]
  have h8 : 8 >>> (8 * i) = 0 := by
    rw [Nat.shiftRight_eq_div_pow]
    exact Nat.div_eq_of_lt (lt_of_lt_of_le (by decide : 8 < 2 ^ 8) (Nat.pow_le_pow_right (by decide) (by omega)))
  rw [orBits, e, ← Nat.shiftRight_eq_div_pow, ← Nat.shiftRight_eq_div_pow, Nat.shiftRight_or_distrib, h8, Nat.or_zero]

theorem Memory.length_read (m : Memory) (a n : Nat) : (m.read a n).length = n := by
  induction n generalizing a with
  | zero => rfl
  | succ n ih => simp [Memory.read, ih]

theorem Memory.getElem_read (m : Memory) (a n i : Nat) (h : i < (m.read a n).length) : (m.read a n)[i] = m.get (a + i) := by
  induction n generalizing a i with
  | zero => simp [Memory.read] at h
  | succ n ih =>
    cases i with
    | zero => rfl
    | succ i =>
      simp only [Memory.read, List.getElem_cons_succ]
      rw [ih, Nat.add_right_comm, Nat.add_assoc]

/-- In a memory in canonical form the A bit written into an entry changes the entry's first byte alone. -/
theorem Memory.get_accessed {m : Memory} (hm : m.wf = true) (leaf : Nat) {b : Nat} (hb : b ≠ leaf) :
    (m.write leaf (leBytes 8 (orBits (m.num leaf 8) 8))).get b = m.get b := by
  by_cases h : leaf ≤ b ∧ b < leaf + 8
  · obtain ⟨i, rfl⟩ : ∃ i, b = leaf + i := ⟨b - leaf, by omega⟩
    rw [Memory.get_write_same m leaf i _ hm (by rw [length_leBytes]; omega), getElem_leBytes, orBits_div _ _ (by omega), Memory.num,
      leNat_div _ _ (by rw [Memory.length_read]; omega), Memory.getElem_read]
  · exact Memory.get_write_other _ _ _ _ (by rw [length_leBytes]; omega)

/-- A walk that succeeds ends at a leaf, or goes on one level below. -/
theorem walkFrom_ok {bad : List Place} {m : Memory} {g lvl root leaf e l : Nat} (h : walkFrom bad m g lvl root = .ok (leaf, e, l)) :
    e = m.num leaf 8 ∨ ∃ k below, lvl = k + 1 ∧ walkFrom bad m g k below = .ok (leaf, e, l) := by
  unfold walkFrom at h
  extract_lets _ at8 entry _ _ at h
  split at h
  · cases h
  split at h
  · cases h
  split at h
  · split at h
    · cases h
    · obtain ⟨rfl, rfl, -⟩ : at8 = leaf ∧ entry = e ∧ lvl = l := by simpa using h
      exact .inl rfl
  · cases lvl with
    | zero => cases h
    | succ k => exact .inr ⟨k, _, rfl, h⟩

/-- The walk that reaches a leaf gives its entry as it stands. -/
theorem entry_of_walkFrom {bad : List Place} {m : Memory} {g lvl root leaf e l : Nat}
    (h : walkFrom bad m g lvl root = .ok (leaf, e, l)) : e = m.num leaf 8 := by
  induction lvl generalizing root with
  | zero =>
    rcases walkFrom_ok h with h | ⟨_, _, h, -⟩
    · exact h
    · cases h
  | succ n ih =>
    rcases walkFrom_ok h with h | ⟨k, below, hk, h⟩
    · exact h
    · obtain rfl : n = k := by omega
      exact ih h

/-- A page that fails has at most its leaf's first byte changed. -/
theorem State.getByte_breakPage {s : State} (hs : s.memWf = true) {ctx n leaf e l : Nat}
    (hw : walkFrom s.bad s.bulk (n * 2 ^ 16) 3 (s.xlat ctx).root = .ok (leaf, e, l)) {y : Place} (hy : y ≠ .bulk leaf) :
    (s.breakPage ctx n).getByte y = s.getByte y := by
  unfold State.breakPage
  dsimp only
  split
  · rfl
  · simp only [State.breakNow, State.getByte_modXlat, State.walk, hw]
    cases y with
    | bulk b =>
      rw [entry_of_walkFrom hw]
      exact Memory.get_accessed ((State.memWf_iff s).mp hs).1 leaf (fun h => hy (by rw [h]))
    | _ => rfl

theorem State.getByte_missPageFor (s : State) (a : AgentId) (m : PageMiss) (clause : Word) (y : Place) :
    (s.missPageFor a m clause).getByte y =
      (if m.sort = .bulk then s.breakPage (s.ctxOf a) (m.sa / 2 ^ 16) else s).getByte y := by
  unfold State.missPageFor
  dsimp only
  generalize (if m.sort = .bulk then s.breakPage (s.ctxOf a) (m.sa / 2 ^ 16) else s) = s1
  split
  · rfl
  · rw [State.getByte_sendRecord, State.getByte_modXlat]

/-- What O22 says of the bytes holds of every memory in canonical form. -/
theorem sameBytesBut_missingPage {s : State} (hs : s.memWf = true) (a : AgentId) (m : PageMiss) {leaf e l : Nat}
    (hw : walkFrom s.bad s.bulk (m.sa / 2 ^ 16 * 2 ^ 16) 3 (s.xlat (s.ctxOf a)).root = .ok (leaf, e, l)) :
    SameBytesBut s (s.stopBy a (.page m)) [.bulk leaf] := by
  intro y hy
  show ((s.missPageFor a m _).holdBy a .page).getByte y = s.getByte y
  rw [State.getByte_holdBy, State.getByte_missPageFor]
  split
  · exact State.getByte_breakPage hs hw (by simpa using hy)
  · rfl

end Sys2Proof.Machine
open Sys2Proof Sys2Proof.Machine Sys2Proof.Claim

/-- Refutes O22: the statement asks nothing of the state's memories, and in one out of canonical form the leaf's entry,
rewritten with its A bit, changes another byte than the leaf's first. Of a memory in canonical form that clause holds:
`sameBytesBut_missingPage`. -/
theorem not_stoppedInstructionChangesNothingButItsHold : ¬ Obligations.StoppedInstructionChangesNothingButItsHold := by
  unfold Obligations.StoppedInstructionChangesNothingButItsHold
  intro h
  obtain ⟨-, -, hpage⟩ := h { State.reset with bulk := twiceListed } (.cond 0)
  obtain ⟨-, -, -, ⟨-, hwalk⟩, -⟩ := hpage missedPage
  obtain ⟨hsame, -⟩ := hwalk 0x1000 3 2 walk_twiceListed
  have hb := hsame (.bulk 0x1001) (by decide)
  have hv := Prod.mk.inj getByte_missPage_twiceListed
  rw [hv.1, hv.2] at hb
  exact absurd hb (by decide)
end

section
/-! PROOFS. Records (R46, R269): a conductor's own store across the end of its frame. -/
set_option Elab.async false
namespace Sys2Proof.Machine
open Sys2Proof Sys2Proof.Claim

/-- A conductor whose frame stands at bulk 0x10000 up to 0x10800, with a store accepted and not performed of the frame's last
byte and the byte behind it, and a record that waits. -/
def strayCond : Cond :=
  { Cond.init with
    hart := { Hart.init with
      run := .running, tframe := 0x10000000000
      pend := [⟨.store [(.bulk 0x107FF, 1), (.bulk 0x10800, 1)] [], 0, 0⟩] }
    records := [⟨.xfault, 0, 0, false, 0, 0, none, 0, 0, 0, 0, Idx.zero, 0, none⟩]
    region := some 0 }

/-- The extent of frame and records, 64 KiB of bulk. -/
def strayExtent : Extent := ⟨1, .bulk, true, false, false, 0, 2 ^ 16, 0⟩

/-- Its region, whose records stand from 4096 in that extent. -/
def strayRegion : Region := { Region.init 0 [0] 1 [strayExtent] with frbase := 4096 }

/-- Its one page. -/
def strayPage : Page := ⟨0, 0, 0x10000, 0, 0, true, true, false⟩

/-- Conductor 0 with such a store, that page translated to frame 0x10000. -/
def strayState : State :=
  { State.reset with
    conds := [(0, strayCond)], regions := [(0, strayRegion)]
    xlats := [(0, { Xlat.init 0 with pages := [strayPage] })] }

theorem installed_record : Installed strayState strayRegion.ctx strayExtent 4096 0x11000 :=
  ⟨rfl, rfl, strayPage, by decide +kernel, rfl, rfl, by decide⟩

theorem installed_frame : Installed strayState strayRegion.ctx strayExtent 0 0x10000 :=
  ⟨rfl, rfl, strayPage, by decide +kernel, rfl, rfl, by decide⟩

/-- The byte behind the frame after a move. -/
def behindFrame : Host.Outcome State Fault Refusal → Option Byte
  | .next t => some (t.getByte (.bulk 0x10800))
  | _ => none

theorem behindFrame_delivery : behindFrame (exec (.faultRecordDelivery 0) strayState) = some 1 := by decide +kernel

theorem getByte_strayState : strayState.getByte (.bulk 0x10800) = 0 := by decide +kernel

end Sys2Proof.Machine
open Sys2Proof Sys2Proof.Machine Sys2Proof.Claim

/-- Refutes O56: a delivered record's frame first performs the conductor's own stores that touch it (R46), and one of them may
reach beyond the frame; the statement has every byte but the record's and the frame's as it was. -/
theorem not_ratesRecordsAndReadinessFollowTheirRules : ¬ Obligations.RatesRecordsAndReadinessFollowTheirRules := by
  unfold Obligations.RatesRecordsAndReadinessFollowTheirRules
  rintro ⟨-, -, -, hrecord, -⟩
  obtain ⟨-, hdelivered⟩ := hrecord strayState 0 0 0x11000 0x10000 strayRegion strayExtent strayExtent _ [] rfl rfl rfl rfl
    (by decide)
  obtain ⟨t, ht, -, hsame, -⟩ := hdelivered rfl rfl rfl (by decide +kernel) (by decide +kernel) rfl (by decide +kernel)
    (by decide +kernel) installed_record installed_frame (by decide) (by decide +kernel)
  have hb := hsame (.bulk 0x10800) (fun i hi h => by injection h; omega) (fun i hi h => by injection h; omega)
  have hd := behindFrame_delivery
  rw [ht] at hd
  rw [getByte_strayState] at hb
  exact absurd ((Option.some.inj hd).symm.trans hb) (by decide)
end

section
/-! PROOFS. Control and status registers (R37 to R45, R86). -/
set_option Elab.async false
namespace Sys2Proof.Machine
open Sys2Proof Sys2Proof.Claim

/-! ### The CSR instructions (R86) -/

theorem badPred_of_on {s : State} {pg : Pg} (h : On s pg) : (s.hart s.cur).badPred pg = false := by
  rcases h with rfl | ⟨-, hg⟩
  · rfl
  · simp [Hart.badPred, hg]

theorem pred_of_on {s : State} {pg : Pg} (h : On s pg) : (s.hart s.cur).pred pg = true := by
  rcases h with rfl | ⟨hp, -⟩
  · rfl
  · simp [Hart.pred, hp]

/-- Under a true predicate without an error the instruction is its effect, then its length. -/
theorem governed_on {s : State} {pg : Pg} (len : Nat) (body : State → Res State) (h : On s pg) :
    governed pg len body s = finish s ((body s).map (fun t => t.retireBy s.cur len)) := by
  simp [governed, badPred_of_on h, pred_of_on h]

/-- A number that R37 does not list has no class. -/
theorem csrAccess_unlisted {cond : Bool} {n : Nat} (h : n ∉ (if cond then r37Cond else r37Ctx)) : csrAccess cond n = none := by
  cases cond with
  | true =>
    simp only [if_true, r37Cond, List.mem_cons, List.not_mem_nil, or_false, not_or] at h
    simp only [csrAccess, if_true]
    rw [if_neg (by omega), if_neg (by omega), if_neg (by omega), if_neg (by omega)]
  | false =>
    simp only [Bool.false_eq_true, if_false, r37Ctx, List.mem_cons, List.not_mem_nil, or_false, not_or] at h
    simp only [csrAccess, Bool.false_eq_true, if_false]
    rw [if_neg (by omega), if_neg (by omega), if_neg (by omega), ite_eq_left_iff]
    intro _
    rw [if_neg (by omega), if_neg (by omega)]

/-- The value written: none where `keeps` and ra is field 0, else `f` of the old value and X(ra). -/
def CsrOp.writes (op : CsrOp) (keeps : Bool) (f : DWord → DWord → DWord) : Prop :=
  ∀ ra old v, op.value ra old v = if keeps = true ∧ ra = .reg 0 then none else some (f old v)

theorem CsrOp.rw_writes : CsrOp.rw.writes false (fun _ v => v) := fun _ _ _ => rfl
theorem CsrOp.set_writes : CsrOp.set.writes true (fun old v => old ||| v) := fun ra _ _ => by simp [CsrOp.value]
theorem CsrOp.clr_writes : CsrOp.clr.writes true (fun old v => old &&& ~~~v) := fun ra _ _ => by simp [CsrOp.value]

section
variable {op : CsrOp} {keeps : Bool} {f : DWord → DWord → DWord} {s : State} {rd ra : XOp} {n : BitVec 12} {pg : Pg} {w0 v : DWord}
  {acc : CsrAccess} {w : Work} (hon : On s pg) (hacc : csrAccess s.cur.isCond n.toNat = some acc)
  (hra : readX (work s) 0 ra = .ok (v, w)) (hop : op.writes keeps f)
include hon

theorem csrInstr_unlisted (h : csrAccess s.cur.isCond n.toNat = none) :
    csrInstr op rd ra n pg w0 s = stops s (.trap (trapOf .undef w0 (dwn n.toNat))) := by
  rw [csrInstr, governed_on _ _ hon]
  simp only [h]
  rfl

include hacc

theorem csrInstr_source {x : Stop} (h : readX (work s) 0 ra = .error x) : csrInstr op rd ra n pg w0 s = stops s x := by
  rw [csrInstr, governed_on _ _ hon]
  simp only [hacc, h]
  rfl

include hra hop

/-- csrrs and csrrc with ra field 0 only read. -/
theorem csrInstr_readOnly (h : keeps = true ∧ ra = .reg 0) :
    csrInstr op rd ra n pg w0 s =
      finish s ((writeX w rd (csrRead s s.cur n.toNat)).map (fun w2 => w2.s.retireBy s.cur 4)) := by
  rw [csrInstr, governed_on _ _ hon]
  simp only [hacc, hra, hop _ _ _, if_pos h, bind, Except.bind, Work.out]
  cases writeX w rd (csrRead s s.cur n.toNat) <;> rfl

variable (hw : ¬(keeps = true ∧ ra = .reg 0))
include hw

/-- A write is checked as R86 orders, then done before rd. -/
theorem csrInstr_write :
    csrInstr op rd ra n pg w0 s =
      if acc = .ro then stops s (.trap (trapOf .undef w0 (dwn n.toNat)))
      else if acc = .t ∧ (s.hart s.cur).level = false then stops s (.trap (trapOf .priv w0 (dwn n.toNat)))
      else if csrLegal s s.cur n.toNat (f (csrRead s s.cur n.toNat) v) = false then
        stops s (.trap (trapOf .undef w0 (dwn n.toNat)))
      else finish s ((writeX { w with s := csrWrite w.s s.cur n.toNat (f (csrRead s s.cur n.toNat) v) } rd
        (csrRead s s.cur n.toNat)).map (fun w2 => w2.s.retireBy s.cur 4)) := by
  rw [csrInstr, governed_on _ _ hon]
  simp only [hacc, hra, hop _ _ _, if_neg hw, bind, Except.bind, Work.out]
  split_ifs
  · rfl
  · rfl
  · rfl
  · cases writeX { w with s := csrWrite w.s s.cur n.toNat (f (csrRead s s.cur n.toNat) v) } rd (csrRead s s.cur n.toNat) <;> rfl

theorem csrInstr_readOnlyRegister (h : acc = .ro) :
    csrInstr op rd ra n pg w0 s = stops s (.trap (trapOf .undef w0 (dwn n.toNat))) := by
  rw [csrInstr_write hon hacc hra hop hw, if_pos h]

theorem csrInstr_trapRegister (h : acc = .t) (hl : (s.hart s.cur).level = false) :
    csrInstr op rd ra n pg w0 s = stops s (.trap (trapOf .priv w0 (dwn n.toNat))) := by
  rw [csrInstr_write hon hacc hra hop hw, if_neg (by rw [h]; decide), if_pos ⟨h, hl⟩]

variable (hr : acc ≠ .ro) (ht : ¬(acc = .t ∧ (s.hart s.cur).level = false))
include hr ht

theorem csrInstr_illegal (h : csrLegal s s.cur n.toNat (f (csrRead s s.cur n.toNat) v) = false) :
    csrInstr op rd ra n pg w0 s = stops s (.trap (trapOf .undef w0 (dwn n.toNat))) := by
  rw [csrInstr_write hon hacc hra hop hw, if_neg hr, if_neg ht, if_pos h]

theorem csrInstr_legal (h : csrLegal s s.cur n.toNat (f (csrRead s s.cur n.toNat) v) = true) :
    csrInstr op rd ra n pg w0 s =
      finish s ((writeX { w with s := csrWrite w.s s.cur n.toNat (f (csrRead s s.cur n.toNat) v) } rd
        (csrRead s s.cur n.toNat)).map (fun w2 => w2.s.retireBy s.cur 4)) := by
  rw [csrInstr_write hon hacc hra hop hw, if_neg hr, if_neg ht, if_neg (by rw [h]; decide)]

end

/-- What R86 says of one CSR instruction, whose word is `w0`. -/
theorem csrInstr_follows {op : CsrOp} {keeps : Bool} {f : DWord → DWord → DWord} (hop : op.writes keeps f)
    {s : State} {rd ra : XOp} {n : BitVec 12} {pg : Pg} {i : Instr} (hon : On s pg)
    (hi : exec i s = csrInstr op rd ra n pg (w0Of i) s) :
    let a := s.cur; let old := csrRead s a n.toNat
    (n.toNat ∉ (if a.isCond then r37Cond else r37Ctx) → exec i s = stops s (csrTrap .undef i n)) ∧
    ∀ acc, csrAccess a.isCond n.toNat = some acc →
      (∀ x, readX (work s) 0 ra = .error x → exec i s = stops s x) ∧
      ∀ v w, readX (work s) 0 ra = .ok (v, w) → let new := f old v
        (keeps = true ∧ ra = .reg 0 →
          (∀ w2, writeX w rd old = .ok w2 → exec i s = retires w2 s 4) ∧
          (∀ x, writeX w rd old = .error x → exec i s = stops s x)) ∧
        (¬ (keeps = true ∧ ra = .reg 0) →
          (acc = .ro → exec i s = stops s (csrTrap .undef i n)) ∧
          (acc = .t → (s.hart a).level = false → exec i s = stops s (csrTrap .priv i n)) ∧
          (acc ≠ .ro → ¬ (acc = .t ∧ (s.hart a).level = false) →
            (csrLegal s a n.toNat new = false → exec i s = stops s (csrTrap .undef i n)) ∧
            (csrLegal s a n.toNat new = true → let w1 : Work := { w with s := csrWrite w.s a n.toNat new }
              (∀ w2, writeX w1 rd old = .ok w2 → exec i s = retires w2 s 4) ∧
              (∀ x, writeX w1 rd old = .error x → exec i s = stops s x)))) := by
  have trap : ∀ c, csrTrap c i n = .trap (trapOf c (w0Of i) (dwn n.toNat)) := fun c => by
    simp [csrTrap, wordOf, w0Of, dwn, List.headD_eq_head?_getD, List.head?_eq_getElem?]
  intro a old
  simp only [trap, hi]
  refine ⟨fun h => csrInstr_unlisted hon (csrAccess_unlisted h), fun acc hacc =>
    ⟨fun x hx => csrInstr_source hon hacc hx, fun v w hv => ⟨fun hk => ?_, fun hk =>
      ⟨csrInstr_readOnlyRegister hon hacc hv hop hk, csrInstr_trapRegister hon hacc hv hop hk, fun hr ht =>
        ⟨csrInstr_illegal hon hacc hv hop hk hr ht, fun hl => ?_⟩⟩⟩⟩⟩
  · rw [csrInstr_readOnly hon hacc hv hop hk]
    exact ⟨fun w2 h => by rw [h]; rfl, fun x h => by rw [h]; rfl⟩
  · rw [csrInstr_legal hon hacc hv hop hk hr ht hl]
    exact ⟨fun w2 h => by rw [h]; rfl, fun x h => by rw [h]; rfl⟩

end Sys2Proof.Machine
open Sys2Proof Sys2Proof.Machine Sys2Proof.Claim

/-- Settles O31: the three instructions are one, with the value they write. -/
theorem csrInstructionsReadTheOldValueAndWriteTheNew : Obligations.CsrInstructionsReadTheOldValueAndWriteTheNew := by
  unfold Obligations.CsrInstructionsReadTheOldValueAndWriteTheNew
  intro e he s rd ra n pg hon
  simp only [r86, List.mem_cons, List.not_mem_nil, or_false] at he
  rcases he with rfl | rfl | rfl
  · exact csrInstr_follows CsrOp.rw_writes hon rfl
  · exact csrInstr_follows CsrOp.set_writes hon rfl
  · exact csrInstr_follows CsrOp.clr_writes hon rfl
end

section
/-! PROOFS. What stands behind the CSR numbers (R37 to R45, R155, R244). -/
set_option Elab.async false
namespace Sys2Proof.Machine
open Sys2Proof Sys2Proof.Claim

/-! ### Reads -/

theorem csrRead_occupancy (s : State) (a : AgentId) (q : Fin 8) : csrRead s a (0x040 + q.val) = (s.hart a).ports[q].qocc := by
  fin_cases q <;> rfl

theorem csrRead_sequence (s : State) (a : AgentId) (q : Fin 8) :
    csrRead s a (0x048 + q.val) = dwn ((s.hart a).ports[q].next.1) := by
  fin_cases q <;> rfl

/-- MSTAT's fields (R155). -/
theorem mstatWord_eq (x : Cell) :
    let inClass (k : Fin 4) : Nat := x.ops.countP (fun o => o.cls = k)
    let busy (t : Fin 4) : Nat := if ∃ o ∈ x.ops, o.tile = t then 1 else 0
    mstatWord x = BitVec.ofNat 64 (min x.stalls 65535 + inClass 0 * 2 ^ 16 + inClass 1 * 2 ^ 19 +
        inClass 2 * 2 ^ 22 + inClass 3 * 2 ^ 25 + busy 0 * 2 ^ 28 + busy 1 * 2 ^ 29 + busy 2 * 2 ^ 30 + busy 3 * 2 ^ 31 +
        x.nextTag.toNat * 2 ^ 32 + x.budget * 2 ^ 48) := by
  have hc : ∀ k : Fin 4, (x.ops.filter (fun o => o.cls.val == k.val)).length = x.ops.countP (fun o => o.cls = k) := fun k => by
    rw [List.countP_eq_length_filter]
    congr 2
    funext o
    exact decide_eq_decide.mpr Fin.ext_iff.symm
  have hb : ∀ t : Fin 4, b2n (x.ops.any (fun o => o.tile.val == t.val)) = if ∃ o ∈ x.ops, o.tile = t then 1 else 0 := fun t => by
    have : (x.ops.any (fun o => o.tile.val == t.val)) = decide (∃ o ∈ x.ops, o.tile = t) := by
      rw [Bool.eq_iff_iff]
      simp [Fin.ext_iff]
    rw [this]
    by_cases h : ∃ o ∈ x.ops, o.tile = t <;> simp [h, b2n]
  intro inClass busy
  simp only [mstatWord, dwn, inClass, busy, ← hc, ← hb]
  rfl

/-- SEAMCAL's fields (R244). -/
theorem seamcalWord_eq (s : State) (a : AgentId) :
    let next := if s.cycle % s.per = 0 ∧ ∀ w ∈ s.windows, w.2 ≠ s.cycle then s.cycle / s.per else s.cycle / s.per + 1
    seamcalWord s a =
      BitVec.ofNat 64 (s.per + 200 * 2 ^ 16 + next % 16 * 2 ^ 24 + a.die * 2 ^ 30 + next * s.per % 2 ^ 32 * 2 ^ 32) := by
  simp only [seamcalWord, List.all_eq_true, bne_iff_ne]
  rfl

/-! ### Writes -/

/-- A writable register of the agent itself, set. -/
def csrSet (n : Nat) (v : DWord) (h : Hart) : Hart :=
  match n with
  | 0x001 => { h with fps := BitVec.ofNat 5 v.toNat }
  | 0x010 => { h with tvec := v }
  | 0x011 => { h with evec := v }
  | 0x012 => { h with tcause := v }
  | 0x013 => { h with tinfo0 := v }
  | 0x014 => { h with tinfo1 := v }
  | 0x015 => { h with tpc := v }
  | 0x016 => { h with tstat := v }
  | 0x017 => { h with tframe := v }
  | 0x018 => { h with fvec := v }
  | 0x020 => { h with wgt := h.clampW v.toNat }
  | _ => h

/-- The numbers that csrSet sets. -/
def ownCsrs : List Nat := [0x001, 0x010, 0x011, 0x012, 0x013, 0x014, 0x015, 0x016, 0x017, 0x018, 0x020]

/-- Of a class that may be written there are the agent's own registers and, of a stage context, its cell's MBUD. -/
theorem csrAccess_writable {cond : Bool} {n : Nat} {acc : CsrAccess} (h : csrAccess cond n = some acc) (hr : acc ≠ .ro) :
    n ∈ ownCsrs ∨ n = 0x060 ∧ cond = false := by
  simp only [csrAccess] at h
  simp only [ownCsrs, List.mem_cons, List.not_mem_nil, or_false]
  split_ifs at h with h0 h1 h2 h3 h4 h5 h6
  · exact absurd (Option.some.inj h).symm hr
  · omega
  · omega
  · omega
  · rcases h6 with h6 | h6 | h6
    · omega
    · omega
    · exact .inr ⟨h6, by simpa using h5⟩
  · exact absurd (Option.some.inj h).symm hr

theorem csrWrite_own {n : Nat} (s : State) (a : AgentId) (v : DWord) (h : n ∈ ownCsrs) :
    csrWrite s a n v = s.modHart a (csrSet n v) := by
  simp only [ownCsrs, List.mem_cons, List.not_mem_nil, or_false] at h
  rcases h with rfl | rfl | rfl | rfl | rfl | rfl | rfl | rfl | rfl | rfl | rfl <;> rfl

/-- A register set leaves what no CSR instruction writes. -/
theorem csrSet_frame (n : Nat) (v : DWord) (h : Hart) :
    let g := csrSet n v h
    g.x = h.x ∧ g.p = h.p ∧ g.a = h.a ∧ g.w = h.w ∧ g.m = h.m ∧ g.tl = h.tl ∧ g.ports = h.ports ∧ g.pc = h.pc := by
  unfold csrSet
  split <;> exact ⟨rfl, rfl, rfl, rfl, rfl, rfl, rfl, rfl⟩

/-- A register set leaves every CSR of another number. -/
theorem csrRead_csrSet_other (s : State) (a : AgentId) {n m : Nat} (v : DWord) (hn : n ∈ ownCsrs) (hm : m ≠ n) :
    csrRead (s.modHart a (csrSet n v)) a m = csrRead s a m := by
  have word : ∀ p, mstatWord ((s.modHart a (csrSet n v)).cell p) = mstatWord (s.cell p) := fun p => by
    rw [State.cell_modHart]; rfl
  have mbud : ∀ p, ((s.modHart a (csrSet n v)).cell p).mbud = (s.cell p).mbud := fun p => by rw [State.cell_modHart]
  have cycle : (s.modHart a (csrSet n v)).cycle = s.cycle := by cases a <;> rfl
  have seam : seamcalWord (s.modHart a (csrSet n v)) a = seamcalWord s a := by cases a <;> rfl
  unfold csrRead
  simp only [State.hart_modHart_same, word, mbud, cycle, seam]
  simp only [ownCsrs, List.mem_cons, List.not_mem_nil, or_false] at hn
  rcases hn with rfl | rfl | rfl | rfl | rfl | rfl | rfl | rfl | rfl | rfl | rfl <;>
    (simp only [csrSet]; split <;> first | rfl | contradiction)

/-- A legal value set is read back; WGT's is clamped first. -/
theorem csrRead_csrSet_same (s : State) (a : AgentId) {n : Nat} {v : DWord} (hn : n ∈ ownCsrs) (hw : n ≠ 0x020)
    (hl : csrLegal s a n v = true) : csrRead (s.modHart a (csrSet n v)) a n = v := by
  have read : ∀ f : Hart → DWord, f (csrSet n v (s.hart a)) = v → f ((s.modHart a (csrSet n v)).hart a) = v := fun f h => by
    rw [State.hart_modHart_same, h]
  simp only [ownCsrs, List.mem_cons, List.not_mem_nil, or_false] at hn
  rcases hn with rfl | rfl | rfl | rfl | rfl | rfl | rfl | rfl | rfl | rfl | rfl
  · have h5 : v.toNat < 2 ^ 5 := of_decide_eq_true hl
    refine read (fun h => dwn h.fps.toNat) (BitVec.eq_of_toNat_eq ?_)
    have := v.isLt
    simp only [csrSet, dwn, BitVec.toNat_ofNat]
    omega
  · exact read Hart.tvec rfl
  · exact read Hart.evec rfl
  · exact read Hart.tcause rfl
  · exact read Hart.tinfo0 rfl
  · exact read Hart.tinfo1 rfl
  · exact read Hart.tpc rfl
  · exact read Hart.tstat rfl
  · exact read Hart.tframe rfl
  · exact read Hart.fvec rfl
  · exact absurd rfl hw

/-- WGT between its bounds (R44). -/
theorem toNat_clampW (h : Hart) (v : Nat) (hb : h.wmin.toNat ≤ h.wmax.toNat) :
    (h.clampW v).toNat = max h.wmin.toNat (min v h.wmax.toNat) := by
  have h1 := h.wmin.isLt
  have h2 := h.wmax.isLt
  have e : clampI v h.wmin.toNat h.wmax.toNat = ((max h.wmin.toNat (min v h.wmax.toNat) : Nat) : Int) := by
    unfold clampI
    split_ifs <;> omega
  rw [Hart.clampW, e, BitVec.ofInt_natCast, BitVec.toNat_ofNat, Nat.mod_eq_of_lt (by omega)]

theorem csrRead_weight (s : State) (a : AgentId) (v : DWord) (hb : (s.hart a).wmin.toNat ≤ (s.hart a).wmax.toNat) :
    (csrRead (s.modHart a (csrSet 0x020 v)) a 0x020).toNat =
      max (s.hart a).wmin.toNat (min v.toNat (s.hart a).wmax.toNat) := by
  show (dwn ((s.modHart a (csrSet 0x020 v)).hart a).wgt.toNat).toNat = _
  have h2 := (csrSet 0x020 v (s.hart a)).wgt.isLt
  rw [State.hart_modHart_same, dwn, BitVec.toNat_ofNat, Nat.mod_eq_of_lt (by omega)]
  exact toNat_clampW _ _ hb

/-- MBUD stands in the cell. -/
theorem csrWrite_budget (s : State) (p : Nat) (c : Fin 4) (v : DWord) :
    csrWrite s (.ctx p c) 0x060 v = s.modCell p (fun x => { x with mbud := BitVec.ofNat 16 v.toNat }) := rfl

theorem csrRead_budget_other (s : State) (p : Nat) (c : Fin 4) (b : BitVec 16) {m : Nat} (hm : m ≠ 0x060) :
    csrRead (s.modCell p (fun x => { x with mbud := b })) (.ctx p c) m = csrRead s (.ctx p c) m := by
  have word : mstatWord ((s.modCell p (fun x => { x with mbud := b })).cell p) = mstatWord (s.cell p) := by
    rw [State.cell_modCell_same]; rfl
  unfold csrRead
  simp only [State.hart_modCell s p (fun x => { x with mbud := b }) rfl, word]
  split <;> first | rfl | contradiction

/-! ### Legal values -/

/-- A stage context's frame area: a 4 KiB area of its cell store (R45). -/
theorem csrLegal_frame_ctx (s : State) {a : AgentId} (v : DWord) (ha : a.isCond = false) :
    csrLegal s a 0x017 v = true ↔ v.toNat < 2 ^ 19 ∧ v.toNat % 2 ^ 12 = 0 := by
  simp [csrLegal, ha]

/-- A conductor's frame area lies in the launch extent of its region (R45). -/
theorem csrLegal_frame_cond (s : State) {a : AgentId} (v : DWord) (ha : a.isCond = true) :
    csrLegal s a 0x017 v = true ↔ v.toNat < 2 ^ 48 ∧ v.toNat % 2 ^ 12 = 0 ∧ ∃ q r e, s.regionOf a = some q ∧
      s.region q = some r ∧ s.extentNo a r.lext = some e ∧ v.toNat / 2 ^ 40 = r.lext ∧ v.toNat % 2 ^ 40 + 4096 ≤ e.len := by
  have hidx : v.toNat < 2 ^ 48 → fld v.toNat 47 40 = v.toNat / 2 ^ 40 := fun h => by simp only [fld]; omega
  have hoff : fld v.toNat 39 0 = v.toNat % 2 ^ 40 := by simp [fld]
  simp only [csrLegal, ha, if_true, Bool.and_eq_true, decide_eq_true_eq, beq_iff_eq, hoff, and_assoc]
  refine and_congr_right fun h48 => and_congr_right fun _ => ?_
  rw [hidx h48]
  cases hq : s.regionOf a with
  | none => simp
  | some q =>
    cases hr : s.region q with
    | none => simp [hr]
    | some r =>
      simp only [Option.bind_some, hr, Option.some.injEq, Bool.and_eq_true, beq_iff_eq]
      cases he : s.extentNo a r.lext with
      | none =>
        refine ⟨fun h => absurd h.2 (by simp), ?_⟩
        rintro ⟨_, r', e', rfl, hr', h, -⟩
        cases hr.symm.trans hr'
        cases he.symm.trans h
      | some e =>
        refine ⟨fun ⟨h1, h2⟩ => ⟨q, r, e, rfl, hr, he, h1, of_decide_eq_true h2⟩, ?_⟩
        rintro ⟨_, r', e', rfl, hr', h, h1, h2⟩
        cases hr.symm.trans hr'
        cases he.symm.trans h
        exact ⟨h1, decide_eq_true h2⟩

end Sys2Proof.Machine
open Sys2Proof Sys2Proof.Machine Sys2Proof.Claim

/-- Settles O32: what each number reads; a writable register set, read back and the others kept; the legal values. -/
theorem csrsReadAndWriteTheirFields : Obligations.CsrsReadAndWriteTheirFields := by
  unfold Obligations.CsrsReadAndWriteTheirFields
  refine ⟨fun s a => ?_, fun s a n acc v hacc hro hl => ?_, fun s a v => ?_⟩
  · have narrow : ∀ {k : Nat} (x : BitVec k), dwn x.toNat = x.setWidth 64 := fun x => BitVec.ofNat_toNat 64 x
    refine ⟨statusWord_eq a _, narrow _, narrow _, rfl, ?_, narrow _, rfl, narrow _, rfl, rfl, rfl, rfl, rfl, rfl, rfl, rfl,
      rfl, narrow _, rfl, fun q => ⟨csrRead_occupancy s a q, csrRead_sequence s a q⟩, ?_, seamcalWord_eq s a⟩
    · exact congrArg (fun x => if a.isCond = true then 0 else x) (narrow _)
    · rintro p c rfl
      exact ⟨narrow _, mstatWord_eq (s.cell p)⟩
  · rcases csrAccess_writable hacc hro with hn | ⟨rfl, hc⟩
    · rw [csrWrite_own s a v hn]
      obtain ⟨hx, hp, ha, hw, hm, htl, hports, hpc⟩ := csrSet_frame n v (s.hart a)
      refine ⟨fun h => csrRead_csrSet_same s a hn h hl, ?_, fun m _ h => csrRead_csrSet_other s a v hn h,
        fun y => State.getByte_modHart s a _ y, fun b hb => State.hart_modHart_other s _ hb, ?_⟩
      · rintro rfl hb
        exact csrRead_weight s a v hb
      · rw [State.hart_modHart_same]
        exact ⟨hx, hp, ha, hw, hm, htl, hports, hpc⟩
    · cases a with
      | cond k => cases hc
      | ctx p c =>
        rw [csrWrite_budget]
        have hh := State.hart_modCell s p (fun x => { x with mbud := BitVec.ofNat 16 v.toNat }) rfl
        refine ⟨fun _ => ?_, fun h => absurd h (by decide), fun m _ h => csrRead_budget_other s p c _ h,
          State.getByte_modCell s p _ rfl, fun b _ => hh b, ?_⟩
        · have h16 : v.toNat < 2 ^ 16 := of_decide_eq_true hl
          show dwn ((s.modCell p _).cell p).mbud.toNat = v
          rw [State.cell_modCell_same]
          refine BitVec.eq_of_toNat_eq ?_
          simp only [dwn, BitVec.toNat_ofNat]
          omega
        · rw [hh]
          exact ⟨rfl, rfl, rfl, rfl, rfl, rfl, rfl, rfl⟩
  · have below : ∀ k : Nat, decide (v.toNat < k) = true ↔ v.toNat < k := fun _ => decide_eq_true_iff
    refine ⟨below _, fun m hm => ?_, below _, fun m hm => ?_, ?_, csrLegal_frame_ctx s v, csrLegal_frame_cond s v, below _, below _⟩
    · simp only [List.mem_cons, List.not_mem_nil, or_false] at hm
      rcases hm with rfl | rfl | rfl <;> simp [csrLegal]
    · simp only [List.mem_cons, List.not_mem_nil, or_false] at hm
      rcases hm with rfl | rfl | rfl <;> rfl
    · simp [csrLegal, fld]
end

section
/-! PROOFS. The return from a trap (R40, R47, R48, R96). -/
set_option Elab.async false
namespace Sys2Proof.Machine
open Sys2Proof Sys2Proof.Claim

/-! ### The checks of the frame header (R48 step 1) -/

/-- A part of a byte string that is zero, by its places; behind the string's end there are zeros. -/
theorem all_zero_iff (bs : List Byte) (k n : Nat) :
    ((bs.drop k).take n).all (· == 0) = true ↔ ∀ i, k ≤ i → i < k + n → bs.getD i 0 = 0 := by
  simp only [List.all_eq_true, beq_iff_eq]
  constructor
  · intro h i hk hn
    by_cases hi : i < bs.length
    · have : bs[i] ∈ (bs.drop k).take n := by
        rw [List.mem_iff_getElem]
        exact ⟨i - k, by simp only [List.length_take, List.length_drop]; omega, by simp [Nat.add_sub_cancel' hk]⟩
      simpa [List.getD, hi] using h _ this
    · simp [List.getD, List.getElem?_eq_none (Nat.le_of_not_lt hi)]
  · intro h b hb
    obtain ⟨i, hi, rfl⟩ := List.mem_iff_getElem.mp hb
    simp only [List.length_take, List.length_drop] at hi
    have := h (k + i) (by omega) (by omega)
    rw [List.getD, List.getElem?_eq_getElem (by omega), Option.getD_some] at this
    simpa using this

theorem tstatLegal_iff (t : DWord) :
    tstatLegal t = true ↔ t.toNat < 2 ^ 11 ∧ t.toNat / 2 ^ 4 % 2 ^ 4 = 0 ∧ t.toNat % 2 = 0 := by
  have hb : (!bitOf t.toNat 0) = true ↔ t.toNat % 2 = 0 := by simp [bitOf]
  simp only [tstatLegal, Bool.and_eq_true, decide_eq_true_eq, beq_iff_eq, hb, and_assoc]
  rfl

/-- The checks of R48 on a header. -/
theorem frameLegal_iff (s : State) (a : AgentId) (hdr : List Byte) :
    frameLegal s a hdr = true ↔ r48Legal (s.hart a).tstat hdr (repAt s a (s.hart a).tpc) := by
  have hmid := all_zero_iff hdr 2 6
  have hend := all_zero_iff hdr 32 32
  unfold frameLegal r48Legal repAt
  dsimp only
  cases s.fetchWord a (s.hart a).tpc with
  | error e =>
    simp only [Bool.and_eq_true, tstatLegal_iff, decide_eq_true_eq, hmid, hend, and_assoc]
    simp
  | ok r =>
    obtain ⟨_, w⟩ := r
    have hcount : (if (bitOf (s.hart a).tstat.toNat 1 && fld w 31 26 == 0x1A) = true then
          (decide (1 ≤ (hdr.getD 1 0).toNat) && decide ((hdr.getD 1 0).toNat ≤ repCount w)) else true) = true ↔
        ∀ c, (if fld w 31 26 = 0x1A then some (fld w 25 20 + 1) else none) = some c → (s.hart a).tstat.toNat / 2 % 2 = 1 →
          1 ≤ (hdr.getD 1 0).toNat ∧ (hdr.getD 1 0).toNat ≤ c := by
      by_cases hw : fld w 31 26 = 0x1A
      · by_cases hb : (s.hart a).tstat.toNat / 2 % 2 = 1 <;> simp [hw, hb, bitOf, repCount]
      · simp [hw]
    simp only [Bool.and_eq_true, tstatLegal_iff, decide_eq_true_eq, hmid, hend, and_assoc, ← hcount]

/-! ### A replayed addition -/

/-- A part of a part. -/
theorem piece_piece (bs : List Byte) {o n o' n' : Nat} (h : o' + n' ≤ n) : piece (piece bs o n) o' n' = piece bs (o + o') n' := by
  simp only [piece, List.drop_take, List.take_take, List.drop_drop]
  rw [Nat.min_eq_left (by omega)]

/-- A scalar operand that a frame entry has captured; a register that it names is looked at too (R272). -/
theorem readX_captured {w : Work} {c : Capt} (i : Nat) {f : XOp} (hc : w.hart.capt = some c) (hframe : c.frame = true)
    (hr : ∀ r, f = .reg r → r.val ∉ w.hart.badRegs) : readX w i f = .ok (dwn (leNat ((c.slots.getD i []).take 8)), w) := by
  have hslot : w.hart.slot i = some (c.slots.getD i []) := by simp [Hart.slot, hc]
  have hlook : w.hart.frameReg 0 f = .ok () := by
    cases f with
    | reg r => simp [Hart.frameReg, hc, hframe, badReg_eq, hr r rfl]
    | port q => simp [Hart.frameReg, hc]
  simp only [readX, hslot, hlook]
  rfl

/-- An add of a frame entry adds its captured operands, whatever its predicate (R48). -/
theorem add_captured {s : State} {c : Capt} {d : Fin 24} {x y : XOp} (g : Pg) (hc : (s.hart s.cur).capt = some c)
    (hframe : c.frame = true) (hd : d ≠ 0) (hr : ∀ r : Fin 24, (x = .reg r ∨ y = .reg r) → r.val ∉ (s.hart s.cur).badRegs) :
    runInner (.add (.reg d) x y g) s =
      .next ((s.modHart s.cur (fun h => { h with
        badRegs := h.badRegs.filter (· != d.val)
        x := h.x.set d (dwn (leNat ((c.slots.getD 0 []).take 8)) + dwn (leNat ((c.slots.getD 1 []).take 8))) })).retireBy s.cur 4) := by
  have hb : (s.hart s.cur).badPred g = false := by simp [Hart.badPred, hc]
  have hp : (s.hart s.cur).pred g = true := by simp [Hart.pred, hc]
  have hf : ∀ l, fields s l = .ok (work s) := fun l => by simp [fields, hc]
  show execAdd (.reg d) x y g s = _
  unfold execAdd alu2
  refine governed_ok hb hp ?_
  rw [hf]
  simp only [bind, Except.bind, Work.out]
  rw [readX_captured (w := work s) 0 hc hframe (fun r h => hr r (.inl h))]
  simp only
  rw [readX_captured (w := work s) 1 hc hframe (fun r h => hr r (.inr h))]
  simp only [writeX_reg _ _ hd]
  rfl

/-! ### rett -/

theorem governedJump_on {s : State} {pg : Pg} (len : Nat) (body : State → Res State) (h : On s pg) :
    governedJump pg len body s = finish s (body s) := by
  simp [governedJump, badPred_of_on h, pred_of_on h]

theorem w0Of_rett (pg : Pg) : w0Of (.rett pg) = BitVec.ofNat 64 (0x6C000010 + pg.val) := by
  revert pg; decide +kernel

/-- The agent after a return (R48 steps 3 and 4), from the registers that the replay has left. -/
def Hart.returned (a : AgentId) (h : Hart) (repc : Nat) : Hart :=
  { h.retired a 4 with
    level := false, rep := bitOf h.tstat.toNat 1, rdh := bitOf h.tstat.toNat 2, replayed := 0
    repc := BitVec.ofNat 7 repc, pc := h.tpc }

theorem Hart.returned_eq (a : AgentId) (h : Hart) (repc : Nat) :
    h.returned a repc = { h with
      hold := none, pass := issuedPass h a.isCond, level := false, rep := bitOf h.tstat.toNat 1, rdh := bitOf h.tstat.toNat 2
      replayed := 0, repc := BitVec.ofNat 7 repc, pc := h.tpc } := by
  rw [Hart.returned, Hart.retired_frame]

@[simp] theorem State.hart_doneWith (s : State) (a b : AgentId) : (s.doneWith a).hart b = s.hart b := by
  unfold State.doneWith
  split
  · rfl
  · split
    · rfl
    · rw [State.hart_modCond _ _ _ (by rfl), State.hart_modCell _ _ _ (by rfl)]

@[simp] theorem State.getByte_doneWith (s : State) (a : AgentId) (y : Place) : (s.doneWith a).getByte y = s.getByte y := by
  unfold State.doneWith
  split
  · rfl
  · split
    · rfl
    · rw [State.getByte_modCond, State.getByte_modCell _ _ _ (by rfl)]

section
variable {s : State} {pg : Pg} (hon : On s pg)
include hon

theorem rett_refused (h : (s.hart s.cur).level = false ∨
    ¬ r48Legal (s.hart s.cur).tstat (s.frameBytes s.cur 64) (repAt s s.cur (s.hart s.cur).tpc)) :
    exec (.rett pg) s = .next (s.takeTrap s.cur (trapOf .badrett (BitVec.ofNat 64 (0x6C000010 + pg.val)) 0)) := by
  have hc : (s.hart s.cur).level = false ∨ frameLegal s s.cur (s.frameBytes s.cur 64) = false := by
    rwa [← frameLegal_iff, Bool.not_eq_true] at h
  show execRett pg s = _
  rw [execRett, governedJump_on _ _ hon, if_pos hc, w0Of_rett]
  rfl

/-- The state in which the entries of the frame have executed. -/
def State.replayedFrame (s : State) : State :=
  let n := ((s.frameBytes s.cur 64).getD 0 0).toNat
  let j := (s.hart s.cur).replayed - 1
  replay s.cur (if n = 0 then [] else s.frameBytes s.cur 2048) (n - j) j (s.modHart s.cur (fun h => { h with hold := none }))

/-- A return whose entries have all executed. -/
theorem rett_returns (hl : (s.hart s.cur).level = true)
    (hf : r48Legal (s.hart s.cur).tstat (s.frameBytes s.cur 64) (repAt s s.cur (s.hart s.cur).tpc))
    (hrun : (s.replayedFrame.hart s.cur).run = .running) (hhold : (s.replayedFrame.hart s.cur).hold = none) :
    exec (.rett pg) s = .next ((s.replayedFrame.modHart s.cur (fun h =>
      h.returned s.cur ((s.frameBytes s.cur 64).getD 1 0).toNat)).doneWith s.cur) := by
  have hc : ¬((s.hart s.cur).level = false ∨ frameLegal s s.cur (s.frameBytes s.cur 64) = false) := by
    rw [(frameLegal_iff s s.cur _).mpr hf, hl]; simp
  have hd : ¬((s.replayedFrame.hart s.cur).run ≠ .running ∨ (s.replayedFrame.hart s.cur).hold ≠ none) := by
    simp [hrun, hhold]
  show execRett pg s = _
  rw [execRett, governedJump_on _ _ hon, if_neg hc]
  exact congrArg (finish s) (if_neg hd)

end

/-- A frame without entries replays nothing. -/
theorem State.replayedFrame_empty {s : State} (h : ((s.frameBytes s.cur 64).getD 0 0).toNat = 0) :
    s.replayedFrame = s.modHart s.cur (fun h => { h with hold := none }) := by
  simp only [State.replayedFrame, h, Nat.zero_sub]
  rfl

/-- The first entry of a frame by the frame's own places (R47). -/
theorem replayEntry_first {k : Kind} {fr : List Byte} {i : Instr}
    (h : decode k true (leNat (piece fr 0x48 4)) (leNat (piece fr 0x4C 4)) (leNat (piece fr 0x50 4)) (leNat (piece fr 0x54 4)) = .ok i) :
    replayEntry k (piece fr 0x40 320) = some (i, [piece fr 0x60 96, piece fr 0xC0 96, piece fr 0x120 96]) := by
  have hp : ∀ o n, o + n ≤ 320 → piece (piece fr 0x40 320) o n = piece fr (0x40 + o) n := fun o n h => piece_piece fr h
  rw [replayEntry, hp 8 4 (by decide), hp 12 4 (by decide), hp 16 4 (by decide), hp 20 4 (by decide), hp 0x20 96 (by decide),
    hp 0x80 96 (by decide), hp 0xE0 96 (by decide), h]

/-- The agent at a frame's entry: it stands at the entry's address with its captured operands. -/
def State.atEntry (s : State) (a : AgentId) (e : List Byte) (slots : List Slot) : State :=
  s.modHart a (fun h => { h with capt := some ⟨slots, [], true⟩, pc := dwn (leNat (piece e 0 8)) })

/-- A last entry that completes leaves the agent what the instruction wrote; where the agent stands is as it was. -/
theorem hart_replay_last {s u : State} {a : AgentId} {bs : List Byte} {j : Nat} {i : Instr} {slots : List Slot}
    (he : replayEntry (kindOf a) (piece bs (0x40 + 320 * j) 320) = some (i, slots))
    (hi : runInner i (s.atEntry a (piece bs (0x40 + 320 * j) 320) slots) = .next u)
    (hrun : (u.hart a).run = .running) (hhold : (u.hart a).hold = none) :
    (replay a bs 1 j s).hart a = { u.hart a with
      capt := none, pc := (s.hart a).pc, pass := (s.hart a).pass, rep := (s.hart a).rep, repc := (s.hart a).repc } := by
  simp only [State.atEntry] at hi
  simp only [replay, he, hi, hrun, hhold, ne_eq, not_true_eq_false, if_false, if_true, State.hart_modHart_same]

/-- The agent once an add to register d has executed from a frame: `v` stands in d. -/
def Hart.added (h : Hart) (d : Fin 24) (v : DWord) : Hart :=
  { h with hold := none, badRegs := h.badRegs.filter (· != d.val), x := h.x.set d v }

theorem hart_replay_add {s : State} {bs : List Byte} {j : Nat} {slots : List Slot} {d : Fin 24} {x y : XOp} {g : Pg}
    (he : replayEntry (kindOf s.cur) (piece bs (0x40 + 320 * j) 320) = some (.add (.reg d) x y g, slots)) (hd : d ≠ 0)
    (hregs : ∀ r : Fin 24, (x = .reg r ∨ y = .reg r) → r.val ∉ (s.hart s.cur).badRegs)
    (hcapt : (s.hart s.cur).capt = none) (hrun : (s.hart s.cur).run = .running) :
    (replay s.cur bs 1 j s).hart s.cur = (s.hart s.cur).added d
      (dwn (leNat ((slots.getD 0 []).take 8)) + dwn (leNat ((slots.getD 1 []).take 8))) := by
  obtain ⟨v, hv⟩ : ∃ v, v = s.atEntry s.cur (piece bs (0x40 + 320 * j) 320) slots := ⟨_, rfl⟩
  have hcur : v.cur = s.cur := by rw [hv]; simp [State.atEntry]
  have hh : v.hart s.cur = { s.hart s.cur with
      capt := some ⟨slots, [], true⟩, pc := dwn (leNat (piece (piece bs (0x40 + 320 * j) 320) 0 8)) } := by
    rw [hv, State.atEntry, State.hart_modHart_same]
  have hi := add_captured (s := v) (d := d) (x := x) (y := y) g (by rw [hcur, hh]) rfl hd (by rw [hcur, hh]; exact hregs)
  rw [hv] at hi
  rw [hart_replay_last he hi] <;> rw [← hv, hcur, State.hart_retireBy, State.hart_modHart_same, Hart.retired_frame, hh]
  · simp only [Hart.added, ← hcapt]
  · exact hrun

/-- A frame whose one entry holds an add replays it with its captured operands. -/
theorem State.hart_replayedFrame_add {s : State} {d : Fin 24} {x y : XOp} {g : Pg} (hd : d ≠ 0)
    (h1 : ((s.frameBytes s.cur 64).getD 0 0).toNat = 1) (hr0 : (s.hart s.cur).replayed = 0)
    (hrun : (s.hart s.cur).run = .running)
    (hregs : ∀ r : Fin 24, (x = .reg r ∨ y = .reg r) → r.val ∉ (s.hart s.cur).badRegs)
    (hcapt : (s.hart s.cur).capt = none)
    (hdec : decode (kindOf s.cur) true (leNat (piece (s.frameBytes s.cur 2048) 0x48 4))
      (leNat (piece (s.frameBytes s.cur 2048) 0x4C 4)) (leNat (piece (s.frameBytes s.cur 2048) 0x50 4))
      (leNat (piece (s.frameBytes s.cur 2048) 0x54 4)) = .ok (.add (.reg d) x y g)) :
    s.replayedFrame.hart s.cur = (s.hart s.cur).added d
      (dwn (leNat (piece (s.frameBytes s.cur 2048) 0x60 8)) + dwn (leNat (piece (s.frameBytes s.cur 2048) 0xC0 8))) := by
  obtain ⟨fr, hfr⟩ : ∃ fr, fr = s.frameBytes s.cur 2048 := ⟨_, rfl⟩
  rw [← hfr] at hdec ⊢
  have hstart : s.replayedFrame = replay s.cur fr 1 0 (s.modHart s.cur (fun h => { h with hold := none })) := by
    simp only [State.replayedFrame, h1, hr0, hfr]
    rfl
  have hslot : ∀ o, (piece fr o 96).take 8 = piece fr o 8 := fun o => by simp [piece, List.take_take]
  obtain ⟨v, hv⟩ : ∃ v, v = s.modHart s.cur (fun h => { h with hold := none }) := ⟨_, rfl⟩
  have hcur : v.cur = s.cur := by rw [hv]; simp
  have hh : v.hart s.cur = { s.hart s.cur with hold := none } := by rw [hv, State.hart_modHart_same]
  have hr := hart_replay_add (s := v) (j := 0) (by rw [hcur]; exact replayEntry_first hdec) hd
    (by rw [hcur, hh]; exact hregs) (by rw [hcur, hh]; exact hcapt) (by rw [hcur, hh]; exact hrun)
  rw [hcur, hh] at hr
  rw [hstart, ← hv, hr, ← hslot 0x60, ← hslot 0xC0]
  rfl

end Sys2Proof.Machine
open Sys2Proof Sys2Proof.Machine Sys2Proof.Claim

/-- Settles O26: the header is checked, an empty frame replays nothing, and one entry that holds an add adds its captured
operands; then the registers are restored. -/
theorem rettRestoresWhatTheTrapSaved : Obligations.RettRestoresWhatTheTrapSaved := by
  unfold Obligations.RettRestoresWhatTheTrapSaved
  intro s pg hon hcapt hrun a h hdr restored
  refine ⟨rett_refused hon, fun hl hf => ⟨fun h0 => ?_, fun d x y g hd h1 hr0 hregs => ?_⟩⟩
  · have hs := State.replayedFrame_empty h0
    have hh : s.replayedFrame.hart s.cur = { s.hart s.cur with hold := none } := by rw [hs, State.hart_modHart_same]
    refine ⟨_, rett_returns hon hl hf (by rw [hh]; exact hrun) (by rw [hh]), ?_⟩
    rw [State.hart_doneWith, State.hart_modHart_same, Hart.returned_eq, hh]
    refine ⟨⟨rfl, rfl, rfl, BitVec.toNat_ofNat _ _, rfl, rfl, rfl, rfl⟩, fun y => ?_, rfl, rfl, rfl, rfl, rfl, rfl, rfl, rfl⟩
    rw [State.getByte_doneWith, State.getByte_modHart, hs, State.getByte_modHart]
  · intro fr slot _ hdec
    have hh := State.hart_replayedFrame_add hd h1 hr0 hrun hregs hcapt hdec
    refine ⟨_, rett_returns hon hl hf (by rw [hh]; exact hrun) (by rw [hh]; rfl), ?_⟩
    rw [State.hart_doneWith, State.hart_modHart_same, Hart.returned_eq, hh]
    exact ⟨⟨rfl, rfl, rfl, BitVec.toNat_ofNat _ _, rfl, rfl, rfl, rfl⟩,
      congrArg (fun v => h.x.set d v) (BitVec.ofNat_add _ _).symm, rfl⟩
end

section
/-! PROOFS. Steps (R49, R51, R75, R91, R370): which agent issues, and what its word executes as. -/
set_option Elab.async false
namespace Sys2Proof.Machine
open Sys2Proof Sys2Proof.Claim

/-! ### The choice of a cell (R49) -/

/-- Passes within half their range of a base compare by their distance from it. -/
theorem toInt_sub_of_near {p q b : DWord} (hp : (p - b).toNat < 2 ^ 63) (hq : (q - b).toNat < 2 ^ 63) :
    (p - q).toInt = ((p - b).toNat : Int) - ((q - b).toNat : Int) := by
  have e : p - q = (p - b) - (q - b) := by bv_omega
  rw [e, BitVec.toInt_sub, BitVec.toInt_eq_toNat_of_lt (by omega), BitVec.toInt_eq_toNat_of_lt (by omega)]
  exact Int.bmod_eq_of_le (by omega) (by omega)

/-- The better of a candidate so far and a context: the one whose pass is below. -/
def lowerPass (x : Cell) (acc : Option (Fin 4)) (c : Fin 4) : Option (Fin 4) :=
  match acc with
  | none => some c
  | some d => if passBelow x.ctx[c].pass x.ctx[d].pass then some c else some d

/-- The contexts of a cell that are offered, by their numbers. -/
def candidates (l : List (Fin 4)) : List (Fin 4) := (List.finRange 4).filter (fun c => l.contains c)

theorem mem_candidates {l : List (Fin 4)} {c : Fin 4} : c ∈ candidates l ↔ c ∈ l := by simp [candidates]

theorem chooseReady_eq (x : Cell) (l : List (Fin 4)) :
    chooseReady x l = match (candidates l).find? (fun c => 255 ≤ x.ctx[c].passed) with
      | some c => some c
      | none => (candidates l).foldl (lowerPass x) none := rfl

/-- What a search for the lowest pass finds is what it started with or one of the list. -/
theorem mem_of_foldl_lowerPass {x : Cell} {l : List (Fin 4)} {acc : Option (Fin 4)} {c : Fin 4}
    (h : l.foldl (lowerPass x) acc = some c) : acc = some c ∨ c ∈ l := by
  induction l generalizing acc with
  | nil => exact .inl h
  | cons d l ih =>
    rcases ih h with h | h
    · cases acc with
      | none => exact .inr (by simp [lowerPass] at h; simp [h])
      | some e =>
        simp only [lowerPass] at h
        split at h
        · exact .inr (by simp [Option.some.inj h])
        · exact .inl h
    · exact .inr (List.mem_cons_of_mem _ h)

/-- One step of the search keeps the lower of the two, by their distances from a base. -/
theorem lowerPass_spec {x : Cell} {b : DWord} {acc : Option (Fin 4)} {e : Fin 4} (he : (x.ctx[e].pass - b).toNat < 2 ^ 63)
    (hacc : ∀ f : Fin 4, acc = some f → (x.ctx[f].pass - b).toNat < 2 ^ 63) :
    ∃ m : Fin 4, lowerPass x acc e = some m ∧ (x.ctx[m].pass - b).toNat ≤ (x.ctx[e].pass - b).toNat ∧
      ∀ f : Fin 4, acc = some f → (x.ctx[m].pass - b).toNat ≤ (x.ctx[f].pass - b).toNat := by
  cases acc with
  | none => exact ⟨e, rfl, le_refl _, fun f hf => by cases hf⟩
  | some d =>
    have hd := toInt_sub_of_near he (hacc d rfl)
    by_cases hb : passBelow x.ctx[e].pass x.ctx[d].pass = true
    · have hlt : (x.ctx[e].pass - x.ctx[d].pass).toInt < 0 := of_decide_eq_true hb
      refine ⟨e, if_pos hb, le_refl _, fun f hf => ?_⟩
      cases hf
      omega
    · have hlt : ¬(x.ctx[e].pass - x.ctx[d].pass).toInt < 0 := fun h => hb (decide_eq_true h)
      refine ⟨d, if_neg hb, by omega, fun f hf => ?_⟩
      cases hf
      exact le_refl _

/-- By distances from a base, what the search finds is lowest of all. -/
theorem lowest_of_foldl_lowerPass {x : Cell} {b : DWord} {l : List (Fin 4)} {acc : Option (Fin 4)} {c : Fin 4}
    (hn : ∀ d : Fin 4, d ∈ l ∨ acc = some d → (x.ctx[d].pass - b).toNat < 2 ^ 63)
    (h : l.foldl (lowerPass x) acc = some c) :
    ∀ d : Fin 4, d ∈ l ∨ acc = some d → (x.ctx[c].pass - b).toNat ≤ (x.ctx[d].pass - b).toNat := by
  induction l generalizing acc with
  | nil =>
    rintro d (hd | hd)
    · cases hd
    · rw [Option.some.inj (hd.symm.trans h)]
  | cons e l ih =>
    obtain ⟨m, hm, hme, hmacc⟩ := lowerPass_spec (hn e (by simp)) (fun f hf => hn f (.inr hf))
    rw [List.foldl_cons, hm] at h
    have hnear : ∀ d : Fin 4, d ∈ l ∨ some m = some d → (x.ctx[d].pass - b).toNat < 2 ^ 63 := by
      rintro d (hd | hd)
      · exact hn d (.inl (List.mem_cons_of_mem _ hd))
      · rw [← Option.some.inj hd]; exact hme.trans_lt (hn e (by simp))
    have hlow := ih hnear h
    rintro d (hd | hd)
    · rcases List.mem_cons.mp hd with rfl | hd
      · exact (hlow m (.inr rfl)).trans hme
      · exact hlow d (.inl hd)
    · exact (hlow m (.inr rfl)).trans (hmacc d hd)

/-- What the choice of a cell is (R49). -/
theorem chooseReady_spec {x : Cell} {l : List (Fin 4)} {c : Fin 4} (h : chooseReady x l = some c) :
    c ∈ l ∧ ((∃ d ∈ l, 255 ≤ x.ctx[d].passed) → 255 ≤ x.ctx[c].passed) ∧
      ((∀ d ∈ l, x.ctx[d].passed < 255) → (∃ b : DWord, ∀ d ∈ l, (x.ctx[d].pass - b).toNat < 2 ^ 63) →
        ∀ d ∈ l, 0 ≤ (x.ctx[d].pass - x.ctx[c].pass).toInt) := by
  rw [chooseReady_eq] at h
  split at h
  · rename_i e he
    cases h
    have hl := mem_candidates.mp (List.mem_of_find?_eq_some he)
    have hp : 255 ≤ x.ctx[c].passed := by simpa using List.find?_some he
    exact ⟨hl, fun _ => hp, fun hall => absurd (hall c hl) (by omega)⟩
  · rename_i hnone
    have hl : c ∈ l := by
      rcases mem_of_foldl_lowerPass h with h | h
      · cases h
      · exact mem_candidates.mp h
    refine ⟨hl, fun ⟨d, hd, hp⟩ => ?_, fun _ ⟨b, hb⟩ d hd => ?_⟩
    · exact absurd (decide_eq_true hp) (List.find?_eq_none.mp hnone d (mem_candidates.mpr hd))
    · have hlow := lowest_of_foldl_lowerPass (b := b) (fun e he => hb e (mem_candidates.mp (by simpa using he))) h d
        (.inl (mem_candidates.mpr hd))
      rw [toInt_sub_of_near (hb d hd) (hb c hl)]
      omega

/-! ### Who issues -/

/-- In a cell that has not issued in this cycle a context that is the choice goes on; any other leaves the marks alone. -/
theorem cellIssue_eq (go : AgentId → State → Out) {u : State} {p : Nat} (c : Fin 4) (hf : lastIssueOf u (.ctx p c) ≠ u.cycle + 1) :
    cellIssue go p (List.finRange 4) (some c) u =
      match chooseReady ((marked u p).cell p) (offered u p) with
      | none => .next (marked u p)
      | some d => if d = c then go (.ctx p d) (noteIssue ((marked u p).modCell p (fun x => x.passOver (offered u p) d)) (.ctx p d))
        else .next (marked u p) := by
  have hu : u.freshCycle (.ctx p 0) = u := if_neg hf
  simp only [cellIssue, hu, Option.all_some, beq_iff_eq, eq_comm (a := c)]
  rfl

/-- Executing at the pc begins with the agent made the current one. -/
theorem issueAt_cur (a : AgentId) (s : State) : issueAt a { s with cur := a } = issueAt a s := rfl

/-- An agent that may issue executes in the state that has counted its issue. -/
theorem issue_ready {u : State} {a : AgentId} (h : Ready u a) : issue a u = issueAt a (fetching u a) := by
  obtain ⟨hf, h⟩ := h
  cases a with
  | ctx p c =>
    show cellIssue issueAt p (List.finRange 4) (some c) u = _
    rw [cellIssue_eq issueAt c hf, h]
    simp only [if_true, fetching]
    exact (issueAt_cur _ _).symm
  | cond k =>
    obtain ⟨hrun, hmay⟩ := h
    have hu : u.freshCycle (.cond k) = u := if_neg hf
    have hn : ¬((u.hart (.cond k)).run ≠ .running ∨ u.mayIssue (.cond k) = false) := by simp [hrun, hmay]
    show condIssue issueAt (.cond k) u = _
    rw [condIssue, if_neg hn, hu]
    simp only [fetching]
    rw [issueAt_cur]
    split <;> rfl

/-- A second issue of a cell or a conductor in one cycle comes in the next. -/
theorem issue_again {u : State} {a : AgentId} (hl : lastIssueOf u a = u.cycle + 1)
    (hc : a.isCond = true → (u.hart a).run = .running ∧ u.mayIssue a = true) (hr : Ready (passCycle u) a) :
    issue a u = issue a (passCycle u) := by
  obtain ⟨hf, h⟩ := hr
  cases a with
  | ctx p c =>
    have hu : u.freshCycle (.ctx p 0) = passCycle u := if_pos hl
    have ht : (passCycle u).freshCycle (.ctx p 0) = passCycle u := if_neg hf
    simp only [issue, agentIssue, cellIssue, hu, ht]
  | cond k =>
    obtain ⟨hrun, hmay⟩ := hc rfl
    obtain ⟨hrun', hmay'⟩ := h
    have hu : u.freshCycle (.cond k) = passCycle u := if_pos hl
    have ht : (passCycle u).freshCycle (.cond k) = passCycle u := if_neg hf
    simp [issue, agentIssue, condIssue, hu, ht, hrun, hmay, hrun', hmay']

/-- A move that has an agent issue. -/
theorem step_issue {s : State} {a : AgentId} {r : List Move} (h : s.agenda = .issue a :: r) :
    step s = issue a { s with agenda := r } := by simp only [step, nextMove, h]

theorem step_ready {s : State} {a : AgentId} {r : List Move} (h : s.agenda = .issue a :: r)
    (hr : Ready { s with agenda := r } a) : step s = issueAt a (fetching { s with agenda := r } a) :=
  (step_issue h).trans (issue_ready hr)

theorem step_issue_next (t : State) (a : AgentId) : step { t with agenda := .issue a :: t.agenda } = issue a t := rfl

theorem issueAt_eq (a : AgentId) (s : State) (hs : s.cur = a) :
    issueAt a s = match s.handlerOf a with
      | some (g, n, i, r) => if (s.hart a).pc = dwn r.loopAt then dispatchTurn a g n i r s else issueWord a s
      | none => issueWord a s := by
  subst hs; rfl

theorem cur_fetching (u : State) (a : AgentId) : (fetching u a).cur = a := by cases a <;> rfl

/-! ### What the word executes as -/

/-- Outside a unit, words that decode execute. -/
theorem issueWord_fetched {f s1 : State} {a : AgentId} {i : Instr} (hr : (f.hart a).rep = false) (hf : Fetches f a s1 (.ok i)) :
    issueWord a f = execAfter a i (runWord a i s1) s1 := by
  rcases hf with ⟨w0, hw, hrep, hlong, hd⟩ | ⟨w0, s0, bs, hw, hmaj, h16, hb, hd⟩
  · have hl : ¬(fld w0 31 26 = 0x3F ∧ ((f.hart a).pc.toNat % 16 == 0) = true) := by simpa using hlong
    simp only [issueWord, hw, if_neg hrep, hr, Bool.false_eq_true, if_false, if_neg hl, ← hd]
  · have hrep : ¬ fld w0 31 26 = 0x1A := by rw [hmaj]; decide
    have hl : fld w0 31 26 = 0x3F ∧ ((f.hart a).pc.toNat % 16 == 0) = true := by simp [hmaj, h16]
    simp only [issueWord, hw, if_neg hrep, hr, Bool.false_eq_true, if_false, if_pos hl, hb, ← hd]

theorem execAfter_hazard {a : AgentId} {i : Instr} {run : Out} {s : State} (h : hazard s a i = true) :
    execAfter a i run s = .next (s.holdBy a .hazard) := if_pos h

/-- Without unfinished instructions and bytes read early an instruction runs as it is. -/
theorem execAfter_alone {a : AgentId} {i : Instr} (run : Out) {s : State} (hf : (s.hart a).flight = []) (he : (s.hart a).early = []) :
    execAfter a i run s = run := by
  simp [execAfter, hazard, hf, he]

/-- Bytes read early are kept or forgotten as log entry 5 says. -/
theorem runsAs_execAfter {s s1 : State} {a : AgentId} {i : Instr} {o : Out} (hs : step s = execAfter a i o s1)
    (h : hazard s1 a i = false) : RunsAs s s1 a i o := by
  rw [RunsAs, hs]
  constructor
  · intro he
    have : ((s1.hart a).early.isEmpty || keepsEarly i) = true := by
      rcases he with he | he <;> simp [he]
    simp [execAfter, h, this]
  · rintro he hk t rfl
    have : ((s1.hart a).early.isEmpty || keepsEarly i) = false := by simp [he, hk]
    simp [execAfter, h, this]

theorem runWord_plain {a : AgentId} (i : Instr) {s : State} (h : s.handlerOf a = none) : runWord a i s = exec i s := by
  simp [runWord, h]

theorem runWord_ends {a : AgentId} {s : State} {g n k : Nat} {x : Replica} (pg : Pg) (h : s.handlerOf a = some (g, n, k, x)) :
    runWord a (.ends pg) s = backToLoop x pg s := by
  simp [runWord, h]

theorem runWord_other {a : AgentId} {i : Instr} {s : State} (h : ∀ pg, i ≠ .ends pg) : runWord a i s = exec i s := by
  unfold runWord
  split
  · rename_i pg _
    exact absurd rfl (h pg)
  · rfl

end Sys2Proof.Machine
open Sys2Proof Sys2Proof.Machine Sys2Proof.Claim

/-- Settles O4: an issue is `issueAt` in the state that has counted it; that decodes and executes the word, or takes a turn of a
loop; the choice of a cell and the events stand in lemmas of their own. -/
theorem stepRunsTheDecodedInstruction : Obligations.StepRunsTheDecodedInstruction := by
  unfold Obligations.StepRunsTheDecodedInstruction
  refine ⟨?_, ?_, ?_, ?_, ⟨?_, ?_, ?_⟩, ?_⟩
  · intro s s1 a r i hag u f hr hrep hf h1 hi
    have hs : step s = execAfter a i (exec i s1) s1 := by
      rw [step_ready hag hr, issueAt_eq a _ (cur_fetching _ a), hf, ← runWord_plain i h1]
      exact issueWord_fetched hrep hi
    exact ⟨runsAs_execAfter hs, fun h => hs.trans (execAfter_hazard h)⟩
  · intro s s1 a r w0 i hag u f hr hf hw hmaj hfl hearly
    have hs : step s = issueWord a f := by rw [step_ready hag hr, issueAt_eq a _ (cur_fetching _ a), hf]
    refine ⟨fun hrep => ?_, fun hrep hd => ?_⟩
    · rw [hs]
      simp only [issueWord, hw, hmaj, if_true, hrep]
      exact execAfter_alone _ hfl hearly
    · rw [hs]
      simp only [issueWord, hw, hmaj, if_true, hrep, Bool.false_eq_true, if_false, hd]
      exact execAfter_alone _ hfl hearly
  · intro s s1 a r i g n k x hag u f hr hrep hf
    have hs : step s = if (f.hart a).pc = dwn x.loopAt then dispatchTurn a g n k x f else issueWord a f := by
      rw [step_ready hag hr, issueAt_eq a _ (cur_fetching _ a), hf]
    refine ⟨fun hpc => hs.trans (if_pos hpc), fun hpc h1 hi hz => ?_⟩
    have hw : step s = execAfter a i (runWord a i s1) s1 := (hs.trans (if_neg hpc)).trans (issueWord_fetched hrep hi)
    refine ⟨fun pg hpg => ?_, fun hne => ?_⟩
    · subst hpg
      rw [runWord_ends pg h1] at hw
      exact runsAs_execAfter hw hz
    · rw [runWord_other hne] at hw
      exact runsAs_execAfter hw hz
  · rintro s t a r hag hl hc rfl hr
    rw [step_issue hag, issue_again (u := { s with agenda := r }) hl hc hr]
    exact (step_issue_next _ a).symm
  · intro s k r hag hrun
    rw [step_issue hag]
    exact if_pos (.inl hrun)
  · intro s p c r hag u hl hc
    rw [step_issue hag]
    show cellIssue issueAt p (List.finRange 4) (some c) u = _
    rw [cellIssue_eq (u := u) issueAt c hl]
    split
    · rfl
    · rename_i d hd
      exact if_neg fun hdc => hc (by rw [hd, hdc])
  · exact fun x l c => chooseReady_spec
  · intro s i r hag hi
    have hs : step s = if (isEvent i && State.happens { s with agenda := r } i) = true then exec i { s with agenda := r }
        else .next { s with agenda := r } := by simp only [step, nextMove, hag]
    refine ⟨fun hh => ?_, fun p c hpc hn => ?_⟩
    · have : State.happens { s with agenda := r } i = true := by
        unfold State.happens
        split
        · exact hh _ _ rfl
        · rfl
      rw [hs, hi, this]
      rfl
    · subst hpc
      rw [hs, if_neg]
      rw [State.happens, hn]
      simp
end

section
/-! PROOFS. Values of the scalar functions (R28, R82 to R85): the model's number arithmetic as operations on words. -/
set_option Elab.async false
namespace Sys2Proof.Machine
open Sys2Proof Sys2Proof.Claim

/-! ### Fields, bits and signs -/

theorem bitOf_toNat {n : Nat} (a : BitVec n) (i : Nat) : bitOf a.toNat i = a.getLsbD i := by
  rw [bitOf, BitVec.getLsbD, Nat.testBit_eq_decide_div_mod_eq, Bool.beq_eq_decide_eq]

theorem sextInt_eq (v : Nat) : sextInt 32 v = (BitVec.ofNat 32 v).toInt := by
  rw [BitVec.toInt_eq_toNat_cond, BitVec.toNat_ofNat]
  simp only [sextInt]
  split_ifs <;> omega

theorem sext32_eq (v : Nat) : sext32 v = sx (BitVec.ofNat 32 v) := by
  rw [sext32, sextInt_eq]; rfl

theorem ofNat_toNat_lo (a : DWord) : BitVec.ofNat 32 a.toNat = lo a := rfl

theorem ofNat_fld_lo (a : DWord) : BitVec.ofNat 32 (fld a.toNat 31 0) = lo a := by
  apply BitVec.eq_of_toNat_eq
  simp [fld, lo]

theorem toNat_lo (a : DWord) : (lo a).toNat = fld a.toNat 31 0 := by simp [fld, lo]

theorem fld_amt (b : DWord) : fld b.toNat 5 0 = amt b := by simp [fld, amt]
theorem fld_amtw (b : DWord) : fld b.toNat 4 0 = amtw b := by simp [fld, amtw]

/-! ### Shifts -/

theorem shl64_eq (a : DWord) (n : Nat) : shl64 a n = a <<< n := by
  apply BitVec.eq_of_toNat_eq
  simp [shl64, dwn, Nat.shiftLeft_eq]

theorem shr64_eq (a : DWord) (n : Nat) : shr64 a n = a >>> n := by
  apply BitVec.eq_of_toNat_eq
  rw [BitVec.toNat_ushiftRight, Nat.shiftRight_eq_div_pow]
  exact Nat.mod_eq_of_lt (lt_of_le_of_lt (Nat.div_le_self _ _) a.isLt)

theorem sra64_eq (a : DWord) (n : Nat) : sra64 a n = a.sshiftRight n := by
  rw [BitVec.sshiftRight, Int.shiftRight_eq_div_pow]; rfl

/-- The bits that leave on the right come in on the left. -/
theorem rot64_eq (a : DWord) {n : Nat} (hn : n < 64) : rot64 a n = a.rotateRight n := by
  have hlow : a.toNat / 2 ^ n < 2 ^ (64 - n) := by
    rw [Nat.div_lt_iff_lt_mul (by positivity), ← pow_add, Nat.sub_add_cancel hn.le]
    exact a.isLt
  have hhigh : a.toNat % 2 ^ n * 2 ^ (64 - n) = a.toNat <<< (64 - n) % 2 ^ 64 := by
    rw [Nat.shiftLeft_eq, show 2 ^ 64 = 2 ^ n * 2 ^ (64 - n) by rw [← pow_add, Nat.add_sub_cancel' hn.le], Nat.mul_mod_mul_right]
  apply BitVec.eq_of_toNat_eq
  rw [BitVec.toNat_rotateRight, Nat.mod_eq_of_lt hn, Nat.shiftRight_eq_div_pow, ← hhigh, Nat.or_comm, Nat.mul_comm (a.toNat % 2 ^ n),
    ← Nat.two_pow_add_eq_or_of_lt hlow, rot64, dwn, BitVec.toNat_ofNat, Nat.mul_comm, Nat.add_comm]
  refine Nat.mod_eq_of_lt ?_
  have hm : a.toNat % 2 ^ n + 1 ≤ 2 ^ n := Nat.mod_lt _ (by positivity)
  calc 2 ^ (64 - n) * (a.toNat % 2 ^ n) + a.toNat / 2 ^ n
      < 2 ^ (64 - n) * (a.toNat % 2 ^ n + 1) := by rw [Nat.mul_succ]; omega
    _ ≤ 2 ^ (64 - n) * 2 ^ n := Nat.mul_le_mul_left _ hm
    _ = 2 ^ 64 := by rw [← pow_add, Nat.sub_add_cancel hn.le]

theorem amt_lt (b : DWord) : amt b < 64 := Nat.mod_lt _ (by decide)

theorem shl_eq (a b : DWord) : shl64 a (fld b.toNat 5 0) = a <<< amt b := by rw [fld_amt, shl64_eq]
theorem shr_eq (a b : DWord) : shr64 a (fld b.toNat 5 0) = a >>> amt b := by rw [fld_amt, shr64_eq]
theorem sra_eq (a b : DWord) : sra64 a (fld b.toNat 5 0) = a.sshiftRight (amt b) := by rw [fld_amt, sra64_eq]
theorem rot_eq (a b : DWord) : rot64 a (fld b.toNat 5 0) = a.rotateRight (amt b) := by rw [fld_amt, rot64_eq a (amt_lt b)]

/-! ### The w forms -/

theorem addw_eq (a b : DWord) : sext32 (a.toNat + b.toNat) = sx (lo a + lo b) := by
  rw [sext32_eq, BitVec.ofNat_add]; rfl

theorem subw_eq (a b : DWord) : sext32 (a - b).toNat = sx (lo a - lo b) := by
  rw [sext32_eq, ofNat_toNat_lo]
  congr 1
  apply BitVec.eq_of_toNat_eq
  simp only [lo, BitVec.toNat_setWidth, BitVec.toNat_sub]
  omega

theorem mulw_eq (a b : DWord) : sext32 (fld a.toNat 31 0 * fld b.toNat 31 0) = sx (lo a * lo b) := by
  rw [sext32_eq, BitVec.ofNat_mul, ofNat_fld_lo, ofNat_fld_lo]

theorem shlw_eq (a b : DWord) : sext32 (fld a.toNat 31 0 * 2 ^ fld b.toNat 4 0) = sx (lo a <<< amtw b) := by
  rw [sext32_eq, fld_amtw, ← toNat_lo]
  congr 1
  apply BitVec.eq_of_toNat_eq
  simp [Nat.shiftLeft_eq]

theorem shrw_eq (a b : DWord) : sext32 (fld a.toNat 31 0 / 2 ^ fld b.toNat 4 0) = sx (lo a >>> amtw b) := by
  rw [sext32_eq, fld_amtw, ← toNat_lo]
  congr 1
  apply BitVec.eq_of_toNat_eq
  rw [BitVec.toNat_ushiftRight, Nat.shiftRight_eq_div_pow]
  exact Nat.mod_eq_of_lt (lt_of_le_of_lt (Nat.div_le_self _ _) (lo a).isLt)

theorem sraw_eq (a b : DWord) : dw (sextInt 32 a.toNat / (2 ^ fld b.toNat 4 0 : Nat)) = sx ((lo a).sshiftRight (amtw b)) := by
  rw [sextInt_eq, ofNat_toNat_lo, fld_amtw, sx, BitVec.signExtend, BitVec.toInt_sshiftRight, Int.shiftRight_eq_div_pow]; rfl

/-! ### Products -/

/-- The high half of a word of 128 bits is the quotient of its signed value. -/
theorem high_ofInt (z : Int) : ((BitVec.ofInt 128 z) >>> 64).setWidth 64 = dw (z / (2 ^ 64 : Nat)) := by
  apply BitVec.eq_of_toNat_eq
  rw [BitVec.toNat_setWidth, BitVec.toNat_ushiftRight, BitVec.toNat_ofInt, Nat.shiftRight_eq_div_pow, dw, BitVec.toNat_ofInt]
  norm_num
  omega

theorem mulh_eq (a b : DWord) :
    dw (a.toInt * b.toInt / (2 ^ 64 : Nat)) = ((a.signExtend 128 * b.signExtend 128) >>> 64).setWidth 64 := by
  rw [← high_ofInt, BitVec.ofInt_mul]; rfl

theorem mulhu_eq (a b : DWord) :
    dwn (a.toNat * b.toNat / 2 ^ 64) = ((a.setWidth 128 * b.setWidth 128) >>> 64).setWidth 64 := by
  have hp : a.toNat * b.toNat < 2 ^ 128 := (Nat.mul_lt_mul'' a.isLt b.isLt).trans_eq (by decide)
  apply BitVec.eq_of_toNat_eq
  rw [BitVec.toNat_setWidth, BitVec.toNat_ushiftRight, BitVec.toNat_mul, BitVec.toNat_setWidth, BitVec.toNat_setWidth,
    Nat.mod_eq_of_lt (a.isLt.trans (by decide)), Nat.mod_eq_of_lt (b.isLt.trans (by decide)), Nat.shiftRight_eq_div_pow,
    Nat.mod_eq_of_lt hp]
  rfl

/-! ### Division (R28) -/

theorem div64_eq (a b : DWord) : div64 a b = r28div a b := by
  rw [div64, r28div]
  split_ifs with hb hm
  · rfl
  · obtain ⟨ha, hb'⟩ := hm
    rw [ha, hb', ← BitVec.ofInt_toInt (x := a), ha]
    decide
  · rfl

theorem rem64_eq (a b : DWord) : rem64 a b = r28rem a b := by
  rw [rem64, r28rem]
  split_ifs with hb hm
  · rfl
  · rw [hm.1, hm.2]
    decide
  · rfl

theorem divu64_eq (a b : DWord) : divu64 a b = r28divu a b := rfl
theorem remu64_eq (a b : DWord) : remu64 a b = r28remu a b := rfl

/-! ### Comparisons -/

theorem min_eq (a b : DWord) : (if a.toInt < b.toInt then a else b) = if a.slt b then a else b := by
  simp [BitVec.slt_eq_decide]

theorem minu_eq (a b : DWord) : (if a.toNat < b.toNat then a else b) = if a.ult b then a else b := by
  simp [BitVec.ult_eq_decide]

theorem max_eq (a b : DWord) : (if b.toInt < a.toInt then a else b) = if a.slt b then b else a := by
  rw [BitVec.slt_eq_decide]
  simp only [decide_eq_true_eq]
  split_ifs with h1 h2 h2
  · omega
  · rfl
  · rfl
  · exact BitVec.eq_of_toInt_eq (by omega)

theorem maxu_eq (a b : DWord) : (if b.toNat < a.toNat then a else b) = if a.ult b then b else a := by
  rw [BitVec.ult_eq_decide]
  simp only [decide_eq_true_eq]
  split_ifs with h1 h2 h2
  · omega
  · rfl
  · rfl
  · exact BitVec.eq_of_toNat_eq (by omega)

theorem decide_le_slt (a b : DWord) : decide (b.toInt ≤ a.toInt) = !a.slt b := by
  rw [BitVec.slt_eq_decide, ← decide_not]
  simp

theorem decide_le_ult (a b : DWord) : decide (b.toNat ≤ a.toNat) = !a.ult b := by
  rw [BitVec.ult_eq_decide, ← decide_not]
  simp

theorem decide_ne_bne {n : Nat} (a b : BitVec n) : decide (a ≠ b) = (a != b) := by
  by_cases h : a = b <;> simp [h]

/-! ### Bits counted and reversed -/

/-- The leading zeros of the low `n` bits are the place of the first one among them, from the top. -/
theorem clzGo_eq (a : DWord) {n : Nat} (hn : n ≤ 64) :
    clzGo a.toNat n = (List.range' (64 - n) (n + 1)).findIdx (fun i => i == 64 || a.getLsbD (63 - i)) := by
  induction n with
  | zero => simp [clzGo, List.findIdx_cons]
  | succ n ih =>
    have hbit : ((64 - (n + 1) == 64) || a.getLsbD (63 - (64 - (n + 1)))) = a.getLsbD n := by
      rw [show 63 - (64 - (n + 1)) = n by omega, beq_false_of_ne (by omega), Bool.false_or]
    rw [List.range'_succ, List.findIdx_cons, hbit, show 64 - (n + 1) + 1 = 64 - n by omega, ← ih (by omega), clzGo, bitOf_toNat]
    cases a.getLsbD n <;> rfl

theorem clz_eq (a : DWord) : dwn (clz64 a) = BitVec.ofNat 64 ((List.range 65).findIdx (fun n => n == 64 || a.getLsbD (63 - n))) := by
  rw [clz64, clzGo_eq a (le_refl 64), List.range_eq_range']; rfl

theorem popGo_eq (a : DWord) (n : Nat) : popGo a.toNat n = (List.range n).countP (fun i => a.getLsbD i) := by
  induction n with
  | zero => rfl
  | succ n ih =>
    rw [List.range_succ, List.countP_append, ← ih, popGo, bitOf_toNat]
    cases h : a.getLsbD n <;> simp [b2n, h]

theorem popc_eq (a : DWord) : dwn (popc64 a) = BitVec.ofNat 64 ((List.range 64).countP (fun n => a.getLsbD n)) := by
  rw [popc64, popGo_eq]; rfl

/-- The low `n` bits reversed stand in the top `n` places. -/
theorem brevGo_eq (a : DWord) {n : Nat} (hn : n ≤ 64) : ∃ q, brevGo a.toNat n = 2 ^ (64 - n) * q ∧
    ∀ i, q.testBit i = (decide (i < n) && a.getLsbD (n - 1 - i)) := by
  induction n with
  | zero => exact ⟨0, by simp [brevGo], by simp⟩
  | succ n ih =>
    obtain ⟨q, hq, hbits⟩ := ih (by omega)
    have hlow : b2n (a.getLsbD n) < 2 ^ 1 := by cases a.getLsbD n <;> decide
    refine ⟨2 ^ 1 * q + b2n (a.getLsbD n), ?_, fun i => ?_⟩
    · rw [brevGo, bitOf_toNat, hq, show 64 - n = 63 - n + 1 by omega, show 64 - (n + 1) = 63 - n by omega]
      ring
    · rw [Nat.testBit_two_pow_mul_add _ hlow]
      cases i with
      | zero => cases h : a.getLsbD n <;> simp [b2n, h]
      | succ i => simp [hbits, show n - (i + 1) = n - 1 - i by omega]

theorem brev64_eq (a : DWord) : brev64 a = a.reverse := by
  obtain ⟨q, hq, hbits⟩ := brevGo_eq a (le_refl 64)
  apply BitVec.eq_of_getLsbD_eq
  intro i hi
  rw [brev64, hq, dwn, BitVec.getLsbD_ofNat, BitVec.getLsbD_reverse, BitVec.getMsbD]
  simp [hi, hbits]

/-! ### Immediates (R83, R84) -/

/-- lih: the immediate above the low half. -/
theorem lih_eq (imm : BitVec 21) (v : DWord) :
    dwn (fld (dw imm.toInt).toNat 31 0 * 2 ^ 32 + v.toNat % 2 ^ 32) = imm.signExtend 32 ++ lo v := by
  have himm : fld (dw imm.toInt).toNat 31 0 = (imm.signExtend 32).toNat := by
    rw [dw, BitVec.signExtend, BitVec.toNat_ofInt, BitVec.toNat_ofInt, fld]
    norm_num
    omega
  have hlo : v.toNat % 2 ^ 32 = (lo v).toNat := by simp [lo]
  have hlt := (imm.signExtend 32).isLt
  apply BitVec.eq_of_toNat_eq
  rw [himm, hlo, BitVec.toNat_append, Nat.shiftLeft_eq, Nat.mul_comm, Nat.two_pow_add_eq_or_of_lt (lo v).isLt]
  refine Nat.mod_eq_of_lt ?_
  rw [← Nat.two_pow_add_eq_or_of_lt (lo v).isLt]
  have := (lo v).isLt
  omega

end Sys2Proof.Machine
end

section
/-! PROOFS. What operands leave (R31 to R35, R81): scalar, predicate and mask sources and destinations change the ports, one
register and the state behind the ports. -/
set_option Elab.async false
namespace Sys2Proof.Machine
open Sys2Proof Sys2Proof.Claim

/-! ### The frame of an instruction with one destination -/

/-- An agent's registers but the destination `d`, the ports, the marks of uncorrectable registers, and what every issue moves. -/
structure HartKept (d : Dest) (g h : Hart) : Prop where
  rest : h = { g with
    x := h.x, p := h.p, m := h.m, ports := h.ports, badRegs := h.badRegs, pc := h.pc, pass := h.pass, hold := h.hold
    rep := h.rep, repc := h.repc }
  x : ∀ r : Fin 24, (∀ r', d = .x (.reg r') → r' ≠ r) → h.x[r] = g.x[r]
  p : ∀ r : Fin 8, (∀ r', d = .p (.reg r') → r' ≠ r) → h.p[r] = g.p[r]
  m : ∀ r : Fin 8, (∀ r', d = .m (.reg r') → r' ≠ r) → h.m[r] = g.m[r]

theorem HartKept.refl (d : Dest) (g : Hart) : HartKept d g g := ⟨rfl, fun _ _ => rfl, fun _ _ => rfl, fun _ _ => rfl⟩

theorem HartKept.trans {d : Dest} {g h k : Hart} (a : HartKept d g h) (b : HartKept d h k) : HartKept d g k :=
  ⟨by rw [b.rest, a.rest], fun r hr => (b.x r hr).trans (a.x r hr), fun r hr => (b.p r hr).trans (a.p r hr),
    fun r hr => (b.m r hr).trans (a.m r hr)⟩

/-- Registers that keep the x, p and m files are kept whatever the destination. -/
theorem HartKept.of_files {d : Dest} {g h : Hart} (rest : h = { g with
    ports := h.ports, badRegs := h.badRegs, pc := h.pc, pass := h.pass, hold := h.hold, rep := h.rep, repc := h.repc }) :
    HartKept d g h := by
  have hx : h.x = g.x := by rw [rest]
  have hp : h.p = g.p := by rw [rest]
  have hm : h.m = g.m := by rw [rest]
  exact ⟨by rw [hx, hp, hm]; exact rest, fun r _ => by rw [hx], fun r _ => by rw [hp], fun r _ => by rw [hm]⟩

theorem HartKept.special {d : Dest} {g h : Hart} (a : HartKept d g h) : SameSpecial g h := by
  rw [a.rest]
  exact ⟨rfl, rfl, rfl, rfl, rfl, rfl, rfl, rfl, rfl, rfl, rfl, rfl, rfl, rfl, rfl, rfl, rfl⟩

theorem HartKept.files {d : Dest} {g h : Hart} (a : HartKept d g h) : h.fps = g.fps ∧ h.a = g.a ∧ h.w = g.w ∧ h.tl = g.tl := by
  rw [a.rest]
  exact ⟨rfl, rfl, rfl, rfl⟩

/-- The current agent is kept but for `d`; every byte and every other agent is as it was. -/
structure Kept (d : Dest) (s t : State) : Prop where
  cur : t.cur = s.cur
  bytes : SameBytes s t
  others : SameOthers s t
  hart : HartKept d (s.hart s.cur) (t.hart s.cur)

theorem Kept.refl (d : Dest) (s : State) : Kept d s s := ⟨rfl, fun _ => rfl, fun _ _ => rfl, .refl d _⟩

theorem Kept.trans {d : Dest} {s t u : State} (a : Kept d s t) (b : Kept d t u) : Kept d s u := by
  obtain ⟨bc, bb, bo, bh⟩ := b
  rw [a.cur] at bc bh
  exact ⟨bc, fun y => (bb y).trans (a.bytes y), fun k hk => (bo k (by rwa [a.cur])).trans (a.others k hk), a.hart.trans bh⟩

/-- A state with the same agents and bytes. -/
theorem Kept.of_same {d : Dest} {s t : State} (hc : t.cur = s.cur) (hh : ∀ a, t.hart a = s.hart a) (hb : SameBytes s t) :
    Kept d s t := ⟨hc, hb, fun a _ => hh a, by rw [hh]; exact .refl d _⟩

theorem Kept.modHart {d : Dest} (s : State) {f : Hart → Hart} (hf : HartKept d (s.hart s.cur) (f (s.hart s.cur))) :
    Kept d s (s.modHart s.cur f) :=
  ⟨by simp, fun y => by simp, fun b hb => State.hart_modHart_other s f hb, by rw [State.hart_modHart_same]; exact hf⟩

theorem Kept.modHart_work {d : Dest} {w : Work} {f : Hart → Hart} (hf : HartKept d w.hart (f w.hart)) : Kept d w.s (w.modHart f).s :=
  Kept.modHart w.s hf

theorem kept_modClause (d : Dest) (s : State) (q n : Nat) (f : Clause → Clause) : Kept d s (s.modClause q n f) :=
  .of_same (by simp) (by simp) (fun y => by simp)

theorem kept_retireBy (d : Dest) (s : State) (len : Nat) : Kept d s (s.retireBy s.cur len) :=
  Kept.modHart s (.of_files (by rw [Hart.retired_frame]))

theorem kept_jumpTo (d : Dest) (s : State) (pc : DWord) : Kept d s (s.jumpTo pc) := Kept.modHart s (.of_files rfl)

/-! ### Sources -/

theorem kept_of_onlyPortsRead {d : Dest} {s t : State} (h : OnlyPortsRead s t) : Kept d s t := by
  obtain ⟨hb, ho, hc, hh, -⟩ := h
  exact ⟨hc, hb, ho, .of_files (by rw [hh])⟩

theorem onlyPortsRead_refl (s : State) : OnlyPortsRead s s :=
  ⟨fun _ => rfl, fun _ _ => rfl, rfl, rfl, fun _ => rfl⟩

/-- A port as a source: the token that it gave already, or its head. -/
theorem onlyPortsRead_readPort {w w' : Work} {cls : Cls} {fld : Nat} {q : Fin 8} {t : Token}
    (h : readPort w cls fld q = .ok (t, w')) : OnlyPortsRead w.s w'.s := by
  cases hp : w.popped.find? (fun e => e.1 == q) with
  | none =>
    rw [readPort_fresh _ _ hp] at h
    cases hd : (w.hart.ports[q]).head cls fld q with
    | error e => rw [hd] at h; cases h
    | ok t' =>
      rw [hd] at h
      cases h
      exact onlyPortsRead_popHead w.s q
  | some e =>
    obtain ⟨q', t'⟩ := e
    simp only [readPort, hp] at h
    split at h
    · cases h; exact onlyPortsRead_refl _
    · cases h

/-- Reading an operand of a class changes ports alone. -/
def ReadsPorts {α : Type} {n : Nat} (rd : Work → Nat → Opnd n → Res (α × Work)) : Prop :=
  ∀ w i f v w', rd w i f = .ok (v, w') → OnlyPortsRead w.s w'.s

/-- A source operand of any class: a captured slot, a register, or a port. -/
def readVia {α : Type} {n : Nat} (cls : Cls) (slotVal : List Byte → α) (regVal : Hart → Fin n → α) (tokVal : Token → α)
    (w : Work) (i : Nat) (f : Opnd n) : Res (α × Work) :=
  match w.hart.slot i with
  | some bs => (w.hart.frameReg cls.num f).map (fun _ => (slotVal bs, w))
  | none =>
    match f with
    | .reg r => do
      badReg w.hart cls.num r.val
      pure (regVal w.hart r, w)
    | .port q => do
      let (t, w) ← readPort w cls (24 + q.val) q
      pure (tokVal t, w)

theorem ok_of_bind {ε α β : Type} {r : Except ε α} {f : α → Except ε β} {v : β} (h : (r >>= f) = .ok v) :
    ∃ u, r = .ok u ∧ f u = .ok v := by
  cases r with
  | error e => cases h
  | ok u => exact ⟨u, rfl, h⟩

theorem ok_of_map {ε α β : Type} {r : Except ε α} {f : α → β} {v : β} (h : r.map f = .ok v) : ∃ u, r = .ok u ∧ f u = v := by
  cases r with
  | error e => cases h
  | ok u => cases h; exact ⟨u, rfl, rfl⟩

theorem readsPorts_readVia {α : Type} {n : Nat} (cls : Cls) (slotVal : List Byte → α) (regVal : Hart → Fin n → α)
    (tokVal : Token → α) : ReadsPorts (readVia cls slotVal regVal tokVal) := by
  intro w i f v w' h
  unfold readVia at h
  split at h
  · obtain ⟨_, -, he⟩ := ok_of_map h
    cases he
    exact onlyPortsRead_refl _
  · split at h
    · obtain ⟨_, -, he⟩ := ok_of_bind h
      cases he
      exact onlyPortsRead_refl _
    · obtain ⟨⟨t, w1⟩, hr, he⟩ := ok_of_bind h
      cases he
      exact onlyPortsRead_readPort hr

theorem readX_eq_readVia : readX = readVia .x (fun bs => dwn (leNat (bs.take 8))) (fun h r => if r = 0 then 0 else h.x[r])
    Token.scalarVal := by
  funext w i f
  unfold readX readVia
  cases w.hart.slot i <;> cases f <;> rfl

theorem readP_eq_readVia : readP = readVia .p (fun bs => bitOf (leNat (bs.take 8)) 0) (fun h r => r = 0 || h.p[r])
    (fun t => t.scalarVal.getLsbD 0) := by
  funext w i f
  unfold readP readVia
  cases w.hart.slot i <;> cases f <;> rfl

theorem readM_eq_readVia : readM = readVia .m (fun bs => BitVec.ofNat 24 (leNat (bs.take 8))) (fun h r => h.m[r])
    (fun t => BitVec.ofNat 24 t.scalarVal.toNat) := by
  funext w i f
  unfold readM readVia
  cases w.hart.slot i <;> cases f <;> rfl

theorem readsPorts_readX : ReadsPorts readX := by rw [readX_eq_readVia]; exact readsPorts_readVia _ _ _ _
theorem readsPorts_readP : ReadsPorts readP := by rw [readP_eq_readVia]; exact readsPorts_readVia _ _ _ _
theorem readsPorts_readM : ReadsPorts readM := by rw [readM_eq_readVia]; exact readsPorts_readVia _ _ _ _

/-! ### Destinations -/

/-- Writing an operand of a class changes that operand alone, as a register or as a port. -/
def WritesDest {β : Type} {l : Nat} (dest : Opnd l → Dest) (wr : Work → Opnd l → β → Res Work) : Prop :=
  ∀ w f v w', wr w f v = .ok w' → Kept (dest f) w.s w'.s

/-- A scalar token has no flags (R24, R34). -/
theorem Kept.flags_zero {d : Dest} {s : State} {w : Work} (h : Kept d s w.s) : Kept d s (w.flags 0).s := by
  have hz : (w.hart.fps ||| 0) = w.hart.fps := BitVec.or_zero
  exact h.trans (Kept.modHart w.s (f := fun g => { g with fps := g.fps ||| 0 })
    (.of_files (congrArg (fun f => { w.hart with fps := f }) hz)))

theorem kept_setPort (d : Dest) (s : State) (q : Fin 8) (o : Port) : Kept d s (s.modHart s.cur (fun h => h.setPort q o)) :=
  Kept.modHart s (.of_files rfl)

theorem kept_pushBack (d : Dest) (w : Work) (q : Fin 8) (t : Token) : Kept d w.s (pushBack w q t).s := by
  rcases pushBack_cases w q t with h | ⟨g, n, i, f, h⟩
  · rw [h]; exact kept_setPort d w.s q _
  · rw [h]; exact (kept_setPort d w.s q _).trans (kept_modClause d _ g n _)

theorem kept_bindExtent (d : Dest) (s : State) (a : AgentId) (site : Site) : Kept d s (bindExtent s a site) := by
  unfold bindExtent
  split
  · split
    · split
      · exact kept_modClause d s _ _ _
      · exact .refl d s
    · exact .refl d s
  · exact .refl d s

theorem kept_pushBind (d : Dest) (o : Port) (s : State) (a : AgentId) : Kept d s (o.pushBind s a) := by
  unfold Port.pushBind
  split
  · exact kept_bindExtent d s a _
  · exact .refl d s

/-- A token that joins an output port: a handler's message, a channel's token or a pattern's. -/
theorem kept_pushOut {d : Dest} {w w' : Work} {p : Nat} {c : Fin 4} {q : Fin 8} {t : Token}
    (h : pushOut w p c q (t, 0) = .ok w') : Kept d w.s w'.s := by
  have setOrd (s : State) : Kept d s (s.modCell p (fun x => { x with ord := x.ord + 1 })) :=
    .of_same (by simp) (fun a => State.hart_modCell s p _ rfl a) (fun y => State.getByte_modCell s p _ rfl y)
  unfold pushOut at h
  dsimp only at h
  split at h
  · cases h
    exact ((kept_setPort d w.s q _).trans (kept_modClause d _ _ _ _)).flags_zero
  · split at h
    · split at h
      · cases h
      · cases h
        exact ((kept_setPort d w.s q _).trans (kept_modClause d _ _ _ _)).flags_zero
    · split at h
      · cases h
      · cases h
        exact ((kept_setPort d w.s q _).trans (setOrd _)).flags_zero

theorem kept_pushPort {d : Dest} {w w' : Work} {cls : Cls} {f : Nat} {q : Fin 8} {v : DWord}
    (h : pushPort w cls f q (.scalar v) = .ok w') : Kept d w.s w'.s := by
  cases hm : w.mayPush cls q with
  | false => rw [pushPort_refused f (.inl hm)] at h; cases h
  | true =>
    cases ha : w.s.cur with
    | cond k => simp only [pushPort, hm, ha] at h; cases h
    | ctx p c =>
      rw [pushPort_eq f ha hm rfl] at h
      split at h
      · cases h
        exact (kept_pushBack d w q _).flags_zero
      · split at h
        · cases h
        · cases hk : (w.hart.ports[q]).pushCheck w.s w.s.cur cls.num f q.val with
          | error e => rw [hk] at h; cases h
          | ok u =>
            rw [hk] at h
            exact (kept_pushBind d _ w.s w.s.cur).trans (kept_pushOut h)

theorem writesDest_writeX : WritesDest Dest.x writeX := by
  intro w f v w' h
  cases f with
  | port q => exact kept_pushPort h
  | reg r =>
    by_cases hr : r = 0
    · subst hr; cases h; exact .refl _ _
    · rw [writeX_reg w v hr] at h
      cases h
      apply Kept.modHart_work
      refine ⟨rfl, fun i hi => ?_, fun _ _ => rfl, fun _ _ => rfl⟩
      exact Vector.getElem_set_ne r.isLt i.isLt (Fin.val_ne_of_ne (hi r rfl))

theorem writesDest_writeP : WritesDest Dest.p writeP := by
  intro w f v w' h
  cases f with
  | port q => exact kept_pushPort h
  | reg r =>
    by_cases hr : r = 0
    · subst hr; cases h; exact .refl _ _
    · rw [writeP_reg w v hr] at h
      cases h
      apply Kept.modHart_work
      refine ⟨rfl, fun _ _ => rfl, fun i hi => ?_, fun _ _ => rfl⟩
      exact Vector.getElem_set_ne r.isLt i.isLt (Fin.val_ne_of_ne (hi r rfl))

theorem writesDest_writeM : WritesDest Dest.m writeM := by
  intro w f v w' h
  cases f with
  | port q => exact kept_pushPort h
  | reg r =>
    cases h
    apply Kept.modHart_work
    refine ⟨rfl, fun _ _ => rfl, fun _ _ => rfl, fun i hi => ?_⟩
    exact Vector.getElem_set_ne r.isLt i.isLt (Fin.val_ne_of_ne (hi r rfl))

end Sys2Proof.Machine
end

section
/-! PROOFS. Scalar, predicate and mask instructions (R81 to R85): each is one form of one or two sources, with its value. -/
set_option Elab.async false
namespace Sys2Proof.Machine
open Sys2Proof Sys2Proof.Claim

/-! ### The two forms -/

section
variable {α β γ : Type} {n m l : Nat} (ca cb cd : Cls) (rdA : Work → Nat → Opnd n → Res (α × Work))
  (rdB : Work → Nat → Opnd m → Res (β × Work))

/-- The effect of an instruction of one source and one destination. -/
def oneOp (wr : Work → Opnd l → β → Res Work) (g : α → β) (rd : Opnd l) (ra : Opnd n) (s : State) : Res State :=
  Work.out do
    let w ← fields s [ca.src ra, cd.dst rd]
    let (a, w) ← rdA w 0 ra
    wr w rd (g a)

/-- The effect of an instruction of two sources and one destination. -/
def twoOp (wr : Work → Opnd l → γ → Res Work) (g : α → β → γ) (rd : Opnd l) (ra : Opnd n) (rb : Opnd m) (s : State) : Res State :=
  Work.out do
    let w ← fields s [ca.src ra, cb.src rb, cd.dst rd]
    let (a, w) ← rdA w 0 ra
    let (b, w) ← rdB w 1 rb
    wr w rd (g a b)

end

section
variable {α β γ : Type} {n m l : Nat} {ca cb cd : Cls} {rdA : Work → Nat → Opnd n → Res (α × Work)}
  {rdB : Work → Nat → Opnd m → Res (β × Work)}

/-- What the model runs as `oneOp` under a true predicate: looked at, read, written, retired. -/
theorem looked_oneOp {wr : Work → Opnd l → β → Res Work} {g : α → β} {i : Instr} {rd : Opnd l} {ra : Opnd n} {pg : Pg} {s : State}
    (hx : exec i s = governed pg 4 (oneOp ca cd rdA wr g rd ra) s) (hon : On s pg) : Looked s i [ca.src ra, cd.dst rd]
      ((∀ e, rdA (work s) 0 ra = .error e → exec i s = stops s e) ∧
      ∀ a w1, rdA (work s) 0 ra = .ok (a, w1) →
        (∀ e, wr w1 rd (g a) = .error e → exec i s = stops s e) ∧ (∀ w2, wr w1 rd (g a) = .ok w2 → exec i s = retires w2 s 4)) := by
  rw [Looked, hx, governed_on 4 _ hon]
  refine ⟨fun e he => ?_, fun hl => ⟨fun e he => ?_, fun a w1 ha => ⟨fun e he => ?_, fun w2 he => ?_⟩⟩⟩
  · simp only [oneOp, he]; rfl
  · simp only [oneOp, hl, he, bind, Except.bind]; rfl
  · simp only [oneOp, hl, ha, he, bind, Except.bind]; rfl
  · simp only [oneOp, hl, ha, he, bind, Except.bind]; rfl

/-- What the model runs as `oneOp` follows its row of the table, where the values agree. -/
theorem oneToOne_of_oneOp {wr : Work → Opnd l → β → Res Work} {mk : Opnd l → Opnd n → Pg → Instr} {g f : α → β}
    (hv : ∀ a, g a = f a) (hx : ∀ rd ra pg s, exec (mk rd ra pg) s = governed pg 4 (oneOp ca cd rdA wr g rd ra) s) :
    OneToOne ca cd rdA wr mk f := by
  obtain rfl : g = f := funext hv
  exact fun s rd ra pg hon => looked_oneOp (hx rd ra pg s) hon

/-- What the model runs as `twoOp` follows its row of the table, where the values agree. -/
theorem twoToOne_of_twoOp {wr : Work → Opnd l → γ → Res Work} {mk : Opnd l → Opnd n → Opnd m → Pg → Instr} {g f : α → β → γ}
    (hv : ∀ a b, g a b = f a b)
    (hx : ∀ rd ra rb pg s, exec (mk rd ra rb pg) s = governed pg 4 (twoOp ca cb cd rdA rdB wr g rd ra rb) s) : TwoToOne ca cb cd rdA rdB wr mk f := by
  obtain rfl : g = f := funext fun a => funext (hv a)
  intro s rd ra rb pg hon
  rw [Looked, hx, governed_on 4 _ hon]
  refine ⟨fun e he => ?_, fun hl => ⟨fun e he => ?_, fun a w1 ha => ⟨fun e he => ?_, fun b w2 hb => ⟨fun e he => ?_, fun w3 he => ?_⟩⟩⟩⟩
  · simp only [twoOp, he]; rfl
  · simp only [twoOp, hl, he, bind, Except.bind]; rfl
  · simp only [twoOp, hl, ha, he, bind, Except.bind]; rfl
  · simp only [twoOp, hl, ha, hb, he, bind, Except.bind]; rfl
  · simp only [twoOp, hl, ha, hb, he, bind, Except.bind]; rfl

end

/-- A function of R82 of two sources. -/
theorem twoToOne_alu {mk : XOp → XOp → XOp → Pg → Instr} {g f : DWord → DWord → DWord}
    (hv : ∀ a b, g a b = f a b) (hx : ∀ rd ra rb pg s, exec (mk rd ra rb pg) s = alu2 rd ra rb pg g s) :
    TwoToOne .x .x .x readX readX writeX mk f := twoToOne_of_twoOp hv hx

/-- A function of R82 or R83 of one source. -/
theorem oneToOne_alu {mk : XOp → XOp → Pg → Instr} {g f : DWord → DWord}
    (hv : ∀ a, g a = f a) (hx : ∀ rd ra pg s, exec (mk rd ra pg) s = alu1 rd ra pg g s) :
    OneToOne .x .x readX writeX mk f := oneToOne_of_oneOp hv hx

/-- lih is a function of its own destination. -/
theorem exec_lih (rd : XOp) (imm : BitVec 21) (s : State) :
    exec (.lih rd imm) s = governed 0 4 (oneOp .x .x readX writeX (fun v => imm.signExtend 32 ++ lo v) rd rd) s := by
  simp only [← lih_eq]
  rfl

end Sys2Proof.Machine
open Sys2Proof Sys2Proof.Machine Sys2Proof.Claim

/-- Settles O15: every row is `alu2` or `alu1` with the row's value. -/
theorem aluFunctionsGiveTheValuesOfTheirTable : Obligations.AluFunctionsGiveTheValuesOfTheirTable := by
  unfold Obligations.AluFunctionsGiveTheValuesOfTheirTable
  simp only [r82two, r82one, List.forall_mem_cons, List.not_mem_nil, false_implies, implies_true, and_true]
  refine ⟨⟨?add, ?sub, ?and, ?or, ?xor, ?andn, ?shl, ?shr, ?sra, ?rot, ?addw, ?subw, ?shlw, ?shrw, ?sraw, ?mul, ?mulh, ?mulhu,
    ?mulw, ?div, ?divu, ?rem, ?remu, ?min, ?max, ?minu, ?maxu, ?slt, ?sltu, ?seq⟩, ?clz, ?popc, ?brev⟩
  case add | sub | and | or | xor | andn | mul => exact twoToOne_alu (fun _ _ => rfl) (fun _ _ _ _ _ => rfl)
  case shl => exact twoToOne_alu shl_eq (fun _ _ _ _ _ => rfl)
  case shr => exact twoToOne_alu shr_eq (fun _ _ _ _ _ => rfl)
  case sra => exact twoToOne_alu sra_eq (fun _ _ _ _ _ => rfl)
  case rot => exact twoToOne_alu rot_eq (fun _ _ _ _ _ => rfl)
  case addw => exact twoToOne_alu addw_eq (fun _ _ _ _ _ => rfl)
  case subw => exact twoToOne_alu subw_eq (fun _ _ _ _ _ => rfl)
  case shlw => exact twoToOne_alu shlw_eq (fun _ _ _ _ _ => rfl)
  case shrw => exact twoToOne_alu shrw_eq (fun _ _ _ _ _ => rfl)
  case sraw => exact twoToOne_alu sraw_eq (fun _ _ _ _ _ => rfl)
  case mulh => exact twoToOne_alu mulh_eq (fun _ _ _ _ _ => rfl)
  case mulhu => exact twoToOne_alu mulhu_eq (fun _ _ _ _ _ => rfl)
  case mulw => exact twoToOne_alu mulw_eq (fun _ _ _ _ _ => rfl)
  case div => exact twoToOne_alu div64_eq (fun _ _ _ _ _ => rfl)
  case divu => exact twoToOne_alu divu64_eq (fun _ _ _ _ _ => rfl)
  case rem => exact twoToOne_alu rem64_eq (fun _ _ _ _ _ => rfl)
  case remu => exact twoToOne_alu remu64_eq (fun _ _ _ _ _ => rfl)
  case min => exact twoToOne_alu min_eq (fun _ _ _ _ _ => rfl)
  case max => exact twoToOne_alu max_eq (fun _ _ _ _ _ => rfl)
  case minu => exact twoToOne_alu minu_eq (fun _ _ _ _ _ => rfl)
  case maxu => exact twoToOne_alu maxu_eq (fun _ _ _ _ _ => rfl)
  case slt | sltu | seq => exact twoToOne_alu (fun _ _ => rfl) (fun _ _ _ _ _ => rfl)
  case clz => exact oneToOne_alu clz_eq (fun _ _ _ _ => rfl)
  case popc => exact oneToOne_alu popc_eq (fun _ _ _ _ => rfl)
  case brev => exact oneToOne_alu brev64_eq (fun _ _ _ _ => rfl)

/-- Settles O16: every row is `alu1` with the row's value of the source and the immediate. -/
theorem immediateFormsGiveTheValuesOfTheirTable : Obligations.ImmediateFormsGiveTheValuesOfTheirTable := by
  unfold Obligations.ImmediateFormsGiveTheValuesOfTheirTable
  simp only [r83imm, r83shift, List.forall_mem_cons, List.not_mem_nil, false_implies, implies_true, and_true]
  refine ⟨⟨?addi, ?andi, ?ori, ?xori, ?slti, ?sltiu⟩, ?shli, ?shri, ?srai⟩
  case addi | andi | ori | xori | slti | sltiu => exact fun imm => oneToOne_alu (fun _ => rfl) (fun _ _ _ _ => rfl)
  case shli => exact fun sh => oneToOne_alu (fun a => shl64_eq a sh.toNat) (fun _ _ _ _ => rfl)
  case shri => exact fun sh => oneToOne_alu (fun a => shr64_eq a sh.toNat) (fun _ _ _ _ => rfl)
  case srai => exact fun sh => oneToOne_alu (fun a => sra64_eq a sh.toNat) (fun _ _ _ _ => rfl)

/-- Settles O17: p0 governs all three; lui and auipc only write, lih reads its own destination first. -/
theorem upperImmediateInstructionsPlaceTheirImmediate : Obligations.UpperImmediateInstructionsPlaceTheirImmediate := by
  unfold Obligations.UpperImmediateInstructionsPlaceTheirImmediate
  intro s rd imm up
  have hup : sext32 (imm.toNat * 2 ^ 11) = up := sext32_eq _
  have hon : On s 0 := .inl rfl
  have lui : exec (.lui rd imm) s = finish s ((Work.out (writeX (work s) rd up)).map (fun t => t.retireBy s.cur 4)) := by
    rw [← hup, ← governed_on 4 (fun s => Work.out (writeX (work s) rd (sext32 (imm.toNat * 2 ^ 11)))) hon]; rfl
  have auipc : exec (.auipc rd imm) s =
      finish s ((Work.out (writeX (work s) rd ((s.hart s.cur).pc + up))).map (fun t => t.retireBy s.cur 4)) := by
    rw [← hup, ← governed_on 4 (fun s => Work.out (writeX (work s) rd ((s.hart s.cur).pc + sext32 (imm.toNat * 2 ^ 11)))) hon]; rfl
  obtain ⟨hstop, hgo⟩ := looked_oneOp (exec_lih rd imm s) hon
  refine ⟨fun w h => by rw [lui, h]; rfl, fun e h => by rw [lui, h]; rfl, fun w h => by rw [auipc, h]; rfl,
    fun e h => by rw [auipc, h]; rfl, hstop, fun hl => ?_⟩
  obtain ⟨hread, hwrite⟩ := hgo hl
  exact ⟨hread, fun v w1 hv => (hwrite v w1 hv).symm⟩

/-- Settles O18: every row is a form of one or two sources with the row's value. -/
theorem predicateAndMaskFunctionsGiveTheirResults : Obligations.PredicateAndMaskFunctionsGiveTheirResults := by
  unfold Obligations.PredicateAndMaskFunctionsGiveTheirResults
  simp only [r85cmp, r85log, List.forall_mem_cons, List.not_mem_nil, false_implies, implies_true, and_true]
  refine ⟨⟨?peq, ?pne, ?plt, ?pge, ?pltu, ?pgeu⟩, ⟨?pand, ?por, ?pxor⟩, ?pnot, ?pmany, ?mset, ?mget, ?mnot⟩
  case pne => exact twoToOne_of_twoOp decide_ne_bne (fun _ _ _ _ _ => rfl)
  case peq | plt | pltu => exact twoToOne_of_twoOp (fun _ _ => rfl) (fun _ _ _ _ _ => rfl)
  case pge => exact twoToOne_of_twoOp decide_le_slt (fun _ _ _ _ _ => rfl)
  case pgeu => exact twoToOne_of_twoOp decide_le_ult (fun _ _ _ _ _ => rfl)
  case pand | por | pxor => exact twoToOne_of_twoOp (fun _ _ => rfl) (fun _ _ _ _ _ => rfl)
  case pmany => exact oneToOne_of_oneOp (fun a => (decide_ne_bne a 0).symm) (fun _ _ _ _ => rfl)
  case mget => exact oneToOne_of_oneOp (fun a => BitVec.ofNat_toNat 64 a) (fun _ _ _ _ => rfl)
  case pnot | mset | mnot => exact oneToOne_of_oneOp (fun _ => rfl) (fun _ _ _ _ => rfl)
end

section
/-! PROOFS. The frame of the scalar group (R81 to R85, R88, R89). -/
set_option Elab.async false
namespace Sys2Proof.Machine
open Sys2Proof Sys2Proof.Claim

/-! ### A stop is no completion -/

/-- At trap level 0 a trap raises the level; at level 1 it stops the agent. -/
theorem not_completed_takeTrap {s u : State} (t : TrapInfo) (h : u.hart s.cur = s.hart s.cur) : ¬ Completed s (u.takeTrap s.cur t) := by
  rintro ⟨-, hrun, -, hlevel⟩
  cases hl : (u.hart s.cur).level with
  | false =>
    rw [State.takeTrap_first t hl, State.hart_modHart_same, ← h, hl] at hlevel
    cases hlevel
  | true =>
    rw [State.takeTrap_nested t hl] at hrun
    cases ha : s.cur with
    | cond k =>
      rw [ha, State.nestedTrap_cond, State.hart_modHart_same] at hrun
      cases hrun
    | ctx p c =>
      rw [ha, State.nestedTrap_ctx, State.hart_sendRecord, State.hart_markNested, State.hart_modCell _ _ _ (by rfl),
        State.hart_modHart_same] at hrun
      cases hrun

theorem not_completed_stopBy (s : State) (e : Stop) : ¬ Completed s (s.stopBy s.cur e) := by
  have held (u : State) (x : Hold) : ¬ Completed s (u.holdBy s.cur x) := fun ⟨_, _, hh, _⟩ => by
    rw [State.hart_holdBy] at hh; cases hh
  cases e with
  | hold x => exact held s x
  | page m => exact held _ .page
  | trap t => exact not_completed_takeTrap t rfl
  | bad p t => exact not_completed_takeTrap t ((AsBefore.noteUe s p).hart s.cur)

/-! ### The frame of an outcome -/

/-- Where the instruction completes, it has changed nothing but `d`, ports, the pc and the pass. -/
def KeepsBut (d : Dest) (s : State) (o : Out) : Prop := ∀ t, o = .next t → Completed s t → Kept d s t

section
variable {d : Dest} {s : State}

theorem keepsBut_finish {r : Res State} (h : ∀ u, r = .ok u → Kept d s u) : KeepsBut d s (finish s r) := by
  intro t ht hc
  cases r with
  | ok u => cases ht; exact h t rfl
  | error e => cases ht; exact absurd hc (not_completed_stopBy s e)

variable {pg : Pg} {body : State → Res State} (h : ∀ u, body s = .ok u → Kept d s u)
include h

theorem keepsBut_governed : KeepsBut d s (governed pg 4 body s) := by
  intro t ht hc
  have key := governed_cases pg 4 body s
  rcases key with ⟨-, hx⟩ | ⟨-, ⟨-, hx⟩ | ⟨-, u, hu, hx⟩ | ⟨-, e, -, hx⟩⟩
  · obtain rfl := Host.Outcome.next.inj (hx.symm.trans ht)
    exact absurd hc (not_completed_takeTrap _ rfl)
  · obtain rfl := Host.Outcome.next.inj (hx.symm.trans ht)
    exact kept_retireBy d s 4
  · obtain rfl := Host.Outcome.next.inj (hx.symm.trans ht)
    have k := h u hu
    exact k.trans (by rw [← k.cur]; exact kept_retireBy d u 4)
  · obtain rfl := Host.Outcome.next.inj (hx.symm.trans ht)
    exact absurd hc (not_completed_stopBy s e)

theorem keepsBut_governedJump : KeepsBut d s (governedJump pg 4 body s) := by
  unfold governedJump
  split
  · intro t ht hc
    cases ht
    exact absurd hc (not_completed_takeTrap _ rfl)
  · split
    · exact keepsBut_finish h
    · intro t ht _
      cases ht
      exact kept_retireBy d s 4

end

/-! ### The forms of the chapter -/

theorem fields_ok {s : State} {l : List Field} {w : Work} (h : fields s l = .ok w) : w = work s := by
  unfold fields at h
  dsimp only at h
  split at h
  · exact (Except.ok.inj h).symm
  · obtain ⟨_, -, he⟩ := ok_of_map h
    exact he.symm

theorem ok_of_fields {α : Type} {s : State} {l : List Field} {f : Work → Res α} {v : α} (h : (fields s l >>= f) = .ok v) :
    f (work s) = .ok v := by
  obtain ⟨w, hw, hf⟩ := ok_of_bind h
  rwa [fields_ok hw] at hf

section
variable {α β γ : Type} {n m l : Nat} {ca cb cd : Cls} {rdA : Work → Nat → Opnd n → Res (α × Work)}
  {rdB : Work → Nat → Opnd m → Res (β × Work)} {dest : Opnd l → Dest} (hA : ReadsPorts rdA)
include hA

theorem kept_oneOp {wr : Work → Opnd l → β → Res Work} (hw : WritesDest dest wr) {g : α → β} {rd : Opnd l} {ra : Opnd n} {s t : State}
    (ho : oneOp ca cd rdA wr g rd ra s = .ok t) : Kept (dest rd) s t := by
  unfold oneOp Work.out at ho
  obtain ⟨w2, h, rfl⟩ := ok_of_map ho
  obtain ⟨⟨a, w1⟩, ha, hd⟩ := ok_of_bind (ok_of_fields h)
  exact (kept_of_onlyPortsRead (hA _ _ _ _ _ ha)).trans (hw _ _ _ _ hd)

theorem keepsBut_of_oneOp {wr : Work → Opnd l → β → Res Work} (hw : WritesDest dest wr) (ca cd : Cls) (g : α → β) {rd : Opnd l}
    {ra : Opnd n} {pg : Pg} {i : Instr} {s : State} (hx : exec i s = governed pg 4 (oneOp ca cd rdA wr g rd ra) s) :
    KeepsBut (dest rd) s (exec i s) := by
  rw [hx]
  exact keepsBut_governed fun _ h => kept_oneOp hA hw h

theorem kept_twoOp (hB : ReadsPorts rdB) {wr : Work → Opnd l → γ → Res Work} (hw : WritesDest dest wr) {g : α → β → γ} {rd : Opnd l}
    {ra : Opnd n} {rb : Opnd m} {s t : State} (ho : twoOp ca cb cd rdA rdB wr g rd ra rb s = .ok t) : Kept (dest rd) s t := by
  unfold twoOp Work.out at ho
  obtain ⟨w3, h, rfl⟩ := ok_of_map ho
  obtain ⟨⟨a, w1⟩, ha, hrest⟩ := ok_of_bind (ok_of_fields h)
  obtain ⟨⟨b, w2⟩, hb, hd⟩ := ok_of_bind hrest
  exact ((kept_of_onlyPortsRead (hA _ _ _ _ _ ha)).trans (kept_of_onlyPortsRead (hB _ _ _ _ _ hb))).trans (hw _ _ _ _ hd)

end

section
variable (s : State) (pg : Pg)

theorem keepsBut_alu2 (rd ra rb : XOp) (g : DWord → DWord → DWord) : KeepsBut (.x rd) s (alu2 rd ra rb pg g s) :=
  keepsBut_governed fun _ h => kept_twoOp readsPorts_readX readsPorts_readX writesDest_writeX h

theorem keepsBut_alu1 (rd ra : XOp) (g : DWord → DWord) : KeepsBut (.x rd) s (alu1 rd ra pg g s) :=
  keepsBut_governed fun _ h => kept_oneOp readsPorts_readX writesDest_writeX h

theorem keepsBut_cmpP (rd : POp) (ra rb : XOp) (g : DWord → DWord → Bool) : KeepsBut (.p rd) s (cmpP rd ra rb pg g s) :=
  keepsBut_governed fun _ h => kept_twoOp readsPorts_readX readsPorts_readX writesDest_writeP h

theorem keepsBut_logP (rd ra rb : POp) (g : Bool → Bool → Bool) : KeepsBut (.p rd) s (logP rd ra rb pg g s) :=
  keepsBut_governed fun _ h => kept_twoOp readsPorts_readP readsPorts_readP writesDest_writeP h

theorem keepsBut_writeX (rd : XOp) (v : State → DWord) :
    KeepsBut (.x rd) s (governed pg 4 (fun s => Work.out (writeX (work s) rd (v s))) s) := by
  refine keepsBut_governed fun u h => ?_
  obtain ⟨w, hw, rfl⟩ := ok_of_map h
  exact writesDest_writeX _ _ _ _ hw

theorem keepsBut_branch (ra rb : XOp) (off : BitVec 16) (taken : DWord → DWord → Bool) :
    KeepsBut .nothing s (branch ra rb off taken s) := by
  refine keepsBut_finish fun u h => ?_
  obtain ⟨⟨a, w1⟩, ha, hrest⟩ := ok_of_bind (ok_of_fields h)
  obtain ⟨⟨b, w2⟩, hb, hj⟩ := ok_of_bind hrest
  obtain rfl := Except.ok.inj hj
  exact ((kept_of_onlyPortsRead (readsPorts_readX _ _ _ _ _ ha)).trans (kept_of_onlyPortsRead (readsPorts_readX _ _ _ _ _ hb))).trans (kept_jumpTo _ _ _)

theorem keepsBut_jal (off : BitVec 26) : KeepsBut (.x (.reg 23)) s (execJal off s) := by
  unfold execJal
  refine keepsBut_finish fun u h => ?_
  obtain ⟨w, hw, hj⟩ := ok_of_bind h
  obtain rfl := Except.ok.inj hj
  exact (writesDest_writeX _ _ _ _ hw).trans (kept_jumpTo _ _ _)

theorem keepsBut_jalr (rd ra : XOp) (imm : BitVec 13) : KeepsBut (.x rd) s (execJalr rd ra imm pg s) := by
  refine keepsBut_governedJump fun u h => ?_
  obtain ⟨⟨a, w1⟩, ha, hd⟩ := ok_of_bind (ok_of_fields h)
  obtain ⟨w2, hw, hj⟩ := ok_of_bind hd
  obtain rfl := Except.ok.inj hj
  exact ((kept_of_onlyPortsRead (readsPorts_readX _ _ _ _ _ ha)).trans (writesDest_writeX _ _ _ _ hw)).trans (kept_jumpTo _ _ _)

end

/-- Every instruction of the chapter is one of these forms. -/
theorem keepsBut_scalar {i : Instr} {d : Dest} (s : State) (h : scalarDest i = some d) : KeepsBut d s (exec i s) := by
  cases i with
  | add rd ra rb pg | sub rd ra rb pg | and rd ra rb pg | or rd ra rb pg | xor rd ra rb pg | andn rd ra rb pg | shl rd ra rb pg
  | shr rd ra rb pg | sra rd ra rb pg | rot rd ra rb pg | addw rd ra rb pg | subw rd ra rb pg | shlw rd ra rb pg
  | shrw rd ra rb pg | sraw rd ra rb pg | mul rd ra rb pg | mulh rd ra rb pg | mulhu rd ra rb pg | mulw rd ra rb pg
  | div rd ra rb pg | divu rd ra rb pg | rem rd ra rb pg | remu rd ra rb pg | min rd ra rb pg | max rd ra rb pg
  | minu rd ra rb pg | maxu rd ra rb pg | slt rd ra rb pg | sltu rd ra rb pg | seq rd ra rb pg =>
    cases h; unfold exec; exact keepsBut_alu2 s pg rd ra rb _
  | clz rd ra pg | popc rd ra pg | brev rd ra pg => cases h; unfold exec; exact keepsBut_alu1 s pg rd ra _
  | addi rd ra imm pg => cases h; unfold exec execAddi; exact keepsBut_alu1 s pg rd ra _
  | andi rd ra imm pg => cases h; unfold exec execAndi; exact keepsBut_alu1 s pg rd ra _
  | ori rd ra imm pg => cases h; unfold exec execOri; exact keepsBut_alu1 s pg rd ra _
  | xori rd ra imm pg => cases h; unfold exec execXori; exact keepsBut_alu1 s pg rd ra _
  | slti rd ra imm pg => cases h; unfold exec execSlti; exact keepsBut_alu1 s pg rd ra _
  | sltiu rd ra imm pg => cases h; unfold exec execSltiu; exact keepsBut_alu1 s pg rd ra _
  | shli rd ra sh pg | shri rd ra sh pg | srai rd ra sh pg => cases h; unfold exec; exact keepsBut_alu1 s pg rd ra _
  | lui rd imm | auipc rd imm => cases h; unfold exec; exact keepsBut_writeX s 0 rd _
  | lih rd imm => cases h; exact keepsBut_of_oneOp readsPorts_readX writesDest_writeX .x .x _ (exec_lih rd imm s)
  | peq rd ra rb pg | pne rd ra rb pg | plt rd ra rb pg | pge rd ra rb pg | pltu rd ra rb pg | pgeu rd ra rb pg =>
    cases h; unfold exec; exact keepsBut_cmpP s pg rd ra rb _
  | pand rd ra rb pg | por rd ra rb pg | pxor rd ra rb pg => cases h; unfold exec; exact keepsBut_logP s pg rd ra rb _
  | pnot rd ra pg => cases h; exact keepsBut_of_oneOp readsPorts_readP writesDest_writeP .p .p (fun a => !a) rfl
  | pmany rd ra pg => cases h; exact keepsBut_of_oneOp readsPorts_readM writesDest_writeP .m .p (fun a => a != 0) rfl
  | mset rd ra pg => cases h; exact keepsBut_of_oneOp readsPorts_readX writesDest_writeM .x .m (fun a => BitVec.ofNat 24 a.toNat) rfl
  | mget rd ra pg => cases h; exact keepsBut_of_oneOp readsPorts_readM writesDest_writeX .m .x (fun a => dwn a.toNat) rfl
  | mnot rd ra pg => cases h; exact keepsBut_of_oneOp readsPorts_readM writesDest_writeM .m .m (fun a => ~~~a) rfl
  | beq ra rb off | bne ra rb off | blt ra rb off | bge ra rb off | bltu ra rb off | bgeu ra rb off =>
    cases h; unfold exec; exact keepsBut_branch s ra rb off _
  | jal off => cases h; unfold exec; exact keepsBut_jal s off
  | jalr rd ra imm pg => cases h; unfold exec; exact keepsBut_jalr s pg rd ra imm
  | _ => cases h

end Sys2Proof.Machine
open Sys2Proof Sys2Proof.Machine Sys2Proof.Claim

/-- Settles O19: reads change ports, a write its destination, the end of the instruction the pc and the pass. -/
theorem scalarInstructionsChangeOnlyTheirDestination : Obligations.ScalarInstructionsChangeOnlyTheirDestination := by
  unfold Obligations.ScalarInstructionsChangeOnlyTheirDestination
  intro i d s t hd hx hc
  obtain ⟨-, hbytes, hothers, hh⟩ := keepsBut_scalar s hd t hx hc
  obtain ⟨hfps, ha, hw, htl⟩ := hh.files
  exact ⟨hbytes, hothers, hh.special, hfps, ha, hw, htl, hh.x, hh.p, hh.m⟩
end

section
/-! PROOFS. Branches, jumps, nop and trap (R88, R89, R94, R95). -/
set_option Elab.async false
namespace Sys2Proof.Machine
open Sys2Proof Sys2Proof.Claim

/-! ### Targets (R88, R89) -/

theorem wordsOn_eq (pc : DWord) {n : Nat} (off : BitVec n) : wordsOn pc off.toInt = pc + 4 * off.signExtend 64 := by
  rw [wordsOn, dw, BitVec.ofInt_mul]
  rfl

/-- A jump of the agent that issued. -/
theorem next_jumpTo {s : State} {w : Work} (pc : DWord) (h : w.s.cur = s.cur) : .next (w.s.jumpTo pc) = jumps w s pc := by
  rw [State.jumpTo, h]
  rfl

theorem cur_readX {w w' : Work} {i : Nat} {f : XOp} {v : DWord} (h : readX w i f = .ok (v, w')) : w'.s.cur = w.s.cur :=
  (readsPorts_readX _ _ _ _ _ h).2.2.1

theorem cur_writeX {w w' : Work} {f : XOp} {v : DWord} (h : writeX w f v = .ok w') : w'.s.cur = w.s.cur :=
  (writesDest_writeX _ _ _ _ h).cur

/-! ### Compare-branches (R88) -/

/-- What R88 says of a compare-branch. -/
def Branches (mk : XOp → XOp → BitVec 16 → Instr) (f : DWord → DWord → Bool) : Prop :=
  ∀ (s : State) (ra rb : XOp) (off : BitVec 16), let pc := (s.hart s.cur).pc
    Looked s (mk ra rb off) [Cls.x.src ra, Cls.x.src rb]
    ((∀ x, readX (work s) 0 ra = .error x → exec (mk ra rb off) s = stops s x) ∧
    ∀ a w1, readX (work s) 0 ra = .ok (a, w1) →
      (∀ x, readX w1 1 rb = .error x → exec (mk ra rb off) s = stops s x) ∧
      ∀ b w2, readX w1 1 rb = .ok (b, w2) →
        exec (mk ra rb off) s = jumps w2 s (if f a b then pc + 4 * off.signExtend 64 else pc + 4))

theorem branches_of_branch {mk : XOp → XOp → BitVec 16 → Instr} {g f : DWord → DWord → Bool} (hv : ∀ a b, g a b = f a b)
    (hx : ∀ ra rb off s, exec (mk ra rb off) s = branch ra rb off g s) : Branches mk f := by
  obtain rfl : g = f := funext fun a => funext (hv a)
  intro s ra rb off pc
  rw [Looked, hx, branch]
  refine ⟨fun e he => ?_, fun hl => ⟨fun e he => ?_, fun a w1 ha => ⟨fun e he => ?_, fun b w2 hb => ?_⟩⟩⟩
  · simp only [he]; rfl
  · simp only [hl, he, bind, Except.bind]; rfl
  · simp only [hl, ha, he, bind, Except.bind]; rfl
  · simp only [hl, ha, hb, bind, Except.bind, wordsOn_eq]
    exact next_jumpTo _ ((cur_readX hb).trans (cur_readX ha))

/-! ### Jumps (R89) -/

theorem jal_jumps (s : State) (off : BitVec 26) : ∃ w, writeX (work s) (.reg 23) ((s.hart s.cur).pc + 4) = .ok w ∧
    exec (.jal off) s = jumps w s ((s.hart s.cur).pc + 4 * off.signExtend 64) := by
  obtain ⟨w, hw⟩ : ∃ w, writeX (work s) (.reg 23) ((s.hart s.cur).pc + 4) = .ok w := ⟨_, writeX_reg _ _ (by decide)⟩
  refine ⟨w, hw, ?_⟩
  show execJal off s = _
  simp only [execJal, hw, bind, Except.bind, wordsOn_eq]
  exact next_jumpTo _ (cur_writeX hw)

theorem jalr_jumps {s : State} (rd ra : XOp) (imm : BitVec 13) {pg : Pg} (hon : On s pg) :
    Looked s (.jalr rd ra imm pg) [Cls.x.src ra, Cls.x.dst rd]
    ((∀ x, readX (work s) 0 ra = .error x → exec (.jalr rd ra imm pg) s = stops s x) ∧
    ∀ a w1, readX (work s) 0 ra = .ok (a, w1) →
      (∀ x, writeX w1 rd ((s.hart s.cur).pc + 4) = .error x → exec (.jalr rd ra imm pg) s = stops s x) ∧
      (∀ w2, writeX w1 rd ((s.hart s.cur).pc + 4) = .ok w2 → exec (.jalr rd ra imm pg) s = jumps w2 s (a + imm.signExtend 64))) := by
  rw [Looked, show exec (.jalr rd ra imm pg) s = execJalr rd ra imm pg s from rfl, execJalr, governedJump_on _ _ hon]
  refine ⟨fun e he => ?_, fun hl => ⟨fun e he => ?_, fun a w1 ha => ⟨fun e he => ?_, fun w2 hw => ?_⟩⟩⟩
  · simp only [he]; rfl
  · simp only [hl, he, bind, Except.bind]; rfl
  · simp only [hl, ha, he, bind, Except.bind]; rfl
  · simp only [hl, ha, hw, bind, Except.bind]
    exact next_jumpTo _ ((cur_writeX hw).trans (cur_readX ha))

/-! ### nop with an uncorrectable predicate (R94, R276) -/

/-- Context 0 of cell 0 runs, and its p1 has an uncorrectable error. -/
def badPredState : State :=
  { State.reset.modHart (.ctx 0 0) (fun h => { h with run := .running, badRegs := [3 * 256 + 1] }) with cur := .ctx 0 0 }

/-- nop reads its predicate, and an uncorrectable p1 traps there. -/
theorem nop_badPredState : exec (.nop 1) badPredState = .next (badPredState.takeTrap (.ctx 0 0) (regTrap 3 1)) := by
  show governed 1 4 (fun s => .ok s) badPredState = _
  exact governed_trap (by decide +kernel)

/-! ### trap (R95) -/

theorem asBefore_walk (s : State) (root g : Nat) : AsBefore s (s.walk root g).1 := by
  unfold State.walk
  split
  · exact .noteUe s _
  · exact .refl s
  · exact .of_cells rfl rfl

theorem asBefore_dirty (s : State) (ctx : Nat) (p : Page) : AsBefore s (s.dirty ctx p).1 := by
  have hw := asBefore_walk s (s.xlat ctx).root (p.page * 2 ^ 16)
  have marked (t : State) (q : Page) (v : Nat) : AsBefore t (t.markDirty ctx q v) := .of_cells rfl rfl
  have mapped (t : State) (f : Xlat → Xlat) : AsBefore t (t.modXlat ctx f) := .of_cells rfl rfl
  unfold State.dirty
  dsimp only
  split
  · exact marked s p _
  · split
    · rename_i s' p2 he
      rw [he] at hw
      split
      · exact hw.trans (marked s' p2 _)
      · exact (hw.trans (mapped s' _)).trans (marked _ p2 _)
    · rename_i s' he
      rw [he] at hw
      exact hw.trans (.of_cells rfl rfl)

/-- A page walked for an extent that has no translation of it in use. -/
def State.freshPage (s : State) (o : Holder) (n : Nat) : State × Option Page :=
  if (s.xlat o.ctx).broken.contains n then (s, none)
  else
    match s.walk (s.xlat o.ctx).root (n * 2 ^ 16) with
    | (s', some p) =>
      (s'.modXlat o.ctx (fun x =>
        (x.mapPage n (fun q => if q.dropped then { p with owner := q.owner } else q)).setPage { p with owner := o.owner }),
        some { p with owner := o.owner })
    | (s', none) => (s'.breakNow o.ctx n, none)

theorem asBefore_freshPage (s : State) (o : Holder) (n : Nat) : AsBefore s (s.freshPage o n).1 := by
  have hw := asBefore_walk s (s.xlat o.ctx).root (n * 2 ^ 16)
  unfold State.freshPage
  split
  · exact .refl s
  · split <;> rename_i he <;> rw [he] at hw <;> exact hw.trans (.of_cells rfl rfl)

theorem asBefore_bulkPage (s : State) (o : Holder) (n : Nat) (write : Bool) : AsBefore s (s.bulkPage o n write).1 := by
  have written : ∀ r : State × Option Page, AsBefore s r.1 → AsBefore s (match r with
      | (s', some p) => if write && !p.dirty then s'.dirty o.ctx p else (s', some p)
      | (s', none) => (s', none)).1 := by
    rintro ⟨s', x⟩ hr
    cases x with
    | none => exact hr
    | some p =>
      dsimp only
      split
      · exact hr.trans (asBefore_dirty s' o.ctx p)
      · exact hr
  unfold State.bulkPage
  apply written
  split
  · split
    · exact asBefore_freshPage s o n
    · exact .refl s
  · exact asBefore_freshPage s o n

/-- A translation changes no agent. -/
theorem asBefore_translate (s : State) (o : Holder) (e : Extent) (off : Nat) (write : Bool) : AsBefore s (s.translate o e off write).1 := by
  have hb := asBefore_bulkPage s o ((e.base + off) / 2 ^ 16) write
  unfold State.translate
  dsimp only
  split
  · split <;> rename_i he <;> rw [he] at hb <;> exact hb
  · exact .refl s
  · exact .refl s
  · exact .refl s
  · exact .refl s
  · exact .refl s

/-- A frame written settles the agent's own accesses and changes no register (R46). -/
theorem onlyPend_writeFrame (s : State) (a : AgentId) (off : Nat) (bs : List Byte) : OnlyPend a s (s.writeFrame a off bs) := by
  cases a with
  | ctx p c => rw [State.writeFrame_ctx]; exact (AsBefore.framed s p _ bs).onlyPend _
  | cond k =>
    unfold State.writeFrame
    dsimp only
    split
    · exact (AsBefore.refl s).onlyPend _
    · rename_i e _
      have ht := asBefore_translate s (s.holder (.cond k)) e (fld (s.hart (.cond k)).tframe.toNat 39 12 * 4096 + off) true
      split
      · rename_i s' lo he
        rw [he] at ht
        exact ((ht.onlyPend _).trans (OnlyPend.settle s' (.cond k) _)).trans ((AsBefore.bulkFramed _ lo bs).onlyPend _)
      · rename_i s' _ _ he
        rw [he] at ht
        exact ht.onlyPend _

/-- The registers of an agent after a trap at level 0, its accesses aside. -/
theorem State.hart_takeTrap_first {s : State} {a : AgentId} (t : TrapInfo) (hl : (s.hart a).level = false) :
    ∃ l, (s.takeTrap a t).hart a = trapped { s.hart a with pend := l } t a.ctxNum a.isCond := by
  rw [State.takeTrap_first t hl, State.hart_modHart_same, (onlyPend_writeFrame s a 0 _).self]
  exact ⟨_, rfl⟩

/-- The registers of an agent after a trap at level 1, its accesses aside. -/
theorem State.hart_takeTrap_nested {s : State} {a : AgentId} (t : TrapInfo) (hl : (s.hart a).level = true) :
    ∃ l, (s.takeTrap a t).hart a = nested { s.hart a with pend := l } a.isCond := by
  rw [State.takeTrap_nested t hl]
  cases a with
  | cond k =>
    rw [State.nestedTrap_cond, State.hart_modHart_same, (onlyPend_writeFrame s (.cond k) 2048 _).self]
    exact ⟨_, rfl⟩
  | ctx p c =>
    rw [State.nestedTrap_ctx, State.hart_sendRecord, State.hart_markNested, State.hart_modCell _ _ _ (by rfl),
      State.hart_modHart_same, (AsBefore.framed s p _ _).hart]
    exact ⟨_, rfl⟩

/-- trap takes SWTRAP where its operand is read. -/
theorem trap_traps {s : State} {ra : XOp} {pg : Pg} {v : DWord} {w : Work} (hon : On s pg) (hr : readX (work s) 0 ra = .ok (v, w)) :
    exec (.trap ra pg) s = .next (w.s.takeTrap s.cur (trapOf .swtrap v 0)) := by
  show execTrap ra pg s = _
  rw [execTrap, governedJump_on _ _ hon]
  simp only [hr]
  rfl

end Sys2Proof.Machine
open Sys2Proof Sys2Proof.Machine Sys2Proof.Claim

/-- Settles O23: the branches are one form with their conditions; jal and jalr write the link, then jump. -/
theorem branchesAndJumpsPlaceThePc : Obligations.BranchesAndJumpsPlaceThePc := by
  unfold Obligations.BranchesAndJumpsPlaceThePc
  refine ⟨?_, jal_jumps, fun s rd ra imm pg hon => jalr_jumps rd ra imm hon⟩
  change ∀ e ∈ r88, Branches e.1 e.2
  simp only [r88, List.forall_mem_cons, List.not_mem_nil, false_implies, implies_true, and_true]
  refine ⟨?beq, ?bne, ?blt, ?bge, ?bltu, ?bgeu⟩
  case beq | blt | bltu => exact branches_of_branch (fun _ _ => rfl) (fun _ _ _ _ => rfl)
  case bne => exact branches_of_branch decide_ne_bne (fun _ _ _ _ => rfl)
  case bge => exact branches_of_branch decide_le_slt (fun _ _ _ _ => rfl)
  case bgeu => exact branches_of_branch decide_le_ult (fun _ _ _ _ => rfl)

/-- Refutes O24: a nop whose predicate register has an uncorrectable error takes UNCORR (R276), which raises the trap level. -/
theorem not_nopOnlyAdvances : ¬ Obligations.NopOnlyAdvances := by
  unfold Obligations.NopOnlyAdvances
  intro h
  have he := Host.Outcome.next.inj (nop_badPredState.symm.trans (h badPredState 1))
  have hl := congrArg (fun t => (t.hart (.ctx 0 0)).level) he
  revert hl
  decide +kernel

/-- Settles O25: the trap is taken in the state after the read, which has changed ports alone. -/
theorem trapInstructionRaisesSwtrapAndCommitsItsPop : Obligations.TrapInstructionRaisesSwtrapAndCommitsItsPop := by
  unfold Obligations.TrapInstructionRaisesSwtrapAndCommitsItsPop
  intro s ra pg v w hon hr
  obtain ⟨-, -, -, hw, -⟩ := readsPorts_readX _ _ _ _ _ hr
  change w.s.hart s.cur = { s.hart s.cur with ports := (w.s.hart s.cur).ports } at hw
  have hlevel : (w.s.hart s.cur).level = (s.hart s.cur).level := by rw [hw]
  refine ⟨_, trap_traps hon hr, rfl, ?_, fun hl => ?_, fun hl => ?_⟩
  · cases hl : (s.hart s.cur).level with
    | false =>
      obtain ⟨l, hh⟩ := State.hart_takeTrap_first (trapOf .swtrap v 0) (hlevel.trans hl)
      rw [hh]; rfl
    | true =>
      obtain ⟨l, hh⟩ := State.hart_takeTrap_nested (trapOf .swtrap v 0) (hlevel.trans hl)
      rw [hh]; rfl
  · obtain ⟨l, hh⟩ := State.hart_takeTrap_first (trapOf .swtrap v 0) (hlevel.trans hl)
    rw [hh, hw]
    exact ⟨rfl, rfl, rfl, rfl, rfl, rfl⟩
  · obtain ⟨l, hh⟩ := State.hart_takeTrap_nested (trapOf .swtrap v 0) (hlevel.trans hl)
    rw [hh, hw]
    exact ⟨rfl, rfl, rfl, rfl⟩
end

section
/-! PROOFS. ends, fence, wfa, halt and yield (R97, R98, R100 to R102). -/
set_option Elab.async false
namespace Sys2Proof.Machine
open Sys2Proof Sys2Proof.Claim

/-! ### What the four test and leave -/

theorem w0Of_ends (pg : Pg) : w0Of (.ends pg) = BitVec.ofNat 64 (0x6C000018 + pg.val) := by
  revert pg; decide +kernel

/-- The agent at the end of an iteration of a clause of `iters` iterations. -/
def Hart.endedIteration (a : AgentId) (iters : Nat) (h : Hart) : Hart :=
  { h.retired a 4 with run := if h.begun < iters then .waiting else .finished, arrived := none }

theorem fenceLevel_eq (a : AgentId) (sc : Scope) : fenceLevel a sc = if a.isCond ∧ sc = .cell then 0 else sc.code := by
  cases a <;> cases sc <;> rfl

theorem w0Of_wfa (pg : Pg) : w0Of (.wfa pg) = BitVec.ofNat 64 (0x6C000030 + pg.val) := by
  revert pg; decide +kernel

/-- A cell with one arrival of a line fewer. -/
def Cell.takeArrival (x : Cell) (l : Fin 16) : Cell := { x with arrivals := x.arrivals.set l (x.arrivals[l] - 1) }

/-- The clause that a conductor last launched, if any, has been torn down in its region. -/
def State.tornDown (s : State) (k : Nat) : Bool :=
  ((s.cond k).region.bind s.region).all (fun r =>
    (s.cond k).hart.clause.toNat == 0 || r.completed.contains ((s.cond k).hart.clause.toNat - 1))

theorem tornDown_iff {s : State} {k : Nat} : s.tornDown k = true ↔ (s.hart (.cond k)).clause = 0 ∨
    ∀ q r, (s.cond k).region = some q → s.region q = some r → (s.hart (.cond k)).clause.toNat - 1 ∈ r.completed := by
  have hz : (s.hart (.cond k)).clause = 0 ↔ (s.hart (.cond k)).clause.toNat = 0 := by
    rw [← BitVec.toNat_inj]; rfl
  rw [hz, State.tornDown, show (s.cond k).hart = s.hart (.cond k) from rfl]
  cases hq : (s.cond k).region with
  | none => simp
  | some q =>
    have hone (P : Region → Prop) : (∀ q' r, some q = some q' → s.region q' = some r → P r) ↔ ∀ r, s.region q = some r → P r :=
      ⟨fun h r => h q r rfl, fun h q' r hq' => by obtain rfl := Option.some.inj hq'; exact h r⟩
    rw [hone]
    cases hr : s.region q <;> simp [hr]

section
variable {s : State} {pg : Pg} (hon : On s pg)
include hon

/-! ### ends (R97, R210) -/

theorem ends_iteration {p q n r : Nat} {c : Fin 4} {cl : Clause} (ha : s.cur = .ctx p c) (hb : (s.cell p).bound = some (q, n, r))
    (hcl : s.clauseAt q n = some cl) (hl : (s.hart s.cur).level = false) :
    exec (.ends pg) s = .next (s.modHart s.cur (fun h => h.endedIteration s.cur cl.iters)) := by
  show execEnds pg s = _
  rw [execEnds, governedJump_on _ _ hon]
  dsimp only
  rw [if_neg (by simp [hl])]
  simp only [ha, hb, hcl]
  rfl

theorem ends_priv (hl : (s.hart s.cur).level = true) :
    exec (.ends pg) s = stops s (.trap (trapOf .priv (BitVec.ofNat 64 (0x6C000018 + pg.val)) 0)) := by
  show execEnds pg s = _
  rw [execEnds, governedJump_on _ _ hon, if_pos hl, w0Of_ends]
  rfl

/-! ### fence (R98, R245) -/

theorem fence_eq (sc : Scope) : exec (.fence sc pg) s =
    if s.released s.cur (fenceLevel s.cur sc) = true then .next (s.retireBy s.cur 4) else stops s (.hold .fence) := by
  show execFence sc pg s = _
  rw [execFence, governed_on 4 _ hon]
  split <;> rfl

/-! ### wfa (R100) -/

theorem wfa_eq {p : Nat} {c : Fin 4} {l : Fin 16} (ha : s.cur = .ctx p c) (hl : l.val = (s.hart s.cur).line % 16) :
    exec (.wfa pg) s =
      if (s.hart s.cur).armed = false then stops s (.trap (trapOf .undef (BitVec.ofNat 64 (0x6C000030 + pg.val)) 0))
      else if (s.cell p).arrivals[l] = 0 then stops s (.hold .wfa)
      else .next ((s.modCell p (fun x => x.takeArrival l)).retireBy s.cur 4) := by
  obtain rfl : l = Fin.ofNat 16 (s.hart s.cur).line := Fin.ext hl
  show execWfa pg s = _
  rw [execWfa, governed_on 4 _ hon, ← w0Of_wfa]
  simp only [ha]
  change finish s (Except.map _ (if (s.hart (.ctx p c)).armed = false then _
    else if (s.cell p).arrivals[Fin.ofNat 16 (s.hart (.ctx p c)).line] = 0 then _ else _)) = _
  split
  · rw [Except.map, finish_error, ha, stops, ha]
  · split
    · rw [Except.map, finish_error, ha, stops, ha]
    · rfl

/-! ### halt (R102) -/

theorem halt_eq {k : Nat} (ha : s.cur = .cond k) : exec (.halt pg) s =
    if ((s.cond k).cmds.isEmpty && s.tornDown k) = true then
      .next (s.modHart s.cur (fun h => { h with run := .halted, hold := none }))
    else stops s (.hold .halt) := by
  show execHalt pg s = _
  rw [execHalt, governedJump_on _ _ hon]
  simp only [ha]
  rw [State.tornDown]
  cases (s.cond k).region.bind s.region <;>
  · dsimp only [Option.all]
    split
    · rfl
    · rw [finish_error, ha, stops, ha]

end

/-! ### yield (R101) -/

/-- Contexts 0, 1 and 2 of cell 0 run, context 0 issues, and the passes of 1 and 2 are 2^63 apart: each is below the other by the signed
difference of R49. -/
def antipodalPasses : State :=
  let s := State.reset.modHart (.ctx 0 0) (fun h => { h with run := .running })
  let s := s.modHart (.ctx 0 1) (fun h => { h with run := .running, pass := 0 })
  let s := s.modHart (.ctx 0 2) (fun h => { h with run := .running, pass := BitVec.ofNat 64 (2 ^ 63) })
  { s with cur := .ctx 0 0 }

/-- The pass of context 0 of cell 0 in an outcome. -/
def passOf (o : Out) : Option DWord :=
  match o with
  | .next t => some (t.hart (.ctx 0 0)).pass
  | _ => none

end Sys2Proof.Machine
open Sys2Proof Sys2Proof.Machine Sys2Proof.Claim

/-- Settles O27, by the equation of each of the four. -/
theorem endsFenceWfaAndHaltActAsTheirRules : Obligations.EndsFenceWfaAndHaltActAsTheirRules := by
  unfold Obligations.EndsFenceWfaAndHaltActAsTheirRules
  refine ⟨?ends, ?fence, ?wfa, ?halt⟩
  case ends =>
    intro s p q n r c cl pg hon ha hb hcl h
    refine ⟨fun hl => ⟨_, ends_iteration hon ha hb hcl hl, ?_⟩, ends_priv hon⟩
    rw [State.hart_modHart_same, Hart.endedIteration, Hart.retired_frame]
    exact ⟨rfl, rfl, rfl, rfl, rfl, rfl, rfl, State.getByte_modHart _ _ _, fun b hb => State.hart_modHart_other _ _ hb⟩
  case fence =>
    intro s sc pg hon lvl
    rw [fence_eq hon, fenceLevel_eq]
    exact ⟨fun hr => if_pos hr, fun hr => if_neg (by simp [lvl, hr])⟩
  case wfa =>
    intro s p c pg l hon ha hl
    rw [wfa_eq hon ha hl]
    refine ⟨fun harm hpos => ⟨s.modCell p (fun x => x.takeArrival l), ?_, ?_, ?_, ?_⟩, fun harm hzero => ?_, fun harm => if_pos harm⟩
    · rw [if_neg (by simp [harm]), if_neg (by intro h0; simp [h0] at hpos)]
    · rw [State.cell_modCell_same]; rfl
    · exact State.getByte_modCell _ _ _ rfl
    · exact State.hart_modCell _ _ _ rfl
    · rw [if_neg (by simp [harm]), if_pos hzero]
  case halt =>
    intro s k pg hon ha torn
    have ht : torn ↔ s.tornDown k = true := by rw [tornDown_iff, ← ha]
    rw [halt_eq hon ha, ht]
    refine ⟨fun hc hd => ⟨_, if_pos (by simp [hc, hd]), State.hart_modHart_same _ _ _, State.getByte_modHart _ _ _,
      fun b hb => State.hart_modHart_other _ _ hb⟩, fun hh => if_neg ?_⟩
    rw [Bool.and_eq_true, List.isEmpty_iff]
    rintro ⟨hc, hd⟩
    exact hh.elim (· hc) (· hd)

/-- Refutes O28: among passes that are 2^63 apart each is below the other, so that the words fix no largest. -/
theorem not_yieldRaisesThePassAboveTheOthers : ¬ Obligations.YieldRaisesThePassAboveTheOthers := by
  unfold Obligations.YieldRaisesThePassAboveTheOthers
  rintro ⟨-, h⟩
  have hon : On antipodalPasses 0 := .inl rfl
  obtain ⟨-, hmax⟩ := h antipodalPasses 0 0 0 hon rfl
  obtain ⟨t, he, -, -, hp⟩ := hmax 1 (by decide +kernel) (by decide +kernel) (by decide +kernel)
  have hpass : passOf (.next t) = some 65536 := by
    rw [passOf, show t.hart (.ctx 0 0) = _ from hp]
    decide +kernel
  rw [← he] at hpass
  revert hpass
  decide +kernel
end

section
/-! PROOFS. Barriers (R99, R274). -/
set_option Elab.async false
namespace Sys2Proof.Machine
open Sys2Proof Sys2Proof.Claim

/-! ### Who has arrived -/

theorem arrivedAt_ctx_iff (g h : Hart) : h.arrivedAt false g.begun g.barCount = true ↔ reached g h := by
  simp [Hart.arrivedAt, reached, or_assoc]

theorem arrivedAt_cond_iff (h : Hart) (b n : Nat) :
    h.arrivedAt true b n = true ↔ h.run = .halted ∨ n < h.barCount ∨ h.arrived = some n := by
  simp [Hart.arrivedAt, or_assoc]

/-! ### The participants waited for -/

theorem stage_present_iff {ro : RoleDesc} {d : Nat} :
    (ro.stage d).present = true ↔ ∃ st, ro.stages[d]? = some st ∧ st.present = true := by
  rw [RoleDesc.stage, List.getD_eq_getElem?_getD]
  cases ro.stages[d]? <;> simp [StageDesc.none]

/-- The present stages of a role, as the model lists them and by their contexts. -/
theorem exists_present_iff {ro : RoleDesc} (hlen : ro.stages.length ≤ 4) (P : Fin 4 → Prop) :
    (∃ st ∈ ro.stages.zipIdx.filter (fun st => st.1.present), P (Fin.ofNat 4 st.2)) ↔
      ∃ d : Fin 4, (ro.stage d.val).present = true ∧ P d := by
  simp only [List.mem_filter, List.mem_zipIdx_iff_getElem?, stage_present_iff]
  constructor
  · rintro ⟨⟨st, i⟩, ⟨hst, hp⟩, hP⟩
    have hi : i < ro.stages.length := (List.getElem?_eq_some_iff.1 hst).1
    exact ⟨Fin.ofNat 4 i, ⟨st, by rwa [Fin.val_ofNat, Nat.mod_eq_of_lt (by omega)], hp⟩, hP⟩
  · rintro ⟨d, ⟨st, hst, hp⟩, hP⟩
    refine ⟨(st, d.val), ⟨hst, hp⟩, ?_⟩
    rwa [show Fin.ofNat 4 d.val = d from Fin.ext (Nat.mod_eq_of_lt d.isLt)]

/-- A stage's participants: the present stages of the roles not released, unknown while their role has not loaded. -/
theorem mem_barPeers_ctx {s : State} {p q m : Nat} {c : Fin 4} {cl : Clause} (h : inClauseOf s p q m cl) {b : Option AgentId} :
    b ∈ s.barPeers (.ctx p c) ↔ ∃ i ro, cl.roles[i]? = some ro ∧ cl.released.contains i = false ∧
      ∃ d : Fin 4, (ro.stage d.val).present = true ∧
        b = if cl.loaded.contains i then some (.ctx (cl.cells.getD i 0) d) else none := by
  obtain ⟨⟨r, hb⟩, hcl, hlen⟩ := h
  simp only [State.barPeers, hb, hcl, List.mem_flatMap, List.mem_map]
  constructor
  · rintro ⟨⟨ro, i⟩, hro, hst⟩
    obtain ⟨hro, hrel⟩ := List.mem_filter.1 hro
    have hi : cl.roles[i]? = some ro := List.mem_zipIdx_iff_getElem?.1 hro
    exact ⟨i, ro, hi, by simpa using hrel, (exists_present_iff (hlen ro (List.mem_of_getElem? hi)) _).1 (by simpa only [eq_comm] using hst)⟩
  · rintro ⟨i, ro, hi, hrel, hst⟩
    refine ⟨(ro, i), List.mem_filter.2 ⟨List.mem_zipIdx_iff_getElem?.2 hi, by simpa using hrel⟩, ?_⟩
    obtain ⟨st, hm, he⟩ := (exists_present_iff (hlen ro (List.mem_of_getElem? hi)) _).2 hst
    exact ⟨st, hm, he.symm⟩

/-- A participant holds nobody up: its role has loaded, and it is the agent itself or has arrived. -/
def State.donePeer (s : State) (a : AgentId) (n : Nat) (b : Option AgentId) : Prop :=
  ∃ d, b = some d ∧ (d = a ∨ (s.hart d).arrivedAt a.isCond (s.hart a).begun n = true)

theorem barDone_iff {s : State} {a : AgentId} {n : Nat} : s.barDone a n = true ↔ ∀ b ∈ s.barPeers a, s.donePeer a n b := by
  rw [State.barDone, List.all_eq_true]
  refine forall₂_congr fun b _ => ?_
  cases b <;> simp [State.donePeer]

theorem barDone_ctx_iff {s : State} {p q m : Nat} {c : Fin 4} {cl : Clause} (h : inClauseOf s p q m cl) :
    s.barDone (.ctx p c) (s.hart (.ctx p c)).barCount = true ↔ allReached s p c cl := by
  have hpeer (i : Nat) (d : Fin 4) : s.donePeer (.ctx p c) (s.hart (.ctx p c)).barCount
      (if cl.loaded.contains i then some (.ctx (cl.cells.getD i 0) d) else none) ↔ cl.loaded.contains i = true ∧
      (AgentId.ctx (cl.cells.getD i 0) d = .ctx p c ∨ reached (s.hart (.ctx p c)) (s.hart (.ctx (cl.cells.getD i 0) d))) := by
    cases cl.loaded.contains i with
    | false => simp [State.donePeer]
    | true =>
      simp only [State.donePeer, if_true, Option.some.injEq, exists_eq_left', true_and, ← arrivedAt_ctx_iff]
      rfl
  rw [barDone_iff]
  constructor
  · intro hall i ro hi d hd hrel
    exact (hpeer i d).1 (hall _ ((mem_barPeers_ctx h).2 ⟨i, ro, hi, hrel, d, hd, rfl⟩))
  · intro hall b hb
    obtain ⟨i, ro, hi, hrel, d, hd, rfl⟩ := (mem_barPeers_ctx h).1 hb
    exact (hpeer i d).2 (hall i ro hi d hd hrel)

theorem barDone_cond_iff {s : State} {k q : Nat} {r : Region} (hq : (s.cond k).region = some q) (hr : s.region q = some r) :
    s.barDone (.cond k) (s.hart (.cond k)).barCount = true ↔ condsReached s k r := by
  simp [State.barDone, State.barPeers, hq, hr, AgentId.isCond, arrivedAt_cond_iff, condsReached]

/-- Nothing that a barrier reads of other agents is in the agent's own registers. -/
theorem barPeers_modHart (s : State) (a b : AgentId) (f : Hart → Hart) : (s.modHart a f).barPeers b = s.barPeers b := by
  cases b with
  | ctx p c =>
    have hb : ((s.modHart a f).cell p).bound = (s.cell p).bound := by rw [State.cell_modHart]
    simp only [State.barPeers, hb, State.clauseAt_modHart]
  | cond k =>
    have hb : ((s.modHart a f).cond k).region = (s.cond k).region := by rw [State.cond_modHart]
    simp only [State.barPeers, hb, funext (State.region_modHart s a f)]

/-- A participant that notes its arrival does not wait for itself. -/
theorem barDone_modHart (s : State) (a : AgentId) {f : Hart → Hart} (n : Nat) (hf : (f (s.hart a)).begun = (s.hart a).begun) :
    (s.modHart a f).barDone a n = s.barDone a n := by
  have hpeer (b : Option AgentId) : (s.modHart a f).donePeer a n b ↔ s.donePeer a n b := by
    refine exists_congr fun d => and_congr_right fun _ => ?_
    by_cases hd : d = a
    · simp [hd]
    · rw [State.hart_modHart_other s f hd, State.hart_modHart_same, hf]
  rw [Bool.eq_iff_iff, barDone_iff, barDone_iff, barPeers_modHart]
  exact forall₂_congr fun b _ => hpeer b

/-! ### bar -/

/-- Retirement does not touch a noted arrival. -/
theorem Hart.retired_arrived (h : Hart) (a : AgentId) (n : Nat) (x : Option Nat) :
    ({ h with arrived := x } : Hart).retired a n = { h.retired a n with arrived := x } := by
  unfold Hart.retired
  dsimp only
  split
  · split <;> rfl
  · rfl

section
variable {s : State} {pg : Pg} (hon : On s pg)
include hon

theorem bar_holds (hr : s.released s.cur 2 = false) : exec (.bar pg) s = stops s (.hold .bar) := by
  show execBar pg s = _
  rw [execBar, governedJump_on _ _ hon]
  exact (congrArg (finish s) (if_pos hr)).trans rfl

/-- The agent has arrived: it passes where all have, and waits otherwise. -/
theorem bar_arrives (hr : s.released s.cur 2 = true) : exec (.bar pg) s =
    if s.barDone s.cur (s.hart s.cur).barCount = true then
      .next ((s.modHart s.cur (fun h => { h with arrived := some (s.hart s.cur).barCount })).passBar s.cur)
    else .next ((s.modHart s.cur (fun h => { h with arrived := some (s.hart s.cur).barCount })).holdBy s.cur .bar) := by
  show execBar pg s = _
  rw [execBar, governedJump_on _ _ hon]
  dsimp only
  rw [if_neg (by simp [hr]), barDone_modHart s s.cur (s.hart s.cur).barCount (by rfl)]
  split <;> rfl

theorem bar_passes (hr : s.released s.cur 2 = true) (hd : s.barDone s.cur (s.hart s.cur).barCount = true) :
    ∃ t, exec (.bar pg) s = .next t ∧
      t.hart s.cur = { (s.hart s.cur).retired s.cur 4 with barCount := (s.hart s.cur).barCount + 1, arrived := none } ∧
      SameBytes s t ∧ SameOthers s t := by
  refine ⟨_, (bar_arrives hon hr).trans (if_pos hd), ?_, ?_, ?_⟩
  · rw [State.passBar, State.hart_modHart_same, State.hart_modHart_same, Hart.retired_arrived]
  · intro y
    rw [State.passBar, State.getByte_modHart, State.getByte_modHart]
  · intro b hb
    rw [State.passBar, State.hart_modHart_other _ _ hb, State.hart_modHart_other _ _ hb]

theorem bar_waits (hr : s.released s.cur 2 = true) (hd : ¬ s.barDone s.cur (s.hart s.cur).barCount = true) :
    ∃ t, exec (.bar pg) s = .next t ∧
      t.hart s.cur = { s.hart s.cur with arrived := some (s.hart s.cur).barCount, hold := some .bar } ∧
      SameBytes s t ∧ SameOthers s t := by
  refine ⟨_, (bar_arrives hon hr).trans (if_neg hd), ?_, ?_, ?_⟩
  · rw [State.holdBy, State.hart_modHart_same, State.hart_modHart_same]
  · intro y
    rw [State.holdBy, State.getByte_modHart, State.getByte_modHart]
  · intro b hb
    rw [State.holdBy, State.hart_modHart_other _ _ hb, State.hart_modHart_other _ _ hb]

end

/-! ### BARRIER_COMPLETE -/

theorem mem_barAgents_iff {s : State} {q : Nat} {n : Option Nat} {a : AgentId} : a ∈ s.barAgents q n ↔ atBarrierOf s q a n := by
  cases n with
  | none => cases h : s.region q <;> simp [State.barAgents, atBarrierOf, h, eq_comm (a := a)]
  | some m => cases h : s.clauseAt q m <;> simp [State.barAgents, atBarrierOf, h, eq_comm (a := a), and_assoc]

theorem mem_barReady_iff {s : State} {q : Nat} {n : Option Nat} {a : AgentId} : a ∈ s.barReady q n ↔ atBarrierOf s q a n ∧
    (s.hart a).replayed = 0 ∧ ∃ k, (s.hart a).arrived = some k ∧ s.barDone a k = true := by
  rw [State.barReady, List.mem_filter, mem_barAgents_iff]
  cases (s.hart a).arrived <;> simp

/-- Readiness noted: only the pass and the run of ready cycles of the agent change. -/
def Hart.readied (h : Hart) (pass : DWord) (since upto : Nat) : Hart := { h with pass := pass, readyFrom := since, readyAt := upto }

theorem becomeReady_cases (x : Cell) (cycle : Nat) (c : Fin 4) :
    x.becomeReady cycle c = x ∨ ∃ p u v, x.becomeReady cycle c = { x with ctx := x.ctx.set c (x.ctx[c].readied p u v) } := by
  unfold Cell.becomeReady
  dsimp only
  split
  · exact .inl rfl
  · right
    split
    · split <;> exact ⟨_, _, _, rfl⟩
    · exact ⟨_, _, _, rfl⟩

theorem nowReady_cases (s : State) (a : AgentId) :
    (SameBytes s (s.nowReady a) ∧ ∀ b, (s.nowReady a).hart b = s.hart b) ∨
      ∃ p u v, s.nowReady a = s.modHart a (fun h => h.readied p u v) := by
  cases a with
  | cond k => exact .inl ⟨fun _ => rfl, fun _ => rfl⟩
  | ctx p c =>
    obtain he | ⟨pass, u, v, he⟩ := becomeReady_cases (s.cell p) s.cycle c
    · exact .inl ⟨State.getByte_modCell s p _ (by rw [he]), State.hart_modCell s p _ (by rw [he])⟩
    · right
      refine ⟨pass, u, v, ?_⟩
      rw [State.nowReady, State.modCell, he]
      rfl

/-- One participant passes. -/
def State.passOne (s : State) (a : AgentId) : State := (s.nowReady a).passBar a

/-- What a participant that passes has become. -/
def Passed (a : AgentId) (g h : Hart) : Prop :=
  h.barCount = g.barCount + 1 ∧ h.arrived = none ∧ h.hold = none ∧ h.pc = (g.retired a 4).pc ∧ h.x = g.x

/-- Where an instruction leads does not depend on readiness. -/
theorem Hart.retired_pc_readied (h : Hart) (a : AgentId) (n : Nat) (p : DWord) (u v : Nat) :
    ((h.readied p u v).retired a n).pc = (h.retired a n).pc := by
  unfold Hart.retired Hart.readied
  dsimp only
  split
  · split <;> rfl
  · rfl

theorem passed_passBar (h : Hart) (a : AgentId) : Passed a h { h.retired a 4 with barCount := h.barCount + 1, arrived := none } := by
  refine ⟨rfl, rfl, ?_, rfl, ?_⟩ <;> rw [Hart.retired_frame]

theorem sameBytes_passOne (s : State) (a : AgentId) : SameBytes s (s.passOne a) := by
  intro y
  rw [State.passOne, State.passBar, State.getByte_modHart]
  obtain ⟨hy, -⟩ | ⟨p, u, v, he⟩ := nowReady_cases s a
  · exact hy y
  · rw [he, State.getByte_modHart]

theorem hart_passOne_other (s : State) {a b : AgentId} (hb : b ≠ a) : (s.passOne a).hart b = s.hart b := by
  rw [State.passOne, State.passBar, State.hart_modHart_other _ _ hb]
  obtain ⟨-, hh⟩ | ⟨p, u, v, he⟩ := nowReady_cases s a
  · exact hh b
  · rw [he, State.hart_modHart_other _ _ hb]

theorem passed_passOne (s : State) (a : AgentId) : Passed a (s.hart a) ((s.passOne a).hart a) := by
  rw [State.passOne, State.passBar, State.hart_modHart_same]
  obtain ⟨-, hh⟩ | ⟨p, u, v, he⟩ := nowReady_cases s a
  · rw [hh]
    exact passed_passBar _ _
  · rw [he, State.hart_modHart_same]
    obtain ⟨hn, harr, hhold, hpc, hx⟩ := passed_passBar ((s.hart a).readied p u v) a
    exact ⟨hn, harr, hhold, hpc.trans (Hart.retired_pc_readied _ _ _ _ _ _), hx⟩

theorem sameBytes_passAll (l : List AgentId) (s : State) : SameBytes s (passAll l s) := by
  induction l generalizing s with
  | nil => exact fun _ => rfl
  | cons a l ih => exact fun y => (ih (s.passOne a) y).trans (sameBytes_passOne s a y)

theorem hart_passAll_other {b : AgentId} (l : List AgentId) (s : State) (hb : b ∉ l) : (passAll l s).hart b = s.hart b := by
  induction l generalizing s with
  | nil => rfl
  | cons a l ih =>
    obtain ⟨ha, hl⟩ := not_or.1 (List.mem_cons.not.1 hb)
    exact (ih (s.passOne a) hl).trans (hart_passOne_other s ha)

theorem passed_passAll {b : AgentId} (l : List AgentId) (s : State) (hb : b ∈ l) (hl : l.Nodup) :
    Passed b (s.hart b) ((passAll l s).hart b) := by
  induction l generalizing s with
  | nil => exact absurd hb List.not_mem_nil
  | cons a l ih =>
    obtain ⟨ha, hl⟩ := List.nodup_cons.1 hl
    show Passed b (s.hart b) ((passAll l (s.passOne a)).hart b)
    obtain rfl | hb := List.mem_cons.1 hb
    · rw [hart_passAll_other l _ ha]
      exact passed_passOne s b
    · have hne : b ≠ a := fun h => ha (h ▸ hb)
      rw [← hart_passOne_other s hne]
      exact ih (s.passOne a) hb hl

/-- BARRIER_COMPLETE of a region that moves or not. -/
theorem barrierComplete_eq {s : State} {q : Nat} {r : Region} (n : Option Nat) (hr : s.region q = some r) :
    exec (.barrierComplete q n) s = if r.phase.moves = true then .next (passAll (s.barReady q n) s) else .next s := by
  show execBarrierComplete q n s = _
  rw [execBarrierComplete, hr]
  rfl

end Sys2Proof.Machine
open Sys2Proof Sys2Proof.Machine Sys2Proof.Claim

/-- Settles O29: barDone is the participants' condition; bar answers by it, and BARRIER_COMPLETE passes one participant after another. -/
theorem barrierWaitsForEveryParticipant : Obligations.BarrierWaitsForEveryParticipant := by
  unfold Obligations.BarrierWaitsForEveryParticipant
  refine ⟨?bar, fun s p q m c cl h => barDone_ctx_iff h, fun s k q r hq hr => barDone_cond_iff hq hr,
    fun s q n a => mem_barReady_iff, ?complete⟩
  case bar =>
    intro s pg hon h passes waits
    have arrives {P : Prop} (hr : s.released s.cur 2 = true) (hP : s.barDone s.cur (s.hart s.cur).barCount = true ↔ P) :
        (P → passes) ∧ (¬ P → waits) :=
      ⟨fun hp => bar_passes hon hr (hP.2 hp), fun hp => bar_waits hon hr (fun hd => hp (hP.1 hd))⟩
    refine ⟨bar_holds hon, fun hr => ⟨fun p q m c cl ha hc => arrives hr ?_, fun k q r ha hq hreg => arrives hr ?_⟩⟩
    · rw [ha]
      exact barDone_ctx_iff hc
    · rw [ha]
      exact barDone_cond_iff hq hreg
  case complete =>
    intro s q n r hr
    rw [barrierComplete_eq n hr]
    exact ⟨fun hm => if_neg (by simp [hm]), fun hm => ⟨_, if_pos hm, sameBytes_passAll _ s,
      fun a ha hnd => passed_passAll _ s ha hnd, fun a ha => hart_passAll_other _ s ha⟩⟩
end
